-- ==== Sys2Proof/Word.lean ====
section
/-!
DEFINITION. The words of the Kalok X9: the widths the spec gives its registers, and the plainest arithmetic on them.
-/
set_option Elab.async false
namespace Sys2Proof

/-- A general register of a control thread, and every 64-bit system register (R13, R24). -/
abbrev Word := BitVec 64

/-- One byte of memory (R6). -/
abbrev Byte := BitVec 8

/-- One instruction word (R252). -/
abbrev IWord := BitVec 32

/-- A general-register number of six bits (R254). -/
abbrev Reg := BitVec 6

/-- A predicate number of three bits (R254). -/
abbrev Pred := BitVec 3

/-- An entry of the scale register file: eight bits (R260). -/
abbrev SName := BitVec 8

/-- A 40-bit element container (R36). -/
abbrev Elem := BitVec 40

/-- The `i`-th byte of a value, least significant first (R6). -/
def byteOf {w : Nat} (v : BitVec w) (i : Nat) : Byte := v.extractLsb' (8 * i) 8

/-- The `n` bytes of a number, least significant first. -/
def natBytes : Nat → Nat → List Byte
  | 0, _ => []
  | n + 1, v => BitVec.ofNat 8 v :: natBytes n (v / 256)

/-- The number a list of bytes holds, least significant first. -/
def bytesNat : List Byte → Nat
  | [] => 0
  | b :: bs => b.toNat + 256 * bytesNat bs

/-- The field `[hi:lo]` of a number. -/
def fld (v hi lo : Nat) : Nat := v / 2 ^ lo % 2 ^ (hi + 1 - lo)

end Sys2Proof
end

