-- ==== Sys2Proof/Syntax.lean ====
section
/-!
DEFINITION. The steps of the Kalok X9: one constructor per row of spec/opcode_table.json. Control-thread
instructions carry the fields of their word (12_formats_and_opcode_map.md R254 to R262), each at its encoded width.
Steps of the host, of the fabric, of the engines and of the services have no encoding: they carry what the agent
that takes the step chooses (which processing element, launch or unit, and the message or outcome that arrives).
-/
namespace Sys2Proof

/-- Atomic operations of AMO and ATOMN (R258, AOP), in code order. -/
inductive AmoOp | swap | add | and | or | xor | min | max
  deriving DecidableEq, Repr

/-- Comparison conditions of CMP (R257, CC), in code order. -/
inductive CmpCond | eq | ne | lt | ge | ltu | geu
  deriving DecidableEq, Repr

/-- Collective operations (R262, COP), in code order. -/
inductive CollOp | allreduce | reduce | reducescatter | allgather | broadcast
  deriving DecidableEq, Repr

/-- Combining operations of a collective (R262, OPR), in code order. -/
inductive CollRed | add | min | max
  deriving DecidableEq, Repr

/-- Element formats of a collective (R262, FMT), in code order. -/
inductive CollFmt | fp32 | bf16 | x40w | int32 | x40i
  deriving DecidableEq, Repr

/-- A Kalok Command Protocol message as it arrives: all its bytes, the virtual devices that its security association may
command, none where it comes under no association, the host port, and the ROD connection it came on (R210, R211, R214). -/
structure Kcp where
  bytes : List Byte
  port  : Nat
  vds   : List Nat
  conn  : Option Nat
  deriving DecidableEq, Repr

/-- What another module asks of this one through the load-store domain (R205). -/
inductive RemoteOp
  | read (len : Nat)
  | write (data : List Byte)
  | amo (op : AmoOp) (len : Nat) (opnd : Nat)
  | cas (len : Nat) (expected new : Nat)
  deriving DecidableEq, Repr

/-- A remote access: the domain, the virtual device and the member asking, the physical byte address at this module, the slot of
the leaf, the operation (R205). -/
structure RemoteReq where
  domain : Nat
  vd     : Nat
  member : Nat
  addr   : Nat
  slot   : Nat
  op     : RemoteOp
  deriving DecidableEq, Repr

/-- KIND of a token (R37). -/
inductive TKind | data | null | eos | eor | mark | swap | reserved (k : Nat)
  deriving DecidableEq, Repr

/-- A token (R36): KIND, STAG, COLOUR, ERR, the reserved header bits, SEQ, CHAN, the valid bits and the elements. -/
structure Token where
  kind   : TKind
  stag   : Nat
  colour : Nat
  err    : Bool
  rsv    : Nat
  seq    : Nat
  chan   : Nat
  valid  : BitVec 16
  elems  : List Elem
  deriving DecidableEq, Repr

/-- What a lease's patterns found when it ends (R194). -/
inductive LeaseResult
  | clean
  | corrected (n : Nat)
  | failed
  deriving DecidableEq, Repr

/-- The steps of the X9. -/
inductive Instr
  -- the host and the module's services
  | powerOn
  | nurseryExit (ok : Bool)
  | openVd (m : Kcp)
  | closeVd (m : Kcp)
  | map (m : Kcp)
  | write (m : Kcp)
  | read (m : Kcp)
  | launchStart (m : Kcp)
  | launchResume (m : Kcp)
  | launchEnd (m : Kcp)
  | launchDrain (m : Kcp)
  | events (m : Kcp)
  | attest (m : Kcp)
  | logFetch (m : Kcp)
  | receiptFetch (m : Kcp)
  -- Marten and the threads
  | placement
  | queueRetry
  | threadAdmission (cc : Nat)
  | gangStart (lseq : Nat)
  | launchComplete (lseq : Nat)
  | instructionIssue (cc : Nat)
  | wfeWake (tid : Nat)
  | loadReturn (tid : Nat)
  | siblingWindowRelease (tid : Nat)
  | remoteAccess (r : RemoteReq)
  | correctedError (unit : Nat)
  | backedPageResident (plot page : Nat)
  -- the fabric
  | tokenArrival (lseq chan : Nat)
  | edgePortCrossing (lseq chan : Nat)
  | handlerFiring (pe : Nat)
  | handlerPromotion (pe h : Nat)
  | planeSwap (pe : Nat)
  | matrixPlotSwap (plot : Nat)
  | matrixVector (plot : Nat)
  | loadw (plot : Nat)
  | agElement (lseq node : Nat)
  | heldElementRetry (lseq node : Nat)
  | fifoSpill (lseq chan : Nat)
  | streamEnd (lseq node : Nat)
  -- engines and tasks
  | commandIssue (tid : Nat)
  | copyUnit (die : Nat)
  | eventRecordPost (cc : Nat)
  | taskStart (lseq q : Nat)
  | collectiveStart (vd comm : Nat)
  | collectiveCombine (vd comm : Nat)
  | collectiveComplete (vd comm : Nat)
  | collectiveAbandon (vd comm : Nat)
  | faultRecordWrite (lseq : Nat)
  | replayRequest (lseq idx : Nat)
  | replayToken (lseq idx : Nat)
  | owlFire (lseq part : Nat)
  -- pre-emption and power
  | preemption (lseq : Nat)
  | timeSliceEnd (vd : Nat)
  | relocation (lseq : Nat)
  | restore (lseq : Nat)
  | variantNarrow (lseq : Nat)
  | powerArbitration
  -- Brock
  | scoreDecay
  | routineLease (unit : Nat)
  | plotLease (plot : Nat)
  | leaseDeferredRetry (unit : Nat)
  | leaseForce (plot : Nat)
  | laneGroupLease (unit : Nat)
  | memoryWindowTest (chan : Nat) (res : LeaseResult)
  | leaseEnd (unit : Nat) (res : LeaseResult)
  | retirement (unit : Nat)
  | linkRetry (unit : Nat)
  -- security registers: the row's own form of MTS
  | engagementOpen (a : Reg)
  | engagementClose (a : Reg)
  | engagementGrant (a : Reg)
  | engctlSet (a : Reg)
  | fbstatWrite (a : Reg)
  | vdqmaskWrite (a : Reg)
  | monitorConfigWrite (sr : BitVec 12) (a : Reg)
  | monitorWindowEnd (vd mon : Nat)
  | logBlockSeal (vd mon : Nat)
  -- integer and address words
  | nop
  | add (d a b : Reg)
  | sub (d a b : Reg)
  | mul (d a b : Reg)
  | mulh (d a b : Reg)
  | mulhu (d a b : Reg)
  | div (d a b : Reg)
  | divu (d a b : Reg)
  | rem (d a b : Reg)
  | remu (d a b : Reg)
  | and (d a b : Reg)
  | or (d a b : Reg)
  | xor (d a b : Reg)
  | sll (d a b : Reg)
  | srl (d a b : Reg)
  | sra (d a b : Reg)
  | min (d a b : Reg)
  | max (d a b : Reg)
  | minu (d a b : Reg)
  | maxu (d a b : Reg)
  | clz (d a : Reg)
  | ctz (d a : Reg)
  | popc (d a : Reg)
  | addsc (k : BitVec 2) (d a b : Reg)
  | sel (n : Pred) (d a b : Reg)
  | addImm (d a : Reg) (i : BitVec 14)
  | andImm (d a : Reg) (i : BitVec 14)
  | orImm (d a : Reg) (i : BitVec 14)
  | xorImm (d a : Reg) (i : BitVec 14)
  | sllImm (d a : Reg) (m : BitVec 6)
  | srlImm (d a : Reg) (m : BitVec 6)
  | sraImm (d a : Reg) (m : BitVec 6)
  | addLong (d a : Reg) (i : BitVec 46)
  | andLong (d a : Reg) (i : BitVec 46)
  | orLong (d a : Reg) (i : BitVec 46)
  | xorLong (d a : Reg) (i : BitVec 46)
  | bfx (d a : Reg) (pos lenm1 : BitVec 6)
  | bfxS (d a : Reg) (pos lenm1 : BitVec 6)
  | bfi (d a : Reg) (pos lenm1 : BitVec 6)
  | cmpCc (p : Pred) (c : CmpCond) (a b : Reg)
  | cmpCcImm (p : Pred) (c : CmpCond) (a : Reg) (i : BitVec 14)
  -- memory words
  | ld (d a : Reg) (sz : BitVec 2) (u : Bool) (off : BitVec 11)
  | st (b a : Reg) (sz : BitVec 2) (off : BitVec 11)
  | ldAcq (d a : Reg) (sz : BitVec 2) (u : Bool) (scope : BitVec 3) (off : BitVec 8)
  | stRel (b a : Reg) (sz : BitVec 2) (scope : BitVec 3) (off : BitVec 8)
  | amoW (op : AmoOp) (d a b : Reg) (ord : BitVec 2) (scope : BitVec 3)
  | amoD (op : AmoOp) (d a b : Reg) (ord : BitVec 2) (scope : BitVec 3)
  | casW (d a b : Reg) (ord : BitVec 2) (scope : BitVec 3)
  | casD (d a b : Reg) (ord : BitVec 2) (scope : BitVec 3)
  | cas16 (d a b : Reg) (ord : BitVec 2) (scope : BitVec 3)
  | fence (scope : BitVec 3)
  | prefDc (a : Reg) (i : BitVec 14)
  | prefL2 (a : Reg) (i : BitVec 14)
  -- control flow and system words
  | br (p : Pred) (off : BitVec 22)
  | brN (p : Pred) (off : BitVec 22)
  | jal (d : Reg) (off : BitVec 20)
  | jalr (d a : Reg) (i : BitVec 14)
  | loop (a : Reg) (endOff : BitVec 14)
  | halt
  | yield
  | mfs (d : Reg) (sr : BitVec 12)
  | mts (sr : BitVec 12) (a : Reg)
  | trap (e : BitVec 16)
  | rett
  | wfe
  | getev (p : Pred) (d : Reg)
  | wrpk (a : Reg)
  | mtt (n : BitVec 5) (a : Reg)
  -- scale words
  | smul (d a b : SName)
  | smax (d a b : SName)
  | srcp (d a : SName)
  | sexp2 (d a : SName)
  | scopy (d a : SName)
  | scvt (d a : SName) (bf16 : Bool) (rm : BitVec 2)
  | smov (s : SName) (a : Reg)
  | sread (d : Reg) (s : SName)
  | sbindS (d a : Reg)
  | sfree (a : Reg)
  -- engine and stream words
  | sbind (ctr : BitVec 2) (port : BitVec 13) (a u : Reg)
  | sbindHandle (h : BitVec 4) (port : BitVec 13) (a : Reg) (log2n : BitVec 4) (u : Reg)
  | sbar (mask : BitVec 4)
  | sbarComplete (tid : Nat)
  | glaunch (a u : Reg)
  | gloadsh (a u : Reg)
  | gswap (a u : Reg)
  | gdrain (a u : Reg)
  | gresume (a u : Reg)
  | gend (a u : Reg)
  | cpy (ctr : BitVec 2) (q : BitVec 4) (d a l u : Reg)
  | cpyT (ctr : BitVec 2) (q : BitVec 4) (d a u : Reg)
  | cpym (ctr : BitVec 2) (q : BitVec 4) (d a c u : Reg)
  | qfence (mask : BitVec 16)
  | qfenceColl (mask : BitVec 16)
  | postc (q : BitVec 4) (a : Reg)
  | taskend
  | evpost (n : BitVec 3) (a b : Reg)
  | coll (op : CollOp) (red : CollRed) (fmt : CollFmt) (sc : Bool) (ctr : BitVec 2) (q : BitVec 4) (a : Reg)
      (root : BitVec 10) (u : Reg)
  | gbar (grp : BitVec 8)
  | gbarComplete (tid : Nat)
  | cbwaitf (h : BitVec 4) (n : BitVec 11)
  | cbwaite (h : BitVec 4) (n : BitVec 11)
  | cbWaitComplete (tid : Nat)
  | cbadv (h : BitVec 4) (n : BitVec 11)
  | cbadvEos (h : BitVec 4) (n : BitVec 11)
  | cbget (d : Reg) (h : BitVec 4) (slot : BitVec 11) (el : BitVec 4)
  | cbput (h : BitVec 4) (slot : BitVec 11) (el : BitVec 4) (a : Reg)
  | copyUnitRetry (lseq die q : Nat)
  | nodeLaunchStart (lseq : Nat)
  | frozenStateStreamedOut (lseq : Nat)
  | shadowImageLoad (tid : Nat)
  | firmwareUpdate (place svn digest : Nat) (valid : Bool) (removed : List Nat)
  deriving DecidableEq, Repr

end Sys2Proof
end

