-- ==== Sys2Proof/WellFormed.lean ====
section
/-!
DEFINITION. Which instructions are well formed: the limits of 12_formats_and_opcode_map.md R256 to R262 on operand
values that a field can hold and the spec calls ILLEGAL_ENCODING. A step without an encoding is well formed when the
plot, PE or die it names exists.
-/
namespace Sys2Proof

/-- A size and unsignedness pair of a load: U = 1 with SZ = 3 is illegal (R258). -/
def szOk (sz : BitVec 2) (u : Bool) : Bool := !(u && sz == 3#2)

/-- A scope is 0 to 5 (R258). -/
def scopeOk (s : BitVec 3) : Bool := decide (s.toNat < 6)

/-- SCOPE must be 0 when ORD is 0, and 0 to 5 otherwise (R258). -/
def ordOk (ord : BitVec 2) (s : BitVec 3) : Bool := scopeOk s && !(ord == 0#2 && s != 0#3)

/-- POS + LENM1 must not exceed 63 (R257). -/
def bfOk (pos lenm1 : BitVec 6) : Bool := decide (pos.toNat + lenm1.toNat < 64)

/-- A PORT is a node index, 0x0000 to 0x0FFF, or a divert port, 0x1000 to 0x103F (R262). -/
def portOk (p : BitVec 13) : Bool := decide (p.toNat < 0x1040)

/-- The COLL combinations of R262. -/
def collOk (op : CollOp) (red : CollRed) (fmt : CollFmt) (sc : Bool) (root : BitVec 10) : Bool :=
  (match op with
   | .allgather | .broadcast => decide (red = .add)
   | _ => true) &&
  (match op with
   | .reduce | .broadcast => true
   | _ => root == 0#10) &&
  !(sc && (match fmt with | .int32 | .x40i => true | _ => false))

/-- Every encoding limit of R256 to R262, per instruction. -/
def Instr.wf : Instr → Bool
  | .bfx _ _ p l | .bfxS _ _ p l | .bfi _ _ p l => bfOk p l
  | .ld _ _ sz u _ => szOk sz u
  | .ldAcq _ _ sz u s _ => szOk sz u && scopeOk s
  | .stRel _ _ _ s _ => scopeOk s
  | .amoW _ _ _ _ o s | .amoD _ _ _ _ o s => ordOk o s
  | .casW _ _ _ o s | .casD _ _ _ o s => ordOk o s
  | .cas16 d _ b o s => ordOk o s && d.toNat % 2 == 0 && b.toNat % 2 == 0
  | .fence s => scopeOk s
  | .brN p _ => p != 0#3
  | .loop _ e => e != 0#14
  | .getev _ d => d.toNat % 4 == 0
  | .sbind _ port _ _ => portOk port
  | .sbindHandle _ port _ l _ => portOk port && decide (1 ≤ l.toNat) && decide (l.toNat ≤ 10)
  | .coll op red fmt sc _ _ _ root _ => collOk op red fmt sc root
  | .threadAdmission cc | .instructionIssue cc | .eventRecordPost cc => decide (cc < 128)
  | .matrixPlotSwap p | .matrixVector p | .loadw p | .plotLease p | .leaseForce p => decide (p < 128)
  | .handlerFiring pe | .planeSwap pe => decide (pe < 8192)
  | .handlerPromotion pe h => decide (pe < 8192) && decide (h < 16)
  | .copyUnit die => decide (die < 4)
  | _ => true

end Sys2Proof
end

