-- ==== Sys2Proof/Decode.lean ====
section
/-!
DEFINITION. The decoder of control-thread words, total on any two words and rejecting by name, and the encoder
written from the same tables (12_formats_and_opcode_map.md R252 to R262, R269). The order of the checks is R253:
`illegalOpcode` is check 2, `illegalEncoding` check 3. Checks 4 to 7 read the thread and are in Machine/Ops.lean.
-/
namespace Sys2Proof

/-- Why a word is no instruction (R253, R269). -/
inductive DecodeErr
  /-- the all-zero word or an unallocated major opcode: ILLEGAL_OPCODE (0x02) -/
  | illegalOpcode
  /-- a reserved field that is not zero, or a field value the tables do not allocate: ILLEGAL_ENCODING (0x03) -/
  | illegalEncoding
  deriving DecidableEq, Repr

/-! Fields of R254. -/

def fOp (w : IWord) : BitVec 6 := w.extractLsb' 26 6
def fD (w : IWord) : Reg := w.extractLsb' 20 6
def fA (w : IWord) : Reg := w.extractLsb' 14 6
def fB (w : IWord) : Reg := w.extractLsb' 8 6
def fFn (w : IWord) : BitVec 8 := w.extractLsb' 0 8
def fImm14 (w : IWord) : BitVec 14 := w.extractLsb' 0 14
def fPd (w : IWord) : Pred := w.extractLsb' 23 3
def fCc (w : IWord) : BitVec 3 := w.extractLsb' 20 3
def fSz (w : IWord) : BitVec 2 := w.extractLsb' 12 2
def fU (w : IWord) : BitVec 1 := w.extractLsb' 11 1

/-- `i` when the condition holds, else ILLEGAL_ENCODING (R253 check 3). -/
def req (b : Bool) (i : Instr) : Except DecodeErr Instr := if b then .ok i else .error .illegalEncoding

/-- The condition codes of R257. -/
def condOf : Nat → Option CmpCond
  | 0 => some .eq | 1 => some .ne | 2 => some .lt | 3 => some .ge | 4 => some .ltu | 5 => some .geu
  | _ => none

/-- The codes of R258, AOP. -/
def amoOf : Nat → Option AmoOp
  | 0 => some .swap | 1 => some .add | 2 => some .and | 3 => some .or | 4 => some .xor | 5 => some .min
  | 6 => some .max | _ => none

/-- The codes of R262, COP. -/
def copOf : Nat → Option CollOp
  | 0 => some .allreduce | 1 => some .reduce | 2 => some .reducescatter | 3 => some .allgather
  | 4 => some .broadcast | _ => none

/-- The codes of R262, OPR. -/
def oprOf : Nat → Option CollRed
  | 0 => some .add | 1 => some .min | 2 => some .max | _ => none

/-- The codes of R262, FMT. -/
def cfmtOf : Nat → Option CollFmt
  | 0 => some .fp32 | 1 => some .bf16 | 2 => some .x40w | 3 => some .int32 | 4 => some .x40i | _ => none

/-- Major opcode 0x00 (R256). The all-zero word is met before this. -/
def decodeR (w : IWord) : Except DecodeErr Instr :=
  let d := fD w; let a := fA w; let b := fB w
  match (fFn w).toNat with
  | 0x01 => req (d == 0 && a == 0 && b == 0) .nop
  | 0x02 => .ok (.add d a b)
  | 0x03 => .ok (.sub d a b)
  | 0x04 => .ok (.mul d a b)
  | 0x05 => .ok (.mulh d a b)
  | 0x06 => .ok (.mulhu d a b)
  | 0x07 => .ok (.div d a b)
  | 0x08 => .ok (.divu d a b)
  | 0x09 => .ok (.rem d a b)
  | 0x0A => .ok (.remu d a b)
  | 0x10 => .ok (.and d a b)
  | 0x11 => .ok (.or d a b)
  | 0x12 => .ok (.xor d a b)
  | 0x14 => .ok (.sll d a b)
  | 0x15 => .ok (.srl d a b)
  | 0x16 => .ok (.sra d a b)
  | 0x18 => .ok (.min d a b)
  | 0x19 => .ok (.max d a b)
  | 0x1A => .ok (.minu d a b)
  | 0x1B => .ok (.maxu d a b)
  | 0x20 => req (b == 0) (.clz d a)
  | 0x21 => req (b == 0) (.ctz d a)
  | 0x22 => req (b == 0) (.popc d a)
  | _ =>
    if w.extractLsb' 2 6 = 0x0A#6 then .ok (.addsc (w.extractLsb' 0 2) d a b)
    else if w.extractLsb' 3 5 = 0x06#5 then .ok (.sel (w.extractLsb' 0 3) d a b)
    else .error .illegalEncoding

/-- Major opcode 0x05 (R257). -/
def decodeSh (w : IWord) : Except DecodeErr Instr :=
  match (w.extractLsb' 6 2).toNat with
  | 0 => req (fB w == 0) (.sllImm (fD w) (fA w) (w.extractLsb' 0 6))
  | 1 => req (fB w == 0) (.srlImm (fD w) (fA w) (w.extractLsb' 0 6))
  | 2 => req (fB w == 0) (.sraImm (fD w) (fA w) (w.extractLsb' 0 6))
  | _ => .error .illegalEncoding

/-- Major opcode 0x0A (R257). -/
def decodeBf (w : IWord) : Except DecodeErr Instr :=
  let p : BitVec 6 := w.extractLsb' 8 6
  let l : BitVec 6 := w.extractLsb' 2 6
  match (w.extractLsb' 0 2).toNat with
  | 0 => req (bfOk p l) (.bfx (fD w) (fA w) p l)
  | 1 => req (bfOk p l) (.bfxS (fD w) (fA w) p l)
  | 2 => req (bfOk p l) (.bfi (fD w) (fA w) p l)
  | _ => .error .illegalEncoding

/-- Major opcodes 0x0B and 0x0C (R257). -/
def decodeCmp (imm : Bool) (w : IWord) : Except DecodeErr Instr :=
  match condOf (fCc w).toNat with
  | none => .error .illegalEncoding
  | some c =>
    if imm then .ok (.cmpCcImm (fPd w) c (fA w) (fImm14 w))
    else req (fFn w == 0) (.cmpCc (fPd w) c (fA w) (fB w))

/-- Major opcodes 0x10 to 0x13 (R258). -/
def decodeMem (op : Nat) (w : IWord) : Except DecodeErr Instr :=
  let d := fD w; let a := fA w; let sz := fSz w; let u := fU w == 1#1
  let s : BitVec 3 := w.extractLsb' 8 3
  match op with
  | 0x10 => req (szOk sz u) (.ld d a sz u (w.extractLsb' 0 11))
  | 0x11 => req (!u) (.st d a sz (w.extractLsb' 0 11))
  | 0x12 => req (szOk sz u && scopeOk s) (.ldAcq d a sz u s (w.extractLsb' 0 8))
  | _ => req (!u && scopeOk s) (.stRel d a sz s (w.extractLsb' 0 8))

/-- Major opcodes 0x14 and 0x15 (R258). -/
def decodeAmo (dword : Bool) (w : IWord) : Except DecodeErr Instr :=
  let ord : BitVec 2 := w.extractLsb' 3 2
  let s : BitVec 3 := w.extractLsb' 0 3
  match amoOf (w.extractLsb' 5 3).toNat with
  | none => .error .illegalEncoding
  | some op =>
    if dword then req (ordOk ord s) (.amoD op (fD w) (fA w) (fB w) ord s)
    else req (ordOk ord s) (.amoW op (fD w) (fA w) (fB w) ord s)

/-- Major opcode 0x16 (R258). -/
def decodeCas (w : IWord) : Except DecodeErr Instr :=
  let ord : BitVec 2 := w.extractLsb' 3 2
  let s : BitVec 3 := w.extractLsb' 0 3
  let d := fD w; let b := fB w
  match (w.extractLsb' 5 3).toNat with
  | 0 => req (ordOk ord s) (.casW d (fA w) b ord s)
  | 1 => req (ordOk ord s) (.casD d (fA w) b ord s)
  | 2 => req (ordOk ord s && d.toNat % 2 == 0 && b.toNat % 2 == 0) (.cas16 d (fA w) b ord s)
  | _ => .error .illegalEncoding

/-- Major opcode 0x17 (R258). -/
def decodeX (w : IWord) : Except DecodeErr Instr :=
  let lev : BitVec 3 := w.extractLsb' 20 3
  match (w.extractLsb' 23 3).toNat with
  | 0 => req (scopeOk lev && fA w == 0 && fImm14 w == 0) (.fence lev)
  | 1 =>
    match lev.toNat with
    | 0 => .ok (.prefDc (fA w) (fImm14 w))
    | 1 => .ok (.prefL2 (fA w) (fImm14 w))
    | _ => .error .illegalEncoding
  | _ => .error .illegalEncoding

/-- Major opcode 0x18 (R259). -/
def decodeBr (w : IWord) : Except DecodeErr Instr :=
  if w.extractLsb' 22 1 = 1#1 then req (fPd w != 0) (.brN (fPd w) (w.extractLsb' 0 22))
  else .ok (.br (fPd w) (w.extractLsb' 0 22))

/-- Major opcode 0x1C (R259). -/
def decodeHalt (w : IWord) : Except DecodeErr Instr :=
  match (w.extractLsb' 0 26).toNat with
  | 1 => .ok .halt
  | 2 => .ok .yield
  | _ => .error .illegalEncoding

/-- Major opcode 0x23 (R259). -/
def decodeSys (w : IWord) : Except DecodeErr Instr :=
  match (fFn w).toNat with
  | 1 => req (fD w == 0 && fA w == 0 && fB w == 0) .rett
  | 2 => req (fD w == 0 && fA w == 0 && fB w == 0) .wfe
  | 3 => req (fA w == 0 && w.extractLsb' 8 3 == 0#3 && (fD w).toNat % 4 == 0) (.getev (w.extractLsb' 11 3) (fD w))
  | 4 => req (fD w == 0 && fB w == 0) (.wrpk (fA w))
  | _ => .error .illegalEncoding

/-- Major opcode 0x29 (R260). -/
def decodeSu (w : IWord) : Except DecodeErr Instr :=
  let d : SName := w.extractLsb' 18 8
  let a : SName := w.extractLsb' 10 8
  let md : BitVec 4 := w.extractLsb' 0 4
  match (w.extractLsb' 4 6).toNat with
  | 1 => req (md == 0) (.srcp d a)
  | 2 => req (md == 0) (.sexp2 d a)
  | 3 => req (md == 0) (.scopy d a)
  | 4 =>
    match (w.extractLsb' 2 2).toNat with
    | 0 => .ok (.scvt d a false (w.extractLsb' 0 2))
    | 1 => .ok (.scvt d a true (w.extractLsb' 0 2))
    | _ => .error .illegalEncoding
  | _ => .error .illegalEncoding

/-- Major opcodes 0x28, 0x2A and 0x2B (R260). -/
def decodeSs (w : IWord) : Except DecodeErr Instr :=
  match (w.extractLsb' 0 2).toNat with
  | 0 => .ok (.smul (w.extractLsb' 18 8) (w.extractLsb' 10 8) (w.extractLsb' 2 8))
  | 1 => .ok (.smax (w.extractLsb' 18 8) (w.extractLsb' 10 8) (w.extractLsb' 2 8))
  | _ => .error .illegalEncoding

def decodeSg (w : IWord) : Except DecodeErr Instr :=
  match (w.extractLsb' 0 12).toNat with
  | 1 => .ok (.smov (w.extractLsb' 12 8) (fD w))
  | 2 => .ok (.sread (fD w) (w.extractLsb' 12 8))
  | _ => .error .illegalEncoding

def decodeSbS (w : IWord) : Except DecodeErr Instr :=
  match (fFn w).toNat with
  | 1 => req (fB w == 0) (.sbindS (fD w) (fA w))
  | 2 => req (fD w == 0 && fB w == 0) (.sfree (fA w))
  | _ => .error .illegalEncoding

/-- Major opcode 0x30 (R262). -/
def decodeSbind (w v : IWord) : Except DecodeErr Instr :=
  let ctr : BitVec 2 := w.extractLsb' 12 2
  let h : BitVec 4 := w.extractLsb' 7 4
  let ln : BitVec 4 := v.extractLsb' 13 4
  let port : BitVec 13 := v.extractLsb' 0 13
  let res := w.extractLsb' 0 7 == 0#7 && v.extractLsb' 17 15 == 0#15
  if w.extractLsb' 11 1 = 1#1 then
    req (res && ctr == 0 && portOk port && decide (1 ≤ ln.toNat) && decide (ln.toNat ≤ 10))
      (.sbindHandle h port (fD w) ln (fA w))
  else req (res && h == 0 && ln == 0 && portOk port) (.sbind ctr port (fD w) (fA w))

/-- Major opcode 0x32 (R262). A USER other than g0 on GLOADSH to GEND is no encoding error: it traps ENGINE_RECORD
when the command runs (R318). -/
def decodeG (w : IWord) : Except DecodeErr Instr :=
  let res := w.extractLsb' 0 10 == 0#10
  match (w.extractLsb' 10 4).toNat with
  | 0 => req res (.glaunch (fD w) (fA w))
  | 1 => req res (.gloadsh (fD w) (fA w))
  | 2 => req res (.gswap (fD w) (fA w))
  | 3 => req res (.gdrain (fD w) (fA w))
  | 4 => req res (.gresume (fD w) (fA w))
  | 5 => req res (.gend (fD w) (fA w))
  | _ => .error .illegalEncoding

/-- Major opcodes 0x33 and 0x34 (R262). -/
def decodeCpy (w v : IWord) : Except DecodeErr Instr :=
  let q : BitVec 4 := w.extractLsb' 4 4
  let ctr : BitVec 2 := w.extractLsb' 2 2
  let u : Reg := v.extractLsb' 26 6
  let res := v.extractLsb' 0 26 == 0#26 && w.extractLsb' 0 1 == 0#1
  if w.extractLsb' 1 1 = 1#1 then req (res && fB w == 0) (.cpyT ctr q (fD w) (fA w) u)
  else req res (.cpy ctr q (fD w) (fA w) (fB w) u)

def decodeCpym (w v : IWord) : Except DecodeErr Instr :=
  let q : BitVec 4 := w.extractLsb' 4 4
  let ctr : BitVec 2 := w.extractLsb' 2 2
  req (v.extractLsb' 0 26 == 0#26 && w.extractLsb' 0 2 == 0#2)
    (.cpym ctr q (fD w) (fA w) (fB w) (v.extractLsb' 26 6))

/-- Major opcode 0x36 (R262). -/
def decodeE36 (w : IWord) : Except DecodeErr Instr :=
  let nq : BitVec 4 := w.extractLsb' 22 4
  let res := w.extractLsb' 20 2 == 0#2
  match (fFn w).toNat with
  | 1 => req (res && fB w == 0) (.postc nq (fA w))
  | 2 => req (res && nq == 0 && fA w == 0 && fB w == 0) .taskend
  | 3 => req (res && decide (nq.toNat < 8)) (.evpost (w.extractLsb' 22 3) (fA w) (fB w))
  | _ => .error .illegalEncoding

/-- Major opcode 0x37 (R262). -/
def decodeColl (w v : IWord) : Except DecodeErr Instr :=
  match copOf (w.extractLsb' 5 3).toNat, oprOf (w.extractLsb' 3 2).toNat, cfmtOf (w.extractLsb' 0 3).toNat with
  | some op, some r, some f =>
    let sc := v.extractLsb' 10 1 == 1#1
    let root : BitVec 10 := v.extractLsb' 0 10
    req (v.extractLsb' 11 21 == 0#21 && collOk op r f sc root)
      (.coll op r f sc (w.extractLsb' 12 2) (w.extractLsb' 8 4) (fD w) root (fA w))
  | _, _, _ => .error .illegalEncoding

/-- Major opcode 0x39 (R262). -/
def decodeCb (w : IWord) : Except DecodeErr Instr :=
  let h : BitVec 4 := w.extractLsb' 22 4
  let n : BitVec 11 := w.extractLsb' 0 11
  let res := w.extractLsb' 11 9 == 0#9
  match (w.extractLsb' 20 2).toNat with
  | 0 => req res (.cbwaitf h n)
  | 1 => req res (.cbwaite h n)
  | 2 => req res (.cbadv h n)
  | _ => req res (.cbadvEos h n)

/-- Major opcode 0x3A (R262). -/
def decodeCbg (w : IWord) : Except DecodeErr Instr :=
  if w.extractLsb' 15 1 = 1#1 then
    .ok (.cbput (w.extractLsb' 16 4) (w.extractLsb' 4 11) (w.extractLsb' 0 4) (fD w))
  else .ok (.cbget (fD w) (w.extractLsb' 16 4) (w.extractLsb' 4 11) (w.extractLsb' 0 4))

/-- The 46-bit immediate IMMHI·IMMLO of format L (R254). -/
def immLong (w v : IWord) : BitVec 46 := fImm14 w ++ v

/-- R252: the major opcode alone fixes the length. -/
def isTwoWord (w : IWord) : Bool :=
  match (fOp w).toNat with
  | 0x06 | 0x07 | 0x08 | 0x09 | 0x30 | 0x33 | 0x34 | 0x37 => true
  | _ => false

/-- The instruction two words hold; the second is read for a two-word opcode alone (R252, R255). -/
def decode (w v : IWord) : Except DecodeErr Instr :=
  if w = 0#32 then .error .illegalOpcode else
  match (fOp w).toNat with
  | 0x00 => decodeR w
  | 0x01 => .ok (.addImm (fD w) (fA w) (fImm14 w))
  | 0x02 => .ok (.andImm (fD w) (fA w) (fImm14 w))
  | 0x03 => .ok (.orImm (fD w) (fA w) (fImm14 w))
  | 0x04 => .ok (.xorImm (fD w) (fA w) (fImm14 w))
  | 0x05 => decodeSh w
  | 0x06 => .ok (.addLong (fD w) (fA w) (immLong w v))
  | 0x07 => .ok (.andLong (fD w) (fA w) (immLong w v))
  | 0x08 => .ok (.orLong (fD w) (fA w) (immLong w v))
  | 0x09 => .ok (.xorLong (fD w) (fA w) (immLong w v))
  | 0x0A => decodeBf w
  | 0x0B => decodeCmp false w
  | 0x0C => decodeCmp true w
  | 0x10 => decodeMem 0x10 w
  | 0x11 => decodeMem 0x11 w
  | 0x12 => decodeMem 0x12 w
  | 0x13 => decodeMem 0x13 w
  | 0x14 => decodeAmo false w
  | 0x15 => decodeAmo true w
  | 0x16 => decodeCas w
  | 0x17 => decodeX w
  | 0x18 => decodeBr w
  | 0x19 => .ok (.jal (fD w) (w.extractLsb' 0 20))
  | 0x1A => .ok (.jalr (fD w) (fA w) (fImm14 w))
  | 0x1B => req (fD w == 0 && fImm14 w != 0) (.loop (fA w) (fImm14 w))
  | 0x1C => decodeHalt w
  | 0x20 => req (w.extractLsb' 12 8 == 0#8) (.mfs (fD w) (w.extractLsb' 0 12))
  | 0x21 => req (fD w == 0 && fSz w == 0) (.mts (w.extractLsb' 0 12) (fA w))
  | 0x22 => req (w.extractLsb' 16 10 == 0#10) (.trap (w.extractLsb' 0 16))
  | 0x23 => decodeSys w
  | 0x24 => req (w.extractLsb' 20 1 == 0#1 && fImm14 w == 0) (.mtt (w.extractLsb' 21 5) (fA w))
  | 0x28 => decodeSs w
  | 0x29 => decodeSu w
  | 0x2A => decodeSg w
  | 0x2B => decodeSbS w
  | 0x30 => decodeSbind w v
  | 0x31 => req (w.extractLsb' 4 22 == 0#22) (.sbar (w.extractLsb' 0 4))
  | 0x32 => decodeG w
  | 0x33 => decodeCpy w v
  | 0x34 => decodeCpym w v
  | 0x35 =>
    if w.extractLsb' 25 1 = 1#1 then req (w.extractLsb' 16 9 == 0#9) (.qfenceColl (w.extractLsb' 0 16))
    else req (w.extractLsb' 16 9 == 0#9) (.qfence (w.extractLsb' 0 16))
  | 0x36 => decodeE36 w
  | 0x37 => decodeColl w v
  | 0x38 => req (w.extractLsb' 8 18 == 0#18) (.gbar (w.extractLsb' 0 8))
  | 0x39 => decodeCb w
  | 0x3A => decodeCbg w
  | _ => .error .illegalOpcode

/-- The instruction at the head of a list of bytes, and the bytes after it; none where the bytes end before the
instruction does (check 1 of R253) or hold no instruction. Words are little-endian (R6). -/
def decodeBytes : List Byte → Option (Instr × List Byte)
  | b0 :: b1 :: b2 :: b3 :: rest =>
    let w : IWord := b3 ++ b2 ++ b1 ++ b0
    if isTwoWord w then
      match rest with
      | c0 :: c1 :: c2 :: c3 :: rest' =>
        match decode w (c3 ++ c2 ++ c1 ++ c0) with
        | .ok i => some (i, rest')
        | .error _ => none
      | _ => none
    else
      match decode w 0#32 with
      | .ok i => some (i, rest)
      | .error _ => none
  | _ => none

/-- The instruction read from bits `w`, numbered as spec/opcode_table.json numbers them: bits 31 to 0 are the first
word and bits 63 to 32 the second, each stored little-endian; bits at or above `nbits` are zero. -/
def decodeTableWord (nbits w : Nat) : Option Instr :=
  (decodeBytes (natBytes 8 (w % 2 ^ nbits))).map (·.1)

/-! ## The encoder -/

def condCode : CmpCond → BitVec 3
  | .eq => 0 | .ne => 1 | .lt => 2 | .ge => 3 | .ltu => 4 | .geu => 5

def amoCode : AmoOp → BitVec 3
  | .swap => 0 | .add => 1 | .and => 2 | .or => 3 | .xor => 4 | .min => 5 | .max => 6

def copCode : CollOp → BitVec 3
  | .allreduce => 0 | .reduce => 1 | .reducescatter => 2 | .allgather => 3 | .broadcast => 4

def oprCode : CollRed → BitVec 2
  | .add => 0 | .min => 1 | .max => 2

def cfmtCode : CollFmt → BitVec 3
  | .fp32 => 0 | .bf16 => 1 | .x40w => 2 | .int32 => 3 | .x40i => 4

def bit1 (b : Bool) : BitVec 1 := if b then 1#1 else 0#1

/-- Format R (R254). -/
def encR (op : BitVec 6) (d a b : Reg) (fn : BitVec 8) : IWord := op ++ d ++ a ++ b ++ fn

/-- Formats I and L (first word). -/
def encI (op : BitVec 6) (d a : Reg) (i : BitVec 14) : IWord := op ++ d ++ a ++ i

/-- Format SU (R254). -/
def encSu (d a : SName) (sop : BitVec 6) (md : BitVec 4) : IWord := 0x29#6 ++ d ++ a ++ sop ++ md

/-- The words of a control-thread instruction; no words for a step that has no encoding (R252 to R262). -/
def encode : Instr → List IWord
  | .nop => [encR 0 0 0 0 0x01]
  | .add d a b => [encR 0 d a b 0x02]
  | .sub d a b => [encR 0 d a b 0x03]
  | .mul d a b => [encR 0 d a b 0x04]
  | .mulh d a b => [encR 0 d a b 0x05]
  | .mulhu d a b => [encR 0 d a b 0x06]
  | .div d a b => [encR 0 d a b 0x07]
  | .divu d a b => [encR 0 d a b 0x08]
  | .rem d a b => [encR 0 d a b 0x09]
  | .remu d a b => [encR 0 d a b 0x0A]
  | .and d a b => [encR 0 d a b 0x10]
  | .or d a b => [encR 0 d a b 0x11]
  | .xor d a b => [encR 0 d a b 0x12]
  | .sll d a b => [encR 0 d a b 0x14]
  | .srl d a b => [encR 0 d a b 0x15]
  | .sra d a b => [encR 0 d a b 0x16]
  | .min d a b => [encR 0 d a b 0x18]
  | .max d a b => [encR 0 d a b 0x19]
  | .minu d a b => [encR 0 d a b 0x1A]
  | .maxu d a b => [encR 0 d a b 0x1B]
  | .clz d a => [encR 0 d a 0 0x20]
  | .ctz d a => [encR 0 d a 0 0x21]
  | .popc d a => [encR 0 d a 0 0x22]
  | .addsc k d a b => [encR 0 d a b (0x0A#6 ++ k)]
  | .sel n d a b => [encR 0 d a b (0x06#5 ++ n)]
  | .addImm d a i => [encI 0x01 d a i]
  | .andImm d a i => [encI 0x02 d a i]
  | .orImm d a i => [encI 0x03 d a i]
  | .xorImm d a i => [encI 0x04 d a i]
  | .sllImm d a m => [encR 0x05 d a 0 (0#2 ++ m)]
  | .srlImm d a m => [encR 0x05 d a 0 (1#2 ++ m)]
  | .sraImm d a m => [encR 0x05 d a 0 (2#2 ++ m)]
  | .addLong d a i => [encI 0x06 d a (i.extractLsb' 32 14), i.extractLsb' 0 32]
  | .andLong d a i => [encI 0x07 d a (i.extractLsb' 32 14), i.extractLsb' 0 32]
  | .orLong d a i => [encI 0x08 d a (i.extractLsb' 32 14), i.extractLsb' 0 32]
  | .xorLong d a i => [encI 0x09 d a (i.extractLsb' 32 14), i.extractLsb' 0 32]
  | .bfx d a p l => [encR 0x0A d a p (l ++ 0#2)]
  | .bfxS d a p l => [encR 0x0A d a p (l ++ 1#2)]
  | .bfi d a p l => [encR 0x0A d a p (l ++ 2#2)]
  | .cmpCc p c a b => [encR 0x0B (p ++ condCode c) a b 0]
  | .cmpCcImm p c a i => [encI 0x0C (p ++ condCode c) a i]
  | .ld d a sz u o => [encI 0x10 d a (sz ++ bit1 u ++ o)]
  | .st b a sz o => [encI 0x11 b a (sz ++ 0#1 ++ o)]
  | .ldAcq d a sz u s o => [encI 0x12 d a (sz ++ bit1 u ++ s ++ o)]
  | .stRel b a sz s o => [encI 0x13 b a (sz ++ 0#1 ++ s ++ o)]
  | .amoW op d a b r s => [encR 0x14 d a b (amoCode op ++ r ++ s)]
  | .amoD op d a b r s => [encR 0x15 d a b (amoCode op ++ r ++ s)]
  | .casW d a b r s => [encR 0x16 d a b (0#3 ++ r ++ s)]
  | .casD d a b r s => [encR 0x16 d a b (1#3 ++ r ++ s)]
  | .cas16 d a b r s => [encR 0x16 d a b (2#3 ++ r ++ s)]
  | .fence s => [encI 0x17 (0#3 ++ s) 0 0]
  | .prefDc a i => [encI 0x17 (1#3 ++ 0#3) a i]
  | .prefL2 a i => [encI 0x17 (1#3 ++ 1#3) a i]
  | .br p o => [0x18#6 ++ p ++ 0#1 ++ o]
  | .brN p o => [0x18#6 ++ p ++ 1#1 ++ o]
  | .jal d o => [0x19#6 ++ d ++ o]
  | .jalr d a i => [encI 0x1A d a i]
  | .loop a e => [encI 0x1B 0 a e]
  | .halt => [encR 0x1C 0 0 0 1]
  | .yield => [encR 0x1C 0 0 0 2]
  | .mfs d sr => [0x20#6 ++ d ++ 0#8 ++ sr]
  | .mts sr a => [0x21#6 ++ 0#6 ++ a ++ 0#2 ++ sr]
  | .trap e => [0x22#6 ++ 0#10 ++ e]
  | .rett => [encR 0x23 0 0 0 1]
  | .wfe => [encR 0x23 0 0 0 2]
  | .getev p d => [encR 0x23 d 0 (p ++ 0#3) 3]
  | .wrpk a => [encR 0x23 0 a 0 4]
  | .mtt n a => [0x24#6 ++ n ++ 0#1 ++ a ++ 0#14]
  | .smul d a b => [0x28#6 ++ d ++ a ++ b ++ 0#2]
  | .smax d a b => [0x28#6 ++ d ++ a ++ b ++ 1#2]
  | .srcp d a => [encSu d a 1 0]
  | .sexp2 d a => [encSu d a 2 0]
  | .scopy d a => [encSu d a 3 0]
  | .scvt d a t m => [encSu d a 4 (0#1 ++ bit1 t ++ m)]
  | .smov s a => [0x2A#6 ++ a ++ s ++ 1#12]
  | .sread d s => [0x2A#6 ++ d ++ s ++ 2#12]
  | .sbindS d a => [encR 0x2B d a 0 1]
  | .sfree a => [encR 0x2B 0 a 0 2]
  | .sbind c port a u => [0x30#6 ++ a ++ u ++ c ++ 0#1 ++ 0#4 ++ 0#7, 0#15 ++ 0#4 ++ port]
  | .sbindHandle h port a ln u => [0x30#6 ++ a ++ u ++ 0#2 ++ 1#1 ++ h ++ 0#7, 0#15 ++ ln ++ port]
  | .sbar m => [0x31#6 ++ 0#22 ++ m]
  | .glaunch a u => [0x32#6 ++ a ++ u ++ 0#4 ++ 0#10]
  | .gloadsh a u => [0x32#6 ++ a ++ u ++ 1#4 ++ 0#10]
  | .gswap a u => [0x32#6 ++ a ++ u ++ 2#4 ++ 0#10]
  | .gdrain a u => [0x32#6 ++ a ++ u ++ 3#4 ++ 0#10]
  | .gresume a u => [0x32#6 ++ a ++ u ++ 4#4 ++ 0#10]
  | .gend a u => [0x32#6 ++ a ++ u ++ 5#4 ++ 0#10]
  | .cpy c q d a l u => [encR 0x33 d a l (q ++ c ++ 0#1 ++ 0#1), u ++ 0#26]
  | .cpyT c q d a u => [encR 0x33 d a 0 (q ++ c ++ 1#1 ++ 0#1), u ++ 0#26]
  | .cpym c q d a m u => [encR 0x34 d a m (q ++ c ++ 0#2), u ++ 0#26]
  | .qfence m => [0x35#6 ++ 0#1 ++ 0#9 ++ m]
  | .qfenceColl m => [0x35#6 ++ 1#1 ++ 0#9 ++ m]
  | .postc q a => [encR 0x36 (q ++ 0#2) a 0 1]
  | .taskend => [encR 0x36 0 0 0 2]
  | .evpost n a b => [encR 0x36 (0#1 ++ n ++ 0#2) a b 3]
  | .coll op r f sc c q a root u =>
    [0x37#6 ++ a ++ u ++ c ++ q ++ copCode op ++ oprCode r ++ cfmtCode f, 0#21 ++ bit1 sc ++ root]
  | .gbar g => [0x38#6 ++ 0#18 ++ g]
  | .cbwaitf h n => [0x39#6 ++ h ++ 0#2 ++ 0#9 ++ n]
  | .cbwaite h n => [0x39#6 ++ h ++ 1#2 ++ 0#9 ++ n]
  | .cbadv h n => [0x39#6 ++ h ++ 2#2 ++ 0#9 ++ n]
  | .cbadvEos h n => [0x39#6 ++ h ++ 3#2 ++ 0#9 ++ n]
  | .cbget d h s e => [0x3A#6 ++ d ++ h ++ 0#1 ++ s ++ e]
  | .cbput h s e a => [0x3A#6 ++ a ++ h ++ 1#1 ++ s ++ e]
  | .powerOn | .nurseryExit _ | .openVd _ | .closeVd _ | .map _ | .write _ | .read _ | .launchStart _
  | .launchResume _ | .launchEnd _ | .launchDrain _ | .events _ | .attest _ | .logFetch _ | .receiptFetch _
  | .placement | .queueRetry | .threadAdmission _ | .gangStart _ | .launchComplete _ | .instructionIssue _
  | .wfeWake _ | .loadReturn _ | .siblingWindowRelease _ | .remoteAccess _ | .correctedError _
  | .backedPageResident _ _ | .tokenArrival _ _ | .edgePortCrossing _ _ | .handlerFiring _
  | .handlerPromotion _ _ | .planeSwap _ | .matrixPlotSwap _ | .matrixVector _ | .loadw _ | .agElement _ _
  | .heldElementRetry _ _ | .fifoSpill _ _ | .streamEnd _ _ | .commandIssue _ | .copyUnit _
  | .eventRecordPost _ | .taskStart _ _ | .collectiveStart _ _ | .collectiveCombine _ _
  | .collectiveComplete _ _ | .collectiveAbandon _ _ | .faultRecordWrite _ | .replayRequest _ _
  | .replayToken _ _ | .owlFire _ _ | .preemption _ | .timeSliceEnd _ | .relocation _ | .restore _
  | .variantNarrow _ | .powerArbitration | .scoreDecay | .routineLease _ | .plotLease _ | .leaseDeferredRetry _
  | .leaseForce _ | .laneGroupLease _ | .memoryWindowTest _ _ | .leaseEnd _ _ | .retirement _ | .linkRetry _
  | .engagementOpen _ | .engagementClose _ | .engagementGrant _ | .engctlSet _ | .fbstatWrite _
  | .vdqmaskWrite _ | .monitorConfigWrite _ _ | .monitorWindowEnd _ _ | .logBlockSeal _ _ | .sbarComplete _
  | .gbarComplete _ | .cbWaitComplete _ | .copyUnitRetry _ _ _ | .nodeLaunchStart _ | .frozenStateStreamedOut _
  | .shadowImageLoad _ | .firmwareUpdate _ _ _ _ _ => []

/-- The decoding of a list of words as `encode` writes it: the second word, if any, is the second operand. -/
def decodeWords : List IWord → Option Instr
  | [w] => (decode w 0#32).toOption
  | [w, v] => (decode w v).toOption
  | _ => none

end Sys2Proof
end

