-- ==== Sys2Proof/Config.lean ====
section
/-!
DEFINITION. What the spec leaves free, as constants without a body: nothing in the model or a proof can see a value of
them. Each is named in a log entry. Also the fixed numbers of the part.
-/
namespace Sys2Proof

/-- A free bit: which of two allowed outcomes happens, by a fresh counter (R145, R408; log 3). -/
opaque Config.freeBit : Nat → Bool

/-- A free number, by a fresh counter (R232, R235; log 3). -/
opaque Config.freeNat : Nat → Nat

/-- A free element, by a fresh counter (outputs of an abandoned collective R408, log 3). -/
opaque Config.freeElem : Nat → Elem

/-- What a byte reads as under another key than it was written under: the address, the engagement of the reader and
of the writer, and the stored byte (R220, R223; log 13). -/
opaque Config.wrongKey : Nat → Nat → Nat → Byte → Byte

/-- Whether a module index is a member of a load-store domain (R204; log 8). -/
opaque Config.domainMember : Nat → Nat → Bool

/-- Whether the virtual device of the same number on a domain's member holds a key slot: device, domain, member, slot (R205;
log 8). -/
opaque Config.remoteHolds : Nat → Nat → Nat → Nat → Bool

/-- A byte of another module's DRAM at a tick, by domain, member and address (R204; log 94). -/
opaque Config.farByte : Nat → Nat → Nat

/-- Whether a read of another module's DRAM at a tick meets an error that it could not correct (R85; log 94). -/
opaque Config.farPoison : Nat → Nat → Bool

/-- Element `i` of the input that a rank on another module brings to a collective, as it stands there: the launch of its first
participant here, the communicator, the occurrence, the rank and `i` (R206, R405; log 61). -/
opaque Config.farInput : Nat → Nat → Nat → Nat → Nat → Nat

/-- The scale of a block of that input: the same, and the block (R206; log 61). -/
opaque Config.farScale : Nat → Nat → Nat → Nat → Nat → Nat

/-- The tick at which a participant of a collective on another module ends before its operation has completed, if one does: the
launch of the first participant here, the communicator and the occurrence (R408; log 61). -/
opaque Config.farEnds : Nat → Nat → Nat → Option Nat

/-- Whether the far end of a KLink group's port leases the group at a tick: the unit and the tick (R410; log 99). -/
opaque Config.farLeased : Nat → Nat → Bool

/-- An integer element times a scale where the product is outside I40 or no number: the element and the scale (R207; log 61). -/
opaque Config.scaledInt : Elem → BitVec 32 → Elem

/-- The flags of such a product (R207; log 61). -/
opaque Config.scaledIntFlags : Elem → BitVec 32 → Nat

/-- Whether a KLink port leads to a member of a load-store domain, directly or through a switch: domain, member, port
(R408; log 62). -/
opaque Config.leadsTo : Nat → Nat → Nat → Bool

/-- Whether a KLink port leads to a module of a node, by its module identifier (R202; log 62). -/
opaque Config.leadsToNode : Nat → Nat → Bool

/-- SHA-384 of a list of bytes: 48 bytes as a number (R229, R231; log 14). -/
opaque Config.sha384 : List Byte → Nat

/-- The ECDSA P-384 signature of the module identity key: 96 bytes as a number (R197; log 14). -/
opaque Config.ecdsa : List Byte → Nat

/-- The HSS signature of the module identity key: 3,284 bytes as a number (R197; log 14). -/
opaque Config.hss : List Byte → Nat

/-- The identity certificate (R230; log 14). -/
opaque Config.cert : List Byte

/-- The module identifier, 16 bytes (R226; log 14). -/
opaque Config.modid : Nat

/-- Bits of the serial text of a retirement record (R197; log 14). -/
opaque Config.serial : Nat

end Sys2Proof
end

