-- ==== Sys2Proof/Machine/Assoc.lean ====
section
/-!
DEFINITION. Sparse tables: lists of a key and a value, keys strictly rising. A key that is not listed holds the
default its reader names. Used for every table of the machine that is mostly empty.
-/
namespace Sys2Proof.Machine

/-- A sparse table. -/
abbrev Assoc (α : Type) := List (Nat × α)

variable {α : Type}

/-- The value at a key, if it is listed. -/
def lookup : Assoc α → Nat → Option α
  | [], _ => none
  | (k, v) :: m, n => if n = k then some v else lookup m n

/-- The value at a key, or the given default. -/
def lookupD (m : Assoc α) (n : Nat) (d : α) : α := (lookup m n).getD d

/-- The table with a value put at a key. -/
def insert : Assoc α → Nat → α → Assoc α
  | [], n, v => [(n, v)]
  | (k, w) :: m, n, v =>
    if n < k then (n, v) :: (k, w) :: m
    else if n = k then (n, v) :: m
    else (k, w) :: insert m n v

/-- The table without a key. -/
def remove : Assoc α → Nat → Assoc α
  | [], _ => []
  | (k, w) :: m, n => if n = k then remove m n else (k, w) :: remove m n

/-- The table with the value at a key changed, where the key is listed. -/
def adjust : Assoc α → Nat → (α → α) → Assoc α
  | [], _, _ => []
  | (k, w) :: m, n, f => if n = k then (k, f w) :: m else (k, w) :: adjust m n f

/-- Whether a key is listed. -/
def listed (m : Assoc α) (n : Nat) : Bool := (lookup m n).isSome

/-- The keys of a table, rising. -/
def keysOf (m : Assoc α) : List Nat := m.map (·.1)

/-- A list with its `i`-th element replaced (the list itself where it is shorter). -/
def setNth : List α → Nat → α → List α
  | [], _, _ => []
  | _ :: l, 0, v => v :: l
  | a :: l, i + 1, v => a :: setNth l i v

/-- Insertion of a number into a rising list without repeats. -/
def addNat : List Nat → Nat → List Nat
  | [], n => [n]
  | k :: l, n => if n < k then n :: k :: l else if n = k then k :: l else k :: addNat l n

end Sys2Proof.Machine
end

