-- ==== Sys2Proof/Machine/State.lean ====
section
/-!
DEFINITION. The state of a Kalok X9 module, as plain data. Every piece of state the spec gives the machine is a
field; INVENTORY.md lists each with its rule and reset value. Tables that are mostly empty are sparse (Assoc.lean).
-/
namespace Sys2Proof.Machine

/-! ## Control threads (01_sequential_machine.md) -/

/-- A circular-buffer handle (R157, R305, R306). `div` is the partition for a divert handle. -/
structure Handle where
  dirOut : Bool
  base   : Nat
  log2n  : Nat
  head   : Nat
  tail   : Nat
  eos    : Bool
  /-- OUT: CBADV.EOS has been advanced; EOS follows the last slot (R159) -/
  eosAt  : Bool
  /-- OUT: physical tag of the token of a slot position, where CBADV stamped one (R371) -/
  tags   : Assoc Nat
  div    : Option Nat
  node   : Nat
  user   : Word
  deriving DecidableEq, Repr

/-! ## Streams, copies, tasks and collectives as they are issued (04 R97, 06 R144 to R161, 09 R206) -/

/-- A stream pattern record (R97). Strides are signed. -/
structure SRec where
  addr    : Nat
  base    : Nat
  scale   : Nat
  counts  : List Nat
  fmt     : Nat
  skind   : Nat
  chase   : Bool
  rm      : Nat
  strides : List Int
  deriving DecidableEq, Repr

/-- A binding of a stream port (R302, R303, R305). -/
inductive Binding
  | stream (rec : SRec) (tid : Nat) (plot slot ctr : Nat) (user : Word) (pkeys : Word) (total : Nat)
  | handle (tid h : Nat) (plot slot : Nat) (user : Word)
  deriving DecidableEq, Repr

/-- The operands of a copy (R145, R148): for a linear copy the addresses; for a tile copy the descriptors and plots. -/
inductive CopyOp
  | linear (dst src len : Nat)
  | tile (dst src : BitVec 512) (dPlot sPlot : Nat) (loadw : Option Nat)
  deriving DecidableEq, Repr

/-- A copy under way or queued (R144 to R146): what it copies, its counter and record, the bytes done, whether a read
met an uncorrectable error, bytes it has read or overwritten (by position in the copy, and from 2^64 on by physical address:
what stood there before the copy began), the pages reported, and
whether it is held at a failing unit or waits for its LOADW. -/
structure CopyJob where
  op     : CopyOp
  total  : Nat
  pkeys  : Word
  tid    : Nat
  ctr    : Nat
  plot   : Nat
  slot   : Nat
  user   : Word
  pos    : Nat
  /-- bytes of the unit under way that are written: those before a failing piece (R146) -/
  part   : Nat
  uncorr : Bool
  /-- the source bytes read for the unit under way, by position (R146) -/
  snap   : Assoc Byte
  /-- what this copy has written over, by address, where its ranges share bytes (R145) -/
  olds   : Assoc Byte
  pages  : List Nat
  held   : Bool
  retryAt : Nat
  /-- an invalidation has reached a page it is held on (R104, R146) -/
  retryNow : Bool
  waitLoad : Bool
  deriving DecidableEq, Repr

/-- An entry of a copy queue (R144, R313). A fence carries its number and the plot that issued it. -/
inductive CopyEnt
  | op (j : CopyJob)
  | fence (id plot : Nat)
  deriving DecidableEq, Repr

/-- A participant's operation in a collective queue: the collective by its key in `State.colls`, and its rank. -/
structure CollJob where
  coll   : Nat
  rank   : Nat
  total  : Nat
  tid    : Nat
  ctr    : Nat
  plot   : Nat
  slot   : Nat
  user   : Word
  deriving DecidableEq, Repr

/-- An entry of a collective queue (R206, R317). -/
inductive CollEnt
  | op (j : CollJob)
  | fence (id plot : Nat)
  deriving DecidableEq, Repr

/-- A task record (R161) with its number in its queue, and whether it has started or completed (R163). -/
structure Task where
  num     : Nat
  entry   : Nat
  hash    : Nat
  nreq    : Nat
  barrier : Bool
  args    : List Word
  deriving DecidableEq, Repr

/-- A participant of a collective on this module that has issued (R206, R317): its rank, launch, queue, buffers and
partition, the MODULE of every rank, and the elements it has stored. -/
structure CollPart where
  rank    : Nat
  vd      : Nat
  lseq    : Nat
  part    : Nat
  key     : Nat
  inva    : Nat
  outva   : Nat
  scaleva : Nat
  modules : List Nat
  wrote   : Nat
  deriving DecidableEq, Repr

/-- A COLL as it is issued: what its participant brings to the collective (R206, R317). -/
structure CollReq where
  comm   : Nat
  op     : CollOp
  red    : CollRed
  fmt    : CollFmt
  sc     : Bool
  n      : Nat
  len    : Nat
  root   : Nat
  part   : CollPart
  tid    : Nat
  plot   : Nat
  slot   : Nat
  user   : Word
  deriving DecidableEq, Repr

/-! ## What a thread waits for, and threads -/

/-- A command that has passed its checks and has not been issued: what its issue does (R298, R299). -/
inductive Issue
  | sbind (node : Nat) (b : Binding) (ctr total : Nat)
  | hbind (node h : Nat) (hd : Handle) (b : Binding)
  | copy (key ctr total : Nat) (e : CopyEnt)
  | fence (coll : Bool) (plot : Nat) (keys : List Nat)
  | coll (key ctr total : Nat) (r : CollReq)
  | postc (q : Nat) (t : Task)
  | evpost (plot slot : Nat) (user : Word)
  deriving DecidableEq, Repr

/-- What a thread waits for (R19). A held memory access is made again from its instruction (R78, R82); `.cmd` waits for
room or a counter with its checks passed (R299); the graph waits name the target; `.swap` is an SBIND that waits for a
swap of its launch (R397). -/
inductive Wait
  | none
  | wfe
  | cbFull (h n : Nat)
  | cbEmpty (h n : Nat)
  | sbar (mask : Nat)
  | gbar (grp : Nat)
  | cmd (op : Issue) (len : Word)
  | swap
  | glaunch (ticket : Nat)
  | gloadsh (target imgva factor : Nat) (word : Word)
  | gswap (target : Nat)
  | gdrain (target : Nat)
  | gend (target : Nat)
  | sibling (plot : Nat)
  | backing (plot page : Nat)
  | logFull (vd : Nat)
  deriving DecidableEq, Repr

/-- Where a thread stands: it may issue, it waits (R19), it is admitted but its gang has not started (R77), it is
halted with its DOUBLE_TRAP record held (R32, R169), or it is halted. -/
inductive TStat
  | ready
  | waiting (w : Wait)
  | gang
  | dead
  deriving DecidableEq, Repr

/-- A control thread (R13, R24 to R27). `slot` and `plot` say where it runs; `idx` is its thread-table entry, or
`task` the queue and number of its task record. -/
structure Thread where
  lseq    : Nat
  idx     : Option Nat
  task    : Option (Nat × Nat)
  plot    : Nat
  slot    : Nat
  stat    : TStat
  pc      : Word
  regs    : List Word
  preds   : BitVec 8
  tcmp    : Word
  intrap  : Bool
  pmode   : Bool
  mode    : Bool
  epc     : Word
  cause   : Nat
  tval    : Word
  tvec    : Word
  scratch : Word
  pend    : List Nat
  lstart  : Word
  lend    : Word
  lcount  : Word
  glseq   : Nat
  handles : Assoc Handle
  htags   : Assoc Nat
  pins    : List Nat
  loads   : List (Nat × Word)
  groups  : List (Nat × Nat)
  deriving DecidableEq, Repr

/-! ## Fault and completion records (06 R156, 07 R167) -/

/-- A fault record: its thirty-two bytes as a number, and the source it waits at while it is held (R169). -/
inductive FSource
  | port (node : Nat)
  | pe (pe h : Nat)
  | thread (tid : Nat)
  | copyQ (die q : Nat)
  | collQ (ioa q : Nat)
  | handlerNode (part : Nat)
  | owl
  deriving DecidableEq, Repr

structure FRec where
  bits : Nat
  src  : FSource
  /-- the record has become held: it could not be written when it was raised (R169) -/
  held : Bool
  deriving DecidableEq, Repr

/-- A completion record on its way to a slot, or to the host event stream (R155, R156). TIME is stamped when it
enters the queue. `lseq` is the launch whose slot it is addressed to; a slot that holds no thread of that launch
sends it to the host event stream of `vd`. -/
structure Event where
  vd     : Nat
  lseq   : Nat
  plot   : Nat
  slot   : Nat
  kind   : Nat
  status : Nat
  cause  : Nat
  queue  : Nat
  user   : Word
  count  : Nat
  toHost : Bool
  /-- the thread whose slot it is; none for a record that goes to whichever thread of the launch holds the slot -/
  tid    : Option Nat
  /-- the stream port, queue or engine that waits behind the record while the queue is full (R155) -/
  src    : Option FSource
  /-- the counter of the thread from which bytes leave at the posting, and how many (R152) -/
  left   : Option (Nat × Nat)
  /-- the modules that the operation reached, which its flow goes on to reach until the record is posted (R408) -/
  flow   : List Nat
  deriving DecidableEq, Repr

/-- A record in a CC's event queue: the slot and thread it is for, and its 256 bits (R155, R156). -/
structure EvEntry where
  slot : Nat
  tid  : Nat
  bits : Nat
  deriving DecidableEq, Repr

/-! ## Streams (04 R97 to R104, 14 R301 to R305) -/

/-- An element of a stream held on a fault (R103, R401): its address and half, the number of its token and its place
there, and its page. -/
structure Spilled where
  at_  : Nat × Bool
  tok  : Nat
  lane : Nat
  page : Nat
  deriving DecidableEq, Repr

/-- A source token under construction or held in the reorder window (R103): its number, its elements so far (`none`:
held in the spill queue) with their addresses and halves, the position it began at, whether it is full, its scale tag
and its ERR bit. -/
structure WinTok where
  num    : Nat
  els    : List (Option Elem)
  at_    : List (Nat × Bool)
  pos    : Nat
  full   : Bool
  stag   : Nat
  err    : Bool
  deriving DecidableEq, Repr

/-- A DATA token that a source emitted with ERR and may read again (R170, R173): its SEQ, the binding it came from, the
address of each element with its half of the byte, the position it began at, and the replays that failed (R174). -/
structure Poison where
  seq   : Nat
  b     : Binding
  at_   : List (Nat × Bool)
  pos   : Nat
  fails : Nat
  deriving DecidableEq, Repr

/-- A stream port (R302 to R304): bindings, generation state, spill queue, window, marks and counts. -/
structure Port where
  active   : Option Binding
  waiting  : Option Binding
  /-- next position in generation order -/
  pos      : Nat
  /-- address of the next chase node; none once the chase has ended -/
  chaseAt  : Option Nat
  visited  : Nat
  /-- DATA tokens begun, and emitted -/
  nTok     : Nat
  emitted  : Nat
  sinceMark : Nat
  generated : Bool
  eosOut   : Bool
  window   : List WinTok
  spill    : List Spilled
  /-- pages already reported (R104) -/
  pages    : List Nat
  /-- tick of the last retry (R104) -/
  retryAt  : Nat
  /-- the port retries at its next step: an invalidation reached its page (R104) -/
  retryNow : Bool
  /-- sink: tokens consumed and not yet stored, with the next lane to store -/
  sinkQ    : List (Token × Nat × List (Option Elem))
  /-- sink: positions consumed, DATA and NULL tokens consumed, EOS consumed -/
  consumed : Nat
  sinkTok  : Nat
  /-- (source: EOS placed in port 0) -/
  eosIn    : Bool
  uncorr   : Bool
  performed : Nat
  /-- block-scale bindings held: block number and tag (R125) -/
  scales   : List (Nat × Nat)
  /-- tokens emitted with ERR, oldest first; they outlive the binding -/
  poisoned : List Poison
  /-- the link of a chase, or the scale of a block, that faulted: generation stands until it is retried (R102) -/
  linkHeld : Option Nat
  deriving DecidableEq, Repr

def Port.empty : Port :=
  { active := none, waiting := none, pos := 0, chaseAt := none, visited := 0, nTok := 0, emitted := 0, sinceMark := 0,
    generated := false, eosOut := false, window := [], spill := [], pages := [], retryAt := 0, retryNow := false,
    sinkQ := [], consumed := 0, sinkTok := 0, eosIn := false, uncorr := false, performed := 0, scales := [],
    poisoned := [], linkHeld := none }

/-! ## Processing elements (02_tokens_and_elements.md) -/

/-- An accumulator (R41): sixteen lanes, tag, EOR count. -/
structure Acc where
  lanes : List Elem
  tag   : Nat
  eor   : Nat
  deriving DecidableEq, Repr

def Acc.zero : Acc := { lanes := List.replicate 16 0#40, tag := 0, eor := 0 }

/-- A retain entry (R171): the image and the handler, the SEQ its firing emitted, heads without ERR by port, SEQ of each
ERR head by port, and k0 to k3. `asked` says its requests went upstream. -/
structure Retain where
  img    : Nat
  h      : Nat
  seq    : Nat
  good   : List (Nat × Token)
  bad    : List (Nat × Nat)
  k      : List Nat
  asked  : Bool
  deriving DecidableEq, Repr

/-- An entry of a stateful node's reorder window (R172): the heads of one firing by port, with the ERR ones still
missing (`need`, SEQ by port), and the counters it read. -/
structure Hole where
  h     : Nat
  heads : List (Nat × Token)
  need  : List (Nat × Nat)
  k     : List Nat
  ctl   : Bool
  deriving DecidableEq, Repr

/-- What a node keeps between firings (R49, R175, R180): cycles runnable, C and E since the last MARK, whether a
diversion or a held fault record holds it, and the counters a diverted firing read. -/
structure NodeSt where
  run    : Nat
  c      : Nat
  eA     : Nat
  eB     : Nat
  /-- divert entries awaiting their verdict -/
  held   : Bool
  keepK  : Option (List Nat)
  /-- the next firing is one that a verdict settles (R177): `some false` re-injected, `some true` null; it steps no
  counter and reads the counters in `keepK` -/
  redo   : Option Bool
  deriving DecidableEq, Repr

def NodeSt.empty : NodeSt :=
  { run := 0, c := 0, eA := 0, eB := 0, held := false, keepK := none, redo := none }

/-- A flush of a CTURN block (R357): the handler and its KGI node, the colour, the tag and the ERR bit of its tokens, the
columns already emitted, and whether it is the first part of a MARK or EOS firing of the handler, which follows the sixteenth
before any other firing (R46). -/
structure Flush where
  h      : Nat
  n      : Nat
  colour : Nat
  tag    : Nat
  err    : Bool
  done   : Nat
  ctl    : Bool
  deriving DecidableEq, Repr

/-- A configuration plane with its buffer set (R54, R56). `hrecs` holds the records by handler index, `nodes` the
KGI node of each; `ports` maps a port to a channel number. `lseq` is the launch whose image it is. -/
structure Plane where
  img    : Nat
  hrecs  : Assoc Nat
  nodes  : Assoc Nat
  ports  : Assoc Nat
  colid  : Nat
  rowid  : Nat
  matrix : Bool
  klim   : List Nat
  queues : Assoc (List Token)
  accs   : List Acc
  k      : List Nat
  st     : Assoc NodeSt
  /-- CTURN block buffer: rows by number (R357) -/
  block  : List Token
  /-- a flush of the block that is under way (R357) -/
  flush  : Option Flush
  deriving DecidableEq, Repr

def Plane.empty : Plane :=
  { img := 0, hrecs := [], nodes := [], ports := [], colid := 0, rowid := 0, matrix := false, klim := [0, 0, 0, 0],
    queues := [], accs := List.replicate 4 Acc.zero, k := [0, 0, 0, 0], st := [], block := [], flush := none }

/-- A processing element (R40, R49, R54, R171, R172). -/
structure PE where
  active : Plane
  shadow : Plane
  ptr    : Nat
  retain : List Retain
  window : List Hole
  /-- the PE has swapped in the last region-wide swap (R55, R186, R398) -/
  swapped : Bool
  deriving DecidableEq, Repr

def PE.empty : PE :=
  { active := Plane.empty, shadow := Plane.empty, ptr := 0, retain := [], window := [], swapped := false }

/-! ## Plots -/

/-- An entry of a scale register file (R133). -/
structure SrfEntry where
  value : BitVec 32
  dup   : BitVec 32
  ref   : Nat
  gen   : Nat
  deriving DecidableEq, Repr

def SrfEntry.zero : SrfEntry := { value := 0, dup := 0, ref := 0, gen := 0 }

/-- A row of an edge port's map (R137): direction (0 E, 1 W, 2 N, 3 S), source tag, destination plot and tag, age. -/
structure EdgeRow where
  dir  : Nat
  tag  : Nat
  dst  : Nat
  dtag : Nat
  age  : Nat
  deriving DecidableEq, Repr

/-- A weight buffer of a matrix plot (R59, R130, R132, R149): the 16 × 16 block of each PE by element, one row for each
operand of the load (a missing element is 0; in E2M1 an element holds two values); the T128 tag; whether the operands' tags
disagreed at the load; and the checksum column's row sums R_k in units of 2^−32. -/
structure WBuf where
  blocks : Assoc (List (List Nat))
  tag    : Nat
  mixed  : Bool
  sums   : List Int
  deriving DecidableEq, Repr

def WBuf.empty : WBuf := { blocks := [], tag := 0, mixed := false, sums := [] }

/-- A firing that a matrix node retains for replay (R173): its number (`tokId`), row tokens, whether it used buffer B, the columns whose token
failed and may be asked for again, whether requests for its ERR rows went upstream, and the replays that failed. -/
structure MVec where
  seq  : Nat
  toks : List Token
  useB : Bool
  bad  : List Nat
  asked : Bool
  fails : Nat
  deriving DecidableEq, Repr

/-- Matrix state of a plot (R59, R60, R149). -/
structure Matrix where
  bufA   : WBuf
  bufB   : WBuf
  useB   : Bool
  /-- loaded and awaiting its switch: first SEQ that uses it -/
  pending : Option Nat
  retained : List MVec
  deriving DecidableEq, Repr

def Matrix.empty : Matrix :=
  { bufA := WBuf.empty, bufB := WBuf.empty, useB := false, pending := none, retained := [] }

/-- A thread that waits for admission to a CC (R16): an entry of a launch's thread table, a task of one of its
queues, or a saved thread that is restored (R35). -/
inductive AdmWhat
  | entry (idx : Nat)
  | task (q : Nat)
  | restore (tid : Nat)
  deriving DecidableEq, Repr

structure Adm where
  lseq : Nat
  what : AdmWhat
  nreq : Nat
  deriving DecidableEq, Repr

/-- A plot: its control core, scale file, tile descriptors, edge maps and matrix state. -/
structure Plot where
  holder : Option Nat
  srf    : Assoc SrfEntry
  /-- first entry and length of each node's range, by node (R134), and the start of the common range -/
  ranges : Assoc (Nat × Nat)
  common : Nat
  /-- name map where it differs from the identity: name to entry and the generation offset the threads see (R362) -/
  names  : Assoc (Nat × Nat)
  tiles  : Assoc (BitVec 512)
  /-- FIFO slots of channels that end in the plot (R73, R81) -/
  fifo   : Nat
  edges  : List EdgeRow
  ageCtr : Nat
  /-- control core: event queue of 256, records held at their sources, slot pointer, last yielded slot -/
  evq    : List EvEntry
  evHeld : List Event
  admq   : List Adm
  rr     : Nat
  yieldedSlot : Option Nat
  matrix : Matrix
  /-- the weight buffers of the shadow planes' buffer sets (R54, R399) -/
  shMatrix : Matrix
  deriving DecidableEq, Repr

def Plot.empty : Plot :=
  { holder := none, srf := [], ranges := [], common := 0, names := [], tiles := [], fifo := 0, edges := [], ageCtr := 0,
    evq := [], evHeld := [], admq := [], rr := 0, yieldedSlot := none, matrix := Matrix.empty,
    shMatrix := Matrix.empty }

/-! ## Graphs (03_graphs_and_placement.md) -/

/-- A node record (R63): the handler record with its output fields zero, ports and outputs by KGI channel index. -/
structure Node where
  hrec  : Nat
  ports : List Nat
  outA  : Nat
  outB  : Nat
  part  : Nat
  pack  : Nat
  srfn  : Nat
  klim  : List Nat
  deriving DecidableEq, Repr

/-- A channel record (R64). `back`: feedback. `lanes` from 1 to 16. -/
structure Chan where
  src   : Nat
  dst   : Nat
  cls   : Nat
  lanes : Nat
  back  : Bool
  depth : Nat
  rminN : Nat
  rminD : Nat
  rmaxN : Nat
  rmaxD : Nat
  deriving DecidableEq, Repr

/-- A variant of an image (R62, R106). -/
structure Variant where
  factor : Nat
  parts  : List (Nat × Nat)
  nodes  : List Node
  chans  : List Chan
  /-- alias classes: read-only flag and nodes in chain order; scopes: nodes -/
  alias_ : List (Bool × List Nat)
  scopes : List (List Nat)
  deriving DecidableEq, Repr

/-- Where a variant stands (R70, R72): rectangle of each partition (die, px, py); the launch's plots in PLOTIX order;
the site (plot, element) and handler index of each node; for each channel the plots its route passes in order, its
number in each of them, the slots it takes on links (by directed link number), and the elastic buffers. -/
structure Placed where
  rects : List (Nat × Nat × Nat)
  plots : List Nat
  sites : List (Nat × Nat)
  hidx  : List Nat
  legs  : List (List Nat)
  nums  : List (List Nat)
  links : List (List (Nat × Nat))
  hnode : List Nat
  deriving DecidableEq, Repr

/-- A channel at run time (R72, R73, R75, R105, R200): tokens at each stop of its route (oldest first), in the FIFO, in the spill
ring; the ring's segments, oldest first; the replay lane. -/
structure ChanSt where
  legs   : List (List Token)
  fifo   : List Token
  spill  : List Token
  segs   : List Nat
  /-- slot of the oldest spilled token in the ring's first segment (R105) -/
  head   : Nat
  replay : List Token
  /-- channel to another module: tokens sent whose credit has not come back (R203) -/
  sent   : Nat
  /-- tokens that a freeze found on their way to another partition, in a plot's checkpoint area, oldest first, each with the
  value of its tag; they go before any token that follows (R182, R183) -/
  ckpt   : List (Token × BitVec 32)
  /-- channel from another module: its receive buffer, oldest first, each token with the value of its tag (R203) -/
  recv   : List (Token × BitVec 32)
  deriving DecidableEq, Repr

/-- A replay request on its way up a channel (R173): channel and SEQ. -/
structure RepReq where
  chan : Nat
  seq  : Nat
  deriving DecidableEq, Repr

/-- What is diverted, and from where (R175): a refused token, a firing with the other heads left at their ports, an
unpaired head, or a replay that is exhausted. `pe` and `h` name the handler. -/
inductive DivKind
  | refused
  | firing (pe h port : Nat)
  | unpaired (pe h port : Nat)
  | exhausted (chan : Nat)
  deriving DecidableEq, Repr

/-- An entry of a divert ring (R176): what was diverted, the token, the cause and the fault record. The words of its two
slots stand in scratch; those a verdict needs are taken from there once HEAD has passed the entry: the header of word 0,
VERDICT, the scale word, and the elements of the odd slot in the form of R157. -/
structure DivEntry where
  kind    : DivKind
  tok     : Token
  cause   : Nat
  fbits   : Nat
  head    : Nat
  verdict : Nat
  scale   : Nat
  odd     : List Nat
  deriving DecidableEq, Repr

/-- The handler node of a partition (R175, R176): the entries in the ring, oldest first; the number of entries written since
a handle was bound; and the handle bound. -/
structure HNode where
  ring    : List DivEntry
  wrote   : Nat
  /-- entries whose verdict has been read, until it has its effect (R177) -/
  acting  : List DivEntry
  bound   : Option (Nat × Nat)
  deriving DecidableEq, Repr

def HNode.empty : HNode := { ring := [], wrote := 0, acting := [], bound := none }

/-! ## Engines (06_asynchronous_engines.md) -/

structure TaskQ where
  recs    : List Task
  next    : Nat
  running : List Nat
  /-- the task at the head, if it has been sent to a CC and waits for admission (R163) -/
  sent    : Bool
  deriving DecidableEq, Repr

def TaskQ.empty : TaskQ := { recs := [], next := 0, running := [], sent := false }

/-! ## Launches -/

/-- A launch header (R66). -/
structure Header where
  tvec    : Nat
  sig     : Nat
  seed    : Nat
  diemask : Nat
  domain  : Nat
  ngrp    : Nat
  grptab  : Nat
  thrtab  : Nat
  nthr    : Nat
  super   : Bool
  queue   : Bool
  vd      : Nat
  prio    : Nat
  vset    : Nat
  markint : Nat
  kgiva   : Nat
  resv    : Bool
  deriving DecidableEq, Repr

/-- An entry of the thread table (R67). -/
structure ThrEnt where
  entry  : Nat
  nreq   : Nat
  plotix : Nat
  groups : List Nat
  resv   : Bool
  deriving DecidableEq, Repr

/-- Who submitted a launch (R213, R319): the host, with the TAG of its message; or a thread, with its slot and USER. -/
inductive Origin
  | host (tag : Word)
  | thread (lseq tid plot slot : Nat) (user : Word)
  deriving DecidableEq, Repr

/-- Why a launch is not running (R182, R184): a bit set for each. -/
inductive Freeze
  | owl
  | drain
  | slice
  | forced
  | reloc
  | node
  deriving DecidableEq, Repr

/-- A submitted launch that Marten has not committed (R69). `node` and `partmap` are of a node launch (R201). -/
structure Waiting where
  ticket  : Nat
  hdr     : Header
  gid     : Nat
  /-- the device that submitted it; the header names one too, which must be the same (R68) -/
  vd      : Nat
  origin  : Origin
  /-- FIT_SPACE with QUEUE = 1: waits for plots to be released (R76) -/
  parked  : Bool
  /-- plots of its device were released since (R76) -/
  again   : Bool
  partmap : Option (List Nat)
  deriving DecidableEq, Repr

/-- A swap under way (R186, R322): the thread whose command started it, and the channels whose source has yet to emit its
SWAP, by key. -/
structure SwapSt where
  tid : Option Nat
  due : List Nat
  deriving DecidableEq, Repr

/-- What a launch holds outside the plots while it is saved (R183): the PEs by PLOTIX × 64 + element, its plots' contents
by PLOTIX, the written pages of its scratch by PLOTIX × 2,048 + page, and the bytes of those for which its device's backing pool
had no frame, by PLOTIX × 2^24 + offset. -/
structure Saved where
  pes     : Assoc PE
  plots   : Assoc Plot
  scratch : List Host.Cell
  /-- written pages: the frame of the device's backing pool, or none (R82) -/
  pages   : Assoc (Option Nat)
  /-- records held at their sources, by PLOTIX (R155, R165) -/
  evHeld  : List (Nat × Event)
  deriving DecidableEq, Repr

/-- No image. -/
def Saved.empty : Saved := { pes := [], plots := [], scratch := [], pages := [], evHeld := [] }

structure Launch where
  hdr     : Header
  lseq    : Nat
  gid     : Nat
  vd      : Nat
  kslot   : Nat
  origin  : Origin
  variant : Variant
  image   : List Variant
  place   : Placed
  frozen  : List Freeze
  /-- pre-emption requests that have not been carried out (R182) -/
  asked   : List Freeze
  /-- false: its plots were given up and it is restored before it runs (R183) -/
  resident : Bool
  saved   : Saved
  shadow  : Option (Variant × Placed)
  /-- numbers of the active and of the shadow image: a channel's key is its image's number × 16,384 + its index -/
  imgNo   : Nat
  shNo    : Nat
  swap    : Option SwapSt
  chans   : Assoc ChanSt
  ports   : Assoc Port
  hnodes  : Assoc HNode
  /-- handles of threads that have halted, while a port is still bound to them, by thread × 16 + handle (R282, R302, R324) -/
  orphans : Assoc Handle
  requests : List RepReq
  aflags  : Assoc Nat
  pkeys   : Word
  fbbase  : Word
  fbOvf   : Bool
  fbTail  : Nat
  fbHead  : Nat
  fbHeld  : List FRec
  owlint  : Nat
  idle    : Assoc Nat
  groups  : Assoc Nat
  thrtab  : List ThrEnt
  /-- thread-table entries whose thread has halted; whether every plot holds its active configuration (R77) -/
  halted  : List Nat
  loaded  : Bool
  tasks   : Assoc TaskQ
  copyQ   : Assoc (List CopyEnt)
  collQ   : Assoc (List CollEnt)
  colls   : Assoc Nat
  fences  : Nat
  /-- a DOUBLE_TRAP record of the launch has been written: it ends (R32) -/
  faulted : Bool
  /-- capacity records that wait for the launch to run, as USER and COUNT (R198) -/
  capWait : List (Nat × Nat)
  /-- the unit whose lease had the launch saved: its restore is reported (R191, R198) -/
  leaseUnit : Option Nat
  partmap : Option (List Nat)
  /-- node launch: members whose parts are placed and loaded (R202) -/
  nodeWait : Bool
  deriving DecidableEq, Repr

/-! ## Virtual devices, key slots (09, 10) -/

/-- A range monitor (R227). -/
structure Monitor where
  base  : Nat
  en    : Bool
  limit : Nat
  /-- what takes effect at the next window boundary: BASE, EN and LIMIT as written -/
  nbase  : Nat
  nen    : Bool
  nlimit : Nat
  /-- the window of the last write -/
  win    : Nat
  deriving DecidableEq, Repr

/-- A range monitor's window and log (R228, R229). -/
structure MonLog where
  /-- touches not yet appended: window × 2^41 + granule × 2 + write, to first and last tick, count, launch -/
  touches : Assoc (Nat × Nat × Nat × Nat)
  /-- records of the open block, oldest first, with those that wait behind a full one, and the tick it was opened -/
  recs    : List Nat
  openAt  : Nat
  /-- sealed blocks by number; those fetched by the host may be overwritten -/
  blocks  : Assoc (List Byte)
  fetched : List Nat
  prev    : Nat
  next    : Nat
  deriving DecidableEq, Repr

structure VD where
  ptbase  : Nat
  fbbase  : Word
  spillva : Nat
  spilllen : Nat
  backpa  : Nat
  backlen : Nat
  plotmask : Nat
  waymask : Nat
  chshare : Nat
  weight  : Nat
  domain  : Nat
  domix   : Nat
  nodesz  : Nat
  rank    : Nat
  caps    : Nat
  nodeids : List Nat
  qmask   : Nat
  engid   : Nat
  peer    : Nat
  slot    : Nat
  rmsel   : Nat
  mons    : Assoc Monitor
  monlogs : Assoc MonLog
  events  : List Nat
  sliceOn : Bool
  sliceAt : Nat
  /-- spill segments in use: segment to (launch, channel) (R105) -/
  segs    : Assoc (Nat × Nat)
  /-- frames of the backing pool in use: frame to launch (R82) -/
  back    : Assoc Nat
  deriving DecidableEq, Repr

inductive SlotSt | closed | opened | scrubbing
  deriving DecidableEq, Repr

/-- A key slot (R220). -/
structure KeySlot where
  st     : SlotSt
  epoch  : Nat
  engid  : Nat
  owner  : Nat
  joined : List Nat
  granted : List Nat
  openAt : Nat
  closeAt : Nat
  holders : List Nat
  /-- 64 KiB frames translated under the slot, and plots its launches held, since the open (R225) -/
  frames  : List Nat
  plots   : List Nat
  /-- backing pages and spill segments that its launches took since the open, by physical address and length (R225, R226) -/
  backs   : List (Nat × Nat)
  rings   : List (Nat × Nat)
  deriving DecidableEq, Repr

/-- A receipt (R226). -/
structure Receipt where
  engid : Nat
  bytes : List Byte
  deriving DecidableEq, Repr

/-! ## Brock (08) -/

inductive LeaseKind | plot | channel | lanes | link
  deriving DecidableEq, Repr

/-- A lease that is asked for, deferred, or active (R190, R191). -/
inductive LeaseSt | asked | deferred | active
  deriving DecidableEq, Repr

structure Lease where
  /-- the unit whose score or cursor asked: a plot and its CC share a lease (R187) -/
  unit   : Nat
  st     : LeaseSt
  askedAt : Nat
  immediate : Bool
  /-- the units of the site whose scores have reached 4,096: they retire without a test (R189, R191) -/
  retire : List Nat
  /-- memory lease: the window under test (R193) -/
  window : Nat
  fails  : Nat
  /-- deferred: plots of the launch's device were released since the last try (R191) -/
  again  : Bool
  deriving DecidableEq, Repr

structure Brock where
  scores  : Assoc Nat
  leases  : Assoc Lease
  cursors : Assoc Nat
  lastDecay : Nat
  retired : List Nat
  /-- window remaps: channel × 4,096 + window to its spare, channel × 32 + number (R196) -/
  remaps  : Assoc Nat
  /-- retirement records by place; places from 2,048 on stand for records kept in IOA memory (R197) -/
  flash   : Assoc (List Byte)
  worn    : List Nat
  fuses   : List Nat
  /-- lane groups withdrawn from their links (R192) -/
  withdrawn : List Nat
  /-- KLink lane groups that the far end of their port has withdrawn (R410) -/
  far     : List Nat
  /-- retirements so far (SERIAL, R197) -/
  serial  : Nat
  deriving DecidableEq, Repr

/-! ## Collectives (09 R206 to R209, 22 R406 to R408) -/

/-- A collective: its fields, who has issued, and how far it has come: started, with the partial values of the tree by
the ranks they cover; the ranks whose operation has ended; the flags raised; fields found to differ (R317); abandoned
(R408); an uncorrectable input read; and where it is held on a fault, the pages reported (by rank and kind of access)
and its last try. -/
structure Coll where
  vd     : Nat
  comm   : Nat
  op     : CollOp
  red    : CollRed
  fmt    : CollFmt
  sc     : Bool
  n      : Nat
  len    : Nat
  root   : Nat
  occ    : Nat
  parts  : List CollPart
  started : Bool
  partials : List (Nat × Nat × List Elem)
  ended  : List Nat
  flags  : Nat
  bad    : Bool
  abandoned : Bool
  /-- abandoned: the latest launch at that time, past which no launch's operation belongs to it (log 95) -/
  upto   : Nat
  uncorr : Bool
  pages  : List (Nat × Nat)
  retryAt : Option Nat
  retryNow : Bool
  deriving DecidableEq, Repr

/-! ## The module -/

inductive Bringup | running | done | failed
  deriving DecidableEq, Repr

structure FwPlace where
  valid  : Bool
  svn    : Nat
  digest : Nat
  deriving DecidableEq, Repr

/-- The engagement (ENGID) whose key a 32-byte sector of DRAM was written under (R220, R223). -/
abbrev KeyTag := Nat

/-- A plain store of a thread that streams, copies or fetches may not see yet (R21, R283, R382): the thread, the first byte
written, the bytes before and after it, and whether every agent but a fetch already sees it. -/
structure PStore where
  tid  : Nat
  addr : Nat
  old  : List Byte
  new  : List Byte
  seen : Bool
  deriving DecidableEq, Repr

/-- A page of a plot's scratch in a frame: the frame, SB × 32 + its number there, and whether the page was written (R81, R82). -/
structure ScratchPage where
  frame : Nat
  dirty : Bool
  deriving DecidableEq, Repr

/-- A leaf that an XT slice holds for a device: the slice, the lowest address bit that its level indexes, the page's number, the
address of the entry, and the entry without A and D (R93). -/
structure XtLeaf where
  vd    : Nat
  slice : Nat
  lo    : Nat
  page  : Nat
  addr  : Nat
  ent   : Nat
  deriving DecidableEq, Repr

/-- A reply of the module on a host port (R211). -/
structure Reply where
  bytes : List Byte
  deriving DecidableEq, Repr

/-- The state of the module. -/
structure State where
  -- the model's own fields: log 1 to 4
  agenda : List Instr
  pace   : List Nat
  turn   : Nat
  free   : Nat
  cur    : Nat
  latch  : Option Instr
  lateLoads : Bool
  nextTid : Nat
  -- module services
  time   : Nat
  full   : Bool
  bringup : Bringup
  fw     : List FwPlace
  running : Nat
  maxSvn : Nat
  energy : Nat
  l2ce   : Nat
  mhz    : Assoc Nat
  atFloor : Assoc Nat
  ballast : Nat
  lastArb : Nat
  lseq   : Nat
  -- memory
  mem    : List Host.Cell
  /-- plain stores that other agents may not see yet (R21, R382), oldest first -/
  stores : List PStore
  poison : Assoc Nat
  keytags : Assoc KeyTag
  /-- scratch pages in backing, by plot × 2048 + page: the device and frame of its pool, or none (R82) -/
  backed : Assoc (Option (Nat × Nat))
  /-- scratch pages in frames, by plot × 2048 + page (R81) -/
  pages  : Assoc ScratchPage
  /-- entries that XT slices hold (R93) -/
  xt     : List XtLeaf
  -- agents
  threads : Assoc Thread
  plots  : Assoc Plot
  pes    : Assoc PE
  launches : Assoc Launch
  waiting : List Waiting
  vds    : Assoc VD
  slots  : Assoc KeySlot
  receipts : List Receipt
  colls  : Assoc Coll
  /-- the copy queue that each die's engine served last: launch × 16 + queue (R144) -/
  copyRr : Assoc Nat
  brock  : Brock
  replies : List Reply
  /-- messages that wait for room in a log store, and those behind them on their connections (R214, R229) -/
  kcpHeld : List (Kcp × Instr)
  deriving DecidableEq, Repr

/-- Reasons a step stops the machine. -/
inductive Fault
  /-- An instruction is executed while no thread is being served: raised by every control-thread meaning. No run from
  reset reaches it, since INSTRUCTION_ISSUE chooses the thread and its instruction together. Safe. -/
  | noThread
  deriving DecidableEq, Repr

/-- Reasons a step has no meaning. -/
inductive Refusal
  /-- The instruction named has no meaning yet: raised by arms of Dispatch.lean alone. Safe. -/
  | notModelled (mnemonic : String)
  deriving DecidableEq, Repr

def Brock.init : Brock :=
  { scores := [], leases := [], cursors := [], lastDecay := 0, retired := [], remaps := [], flash := [], worn := [],
    fuses := [], withdrawn := [], far := [], serial := 0 }

/-- The module right after power-on (R230, R236): nursery service, no virtual device, no launch, no thread, both
planes of every PE empty. The values the spec does not state are named in log entries 1 to 11. -/
def State.reset : State :=
  { agenda := [], pace := [], turn := 0, free := 0, cur := 0, latch := none, lateLoads := false, nextTid := 0,
    time := 0, full := false, bringup := .running, fw := [⟨true, 0, 0⟩, ⟨false, 0, 0⟩], running := 0, maxSvn := 0,
    energy := 0, l2ce := 0, mhz := [], atFloor := [], ballast := 0, lastArb := 0, lseq := 0,
    mem := [], stores := [], poison := [], keytags := [], backed := [], pages := [], xt := [],
    threads := [], plots := [], pes := [], launches := [], waiting := [], vds := [], slots := [], receipts := [],
    colls := [], copyRr := [], brock := Brock.init, replies := [], kcpHeld := [] }

end Sys2Proof.Machine
end

