-- ==== Sys2Proof/Machine/Mem.lean ====
section
/-!
DEFINITION. Memory and translation (04_memory_levels.md R81 to R96, 13 R271, 09 R204, 10 R220 to R223, R228):
the physical map, the canonical list of bytes, poison and key tags of sectors, plot windows, the four-level walk, the
checks of an access in order, and the read or write it then performs. One place decides byte order: `readPhys` and
`writePhys` take the lowest address first (R6).
-/
namespace Sys2Proof.Machine

/-! ## Bytes -/

/-- What an address that nothing has written reads as: 0 (R81 for scratch; log 7 for DRAM). -/
def unlistedByte : Byte := 0#8

/-- The byte at an address. -/
def memGet : List Host.Cell → Nat → Byte
  | [], _ => unlistedByte
  | (k, v) :: m, a => if a = k then v else memGet m a

/-- The memory with one byte written, in canonical form. -/
def memPut : List Host.Cell → Nat → Byte → List Host.Cell
  | [], a, b => if b = unlistedByte then [] else [(a, b)]
  | (k, v) :: m, a, b =>
    if a < k then (if b = unlistedByte then (k, v) :: m else (a, b) :: (k, v) :: m)
    else if a = k then (if b = unlistedByte then m else (a, b) :: m)
    else (k, v) :: memPut m a b

/-- Canonical form: addresses above `lo` strictly rising, no entry equal to what an unlisted address reads as. -/
def memWfFrom : Nat → List Host.Cell → Bool
  | _, [] => true
  | lo, (k, v) :: m => decide (lo ≤ k) && v != unlistedByte && memWfFrom (k + 1) m

/-- The canonical form of memory. -/
def Memory.wf (m : List Host.Cell) : Bool := memWfFrom 0 m

/-- The `n` bytes from an address, little-endian. -/
def readRaw (m : List Host.Cell) : Nat → Nat → Nat
  | _, 0 => 0
  | a, n + 1 => (memGet m a).toNat + 256 * readRaw m (a + 1) n

/-- `n` bytes written from an address, little-endian. -/
def writeRaw (m : List Host.Cell) : Nat → Nat → Nat → List Host.Cell
  | _, 0, _ => m
  | a, n + 1, v => writeRaw (memPut m a (BitVec.ofNat 8 v)) (a + 1) n (v / 256)

/-! ## The physical map (R86) -/

def dramEnd : Nat := 0xC000000000
def domainBase : Nat := 0x1000000000000
def domainEnd : Nat := 0x1400000000000
def windowBase : Nat := 0xF000000000000
def windowEnd : Nat := 0xF000080000000
def scratchSize : Nat := 0x800000

/-- The scratch byte at offset `off` of plot `p`, as it is kept in memory: its window address (R87). -/
def scratchAddr (p off : Nat) : Nat := windowBase + p * 0x1000000 + off

inductive Region
  | dram
  | hole
  | domain (m a : Nat)
  | window (p off : Nat)
  deriving DecidableEq, Repr

def regionOf (pa : Nat) : Region :=
  if pa < dramEnd then .dram
  else if pa < domainBase then .hole
  else if pa < domainEnd then .domain ((pa - domainBase) / 2 ^ 40) ((pa - domainBase) % 2 ^ 40)
  else if pa < windowBase then .hole
  else if pa < windowEnd then .window ((pa - windowBase) / 2 ^ 24) ((pa - windowBase) % 2 ^ 24)
  else .hole

/-- The region of an address now: under nursery service DRAM above 0x7_FFFF_FFFF is a hole (R236). -/
def regionAt (s : State) (pa : Nat) : Region :=
  if s.full = false ∧ 0x800000000 ≤ pa ∧ pa < dramEnd then .hole else regionOf pa

/-! ## Homes and channels (R83, R84, R236) -/

/-- H of an address (R83). -/
def homeOf (pa : Nat) : Nat :=
  fld pa 13 7 ^^^ fld pa 20 14 ^^^ fld pa 27 21 ^^^ fld pa 34 28 ^^^ fld pa 41 35 ^^^ fld pa 48 42 ^^^ fld pa 51 49

/-- The home die, home slice and set of an address in the L2 (R83); under nursery service every home is on C0 (R236). -/
def homeDie (full : Bool) (pa : Nat) : Nat := if full then homeOf pa / 32 else 0
def homeSlice (pa : Nat) : Nat := homeOf pa % 32
def l2Set (pa : Nat) : Nat := fld pa 18 7

/-- h of a row (R84). -/
def rowHash (row : Nat) : Nat := fld row 7 0 ^^^ fld row 15 8 ^^^ fld row 20 16

/-- Channel and address within the channel of a DRAM address (R84); under nursery service over channels 0 to 7 (R236). -/
def dramPlace (full : Bool) (pa : Nat) : Nat × Nat :=
  let g := fld pa 39 11
  if full then ((g % 192 + rowHash (g / 192)) % 192, g / 192 * 2048 + pa % 2048)
  else (g % 8, g / 8 * 2048 + pa % 2048)

/-- The DRAM address of a channel's address: the inverse of `dramPlace`. -/
def dramAddr (full : Bool) (chan chaddr : Nat) : Nat :=
  let row := chaddr / 2048
  if full then (row * 192 + (chan + 192 - rowHash row % 192) % 192) * 2048 + chaddr % 2048
  else (row * 8 + chan) * 2048 + chaddr % 2048

/-- The channel and window of 1 MiB that serve a DRAM address now: its own, or the spare that a window of a retired channel has
moved to, numbered from 4,096 on (R193, R196). -/
def servedBy (s : State) (pa : Nat) : Nat × Nat :=
  let x := dramPlace s.full pa
  match lookup s.brock.remaps (x.1 * 4096 + x.2 / 2 ^ 20) with
  | some k => (k / 32, 4096 + k % 32)
  | none => (x.1, x.2 / 2 ^ 20)

/-- The sector of an address poisoned by an error that the controller could not correct (R85). -/
def poisonSector (s : State) (pa : Nat) : State := { s with poison := insert s.poison (pa / 32) 0 }

/-! ## Sectors: poison (R85) and keys (R220, R223) -/

/-- Mask of the bytes of sector `sec` that `n` bytes from `a` cover. -/
def coverMask (a n sec : Nat) : Nat :=
  let lo := Nat.max a (32 * sec) - 32 * sec
  let hi := Nat.min (a + n) (32 * sec + 32) - 32 * sec
  2 ^ hi - 2 ^ lo

/-- The sectors that `n` bytes from `a` touch, `n` above 0. -/
def sectorsOf (a n : Nat) : List Nat :=
  if n = 0 then [] else (List.range ((a + n - 1) / 32 + 1 - a / 32)).map (· + a / 32)

/-- Whether a read of `n` bytes meets a poisoned sector. -/
def poisoned (s : State) (a n : Nat) : Bool := (sectorsOf a n).any (listed s.poison)

/-- Poison after a write: a sector is clean once writes have covered all 32 bytes (R85). -/
def poisonAfter (p : Assoc Nat) (a n : Nat) : List Nat → Assoc Nat
  | [] => p
  | sec :: rest =>
    match lookup p sec with
    | none => poisonAfter p a n rest
    | some m =>
      let m' := m ||| coverMask a n sec
      poisonAfter (if m' = 2 ^ 32 - 1 then remove p sec else insert p sec m') a n rest

/-- The byte at a DRAM address as a reader of engagement `eng` sees it. -/
def keyedByte (s : State) (eng a : Nat) : Byte :=
  match lookup s.keytags (a / 32) with
  | some t => if t = eng then memGet s.mem a else Config.wrongKey a eng t (memGet s.mem a)
  | none => memGet s.mem a

/-- `n` bytes from a DRAM address under an engagement's key, little-endian. -/
def readKeyed (s : State) (eng : Nat) : Nat → Nat → Nat
  | _, 0 => 0
  | a, n + 1 => (keyedByte s eng a).toNat + 256 * readKeyed s eng (a + 1) n

/-- A sector taken over by engagement `eng`: what it held under another key, that key's reader sees it as. -/
def rekeySector (s : State) (eng sec : Nat) : State :=
  match lookup s.keytags sec with
  | some t =>
    if t = eng then s
    else
      { s with
        mem := (List.range 32).foldl (fun m i => memPut m (32 * sec + i) (Config.wrongKey (32 * sec + i) eng t
          (memGet s.mem (32 * sec + i)))) s.mem
        keytags := insert s.keytags sec eng }
  | none => { s with keytags := insert s.keytags sec eng }

/-! ## Stores that are not visible yet (R21, R109, R382) -/

/-- Whether a store covers any of `n` bytes from `a`. -/
def PStore.meets (e : PStore) (a n : Nat) : Bool := decide (e.addr < a + n) && decide (a < e.addr + e.old.length)

/-- Stores made visible to every agent at once: those that are marked, and each that shares a byte with a later one that is
visible, since it precedes that one in coherence order (R108, R109). -/
def performed : List (PStore × Bool) → List PStore
  | [] => []
  | (e, b) :: r =>
    let r' := performed r
    { e with seen := e.seen || b || r'.any (fun y => y.seen && y.meets e.addr e.old.length) } :: r'

/-- Stores that fetches see as well: what is left without those that are marked and without each that shares a byte with a
later one that goes; and those that went (R21, R108). -/
def landed : List (PStore × Bool) → List PStore × List PStore
  | [] => ([], [])
  | (e, b) :: r =>
    let x := landed r
    if b || x.2.any (fun y => y.meets e.addr e.old.length) then (x.1, e :: x.2) else (e :: x.1, x.2)

/-- The stores that a test names become visible to every agent. -/
def performStores (s : State) (p : PStore → Bool) : State := { s with stores := performed (s.stores.map (fun e => (e, p e))) }

/-- Bytes read: what stores wrote to them is visible to every agent from then on (R108). -/
def sawBytes (s : State) (a n : Nat) : State := performStores s (fun e => e.meets a n)

/-- The stores that a test names become visible to every agent and to fetches. -/
def dropStores (s : State) (p : PStore → Bool) : State := { s with stores := (landed (s.stores.map (fun e => (e, p e)))).1 }

/-- A write over bytes of earlier stores makes those stores visible: they come before it. -/
def landStores (s : State) (a n : Nat) : State := dropStores s (fun e => e.meets a n)

/-- A store of `n` bytes at `a`, with the bytes before and after it, not yet visible. -/
def storeOf (tid a n : Nat) (old new : List Host.Cell) : PStore :=
  { tid := tid, addr := a, old := (List.range n).map (fun i => memGet old (a + i)),
    new := (List.range n).map (fun i => memGet new (a + i)), seen := false }

/-- The stores of a list, oldest first, that a read of `n` bytes from `a` finds visible, marked, where `open_` says which may
still be invisible to it: of those it meets, in order, free bits say how many it sees by now. Also those it does not see. -/
def arrive (open_ : PStore → Bool) (a n : Nat) : List PStore → Nat → List (PStore × Bool) × List PStore × Nat
  | [], f => ([], [], f)
  | e :: r, f =>
    if e.meets a n && open_ e then
      if Config.freeBit f then
        let x := arrive open_ a n r (f + 1)
        ((e, true) :: x.1, x.2.1, x.2.2)
      else ((e :: r).map (fun y => (y, false)), (e :: r).filter (fun y => y.meets a n && open_ y), f + 1)
    else let x := arrive open_ a n r f; ((e, false) :: x.1, x.2.1, x.2.2)

/-- Memory without the stores given, newest first: each byte that still holds what a store wrote goes back. -/
def withoutStores (m : List Host.Cell) : List PStore → List Host.Cell
  | [] => m
  | e :: r =>
    withoutStores ((List.range e.old.length).foldl (fun m i =>
      if memGet m (e.addr + i) = e.new.getD i 0#8 then memPut m (e.addr + i) (e.old.getD i 0#8) else m) m) r

/-- A write of `n` bytes to DRAM (or remote DRAM) under an engagement's key. -/
def writeKeyed (s : State) (eng a n v : Nat) : State :=
  let s := (sectorsOf a n).foldl (fun s sec => rekeySector s eng sec) (landStores s a n)
  { s with mem := writeRaw s.mem a n v, poison := poisonAfter s.poison a n (sectorsOf a n) }

/-! ## Who accesses, and how -/

inductive Kind | read | write | atomic | fetch
  deriving DecidableEq, Repr

/-- The agents that R88, R92, R204 and R228 check or count differently. -/
inductive Agent | thread | copy | fabric | host | marten | coll
  deriving DecidableEq, Repr

/-- The context an access is made in: virtual device, launch, graph identity, key permissions. -/
structure Ctx where
  vd    : Nat
  lseq  : Nat
  gid   : Nat
  pkeys : Word
  agent : Agent
  deriving DecidableEq, Repr

/-- Where a checked access lands: an address of DRAM, of another module's DRAM, or a plot window; with the
engagement of its leaf and the address of the leaf. -/
structure Loc where
  reg  : Region
  pa   : Nat
  eng  : Nat
  leaf : Nat
  deriving DecidableEq, Repr

/-- The outcome of a check: the location; a cause with its TVAL; or a wait (R78, R82). -/
inductive Checked (α : Type)
  | ok (a : α)
  | bad (cause tval : Nat)
  | hold (w : Wait)
  deriving DecidableEq, Repr

/-! ## The walk (R89 to R92) -/

/-- A level of the table: lowest address bit of its index, index width, bits below the next table's size. -/
def levels : List (Nat × Nat × Nat) := [(43, 13, 16), (30, 13, 12), (21, 9, 8), (16, 5, 0)]

/-- FRAME bits that a leaf must have zero, by the lowest address bit of its level (R91). -/
def leafAligned (lo frame : Nat) : Bool := frame % 2 ^ (lo - 16) == 0

/-- The walk from a table down: the leaf's address, the entry, and the lowest address bit its level indexes. -/
def walk (m : List Host.Cell) (va : Nat) : Nat → List (Nat × Nat × Nat) → Except Nat (Nat × Nat × Nat)
  | _, [] => .error 0x24
  | table, (lo, width, below) :: rest =>
    let addr := table + 8 * fld va (lo + width - 1) lo
    let e := readRaw m addr 8
    if e % 2 = 0 then .error 0x20
    else if fld e 2 1 = 0 ∧ rest ≠ [] then
      if fld e 63 52 ≠ 0 ∨ fld e 7 3 ≠ 0 ∨ fld e 51 8 * 256 % 2 ^ below ≠ 0 then .error 0x24
      else walk m va (fld e 51 8 * 256) rest
    else if lo = 43 then .error 0x24
    else if leafAligned lo (fld e 63 28) then .ok (addr, e, lo) else .error 0x24

/-- Permission checks of a leaf, in the order of R92. -/
def leafCheck (c : Ctx) (k : Kind) (e : Nat) : Option Nat :=
  let r := fld e 1 1; let w := fld e 2 2
  let rd := k != .write; let wr := k == .write || k == .atomic
  let key := fld e 27 23
  let rk := fld c.pkeys.toNat (2 * key) (2 * key); let wk := fld c.pkeys.toNat (2 * key + 1) (2 * key + 1)
  if rd ∧ r = 0 then some 0x21
  else if wr ∧ w = 0 then some 0x22
  else if c.agent = .fabric ∧ fld e 22 15 ≠ 0 ∧ fld e 22 15 ≠ c.gid then some 0x23
  else if (c.agent = .thread ∨ c.agent = .copy) ∧ ((rd ∧ rk = 0) ∨ (wr ∧ wk = 0)) then some 0x26
  else none

def vdOf (s : State) (v : Nat) : Option VD := lookup s.vds v

/-- Translation of an address: leaf address, entry, physical address; or the cause (R92). -/
def translate (s : State) (c : Ctx) (k : Kind) (va : Nat) : Except Nat (Nat × Nat × Nat) :=
  match vdOf s c.vd with
  | none => .error 0x20
  | some vd =>
    if va ≥ 2 ^ 56 then .error 0x20 else
    match walk s.mem va (vd.ptbase / 65536 % 2 ^ 36 * 65536) levels with
    | .error x => .error x
    | .ok (addr, e, lo) =>
      match leafCheck c k e with
      | some x => .error x
      | none => .ok (addr, e, fld e 63 28 * 65536 + va % 2 ^ lo)

/-! ### XT slices (R93) -/

/-- The slice of its die that an address goes to: the XOR of the 6-bit pieces of VA[55:16]. -/
def xtSlice (va : Nat) : Nat :=
  fld va 21 16 ^^^ fld va 27 22 ^^^ fld va 33 28 ^^^ fld va 39 34 ^^^ fld va 45 40 ^^^ fld va 51 46 ^^^ fld va 55 52

/-- An entry without A and D, which a slice does not compare. -/
def sansAD (e : Nat) : Nat := e - e / 8 % 4 * 8

/-- A walked leaf as the slice of an address holds it. -/
def xtLeaf (vd va : Nat) (x : Nat × Nat × Nat) : XtLeaf :=
  { vd := vd, slice := xtSlice va, lo := x.2.2, page := va / 2 ^ x.2.2, addr := x.1, ent := sansAD x.2.1 }

/-- The leaves held for an address that differ from what its walk finds now. -/
def staleFor (s : State) (vd va : Nat) (now : Option XtLeaf) : List XtLeaf :=
  s.xt.filter (fun x => x.vd == vd && x.slice == xtSlice va && x.page == va / 2 ^ x.lo && some x != now)

/-- The agents whose accesses go through the XT slices (R93). -/
def Agent.usesXt : Agent → Bool
  | .thread | .copy | .fabric => true
  | _ => false

/-- The leaf that an access uses: the entry address, the entry, and the lowest address bit of its level. Where a slice holds an
entry that memory no longer has, a free number says which of those and the newest it is; a leaf that the walk finds is held
from then on (R93). Which slices hold one is not kept by die: every die may (log 22). -/
def xtWalk (s : State) (c : Ctx) (vd : VD) (va : Nat) : State × Except Nat (Nat × Nat × Nat) :=
  let fresh := walk s.mem va (vd.ptbase / 65536 % 2 ^ 36 * 65536) levels
  if c.agent.usesXt = false then (s, fresh)
  else
    let now := match fresh with | .ok x => some (xtLeaf c.vd va x) | .error _ => none
    let stale := staleFor s c.vd va now
    let held := match now with
      | some x => if s.xt.elem x then s else { s with xt := x :: s.xt }
      | none => s
    match stale with
    | [] => (held, fresh)
    | _ =>
      let s' := { held with free := s.free + 1 }
      match stale[Config.freeNat s.free % (stale.length + 1)]? with
      | some x => (s', .ok (x.addr, x.ent, x.lo))
      | none => (s', fresh)

/-- Translation of an access, through the XT slices where its agent uses them (R92, R93). -/
def xtTranslate (s : State) (c : Ctx) (k : Kind) (va : Nat) : State × Except Nat (Nat × Nat × Nat) :=
  match vdOf s c.vd with
  | none => (s, .error 0x20)
  | some vd =>
    if va ≥ 2 ^ 56 then (s, .error 0x20) else
    match xtWalk s c vd va with
    | (s, .error x) => (s, .error x)
    | (s, .ok (addr, e, lo)) =>
      match leafCheck c k e with
      | some x => (s, .error x)
      | none => (s, .ok (addr, e, fld e 63 28 * 65536 + va % 2 ^ lo))

/-- The leaves of a device held for any address of a range are given up on every die (R93). -/
def dropXt (s : State) (vd va size : Nat) : State :=
  { s with xt := s.xt.filter (fun x => !(x.vd == vd && decide (x.page * 2 ^ x.lo < va + size) && decide (va < (x.page + 1) * 2 ^ x.lo))) }

/-- A and, for a write, D set in a leaf (R92). -/
def markLeaf (s : State) (leaf : Nat) (dirty : Bool) : State :=
  let e := readRaw s.mem leaf 8
  let e' := e ||| 8 ||| (if dirty then 16 else 0)
  if e' = e then s else { s with mem := writeRaw s.mem leaf 8 e' }

/-! ## Key slots (R222) -/

/-- The engagement identifier of a slot at an epoch (R220). -/
def engOf (slot epoch : Nat) : Nat := slot * 2 ^ 22 + epoch

def slotOf (s : State) (k : Nat) : KeySlot :=
  lookupD s.slots k { st := .closed, epoch := 0, engid := 0, owner := 0, joined := [], granted := [], openAt := 0, closeAt := 0, holders := [], frames := [], plots := [], backs := [], rings := [] }

/-- Whether a virtual device holds a slot: it owns or has joined its engagement (R220). -/
def holdsSlot (s : State) (vd k : Nat) : Bool :=
  (slotOf s k).st == .opened && ((slotOf s k).owner == vd || (slotOf s k).joined.elem vd)

/-- The cause of R222, if any. -/
def keyCheck (s : State) (vd k : Nat) : Option Nat :=
  if holdsSlot s vd k then none
  else if (slotOf s k).st ≠ .opened ∧ (slotOf s k).holders.elem vd then some 0xC1
  else some 0xC0

/-! ## Monitors (R227, R228) -/

/-- Granules VA[55:16] that `n` bytes from `va` touch. -/
def granulesOf (va n : Nat) : List Nat :=
  if n = 0 then [] else (List.range ((va + n - 1) / 65536 + 1 - va / 65536)).map (· + va / 65536)

/-- A window is the set of ticks with equal value of tick div 1,000,000 (R228). -/
def winOf (time : Nat) : Nat := time / 1000000

/-- The configuration in force in a window: a write takes effect at the next window boundary (R227). -/
def Monitor.settled (m : Monitor) (w : Nat) : Monitor :=
  if m.win < w then { m with base := m.nbase, en := m.nen, limit := m.nlimit } else m

/-- Whether a monitor that is on covers a granule in window `w`. -/
def Monitor.covers (m : Monitor) (w g : Nat) : Bool :=
  (m.settled w).en && decide ((m.settled w).base ≤ g) && decide (g ≤ (m.settled w).limit)

/-- One access counted in a monitor's window (R228). -/
def touchLog (l : MonLog) (time lseq key : Nat) : MonLog :=
  match lookup l.touches key with
  | none => { l with touches := insert l.touches key (time, time, 1, lseq % 2 ^ 32) }
  | some (f, _, c, q) => { l with touches := insert l.touches key (f, time, Nat.min (c + 1) (2 ^ 32 - 1), q) }

def MonLog.empty : MonLog :=
  { touches := [], recs := [], openAt := 0, blocks := [], fetched := [], prev := 0, next := 0 }

/-- Whether a device's store of 4,096 blocks is full (R229). -/
def storeFull (vd : VD) : Bool := decide (4096 ≤ vd.monlogs.foldl (fun n l => n + l.2.blocks.length) 0)

/-- Whether a monitored access must wait: the store is full and no block of it was fetched (R229). -/
def logFull (vd : VD) : Bool := storeFull vd && vd.monlogs.all (fun l => l.2.fetched.isEmpty)

def monitored (vd : VD) (w va n : Nat) : Bool :=
  (granulesOf va n).any (fun g => vd.mons.any (fun m => m.2.covers w g))

/-- An access counted by every monitor that covers it; an atomic counts as a read and as a write (R228). -/
def touchMon (s : State) (v lseq va n : Nat) (k : Kind) : State :=
  match vdOf s v with
  | none => s
  | some vd =>
    let hit := vd.mons.filter (fun m => (granulesOf va n).any (m.2.covers (winOf s.time)))
    if hit.isEmpty then s else
    let ks := match k with | .write => [1] | .atomic => [0, 1] | _ => [0]
    let logs := hit.foldl (fun ls m =>
      (granulesOf va n).foldl (fun ls g =>
        if m.2.covers (winOf s.time) g then
          ks.foldl (fun ls b => insert ls m.1 (touchLog (lookupD ls m.1 MonLog.empty) s.time lseq (winOf s.time * 2 ^ 41 + 2 * g + b))) ls
        else ls) ls) vd.monlogs
    { s with vds := insert s.vds v { vd with monlogs := logs } }

/-! ## Plot windows (R87, R88) -/

/-- A location of a plot window. -/
inductive WinLoc
  | scratch (off : Nat)
  | reg (slot n : Nat)
  | tile (t w : Nat)
  | srf (e w : Nat)
  | pe (ij off : Nat)
  | none
  deriving DecidableEq, Repr

def winLoc (off n : Nat) : WinLoc :=
  if off < scratchSize then .scratch off
  else if n ≠ 8 ∨ off % 8 ≠ 0 then .none
  else if off < 0x801000 then .reg ((off - 0x800000) / 512) ((off - 0x800000) % 512 / 8)
  else if off < 0x801800 then .tile ((off - 0x801000) / 64) ((off - 0x801000) % 64 / 8)
  else if off < 0x802000 then .none
  else if off < 0x803000 then .srf ((off - 0x802000) / 16) ((off - 0x802000) % 16 / 8)
  else if off < 0x900000 then .none
  else if off < 0x940000 then
    let o := (off - 0x900000) % 4096
    if o < 0x400 then (if o % 256 ≤ 0x80 then .pe ((off - 0x900000) / 4096) o else .none)
    else if o < 0x440 then .pe ((off - 0x900000) / 4096) o
    else .none
  else .none

/-- Whether a window location may be written. -/
def WinLoc.writable : WinLoc → Bool
  | .scratch _ | .reg _ _ | .tile _ _ => true
  | .pe _ o => decide (o < 0x400) && decide (o % 256 < 0x80)
  | _ => false

def plotOf (s : State) (p : Nat) : Plot := lookupD s.plots p Plot.empty
def setPlot (s : State) (p : Nat) (x : Plot) : State := { s with plots := insert s.plots p x }
def peOf (s : State) (p : Nat) : PE := lookupD s.pes p PE.empty
def setPe (s : State) (p : Nat) (x : PE) : State := { s with pes := insert s.pes p x }

/-- FIFO pages at the top of a plot's scratch: ceil(S / 32) pages (R81). -/
def fifoPages (s : State) (p : Nat) : Nat := ((plotOf s p).fifo + 31) / 32

/-- Whether scratch bytes of a plot overlap its FIFO pages. -/
def inFifo (s : State) (p off n : Nat) : Bool := decide (scratchSize - 4096 * fifoPages s p < off + n)

def srfGet (x : Plot) (e : Nat) : SrfEntry := lookupD x.srf e SrfEntry.zero
def srfPut (x : Plot) (e : Nat) (v : SrfEntry) : Plot := { x with srf := insert x.srf e v }

/-- The thread in a slot of a plot's CC. -/
def threadAt (s : State) (p slot : Nat) : Option (Nat × Thread) :=
  s.threads.find? (fun t => t.2.plot == p && t.2.slot == slot && t.2.stat != .dead)

/-- The eight bytes at a word of the SRF view (R133). -/
def srfWord (v : SrfEntry) (w : Nat) : Nat :=
  if w = 0 then v.value.toNat + 2 ^ 32 * v.gen + 2 ^ 40 * v.ref else v.dup.toNat

def pecfgWord (q : Plane) : Nat := (if q.matrix then 1 else 0) + 2 ^ 8 * q.rowid + 2 ^ 11 * q.colid

def klimWord (q : Plane) : Nat :=
  q.klim.getD 0 0 + 2 ^ 16 * q.klim.getD 1 0 + 2 ^ 32 * q.klim.getD 2 0 + 2 ^ 48 * q.klim.getD 3 0

/-- A read of a PE window (R87). -/
def peWord (x : PE) (o : Nat) : Nat :=
  if o < 0x400 then
    let a := x.active.accs.getD (o / 256) Acc.zero
    if o % 256 < 0x80 then (a.lanes.getD (o % 256 / 8) 0#40).toNat
    else a.tag + 2 ^ 16 * a.eor
  else if o = 0x400 then pecfgWord x.active
  else if o = 0x408 then klimWord x.active
  else if o = 0x410 then pecfgWord x.shadow
  else if o = 0x418 then klimWord x.shadow
  else x.active.k.getD ((o - 0x420) / 8) 0

/-- A read of `n` bytes of a window. -/
def winRead (s : State) (p off n : Nat) : Nat :=
  match winLoc off n with
  | .scratch o => readRaw s.mem (scratchAddr p o) n
  | .reg slot g =>
    match threadAt s p slot with
    | some (_, t) => if g = 0 then 0 else (t.regs.getD g 0#64).toNat
    | none => 0
  | .tile t w => ((lookupD (plotOf s p).tiles t 0#512).extractLsb' (64 * w) 64).toNat
  | .srf e w => srfWord (srfGet (plotOf s p) e) w
  | .pe ij o => peWord (peOf s (64 * p + ij)) o
  | .none => 0

/-- The reserved bits of a tile descriptor forced to zero (R147). -/
def tileMask (d : BitVec 512) : BitVec 512 :=
  d &&& BitVec.ofNat 512 ((2 ^ 192 - 2 ^ 64) + (2 ^ 56 - 1))

/-- Frames of a plot that hold a page: they are taken from frame 0 on, and given back together. -/
def framesUsed (s : State) (p : Nat) : Nat := (s.pages.filter (fun x => x.1 / 2048 == p)).length

/-- An access to a scratch page: the first one gives it a zeroed frame, and a write marks it written (R81, R82). Which frame is
not stated: the lowest that is free (log 97). -/
def usePage (s : State) (p off : Nat) (write : Bool) : State :=
  let k := 2048 * p + off / 4096
  match lookup s.pages k with
  | some x => if write && !x.dirty then { s with pages := insert s.pages k { x with dirty := true } } else s
  | none => { s with pages := insert s.pages k { frame := framesUsed s p, dirty := write } }

/-- A read of a scratch page. -/
def touchPage (s : State) (p off : Nat) : State := usePage s p off false

/-- `n` bytes written to a plot's scratch. -/
def putScratch (s : State) (p o n v : Nat) : State :=
  { usePage (landStores s (scratchAddr p o) n) p o true with mem := writeRaw s.mem (scratchAddr p o) n v }

/-- A write of `n` bytes to a window. -/
def winWrite (s : State) (p off n v : Nat) : State :=
  match winLoc off n with
  | .scratch o => putScratch s p o n v
  | .reg slot g =>
    if g = 0 then s
    else
      { s with threads := s.threads.map (fun x =>
          if x.2.plot = p ∧ x.2.slot = slot ∧ x.2.stat ≠ .dead
          then (x.1, { x.2 with regs := setNth x.2.regs g (BitVec.ofNat 64 v) }) else x) }
  | .tile t w =>
    let x := plotOf s p
    let d := (lookupD x.tiles t 0#512).toNat
    let d' := d - d / 2 ^ (64 * w) % 2 ^ 64 * 2 ^ (64 * w) + v % 2 ^ 64 * 2 ^ (64 * w)
    setPlot s p { x with tiles := insert x.tiles t (tileMask (BitVec.ofNat 512 d')) }
  | .pe ij o =>
    let x := peOf s (64 * p + ij)
    let a := x.active.accs.getD (o / 256) Acc.zero
    let a' := { a with lanes := setNth a.lanes (o % 256 / 8) (BitVec.ofNat 40 v) }
    setPe s (64 * p + ij) { x with active := { x.active with accs := setNth x.active.accs (o / 256) a' } }
  | _ => s

def launchOf (s : State) (l : Nat) : Option Launch := lookup s.launches l
def setLaunch (s : State) (x : Launch) : State := { s with launches := insert s.launches x.lseq x }

/-- A launch put at a number. -/
def putLaunch (s : State) (k : Nat) (x : Launch) : State := { s with launches := insert s.launches k x }

/-- A launch's own plot that does not yet hold its active configuration (R78). -/
def unloaded (s : State) (p lseq : Nat) : Bool :=
  (plotOf s p).holder == some lseq &&
  (match launchOf s lseq with | some x => !x.loaded | none => false)

/-- Whether a plot belongs to a virtual device (R215). -/
def ownsPlot (s : State) (v p : Nat) : Bool :=
  match vdOf s v with
  | some vd => vd.plotmask / 2 ^ p % 2 == 1
  | none => false

/-- The checks of R88, with the holds of R78 and R82. `va` is what TVAL names. A thread's access to scratch has any size (R87) but
the 64 bytes of a descriptor or a record, which R295 denies (log 24). -/
def winCheck (s : State) (c : Ctx) (k : Kind) (va p off n : Nat) : Checked Unit :=
  if c.agent ≠ .thread ∧ c.agent ≠ .copy then .bad 0x25 va
  else if ownsPlot s c.vd p = false then .bad 0x25 va
  else if 64 ≤ n ∧ c.agent = .thread then .bad 0x25 va
  else if k = .atomic ∨ k = .fetch then .bad 0x25 va
  else
    match winLoc off n with
    | .none => .bad 0x25 va
    | l =>
      if k = .write ∧ l.writable = false then .bad 0x25 va
      else
        match l with
        | .scratch o =>
          if inFifo s p o n then .bad 0x25 va
          else if listed s.backed (2048 * p + o / 4096) then .hold (.backing p (o / 4096))
          else if unloaded s p c.lseq then .hold (.sibling p)
          else .ok ()
        | .reg _ _ => if unloaded s p c.lseq then .hold (.sibling p) else .ok ()
        | _ => .ok ()

/-! ## An access -/

/-- A range of at most 65,536 bytes cut at the border of a 64 KiB page. -/
def pagePieces (a n : Nat) : List (Nat × Nat) :=
  let k := 65536 - a % 65536
  if n ≤ k then [(a, n)] else [(a, k), (a + k, n - k)]

/-- A range put among ranges in ascending order of their addresses. -/
def addRange : List (Nat × Nat) → Nat × Nat → List (Nat × Nat)
  | [], r => [r]
  | x :: rs, r => if r.1 < x.1 then r :: x :: rs else if r = x then x :: rs else x :: addRange rs r

/-- Where a device's page table puts an address, whatever the leaf grants. -/
def frameOf (s : State) (vd : VD) (va : Nat) : Option Nat :=
  match walk s.mem va (vd.ptbase / 65536 % 2 ^ 36 * 65536) levels with
  | .ok (_, e, lo) => some (fld e 63 28 * 65536 + va % 2 ^ lo)
  | .error _ => none

/-- The DRAM behind a range of a device's spill area, as address and length (R105). -/
def spillAt (s : State) (vd : VD) (a n : Nat) : List (Nat × Nat) :=
  (pagePieces a n).filterMap (fun x => (frameOf s vd x.1).bind (fun pa => if regionAt s pa = .dram then some (pa, x.2) else none))

/-- The DRAM of the spill segments of a device that belong to a ring (R105). -/
def ringFrames (s : State) (vd : VD) : List (Nat × Nat) :=
  (vd.segs.map (fun g => spillAt s vd (vd.spillva + g.1 * 65536) 65536)).flatten

/-- Whether bytes of DRAM lie in a spill segment that belongs to a ring, by whatever address they are reached (R105). -/
def inSpill (s : State) (pa n : Nat) : Bool :=
  s.vds.any (fun v => (ringFrames s v.2).any (fun r => decide (pa < r.1 + r.2) && decide (r.1 < pa + n)))

/-- A byte of another module's DRAM, by domain, member and address, in numbers above every address of this module (R204). -/
def farPlace (domain m a : Nat) : Nat := 2 ^ 64 + (domain * 64 + m) * 2 ^ 40 + a

/-- `n` bytes of another module's DRAM as they are now. What they hold is that module's to say: each is free at every tick (log 94). -/
def farRead (place time : Nat) : Nat → Nat
  | 0 => 0
  | n + 1 => Config.farByte place time % 256 + 256 * farRead (place + 1) time n

/-- Steps 4 to 7 of R271 at a physical address. -/
def physCheck (s : State) (c : Ctx) (k : Kind) (va n leaf e pa : Nat) : Checked Loc :=
  let ks := fld e 14 5
  let eng := (slotOf s ks).engid
  match regionAt s pa with
  | .hole => .bad 0x27 (if k = .fetch then va else pa)
  | .domain m a =>
    match vdOf s c.vd with
    | none => .bad 0x27 pa
    | some vd =>
      if c.agent ≠ .thread ∧ c.agent ≠ .copy then .bad 0x27 pa
      else if k = .fetch then .bad 0x27 va
      else if vd.domain = 0 ∨ a ≥ dramEnd then .bad 0x27 pa
      else if m = vd.domix then
        if regionAt s a = .hole then .bad 0x27 pa
        else if inSpill s a n then .bad 0x28 va
        else match keyCheck s c.vd ks with
        | some x => .bad x va
        | none =>
          if k ≠ .write ∧ c.agent = .thread ∧ poisoned s a n then .bad 0x29 va
          else .ok { reg := .dram, pa := a, eng := eng, leaf := leaf }
      else if Config.domainMember vd.domain m = false then .bad 0x27 pa
      else
        match keyCheck s c.vd ks with
        | some x => .bad x va
        | none =>
          if Config.remoteHolds c.vd vd.domain m ks = false then .bad 0xC0 va
          else if k ≠ .write ∧ c.agent = .thread ∧ Config.farPoison (farPlace vd.domain m a) s.time then .bad 0x29 va
          else .ok { reg := .domain m a, pa := farPlace vd.domain m a, eng := eng, leaf := leaf }
  | .window p off =>
    match winCheck s c k va p off n with
    | .bad x v => .bad x v
    | .hold w => .hold w
    | .ok _ =>
      if off < scratchSize then
        match keyCheck s c.vd ks with
        | some x => .bad x va
        | none => .ok { reg := .window p off, pa := pa, eng := eng, leaf := leaf }
      else .ok { reg := .window p off, pa := pa, eng := eng, leaf := leaf }
  | .dram =>
    match vdOf s c.vd with
    | none => .bad 0x20 va
    | some _ =>
      if (c.agent = .thread ∨ c.agent = .copy) ∧ k ≠ .fetch ∧ inSpill s pa n then .bad 0x28 va
      else
        match keyCheck s c.vd ks with
        | some x => .bad x va
        | none =>
          if k ≠ .write ∧ (c.agent = .thread ∨ c.agent = .marten ∨ c.agent = .host) ∧ poisoned s pa n then .bad 0x29 va
          else .ok { reg := .dram, pa := pa, eng := eng, leaf := leaf }

/-- A DRAM frame translated under its leaf's slot is remembered until the engagement closes (R225 step 5). -/
def touchFrame (s : State) (l : Loc) (e : Nat) : State :=
  match l.reg with
  | .dram =>
    let k := slotOf s (fld e 14 5)
    if k.frames.elem (l.pa / 65536) then s
    else { s with slots := insert s.slots (fld e 14 5) { k with frames := addNat k.frames (l.pa / 65536) } }
  | _ => s

/-- Whether a monitored access waits for room in its device's block store (R229). -/
def logStall (s : State) (v va n : Nat) : Bool :=
  match vdOf s v with
  | some vd => logFull vd && monitored vd (winOf s.time) va n
  | none => false

/-- DataCheck (R270, R271): alignment, then translation, then the physical checks. The leaf's A bit, and D for a
write, is set as soon as R92 passes; an access that passes everything is counted by the monitors (R228). -/
def dataCheck (s : State) (c : Ctx) (k : Kind) (ea n align : Nat) : State × Checked Loc :=
  if ea % align ≠ 0 then (s, .bad 0x08 ea)
  else
    match xtTranslate s c k ea with
    | (s, .error x) => (s, .bad x ea)
    | (s, .ok (leaf, e, pa)) =>
      let s' := if sansAD (readRaw s.mem leaf 8) = sansAD e then markLeaf s leaf (k == .write) else s
      match physCheck s' c k ea n leaf e pa with
      | .ok l =>
        if k = .fetch ∨ c.agent = .marten ∨ c.agent = .coll then (touchFrame s' l e, .ok l)
        else if logStall s c.vd ea n then (s', .hold (.logFull c.vd))
        else (touchMon (touchFrame s' l e) c.vd c.lseq ea n k, .ok l)
      | r => (s', r)

/-- A read at a checked location. -/
def readLoc (s : State) (l : Loc) (n : Nat) : Nat :=
  match l.reg with
  | .window p off => winRead s p off n
  | .domain .. => farRead l.pa s.time n
  | _ => readKeyed s l.eng l.pa n

/-- The effect of a read: the first touch of a scratch page (R81). -/
def readEffect (s : State) (l : Loc) : State :=
  match l.reg with
  | .window p off => if off < scratchSize then touchPage s p off else s
  | _ => s

/-- A write at a checked location. One to another module's DRAM leaves this module (log 94). -/
def writeLoc (s : State) (l : Loc) (n v : Nat) : State :=
  match l.reg with
  | .window p off => winWrite s p off n v
  | .domain .. => s
  | _ => writeKeyed s l.eng l.pa n v

/-- The memory address of a location whose bytes lie in memory. -/
def Loc.memAt (l : Loc) : Nat := match l.reg with | .window p off => scratchAddr p off | _ => l.pa

/-- Whether a store is one of the thread that reads: it sees its own stores before they are performed (R109). -/
def PStore.mine (e : PStore) (s : State) (c : Ctx) : Bool := c.agent == .thread && e.tid == s.cur

/-- A read of a location, where stores may not be visible yet: the machine afterwards, and as the reader sees it. A fetch may
miss its own thread's stores until a FENCE.4, and another thread's until they are visible (R21); a stream, a copy or a
collective may miss one that is not visible yet (R382). What such a read finds new is visible to every agent from then on, and
any other reader finds every store so (R108; log 12). -/
def observe (s : State) (c : Ctx) (k : Kind) (l : Loc) (n : Nat) : State × State :=
  if s.stores.isEmpty then (s, s)
  else if k == .fetch then
    let x := arrive (fun e => e.mine s c || !e.seen) l.memAt n s.stores s.free
    let t := { s with stores := (landed x.1).1, free := x.2.2 }
    (t, { t with mem := withoutStores s.mem x.2.1.reverse })
  else if c.agent == .copy || c.agent == .fabric || c.agent == .coll then
    let x := arrive (fun e => !e.seen) l.memAt n s.stores s.free
    let t := { s with stores := performed x.1, free := x.2.2 }
    (t, { t with mem := withoutStores s.mem x.2.1.reverse })
  else
    let t := performStores s (fun e => e.meets l.memAt n && !e.mine s c)
    (t, t)

/-- A whole read: check, then value. -/
def loadVA (s : State) (c : Ctx) (k : Kind) (ea n align : Nat) : State × Checked Nat :=
  match dataCheck s c k ea n align with
  | (s', .ok l) => let o := observe s' c k l n; (readEffect o.1 l, .ok (readLoc o.2 l n))
  | (s', .bad x v) => (s', .bad x v)
  | (s', .hold w) => (s', .hold w)

/-- A whole write: check, then effect. -/
def storeVA (s : State) (c : Ctx) (ea n align v : Nat) : State × Checked Unit :=
  match dataCheck s c .write ea n align with
  | (s', .ok l) => (writeLoc s' l n v, .ok ())
  | (s', .bad x t) => (s', .bad x t)
  | (s', .hold w) => (s', .hold w)

/-- Whether a number lies in one of some ranges. -/
def inRanges (rs : List (Nat × Nat)) (a : Nat) : Bool := rs.any (fun r => decide (r.1 ≤ a) && decide (a < r.1 + r.2))

/-! ## Frames of 4 KiB (R82) -/

/-- Memory with bytes put at an offset of a cleared range. -/
def putCells (m : List Host.Cell) (lo : Nat) (cs : List (Nat × Byte)) : List Host.Cell :=
  cs.foldl (fun m c => memPut m (lo + c.1) c.2) m

def outside (m : List Host.Cell) (lo n : Nat) : List Host.Cell := m.filter (fun c => !(decide (lo ≤ c.1) && decide (c.1 < lo + n)))

/-- The bytes of a range that are not 0, by offset. -/
def cellsAt (m : List Host.Cell) (lo n : Nat) : List (Nat × Byte) :=
  (m.filter (fun c => decide (lo ≤ c.1) && decide (c.1 < lo + n))).map (fun c => (c.1 - lo, c.2))

/-- A frame of DRAM filled with a page under an engagement's key. -/
def fillFrame (s : State) (eng pa : Nat) (cs : List (Nat × Byte)) : State :=
  let s := landStores s pa 4096
  { s with
    mem := putCells (outside s.mem pa 4096) pa cs
    poison := s.poison.filter (fun c => !inRanges [(pa, 4096)] (32 * c.1))
    keytags := (sectorsOf pa 4096).foldl (fun t sec => insert t sec eng) s.keytags }

/-- What a frame of DRAM holds for an engagement, by offset. -/
def frameCells (s : State) (eng pa : Nat) : List (Nat × Byte) :=
  if (sectorsOf pa 4096).all (fun sec => lookupD s.keytags sec eng == eng) then cellsAt s.mem pa 4096
  else (List.range 4096).map (fun i => (i, keyedByte s eng (pa + i)))

/-- Reads of consecutive 64-bit words, oldest address first, each as one access (R303, R412). -/
def loadWords (s : State) (c : Ctx) (ea : Nat) : Nat → State × Checked (List Nat)
  | 0 => (s, .ok [])
  | n + 1 =>
    match loadVA s c .read ea 8 8 with
    | (s', .ok v) =>
      match loadWords s' c (ea + 8) n with
      | (s'', .ok vs) => (s'', .ok (v :: vs))
      | r => r
    | (s', .bad x t) => (s', .bad x t)
    | (s', .hold w) => (s', .hold w)

/-- The number that 64-bit words make, the first lowest. -/
def wordsNat : List Nat → Nat
  | [] => 0
  | w :: ws => w + 2 ^ 64 * wordsNat ws

end Sys2Proof.Machine
end

