-- ==== Sys2Proof/Machine/Ops.lean ====
section
/-!
DEFINITION. The named operations over threads and records: registers and predicates (R13), the program counter and
the hardware loop (R281), taking an exception and returning from one (R29 to R32), completion records (R155, R156),
fault records raised (R167, R169), pending counters (R152), and a thread's end (R282, R155, R163, R365).
-/
namespace Sys2Proof.Machine

abbrev Out := Host.Outcome State Fault Refusal

/-! ## Threads -/

def threadOf (s : State) (tid : Nat) : Option Thread := lookup s.threads tid
def setThread (s : State) (tid : Nat) (t : Thread) : State := { s with threads := insert s.threads tid t }

/-- G(n) of R270: g0 reads zero; so does a register the thread does not own, which decode has already refused. -/
def Thread.g (t : Thread) (n : Reg) : Word := if n = 0#6 then 0#64 else t.regs.getD n.toNat 0#64

/-- SetG(n, v): discarded for g0 (R13). A result of an earlier load that is still outstanding for the register is
superseded: it comes earlier in program order. -/
def Thread.setG (t : Thread) (n : Reg) (v : Word) : Thread :=
  if n = 0#6 then t
  else { t with regs := setNth t.regs n.toNat v, loads := t.loads.filter (fun x => x.1 != n.toNat) }

/-- P(n): p0 is true (R13). -/
def Thread.p (t : Thread) (n : Pred) : Bool := if n = 0#3 then true else t.preds.getLsbD n.toNat

/-- SetP(n, b): discarded for p0 (R13). -/
def Thread.setP (t : Thread) (n : Pred) (b : Bool) : Thread :=
  if n = 0#3 then t
  else { t with preds := if b then t.preds ||| BitVec.twoPow 8 n.toNat else t.preds &&& ~~~(BitVec.twoPow 8 n.toNat) }

/-- N: the registers the thread owns (R15). -/
def Thread.nreg (t : Thread) : Nat := t.regs.length

/-- The first register field at or above g(N), in field order (R18, R30). Register g0 never traps. -/
def firstBad (t : Thread) : List Reg → Option Reg
  | [] => none
  | r :: rs => if r ≠ 0#6 ∧ t.nreg ≤ r.toNat then some r else firstBad t rs

/-- The context of a thread's own data accesses. -/
def threadCtx (s : State) (t : Thread) : Ctx :=
  match launchOf s t.lseq with
  | some l => { vd := l.vd, lseq := t.lseq, gid := l.gid, pkeys := l.pkeys, agent := .thread }
  | none => { vd := 0, lseq := t.lseq, gid := 0, pkeys := 0, agent := .thread }

/-- The length of an instruction in bytes (R252). -/
def lenOf (i : Instr) : Word := if (encode i).length = 2 then 8#64 else 4#64

/-- The first word of an instruction, which several causes put into TVAL (R30). -/
def wordOf (i : Instr) : Word := ((encode i).headD 0#32).setWidth 64

/-! ## The program counter and the hardware loop (R281) -/

/-- The thread after an instruction of `len` bytes that transferred no control: steps 1 and 2 of R281. -/
def Thread.next (t : Thread) (len : Word) : Thread :=
  if t.pc = t.lend ∧ t.intrap = false ∧ 2 ≤ t.lcount.toNat then { t with lcount := t.lcount - 1#64, pc := t.lstart }
  else if t.pc = t.lend ∧ t.intrap = false ∧ t.lcount = 1#64 then { t with lcount := 0#64, pc := t.pc + len }
  else { t with pc := t.pc + len }

/-- The thread after a taken BR, a JAL or a JALR: step 3 of R281. -/
def Thread.jump (t : Thread) (target : Word) : Thread :=
  if target.toNat < t.lstart.toNat ∨ t.lend.toNat < target.toNat then { t with lcount := 0#64, pc := target }
  else { t with pc := target }

/-! ## Records -/

/-- A completion record's 256 bits (R156). -/
def eventBits (e : Event) (time : Nat) : Nat :=
  e.slot % 8 * 2 ^ 8 + e.queue % 16 * 2 ^ 16 + e.cause % 256 * 2 ^ 40 + e.kind % 256 * 2 ^ 48 + e.status % 256 * 2 ^ 56
    + e.user.toNat * 2 ^ 64 + e.count % 2 ^ 64 * 2 ^ 128 + time % 2 ^ 64 * 2 ^ 192

/-- A record appended to a device's host event stream (R155); a device that is closed takes none. -/
def toHostStream (s : State) (vd : Nat) (bits : Nat) : State :=
  match vdOf s vd with
  | some v => { s with vds := insert s.vds vd { v with events := v.events ++ [bits] } }
  | none => s

/-- The thread a record is for: the named one while it lives, or whichever thread of the launch holds the slot. -/
def eventTarget (s : State) (e : Event) : Option (Nat × Thread) :=
  match e.tid with
  | some tid =>
    match threadOf s tid with
    | some t => if t.stat = .dead then none else some (tid, t)
    | none => none
  | none =>
    match threadAt s e.plot e.slot with
    | some (tid, t) => if t.lseq = e.lseq then some (tid, t) else none
    | none => none

/-- The most records a CC's event queue holds (R155). -/
def evqCap : Nat := 256

/-- Records that came with the threads of a launch that one of its CCs has not admitted again, by PLOTIX (R165). -/
def keptRecords (s : State) (lseq ix : Nat) : Nat :=
  ((plotOf s (128 + ix)).evq.filter (fun r => (threadOf s r.tid).any (fun t => t.lseq == lseq))).length

/-- Records that take room in the event queue that a thread's records go to: those in its CC's queue, and those that its
launch's threads bring as that CC admits them again (R155, R165). -/
def evqUsed (s : State) (t : Thread) : Nat :=
  match launchOf s t.lseq with
  | none => (plotOf s t.plot).evq.length
  | some l =>
    if t.plot < 128 then (plotOf s t.plot).evq.length + keptRecords s t.lseq (l.place.plots.idxOf t.plot)
    else keptRecords s t.lseq (t.plot - 128) +
      (if l.resident then (l.place.plots[t.plot - 128]?.map (fun p => (plotOf s p).evq.length)).getD 0 else 0)

/-! ## Pending counters (R151, R152) -/

def addPend (t : Thread) (ctr n : Nat) : Thread := { t with pend := setNth t.pend ctr (t.pend.getD ctr 0 + n) }

/-- Bytes leave a counter of a thread that still lives. -/
def subPend (s : State) (tid ctr n : Nat) : State :=
  match threadOf s tid with
  | some t => setThread s tid { t with pend := setNth t.pend ctr (t.pend.getD ctr 0 - n) }
  | none => s

/-! ## Posting -/

/-- What is left of an operation leaves its counter as its record is posted (R152). -/
def Event.settle (s : State) (e : Event) : State :=
  match e.tid, e.left with
  | some tid, some (c, n) => subPend s tid c n
  | _, _ => s

/-- A record enters its queue, with TIME the tick at which it enters; it goes to the host stream when its thread has
halted; `none` when the queue is full (R155, R156). -/
def enterEvent (s : State) (e : Event) : Option State :=
  if e.toHost then some (toHostStream (Event.settle s e) e.vd (eventBits e s.time))
  else
    match eventTarget s e with
    | none => some (toHostStream (Event.settle s e) e.vd (eventBits e s.time))
    | some (tid, t) =>
      let x := plotOf s t.plot
      if evqUsed s t < evqCap then
        let e' := { e with slot := t.slot }
        some (setPlot (Event.settle s e) t.plot
          { x with evq := x.evq ++ [{ slot := t.slot, tid := tid, bits := eventBits e' s.time }] })
      else none

/-- A record posted: it goes to the host at once, or enters its queue, or is held at its source, behind those that already wait
for that queue (R155). -/
def post (s : State) (e : Event) : State :=
  match (if e.toHost then none else eventTarget s e) with
  | none => (enterEvent s e).getD s
  | some (_, t) =>
    let x := plotOf s t.plot
    let held := setPlot s t.plot { x with evHeld := x.evHeld ++ [e] }
    if x.evHeld.isEmpty then (enterEvent s e).getD held else held

/-- Whether a source of a launch waits behind a record it could not post (R155). -/
def eventHeldAt (s : State) (lseq : Nat) (src : FSource) : Bool :=
  s.plots.any (fun x => x.2.evHeld.any (fun e => e.src == some src && e.lseq == lseq))

/-- A fault record's 256 bits (R167). -/
structure FInfo where
  time  : Nat
  value : Nat
  seq   : Nat
  node  : Nat
  chan  : Option Nat
  plot  : Nat
  srcNo : Nat
  unit  : Nat
  cause : Nat
  orig  : Nat
  acc   : Nat
  lseq  : Nat
  deriving DecidableEq, Repr

def faultBits (f : FInfo) : Nat :=
  f.lseq % 2 ^ 32 + f.chan.getD 0 % 2 ^ 14 * 2 ^ 32 + f.acc % 4 * 2 ^ 46 + f.orig % 256 * 2 ^ 48 + f.cause % 256 * 2 ^ 56
    + f.unit % 16 * 2 ^ 64 + f.srcNo % 16 * 2 ^ 68 + f.plot % 128 * 2 ^ 72 + (if f.chan.isNone then 1 else 0) * 2 ^ 79
    + f.node % 2 ^ 16 * 2 ^ 80 + f.seq % 2 ^ 32 * 2 ^ 96 + f.value % 2 ^ 64 * 2 ^ 128 + f.time % 2 ^ 64 * 2 ^ 192

def Kind.code : Kind → Nat
  | .read => 0 | .write => 1 | .atomic => 2 | .fetch => 3

/-- A fault record raised: it stands behind every record of the launch raised before it; FAULT_RECORD_WRITE writes it
or finds it held (R169). -/
def raiseFault (s : State) (lseq : Nat) (src : FSource) (f : FInfo) : State :=
  match launchOf s lseq with
  | some l =>
    let r : FRec := { bits := faultBits f, src := src, held := false }
    putLaunch s lseq { l with fbHeld := l.fbHeld ++ [r] }
  | none => s

/-- Whether a source has a fault record that is not yet written (R169). -/
def faultHeldAt (l : Launch) (src : FSource) : Bool := l.fbHeld.any (fun r => r.src == src)

/-! ## A thread's end -/

/-- The entry and the generation a thread sees for an SRF name (R362): the map's entry, and the entry's own GEN moved
back by the offset a restore left. -/
def nameEntry (x : Plot) (n : Nat) : Nat := (lookupD x.names n (n, 0)).1

def seenGen (x : Plot) (n : Nat) : Nat :=
  let (e, off) := lookupD x.names n (n, 0)
  let g := (srfGet x e).gen
  if g = 0 then 0 else (g + 14 - off) % 15 + 1

def addRef (x : Plot) (e : Nat) : Plot := srfPut x e { srfGet x e with ref := (srfGet x e).ref + 1 }
def dropRef (x : Plot) (e : Nat) : Plot := srfPut x e { srfGet x e with ref := (srfGet x e).ref - 1 }

/-- Every pin of a thread released (R365). -/
def releasePins (s : State) (t : Thread) : State :=
  setPlot s t.plot (t.pins.foldl (fun x n => dropRef x (nameEntry x n)) (plotOf s t.plot))

/-- Records still addressed to a thread go to the host event stream (R155). -/
def forwardRecords (s : State) (tid : Nat) (t : Thread) (vd : Nat) : State :=
  let x := plotOf s t.plot
  let s := (x.evq.filter (fun r => r.tid == tid)).foldl (fun s r => toHostStream s vd r.bits) s
  setPlot s t.plot { plotOf s t.plot with evq := x.evq.filter (fun r => r.tid != tid) }

/-- Whether a port of a launch is bound to a thread's handle, or will be (R302). -/
def Launch.bindsHandle (l : Launch) (tid h : Nat) : Bool :=
  let is := fun (b : Option Binding) => match b with | some (.handle o k _ _ _) => o == tid && k == h | _ => false
  l.ports.any (fun p => is p.2.active || is p.2.waiting)

/-- The handles of a thread that ends whose ports are still bound: they run on (R282, R302, R324). -/
def Launch.keepHandles (l : Launch) (tid : Nat) (hs : Assoc Handle) : Launch :=
  { l with orphans := (hs.filter (fun h => l.bindsHandle tid h.1)).foldl (fun m h => insert m (16 * tid + h.1) h.2) l.orphans }

/-- The handle that a port is bound to: its thread's, or the one its launch kept when the thread halted. -/
def boundHandle (s : State) (lseq tid h : Nat) : Option Handle :=
  match threadOf s tid with
  | some t => lookup t.handles h
  | none => (launchOf s lseq).bind (fun l => lookup l.orphans (16 * tid + h))

/-- That handle changed. -/
def setBoundHandle (s : State) (lseq tid h : Nat) (x : Handle) : State :=
  match threadOf s tid with
  | some t => setThread s tid { t with handles := insert t.handles h x }
  | none =>
    match launchOf s lseq with
    | some l => putLaunch s lseq { l with orphans := insert l.orphans (16 * tid + h) x }
    | none => s

/-- Plain stores of a thread made visible by a release or a FENCE (R109): at scope 0 to the thread itself; at scopes 1 to 3 to
every agent, since each agent sees a write at the same moment (R108); and from scope 4 to fetches as well (R21; log 12). -/
def showStores (s : State) (tid sc : Nat) : State :=
  if sc = 0 then s
  else if sc < 4 then performStores s (fun e => e.tid == tid)
  else dropStores (performStores s (fun e => e.tid == tid)) (fun e => e.tid == tid)

/-- The launch's own account of a thread that ends: its table entry is halted, its task is complete (R163), its
divert handles are unbound (R305), handles that ports are bound to are kept, and it has arrived at every later barrier
(R325). -/
def Launch.threadEnds (l : Launch) (tid : Nat) (t : Thread) : Launch :=
  let l := l.keepHandles tid t.handles
  let l := match t.idx with
    | some i => { l with halted := addNat l.halted i }
    | none => l
  let l := match t.task with
    | some (q, n) =>
      let tq := lookupD l.tasks q TaskQ.empty
      { l with tasks := insert l.tasks q { tq with running := tq.running.filter (· != n) } }
    | none => l
  { l with hnodes := l.hnodes.map (fun h =>
      (h.1, if (match h.2.bound with | some (o, _) => o == tid | none => false) then { h.2 with bound := none } else h.2)) }

/-- A thread ends: its slot and registers return to the pool at once, its pins are released, its stores are performed, its
records go to the host, and its launch accounts for it (R16, R282, R155, R163, R365). -/
def endThread (s : State) (tid : Nat) : State :=
  match threadOf s tid with
  | none => s
  | some t =>
    let s := releasePins (showStores s tid 4) t
    let vd := match launchOf s t.lseq with | some l => l.vd | none => 0
    let s := forwardRecords s tid t vd
    let s := match launchOf s t.lseq with
      | some l => putLaunch s t.lseq (l.threadEnds tid t)
      | none => s
    { s with threads := remove s.threads tid }

/-! ## Taking an exception (R29 to R32) -/

/-- The fault record of a DOUBLE_TRAP: ORIG is the cause that arose, VALUE the address of the trapping instruction
(R32, R167). -/
def doubleTrapInfo (s : State) (t : Thread) (cause : Nat) : FInfo :=
  { time := s.time, value := t.pc.toNat, seq := 0, node := 0xFFFF, chan := none, plot := t.plot, srcNo := 0,
    unit := t.slot, cause := 0x09, orig := cause, acc := 0, lseq := t.lseq }

/-- DOUBLE_TRAP: the thread halts with its slot and registers returned, and its record is raised; the launch ends once
that record has been written, in FAULT_RECORD_WRITE (R32). -/
def doubleTrap (s : State) (tid : Nat) (t : Thread) (cause : Nat) : State :=
  endThread (raiseFault s t.lseq (.thread tid) (doubleTrapInfo s t cause)) tid

/-- A thread whose outstanding loads and atomics have returned, oldest first (R19). -/
def Thread.settle (t : Thread) : Thread :=
  { t.loads.foldl (fun t x => t.setG (BitVec.ofNat 6 x.1) x.2) t with loads := [] }

/-- The thread in its handler (R29). -/
def Thread.enterTrap (t : Thread) (cause : Nat) (epc tval : Word) : Thread :=
  { t with
    epc := epc &&& ~~~3#64
    cause := cause
    tval := tval
    pmode := t.mode
    mode := true
    intrap := true
    stat := .ready
    pc := t.tvec &&& ~~~3#64 }

/-- Trap entry, in one step (R29): the handler, or DOUBLE_TRAP when there is none or a trap is being handled. Every earlier
instruction has completed by then: what its loads and atomics still owe has returned (R28). -/
def trap (s : State) (tid : Nat) (t : Thread) (cause : Nat) (epc tval : Word) : State :=
  if t.tvec &&& ~~~3#64 = 0#64 ∨ t.intrap = true then doubleTrap s tid t cause
  else setThread s tid (t.settle.enterTrap cause epc tval)

/-- Return from a trap (R31): EPC to the pc, PMODE to MODE, INTRAP to 0. -/
def Thread.ret (t : Thread) : Thread := { t with pc := t.epc &&& ~~~3#64, mode := t.pmode, intrap := false }

/-- What ends a WFE: a record for the thread's slot, or TIME at or past a non-zero TCMP (R34). -/
def wfeDone (s : State) (tid : Nat) (t : Thread) : Bool :=
  (plotOf s t.plot).evq.any (fun r => r.tid == tid) ||
  (t.tcmp != 0#64 && decide (t.tcmp.toNat ≤ s.time % 2 ^ 64))

/-! ## One instruction of the current thread -/

/-- The frame of every control-thread instruction: the thread being served, check 4 of R253, then the instruction. -/
def instr (regs : List Reg) (s : State) (k : Nat → Thread → Out) : Out :=
  match threadOf s s.cur with
  | none => .fault .noThread
  | some t =>
    match firstBad t regs with
    | some r => .next (trap s s.cur t 0x04 t.pc (r.setWidth 64))
    | none => k s.cur t

/-- An instruction that has its effect on its thread alone and goes on to the next. -/
def done (s : State) (tid : Nat) (t : Thread) (i : Instr) : Out := .next (setThread s tid (t.next (lenOf i)))

/-- An instruction that waits: its thread stands at it (R19). -/
def wait (s : State) (tid : Nat) (t : Thread) (w : Wait) : Out := .next (setThread s tid { t with stat := .waiting w })

end Sys2Proof.Machine
end

