-- ==== Sys2Proof/Machine/Flags.lean ====
section
/-!
DEFINITION. Flag computations: the conditions of CMP (R276), and the sticky arithmetic flags of a region, one copy
per partition (05_numbers_and_scales.md R117).
-/
namespace Sys2Proof.Machine

/-- CMP.cc (R276). -/
def cond (c : CmpCond) (x y : Word) : Bool :=
  match c with
  | .eq => x == y
  | .ne => x != y
  | .lt => x.slt y
  | .ge => !(x.slt y)
  | .ltu => x.ult y
  | .geu => !(x.ult y)

/-! The bits of `sys.AFLAGS` (R117). -/

def flagNX : Nat := 1
def flagUF : Nat := 2
def flagOF : Nat := 4
def flagDZ : Nat := 8
def flagNV : Nat := 16
def flagSAT : Nat := 32

/-- Flags raised in a partition of a launch: an OR into its sticky copy (R117). -/
def raiseFlags (s : State) (lseq part f : Nat) : State :=
  if f = 0 then s
  else
    match launchOf s lseq with
    | some l => setLaunch s { l with aflags := insert l.aflags part (lookupD l.aflags part 0 ||| f) }
    | none => s

/-- The partition of a launch whose plots hold a plot (R117): partitions take consecutive runs of PLOTIX (R70). -/
def partOfIx (parts : List (Nat × Nat)) (ix : Nat) : Nat :=
  match parts with
  | [] => 0
  | (w, h) :: rest => if ix < w * h then 0 else 1 + partOfIx rest (ix - w * h)

/-- PLOTIX of a physical plot in a placement. -/
def plotIx (p : Placed) (plot : Nat) : Nat := p.plots.idxOf plot

def partOf (l : Launch) (plot : Nat) : Nat := partOfIx l.variant.parts (plotIx l.place plot)

end Sys2Proof.Machine
end

