-- ==== Sys2Proof/Machine/Operands.lean ====
section
/-!
DEFINITION. The operand forms of control-thread instructions (R254, R270, R274, R277, R278, R280, R283 to R286):
immediates, effective addresses, branch targets, access sizes, and the extension of loaded values.
-/
namespace Sys2Proof.Machine

/-- SignExtend(IMM14, 64). -/
def imm14 (i : BitVec 14) : Word := i.signExtend 64

/-- SignExtend(IMMHI·IMMLO, 64), from 46 bits (R254). -/
def imm46 (i : BitVec 46) : Word := i.signExtend 64

/-- The address of LD and ST: G(ra) + SignExtend(OFF11, 64) (R283). -/
def ea11 (t : Thread) (a : Reg) (o : BitVec 11) : Word := t.g a + o.signExtend 64

/-- The address of the acquire and release forms (R284). -/
def ea8 (t : Thread) (a : Reg) (o : BitVec 8) : Word := t.g a + o.signExtend 64

/-- The target of BR: here + 4 × SignExtend(OFF22, 64) (R277). -/
def target22 (t : Thread) (o : BitVec 22) : Word := t.pc + (o.signExtend 64 <<< 2)

/-- The target of JAL (R278). -/
def target20 (t : Thread) (o : BitVec 20) : Word := t.pc + (o.signExtend 64 <<< 2)

/-- n = 2^SZ bytes (R283). -/
def sizeOf (sz : BitVec 2) : Nat := 2 ^ sz.toNat

/-- A loaded value of 2^SZ bytes, extended (R283). -/
def extend (sz : BitVec 2) (u : Bool) (v : Nat) : Word :=
  match sz.toNat with
  | 0 => if u then (BitVec.ofNat 8 v).setWidth 64 else (BitVec.ofNat 8 v).signExtend 64
  | 1 => if u then (BitVec.ofNat 16 v).setWidth 64 else (BitVec.ofNat 16 v).signExtend 64
  | 2 => if u then (BitVec.ofNat 32 v).setWidth 64 else (BitVec.ofNat 32 v).signExtend 64
  | _ => BitVec.ofNat 64 v

/-- The low n bytes of a register, as stored (R283). -/
def storeVal (v : Word) (n : Nat) : Nat := v.toNat % 2 ^ (8 * n)

/-- The next register of a pair (R286). -/
def regUp (r : Reg) (k : Nat) : Reg := r + BitVec.ofNat 6 k

/-- The operation of an AMO over n bytes (R285). -/
def amoVal (op : AmoOp) (n old x : Nat) : Nat :=
  let m := 2 ^ (8 * n)
  let sg : Nat → Int := fun v => if v < m / 2 then (v : Int) else (v : Int) - m
  match op with
  | .swap => x
  | .add => (old + x) % m
  | .and => old &&& x
  | .or => old ||| x
  | .xor => old ^^^ x
  | .min => if sg x < sg old then x else old
  | .max => if sg old < sg x then x else old

end Sys2Proof.Machine
end

