-- ==== Sys2Proof/Machine/Control.lean ====
section
/-!
DEFINITION. Control flow (13_control_instructions.md R277 to R282).
-/
namespace Sys2Proof.Machine

/-- BR (R277). -/
def execBr (p : Pred) (o : BitVec 22) (s : State) : Out :=
  instr [] s fun tid t =>
    if t.p p then .next (setThread s tid (t.jump (target22 t o))) else done s tid t (.br p o)

/-- BR.N (R277): taken when the guard is false. -/
def execBrN (p : Pred) (o : BitVec 22) (s : State) : Out :=
  instr [] s fun tid t =>
    if t.p p then done s tid t (.brN p o) else .next (setThread s tid (t.jump (target22 t o)))

/-- JAL (R278). -/
def execJal (d : Reg) (o : BitVec 20) (s : State) : Out :=
  instr [d] s fun tid t => .next (setThread s tid ((t.setG d (t.pc + 4#64)).jump (target20 t o)))

/-- JALR (R278): ra is read before rd is written. -/
def execJalr (d a : Reg) (i : BitVec 14) (s : State) : Out :=
  instr [d, a] s fun tid t =>
    let x := t.g a + imm14 i
    if x &&& 3#64 ≠ 0#64 then .next (trap s tid t 0x07 t.pc x)
    else .next (setThread s tid ((t.setG d (t.pc + 4#64)).jump x))

/-- The thread after LOOP (R280). A loop of no iterations skips its body; neither case transfers control, and the
check of R281 then meets the new LEND, which is never the LOOP's own address. -/
def Thread.startLoop (t : Thread) (n endOff : Word) : Thread :=
  if n = 0#64 then { t with lcount := 0#64, pc := t.pc + (endOff <<< 2) + 4#64 }
  else { t with lstart := t.pc + 4#64, lend := t.pc + (endOff <<< 2), lcount := n, pc := t.pc + 4#64 }

/-- LOOP (R280). -/
def execLoop (a : Reg) (e : BitVec 14) (s : State) : Out :=
  instr [a] s fun tid t => .next (setThread s tid (t.startLoop (t.g a) (e.setWidth 64)))

/-- HALT (R282): the thread ends. -/
def execHalt (s : State) : Out := instr [] s fun tid _ => .next (endThread s tid)

/-- YIELD (R282): the slot is passed over at the CC's next issue where another thread is eligible. -/
def execYield (s : State) : Out :=
  instr [] s fun tid t =>
    done (setPlot s t.plot { plotOf s t.plot with yieldedSlot := some t.slot }) tid t .yield

end Sys2Proof.Machine
end

