-- ==== Sys2Proof/Machine/Int.lean ====
section
/-!
DEFINITION. Integer and address words (13_control_instructions.md R272 to R276): one definition per instruction over
the shared forms `rrr`, `rr` and `rri`.
-/
namespace Sys2Proof.Machine

/-! ## The functions of two values -/

def signedMulHigh (a b : Word) : Word := BitVec.ofInt 64 (a.toInt * b.toInt / 2 ^ 64)
def unsignedMulHigh (a b : Word) : Word := BitVec.ofNat 64 (a.toNat * b.toNat / 2 ^ 64)
def shl (a b : Word) : Word := a <<< (b.toNat % 64)
def shrl (a b : Word) : Word := a >>> (b.toNat % 64)
def shra (a b : Word) : Word := a.sshiftRight (b.toNat % 64)
def smin (a b : Word) : Word := if a.slt b then a else b
def smaxW (a b : Word) : Word := if a.slt b then b else a
def uminW (a b : Word) : Word := if a.ult b then a else b
def umaxW (a b : Word) : Word := if a.ult b then b else a

/-- The zero bits above the highest set bit, scanning down from bit `n − 1` (R272). -/
def leadZeros (a : Word) : Nat → Nat
  | 0 => 0
  | n + 1 => if a.getLsbD n then 0 else 1 + leadZeros a n

/-- The zero bits below the lowest set bit, scanning `n` bits up from bit `i`. -/
def trailZeros (a : Word) : Nat → Nat → Nat
  | _, 0 => 0
  | i, n + 1 => if a.getLsbD i then 0 else 1 + trailZeros a (i + 1) n

/-- The set bits below bit `n`. -/
def popCount (a : Word) : Nat → Nat
  | 0 => 0
  | n + 1 => (if a.getLsbD n then 1 else 0) + popCount a n

/-- DIV truncates towards zero; −2^63 ÷ −1 wraps (R273). -/
def sdivW (a b : Word) : Word := BitVec.ofInt 64 (a.toInt.tdiv b.toInt)
def sremW (a b : Word) : Word := BitVec.ofInt 64 (a.toInt - a.toInt.tdiv b.toInt * b.toInt)
def udivW (a b : Word) : Word := BitVec.ofNat 64 (a.toNat / b.toNat)
def uremW (a b : Word) : Word := BitVec.ofNat 64 (a.toNat - a.toNat / b.toNat * b.toNat)

/-- Bits [pos + len − 1 : pos] of a word, zero-extended (R275). -/
def field (a : Word) (pos len : Nat) : Word := BitVec.ofNat 64 (a.toNat / 2 ^ pos % 2 ^ len)

/-- The same, sign-extended. -/
def fieldS (a : Word) (pos len : Nat) : Word :=
  let v := a.toNat / 2 ^ pos % 2 ^ len
  if v < 2 ^ (len - 1) then BitVec.ofNat 64 v else BitVec.ofInt 64 ((v : Int) - 2 ^ len)

/-- `d` with its field replaced by the low bits of `a` (R275). -/
def insertField (d a : Word) (pos len : Nat) : Word :=
  BitVec.ofNat 64 (d.toNat - d.toNat / 2 ^ pos % 2 ^ len * 2 ^ pos + a.toNat % 2 ^ len * 2 ^ pos)

/-! ## Shared forms -/

/-- A form that writes rd from ra and rb and completes. -/
def rrr (i : Instr) (f : Word → Word → Word) (d a b : Reg) (s : State) : Out :=
  instr [d, a, b] s fun tid t => done s tid (t.setG d (f (t.g a) (t.g b))) i

/-- A form that writes rd from ra. -/
def rr (i : Instr) (f : Word → Word) (d a : Reg) (s : State) : Out :=
  instr [d, a] s fun tid t => done s tid (t.setG d (f (t.g a))) i

/-- A division form: DIVIDE_BY_ZERO when b is 0 (R273). -/
def divide (i : Instr) (f : Word → Word → Word) (d a b : Reg) (s : State) : Out :=
  instr [d, a, b] s fun tid t =>
    if t.g b = 0#64 then .next (trap s tid t 0x0A t.pc (wordOf i))
    else done s tid (t.setG d (f (t.g a) (t.g b))) i

/-! ## The instructions -/

def execNop (s : State) : Out := instr [] s fun tid t => done s tid t .nop
def execAdd (d a b : Reg) (s : State) : Out := rrr (.add d a b) (· + ·) d a b s
def execSub (d a b : Reg) (s : State) : Out := rrr (.sub d a b) (· - ·) d a b s
def execMul (d a b : Reg) (s : State) : Out := rrr (.mul d a b) (· * ·) d a b s
def execMulh (d a b : Reg) (s : State) : Out := rrr (.mulh d a b) signedMulHigh d a b s
def execMulhu (d a b : Reg) (s : State) : Out := rrr (.mulhu d a b) unsignedMulHigh d a b s
def execDiv (d a b : Reg) (s : State) : Out := divide (.div d a b) sdivW d a b s
def execDivu (d a b : Reg) (s : State) : Out := divide (.divu d a b) udivW d a b s
def execRem (d a b : Reg) (s : State) : Out := divide (.rem d a b) sremW d a b s
def execRemu (d a b : Reg) (s : State) : Out := divide (.remu d a b) uremW d a b s
def execAnd (d a b : Reg) (s : State) : Out := rrr (.and d a b) (· &&& ·) d a b s
def execOr (d a b : Reg) (s : State) : Out := rrr (.or d a b) (· ||| ·) d a b s
def execXor (d a b : Reg) (s : State) : Out := rrr (.xor d a b) (· ^^^ ·) d a b s
def execSll (d a b : Reg) (s : State) : Out := rrr (.sll d a b) shl d a b s
def execSrl (d a b : Reg) (s : State) : Out := rrr (.srl d a b) shrl d a b s
def execSra (d a b : Reg) (s : State) : Out := rrr (.sra d a b) shra d a b s
def execMin (d a b : Reg) (s : State) : Out := rrr (.min d a b) smin d a b s
def execMax (d a b : Reg) (s : State) : Out := rrr (.max d a b) smaxW d a b s
def execMinu (d a b : Reg) (s : State) : Out := rrr (.minu d a b) uminW d a b s
def execMaxu (d a b : Reg) (s : State) : Out := rrr (.maxu d a b) umaxW d a b s
def execClz (d a : Reg) (s : State) : Out := rr (.clz d a) (fun x => BitVec.ofNat 64 (leadZeros x 64)) d a s
def execCtz (d a : Reg) (s : State) : Out := rr (.ctz d a) (fun x => BitVec.ofNat 64 (trailZeros x 0 64)) d a s
def execPopc (d a : Reg) (s : State) : Out := rr (.popc d a) (fun x => BitVec.ofNat 64 (popCount x 64)) d a s
def execAddsc (k : BitVec 2) (d a b : Reg) (s : State) : Out :=
  rrr (.addsc k d a b) (fun x y => x + y <<< k.toNat) d a b s

def execSel (n : Pred) (d a b : Reg) (s : State) : Out :=
  instr [d, a, b] s fun tid t => done s tid (t.setG d (if t.p n then t.g a else t.g b)) (.sel n d a b)

def execAddImm (d a : Reg) (i : BitVec 14) (s : State) : Out := rr (.addImm d a i) (· + imm14 i) d a s
def execAndImm (d a : Reg) (i : BitVec 14) (s : State) : Out := rr (.andImm d a i) (· &&& imm14 i) d a s
def execOrImm (d a : Reg) (i : BitVec 14) (s : State) : Out := rr (.orImm d a i) (· ||| imm14 i) d a s
def execXorImm (d a : Reg) (i : BitVec 14) (s : State) : Out := rr (.xorImm d a i) (· ^^^ imm14 i) d a s
def execSllImm (d a : Reg) (m : BitVec 6) (s : State) : Out := rr (.sllImm d a m) (· <<< m.toNat) d a s
def execSrlImm (d a : Reg) (m : BitVec 6) (s : State) : Out := rr (.srlImm d a m) (· >>> m.toNat) d a s
def execSraImm (d a : Reg) (m : BitVec 6) (s : State) : Out := rr (.sraImm d a m) (·.sshiftRight m.toNat) d a s
def execAddLong (d a : Reg) (i : BitVec 46) (s : State) : Out := rr (.addLong d a i) (· + imm46 i) d a s
def execAndLong (d a : Reg) (i : BitVec 46) (s : State) : Out := rr (.andLong d a i) (· &&& imm46 i) d a s
def execOrLong (d a : Reg) (i : BitVec 46) (s : State) : Out := rr (.orLong d a i) (· ||| imm46 i) d a s
def execXorLong (d a : Reg) (i : BitVec 46) (s : State) : Out := rr (.xorLong d a i) (· ^^^ imm46 i) d a s

def execBfx (d a : Reg) (p l : BitVec 6) (s : State) : Out :=
  rr (.bfx d a p l) (fun x => field x p.toNat (l.toNat + 1)) d a s
def execBfxS (d a : Reg) (p l : BitVec 6) (s : State) : Out :=
  rr (.bfxS d a p l) (fun x => fieldS x p.toNat (l.toNat + 1)) d a s

/-- BFI reads rd as well as writing it (R275). -/
def execBfi (d a : Reg) (p l : BitVec 6) (s : State) : Out :=
  instr [d, a] s fun tid t =>
    done s tid (t.setG d (insertField (t.g d) (t.g a) p.toNat (l.toNat + 1))) (.bfi d a p l)

def execCmpCc (p : Pred) (c : CmpCond) (a b : Reg) (s : State) : Out :=
  instr [a, b] s fun tid t => done s tid (t.setP p (cond c (t.g a) (t.g b))) (.cmpCc p c a b)

def execCmpCcImm (p : Pred) (c : CmpCond) (a : Reg) (i : BitVec 14) (s : State) : Out :=
  instr [a] s fun tid t => done s tid (t.setP p (cond c (t.g a) (imm14 i))) (.cmpCcImm p c a i)

end Sys2Proof.Machine
end

