-- ==== Sys2Proof/Machine/Hrec.lean ====
section
/-!
DEFINITION. Handler records and stage words (12_formats_and_opcode_map.md R263 to R268): their fields, the operations a
stage may hold, and which nodes are stream ports, memory nodes, stateful or commutative consumers (14 R301, 15 R356,
07 R171).
-/
namespace Sys2Proof.Machine

/-! ## Plots (R57) -/

/-- A plot number that names no plot of the module: a plot of another module's part (R201; log 43). -/
def awayPlot : Nat := 4096

def plotDie (p : Nat) : Nat := p / 32
def plotX (p : Nat) : Nat := p % 4
def plotY (p : Nat) : Nat := p / 4 % 8

/-- The power field of a plot (R75). -/
def fieldOf (p : Nat) : Nat := plotDie p * 8 + plotY p / 2 * 2 + plotX p / 2

/-- The I/O die that serves a plot's die: IOA (0) for C0 and C2, IOB (1) for C1 and C3 (R164). -/
def ioOf (plot : Nat) : Nat := plot / 32 % 2

/-! ## The header (R268) -/

def hEn (h : Nat) : Bool := h % 2 == 1
def hPmask (h : Nat) : Nat := fld h 8 1
def hPrio (h : Nat) : Nat := fld h 12 9
def hPmatch (h : Nat) : Nat := fld h 16 13
def hKstep (h : Nat) : Bool := fld h 17 17 == 1
def hVa (h : Nat) : Bool := fld h 18 18 == 1
def hOuta (h : Nat) : Nat := fld h 28 19
def hVb (h : Nat) : Bool := fld h 29 29 == 1
def hOutb (h : Nat) : Nat := fld h 39 30

/-- Stage word Sj, j from 1 to 6. -/
def hStage (h j : Nat) : Nat := fld h (32 * j + 63) (32 * j + 32)

/-- The ports in PMASK, ascending. -/
def hPorts (h : Nat) : List Nat := (List.range 8).filter (fun i => hPmask h / 2 ^ i % 2 == 1)

/-- The lowest-numbered required port. -/
def hLow (h : Nat) : Nat := (hPorts h).headD 0

/-! ## Stage words (R263) -/

def sOp (w : Nat) : Nat := fld w 31 25
def sA (w : Nat) : Nat := fld w 24 21
def sB (w : Nat) : Nat := fld w 20 17
def sC (w : Nat) : Nat := fld w 16 13
def sMod (w : Nat) : Nat := fld w 12 10
def sDest (w : Nat) : Nat := fld w 9 8
def sPm (w : Nat) : Nat := fld w 7 5
def sImm (w : Nat) : Nat := fld w 4 0

/-- OP of S6. -/
def op6 (h : Nat) : Nat := sOp (hStage h 6)

def opLoads : Nat := 0x10
def opStores : Nat := 0x11
def opChase : Nat := 0x12
def opAtomn : Nat := 0x13

/-- A node whose S1 is MATRIX (R63, R264). -/
def isMatrix (h : Nat) : Bool := sOp (hStage h 1) == 0x7F

/-- S6 of a node that is no MATRIX node. -/
def has6 (h op : Nat) : Bool := !isMatrix h && op6 h == op

def isLoads (h : Nat) : Bool := has6 h opLoads
def isChase (h : Nat) : Bool := has6 h opChase
def isStores (h : Nat) : Bool := has6 h opStores
def isSource (h : Nat) : Bool := isLoads h || isChase h
def isAtomn (h : Nat) : Bool := has6 h opAtomn

/-- A stream port (R301). -/
def isPort (h : Nat) : Bool := isSource h || isStores h

/-- A memory node (R106, R378). -/
def isMemNode (h : Nat) : Bool := isPort h || isAtomn h

/-- S6 of a node is FORK, JOIN, REL or ACQ (R373 to R375). -/
def isFork (h : Nat) : Bool := has6 h 0x18
def isJoin (h : Nat) : Bool := has6 h 0x19 || has6 h 0x1A || has6 h 0x1B

/-- A handler that names an accumulator in S6 by ACC.F, ACC.I or ACCREL. -/
def accOf (h : Nat) : Option Nat :=
  if !isMatrix h && (op6 h == 3 || op6 h == 4 || op6 h == 5) then some (sDest (hStage h 6)) else none

/-- A selector that names an accumulator (R44). -/
def selAcc (x : Nat) : Bool := decide (8 ≤ x) && decide (x ≤ 11)

/-- A stateful node (R171): an ACC or ACCREL stage, a memory stage (CTURN is one, R357), a stage that writes an SRF
entry's holders (SRETAG), or an accumulator read through a selector. A source fires on tokens of its own AG alone. -/
def isStateful (h : Nat) : Bool :=
  !isMatrix h &&
  ((accOf h).isSome || isStores h || isAtomn h || op6 h == 0x1C || sOp (hStage h 1) == 7 ||
   (List.range 6).any (fun j => let w := hStage h (j + 1); selAcc (sA w) || selAcc (sB w) || selAcc (sC w)))

/-- The idle word of stage j (R267): PASS of the lowest port in S1, of v(j−1) after it. -/
def idleWord (h j : Nat) : Nat := if j = 1 then hLow h * 2 ^ 21 else (j - 1) * 2 ^ 21

def idleTo5 (h : Nat) : Bool := (List.range 5).all (fun j => hStage h (j + 1) == idleWord h (j + 1))

/-! ## Nodes and channels of a variant -/

def Variant.node (v : Variant) (n : Nat) : Node :=
  v.nodes.getD n { hrec := 0, ports := [], outA := 0xFFFF, outB := 0xFFFF, part := 0, pack := 0, srfn := 0, klim := [] }

def Variant.chan (v : Variant) (c : Nat) : Chan :=
  v.chans.getD c { src := 0, dst := 0, cls := 0, lanes := 16, back := false, depth := 4, rminN := 0, rminD := 1,
                   rmaxN := 0, rmaxD := 1 }

/-- No channel (R63). -/
def noChan : Nat := 0xFFFF

/-- The port of its consumer that a channel is bound to. -/
def Variant.dstPort (v : Variant) (c : Nat) : Nat := (v.node (v.chan c).dst).ports.idxOf c

/-- The channel of a MATRIX node's column j, from its words S2 to S5 (R358). -/
def matrixCol (h j : Nat) : Nat := fld (hStage h (j / 2 + 2)) (16 * (j % 2) + 15) (16 * (j % 2))

/-- The output channels of a node, by KGI index. -/
def Node.outs (n : Node) : List Nat :=
  if isMatrix n.hrec then (List.range 8).map (matrixCol n.hrec) |>.filter (· != noChan)
  else [n.outA, n.outB].filter (· != noChan)

/-- The gate ports of a memory node: bound ports outside PMASK (R351, R377). -/
def Node.gates (n : Node) : List Nat :=
  if isMemNode n.hrec then
    (List.range 8).filter (fun i => hPmask n.hrec / 2 ^ i % 2 == 0 && n.ports.getD i noChan != noChan)
  else []

/-- The alias class of a node, if it is in one (R106). -/
def Variant.aliasOf (v : Variant) (n : Nat) : Option Nat := v.alias_.findIdx? (fun a => a.2.elem n)

/-- A commutative consumer (R356, R378). A node's record in the KGI has VA 0: its output A is the node's own field. -/
def Node.commutative (n : Node) : Bool :=
  let h := n.hrec
  !isMatrix h && (hPorts h).length == 1 && idleTo5 h &&
  ((op6 h == 4 && sMod (hStage h 6) % 2 == 0) || (isAtomn h && decide (1 ≤ sMod (hStage h 6)) && n.outA == noChan))

end Sys2Proof.Machine
end

