-- ==== Sys2Proof/Machine/Num.lean ====
section
/-!
DEFINITION. Numbers (05_numbers_and_scales.md R112 to R124): exact values, one rounding for every format and mode,
the storage formats, W40 and I40. Every arithmetic result is formed exactly and rounded once; flags fall out of the
comparison of the exact and the rounded value (R117, R121).
-/
namespace Sys2Proof.Machine

/-- An exact value of a floating format: NaN, an infinity, or (−1)^neg × m × 2^e; a zero keeps its sign. -/
inductive FNum
  | nan
  | inf (neg : Bool)
  | fin (neg : Bool) (m : Nat) (e : Int)
  deriving DecidableEq, Repr

/-- A floating format (R112, R119): fraction bits, exponent bits, bias, whether it has infinities, the significand and
exponent of its largest finite value, the NaN its stores write, whether it has a NaN, and whether its top exponent
code is for infinity and NaN alone. -/
structure Fmt where
  fb   : Nat
  eb   : Nat
  bias : Int
  inf  : Bool
  maxM : Nat
  maxE : Int
  nan  : Option Nat
  top  : Bool
  deriving DecidableEq, Repr

def fmtW40 : Fmt := { fb := 30, eb := 9, bias := 255, inf := true, maxM := 2 ^ 31 - 1, maxE := 225, nan := some 0x7FE0000000, top := true }
def fmtFP32 : Fmt := { fb := 23, eb := 8, bias := 127, inf := true, maxM := 2 ^ 24 - 1, maxE := 104, nan := some 0x7FC00000, top := true }
def fmtBF16 : Fmt := { fb := 7, eb := 8, bias := 127, inf := true, maxM := 2 ^ 8 - 1, maxE := 120, nan := some 0x7FC0, top := true }
def fmtFP16 : Fmt := { fb := 10, eb := 5, bias := 15, inf := true, maxM := 2 ^ 11 - 1, maxE := 5, nan := some 0x7E00, top := true }
def fmtE4M3 : Fmt := { fb := 3, eb := 4, bias := 7, inf := false, maxM := 14, maxE := 5, nan := some 0x7F, top := false }
def fmtE5M2 : Fmt := { fb := 2, eb := 5, bias := 15, inf := true, maxM := 7, maxE := 13, nan := some 0x7E, top := true }
def fmtE2M1 : Fmt := { fb := 1, eb := 2, bias := 1, inf := false, maxM := 3, maxE := 1, nan := none, top := false }

/-- The exponent of a subnormal's unit (R113, R119). -/
def Fmt.minE (f : Fmt) : Int := 1 - f.bias - f.fb

/-- The value of an encoding (R113, R119). -/
def Fmt.decode (f : Fmt) (v : Nat) : FNum :=
  let frac := v % 2 ^ f.fb
  let ex := v / 2 ^ f.fb % 2 ^ f.eb
  let neg := v / 2 ^ (f.fb + f.eb) % 2 == 1
  if ex = 2 ^ f.eb - 1 ∧ f.top = true then (if frac = 0 then .inf neg else .nan)
  else if f.top = false ∧ f.nan.isSome ∧ ex = 2 ^ f.eb - 1 ∧ frac = 2 ^ f.fb - 1 then .nan
  else if ex = 0 then .fin neg frac f.minE
  else .fin neg (2 ^ f.fb + frac) (f.minE + ((ex : Int) - 1))

/-- The encoding of a value that the format holds exactly, its unit not below the subnormal's. NaN takes the format's NaN, or +0 where it has none. -/
def Fmt.encode (f : Fmt) : FNum → Nat
  | .nan => f.nan.getD 0
  | .inf neg => (if neg then 2 ^ (f.fb + f.eb) else 0) + (2 ^ f.eb - 1) * 2 ^ f.fb
  | .fin neg m e =>
    let s := if neg then 2 ^ (f.fb + f.eb) else 0
    if m = 0 then s
    else
      -- significand brought to fb + 1 bits: down over zero bits, up where the exponent allows
      let down := Nat.log2 m - f.fb
      let m := m / 2 ^ down
      let e := e + down
      let up := (e - f.minE).toNat
      let sh := Nat.min up (f.fb - Nat.log2 m)
      let m := m * 2 ^ sh
      let e := e - sh
      if m < 2 ^ f.fb then s + m
      else s + ((e - f.minE).toNat + 1) * 2 ^ f.fb + (m - 2 ^ f.fb)

/-- Rounding modes (R116); stochastic carries its random word (R122). -/
inductive Mode
  | rne | rz | ru | rd
  | sr (r : Nat)
  deriving DecidableEq, Repr

def modeOf : Nat → Mode
  | 0 => .rne | 1 => .rz | 2 => .ru | _ => .rd

/-- Whether the magnitude q + r/d, with 0 ≤ r < d, rounds up to q + 1 in a mode. -/
def roundsUp (mode : Mode) (neg : Bool) (q r d : Nat) : Bool :=
  match mode with
  | .rne => decide (d < 2 * r) || (2 * r == d && q % 2 == 1)
  | .rz => false
  | .ru => !neg && r != 0
  | .rd => neg && r != 0
  | .sr w => decide (2 ^ 32 ≤ r * 2 ^ 32 / d + w) && r != 0

/-- floor(log2(m/d)) for positive m and d. -/
def log2Ratio (m d : Nat) : Int :=
  let a := Nat.log2 m; let b := Nat.log2 d
  let ge := if b ≤ a then decide (d * 2 ^ (a - b) ≤ m) else decide (d ≤ m * 2 ^ (b - a))
  (a : Int) - b - (if ge then 0 else 1)

/-- (m/d) × 2^e over the unit 2^u: integer part and remainder over its denominator. -/
def overUnit (m d : Nat) (e u : Int) : Nat × Nat × Nat :=
  let n := m * 2 ^ (e - u).toNat
  let dd := d * 2 ^ (u - e).toNat
  (n / dd, n % dd, dd)

/-- The integral value that a finite value rounds to, and whether it changed. -/
def roundInt (mode : Mode) (neg : Bool) (m : Nat) (e : Int) : Int × Bool :=
  let (q, r, d) := overUnit m 1 e 0
  let q := if roundsUp mode neg q r d then q + 1 else q
  ((if neg then -(q : Int) else q), r != 0)

/-- One rounding of (−1)^neg × (m/d) × 2^e, m and d positive, to a format (R116, R121): the value and the flags. The
test for overflow rounds as if the exponent range had no upper limit. -/
def Fmt.round (f : Fmt) (mode : Mode) (neg : Bool) (m d : Nat) (e : Int) : FNum × Nat :=
  let lg := log2Ratio m d + e
  let tiny := lg < 1 - f.bias
  let u := max (lg - f.fb) f.minE
  let (q, r, dd) := overUnit m d e u
  let q' := if roundsUp mode neg q r dd then q + 1 else q
  let inexact := r != 0
  -- beyond the largest finite value: q' × 2^u > maxM × 2^maxE
  let tooBig := decide (f.maxM * 2 ^ (f.maxE - u).toNat < q' * 2 ^ (u - f.maxE).toNat)
  if tooBig then
    let big := FNum.fin neg f.maxM f.maxE
    let v := if f.inf = false then big else
      match mode with
      | .rne | .sr _ => .inf neg
      | .rz => big
      | .ru => if neg then big else .inf false
      | .rd => if neg then .inf true else big
    (v, flagOF + flagNX)
  else (.fin neg q' u, if inexact then flagNX + (if tiny then flagUF else 0) else 0)

/-- A rounding of an exact value to a format, with the special cases of a store (R121). -/
def Fmt.store (f : Fmt) (mode : Mode) : FNum → FNum × Nat
  | .nan => if f.nan.isSome then (.nan, 0) else (.fin false 0 0, flagNV)
  | .inf neg => if f.inf then (.inf neg, 0) else (.fin neg f.maxM f.maxE, flagNV)
  | .fin neg m e => if m = 0 then (.fin neg 0 0, 0) else f.round mode neg m 1 e

/-! ## Exact arithmetic -/

/-- The sum of two finite values; an exact zero of opposite signs is +0, or −0 in RD (R116). -/
def addFin (mode : Mode) (n1 : Bool) (m1 : Nat) (e1 : Int) (n2 : Bool) (m2 : Nat) (e2 : Int) : FNum :=
  let e := min e1 e2
  let a := m1 * 2 ^ (e1 - e).toNat; let b := m2 * 2 ^ (e2 - e).toNat
  if n1 = n2 then .fin n1 (a + b) e
  else if a = b then .fin (mode == .rd) 0 0
  else if b < a then .fin n1 (a - b) e
  else .fin n2 (b - a) e

/-- An exact sum; ∞ − ∞ is NaN with NV (R336). -/
def fadd (mode : Mode) : FNum → FNum → FNum × Nat
  | .nan, _ => (.nan, 0)
  | _, .nan => (.nan, 0)
  | .inf a, .inf b => if a = b then (.inf a, 0) else (.nan, flagNV)
  | .inf a, _ => (.inf a, 0)
  | _, .inf b => (.inf b, 0)
  | .fin n1 m1 e1, .fin n2 m2 e2 => (addFin mode n1 m1 e1 n2 m2 e2, 0)

/-- An exact product; 0 × ∞ is NaN with NV. -/
def fmul : FNum → FNum → FNum × Nat
  | .nan, _ => (.nan, 0)
  | _, .nan => (.nan, 0)
  | .inf a, .inf b => (.inf (a != b), 0)
  | .inf a, .fin b m _ => if m = 0 then (.nan, flagNV) else (.inf (a != b), 0)
  | .fin a m _, .inf b => if m = 0 then (.nan, flagNV) else (.inf (a != b), 0)
  | .fin n1 m1 e1, .fin n2 m2 e2 => (.fin (n1 != n2) (m1 * m2) (e1 + e2), 0)

def FNum.neg : FNum → FNum
  | .nan => .nan
  | .inf a => .inf (!a)
  | .fin a m e => .fin (!a) m e

/-- Whether x < y, neither a NaN; zeros are equal. -/
def FNum.lt : FNum → FNum → Bool
  | .nan, _ => false
  | _, .nan => false
  | .inf a, .inf b => a && !b
  | .inf a, _ => a
  | _, .inf b => !b
  | .fin n1 m1 e1, .fin n2 m2 e2 =>
    let e := min e1 e2
    let a : Int := (if n1 then -1 else 1) * (m1 * 2 ^ (e1 - e).toNat : Nat)
    let b : Int := (if n2 then -1 else 1) * (m2 * 2 ^ (e2 - e).toNat : Nat)
    decide (a < b)

/-- A result rounded to a format, with the flags of its formation (R336). -/
def Fmt.result (f : Fmt) (mode : Mode) (x : FNum × Nat) : Nat × Nat :=
  match x.1 with
  | .nan => (f.encode .nan, x.2)
  | .inf n => (f.encode (.inf n), x.2)
  | .fin n m e =>
    if m = 0 then (f.encode (.fin n 0 0), x.2)
    else let (v, g) := f.round mode n m 1 e; (f.encode v, g ||| x.2)

/-! ## W40 and I40 elements -/

def canonNaN : Elem := 0x7FE0000000#40

def w40 (v : Elem) : FNum := fmtW40.decode v.toNat

def toW40 (v : FNum) : Elem := BitVec.ofNat 40 (fmtW40.encode v)

/-- A W40 result (R114, R336): the canonical NaN for every NaN. -/
def w40Result (mode : Mode) (x : FNum × Nat) : Elem × Nat :=
  let (v, g) := fmtW40.result mode x
  (BitVec.ofNat 40 v, g)

/-- An I40 result: wrapped, or clamped with SAT (R115). -/
def i40Result (sat : Bool) (x : Int) : Elem × Nat :=
  if sat = false then (BitVec.ofInt 40 x, 0)
  else if x < -(2 ^ 39) then (BitVec.ofInt 40 (-(2 ^ 39)), flagSAT)
  else if 2 ^ 39 - 1 < x then (BitVec.ofInt 40 (2 ^ 39 - 1), flagSAT)
  else (BitVec.ofInt 40 x, 0)

/-- An exact integer as a value. -/
def intNum (x : Int) : FNum := .fin (decide (x < 0)) x.natAbs 0

/-! ## Storage formats of streams (R98, R119 to R121) -/

/-- Half-bytes an element of a format takes (R98). -/
def fmtNibbles : Nat → Nat
  | 0 => 8 | 1 => 4 | 2 => 4 | 3 => 2 | 4 => 2 | 5 => 1 | 6 => 8 | 7 => 4 | 8 => 2 | 9 => 1 | 10 => 2 | 11 => 16
  | _ => 0

/-- Bytes of one access to an element: a 4-bit element lies in one byte (R98, R108). -/
def fmtBytes (f : Nat) : Nat := (fmtNibbles f + 1) / 2

/-- The floating format of a code. -/
def floatFmt : Nat → Option Fmt
  | 0 => some fmtFP32 | 1 => some fmtBF16 | 2 => some fmtFP16 | 3 => some fmtE4M3 | 4 => some fmtE5M2
  | 5 => some fmtE2M1 | _ => none

/-- Width and signedness of an integer format's code. -/
def intFmt : Nat → Option (Nat × Bool)
  | 6 => some (32, true) | 7 => some (16, true) | 8 => some (8, true) | 9 => some (4, true) | 10 => some (8, false)
  | _ => none

/-- A signed reading of the low `w` bits. -/
def signedOf (w v : Nat) : Int := if v % 2 ^ w < 2 ^ (w - 1) then (v % 2 ^ w : Nat) else ((v % 2 ^ w : Nat) : Int) - 2 ^ w

/-- A load conversion, exact (R120). -/
def loadConv (f v : Nat) : Elem :=
  match floatFmt f with
  | some g =>
    match g.decode v with
    | .nan => canonNaN
    | x => toW40 x
  | none =>
    match intFmt f with
    | some (w, true) => BitVec.ofInt 40 (signedOf w v)
    | some (w, false) => BitVec.ofNat 40 (v % 2 ^ w)
    | none => BitVec.ofNat 40 v

/-- A store conversion: the bits of the element and the flags (R121). -/
def storeConv (f : Nat) (mode : Mode) (v : Elem) : Nat × Nat :=
  match floatFmt f with
  | some g => let (x, fl) := g.store mode (w40 v); (g.encode x, fl)
  | none =>
    match intFmt f with
    | some (w, sgn) =>
      let lo : Int := if sgn then -(2 ^ (w - 1)) else 0
      let hi : Int := if sgn then 2 ^ (w - 1) - 1 else 2 ^ w - 1
      let x := v.toInt
      let y := if x < lo then lo else if hi < x then hi else x
      ((BitVec.ofInt w y).toNat, if x = y then 0 else flagSAT)
    | none => (v.toNat, 0)

/-- The random word of stochastic rounding (R122). -/
def srWord (seed seq lane : Nat) : Nat :=
  let m := 2 ^ 64
  let z := ((seed % 2 ^ 32 * 2 ^ 32 + seq % 2 ^ 32) % m) ^^^ (lane * 0x9E3779B97F4A7C15 % m)
  let z := z ^^^ (z / 2 ^ 33)
  let z := z * 0xFF51AFD7ED558CCD % m
  let z := z ^^^ (z / 2 ^ 33)
  let z := z * 0xC4CEB9FE1A85EC53 % m
  let z := z ^^^ (z / 2 ^ 33)
  z / 2 ^ 32

/-! ## FP32 scales (R366 to R368) -/

def fp32 (v : BitVec 32) : FNum := fmtFP32.decode v.toNat

/-- An integer square root by Newton's steps from a start not below it. -/
def isqrtFrom (n : Nat) : Nat → Nat → Nat
  | 0, x => x
  | k + 1, x => let y := (x + n / x) / 2; if y < x then isqrtFrom n k y else x

def isqrt (n : Nat) : Nat := if n = 0 then 0 else isqrtFrom n (2 * Nat.log2 n + 8) (2 ^ (Nat.log2 n / 2 + 1))

/-- Fixed-point bits of the evaluation of 2^f. -/
def expBits : Nat := 192

/-- 2^(k / 2^j), for k below 2^j, in fixed point: square roots of 2 multiplied by the bits of k from the top. -/
def exp2Frac (k : Nat) : Nat → Nat → Nat → Nat
  | 0, _, acc => acc
  | j + 1, root, acc =>
    let root := isqrt (root * 2 ^ expBits)
    exp2Frac k j root (if k / 2 ^ j % 2 = 1 then acc * root / 2 ^ expBits else acc)

/-- SEXP2 (R367): 2^a correctly rounded to FP32, with its flags. An operand below 2^−26 in magnitude gives 1.0,
inexact; one that is not an integer gives an irrational power, whose 192-bit evaluation decides the rounding. -/
def sexp2 (a : FNum) : FNum × Nat :=
  match a with
  | .nan => (.nan, 0)
  | .inf false => (.inf false, 0)
  | .inf true => (.fin false 0 0, 0)
  | .fin neg m e =>
    if m = 0 then (.fin false 1 0, 0)
    else if 0 ≤ e then
      let n : Int := (if neg then -1 else 1) * (m * 2 ^ (Nat.min e.toNat 16) : Nat)
      if 128 ≤ n then (.inf false, flagOF + flagNX)
      else if n < -150 then (.fin false 0 0, flagUF + flagNX)
      else fmtFP32.round .rne false 1 1 n
    else
      let j := (-e).toNat
      if m * 2 ^ 26 < 2 ^ j then (.fin false 1 0, flagNX)
      else
        let whole := m / 2 ^ j; let k := m % 2 ^ j
        -- a = n + k' / 2^j with 0 ≤ k' < 2^j
        let n : Int := if neg then (if k = 0 then -(whole : Int) else -(whole : Int) - 1) else whole
        let k' := if neg ∧ k ≠ 0 then 2 ^ j - k else k
        if 128 ≤ n then (.inf false, flagOF + flagNX)
        else if n < -151 then (.fin false 0 0, flagUF + flagNX)
        else if k' = 0 then fmtFP32.round .rne false 1 1 n
        else
          let v := exp2Frac k' j (2 ^ (expBits + 1)) (2 ^ expBits)
          -- an odd last bit below the unit keeps the value off every rounding boundary
          fmtFP32.round .rne false (2 * v + 1) 1 (n - expBits - 1)

/-- SCVT to the E8M0 grid (R368). -/
def scvtE8m0 (mode : Mode) (a : FNum) : FNum × Nat :=
  match a with
  | .nan => (.nan, 0)
  | .inf false => (.fin false 1 127, flagOF)
  | .inf true => (.nan, flagNV)
  | .fin neg m e =>
    if neg ∨ m = 0 then (.nan, flagNV)
    else
      let k := (Nat.log2 m : Int) + e
      let isPow := m == 2 ^ Nat.log2 m
      let up := match mode with
        | .ru => !isPow
        | .rne =>
          -- above 1.5 × 2^k, or at it with k + 127 odd
          decide (3 * 2 ^ Nat.log2 m < 2 * m) || (2 * m == 3 * 2 ^ Nat.log2 m && decide ((k + 127) % 2 ≠ 0))
        | _ => false
      let r := if up then k + 1 else k
      if 127 < r then (.fin false 1 127, flagOF + flagNX)
      else if r < -127 then (.fin false 1 (-127), flagUF + flagNX)
      else (.fin false 1 r, if isPow && !up then 0 else flagNX)

end Sys2Proof.Machine
end

