-- ==== Sys2Proof/Machine/Tok.lean ====
section
/-!
DEFINITION. Tokens in the fabric (02 R36 to R40, R48; 03 R72, R73; 04 R105; 05 R133 to R139): headers, holders of scale
entries, reads through a tag, the images of a launch and their channels, port queues, credits and emission.
-/
namespace Sys2Proof.Machine

/-! ## Tokens (R36, R37) -/

def kindCode : TKind → Nat
  | .data => 0 | .null => 1 | .eos => 2 | .eor => 3 | .mark => 4 | .swap => 5 | .reserved k => k

def kindOf : Nat → TKind
  | 0 => .data | 1 => .null | 2 => .eos | 3 => .eor | 4 => .mark | 5 => .swap | k => .reserved k

/-- The 64-bit header (R36). -/
def tokHeader (t : Token) : Nat :=
  t.seq % 2 ^ 32 + t.rsv % 16 * 2 ^ 32 + (if t.err then 1 else 0) * 2 ^ 36 + t.colour % 4 * 2 ^ 37
    + t.stag % 2 ^ 12 * 2 ^ 39 + t.chan % 2 ^ 10 * 2 ^ 51 + kindCode t.kind % 8 * 2 ^ 61

def zeroElems : List Elem := List.replicate 16 0#40

/-- A token without elements. -/
def ctlToken (k : TKind) (colour seq : Nat) (err : Bool) : Token :=
  { kind := k, stag := 0, colour := colour, err := err, rsv := 0, seq := seq % 2 ^ 32, chan := 0, valid := 0#16,
    elems := zeroElems }

/-- Element `l` of a token. -/
def tokEl (t : Token) (l : Nat) : Elem := t.elems.getD l 0#40

/-! ## Holders of scale entries (R135) -/

/-- One holder more, or one less, of the entry that a tag names at its current generation. -/
def Plot.hold (x : Plot) (tag : Nat) : Plot := if tag = 0 then x else addRef x (tag / 16)

def Plot.unhold (x : Plot) (tag : Nat) : Plot :=
  if tag = 0 ∨ (srfGet x (tag / 16)).gen ≠ tag % 16 then x else dropRef x (tag / 16)

def addHolder (s : State) (p tag : Nat) : State := if tag = 0 then s else setPlot s p ((plotOf s p).hold tag)
def dropHolder (s : State) (p tag : Nat) : State := if tag = 0 then s else setPlot s p ((plotOf s p).unhold tag)

/-- Most holders an entry can have (R135). -/
def refMax : Nat := 2 ^ 20 - 1

/-- Whether an entry of a plot has more holders than its count can say: what would lead here waits instead (R135). -/
def refOver (s : State) (p : Nat) : Bool := (plotOf s p).srf.any (fun e => decide (refMax < e.2.ref))

def refFull (x : Plot) (tag : Nat) : Bool := tag != 0 && decide (refMax ≤ (srfGet x (tag / 16)).ref)

/-- A read of an entry through a tag: its value, or STALE_BINDING, or SCALE_MISCOMPARE (R138, R139). -/
def readTag (x : Plot) (tag : Nat) : Except Nat (BitVec 32) :=
  if tag = 0 then .ok 0x3F800000#32
  else
    let e := srfGet x (tag / 16)
    if tag % 16 = 0 ∨ e.gen ≠ tag % 16 then .error 0x60
    else if e.value ≠ e.dup then .error 0x61
    else .ok e.value

/-- GEN + 1, with 15 followed by 1 (R136). -/
def genUp (g : Nat) : Nat := if g = 15 then 1 else g + 1

/-- The lowest-indexed free entry of a range (R136). -/
def freeEntry (x : Plot) (lo n : Nat) : Option Nat :=
  (List.range n).findSome? (fun i => if (srfGet x (lo + i)).ref = 0 then some (lo + i) else none)

/-- A binding in a range: the plot and the tag, or none where no entry is free (R136). -/
def bindIn (x : Plot) (lo n : Nat) (v : BitVec 32) : Option (Plot × Nat) :=
  (freeEntry x lo n).map fun e =>
    let g := genUp (srfGet x e).gen
    (srfPut x e { value := v, dup := v, ref := 1, gen := g }, e * 16 + g)

/-- A binding in the plot's common range (R134). -/
def bindCommon (x : Plot) (v : BitVec 32) : Option (Plot × Nat) := bindIn x x.common (256 - x.common) v

/-! ## Images and channels of a launch -/

/-- The variant and placement of a launch's image number. -/
def Launch.img (l : Launch) (g : Nat) : Variant × Placed :=
  if g = l.imgNo then (l.variant, l.place) else l.shadow.getD (l.variant, l.place)

def maxChans : Nat := 16384

def chanKey (g c : Nat) : Nat := g * maxChans + c
/-- The key of a source's own way from its AG to port 0, beside the channels (R173). -/
def selfKey (g n : Nat) : Nat := 2 ^ 40 + g * 65536 + n
def isSelf (k : Nat) : Bool := decide (2 ^ 40 ≤ k)

def keyImg (k : Nat) : Nat := k / maxChans
def keyChan (k : Nat) : Nat := k % maxChans

def ChanSt.empty : ChanSt := { legs := [], fifo := [], spill := [], segs := [], head := 0, replay := [], sent := 0, ckpt := [], recv := [] }

/-- Tokens of a channel that stand at the stops of its route, or in checkpoint areas. -/
def ChanSt.moving (c : ChanSt) : Nat := (c.legs.map (·.length)).foldl (· + ·) 0 + c.ckpt.length

def Launch.chanSt (l : Launch) (k : Nat) : ChanSt := lookupD l.chans k ChanSt.empty
def Launch.setChan (l : Launch) (k : Nat) (c : ChanSt) : Launch := { l with chans := insert l.chans k c }

/-- The plots a channel's route passes, source first. -/
def Placed.legsOf (p : Placed) (c : Nat) : List Nat := p.legs.getD c []

/-- The number a channel has in a plot it meets (R72). -/
def numIn (p : Placed) (c plot : Nat) : Nat := (p.nums.getD c []).getD ((p.legsOf c).idxOf plot) 0

/-- What a stop of a route is: a plot; the elastic buffer on a hop from one power field of a die to another (R75); or the buffer
at the near or the far end of the crossing link of the route's k-th hop over a die edge (R200). -/
inductive StopKind
  | plot
  | field
  | near (k : Nat)
  | far (k : Nat)
  deriving DecidableEq, Repr

/-- The stops of a route with the plots they count as, from its k-th crossing of a die edge on: its plots in order, and before a
plot the buffers that it is entered through. A buffer for a field stands in the plot it leads to; those of a crossing link
stand in the plots at its two ends. -/
def stopList (k : Nat) : List Nat → List (Nat × StopKind)
  | [] => []
  | [a] => [(a, .plot)]
  | a :: b :: r =>
    if plotDie a ≠ plotDie b then (a, .plot) :: (a, .near k) :: (b, .far k) :: stopList (k + 1) (b :: r)
    else if fieldOf a ≠ fieldOf b then (a, .plot) :: (b, .field) :: stopList k (b :: r)
    else (a, .plot) :: stopList k (b :: r)

/-- The plots of a channel's stops. -/
def Placed.stopsOf (p : Placed) (c : Nat) : List Nat := (stopList 0 (p.legsOf c)).map (·.1)

/-- What a channel's stops are. -/
def Placed.stopKinds (p : Placed) (c : Nat) : List StopKind := (stopList 0 (p.legsOf c)).map (·.2)

/-- Tokens that an elastic buffer holds: one on a hop between fields for its channel (R75), and one at an end of a crossing link for
every channel that takes the link in that direction (R200; log 105). -/
def bufferCap : Nat := 8
def crossingCap : Nat := 32

/-- The directed crossing link that a channel's k-th hop over a die edge takes. -/
def Placed.crossingLink (p : Placed) (c k : Nat) : Nat := ((p.links.getD c []).map (·.1)).filter (65536 ≤ ·) |>.getD k 0

/-- The PE of a node, as plot × 64 + element. -/
def Placed.peOf (p : Placed) (n : Nat) : Nat := let x := p.sites.getD n (0, 0); 64 * x.1 + x.2
def Placed.plotOf (p : Placed) (n : Nat) : Nat := (p.sites.getD n (0, 0)).1

/-- The partition that holds a plot in an image. -/
def partIn (v : Variant) (p : Placed) (plot : Nat) : Nat := partOfIx v.parts (plotIx p plot)

/-- The image, node and port that a replay on a key reaches (R173). -/
def Launch.replayEnd (l : Launch) (k : Nat) : Nat × Nat × Nat :=
  if isSelf k then ((k - 2 ^ 40) / 65536, k % 65536, 0)
  else
    let v := (l.img (keyImg k)).1
    (keyImg k, (v.chan (keyChan k)).dst, v.dstPort (keyChan k))

/-- The number by which a replay is asked for on a channel: SEQ, and above it the class of the token, since an EOSGEN firing
gives its EOR and EOS the SEQ of its DATA token (R173, R348; log 57). -/
def tokId (t : Token) : Nat :=
  t.seq + 2 ^ 32 * (match t.kind with | .eor => 1 | .eos => 2 | .mark => 3 | _ => 0)

/-! ## Queues, credits, emission -/

def Plane.queue (q : Plane) (port : Nat) : List Token := lookupD q.queues port []
def Plane.setQueue (q : Plane) (port : Nat) (ts : List Token) : Plane := { q with queues := insert q.queues port ts }
def Plane.head (q : Plane) (port : Nat) : Option Token := (q.queue port).head?
def Plane.nodeSt (q : Plane) (h : Nat) : NodeSt := lookupD q.st h NodeSt.empty
def Plane.setNodeSt (q : Plane) (h : Nat) (n : NodeSt) : Plane := { q with st := insert q.st h n }

/-- Tokens a port queue holds (R40). -/
def queueCap : Nat := 4

/-- The plane of a PE that belongs to an image: the active one, or the shadow. -/
def PE.planeOf (x : PE) (g : Nat) : Plane := if x.active.img = g then x.active else x.shadow

/-- Slots in a 64 KiB segment of a spill ring (R105). -/
def segSlots : Nat := 512

/-- Tokens that the receive buffer of a channel from another module holds (R203). -/
def farCap : Nat := 64

/-- The spill segment that a growing ring takes: the lowest of its device that no ring holds. The rule names none, and the
choice is the model's (log 89). -/
def freeSeg (vd : VD) : Option Nat :=
  (List.range (vd.spilllen / 65536)).find? (fun g => !listed vd.segs g)

/-- Whether a channel that ends here, with some tokens on their way, can take one token more: its queue, its FIFO or its spill
ring has room (R48, R73, R105). -/
def chanRoom (s : State) (l : Launch) (k moving : Nat) : Bool :=
  let (v, p) := l.img (keyImg k)
  let c := keyChan k
  let st := l.chanSt k
  let q := ((peOf s (p.peOf (v.chan c).dst)).planeOf (keyImg k)).queue (v.dstPort c)
  decide (moving + st.fifo.length + q.length < (v.chan c).depth && st.spill.isEmpty) ||
  decide (moving + st.head + st.spill.length < segSlots * st.segs.length) ||
  (match vdOf s l.vd with | some vd => (freeSeg vd).isSome | none => false)

/-- Whether a channel can take one token more: it has room where it ends, and one to another module has room in the receive buffer
there (R203). -/
def chanCredit (s : State) (l : Launch) (k : Nat) : Bool :=
  let (v, p) := l.img (keyImg k)
  let st := l.chanSt k
  if p.plotOf (v.chan (keyChan k)).dst = awayPlot then decide (st.moving + st.sent < farCap) else chanRoom s l k st.moving

/-- The legs of a channel, one for each stop of its route. -/
def fullLegs (legs : List (List Token)) (n : Nat) : List (List Token) := (List.range n).map (fun i => legs.getD i [])

/-- Tokens in the buffer at an end of a directed crossing link: of every channel of every launch that takes it (R200). -/
def crossingTokens (s : State) (link : Nat) (far : Bool) : Nat :=
  (s.launches.map (fun x => (x.2.chans.map (fun c =>
    let p := (x.2.img (keyImg c.1)).2
    let is := fun (k : StopKind) => match k with
      | .near j => !far && p.crossingLink (keyChan c.1) j == link
      | .far j => far && p.crossingLink (keyChan c.1) j == link
      | _ => false
    if isSelf c.1 then 0
    else (((fullLegs c.2.legs (p.stopKinds (keyChan c.1)).length).zip (p.stopKinds (keyChan c.1))).filter (fun y => is y.2)).foldl
      (fun n y => n + y.1.length) 0)).foldl (· + ·) 0)).foldl (· + ·) 0

/-- Whether a stop of a channel's route has room: a plot has, an elastic buffer while it is not full (R75, R200). -/
def stopRoom (s : State) (l : Launch) (chan i : Nat) : Bool :=
  let p := (l.img (keyImg chan)).2
  match (p.stopKinds (keyChan chan)).getD i .plot with
  | .plot => true
  | .field => decide (((l.chanSt chan).legs.getD i []).length < bufferCap)
  | .near k => decide (crossingTokens s (p.crossingLink (keyChan chan) k) false < crossingCap)
  | .far k => decide (crossingTokens s (p.crossingLink (keyChan chan) k) true < crossingCap)

/-- A token put on the first leg of a channel, with its channel number there; it becomes a holder in that plot (R72,
R135). -/
def emitTok (s : State) (lseq k : Nat) (t : Token) : State :=
  match launchOf s lseq with
  | none => s
  | some l =>
    let p := (l.img (keyImg k)).2
    let c := keyChan k
    let route := p.stopsOf c
    let st := l.chanSt k
    let t := { t with chan := (p.nums.getD c []).headD 0 }
    let legs := match fullLegs st.legs route.length with | a :: r => (a ++ [t]) :: r | [] => [[t]]
    let s := setLaunch s (l.setChan k { st with legs := legs })
    addHolder s (route.headD 0) t.stag

/-- A SWAP on each of a list of channels. The spec gives the SEQ and the colour of a SWAP no value, since no firing makes it,
and the model puts 0 in both (log 84). -/
def emitSwaps (s : State) (lseq : Nat) (ks : List Nat) : State :=
  ks.foldl (fun s k => emitTok s lseq k (ctlToken .swap 0 0 false)) s

/-- A launch changed where it exists. -/
def modLaunch (s : State) (lseq : Nat) (f : Launch → Launch) : State :=
  match launchOf s lseq with
  | some l => setLaunch s (f l)
  | none => s

/-- The active plane of a PE changed. -/
def modPlane (s : State) (pe : Nat) (f : Plane → Plane) : State :=
  setPe s pe { peOf s pe with active := f (peOf s pe).active }

/-- The launch that holds the plot of a PE. -/
def peLaunch (s : State) (pe : Nat) : Option Launch :=
  match (plotOf s (pe / 64)).holder with
  | some q => launchOf s q
  | none => none

/-- A SWAP at a port's head of a PE that has already swapped is consumed at once (R398). -/
def dropSwaps (q : List Token) : List Token :=
  match q with
  | t :: r => if t.kind = .swap then dropSwaps r else t :: r
  | [] => []

end Sys2Proof.Machine
end

