-- ==== Sys2Proof/Machine/Divert.lean ====
section
/-!
DEFINITION. The handler node of a partition and its divert ring (07_faults_and_preemption.md R175 to R178): diversion,
the words of an entry in scratch, and what a verdict does. The spec gives the ring no scratch address, and the model puts it
below the pages that FIFO slots can take (log 15).
-/
namespace Sys2Proof.Machine

/-- Entries of a divert ring (R176). -/
def ringCap : Nat := 64

/-- An element word (R157): bit 63 valid, bits [39:0] the element. -/
def slotWord (valid : Bool) (e : Elem) : Nat := e.toNat + (if valid then 2 ^ 63 else 0)

def oddWords (t : Token) : List Nat := (List.range 16).map (fun i => slotWord (t.valid.getLsbD i) (tokEl t i))

/-- The scale word of an entry: the value of the token's tag, and SCALED (R176). -/
def scaleWord (x : Plot) (tag : Nat) : Nat :=
  if tag = 0 then 0 else (srfGet x (tag / 16)).value.toNat + 2 ^ 32

/-- The words of an entry's even slot and odd slot as they are written (R176). -/
def entryWords (e : DivEntry) : List Nat :=
  [e.head, 0] ++ (List.range 4).map (fun i => e.fbits / 2 ^ (64 * i) % 2 ^ 64) ++ [0, e.scale] ++ List.replicate 8 0 ++ e.odd

/-- Whether a thread may write word `w` of an entry's even or odd slot through its handle (R176). -/
def entryWritable (odd : Bool) (w : Nat) : Bool := odd || w == 6 || w == 7

/-! ## The ring in scratch (R176) -/

/-- The scratch address of the ring: 16 KiB below the 64 pages that the 2,048 FIFO slots of a plot can take (log 15). -/
def ringBase : Nat := scratchSize - 64 * 4096 - 16384

/-- The scratch address of the even slot of entry `k`. -/
def entryAt (k : Nat) : Nat := ringBase + 256 * (k % ringCap)

/-- The plot of a partition's handler node. -/
def Launch.ringPlot (l : Launch) (part : Nat) : Nat := l.place.hnode.getD part awayPlot

/-- An entry written into its slots. -/
def writeEntry (s : State) (p k : Nat) (e : DivEntry) : State :=
  ((List.range 32).zip (entryWords e)).foldl (fun s w => winWrite s p (entryAt k + 8 * w.1) 8 w.2) s

/-- An entry with the words that its verdict needs as they stand in scratch. -/
def readEntry (s : State) (p k : Nat) (e : DivEntry) : DivEntry :=
  let w := fun i => readRaw s.mem (scratchAddr p (entryAt k + 8 * i)) 8
  { e with head := w 0, verdict := w 6, scale := w 7, odd := (List.range 16).map (fun i => w (16 + i)) }

/-- The handle bound to a partition's ring sees one entry more (R157, R176). -/
def bumpTail (s : State) (b : Option (Nat × Nat)) : State :=
  match b with
  | none => s
  | some (tid, h) =>
    match threadOf s tid with
    | some t => setThread s tid { t with handles := adjust t.handles h (fun x => { x with tail := (x.tail + 2) % 2 ^ 32 }) }
    | none => s

def Launch.hnode (l : Launch) (part : Nat) : HNode := lookupD l.hnodes part HNode.empty
def Launch.setHnode (l : Launch) (part : Nat) (h : HNode) : Launch := { l with hnodes := insert l.hnodes part h }

/-- Whether the handler node can take a diversion; a full ring, or one whose page is in backing, holds it at its source
(R176, R82). With no handle bound it takes one while its drops do not wait. -/
def ringRoom (s : State) (l : Launch) (part : Nat) : Bool :=
  let hn := l.hnode part
  decide (hn.acting.length < ringCap) &&
  (hn.bound.isNone ||
    decide (hn.ring.length < ringCap) && !listed s.backed (2048 * l.ringPlot part + entryAt hn.wrote / 4096))

/-- The token of a header and no elements (R36). -/
def headerToken (h : Nat) : Token :=
  { kind := kindOf (fld h 63 61), stag := fld h 50 39, colour := fld h 38 37, err := fld h 36 36 == 1, rsv := fld h 35 32,
    seq := fld h 31 0, chan := fld h 60 51, valid := 0#16, elems := zeroElems }

/-- The token of a re-injected entry: its header from word 0 with ERR 0, its elements from the odd slot (R177). -/
def reinjected (e : DivEntry) (stag : Nat) : Token :=
  { headerToken e.head with
    err := false
    stag := stag
    valid := (List.range 16).foldl (fun v i => if e.odd.getD i 0 / 2 ^ 63 = 1 then v ||| BitVec.twoPow 16 i else v) 0#16
    elems := (List.range 16).map (fun i => BitVec.ofNat 40 (e.odd.getD i 0)) }

/-- The handler of a diverted firing let go, with its next firing settled by the verdict (R175, R177). -/
def releaseNode (s : State) (pe h : Nat) (redo : Option Bool) : State :=
  modPlane s pe fun q => q.setNodeSt h { q.nodeSt h with held := false, redo := redo }

/-- A token put back at the head of a port. -/
def pushHead (s : State) (pe port : Nat) (t : Token) : State :=
  modPlane s pe fun q => q.setQueue port (t :: q.queue port)

/-- A replay put on a channel's replay lane (R173). -/
def pushReplay (s : State) (lseq k : Nat) (t : Token) : State :=
  modLaunch s lseq fun l => let c := l.chanSt k; l.setChan k { c with replay := c.replay ++ [t] }

/-- The record of a drop (R177): HANDLER_DROP with the first cause in ORIG, about the same node, channel and SEQ. -/
def dropRecord (s : State) (l : Launch) (part : Nat) (e : DivEntry) : FInfo :=
  { time := s.time, value := 0, seq := e.tok.seq, node := fld e.fbits 95 80,
    chan := if fld e.fbits 79 79 = 1 then none else some (fld e.fbits 45 32),
    plot := l.place.hnode.getD part 0, srcNo := 5, unit := 0, cause := 0xA3, orig := e.cause, acc := 0, lseq := l.lseq }

/-- A drop verdict settled (R177, R178). -/
def dropEntry (s : State) (l : Launch) (part : Nat) (e : DivEntry) : State :=
  let s := raiseFault s l.lseq (.handlerNode part) (dropRecord s l part e)
  match e.kind with
  | .refused => s
  | .firing pe h port =>
    releaseNode (pushHead s pe port (ctlToken .null e.tok.colour e.tok.seq e.tok.err)) pe h (some true)
  | .unpaired pe h port =>
    modPlane s pe fun q =>
      let n := q.nodeSt h
      let low := hLow (lookupD q.hrecs h 0)
      q.setNodeSt h { n with c := if port = low then n.c + 1 else n.c, eA := n.eA + 1, eB := n.eB + 1 }
  | .exhausted k => pushReplay s l.lseq k (ctlToken .null e.tok.colour e.tok.seq false)

/-- VERDICT is re-inject when bit 0 alone is set and no reserved bit of words 6 and 7 is (R176). -/
def wantsReinject (e : DivEntry) : Bool := e.verdict == 1 && decide (e.scale < 2 ^ 33)

/-- The tag of a re-injected token: a fresh binding in the target plot's common range where SCALED is 1; none where
no entry is free (R177). Where the thread has cleared SCALED the token carries no tag, though its header in word 0 still
names the one it had: a choice of the model, since that tag's entry is held no more (log 83). -/
def reinjectTag (s : State) (plot : Nat) (e : DivEntry) : Option (State × Nat) :=
  if e.scale / 2 ^ 32 % 2 = 0 then some (s, 0)
  else (bindCommon (plotOf s plot) (BitVec.ofNat 32 e.scale)).map fun (x, tag) => (setPlot s plot x, tag)

/-- The effect of an entry's verdict; none while a re-injected token finds no free scale entry. -/
def actEntry (s : State) (l : Launch) (part : Nat) (e : DivEntry) : Option State :=
  if wantsReinject e then
    match e.kind with
    | .firing pe h port =>
      (reinjectTag s (pe / 64) e).map fun (s, tag) =>
        releaseNode (pushHead s pe port (reinjected e tag)) pe h (some false)
    | .exhausted k =>
      let e' := l.replayEnd k
      (reinjectTag s ((l.img e'.1).2.plotOf e'.2.1) e).map fun (s, tag) =>
        pushReplay s l.lseq k (reinjected e tag)
    | _ => some (dropEntry s l part e)
  else some (dropEntry s l part e)

/-- The handler node acts on the verdicts that have been read, in order, one record at a time (R169, R177). -/
def settle (s : State) (lseq part : Nat) : Nat → State
  | 0 => s
  | n + 1 =>
    match launchOf s lseq with
    | none => s
    | some l =>
      let hn := l.hnode part
      match hn.acting with
      | [] => s
      | e :: rest =>
        if faultHeldAt l (.handlerNode part) then s
        else
          match actEntry (setLaunch s (l.setHnode part { hn with acting := rest })) l part e with
          | some s => settle s lseq part n
          | none => s

/-- The effects of the verdicts read so far; with no handle bound, every entry is dropped as it stands (R177). -/
def handlerNodeWork (s : State) (lseq part : Nat) : State :=
  match launchOf s lseq with
  | none => s
  | some l =>
    let hn := l.hnode part
    let hn := if hn.bound.isSome then hn
      else { hn with ring := [], acting := hn.acting ++ hn.ring.map ({ · with verdict := 0 }) }
    settle (setLaunch s (l.setHnode part hn)) lseq part hn.acting.length

/-- An entry taken into the ring, and seen by the handle that is bound (R175, R176). -/
def enterRing (s : State) (lseq part : Nat) (e : DivEntry) : State :=
  match launchOf s lseq with
  | none => s
  | some l =>
    let hn := l.hnode part
    let s := setLaunch s (l.setHnode part { hn with ring := hn.ring ++ [e], wrote := hn.wrote + 1 })
    if hn.bound.isSome then bumpTail (writeEntry s (l.ringPlot part) hn.wrote e) hn.bound else s

/-- A diversion (R175), made where `ringRoom` allows it: its fault record, and its entry in the ring. The token is a holder
in its plot no more. -/
def divert (s : State) (lseq part : Nat) (kind : DivKind) (tok : Token) (plot : Nat) (src : FSource) (f : FInfo) : State :=
  let e : DivEntry := { kind := kind, tok := tok, cause := f.cause, fbits := faultBits f, head := tokHeader tok, verdict := 0,
                        scale := scaleWord (plotOf s plot) tok.stag, odd := oddWords tok }
  handlerNodeWork (enterRing (dropHolder (raiseFault s lseq src f) plot tok.stag) lseq part e) lseq part

end Sys2Proof.Machine
end

