-- ==== Sys2Proof/Machine/CollOps.lean ====
section
/-!
DEFINITION. What a collective computes (09_many_dies_and_devices.md R206, R207; 22 R406): inputs as they are read and
scaled, the fixed tree over the ranks, combinations, each rank's output, and the stores of a participant. The accesses
are those of the collective engines: R92 without PKEY, no window (R88, R92).
-/
namespace Sys2Proof.Machine

/-- Storage format of a collective's elements (R207, R317). -/
def collStore : CollFmt → Nat
  | .fp32 => 0 | .bf16 => 1 | .x40w => 11 | .int32 => 6 | .x40i => 11

def collIsInt (f : CollFmt) : Bool := f == .int32 || f == .x40i

/-- Bytes of an element of a collective's format (R207). -/
def collBytes : CollFmt → Nat
  | .fp32 => 4 | .bf16 => 2 | .x40w => 8 | .int32 => 4 | .x40i => 8

/-- Elements that a participant's output receives (R206). -/
def collOut (op : CollOp) (n len rank root : Nat) : Nat :=
  match op with
  | .allreduce | .broadcast => len
  | .reduce => if rank = root then len else 0
  | .reducescatter => len / n
  | .allgather => n * len

/-- A block of a V128 scale array (R406). -/
def collBlock (e : Nat) : Nat := e / 128

/-! ## The tree (R207) -/

/-- Where T(a, b) divides: a + 2^(ceil(log2(b − a)) − 1). -/
def splitAt (a b : Nat) : Nat := a + 2 ^ Nat.log2 (b - a - 1)

/-- The combinations of T(a, b), each after those it needs; `fuel` is at least b − a. -/
def treeNodes : Nat → Nat → Nat → List (Nat × Nat × Nat)
  | 0, _, _ => []
  | fuel + 1, a, b => if b - a ≤ 1 then [] else treeNodes fuel a (splitAt a b) ++ treeNodes fuel (splitAt a b) b ++ [(a, splitAt a b, b)]

/-- The partial value over ranks a to b − 1. -/
def partial? (ps : List (Nat × Nat × List Elem)) (a b : Nat) : Option (List Elem) :=
  (ps.find? (fun p => p.1 == a && p.2.1 == b)).map (·.2.2)

/-- MIN or MAX of two values read as W40 (R207). -/
def wPick (max : Bool) (a b : Elem) : Elem :=
  if w40 a = .nan ∨ w40 b = .nan then canonNaN
  else if (w40 a).lt (w40 b) then (if max then b else a)
  else if (w40 b).lt (w40 a) then (if max then a else b)
  else if a.getLsbD 39 == max then b else a

/-- Combine, left operand first (R207). -/
def collCombine (r : CollRed) (int : Bool) (a b : Elem) : Elem × Nat :=
  match r, int with
  | .add, true => i40Result false (a.toInt + b.toInt)
  | .add, false => w40Result .rne (fadd .rne (w40 a) (w40 b))
  | .min, true => (if b.toInt < a.toInt then b else a, 0)
  | .max, true => (if a.toInt < b.toInt then b else a, 0)
  | .min, false => (wPick false a b, 0)
  | .max, false => (wPick true a b, 0)

/-- Two partial values combined, element by element. -/
def combineLists (r : CollRed) (int : Bool) (xs ys : List Elem) : List Elem × Nat :=
  let zs := (xs.zip ys).map (fun p => collCombine r int p.1 p.2)
  (zs.map (·.1), zs.foldl (fun f z => f ||| z.2) 0)

/-- Whether the operation reduces, so that the tree is formed (R206). -/
def collReduces : CollOp → Bool
  | .allreduce | .reduce | .reducescatter => true
  | _ => false

/-- Whether every result is formed. -/
def Coll.formed (c : Coll) : Bool := c.started && !c.bad && (!collReduces c.op || (partial? c.partials 0 c.n).isSome)

/-- The next combination of the tree whose two operands are formed. -/
def Coll.nextNode (c : Coll) : Option (Nat × Nat × Nat) :=
  if c.started && !c.bad && collReduces c.op then
    (treeNodes c.n 0 c.n).find? (fun x => (partial? c.partials x.1 x.2.1).isSome && (partial? c.partials x.2.1 x.2.2).isSome)
  else none

/-- One combination made: its two operands give way to their result. -/
def Coll.combine (c : Coll) (x : Nat × Nat × Nat) : Coll :=
  match partial? c.partials x.1 x.2.1, partial? c.partials x.2.1 x.2.2 with
  | some l, some r =>
    let z := combineLists c.red (collIsInt c.fmt) l r
    let rest := c.partials.filter (fun p => !(decide (x.1 ≤ p.1) && decide (p.2.1 ≤ x.2.2)))
    { c with partials := rest ++ [(x.1, x.2.2, z.1)], flags := c.flags ||| z.2 }
  | _, _ => c

/-- Every combination made. -/
def Coll.combineAll (c : Coll) : Nat → Coll
  | 0 => c
  | k + 1 => match c.nextNode with | some x => (c.combine x).combineAll k | none => c

/-- The elements that a rank's output receives, of a collective whose results are formed (R206). -/
def Coll.output (c : Coll) (rank : Nat) : List Elem :=
  let t := (partial? c.partials 0 c.n).getD []
  match c.op with
  | .allreduce => t
  | .reduce => if rank = c.root then t else []
  | .reducescatter => (t.drop (rank * (c.len / c.n))).take (c.len / c.n)
  | .allgather => ((List.range c.n).map (fun r => (partial? c.partials r (r + 1)).getD [])).flatten
  | .broadcast => (partial? c.partials c.root (c.root + 1)).getD []

/-- A rank's output as it is stored, with its flags (R121, R207). -/
def Coll.stored (c : Coll) (rank : Nat) : List Nat × Nat :=
  let xs := (c.output rank).map (fun e => storeConv (collStore c.fmt) .rne e)
  (xs.map (·.1), xs.foldl (fun f x => f ||| x.2) 0)

/-- The flags of every store of the collective (R407). -/
def Coll.storeFlags (c : Coll) : Nat := (List.range c.n).foldl (fun f r => f ||| (c.stored r).2) 0

/-! ## A participant's stores -/

def collCtx (s : State) (p : CollPart) : Ctx :=
  { vd := p.vd, lseq := p.lseq, gid := (match launchOf s p.lseq with | some l => l.gid | none => 0), pkeys := 0#64, agent := .coll }

/-- The address of element `i` of an array. -/
def elemVA (base size i : Nat) : Nat := (base + size * i) % 2 ^ 64

/-- Bytes that a participant of a collective has had stored. -/
def collWritten (s : State) (key rank : Nat) : Nat :=
  match lookup s.colls key with
  | some c => ((c.parts.find? (fun p => p.rank == rank)).elim 0 (·.wrote)) * collBytes c.fmt
  | none => 0

/-- The ranks whose MODULE is this module, as the first participant lists them (R204, R317). -/
def ranksHere (s : State) (c : Coll) : List Nat :=
  let own := (vdOf s c.vd).elim 0 (·.domix)
  match c.parts with
  | p :: _ => (List.range c.n).filter (fun r => p.modules.getD r 0 == own)
  | [] => []

/-- Whether a collective has been abandoned and no launch is left that could issue for a rank which has not. -/
def Coll.stale (s : State) (c : Coll) : Bool :=
  c.abandoned && !s.launches.any (fun x => x.2.vd == c.vd && decide (x.1 ≤ c.upto))

/-- Whether every rank of this module has ended its part; one that has yet to issue has not, while a launch is left that may
(R408; log 95). -/
def Coll.over (s : State) (c : Coll) : Bool := (ranksHere s c).all c.ended.elem || c.stale s

/-- A collective kept until its last rank of this module has ended. -/
def keepColl (s : State) (key : Nat) (c : Coll) : State :=
  if c.over s then { s with colls := remove s.colls key } else { s with colls := insert s.colls key c }

/-- The flags of every operation of a collective that has its inputs (R407). -/
def Coll.allFlags (c : Coll) : Nat :=
  if c.started && !c.bad then (c.combineAll c.n).flags ||| (c.combineAll c.n).storeFlags else c.flags

/-- The outputs of an abandoned participant: each element that is not yet stored holds its old value or its result,
as a free bit says; an element whose store fails a check keeps its old value (R408). -/
def scatterFrom (s : State) (c : Coll) (p : CollPart) : Nat → List Nat → State × Nat
  | _, [] => (s, 0)
  | i, v :: vs =>
    let s' := { s with free := s.free + 1 }
    let r := if Config.freeBit s.free then
        (match storeVA s' (collCtx s p) (elemVA p.outva (collBytes c.fmt) i) (collBytes c.fmt) 1 v with
         | (s, .ok _) => (s, 1)
         | _ => (s', 0))
      else (s', 0)
    let t := scatterFrom r.1 c p (i + 1) vs
    (t.1, r.2 + t.2)

/-- A participant changed in its collective. -/
def Coll.setPart (c : Coll) (p : CollPart) : Coll := { c with parts := c.parts.map (fun q => if q.rank = p.rank then p else q) }

/-- A participant of a collective that is given up: what it holds of its results is decided, and counted. -/
def scatterPart (s : State) (key : Nat) (c : Coll) (p : CollPart) : State :=
  if c.started = false ∨ c.bad = true then s
  else
    let r := scatterFrom s c p p.wrote (((c.combineAll c.n).stored p.rank).1.drop p.wrote)
    { r.1 with colls := insert r.1.colls key (c.setPart { p with wrote := p.wrote + r.2 }) }

/-- The collectives that a launch leaves, before its operations post TERMINATED. -/
def scatterColls (s : State) (lseq : Nat) : State :=
  s.colls.foldl (fun s x => x.2.parts.foldl (fun s p =>
    match lookup s.colls x.1 with
    | some c => if p.lseq = lseq ∧ c.ended.elem p.rank = false then scatterPart s x.1 c p else s
    | none => s) s) s

end Sys2Proof.Machine
end

