-- ==== Sys2Proof/Machine/Launch.lean ====
section
/-!
DEFINITION. The life of a launch after its commit: releasing plots (03 R76, 10 R225), ending a launch with TERMINATED
for what is outstanding (06 R165, 14 R323, R324), and its launch record (03 R76, 09 R213).
-/
namespace Sys2Proof.Machine

/-- Memory without the scratch of a plot. -/
def clearScratch (m : List Host.Cell) (p : Nat) : List Host.Cell :=
  m.filter (fun c => !(decide (scratchAddr p 0 ≤ c.1) && decide (c.1 < scratchAddr p scratchSize)))

/-- The pages of one plot removed from a table. -/
def dropPages {α : Type} (l : Assoc α) (p : Nat) : Assoc α := l.filter (fun k => k.1 / 2048 != p)

/-- A plot's scratch with no page touched (R81). -/
def emptyScratch (s : State) (p : Nat) : State :=
  let s := landStores s (scratchAddr p 0) scratchSize
  { s with mem := clearScratch s.mem p, pages := dropPages s.pages p, backed := dropPages s.backed p }

/-- The PEs of a plot back to empty planes. -/
def clearPes (m : Assoc PE) (p : Nat) : Assoc PE := m.filter (fun x => x.1 / 64 != p)

/-- The rows of a plot's edge maps let go of their entries in the plots beyond, and rows that name the plot are gone. -/
def clearEdges (s : State) (p : Nat) : State :=
  let s := (plotOf s p).edges.foldl (fun s r => dropHolder s r.dst r.dtag) s
  { s with plots := s.plots.map (fun x => (x.1, if x.2.edges.any (fun r => r.dst == p) then
      { x.2 with edges := x.2.edges.filter (fun r => r.dst != p) } else x.2)) }

/-- A plot released: no holder, PEs empty, scale file and descriptors zero, scratch zero (R76, R225). Its event queue
and round-robin pointer are its CC's own and stay. -/
def releasePlot (s : State) (p : Nat) : State :=
  let s := clearEdges (emptyScratch s p) p
  let x := plotOf s p
  { s with
    plots := insert s.plots p { Plot.empty with
      evq := x.evq, evHeld := x.evHeld, rr := x.rr
      admq := x.admq.filter (fun a => some a.lseq != x.holder) }
    pes := clearPes s.pes p }

/-- The plots a launch holds now. -/
def heldPlots (s : State) (lseq : Nat) : List Nat :=
  (s.plots.filter (fun x => x.2.holder == some lseq)).map (·.1)

/-- Plots were released: the parked launches of every device they belong to may be tried again (R76, R215), and so may the
relocations of such a device's launches that deferred leases wait for, and a deferred lease of one of the plots, which no launch
holds any more (R191). -/
def plotsReleased (s : State) (ps : List Nat) : State :=
  let gains := fun (vd : Nat) => ps.any (ownsPlot s vd)
  { s with
    waiting := s.waiting.map (fun w => if w.parked && gains w.vd then { w with again := true } else w)
    brock := { s.brock with leases := s.brock.leases.map (fun x =>
      (x.1, if x.2.st = .deferred ∧ (ps.elem x.1 || ((plotOf s x.1).holder.bind (launchOf s)).any (fun l => gains l.vd)) = true
        then { x.2 with again := true } else x.2)) } }

def releasePlots (s : State) (lseq : Nat) : State :=
  plotsReleased ((heldPlots s lseq).foldl releasePlot s) (heldPlots s lseq)

/-- The frames of a launch's pages given back to its device's backing pool (R82). -/
def freeBacks (s : State) (vd lseq : Nat) : State :=
  match vdOf s vd with
  | some d => { s with vds := insert s.vds vd { d with back := d.back.filter (fun b => b.2 != lseq) } }
  | none => s

/-- Spill segments of a launch released (R105). -/
def freeSegs (s : State) (vd lseq : Nat) : State :=
  match vdOf s vd with
  | some v => { s with vds := insert s.vds vd { v with segs := v.segs.filter (fun g => g.2.1 != lseq) } }
  | none => s

/-- A record of a stream, copy or collective to its issuing slot (R300). -/
def opRecord (l : Launch) (tid plot slot kind status queue : Nat) (user : Word) (count : Nat)
    (src : Option FSource) : Event :=
  { vd := l.vd, lseq := l.lseq, plot := plot, slot := slot, kind := kind, status := status, cause := 0,
    queue := queue, user := user, count := count, toHost := false, tid := some tid, src := src, left := none, flow := [] }

/-- COUNT of a stream record (R304, R305): for a handle, the slots that passed through it. -/
def bindCount (p : Port) : Binding → Nat
  | .stream r _ _ _ _ _ _ _ =>
    if r.counts.any (· == 0) then 0
    else if r.chase then p.visited
    else if p.consumed = 0 then p.performed else p.consumed
  | .handle .. => p.nTok + p.consumed

/-- The records of what a launch leaves outstanding, each with STATUS TERMINATED (R165). -/
def terminated (s : State) (l : Launch) : List Event :=
  let bind := fun (p : Port) (first : Bool) (b : Binding) => match b with
    | .stream _ tid plot slot _ user _ _ =>
      opRecord l tid plot slot 2 0x12 0 user (if first then bindCount p b else 0) none
    | .handle tid _ plot slot user =>
      opRecord l tid plot slot 2 0x12 0 user (if first then bindCount p b else 0) none
  let streams := (l.ports.map fun p => p.2.active.toList.map (bind p.2 true) ++ p.2.waiting.toList.map (bind p.2 false)).flatten
  let copies := (l.copyQ.map fun q => (q.2.map fun e => match e with
    | .op j => [opRecord l j.tid j.plot j.slot 1 0x12 (q.1 % 16) j.user (j.pos + j.part) none]
    | .fence .. => []).flatten).flatten
  let colls := (l.collQ.map fun q => (q.2.map fun e => match e with
    | .op j => [opRecord l j.tid j.plot j.slot 4 0x12 (q.1 % 16) j.user (collWritten s j.coll j.rank) none]
    | .fence .. => []).flatten).flatten
  streams ++ copies ++ colls

/-- The launch record (R76, R213, R319). -/
def launchRecord (vd : Nat) (o : Origin) (status cause lseq : Nat) : Event :=
  match o with
  | .host tag => { vd := vd, lseq := lseq, plot := 0, slot := 0, kind := 3, status := status, cause := cause,
                   queue := 0, user := tag, count := lseq, toHost := true, tid := none, src := none, left := none, flow := [] }
  | .thread from_ tid plot slot user =>
    { vd := vd, lseq := from_, plot := plot, slot := slot, kind := 3, status := status, cause := cause, queue := 0,
      user := user, count := lseq, toHost := false, tid := some tid, src := none, left := none, flow := [] }

/-- A waiting instruction completes: its thread goes on to the next instruction. `len` is its length in bytes. -/
def completeWait (s : State) (tid : Nat) (len : Word) : State :=
  match threadOf s tid with
  | some t => setThread s tid { t.next len with stat := .ready }
  | none => s

/-- A waiting instruction is made again from its start. -/
def retryWait (s : State) (tid : Nat) : State :=
  match threadOf s tid with
  | some t => setThread s tid { t with stat := .ready }
  | none => s

/-- Threads that wait for a launch that has ended: a GEND completes (R318); the other commands make their checks
again, and find no such target. -/
def wakeOnEnd (s : State) (lseq : Nat) : State :=
  s.threads.foldl (fun s x => match x.2.stat with
    | .waiting (.gend q) => if q = lseq then completeWait s x.1 4#64 else s
    | .waiting (.gdrain q) => if q = lseq then retryWait s x.1 else s
    | .waiting (.gswap q) => if q = lseq then retryWait s x.1 else s
    | .waiting (.gloadsh q _ _ _) => if q = lseq then retryWait s x.1 else s
    | _ => s) s

/-- The participants of a launch that ends leave their collectives abandoned, but for one whose fields were found to
differ; that waits for each launch's own end (R317, R408). -/
def abandonColls (s : State) (lseq : Nat) : State :=
  let one := fun (c : Coll) =>
    let mine := c.parts.filter (fun p => p.lseq == lseq && !c.ended.elem p.rank)
    if mine.isEmpty then c
    else { c with
      ended := mine.foldl (fun e p => addNat e p.rank) c.ended, abandoned := c.abandoned || !(c.bad && c.started)
      upto := if c.abandoned then c.upto else s.lseq }
  let left := { s with launches := remove s.launches lseq }
  { s with colls := (s.colls.map (fun c => (c.1, one c.2))).filter (fun c => !c.2.over left) }

/-- Every thread of a launch ended. -/
def endThreads (s : State) (lseq : Nat) : State :=
  (s.threads.filter (fun t => t.2.lseq == lseq)).foldl (fun s t => endThread s t.1) s

/-- A launch ended: its threads halt, each outstanding operation posts TERMINATED, records saved with it are posted, its saved image is discarded, its
plots and spill segments are released, and its launch record is posted (R165, R323). With `quiet`, as for CLOSE_VD, no
record of the ending is posted (R213). -/
def endLaunch (s : State) (lseq status cause : Nat) (quiet : Bool) : State :=
  match launchOf s lseq with
  | none => s
  | some l =>
    let s := scatterColls s lseq
    let evs := terminated s l
    let s := endThreads s lseq
    let s := if quiet then s else (l.saved.evHeld.map (·.2) ++ evs).foldl post s
    let s := abandonColls s lseq
    let s := freeBacks (freeSegs s l.vd lseq) l.vd lseq
    let s := releasePlots s lseq
    let s := { s with launches := remove s.launches lseq }
    let s := if quiet then s else post s (launchRecord l.vd l.origin status cause lseq)
    wakeOnEnd s lseq

end Sys2Proof.Machine
end

