-- ==== Sys2Proof/Machine/Issue.lean ====
section
/-!
DEFINITION. Issue on a control core (01_sequential_machine.md R14 to R19, R34, R77, R78; 13 R253, R271): which thread
issues, the fetch and decode of its instruction, admission to a CC, gang start, and the ends of its waits.
-/
namespace Sys2Proof.Machine

/-! ## Fetch and decode (R14, R253, R271) -/

/-- The word at an address, fetched as code; a store that no FENCE.4 has followed may be seen or not (R21). -/
def fetchWord (s : State) (t : Thread) (va : Word) : State × Checked Nat :=
  loadVA s (threadCtx s t) .fetch va.toNat 4 4

/-- The instruction at a thread's pc: the words it takes, or the trap of checks 1 to 3. -/
def fetchInstr (s : State) (tid : Nat) (t : Thread) : State × Option Instr :=
  match fetchWord s t t.pc with
  | (s, .bad c _) => (trap s tid t c t.pc t.pc, none)
  | (s, .hold _) => (s, none)
  | (s, .ok w) =>
    let w0 : IWord := BitVec.ofNat 32 w
    let fin := fun (s : State) (w1 : IWord) =>
      match decode w0 w1 with
      | .ok i => (s, some i)
      | .error .illegalOpcode => (trap s tid t 0x02 t.pc (w0.setWidth 64), none)
      | .error .illegalEncoding => (trap s tid t 0x03 t.pc (w0.setWidth 64), none)
    if isTwoWord w0 then
      match fetchWord s t (t.pc + 4#64) with
      | (s, .bad c _) => (trap s tid t c t.pc (t.pc + 4#64), none)
      | (s, .hold _) => (s, none)
      | (s, .ok v) => fin s (BitVec.ofNat 32 v)
    else fin s 0#32

/-! ## Who may issue (R19) -/

/-- The general registers whose values an instruction uses. -/
def readsOf : Instr → List Reg
  | .add _ a b | .sub _ a b | .mul _ a b | .mulh _ a b | .mulhu _ a b | .div _ a b | .divu _ a b | .rem _ a b
  | .remu _ a b | .and _ a b | .or _ a b | .xor _ a b | .sll _ a b | .srl _ a b | .sra _ a b | .min _ a b | .max _ a b
  | .minu _ a b | .maxu _ a b | .addsc _ _ a b | .sel _ _ a b | .cmpCc _ _ a b => [a, b]
  | .clz _ a | .ctz _ a | .popc _ a | .addImm _ a _ | .andImm _ a _ | .orImm _ a _ | .xorImm _ a _ | .sllImm _ a _
  | .srlImm _ a _ | .sraImm _ a _ | .addLong _ a _ | .andLong _ a _ | .orLong _ a _ | .xorLong _ a _ | .bfx _ a _ _
  | .bfxS _ a _ _ | .cmpCcImm _ _ a _ => [a]
  | .bfi d a _ _ => [d, a]
  | .ld _ a _ _ _ | .ldAcq _ a _ _ _ _ | .prefDc a _ | .prefL2 a _ | .jalr _ a _ | .loop a _ => [a]
  | .st b a _ _ | .stRel b a _ _ _ => [b, a]
  | .amoW _ _ a b _ _ | .amoD _ _ a b _ _ => [a, b]
  | .casW d a b _ _ | .casD d a b _ _ => [d, a, b]
  | .cas16 d a b _ _ => [d, regUp d 1, a, b, regUp b 1]
  | .mts _ a | .wrpk a | .mtt _ a | .smov _ a | .sbindS _ a | .sfree a => [a]
  | .sbind _ _ a u | .sbindHandle _ _ a _ u | .glaunch a u | .gloadsh a u | .gswap a u | .gdrain a u | .gresume a u
  | .gend a u => [a, u]
  | .cpy _ _ d a n u => [d, a, n, u]
  | .cpyT _ _ d a u => [d, a, u]
  | .cpym _ _ d a c u => [d, a, c, u]
  | .postc _ a => [a]
  | .evpost _ a b => [a, b]
  | .coll _ _ _ _ _ _ a _ u => [a, u]
  | .cbput _ _ _ a => [a]
  | _ => []

/-- Whether a thread's next instruction uses a register whose load or atomic has not returned (R19). -/
def awaits (s : State) (t : Thread) : Bool :=
  !t.loads.isEmpty &&
  (match (fetchInstr s 0 t).2 with
   | some i => (readsOf i).any (fun r => r != 0#6 && t.loads.any (fun x => x.1 == r.toNat))
   | none => false)

/-- A launch runs when it is resident, loaded, and nothing freezes it (R182). -/
def Launch.runs (l : Launch) : Bool := l.frozen.isEmpty && l.resident && l.loaded

def runs (s : State) (lseq : Nat) : Bool :=
  match launchOf s lseq with
  | some l => l.runs
  | none => false

/-- Whether a thread stands on a CC. One of a saved launch, or of a restored one that no CC has admitted again, does not (R16,
R35; log 21). -/
def Thread.onCC (t : Thread) : Bool := decide (t.plot < 128)

/-- A thread that is not waiting: it stands on a CC, it is ready, its launch runs, and its next instruction needs no value that
is still outstanding (R19). -/
def eligible (s : State) (t : Thread) : Bool := t.onCC && t.stat == .ready && runs s t.lseq && !awaits s t

/-- The eligible threads of a CC by slot. -/
def eligibleAt (s : State) (p : Nat) : List (Nat × Nat) :=
  (s.threads.filter (fun t => t.2.plot == p && eligible s t.2)).map (fun t => (t.2.slot, t.1))

/-- Round-robin by slot from the pointer: the thread whose slot comes first at or after it, modulo 8 (R19). -/
def pickSlot (c : List (Nat × Nat)) (rr : Nat) : Option (Nat × Nat) :=
  (List.range 8).findSome? (fun k => c.find? (fun x => x.1 == (rr + k) % 8))

/-- The thread a CC issues from: one that has yielded is passed over while another is eligible (R282). -/
def pickThread (s : State) (p : Nat) : Option (Nat × Nat) :=
  let x := plotOf s p
  let c := eligibleAt s p
  match x.yieldedSlot with
  | some y =>
    match pickSlot (c.filter (fun a => a.1 != y)) x.rr with
    | some a => some a
    | none => pickSlot c x.rr
  | none => pickSlot c x.rr

/-- INSTRUCTION_ISSUE (R19): a CC takes one thread and fetches and decodes its instruction, which is then the one
being executed. A fetch or decode that fails takes its trap. With no eligible thread nothing happens. -/
def execInstructionIssue (cc : Nat) (s : State) : Out :=
  match pickThread s cc with
  | none => .next s
  | some (slot, tid) =>
    match threadOf s tid with
    | none => .next s
    | some t =>
      let x := plotOf s cc
      let y := if (match x.yieldedSlot with | some y => y != slot | none => false) then none else x.yieldedSlot
      let s := setPlot s cc { x with rr := (slot + 1) % 8, yieldedSlot := y }
      let s := { s with cur := tid }
      match fetchInstr s tid t with
      | (s, some i) => .next { s with latch := some i }
      | (s, none) => .next s

/-! ## The ends of waits -/

/-- WFE_WAKE (R34). -/
def execWfeWake (tid : Nat) (s : State) : Out :=
  match threadOf s tid with
  | some t =>
    if t.stat = .waiting .wfe ∧ runs s t.lseq ∧ wfeDone s tid t then .next (completeWait s tid 4#64)
    else .next s
  | none => .next s

/-- LOAD_RETURN (R19, R296): the oldest outstanding result of a thread is written into its register. -/
def execLoadReturn (tid : Nat) (s : State) : Out :=
  match threadOf s tid with
  | some t =>
    match t.loads with
    | (d, v) :: rest => .next (setThread s tid { t.setG (BitVec.ofNat 6 d) v with loads := rest })
    | [] => .next s
  | none => .next s

/-- SIBLING_WINDOW_RELEASE (R78): a held access is made once the sibling's plot holds its configuration. -/
def execSiblingWindowRelease (tid : Nat) (s : State) : Out :=
  match threadOf s tid with
  | some t =>
    match t.stat with
    | .waiting (.sibling p) => if unloaded s p t.lseq then .next s else .next (retryWait s tid)
    | _ => .next s
  | none => .next s

/-- Threads that wait for a page are made ready. -/
def wakePage (s : State) (p page : Nat) : State :=
  s.threads.foldl (fun s x =>
    if x.2.stat = .waiting (.backing p page) then retryWait s x.1 else s) s

/-- The engagement under which the pages of a plot's launch are in backing. -/
def backEng (s : State) (p : Nat) : Nat :=
  match (plotOf s p).holder.bind (launchOf s) with
  | some l => (slotOf s l.kslot).engid
  | none => 0

/-- A page brought from its frame of the backing pool, which goes back to the pool, into a frame of its plot. -/
def bringPage (s : State) (p page : Nat) (at_ : Option (Nat × Nat)) : State :=
  let s := { s with backed := remove s.backed (2048 * p + page) }
  let s := match at_ with
    | none => s
    | some (v, i) =>
      match vdOf s v with
      | none => s
      | some d =>
        let s := { s with mem := putCells s.mem (scratchAddr p (4096 * page)) (frameCells s (backEng s p) (d.backpa + 4096 * i)) }
        { s with vds := insert s.vds v { d with back := remove d.back i } }
  usePage s p (4096 * page) true

/-- BACKED_PAGE_RESIDENT (R82): a page in backing is brought into a frame of its plot. -/
def execBackedPageResident (p page : Nat) (s : State) : Out :=
  match lookup s.backed (2048 * p + page) with
  | some at_ => .next (wakePage (bringPage s p page at_) p page)
  | none => .next s

/-! ## Barriers -/

/-- Whether every counter a mask names is 0 (R154). -/
def countersZero (t : Thread) (mask : Nat) : Bool :=
  (List.range 4).all (fun c => mask / 2 ^ c % 2 == 0 || t.pend.getD c 0 == 0)

/-- SBAR (R309). -/
def execSbar (m : BitVec 4) (s : State) : Out :=
  instr [] s fun tid t =>
    if countersZero t m.toNat then done s tid t (.sbar m) else wait s tid t (.sbar m.toNat)

/-- SBAR_COMPLETE (R154). -/
def execSbarComplete (tid : Nat) (s : State) : Out :=
  match threadOf s tid with
  | some t =>
    match t.stat with
    | .waiting (.sbar m) =>
      if countersZero t m ∧ runs s t.lseq then .next (completeWait s tid 4#64) else .next s
    | _ => .next s
  | none => .next s

/-- How many barriers of a group a thread has issued; none if it is no member (R325). -/
def arrivals (t : Thread) (g : Nat) : Option Nat := (t.groups.find? (fun x => x.1 == g)).map (·.2)

/-- The thread-table entries that name a group. -/
def members (l : Launch) (g : Nat) : List Nat :=
  (List.range l.thrtab.length).filter (fun i => match l.thrtab[i]? with | some e => e.groups.elem g | none => false)

/-- Whether a member has issued its i-th barrier on a group, or has halted (R325). -/
def arrived (s : State) (l : Launch) (g i idx : Nat) : Bool :=
  l.halted.elem idx ||
  s.threads.any (fun x => x.2.lseq == l.lseq && x.2.idx == some idx &&
    (match arrivals x.2 g with | some n => decide (i ≤ n) | none => false))

def gbarDone (s : State) (lseq g i : Nat) : Bool :=
  match launchOf s lseq with
  | some l => (members l g).all (arrived s l g i)
  | none => true

def Thread.arrive (t : Thread) (g : Nat) : Thread :=
  { t with groups := t.groups.map (fun x => if x.1 = g then (x.1, x.2 + 1) else x) }

/-- GBAR (R325): the thread arrives, a release at scope 3, and waits for the others. -/
def execGbar (g : BitVec 8) (s : State) : Out :=
  instr [] s fun tid t =>
    let valid := match launchOf s t.lseq with | some l => listed l.groups g.toNat | none => false
    match arrivals t g.toNat with
    | none => .next (trap s tid t 0x84 t.pc (wordOf (.gbar g)))
    | some n =>
      if valid = false then .next (trap s tid t 0x84 t.pc (wordOf (.gbar g)))
      else
        let t := t.arrive g.toNat
        let s := setThread (showStores s tid 3) tid t
        if gbarDone s t.lseq g.toNat (n + 1) then done s tid t (.gbar g) else wait s tid t (.gbar g.toNat)

/-- GBAR_COMPLETE (R325). -/
def execGbarComplete (tid : Nat) (s : State) : Out :=
  match threadOf s tid with
  | some t =>
    match t.stat with
    | .waiting (.gbar g) =>
      if runs s t.lseq ∧ gbarDone s t.lseq g ((arrivals t g).getD 0) then .next (completeWait s tid 4#64) else .next s
    | _ => .next s
  | none => .next s

/-! ## Admission and start (R15 to R17, R77) -/

/-- N, the next multiple of 8 (R15). -/
def granted (n : Nat) : Nat := (n + 7) / 8 * 8

/-- The entries of a CC's pool (R16). -/
def poolSize : Nat := 512

def threadsOn (s : State) (p : Nat) : List (Nat × Thread) := s.threads.filter (fun t => t.2.plot == p)

def poolUsed (s : State) (p : Nat) : Nat := (threadsOn s p).foldl (fun n t => n + t.2.nreg) 0

/-- The slot that an admitted thread takes: the lowest free one, a choice of the model where R16 names none (log 81). -/
def freeSlot (s : State) (p : Nat) : Option Nat :=
  (List.range 8).find? (fun k => !(threadsOn s p).any (fun t => t.2.slot == k))

/-- A thread as it starts (R13, R17, R24): every register zero but its task arguments. The spec gives sys.TCMP no value
there, and the model starts it at 0, disabled (log 82). -/
def newThread (l : Launch) (p slot entry n : Nat) (super : Bool) : Thread :=
  { lseq := l.lseq, idx := none, task := none, plot := p, slot := slot, stat := .ready, pc := BitVec.ofNat 64 entry,
    regs := List.replicate n 0#64, preds := 0#8, tcmp := 0#64, intrap := false, pmode := false, mode := super,
    epc := 0#64, cause := 0, tval := 0#64, tvec := BitVec.ofNat 64 l.hdr.tvec, scratch := 0#64,
    pend := [0, 0, 0, 0], lstart := 0#64, lend := 0#64, lcount := 0#64, glseq := 0, handles := [], htags := [],
    pins := [], loads := [], groups := [] }

/-- Arguments go to g1 upward; one the thread has no register for is not delivered (R17, R162). -/
def deliver (regs : List Word) : Nat → List Word → List Word
  | _, [] => regs
  | i, a :: as => deliver (setNth regs i a) (i + 1) as

/-- A saved thread's records move from where they were kept with it to the event queue of its CC (R165), which has kept room for
them (`evqUsed`). -/
def moveRecords (s : State) (tid old new slot : Nat) : State :=
  let x := plotOf s old
  let mine := (x.evq.filter (fun r => r.tid == tid)).map (fun r => { r with slot := slot })
  let s := setPlot s old { x with evq := x.evq.filter (fun r => r.tid != tid) }
  let y := plotOf s new
  setPlot s new { y with evq := y.evq ++ mine }

/-- The thread that an admission starts, if its launch still holds what it names. -/
def admitThread (s : State) (p slot : Nat) (a : Adm) : Option (State × Option Nat × Thread) :=
  match launchOf s a.lseq with
  | none => none
  | some l =>
    match a.what with
    | .entry i =>
      match l.thrtab[i]? with
      | none => none
      | some e =>
        let t := newThread l p slot e.entry (granted e.nreq) l.hdr.super
        some (s, none, { t with idx := some i, groups := e.groups.map (·, 0),
                                stat := if e.groups.isEmpty then .ready else .gang })
    | .task q =>
      let tq := lookupD l.tasks q TaskQ.empty
      match tq.recs with
      | [] => none
      | r :: rest =>
        let t := newThread l p slot r.entry (granted r.nreq) false
        let t := { t with task := some (q, r.num), regs := deliver t.regs 1 r.args }
        let tq := { tq with recs := rest, running := tq.running ++ [r.num], sent := false }
        some (setLaunch s { l with tasks := insert l.tasks q tq }, none, t)
    | .restore tid =>
      match threadOf s tid with
      | none => none
      | some t => some (moveRecords s tid t.plot p slot, some tid, { t with plot := p, slot := slot })

/-- THREAD_ADMISSION (R16): the first thread waiting on a CC is admitted when a slot and its entries are free; none
overtakes it. -/
def execThreadAdmission (cc : Nat) (s : State) : Out :=
  let x := plotOf s cc
  match x.admq with
  | [] => .next s
  | a :: rest =>
    match freeSlot s cc with
    | none => .next s
    | some slot =>
      if poolSize < poolUsed s cc + granted a.nreq then .next s
      else
        let s := setPlot s cc { x with admq := rest }
        match admitThread s cc slot a with
        | none => .next s
        | some (s, some tid, t) => .next (setThread s tid t)
        | some (s, none, t) => .next { setThread s s.nextTid t with nextTid := s.nextTid + 1 }

/-- Whether a thread-table entry has been admitted: its thread stands on a CC or has halted. -/
def admitted (s : State) (l : Launch) (idx : Nat) : Bool :=
  l.halted.elem idx || s.threads.any (fun x => x.2.lseq == l.lseq && x.2.idx == some idx && x.2.onCC)

/-- GANG_START (R77): the admitted threads of a launch whose every group is complete start, once every plot of the
launch holds its active configuration. -/
def execGangStart (lseq : Nat) (s : State) : Out :=
  match launchOf s lseq with
  | none => .next s
  | some l =>
    if l.loaded = false then .next s
    else
      .next { s with threads := s.threads.map (fun x =>
        if x.2.lseq = lseq ∧ x.2.stat = .gang ∧ x.2.groups.all (fun g => (members l g.1).all (admitted s l))
        then (x.1, { x.2 with stat := .ready }) else x) }

end Sys2Proof.Machine
end

