-- ==== Sys2Proof/Machine/Score.lean ====
section
/-!
DEFINITION. Brock's units and suspicion scores (08_health_service.md R187 to R190): one numbering of the 1,056 units of
every kind, the score of each, and the lease that a rising score requests.
-/
namespace Sys2Proof.Machine

/-! ## Units (R187): plots, CCs, KLink lane groups, UCIe lane groups and memory channels in one numbering -/

def unitPlot (p : Nat) : Nat := p
def unitCC (p : Nat) : Nat := 128 + p
def unitKlink (g : Nat) : Nat := 256 + g
def unitUcie (g : Nat) : Nat := 352 + g
def unitChan (c : Nat) : Nat := 864 + c

/-- How many units there are (R197). -/
def unitCount : Nat := 1056

/-- UKIND of a unit (R187). -/
def unitKind (u : Nat) : Nat := if u < 128 then 0 else if u < 256 then 1 else if u < 352 then 2 else if u < 864 then 3 else 4

/-- The 32-bit identifier of a unit within its kind (R187). -/
def unitId (u : Nat) : Nat :=
  if u < 128 then u else if u < 256 then u - 128 else if u < 352 then u - 256 else if u < 864 then u - 352 else u - 864

/-- A plot and its CC share a site, and so one lease, under the plot's number (R187). -/
def leaseKey (u : Nat) : Nat := if 128 ≤ u ∧ u < 256 then u - 128 else u

def isRetired (s : State) (u : Nat) : Bool := s.brock.retired.elem u

/-! ## Lane groups and ports in service (R187, R192, R195, R202, R408) -/

/-- The four groups of a lane group's link or port. -/
def siblings (u : Nat) : List Nat := (List.range 4).map (fun g => u / 4 * 4 + g)

/-- Whether a lane group is in service. -/
def groupIn (s : State) (u : Nat) : Bool := !isRetired s u && !s.brock.withdrawn.elem u && !s.brock.far.elem u

/-- Groups of a unit's link or port in service. -/
def groupsIn (s : State) (u : Nat) : Nat := ((siblings u).filter (groupIn s)).length

/-- Whether a KLink port has a group in service. -/
def portIn (s : State) (port : Nat) : Bool := decide (0 < groupsIn s (unitKlink (4 * port)))

/-- The lowest-numbered in-service port that leads to a destination, on an I/O die first, then on the other (R202, R408). -/
def portFor (s : State) (io : Nat) (leads : Nat → Bool) : Option Nat :=
  let ports := fun (io : Nat) => (List.range 12).map (· + 12 * io)
  (ports io ++ ports (1 - io)).find? (fun p => portIn s p && leads p)

/-! ## Leases -/

def leaseOf (s : State) (u : Nat) : Option Lease := lookup s.brock.leases (leaseKey u)

def setBrock (s : State) (b : Brock) : State := { s with brock := b }

def setLease (s : State) (u : Nat) (l : Lease) : State :=
  setBrock s { s.brock with leases := insert s.brock.leases (leaseKey u) l }

def scoreOf (s : State) (u : Nat) : Nat := lookupD s.brock.scores u 0

def setScore (s : State) (u n : Nat) : State :=
  setBrock s { s.brock with scores := if n = 0 then remove s.brock.scores u else insert s.brock.scores u n }

/-- A lease as it is requested at tick `time` (R189, R190). -/
def newLease (u time : Nat) (immediate : Bool) : Lease :=
  { unit := u, st := .asked, askedAt := time, immediate := immediate, retire := [], window := 0,
    fails := 0, again := false }

/-- A lease requested: one already pending or active is not repeated (R189). A retired unit is leased no more. -/
def requestLease (s : State) (u : Nat) (immediate : Bool) : State :=
  if isRetired s u then s
  else match leaseOf s u with
    | some _ => s
    | none => setLease s u (newLease u s.time immediate)

/-- The lease of a unit whose score has reached 4,096: it will retire without a test (R189, R191). Under a lease whose patterns run
they alone decide (R194). -/
def requestRetire (s : State) (u : Nat) : State :=
  let s := requestLease s u true
  match leaseOf s u with
  | some l =>
    if l.st = .active ∧ l.retire = [] then s
    else setLease s u { l with unit := if l.retire = [] then u else l.unit, retire := addNat l.retire u }
  | none => s

/-- A score raised by `n`, saturating at 65,535, with what its thresholds ask (R188, R189). -/
def addScore (s : State) (u n : Nat) : State :=
  let old := scoreOf s u
  let new := Nat.min (old + n) 65535
  let s := setScore s u new
  let s := if old < 256 ∧ 256 ≤ new then requestLease s u true else s
  if old < 4096 ∧ 4096 ≤ new then requestRetire s u else s

end Sys2Proof.Machine
end

