-- ==== Sys2Proof/Machine/Cross.lean ====
section
/-!
DEFINITION. Tokens on their way (02 R38, R39; 03 R72, R73; 04 R105; 05 R137 to R139; 20 R398): edge ports and their
maps, arrival at an input port, FIFO places and the spill ring. A channel's tokens stand in three places, oldest first:
the FIFO, the spill ring, and the legs of the route.
-/
namespace Sys2Proof.Machine

/-! ## Edge ports (R137) -/

/-- The direction of a crossing between neighbouring plots: 0 E, 1 W, 2 N, 3 S. -/
def crossDir (src dst : Nat) : Nat :=
  let sx := 4 * (plotDie src % 2) + plotX src; let dx := 4 * (plotDie dst % 2) + plotX dst
  let sy := 8 * (plotDie src / 2) + plotY src; let dy := 8 * (plotDie dst / 2) + plotY dst
  if sx < dx then 0 else if dx < sx then 1 else if dy < sy then 2 else 3

/-- Rows in the map of one direction (R137). -/
def edgeRows : Nat := 16

/-- The row that a full map gives up: the one allocated least recently whose entry no token holds. -/
def edgeVictim (x d : Plot) (dir : Nat) : Option EdgeRow :=
  (x.edges.filter (fun r => r.dir == dir && (srfGet d (r.dtag / 16)).ref == 1)).foldl (fun b r =>
    match b with
    | some o => if r.age < o.age then some r else b
    | none => some r) none

/-- A new row for a source tag, bound to a common-range entry of the destination plot; the row is its holder. R137 does not say
how many edge ports a side of a plot has: the model keeps one map of 16 rows for all crossings of a plot in a direction (DESIGN
CHOICE, log 106). -/
def edgeBind (s : State) (src dst tag : Nat) (v : BitVec 32) : Option (State × Nat) :=
  let x := plotOf s src; let d := plotOf s dst; let dir := crossDir src dst
  let rows := x.edges.filter (·.dir == dir)
  let add := fun (x d : Plot) => (bindCommon d v).map fun (d, t) =>
    let x := { x with edges := x.edges ++ [{ dir := dir, tag := tag, dst := dst, dtag := t, age := x.ageCtr }], ageCtr := x.ageCtr + 1 }
    (setPlot (setPlot s src x) dst d, t)
  if rows.length < edgeRows ∧ (freeEntry d d.common (256 - d.common)).isSome then add x d
  else
    match edgeVictim x d dir with
    | none => none
    | some r => add { x with edges := x.edges.filter (· != r) } (d.unhold r.dtag)

/-- A tag taken from a plot into its neighbour: the destination's tag, with one holder more there. An error is the
cause of a failed read; `none` waits (R137). -/
def crossTag (s : State) (src dst tag : Nat) : Except Nat (Option (State × Nat)) :=
  if tag = 0 then .ok (some (s, 0))
  else
    let x := plotOf s src
    match x.edges.find? (fun r => r.dir == crossDir src dst && r.tag == tag && r.dst == dst) with
    | some r => if refFull (plotOf s dst) r.dtag then .ok none else .ok (some (addHolder s dst r.dtag, r.dtag))
    | none =>
      match readTag x tag with
      | .error c => .error c
      | .ok v => .ok ((edgeBind s src dst tag v).map fun (s, t) => (addHolder s dst t, t))

/-- A tag taken along the rest of a route: the end's tag held there; nothing is held in between. A failed read, and a
crossing that must wait, give none. -/
def crossRoute (s : State) (tag : Nat) : List Nat → Option (State × Nat)
  | a :: b :: r =>
    match crossTag s a b tag with
    | .ok (some (s, t)) =>
      match crossRoute s t (b :: r) with
      | some (s', u) => some (if r.isEmpty then s' else dropHolder s' b t, u)
      | none => none
    | _ => none
  | _ => some (s, tag)

/-! ## Records of the fabric (R167) -/

/-- A PE's record about a token of a channel. -/
def peInfo (s : State) (lseq plot n : Nat) (c : Option Nat) (port cause value seq : Nat) : FInfo :=
  { time := s.time, value := value, seq := seq, node := n, chan := c, plot := plot, srcNo := 2, unit := port,
    cause := cause, orig := 0, acc := if cause / 16 = 2 then 2 else 0, lseq := lseq }

/-- What a cause adds to a plot's suspicion (R139). -/
def scoreCause (s : State) (plot cause : Nat) : State := if cause = 0x61 then addScore s (unitPlot plot) 128 else s

/-! ## Moving along the route -/

/-- The stops whose oldest token may go on to the next stop, nearest the end first: one that a full elastic buffer follows
may not (R75, R200). -/
def crossingStops (s : State) (l : Launch) (chan : Nat) : List Nat :=
  let n := ((l.img (keyImg chan)).2.stopsOf (keyChan chan)).length
  ((List.range (n - 1)).reverse).filter (fun i => !((l.chanSt chan).legs.getD i []).isEmpty && stopRoom s l chan (i + 1))

/-- The oldest token at stop `i` of a channel's route goes on to the next: to a stop in the same plot as it is, into another
plot with the channel's number there and its tag rebound; none where it waits. `chan` is the channel's key. -/
def crossAt (s : State) (l : Launch) (chan i : Nat) : Option State :=
  let (v, p) := l.img (keyImg chan)
  let c := keyChan chan
  let stops := p.stopsOf c
  let legs := fullLegs (l.chanSt chan).legs stops.length
  match legs.getD i [] with
  | [] => none
  | t :: rest =>
    let a := stops.getD i 0; let b := stops.getD (i + 1) 0
    let out := setNth legs i rest
    let behind := i + 2 == stops.length && !(l.chanSt chan).ckpt.isEmpty
    let put := fun (s : State) (t : Token) => modLaunch s l.lseq fun l =>
      l.setChan chan { l.chanSt chan with legs := setNth out (i + 1) (out.getD (i + 1) [] ++ [t]) }
    if behind then none
    else if a = b then some (put s t)
    else
      match crossTag s a b t.stag with
      | .ok none => none
      | .ok (some (s, tag)) => some (dropHolder (put s { t with chan := numIn p c b, stag := tag }) a t.stag)
      | .error x =>
        if ringRoom s l (partIn v p a) then
          let s := modLaunch s l.lseq fun l => l.setChan chan { l.chanSt chan with legs := out }
          let f := peInfo s l.lseq a (v.chan c).dst (some c) 0 x 0 t.seq
          some (divert (scoreCause s a x) l.lseq (partIn v p a) .refused t a (.pe (64 * a + 63) 16) f)
        else none

/-- The oldest token that a freeze left in a checkpoint area enters the last stop of its channel's route, its tag bound there
anew; none while no entry is free (R137, R182, R185). -/
def leaveCkpt (s : State) (l : Launch) (chan : Nat) : Option State :=
  let p := (l.img (keyImg chan)).2
  let stops := p.stopsOf (keyChan chan)
  let st := l.chanSt chan
  match st.ckpt with
  | [] => none
  | (t, v) :: rest =>
    let b := stops.getLastD 0
    let legs := fullLegs st.legs stops.length
    let put := fun (s : State) (tag : Nat) =>
      modLaunch s l.lseq fun l => l.setChan chan { st with
        ckpt := rest
        legs := setNth legs (stops.length - 1) (legs.getLastD [] ++ [{ t with chan := numIn p (keyChan chan) b, stag := tag }]) }
    if t.stag = 0 then some (put s 0)
    else (bindCommon (plotOf s b) v).map fun x => put (setPlot s b x.1) x.2

/-- A token of a channel that can go on goes on to its next stop, the nearest to the end first; none where there is none. -/
def crossOnce (s : State) (l : Launch) (chan : Nat) : Option State :=
  (leaveCkpt s l chan).orElse fun _ => (crossingStops s l chan).findSome? (crossAt s l chan)

/-- The token at a stop goes on, or where it waits, or no stop is named, another of the channel. -/
def crossFrom (s : State) (l : Launch) (chan : Nat) : Option Nat → Option State
  | none => crossOnce s l chan
  | some i => (crossAt s l chan i).orElse fun _ => crossOnce s l chan

/-- Whether a channel leads to another module. -/
def isAway (l : Launch) (chan : Nat) : Bool :=
  let x := l.img (keyImg chan)
  x.2.plotOf (x.1.chan (keyChan chan)).dst == awayPlot

/-- Whether a channel comes in from another module. -/
def fromAway (l : Launch) (chan : Nat) : Bool :=
  let x := l.img (keyImg chan)
  x.2.plotOf (x.1.chan (keyChan chan)).src == awayPlot && !isAway l chan

/-- The KLink port to the module of a node on the I/O die that serves a node of this one, or on the other die (R202, R203). -/
def peerPort (s : State) (l : Launch) (g here there : Nat) : Option Nat :=
  let (v, p) := l.img g
  match l.partmap, vdOf s l.vd with
  | some m, some d =>
    portFor s (ioOf (p.plotOf here)) (Config.leadsToNode (d.nodeids.getD (m.getD (v.node there).part 0) 0))
  | _, _ => none

/-- The KLink port that carries a channel to another module (R202). -/
def awayPort (s : State) (l : Launch) (chan : Nat) : Option Nat :=
  let c := (l.img (keyImg chan)).1.chan (keyChan chan)
  peerPort s l (keyImg chan) c.src c.dst

/-- A step of a channel to another module (R203): a credit comes back, as a free bit says; or the oldest token leaves over
the channel's port, which needs one in service. What leaves is seen no more (log 43). -/
def crossAway (s : State) (l : Launch) (chan : Nat) : State :=
  let st := l.chanSt chan
  let back := decide (0 < st.sent) && Config.freeBit s.free
  let s := { s with free := s.free + 1 }
  if back then modLaunch s l.lseq fun l => l.setChan chan { st with sent := st.sent - 1 }
  else
    match st.legs, awayPort s l chan with
    | [t :: rest], some _ =>
      let a := (l.img (keyImg chan)).2.plotOf ((l.img (keyImg chan)).1.chan (keyChan chan)).src
      dropHolder (modLaunch s l.lseq fun l => l.setChan chan { st with legs := [rest], sent := st.sent + 1 }) a t.stag
    | _, _ => s

/-- A token of a kind from another module with the value of its tag, as the free numbers from `f` on say: what it is, that module
says. It has no reserved bits set, and a STAG of 1 where it is scaled, until its tag is bound here (R203; log 43). -/
def farToken (k : TKind) (f : Nat) : Token × BitVec 32 :=
  let t := { ctlToken k (Config.freeNat (f + 1) % 4) (Config.freeNat (f + 2)) (Config.freeBit (f + 3)) with
    stag := if k = .null then 0 else Config.freeNat (f + 4) % 2 }
  (if k = .data then { t with valid := BitVec.ofNat 16 (Config.freeNat (f + 5))
                              elems := (List.range 16).map (fun i => Config.freeElem (f + 6 + i)) } else t,
   BitVec.ofNat 32 (Config.freeNat (f + 22)))

/-- The numbers that one token takes. -/
def farTokenNumbers : Nat := 23

/-- The oldest token of a receive buffer enters its channel's last stop, its tag bound in the plot there, while the channel has room;
its place in the buffer is a credit that goes back (R203). None while it waits. -/
def leaveRecv (s : State) (l : Launch) (chan : Nat) : Option State :=
  let st := l.chanSt chan
  match st.recv with
  | [] => none
  | x :: rest =>
    if chanRoom s l chan st.moving then
      leaveCkpt s (l.setChan chan { st with ckpt := x :: st.ckpt, recv := rest }) chan
    else none

/-- A step of a channel from another module (R203): as a free bit says, a token arrives in its receive buffer of 64, over a port to
that module which is in service; or the oldest one there goes on. -/
def crossIn (s : State) (l : Launch) (chan : Nat) : State :=
  let st := l.chanSt chan
  let c := (l.img (keyImg chan)).1.chan (keyChan chan)
  let s1 := { s with free := s.free + 1 }
  if Config.freeBit s.free = false then (leaveRecv s1 l chan).getD s1
  else if decide (farCap ≤ st.recv.length) || (peerPort s l (keyImg chan) c.dst c.src).isNone then s1
  else modLaunch { s1 with free := s1.free + farTokenNumbers } l.lseq fun l =>
    l.setChan chan { st with recv := st.recv ++ [farToken (kindOf (Config.freeNat s1.free % 6)) s1.free] }

/-- EDGE_PORT_CROSSING (R72, R75, R137, R200, R203): a token goes on to the next stop of its route. Which of the tokens that may go
on does so first is not stated: a free number picks its stop, and where that token waits another goes. -/
def execEdgePortCrossing (lseq chan : Nat) (s : State) : Out :=
  match launchOf s lseq with
  | none => .next s
  | some l =>
    if l.runs = false then .next s
    else if isAway l chan then .next (crossAway s l chan)
    else if fromAway l chan then .next (crossIn s l chan)
    else
      let is := crossingStops s l chan
      let i := is[Config.freeNat s.free % is.length]?
      let s := { s with free := s.free + 1 }
      .next ((crossFrom s l chan i).getD s)

/-! ## The end of the route -/

/-- The check of R38. Where a token fails more than one of its three checks, the rule names no cause above another; the model
takes the reserved kind first, then bits [35:32], then the channel (log 85). -/
def tokenFault (q : Plane) (t : Token) : Option Nat :=
  match t.kind with
  | .reserved _ => some 0x40
  | _ => if t.rsv ≠ 0 then some 0x41 else if q.ports.any (fun x => x.2 == t.chan) then none else some 0x42

/-- The port of a plane that a channel number is mapped to. -/
def Plane.portOf (q : Plane) (c : Nat) : Nat := ((q.ports.find? (fun x => x.2 == c)).map (·.1)).getD 0

/-- A token reaches the input port of a PE (R38): it is enqueued, or refused and diverted; in a plot that no launch
holds, or that is under a test lease, it is discarded. None while the divert ring is full: it stays where it is (R176). -/
def reachPort (s : State) (lseq pe n c : Nat) (t : Token) : Option State :=
  let x := peOf s pe
  match tokenFault x.active t with
  | none => some (modPlane s pe fun q => q.setQueue (q.portOf t.chan) (q.queue (q.portOf t.chan) ++ [t]))
  | some cause =>
    match (plotOf s (pe / 64)).holder, launchOf s lseq with
    | some q, some l =>
      if q == lseq && (match leaseOf s (unitPlot (pe / 64)) with | some y => y.st != .active | none => true) then
        (if ringRoom s l (partOf l (pe / 64)) then
          some (divert s lseq (partOf l (pe / 64)) .refused t (pe / 64) (.pe pe 16)
            (peInfo s lseq (pe / 64) n (some c) (x.active.portOf t.chan) cause 0 t.seq))
        else none)
      else some (dropHolder s (pe / 64) t.stag)
    | _, _ => some (dropHolder s (pe / 64) t.stag)

/-- The oldest spilled token of a channel gone: its ring gives up its first segment once that has drained, and every
segment once the ring is empty (R105). -/
def popSpill (s : State) (vd : Nat) (c : ChanSt) : State × ChanSt :=
  let rest := c.spill.tail
  let gone := if rest.isEmpty then c.segs.length else (c.head + 1) / segSlots
  let c' := { c with spill := rest, segs := c.segs.drop gone, head := if rest.isEmpty then 0 else (c.head + 1) % segSlots }
  match vdOf s vd with
  | some d => ({ s with vds := insert s.vds vd { d with segs := d.segs.filter (fun g => !(c.segs.take gone).elem g.1) } }, c')
  | none => (s, c')

/-- The bytes of a token in its 128-byte slot, encrypted under the launch's slot (R105, R220). The spec gives a spilled token
no layout: the bytes are free, and the token is the model's own record of it (log 40). -/
def writeSpill (s : State) (l : Launch) (vd : VD) (seg slot : Nat) : State :=
  let s' := (spillAt s vd (vd.spillva + seg * 65536 + 128 * slot) 128).foldl (fun s x =>
    writeKeyed s (slotOf s l.kslot).engid x.1 x.2 (Config.freeNat s.free)) s
  { s' with free := s.free + 1 }

/-- A token appended to the ring of a channel, whose state is `d`, in a new segment where the last is full; none where the
device has no segment left (R105). -/
def spillTok (s : State) (l : Launch) (chan : Nat) (d : ChanSt) (t : Token) : Option State :=
  match vdOf s l.vd with
  | none => none
  | some x =>
    let at_ := d.head + d.spill.length
    let put := fun (s : State) (d : ChanSt) =>
      modLaunch (writeSpill s l x (d.segs.getD (at_ / segSlots) 0) (at_ % segSlots)) l.lseq fun l =>
        l.setChan chan { d with spill := d.spill ++ [t] }
    if at_ < segSlots * d.segs.length then some (put s d)
    else
      (freeSeg x).map fun g =>
        let k := slotOf s l.kslot
        put { s with vds := insert s.vds l.vd { x with segs := insert x.segs g (l.lseq, chan) }
                     slots := insert s.slots l.kslot { k with rings := (spillAt s x (x.spillva + g * 65536) 65536).foldl addRange k.rings } }
          { d with segs := d.segs ++ [g] }

/-- The end of a channel's route as the steps of its tokens see it: the state of the channel with its legs in full, the last
stop, what stands there, and whether the FIFO has a place. -/
def routeEnd (l : Launch) (chan : Nat) : ChanSt × Nat × List Token × Bool :=
  let (v, p) := l.img (keyImg chan)
  let st := l.chanSt chan
  let last := (p.stopsOf (keyChan chan)).length - 1
  let legs := fullLegs st.legs (last + 1)
  ({ st with legs := legs }, last, legs.getD last [], decide (st.fifo.length < (v.chan (keyChan chan)).depth - 4))

/-- The oldest token at a channel's last stop lands where there is room for it, its port queue or its FIFO; none where there is none
(R182). -/
def landOnce (s : State) (l : Launch) (chan : Nat) : Option State :=
  let (v, p) := l.img (keyImg chan)
  let c := keyChan chan
  let n := (v.chan c).dst
  let x := peOf s (p.peOf n)
  let (st, last, leg, fifoRoom) := routeEnd l chan
  let put := fun (d : ChanSt) => modLaunch s l.lseq fun l => l.setChan chan d
  match leg with
  | [] => none
  | t :: r =>
    let d := { st with legs := setNth st.legs last r }
    if isAway l chan || !st.spill.isEmpty then none
    else if st.fifo.isEmpty && x.active.img == keyImg chan && decide ((x.active.queue (v.dstPort c)).length < queueCap) then
      reachPort (put d) l.lseq (p.peOf n) n c t
    else if fifoRoom then some (put { d with fifo := st.fifo ++ [t] })
    else none

/-- TOKEN_ARRIVAL (R38, R73, R105, R176, R398): the oldest token of a channel moves on towards its port: from the FIFO, else
from the spill ring, else from the last stop, into the port queue while it has room, and otherwise into the FIFO. A
token of a plane that its PE does not yet have active waits, a SWAP at a PE that has swapped is consumed, and a token that
would be diverted waits while the divert ring is full. -/
def execTokenArrival (lseq chan : Nat) (s : State) : Out :=
  match launchOf s lseq with
  | none => .next s
  | some l =>
    let (v, p) := l.img (keyImg chan)
    let c := keyChan chan
    let n := (v.chan c).dst
    let pe := p.peOf n
    let x := peOf s pe
    let (st, last, leg, fifoRoom) := routeEnd l chan
    let here := x.active.img == keyImg chan
    let room := decide ((x.active.queue (v.dstPort c)).length < queueCap)
    let put := fun (s : State) (d : ChanSt) => modLaunch s lseq fun l => l.setChan chan d
    let arrive := fun (s' : State) (d : ChanSt) (t : Token) (fifo : Bool) =>
      if here && room then (reachPort (put s' d) lseq pe n c t).getD s
      else if !here && t.kind == .swap && x.swapped then put s' d
      else if fifo then put s' { d with fifo := [t] }
      else s
    if l.runs = false ∨ isAway l chan then .next s
    else
      match st.fifo, st.spill, leg with
      | t :: r, _, _ => .next (arrive s { st with fifo := r } t false)
      | [], t :: _, _ => let y := popSpill s l.vd st; .next (arrive y.1 y.2 t fifoRoom)
      | [], [], t :: r => .next (arrive s { st with legs := setNth st.legs last r } t fifoRoom)
      | [], [], [] => .next s

/-- FIFO_SPILL (R105): with the port queue and the FIFO full, the oldest token at the last stop goes into the FIFO's
free place if it has one and nothing has spilled, and otherwise to the spill ring, which takes a segment when it needs
one; a spilled token goes back to a free FIFO place first. -/
def execFifoSpill (lseq chan : Nat) (s : State) : Out :=
  match launchOf s lseq with
  | none => .next s
  | some l =>
    let (v, p) := l.img (keyImg chan)
    let c := keyChan chan
    let (st, last, leg, fifoRoom) := routeEnd l chan
    let put := fun (s : State) (d : ChanSt) => modLaunch s lseq fun l => l.setChan chan d
    if l.runs = false ∨ isAway l chan then .next s
    else
      match st.spill, leg with
      | t :: _, leg =>
        if fifoRoom then let y := popSpill s l.vd st; .next (put y.1 { y.2 with fifo := st.fifo ++ [t] })
        else
          match leg with
          | [] => .next s
          | u :: r => .next ((spillTok s l chan { st with legs := setNth st.legs last r } u).getD s)
      | [], u :: r =>
        let q := ((peOf s (p.peOf (v.chan c).dst)).planeOf (keyImg chan)).queue (v.dstPort c)
        let d := { st with legs := setNth st.legs last r }
        if q.length < queueCap then .next s
        else if fifoRoom then .next (put s { d with fifo := st.fifo ++ [u] })
        else .next ((spillTok s l chan d u).getD s)
      | [], [] => .next s

end Sys2Proof.Machine
end

