-- ==== Sys2Proof/Machine/MemInstr.lean ====
section
/-!
DEFINITION. Loads, stores, atomics, fences and prefetches (13_control_instructions.md R283 to R288). An access is
performed in the step of its instruction (log 12); streams, copies and fetches may see the bytes before a plain store until a
FENCE or a release of its thread, or until another agent has seen it (R21, R108, R382);
`State.lateLoads` leaves the result of a load, AMO or CAS outstanding until LOAD_RETURN (R19, R296; log 4).
-/
namespace Sys2Proof.Machine

/-- A checked result, met by its thread: a failure traps with nothing done (R271), a hold waits (R78, R82). -/
def withChecked {α : Type} (r : State × Checked α) (tid : Nat) (t : Thread) (k : State → α → Out) : Out :=
  match r with
  | (s, .bad cause tval) => .next (trap s tid t cause t.pc (BitVec.ofNat 64 tval))
  | (s, .hold w) => wait s tid t w
  | (s, .ok a) => k s a

/-- An operand block of a command, read as one access (R295, R303, R317). -/
def loadBlock (s : State) (c : Ctx) (ea n align : Nat) : State × Checked Nat := loadVA s c .read ea n align

/-- The thread with a loaded value: at once, or outstanding until LOAD_RETURN (R19). -/
def loaded (s : State) (t : Thread) (d : Reg) (v : Word) : Thread :=
  if s.lateLoads then { t with loads := t.loads ++ [(d.toNat, v)] } else t.setG d v

/-- A load of 2^SZ bytes at `ea`. -/
def load (i : Instr) (d : Reg) (sz : BitVec 2) (u : Bool) (ea : Word) (tid : Nat) (t : Thread) (s : State) : Out :=
  withChecked (loadVA s (threadCtx s t) .read ea.toNat (sizeOf sz) (sizeOf sz)) tid t fun s v =>
    match threadOf s tid with
    | some t => done s tid (loaded s t d (extend sz u v)) i
    | none => .next s

/-- A thread's store at a checked location: the bytes are written, and the store is remembered, with the bytes it replaced
as its writer's key shows them, until every agent sees it. One to a register of a window is seen at once. -/
def storeAt (s : State) (tid : Nat) (l : Loc) (n v : Nat) : State :=
  let t := writeLoc s l n v
  let note := fun (old : List Host.Cell) => { t with stores := s.stores ++ [storeOf tid l.memAt n old t.mem] }
  match l.reg with
  | .dram => note ((sectorsOf l.pa n).foldl (fun s sec => rekeySector s l.eng sec) s).mem
  | .window _ off => if off < scratchSize then note s.mem else t
  | _ => t

/-- A store of 2^SZ bytes at `ea`, after the release that its form makes at a scope (R109). A store through the register view
may reach the thread's own registers, so the thread is read again. -/
def store (i : Instr) (b : Reg) (sz : BitVec 2) (ea : Word) (rel : Nat) (tid : Nat) (t : Thread) (s : State) : Out :=
  let n := sizeOf sz
  withChecked (dataCheck s (threadCtx s t) .write ea.toNat n n) tid t fun s l =>
    let s := storeAt (showStores s tid rel) tid l n (storeVal (t.g b) n)
    match threadOf s tid with
    | some t => done s tid t i
    | none => .next s

/-- LD.sz (R283). -/
def execLd (d a : Reg) (sz : BitVec 2) (u : Bool) (o : BitVec 11) (s : State) : Out :=
  instr [d, a] s fun tid t => load (.ld d a sz u o) d sz u (ea11 t a o) tid t s

/-- ST.sz (R283). -/
def execSt (b a : Reg) (sz : BitVec 2) (o : BitVec 11) (s : State) : Out :=
  instr [b, a] s fun tid t => store (.st b a sz o) b sz (ea11 t a o) 0 tid t s

/-- LD.sz.ACQ.s (R284). -/
def execLdAcq (d a : Reg) (sz : BitVec 2) (u : Bool) (sc : BitVec 3) (o : BitVec 8) (s : State) : Out :=
  instr [d, a] s fun tid t => load (.ldAcq d a sz u sc o) d sz u (ea8 t a o) tid t s

/-- ST.sz.REL.s (R284). -/
def execStRel (b a : Reg) (sz : BitVec 2) (sc : BitVec 3) (o : BitVec 8) (s : State) : Out :=
  instr [b, a] s fun tid t => store (.stRel b a sz sc o) b sz (ea8 t a o) sc.toNat tid t s

/-- The release that an AMO or a CAS makes where ORD has its bit 1 (R109, R285). -/
def released (s : State) (tid : Nat) (o : BitVec 2) (sc : BitVec 3) : State :=
  if o.getLsbD 1 then showStores s tid sc.toNat else s

/-- A read, modify and write of n bytes as one step; `f` gives the new value, or none to write nothing (R285, R286).
D is set only when the write is made. `rel` is the release that comes before it. Every earlier store to the bytes is performed
by then (R108). -/
def atomicVA (s : State) (c : Ctx) (ea n : Nat) (rel : State → State) (f : Nat → Option Nat) : State × Checked Nat :=
  match dataCheck s c .atomic ea n n with
  | (s', .ok l) =>
    let s' := rel s'
    let old := readLoc s' l n
    match f old with
    | some v => (writeLoc (markLeaf s' l.leaf true) l n v, .ok old)
    | none => (performStores s' (fun e => e.meets l.memAt n), .ok old)
  | (s', .bad x t) => (s', .bad x t)
  | (s', .hold w) => (s', .hold w)

/-- AMO over n bytes (R285). -/
def amo (i : Instr) (op : AmoOp) (sz : BitVec 2) (d a b : Reg) (o : BitVec 2) (sc : BitVec 3) (s : State) : Out :=
  instr [d, a, b] s fun tid t =>
    let n := sizeOf sz
    withChecked (atomicVA s (threadCtx s t) (t.g a).toNat n (released · tid o sc) fun old => some (amoVal op n old (storeVal (t.g b) n)))
      tid t fun s old => done s tid (loaded s t d (extend sz false old)) i

def execAmoW (op : AmoOp) (d a b : Reg) (o : BitVec 2) (sc : BitVec 3) (s : State) : Out :=
  amo (.amoW op d a b o sc) op 2#2 d a b o sc s
def execAmoD (op : AmoOp) (d a b : Reg) (o : BitVec 2) (sc : BitVec 3) (s : State) : Out :=
  amo (.amoD op d a b o sc) op 3#2 d a b o sc s

/-- CAS over 4 or 8 bytes (R286). -/
def cas (i : Instr) (sz : BitVec 2) (d a b : Reg) (o : BitVec 2) (sc : BitVec 3) (s : State) : Out :=
  instr [d, a, b] s fun tid t =>
    let n := sizeOf sz
    withChecked (atomicVA s (threadCtx s t) (t.g a).toNat n (released · tid o sc) fun old =>
        if old = storeVal (t.g d) n then some (storeVal (t.g b) n) else none)
      tid t fun s old => done s tid (loaded s t d (extend sz false old)) i

def execCasW (d a b : Reg) (o : BitVec 2) (sc : BitVec 3) (s : State) : Out := cas (.casW d a b o sc) 2#2 d a b o sc s
def execCasD (d a b : Reg) (o : BitVec 2) (sc : BitVec 3) (s : State) : Out := cas (.casD d a b o sc) 3#2 d a b o sc s

/-- The pair value of CAS16: the lower-numbered register holds the lower-addressed bytes (R286). -/
def pairVal (t : Thread) (r : Reg) : Nat := (t.g r).toNat + 2 ^ 64 * (t.g (regUp r 1)).toNat

/-- CAS16 (R286). -/
def execCas16 (d a b : Reg) (o : BitVec 2) (sc : BitVec 3) (s : State) : Out :=
  instr [d, a, b] s fun tid t =>
    withChecked (atomicVA s (threadCtx s t) (t.g a).toNat 16 (released · tid o sc) fun old =>
        if old = pairVal t d then some (pairVal t b) else none)
      tid t fun s old =>
        done s tid (loaded s (loaded s t d (BitVec.ofNat 64 old)) (regUp d 1) (BitVec.ofNat 64 (old / 2 ^ 64)))
          (.cas16 d a b o sc)

/-- FENCE.s (R287): every earlier store of the thread is visible within s. -/
def execFence (sc : BitVec 3) (s : State) : Out := instr [] s fun tid t => done (showStores s tid sc.toNat) tid t (.fence sc)

/-- PREF.DC and PREF.L2 (R288): no architectural effect. -/
def execPrefDc (a : Reg) (i : BitVec 14) (s : State) : Out := instr [a] s fun tid t => done s tid t (.prefDc a i)
def execPrefL2 (a : Reg) (i : BitVec 14) (s : State) : Out := instr [a] s fun tid t => done s tid t (.prefL2 a i)

end Sys2Proof.Machine
end

