-- ==== Sys2Proof/Machine/Srec.lean ====
section
/-!
DEFINITION. Stream pattern records (04_memory_levels.md R97 to R102, 05 R123 to R127, 15 R352): reading one, its checks
against a node and its channel, and the positions, tokens and addresses it describes.
-/
namespace Sys2Proof.Machine

/-- The fields of the 64 bytes of a record at an address (R97). -/
def parseRec (addr r : Nat) : SRec :=
  { addr := addr, base := fld r 63 0, scale := fld r 127 64,
    counts := (List.range 5).map (fun i => fld r (159 + 32 * i) (128 + 32 * i)),
    fmt := fld r 291 288, skind := fld r 293 292, chase := fld r 294 294 == 1, rm := fld r 297 295,
    strides := (List.range 5).map (fun i => signedOf 32 (fld r (351 + 32 * i) (320 + 32 * i))) }

def SRec.count (r : SRec) (i : Nat) : Nat := r.counts.getD i 0
def SRec.stride (r : SRec) (i : Nat) : Int := r.strides.getD i 0

/-- Element size in bytes, 4-bit formats rounded up (R98, R152). -/
def SRec.size (r : SRec) : Nat := fmtBytes r.fmt

/-- A 4-bit format (R98). -/
def SRec.nibble (r : SRec) : Bool := fmtNibbles r.fmt == 1

/-- Elements of the record (R99); a chase has at most COUNT0 nodes (R102). -/
def SRec.total (r : SRec) : Nat := r.counts.foldl (· * ·) 1

def SRec.empty (r : SRec) : Bool := r.counts.any (· == 0)

/-- The byte total of R152. -/
def SRec.bytes (r : SRec) : Nat := if r.empty then 0 else r.total * r.size

/-- The channel class that a format suits (R98): 0 W40, 1 I40, X40 either. -/
def fmtClassOk (f cls : Nat) : Bool :=
  if f = 11 then cls == 0 || cls == 1 else if f ≤ 5 then cls == 0 else f ≤ 10 && cls == 1

/-- Elements of a scale block along dimension 0 (R123). -/
def blockWidth (skind : Nat) : Nat := if skind = 1 then 32 else 128

/-- Formats that a block scale suits (R123). -/
def skindOk (skind f : Nat) : Bool :=
  match skind with
  | 0 => true
  | 1 => f == 3 || f == 4 || f == 5
  | _ => f == 3 || f == 4 || f == 5 || f == 8 || f == 9

/-- The width code of R352 that a format needs. -/
def widthCode (f : Nat) : Nat := if f = 11 then 4 else if fmtNibbles f = 8 then 2 else if fmtNibbles f = 4 then 1 else 0

/-- The checks of R100, R102, R123 and R352: `raw` is the record, `src` says the port is a source. -/
def recOk (raw : Nat) (r : SRec) (h cls srfn : Nat) : Bool :=
  let src := isSource h
  let one := fun i => decide (r.count i ≤ 1)
  let mult := fun (x : Int) => x % (r.size : Int) == 0
  fld raw 63 56 == 0 && fld raw 319 298 == 0 && fld raw 511 480 == 0 && decide (r.fmt ≤ 11) &&
  (!src || r.rm == 0) && decide (r.rm ≤ 4) && (r.rm != 4 || r.fmt == 1 || r.fmt == 3 || r.fmt == 4) &&
  mult r.base && (List.range 5).all (fun i => one i || mult (r.stride i)) &&
  (!r.nibble || (r.stride 0 == 0 && r.count 0 % 2 == 0)) &&
  fmtClassOk r.fmt cls && skindOk r.skind r.fmt && (r.skind == 0 || src) &&
  (r.skind != 0 || r.scale == 0) && (decide (r.skind ≤ 1) || r.scale % 4 == 0) &&
  (r.skind == 0 || r.count 0 % blockWidth r.skind == 0) &&
  (r.skind != 3 || (r.count 1 % 128 == 0 && decide (r.count 0 / 128 ≤ srfn))) &&
  (!r.chase || (src && r.skind == 0 && (List.range 4).all (fun i => r.count (i + 1) == 1))) &&
  widthCode r.fmt == sMod (hStage h 6)

/-! ## Positions (R99, R124) -/

/-- The five indices of a position in generation order, dimension 0 first. -/
def SRec.idx (r : SRec) (pos : Nat) : List Nat :=
  let c := fun i => Nat.max 1 (r.count i)
  let i0 := pos % c 0; let p := pos / c 0
  let i1 := p % c 1; let p := p / c 1
  let i2 := p % c 2; let p := p / c 2
  [i0, i1, i2, p % c 3, p / c 3]

/-- The address of a position's element, modulo 2^56 (R99). -/
def SRec.addrOf (r : SRec) (pos : Nat) : Nat :=
  let ix := r.idx pos
  let i := fun k => (ix.getD k 0 : Int)
  let d0 : Int := if r.nibble then i 0 / 2 else i 0 * r.stride 0
  (((r.base : Int) + d0 + i 1 * r.stride 1 + i 2 * r.stride 2 + i 3 * r.stride 3 + i 4 * r.stride 4) % 2 ^ 56).toNat

/-- The number of a position's scale block (R124). -/
def SRec.blockOf (r : SRec) (pos : Nat) : Nat :=
  let ix := r.idx pos
  let i := fun k => ix.getD k 0
  let b := blockWidth r.skind
  if r.skind = 3 then
    i 0 / 128 + r.count 0 / 128 * (i 1 / 128 + r.count 1 / 128 * (i 2 + r.count 2 * (i 3 + r.count 3 * i 4)))
  else i 0 / b + r.count 0 / b * (i 1 + r.count 1 * (i 2 + r.count 2 * (i 3 + r.count 3 * i 4)))

/-- Bytes of an element of the scale array (R123). -/
def scaleBytes (skind : Nat) : Nat := if skind = 1 then 1 else 4

/-- Positions in one stretch of dimension 0 that no token crosses: a block, or the run (R99, R125). -/
def SRec.stretch (r : SRec) : Nat := if r.skind = 0 then Nat.max 1 (r.count 0) else blockWidth r.skind

/-- Where token `k` begins and how many positions it covers, with `n` positions to a full token (R99). -/
def SRec.tokenAt (r : SRec) (n k : Nat) : Nat × Nat :=
  let per := (r.stretch + n - 1) / n
  let start := k / per * r.stretch + k % per * n
  (start, Nat.min n (r.stretch - k % per * n))

/-- DATA tokens of the record (R99). -/
def SRec.tokens (r : SRec) (n : Nat) : Nat :=
  if r.empty then 0 else r.total / r.stretch * ((r.stretch + n - 1) / n)

/-- The last position of a scale block's stretch in generation order: V128 and MX blocks are one stretch; a T128 block
ends with its last row (R125). -/
def SRec.blockEnds (r : SRec) (pos : Nat) : Bool :=
  let ix := r.idx pos
  (ix.getD 0 0 + 1) % blockWidth r.skind == 0 && (r.skind != 3 || (ix.getD 1 0 + 1) % 128 == 0)

end Sys2Proof.Machine
end

