-- ==== Sys2Proof/Machine/Engine.lean ====
section
/-!
DEFINITION. Commands that hand out work (14_engine_and_stream_commands.md R298 to R317; 06 R144 to R164): their checks,
their issue, tasks and posted events. Issue is one step: the total is added to the counter as the command enters its
queue; a command whose counter or queue has no room waits with its checks passed (R299).
-/
namespace Sys2Proof.Machine

/-- Largest counter value (R153). -/
def pendMax : Nat := 2 ^ 40 - 1

/-! ## Ports (R302) -/

def Launch.port (l : Launch) (n : Nat) : Port := lookupD l.ports n Port.empty
def Launch.setPort (l : Launch) (n : Nat) (p : Port) : Launch := { l with ports := insert l.ports n p }

/-- A binding that becomes active: its stream starts from nothing (R302). -/
def startBinding (b : Binding) (poisoned : List Poison) : Port :=
  { Port.empty with
    active := some b
    poisoned := poisoned
    chaseAt := match b with | .stream r .. => if r.chase then some r.base else none | _ => none }

/-- A binding appended to a port (R302). -/
def Port.bind (p : Port) (b : Binding) : Port :=
  if p.active.isNone then startBinding b p.poisoned else { p with waiting := some b }

/-- Whether a port holds a binding of the handle form, or of the stream form (R305). -/
def isHandleB : Binding → Bool
  | .handle .. => true
  | _ => false

def Port.hasForm (p : Port) (handle : Bool) : Bool :=
  (p.active.toList ++ p.waiting.toList).any (fun b => isHandleB b == handle)

/-! ## Issue (R299) -/

/-- Commands a copy or collective queue holds (R144, R164), and records a task queue holds (R161). -/
def engineQueueCap : Nat := 64
def taskQueueCap : Nat := 4096

def pendRoom (t : Thread) (ctr total : Nat) : Bool := decide (t.pend.getD ctr 0 + total ≤ pendMax)

/-- Whether a record for a slot of a CC can enter at once: its queue has room, or no thread of the launch is there. -/
def eventRoom (s : State) (lseq plot slot : Nat) : Bool :=
  match threadAt s plot slot with
  | some (_, t) =>
    if t.lseq = lseq then (plotOf s plot).evHeld.isEmpty && decide (evqUsed s t < evqCap) else true
  | none => true

/-- Whether a command that has passed its checks may issue now. -/
def canIssue (s : State) (t : Thread) (op : Issue) : Bool :=
  match launchOf s t.lseq with
  | none => false
  | some l =>
    match op with
    | .sbind n _ ctr total => pendRoom t ctr total && (l.port n).waiting.isNone
    | .hbind n _ _ _ => (l.port n).waiting.isNone
    | .copy k ctr total _ => pendRoom t ctr total && decide ((lookupD l.copyQ k []).length < engineQueueCap)
    | .fence c _ ks => ks.all (fun k => if c then decide ((lookupD l.collQ k []).length < engineQueueCap)
                                     else decide ((lookupD l.copyQ k []).length < engineQueueCap))
    | .coll k ctr total _ => pendRoom t ctr total && decide ((lookupD l.collQ k []).length < engineQueueCap)
    | .postc q _ => decide ((lookupD l.tasks q TaskQ.empty).recs.length < taskQueueCap)
    | .evpost p slot _ => eventRoom s t.lseq p slot

/-- The key of the occ-th collective of a COMMID on a device (R317). -/
def collKey (vd comm occ : Nat) : Nat := (occ * 2 ^ 64 + comm) * 16 + vd

def Coll.sameFields (c : Coll) (r : CollReq) : Bool :=
  c.op == r.op && c.red == r.red && c.fmt == r.fmt && c.sc == r.sc && c.n == r.n && c.len == r.len && c.root == r.root

/-- The collective of a COLL of launch `lseq`, counted from `occ`: the first that has no part of its rank yet, since a part of an
earlier launch is not its own, and was not abandoned before the launch (log 95); `fuel` is at least the number of collectives. -/
def freeOcc (s : State) (vd comm rank lseq : Nat) : Nat → Nat → Nat
  | 0, occ => occ
  | fuel + 1, occ =>
    match lookup s.colls (collKey vd comm occ) with
    | some c =>
      if c.parts.any (fun p => p.rank == rank) || (c.abandoned && decide (c.upto < lseq)) then freeOcc s vd comm rank lseq fuel (occ + 1)
      else occ
    | none => occ

/-- A participant joins its collective; fields that differ are noted (R317). -/
def joinColl (s : State) (key : Nat) (occ : Nat) (r : CollReq) : State :=
  match lookup s.colls key with
  | some c =>
    { s with colls := insert s.colls key { c with parts := c.parts ++ [r.part], bad := c.bad || !c.sameFields r } }
  | none =>
    let c : Coll :=
        { vd := r.part.vd, comm := r.comm, op := r.op, red := r.red, fmt := r.fmt, sc := r.sc, n := r.n, len := r.len,
          root := r.root, occ := occ, parts := [r.part], started := false, partials := [], ended := [], flags := 0, bad := false, abandoned := false, upto := 0, uncorr := false,
          pages := [], retryAt := none, retryNow := false }
    { s with colls := insert s.colls key c }

/-- A fence of the collective queues with nothing left before it in any queue that it joins: it stands at the head of each, and
no record of the queue waits to be posted (R155, R313). -/
def collFence (s : State) (l : Launch) : Option CollEnt :=
  l.collQ.findSome? (fun q => match q.2.head? with
    | some (.fence id p) =>
      let f := CollEnt.fence id p
      if l.collQ.all (fun r => !r.2.elem f || (r.2.head? == some f && !eventHeldAt s l.lseq (.collQ (r.1 / 16) (r.1 % 16)))) then some f
      else none
    | _ => none)

/-- Fences that have nothing left before them pass (R313). -/
def passCollFences (s : State) (l : Launch) : Nat → Launch
  | 0 => l
  | n + 1 => match collFence s l with
    | some f => passCollFences s { l with collQ := l.collQ.map (fun q => (q.1, q.2.filter (fun e => e != f))) } n
    | none => l

def tidyColls (s : State) (lseq : Nat) : State :=
  match launchOf s lseq with
  | some l => setLaunch s (passCollFences s l (l.collQ.foldl (fun n q => n + q.2.length) 0))
  | none => s

/-- The release that an issue makes (R209, R314, R316). -/
def Issue.releases : Issue → Nat
  | .postc .. | .evpost .. => 3
  | .coll .. => 5
  | _ => 0

/-- The effect of an issue on the machine. -/
def doIssue (s : State) (tid : Nat) (t : Thread) (op : Issue) : State :=
  let s := showStores s tid op.releases
  match launchOf s t.lseq with
  | none => s
  | some l =>
    match op with
    | .sbind n b ctr total =>
      let b := match b with
        | .stream r tid p sl c u _ tot => Binding.stream r tid p sl c u l.pkeys tot
        | b => b
      setThread (setLaunch s (l.setPort n ((l.port n).bind b))) tid (addPend t ctr total)
    | .hbind n h hd b =>
      setThread (setLaunch s (l.setPort n ((l.port n).bind b))) tid { t with handles := insert t.handles h hd }
    | .copy k ctr total e =>
      let e := match e with | .op j => CopyEnt.op { j with pkeys := l.pkeys } | e => e
      setThread (setLaunch s { l with copyQ := insert l.copyQ k (lookupD l.copyQ k [] ++ [e]) }) tid (addPend t ctr total)
    | .fence c p ks =>
      let id := l.fences
      let l := { l with fences := id + 1 }
      if c then
        tidyColls (setLaunch s { l with collQ := ks.foldl (fun m k => insert m k (lookupD m k [] ++ [CollEnt.fence id p])) l.collQ }) l.lseq
      else setLaunch s { l with copyQ := ks.foldl (fun m k => insert m k (lookupD m k [] ++ [CopyEnt.fence id p])) l.copyQ }
    | .coll k ctr total r =>
      let ck := r.comm * 1024 + r.part.rank
      let occ := freeOcc s l.vd r.comm r.part.rank l.lseq s.colls.length (lookupD l.colls ck 0)
      let key := collKey l.vd r.comm occ
      let j : CollJob := { coll := key, rank := r.part.rank, total := total, tid := tid, ctr := ctr, plot := r.plot,
                           slot := r.slot, user := r.user }
      let s := setLaunch s { l with colls := insert l.colls ck (occ + 1)
                                    collQ := insert l.collQ k (lookupD l.collQ k [] ++ [CollEnt.op j]) }
      setThread (joinColl s key occ r) tid (addPend t ctr total)
    | .postc q r =>
      let tq := lookupD l.tasks q TaskQ.empty
      setLaunch s { l with tasks := insert l.tasks q { tq with recs := tq.recs ++ [{ r with num := tq.next }], next := tq.next + 1 } }
    | .evpost p slot user =>
      post s { vd := l.vd, lseq := t.lseq, plot := p, slot := slot, kind := 1, status := 0, cause := 0, queue := 0,
               user := user, count := 0, toHost := false, tid := none, src := none, left := none, flow := [] }

/-- A command whose checks have passed: issued at once, or waiting with its operands read (R299). -/
def issue (s : State) (tid : Nat) (t : Thread) (op : Issue) (i : Instr) : Out :=
  if canIssue s t op then .next (completeWait (doIssue s tid t op) tid (lenOf i)) else wait s tid t (.cmd op (lenOf i))

/-- COMMAND_ISSUE (R299): a command that waited for its counter or queue is issued. -/
def execCommandIssue (tid : Nat) (s : State) : Out :=
  match threadOf s tid with
  | some t =>
    match t.stat with
    | .waiting (.cmd op len) =>
      if runs s t.lseq ∧ canIssue s t op then .next (completeWait (doIssue s tid t op) tid len) else .next s
    | _ => .next s
  | none => .next s

/-- A trap of a command with the first word in TVAL (R298). -/
def cmdTrap (s : State) (tid : Nat) (t : Thread) (cause : Nat) (i : Instr) : Out :=
  .next (trap s tid t cause t.pc (wordOf i))

/-- A command of a thread whose launch exists. -/
def command (regs : List Reg) (s : State) (k : Nat → Thread → Launch → Out) : Out :=
  instr regs s fun tid t =>
    match launchOf s t.lseq with
    | some l => k tid t l
    | none => .next s

/-! ## SBIND (R303, R305) -/

/-- The class of the channel that a port's format is checked against (R303). -/
def portClass (v : Variant) (n : Node) : Nat :=
  (v.chan (if isSource n.hrec then n.outA else n.ports.getD (hLow n.hrec) noChan)).cls

/-- SBIND in stream form (R303). -/
def execSbind (ctr : BitVec 2) (port : BitVec 13) (a u : Reg) (s : State) : Out :=
  command [a, u] s fun tid t l =>
    let i := Instr.sbind ctr port a u
    let bad := fun (s : State) => Host.Outcome.next (trap s tid t 0x2A t.pc (t.g a))
    if l.swap.isSome then wait s tid t .swap
    else if 0x1000 ≤ port.toNat ∨ l.variant.nodes.length ≤ port.toNat then bad s
    else
      let n := l.variant.node port.toNat
      if isPort n.hrec = false ∨ (l.port port.toNat).hasForm true then bad s
      else
        withChecked (loadBlock s (threadCtx s t) (t.g a).toNat 64 64) tid t fun s raw =>
          let r := parseRec (t.g a).toNat raw
          if recOk raw r n.hrec (portClass l.variant n) n.srfn = false ∨ r.chase ≠ isChase n.hrec ∨ pendMax < r.bytes then
            bad s
          else
            issue s tid t (.sbind port.toNat (.stream r tid t.plot t.slot ctr.toNat (t.g u) 0#64 r.bytes) ctr.toNat r.bytes) i

/-- Whether a handle's stream has not ended (R305). -/
def handleBusy (t : Thread) (h : Nat) : Bool :=
  match lookup t.handles h with
  | some x => x.div.isSome || !x.eos
  | none => false

def newHandle (out : Bool) (base log2n node : Nat) (div : Option Nat) (user : Word) : Handle :=
  { dirOut := out, base := base, log2n := log2n, head := 0, tail := 0, eos := false, eosAt := false, tags := [],
    div := div, node := node, user := user }

/-- The first address of a ring that lies in a plot's FIFO pages, if any (R305). -/
def ringInFifo (s : State) (p base n : Nat) : Option Nat :=
  if inFifo s p base n then some (Nat.max base (scratchSize - 4096 * fifoPages s p)) else none

/-- SBIND of a divert port (R305, R176): entries that no handle saw are dropped first (R177). -/
def bindDivert (h : Nat) (q log2n : Nat) (a u : Reg) (i : Instr) (s : State) (tid : Nat) (t : Thread) (l : Launch) : Out :=
  if l.variant.parts.length ≤ q ∨ handleBusy t h ∨ t.g a ≠ 0#64 ∨ log2n ≠ 7 ∨ (l.hnode q).bound.isSome then
    cmdTrap s tid t 0x83 i
  else
    let s := handlerNodeWork s l.lseq q
    let s := modLaunch s l.lseq fun l => l.setHnode q { l.hnode q with bound := some (tid, h), wrote := 0 }
    .next (completeWait (setThread s tid { t with handles := insert t.handles h (newHandle false ringBase log2n 0 (some q) (t.g u)) })
      tid (lenOf i))

/-- SBIND in handle form (R305). -/
def execSbindHandle (h : BitVec 4) (port : BitVec 13) (a : Reg) (log2n : BitVec 4) (u : Reg) (s : State) : Out :=
  command [a, u] s fun tid t l =>
    let i := Instr.sbindHandle h port a log2n u
    let p := port.toNat
    let n := l.variant.node p
    let base := (t.g a).toNat
    let size := 128 * 2 ^ log2n.toNat
    if l.swap.isSome then wait s tid t .swap
    else if 0x1000 ≤ p then bindDivert h.toNat (p - 0x1000) log2n.toNat a u i s tid t l
    else if l.variant.nodes.length ≤ p ∨ (isLoads n.hrec = false ∧ isStores n.hrec = false) ∨ handleBusy t h.toNat ∨
        base % 128 ≠ 0 ∨ scratchSize < base + size then cmdTrap s tid t 0x83 i
    else
      match ringInFifo s t.plot base size with
      | some x => .next (trap s tid t 0x25 t.pc (BitVec.ofNat 64 x))
      | none =>
        if (l.port p).hasForm false then .next (trap s tid t 0x2A t.pc (t.g a))
        else
          issue s tid t (.hbind p h.toNat (newHandle (isLoads n.hrec) base log2n.toNat p none (t.g u))
            (.handle tid h.toNat t.plot t.slot (t.g u))) i

/-! ## Copies (R310 to R313) -/

/-- Key of queue `q` on the copy engine of a plot's die (R144). -/
def copyKey (plot q : Nat) : Nat := plot / 32 * 16 + q

def collQKey (plot q : Nat) : Nat := ioOf plot * 16 + q

def newJob (op : CopyOp) (total ctr tid : Nat) (t : Thread) (user : Word) : CopyEnt :=
  .op { op := op, total := total, pkeys := 0#64, tid := tid, ctr := ctr, plot := t.plot, slot := t.slot, user := user,
        pos := 0, part := 0, uncorr := false, snap := [], olds := [], pages := [], held := false, retryAt := 0, retryNow := false, waitLoad := false }

/-- CPY (R310). -/
def execCpy (ctr : BitVec 2) (q : BitVec 4) (d a n u : Reg) (s : State) : Out :=
  command [d, a, n, u] s fun tid t _ =>
    let i := Instr.cpy ctr q d a n u
    let len := (t.g n).toNat
    if len = 0 ∨ pendMax < len then cmdTrap s tid t 0x80 i
    else
      issue s tid t (.copy (copyKey t.plot q.toNat) ctr.toNat len
        (newJob (.linear (t.g d).toNat (t.g a).toNat len) len ctr.toNat tid t (t.g u))) i

/-! ### Tile descriptors (R147) -/

def tdAddr (d : BitVec 512) : Nat := fld d.toNat 55 0
def tdRows (d : BitVec 512) : Nat := fld d.toNat 79 64 + 1
def tdCols (d : BitVec 512) : Nat := fld d.toNat 95 80 + 1
def tdStride (d : BitVec 512) : Int := signedOf 32 (fld d.toNat 127 96)
def tdFmt (d : BitVec 512) : Nat := fld d.toNat 131 128
def tdSkind (d : BitVec 512) : Nat := fld d.toNat 133 132
def tdSpace (d : BitVec 512) : Bool := fld d.toNat 134 134 == 1
def tdV (d : BitVec 512) : Bool := fld d.toNat 135 135 == 1
def tdScale (d : BitVec 512) : Nat := fld d.toNat 191 136

/-- The plot and descriptor that a descriptor operand names; none where it is malformed (R311). -/
def tileOperand (s : State) (l : Launch) (x : Word) : Option (Nat × BitVec 512) :=
  if x.toNat / 2 ^ 21 ≠ 0 then none
  else
    match l.place.plots[fld x.toNat 20 5]? with
    | some p => some (p, lookupD (plotOf s p).tiles (fld x.toNat 4 0) 0#512)
    | none => none

/-- The checks of CPY.T (R311): the two descriptors with their plots, or the cause. -/
def tileChecks (s : State) (l : Launch) (d a : Word) : Except Nat (Nat × BitVec 512 × Nat × BitVec 512) :=
  match tileOperand s l d, tileOperand s l a with
  | some (pd, dd), some (ps, ds) =>
    let bad := fun x => tdSkind x == 1 || tdSkind x == 2
    if tdV dd = false ∨ tdV ds = false ∨ bad dd ∨ bad ds ∨ tdRows dd ≠ tdRows ds ∨ tdCols dd ≠ tdCols ds then .error 0x81
    else .ok (pd, dd, ps, ds)
  | _, _ => .error 0x80

/-- CPY.T (R311). -/
def execCpyT (ctr : BitVec 2) (q : BitVec 4) (d a u : Reg) (s : State) : Out :=
  command [d, a, u] s fun tid t l =>
    let i := Instr.cpyT ctr q d a u
    match tileChecks s l (t.g d) (t.g a) with
    | .error c => cmdTrap s tid t c i
    | .ok (pd, dd, ps, ds) =>
      let total := tdRows dd * tdCols dd
      issue s tid t (.copy (copyKey t.plot q.toNat) ctr.toNat total
        (newJob (.tile dd ds pd ps none) total ctr.toNat tid t (t.g u))) i

/-- CPYM (R312): the checks of CPY.T, then those of the command word of R149. -/
def execCpym (ctr : BitVec 2) (q : BitVec 4) (d a c u : Reg) (s : State) : Out :=
  command [d, a, c, u] s fun tid t l =>
    let i := Instr.cpym ctr q d a c u
    match tileChecks s l (t.g d) (t.g a) with
    | .error x => cmdTrap s tid t x i
    | .ok (pd, dd, ps, ds) =>
      let m := (t.g c).toNat
      if fld m 31 8 ≠ 0 ∨ fld m 2 0 ≠ 1 ∨ fld m 7 3 ≠ fld (t.g d).toNat 4 0 then cmdTrap s tid t 0x80 i
      else if tdSpace dd = false then cmdTrap s tid t 0x81 i
      else
        let total := tdRows dd * tdCols dd
        issue s tid t (.copy (copyKey t.plot q.toNat) ctr.toNat total
          (newJob (.tile dd ds pd ps (some (fld m 63 32))) total ctr.toNat tid t (t.g u))) i

/-- Queues that a mask names. -/
def maskBits (m n : Nat) : List Nat := (List.range n).filter (fun q => m / 2 ^ q % 2 == 1)

/-- QFENCE (R313). -/
def execQfence (mask : BitVec 16) (s : State) : Out :=
  command [] s fun tid t _ =>
    issue s tid t (.fence false t.plot ((maskBits mask.toNat 16).map (copyKey t.plot))) (.qfence mask)

/-- QFENCE.COLL (R313). -/
def execQfenceColl (mask : BitVec 16) (s : State) : Out :=
  command [] s fun tid t _ =>
    issue s tid t (.fence true t.plot ((maskBits mask.toNat 16).map (collQKey t.plot))) (.qfenceColl mask)

/-! ## Tasks and posted events (R314 to R316, R161 to R163) -/

/-- A task record's fields (R161); none where it is malformed. -/
def parseTask (r : Nat) : Option Task :=
  let entry := fld r 63 0; let nreq := fld r 135 128; let narg := fld r 151 144
  if entry % 4 ≠ 0 ∨ 64 < nreq ∨ 5 < narg ∨ fld r 143 137 ≠ 0 ∨ fld r 191 152 ≠ 0 then none
  else some { num := 0, entry := entry, hash := fld r 127 64, nreq := nreq, barrier := fld r 136 136 = 1,
              args := (List.range narg).map (fun i => BitVec.ofNat 64 (fld r (255 + 64 * i) (192 + 64 * i))) }

/-- POSTC (R314). -/
def execPostc (q : BitVec 4) (a : Reg) (s : State) : Out :=
  command [a] s fun tid t _ =>
    withChecked (loadBlock s (threadCtx s t) (t.g a).toNat 64 64) tid t fun s raw =>
      match parseTask raw with
      | none => cmdTrap s tid t 0x82 (.postc q a)
      | some r => issue s tid t (.postc q.toNat r) (.postc q a)

/-- TASKEND (R315). -/
def execTaskend (s : State) : Out := instr [] s fun tid _ => .next (endThread s tid)

/-- EVPOST (R316). -/
def execEvpost (n : BitVec 3) (a b : Reg) (s : State) : Out :=
  command [a, b] s fun tid t l =>
    match l.place.plots[(t.g a).toNat]? with
    | none => cmdTrap s tid t 0x80 (.evpost n a b)
    | some p => issue s tid t (.evpost p n.toNat (t.g b)) (.evpost n a b)

/-- The held records of a CC, each with the others. -/
def pickHeld : List Event → List Event → List (Event × List Event)
  | _, [] => []
  | before, e :: rest => (e, before ++ rest) :: pickHeld (before ++ [e]) rest

/-- EVENT_RECORD_POST (R155, R313): the oldest record held for a CC enters once its queue has room; one whose thread has halted
meanwhile goes to the host. Fences that waited for the record pass. -/
def execEventRecordPost (cc : Nat) (s : State) : Out :=
  let x := plotOf s cc
  match (pickHeld [] x.evHeld).findSome? (fun y => (enterEvent (setPlot s cc { x with evHeld := y.2 }) y.1).map (fun s => (y.1, s))) with
  | some (e, s) => .next (tidyColls s e.lseq)
  | none => .next s

/-- The plot of a launch that a task runs on (R162). Where translation fails the hash itself is taken; the rule does not say that a page
whose leaf refuses the read counts as such a failure, and the model takes every cause of a read's translation as one (DESIGN CHOICE,
log 113). -/
def taskPlot (s : State) (l : Launch) (hash : Nat) : Nat :=
  let c : Ctx := { vd := l.vd, lseq := l.lseq, gid := l.gid, pkeys := l.pkeys, agent := .marten }
  let h := match translate s c .read hash with
    | .ok (_, _, pa) => homeOf pa
    | .error _ => homeOf hash
  let on := l.place.plots.filter (fun p => p / 32 == h / 32)
  if on.isEmpty then l.place.plots.getD (h % Nat.max 1 l.place.plots.length) 0 else on.getD (h % 32 % on.length) 0

/-- TASK_START (R162, R163): the task at the head of a queue is sent to its CC, where it waits for admission. -/
def execTaskStart (lseq q : Nat) (s : State) : Out :=
  match launchOf s lseq with
  | none => .next s
  | some l =>
    let tq := lookupD l.tasks q TaskQ.empty
    match tq.recs with
    | [] => .next s
    | r :: _ =>
      if tq.sent ∨ l.runs = false ∨ (r.barrier ∧ tq.running ≠ []) then .next s
      else
        let p := taskPlot s l r.hash
        let s := setLaunch s { l with tasks := insert l.tasks q { tq with sent := true } }
        .next (setPlot s p { plotOf s p with admq := (plotOf s p).admq ++ [{ lseq := lseq, what := .task q, nreq := r.nreq }] })

/-! ## COLL (R317) -/

/-- The MODULE bytes of every rank, each read by itself; the MYRANK one has been read. -/
def readModules (s : State) (c : Ctx) (base my mod : Nat) : Nat → Nat → State × Checked (List Nat)
  | _, 0 => (s, .ok [])
  | k, n + 1 =>
    match (if k = my then (s, Checked.ok mod) else loadVA s c .read ((base + 32 + 32 * k) % 2 ^ 64) 1 1) with
    | (s, .ok m) =>
      match readModules s c base my mod (k + 1) n with
      | (s, .ok ms) => (s, .ok (m :: ms))
      | r => r
    | (s, .bad x v) => (s, .bad x v)
    | (s, .hold w) => (s, .hold w)

/-- The conditions of check 2 of R317 that the header and the MYRANK entry decide, and R406. -/
def collBad (op : CollOp) (sc : Bool) (root hdr ent own total : Nat) : Bool :=
  let n := fld hdr 79 64; let my := fld hdr 95 80; let len := fld hdr 191 128
  let scaleva := fld ent 255 192
  fld hdr 127 96 != 0 || fld hdr 255 192 != 0 || fld ent 63 8 != 0 || n == 0 || decide (1024 < n) || decide (n ≤ my) ||
  decide (2 ^ 32 ≤ len) || (!sc && scaleva != 0) || (sc && scaleva % 4 != 0) || fld ent 7 0 != own || decide (n ≤ root) ||
  (op == .reducescatter && len % n != 0) || decide (pendMax < total)

/-- COLL (R317). -/
def execColl (op : CollOp) (red : CollRed) (fmt : CollFmt) (sc : Bool) (ctr : BitVec 2) (q : BitVec 4) (a : Reg)
    (root : BitVec 10) (u : Reg) (s : State) : Out :=
  command [a, u] s fun tid t l =>
    let i := Instr.coll op red fmt sc ctr q a root u
    let c := threadCtx s t
    let base := (t.g a).toNat
    withChecked (loadBlock s c base 32 32) tid t fun s hdr =>
    let n := fld hdr 79 64; let my := fld hdr 95 80; let len := fld hdr 191 128
    withChecked (loadBlock s c ((base + 32 + 32 * my) % 2 ^ 64) 32 32) tid t fun s ent =>
    let own := (vdOf s l.vd).elim 0 (·.domix)
    let dom := (vdOf s l.vd).elim 0 (·.domain)
    let total := collOut op n len my root.toNat * collBytes fmt
    if collBad op sc root.toNat hdr ent own total then cmdTrap s tid t 0x80 i
    else
      withChecked (readModules s c base my (fld ent 7 0) 0 n) tid t fun s ms =>
        if ms.any (fun m => decide (63 < m) || (dom == 0 && m != 0)) then cmdTrap s tid t 0x80 i
        else
          let part : CollPart := { rank := my, vd := l.vd, lseq := l.lseq, part := partOf l t.plot,
                                   key := collQKey t.plot q.toNat, inva := fld ent 127 64, outva := fld ent 191 128,
                                   scaleva := fld ent 255 192, modules := ms, wrote := 0 }
          issue s tid t (.coll (collQKey t.plot q.toNat) ctr.toNat total
            { comm := fld hdr 63 0, op := op, red := red, fmt := fmt, sc := sc, n := n, len := len, root := root.toNat,
              part := part, tid := tid, plot := t.plot, slot := t.slot, user := t.g u }) i

end Sys2Proof.Machine
end

