-- ==== Sys2Proof/Machine/Scale.lean ====
section
/-!
DEFINITION. The scale instructions of a control thread (16_scale_and_synchronisation.md R362 to R369).
-/
namespace Sys2Proof.Machine

/-- A NaN scale result is always this (R366). -/
def scaleNaN : BitVec 32 := 0x7FC00000#32

/-- The value of a name, its two copies compared; none on a miscompare (R363). -/
def readScale (x : Plot) (n : Nat) : Option (BitVec 32) :=
  let e := srfGet x (nameEntry x n)
  if e.value = e.dup then some e.value else none

/-- SCALE_MISCOMPARE of a name: the trap, and 128 on the plot's score (R363, R139). -/
def scaleMiscompare (s : State) (tid : Nat) (t : Thread) (n : Nat) : Out :=
  .next (addScore (trap s tid t 0x61 t.pc (BitVec.ofNat 64 n)) (unitPlot t.plot) 128)

/-- The operand names read in order; the first that miscompares is an error. -/
def readScales (x : Plot) : List Nat → Except Nat (List (BitVec 32))
  | [] => .ok []
  | n :: ns =>
    match readScale x n with
    | none => .error n
    | some v =>
      match readScales x ns with
      | .ok vs => .ok (v :: vs)
      | .error m => .error m

/-- VALUE and DUP of a name's entry set; GEN and REF stand (R366). -/
def writeScale (x : Plot) (n : Nat) (v : BitVec 32) : Plot :=
  let e := nameEntry x n
  srfPut x e { srfGet x e with value := v, dup := v }

/-- Steps 1 to 3 of R366: the operands, the destination's REF, the write with the flags of the result. -/
def scaleOp (i : Instr) (regs : List Reg) (sd : SName) (ops : List SName)
    (f : Thread → List (BitVec 32) → BitVec 32 × Nat) (s : State) : Out :=
  instr regs s fun tid t =>
    let x := plotOf s t.plot
    match readScales x (ops.map (·.toNat)) with
    | .error n => scaleMiscompare s tid t n
    | .ok vs =>
      if 1 < (srfGet x (nameEntry x sd.toNat)).ref then .next (trap s tid t 0x62 t.pc (sd.setWidth 64))
      else
        let (v, fl) := f t vs
        let s := setPlot s t.plot (writeScale x sd.toNat v)
        let s := match launchOf s t.lseq with
          | some l => raiseFlags s t.lseq (partOf l t.plot) fl
          | none => s
        done s tid t i

/-- An FP32 result as bits. -/
def toFp32 (x : FNum × Nat) : BitVec 32 × Nat := (BitVec.ofNat 32 (fmtFP32.encode x.1), x.2)

/-- SMUL (R367). -/
def scaleMul (a b : BitVec 32) : BitVec 32 × Nat :=
  let (v, fl) := fmtFP32.result .rne (fmul (fp32 a) (fp32 b))
  (BitVec.ofNat 32 v, fl)

/-- SMAX: −0 counts as below +0 (R367). -/
def scaleMax (a b : BitVec 32) : BitVec 32 × Nat :=
  let x := fp32 a; let y := fp32 b
  if x = .nan ∨ y = .nan then (scaleNaN, 0)
  else if x.lt y then (b, 0)
  else if y.lt x then (a, 0)
  else if a.msb then (b, 0) else (a, 0)

/-- SRCP (R367). -/
def scaleRcp (a : BitVec 32) : BitVec 32 × Nat :=
  match fp32 a with
  | .nan => (scaleNaN, 0)
  | .inf n => toFp32 (.fin n 0 0, 0)
  | .fin n m e => if m = 0 then toFp32 (.inf n, flagDZ) else toFp32 (fmtFP32.round .rne n 1 m (-e))

/-- SEXP2 (R367). -/
def scaleExp2 (a : BitVec 32) : BitVec 32 × Nat := toFp32 (sexp2 (fp32 a))

/-- A value written bit for bit, but for a NaN pattern (R367, R369). -/
def canonScale (a : BitVec 32) : BitVec 32 := if fp32 a = .nan then scaleNaN else a

/-- SCVT (R368). -/
def scaleCvt (bf16 : Bool) (rm : BitVec 2) (a : BitVec 32) : BitVec 32 × Nat :=
  if bf16 then toFp32 (fmtBF16.store (modeOf rm.toNat) (fp32 a)) else toFp32 (scvtE8m0 (modeOf rm.toNat) (fp32 a))

def execSmul (d a b : SName) (s : State) : Out :=
  scaleOp (.smul d a b) [] d [a, b] (fun _ v => scaleMul (v.getD 0 0#32) (v.getD 1 0#32)) s
def execSmax (d a b : SName) (s : State) : Out :=
  scaleOp (.smax d a b) [] d [a, b] (fun _ v => scaleMax (v.getD 0 0#32) (v.getD 1 0#32)) s
def execSrcp (d a : SName) (s : State) : Out :=
  scaleOp (.srcp d a) [] d [a] (fun _ v => scaleRcp (v.getD 0 0#32)) s
def execSexp2 (d a : SName) (s : State) : Out :=
  scaleOp (.sexp2 d a) [] d [a] (fun _ v => scaleExp2 (v.getD 0 0#32)) s
def execScopy (d a : SName) (s : State) : Out :=
  scaleOp (.scopy d a) [] d [a] (fun _ v => (canonScale (v.getD 0 0#32), 0)) s
def execScvt (d a : SName) (bf16 : Bool) (rm : BitVec 2) (s : State) : Out :=
  scaleOp (.scvt d a bf16 rm) [] d [a] (fun _ v => scaleCvt bf16 rm (v.getD 0 0#32)) s

/-- SMOV (R369). -/
def execSmov (n : SName) (a : Reg) (s : State) : Out :=
  scaleOp (.smov n a) [a] n [] (fun t _ => (canonScale ((t.g a).setWidth 32), 0)) s

/-- SREAD (R369). -/
def execSread (d : Reg) (n : SName) (s : State) : Out :=
  instr [d] s fun tid t =>
    let x := plotOf s t.plot
    match readScale x n.toNat with
    | none => scaleMiscompare s tid t n.toNat
    | some v =>
      let r := v.toNat + seenGen x n.toNat * 2 ^ 32 + (srfGet x (nameEntry x n.toNat)).ref * 2 ^ 40
      done s tid (t.setG d (BitVec.ofNat 64 r)) (.sread d n)

/-- GEN + 1, with 15 followed by 1 (R136). -/
def nextGen (g : Nat) : Nat := if g = 15 then 1 else g + 1

/-- An entry bound to a scale with REF 1 (R136). -/
def bindEntry (x : Plot) (e : Nat) (v : BitVec 32) : Plot :=
  srfPut x e { value := v, dup := v, ref := 1, gen := nextGen (srfGet x e).gen }

/-- 1.0 in FP32. -/
def scaleOne : BitVec 32 := 0x3F800000#32

/-- SBIND.S (R364). -/
def execSbindS (d a : Reg) (s : State) : Out :=
  instr [d, a] s fun tid t =>
    let v := t.g a
    let n := v.toNat
    let x := plotOf s t.plot
    if 256 ≤ n then .next (trap s tid t 0x62 t.pc v)
    else if (srfGet x (nameEntry x n)).ref ≠ 0 then .next (trap s tid t 0x62 t.pc (BitVec.ofNat 64 n))
    else
      let x := bindEntry x (nameEntry x n) scaleOne
      let t := { t with pins := addNat t.pins n }
      done (setPlot s t.plot x) tid (t.setG d (BitVec.ofNat 64 (n * 16 + seenGen x n))) (.sbindS d a)

/-- SFREE (R365). -/
def execSfree (a : Reg) (s : State) : Out :=
  instr [a] s fun tid t =>
    let v := t.g a
    let n := v.toNat
    let x := plotOf s t.plot
    if 256 ≤ n ∨ t.pins.elem n = false then .next (trap s tid t 0x63 t.pc v)
    else
      done (setPlot s t.plot (dropRef x (nameEntry x n))) tid { t with pins := t.pins.filter (· != n) } (.sfree a)

end Sys2Proof.Machine
end

