-- ==== Sys2Proof/Machine/Handles.lean ====
section
/-!
DEFINITION. Circular-buffer handles (06_asynchronous_engines.md R157 to R160; 14 R307, R308; 16 R371): CBWAITF, CBWAITE,
CBADV, CBGET and CBPUT, and the wait that CB_WAIT_COMPLETE ends.
-/
namespace Sys2Proof.Machine

def Handle.nslot (h : Handle) : Nat := 2 ^ h.log2n
def Handle.fill (h : Handle) : Nat := (h.tail + 2 ^ 32 - h.head) % 2 ^ 32
def Handle.free (h : Handle) : Nat := h.nslot - h.fill

/-- The check of R160 that every handle operation shares: bound, the direction suits, n from 1 to NSLOT. -/
def handleFor (t : Thread) (h : Nat) (out : Bool) (n : Nat) : Option Handle :=
  match lookup t.handles h with
  | some x => if x.dirOut = out ∧ 1 ≤ n ∧ n ≤ x.nslot then some x else none
  | none => none

/-- What CBWAITF waits for (R158). -/
def fullDone (x : Handle) (n : Nat) : Bool := decide (n ≤ x.fill) || x.eos

/-- CBWAITF (R307). -/
def execCbwaitf (h : BitVec 4) (n : BitVec 11) (s : State) : Out :=
  instr [] s fun tid t =>
    match handleFor t h.toNat false n.toNat with
    | none => cmdTrap s tid t 0x83 (.cbwaitf h n)
    | some x => if fullDone x n.toNat then done s tid t (.cbwaitf h n) else wait s tid t (.cbFull h.toNat n.toNat)

/-- CBWAITE (R307). -/
def execCbwaite (h : BitVec 4) (n : BitVec 11) (s : State) : Out :=
  instr [] s fun tid t =>
    match handleFor t h.toNat true n.toNat with
    | none => cmdTrap s tid t 0x83 (.cbwaite h n)
    | some x => if n.toNat ≤ x.free then done s tid t (.cbwaite h n) else wait s tid t (.cbEmpty h.toNat n.toNat)

/-- CB_WAIT_COMPLETE (R158 to R160). -/
def execCbWaitComplete (tid : Nat) (s : State) : Out :=
  match threadOf s tid with
  | some t =>
    let ok : Bool := match t.stat with
      | .waiting (.cbFull h n) => match lookup t.handles h with | some x => fullDone x n | none => false
      | .waiting (.cbEmpty h n) => match lookup t.handles h with | some x => decide (n ≤ x.free) | none => false
      | _ => false
    if ok ∧ runs s t.lseq then .next (completeWait s tid 4#64) else .next s
  | none => .next s

/-! ## CBADV -/

/-- The physical tag that a handle's tokens carry, or a failed check of R371; 0 where HTAG is 0. -/
def stampTag (s : State) (t : Thread) (h : Nat) (x : Handle) : Option Nat :=
  let tag := lookupD t.htags h 0
  if tag = 0 then some 0
  else
    let p := plotOf s t.plot
    let n := tag / 16
    let own := match launchOf s t.lseq with
      | some l => l.place.plotOf x.node == t.plot
      | none => false
    if own && t.pins.elem n && seenGen p n == tag % 16 then
      some (nameEntry p n * 16 + (srfGet p (nameEntry p n)).gen)
    else none

/-- The holders that `n` stamped tokens add to an entry (R135, R371). -/
def holdMany (x : Plot) (tag : Nat) : Nat → Plot
  | 0 => x
  | n + 1 => holdMany (x.hold tag) tag n

/-- CBADV on an OUT handle: the slots pass to the port, stamped; with `eos`, EOS follows the last (R159, R371). One that
would raise a REF past its limit waits: it stands to be issued again (R135). -/
def advOut (s : State) (tid : Nat) (t : Thread) (h n : Nat) (x : Handle) (eos : Bool) (i : Instr) : Out :=
  if x.eosAt ∨ x.free < n then cmdTrap s tid t 0x83 i
  else
    match stampTag s t h x with
    | none => cmdTrap s tid t 0x83 i
    | some tag =>
      let tags := if tag = 0 then x.tags
        else (List.range n).foldl (fun m k => insert m ((x.tail + k) % 2 ^ 32) tag) x.tags
      let x := { x with tail := (x.tail + n) % 2 ^ 32, tags := tags, eosAt := eos }
      let s0 := s
      let s := if tag = 0 then s else setPlot s t.plot (holdMany (plotOf s t.plot) tag n)
      if tag ≠ 0 ∧ refMax < (srfGet (plotOf s t.plot) (tag / 16)).ref then .next s0
      else done s tid { t with handles := insert t.handles h x } i

/-- Entries of a divert ring whose odd slot HEAD has passed go to the handler node as they stand in scratch, and it acts on
them (R176, R177). -/
def passEntries (s : State) (lseq q k : Nat) : State :=
  let s := match launchOf s lseq with
    | some l => (List.range k).foldl (fun s i =>
        sawBytes s (scratchAddr (l.ringPlot q) (entryAt ((l.hnode q).wrote - (l.hnode q).ring.length + i))) 256) s
    | none => s
  let s := modLaunch s lseq fun l =>
    let hn := l.hnode q
    let first := hn.wrote - hn.ring.length
    let passed := (List.range k).filterMap (fun i => (hn.ring[i]?).map (readEntry s (l.ringPlot q) (first + i)))
    l.setHnode q { hn with ring := hn.ring.drop k, acting := hn.acting ++ passed }
  handlerNodeWork s lseq q

/-- CBADV on an IN handle: n slots are freed (R158); on a divert handle verdicts are read (R307). -/
def advIn (s : State) (tid : Nat) (t : Thread) (h n : Nat) (x : Handle) (i : Instr) : Out :=
  if x.fill < n then cmdTrap s tid t 0x83 i
  else
    let y := { x with head := (x.head + n) % 2 ^ 32 }
    let s := setThread s tid ({ t with handles := insert t.handles h y }.next (lenOf i))
    match x.div with
    | none => .next s
    | some q => .next (passEntries s t.lseq q ((x.head % 2 + n) / 2))

/-- CBADV (R307). -/
def execCbadv (h : BitVec 4) (n : BitVec 11) (s : State) : Out :=
  instr [] s fun tid t =>
    let i := Instr.cbadv h n
    match lookup t.handles h.toNat with
    | none => cmdTrap s tid t 0x83 i
    | some x =>
      if n = 0#11 ∨ x.nslot < n.toNat then cmdTrap s tid t 0x83 i
      else if x.dirOut then advOut s tid t h.toNat n.toNat x false i
      else advIn s tid t h.toNat n.toNat x i

/-- CBADV.EOS (R307). -/
def execCbadvEos (h : BitVec 4) (n : BitVec 11) (s : State) : Out :=
  instr [] s fun tid t =>
    match handleFor t h.toNat true n.toNat with
    | none => cmdTrap s tid t 0x83 (.cbadvEos h n)
    | some x => advOut s tid t h.toNat n.toNat x true (.cbadvEos h n)

/-! ## CBGET and CBPUT (R308) -/

/-- The scratch address of word `el` of slot position `n` (R157). -/
def Handle.slotAddr (x : Handle) (n el : Nat) : Nat := x.base + 128 * (n % x.nslot) + 8 * el

/-- An access to a word of a ring in a plot's scratch: it waits while the page is in backing (R82). -/
def ringAccess (s : State) (tid : Nat) (t : Thread) (p w : Nat) (k : State → Out) : Out :=
  if listed s.backed (2048 * p + w / 4096) then wait s tid t (.backing p (w / 4096))
  else k (touchPage s p w)

/-- The plot whose scratch holds a handle's ring: its thread's, or that of the handler node (R157, R305). -/
def Handle.ringPlot (x : Handle) (t : Thread) (l : Launch) : Nat :=
  match x.div with | some q => l.ringPlot q | none => t.plot

/-- A word of a ring written. -/
def putRing (s : State) (p w v : Nat) : State := putScratch s p w 8 v

/-- CBGET (R308). What it reads of another thread's stores is visible to every agent from then on (R108). -/
def execCbget (d : Reg) (h : BitVec 4) (slot : BitVec 11) (el : BitVec 4) (s : State) : Out :=
  command [d] s fun tid t l =>
    let i := Instr.cbget d h slot el
    match lookup t.handles h.toNat with
    | none => cmdTrap s tid t 0x83 i
    | some x =>
      if x.dirOut ∨ x.fill ≤ slot.toNat then cmdTrap s tid t 0x83 i
      else
        let p := x.ringPlot t l
        let w := x.slotAddr (x.head + slot.toNat) el.toNat
        ringAccess s tid t p w fun s =>
          done (performStores s (fun e => e.meets (scratchAddr p w) 8 && e.tid != tid)) tid
            (t.setG d (BitVec.ofNat 64 (readRaw s.mem (scratchAddr p w) 8))) i

/-- The word that CBPUT writes: the valid bit, zeros, the element (R308). -/
def putWord (v : Word) : Nat := v.toNat / 2 ^ 63 * 2 ^ 63 + v.toNat % 2 ^ 40

/-- CBPUT (R308). -/
def execCbput (h : BitVec 4) (slot : BitVec 11) (el : BitVec 4) (a : Reg) (s : State) : Out :=
  command [a] s fun tid t l =>
    let i := Instr.cbput h slot el a
    match lookup t.handles h.toNat with
    | none => cmdTrap s tid t 0x83 i
    | some x =>
      if x.dirOut then
        if x.free ≤ slot.toNat then cmdTrap s tid t 0x83 i
        else
          let w := x.slotAddr (x.tail + slot.toNat) el.toNat
          ringAccess s tid t t.plot w fun s => done (putRing s t.plot w (putWord (t.g a))) tid t i
      else
        let odd := (x.head + slot.toNat) % 2 == 1
        if x.div.isNone ∨ x.fill ≤ slot.toNat ∨ entryWritable odd el.toNat = false then cmdTrap s tid t 0x83 i
        else
          let p := x.ringPlot t l
          let w := x.slotAddr (x.head + slot.toNat) el.toNat
          ringAccess s tid t p w fun s => done (putRing s p w (if odd then putWord (t.g a) else (t.g a).toNat)) tid t i

end Sys2Proof.Machine
end

