-- ==== Sys2Proof/Machine/Stage.lean ====
section
/-!
DEFINITION. Stage operations (15_stage_operations.md R326 to R349): what a firing's words S1 to S6 compute, lane by
lane, from its heads, the accumulators, the counters and the scale entries, before S6 has any effect.
-/
namespace Sys2Proof.Machine

/-! ## Operands (R327) -/

/-- An operand in one lane: a 40-bit container, or the integer of an immediate, a lane index or a counter. -/
inductive Opd
  | box (e : Elem)
  | num (n : Int)
  deriving DecidableEq, Repr

/-- The container that an operation which does not read W40 or I40 receives. -/
def Opd.c : Opd → Elem
  | .box e => e
  | .num n => BitVec.ofInt 40 n

/-- Read as I40. -/
def Opd.i : Opd → Int
  | .box e => e.toInt
  | .num n => n

/-- The W40 container: an integer enters exactly. -/
def Opd.wc : Opd → Elem
  | .box e => e
  | .num n => toW40 (intNum n)

/-- Read as W40. -/
def Opd.w (o : Opd) : FNum := w40 o.wc

/-- What a firing reads: its record, its heads by port ascending (a merge firing's with DATA in place of NULL), the
accumulators, the counters and the plot's scale file. -/
structure FireIn where
  h     : Nat
  heads : List (Nat × Token)
  accs  : List Acc
  k     : List Nat
  plot  : Plot
  deriving DecidableEq, Repr

/-- The pipeline registers, mask, tag, output colour and flags of a firing, and the accumulator that SRETAG moves. -/
structure Flow where
  a      : List Elem
  b      : List Elem
  c      : List Elem
  vs     : List (List Elem)
  m      : BitVec 16
  tag    : Nat
  colour : Nat
  fl     : Nat
  retag  : Option (Nat × Nat)
  deriving DecidableEq, Repr

def FireIn.lead (i : FireIn) : Token := (i.heads.head?.map (·.2)).getD (ctlToken .null 0 0 false)

def FireIn.port (i : FireIn) (p : Nat) : Option Token := (i.heads.find? (fun x => x.1 == p)).map (·.2)

def laneOf (l : List Elem) (n : Nat) : Elem := l.getD n 0#40

/-- A selector that both columns of R44 share: an accumulator lane or a counter. -/
def selHigh (i : FireIn) (sel lane : Nat) : Opd :=
  if sel < 12 then .box (laneOf (i.accs.getD (sel - 8) Acc.zero).lanes lane) else .num (i.k.getD (sel - 12) 0)

/-- A selector of S1 (R44, R327). -/
def sel1 (i : FireIn) (sel lane : Nat) : Opd :=
  if sel < 8 then (match i.port sel with | some t => .box (tokEl t lane) | none => .num 0) else selHigh i sel lane

/-- A selector of S2 to S6; `slot` is 0, 1 or 2 for operand A, B or C. -/
def selN (i : FireIn) (f : Flow) (w slot sel lane : Nat) : Opd :=
  if sel = 0 then .num 0
  else if sel = 1 then .box (laneOf (if slot = 0 then f.a else if slot = 1 then f.b else f.c) lane)
  else if sel ≤ 5 then .box (laneOf (f.vs.getD (sel - 2) []) lane)
  else if sel = 6 then .num (signedOf 5 (sImm w))
  else if sel = 7 then .num lane
  else selHigh i sel lane

/-- Whether a stage runs (R45). -/
def stageRuns (w colour : Nat) : Bool := sPm w == 0 || (decide (4 ≤ sPm w) && sPm w - 4 == colour)

def lanes (f : Nat → Elem) : List Elem := (List.range 16).map f

/-- Lanes computed where the mask is set, +0 elsewhere, with the flags of those computed (R328). -/
def compute (m : BitVec 16) (f : Nat → Elem × Nat) : List Elem × Nat :=
  (lanes (fun l => if m.getLsbD l then (f l).1 else 0#40),
   (List.range 16).foldl (fun g l => if m.getLsbD l then g ||| (f l).2 else g) 0)

def boolElem (b : Bool) : Elem := if b then BitVec.allOnes 40 else 0#40

/-! ## W40 arithmetic (R336 to R338) -/

def wAdd (mode : Mode) (a b : FNum) : Elem × Nat := w40Result mode (fadd mode a b)
def wMul (mode : Mode) (a b : FNum) : Elem × Nat := w40Result mode (fmul a b)

/-- a × b + c with one rounding: a product of 0 and ∞ decides first (R336). -/
def fmaExact (mode : Mode) (a b c : FNum) : FNum × Nat :=
  let p := fmul a b
  let s := fadd mode p.1 c
  (s.1, p.2 ||| s.2)

def wFma (mode : Mode) (a b c : FNum) : Elem × Nat := w40Result mode (fmaExact mode a b c)

/-- FMIN and FMAX: −0 counts as below +0 (R337). -/
def wMin (a b : Elem) : Elem :=
  if w40 a = .nan ∨ w40 b = .nan then canonNaN
  else if (w40 b).lt (w40 a) then b
  else if (w40 a).lt (w40 b) then a
  else if b.msb then b else a

def wMax (a b : Elem) : Elem :=
  if w40 a = .nan ∨ w40 b = .nan then canonNaN
  else if (w40 a).lt (w40 b) then b
  else if (w40 b).lt (w40 a) then a
  else if a.msb then b else a

/-- A condition of class C on two values that are or are not ordered (R338, R342). -/
def condC (mod : Nat) (unord lt gt : Bool) : Bool :=
  match mod with
  | 0 => !unord && !lt && !gt
  | 1 => unord || lt || gt
  | 2 => !unord && lt
  | 3 => !unord && !gt
  | 4 => !unord && gt
  | 5 => !unord && !lt
  | _ => unord

def wCmp (mod : Nat) (a b : FNum) : Elem := boolElem (condC mod (a == .nan || b == .nan) (a.lt b) (b.lt a))
def iCmp (mod : Nat) (a b : Int) : Elem := boolElem (condC mod false (decide (a < b)) (decide (b < a)))

/-! ## I40 shifts (R343) -/

def iShl (sat : Bool) (a s : Int) : Elem × Nat :=
  if s < 0 ∨ 40 ≤ s then
    (if sat = false ∨ a = 0 then (0#40, 0) else i40Result true (if a < 0 then -(2 ^ 40) else 2 ^ 40))
  else i40Result sat (a * 2 ^ s.toNat)

def iShr (a : Elem) (s : Int) : Elem := if s < 0 ∨ 40 ≤ s then 0#40 else a >>> s.toNat

def iSra (a s : Int) : Elem :=
  if s < 0 ∨ 40 ≤ s then boolElem (decide (a < 0)) else BitVec.ofInt 40 (a / 2 ^ s.toNat)

/-! ## Conversions of S1 (R332) -/

def cvtWI (mode : Mode) (x : Int) : Elem × Nat := w40Result mode (intNum x, 0)

def cvtIW (mode : Mode) (x : FNum) : Elem × Nat :=
  match x with
  | .nan => (0#40, flagNV)
  | .inf n => (BitVec.ofInt 40 (if n then -(2 ^ 39) else 2 ^ 39 - 1), flagNV)
  | .fin n m e =>
    let (q, ch) := roundInt mode n m e
    let (v, g) := i40Result true q
    (v, g ||| (if ch then flagNX else 0))

def fRnd (mode : Mode) (x : FNum) : Elem × Nat :=
  match x with
  | .nan => (canonNaN, 0)
  | .inf n => (toW40 (.inf n), 0)
  | .fin n m e =>
    let (q, ch) := roundInt mode n m e
    (toW40 (.fin n q.natAbs 0), if ch then flagNX else 0)

/-! ## Estimates and refinements (R339 to R341) -/

/-- floor((m − 1) × k) for a significand m × 2^−log2 m in [1, 2), and the exponent with it. -/
def normal (m : Nat) (e : Int) (k : Nat) : Nat × Int :=
  let lg := Nat.log2 m
  ((m - 2 ^ lg) * k / 2 ^ lg, e + lg)

def rcpa (x : FNum) : Elem × Nat :=
  match x with
  | .nan => (canonNaN, 0)
  | .inf n => (toW40 (.fin n 0 0), 0)
  | .fin n m e =>
    if m = 0 then (toW40 (.inf n), flagDZ)
    else if 225 + e < 0 ∧ (2 ^ 31 - 1) * m < 2 ^ (-(225 + e)).toNat then (toW40 (.inf n), flagOF + flagNX)
    else
      let (i, e') := normal m e 256
      let d := 513 + 2 * i
      (toW40 (.fin n ((2 ^ 22 + d) / (2 * d)) (-12 - e')), 0)

def rsqa (x : FNum) : Elem × Nat :=
  match x with
  | .nan => (canonNaN, 0)
  | .inf n => if n then (canonNaN, flagNV) else (0#40, 0)
  | .fin n m e =>
    if m = 0 then (toW40 (.inf n), flagDZ)
    else if n then (canonNaN, flagNV)
    else
      let (i, e') := normal m e 128
      let j := (e' % 2).toNat
      let u := (257 + 2 * i) * 2 ^ j
      -- q is nearest to 2^12 / sqrt(u / 256)
      (toW40 (.fin false ((isqrt (2 ^ 34 / u) + 1) / 2) (-12 - (e' - j) / 2)), 0)

/-- RCPR and RSQR: one Newton step, each rounding with its flags (R340). -/
def refine (sqrt : Bool) (mode : Mode) (x y : FNum) : Elem × Nat :=
  match y with
  | .inf n => (toW40 (.inf n), 0)
  | .fin n 0 _ => (toW40 (.fin n 0 0), 0)
  | _ =>
    let one := FNum.fin false 1 0
    let h := if sqrt then wMul mode x y else (toW40 x, 0)
    let d := wFma mode (w40 h.1).neg y one
    let half := if sqrt then FNum.fin false 1 (-1) else one
    let p := fmul (fmul half y).1 (w40 d.1)
    let r := fadd mode y p.1
    let v := w40Result mode (r.1, p.2 ||| r.2)
    (v.1, h.2 ||| d.2 ||| v.2)

/-- RSQA of −∞: the row for ±∞ stands before the row for negative operands (R339), so its result is −0. -/
def rsqaRow (x : FNum) : Elem × Nat :=
  match x with
  | .inf n => (toW40 (.fin n 0 0), 0)
  | x => rsqa x

def exp2a (x : FNum) : Elem × Nat :=
  match x with
  | .nan => (canonNaN, 0)
  | .inf n => if n then (0#40, 0) else (toW40 (.inf false), 0)
  | .fin n m e =>
    if m = 0 then (toW40 (.fin false 1 0), 0)
    else if n = false ∧ 256 * 2 ^ (-e).toNat ≤ m * 2 ^ e.toNat then (toW40 (.inf false), flagOF + flagNX)
    else if n = true ∧ 300 * 2 ^ (-e).toNat ≤ m * 2 ^ e.toNat then (0#40, flagUF + flagNX)
    else
      let j := (-e).toNat
      let v := m * 2 ^ e.toNat
      let whole := v / 2 ^ j; let k := v % 2 ^ j
      if k = 0 then w40Result .rne (.fin false 1 (if n then -(whole : Int) else whole), 0)
      else
        let fl : Int := if n then -(whole : Int) - 1 else whole
        let k' := if n then 2 ^ j - k else k
        let i := k' * 256 / 2 ^ j
        let p := exp2Frac (2 * i + 1) 9 (2 ^ (expBits + 1)) (2 ^ expBits)
        w40Result .rne (.fin false ((p * 2 ^ 13 / 2 ^ expBits + 1) / 2) (fl - 12), 0)

/-- `n` bits of log2 y for y in [1, 2) in fixed point, by squaring. -/
def log2Bits : Nat → Nat → Nat → Nat
  | 0, _, acc => acc
  | n + 1, y, acc =>
    let y := y * y / 2 ^ expBits
    if 2 ^ (expBits + 1) ≤ y then log2Bits n (y / 2) (2 * acc + 1) else log2Bits n y (2 * acc)

def log2a (x : FNum) : Elem × Nat :=
  match x with
  | .nan => (canonNaN, 0)
  | .inf n => if n then (canonNaN, flagNV) else (toW40 (.inf false), 0)
  | .fin n m e =>
    if m = 0 then (toW40 (.inf true), flagDZ)
    else if n then (canonNaN, flagNV)
    else
      let (i, e') := normal m e 256
      if m = 2 ^ Nat.log2 m then (toW40 (intNum e'), 0)
      else
        let q := (log2Bits 13 ((513 + 2 * i) * 2 ^ expBits / 512) 0 + 1) / 2
        let r : Int := e' * 4096 + q
        (toW40 (.fin (decide (r < 0)) r.natAbs (-12)), 0)

/-! ## The table of S2 to S5 (R264) -/

/-- An operation of a stage on three operands. -/
def opLane (stage op mod : Nat) (a b c : Opd) : Elem × Nat :=
  let md := modeOf mod
  let sat := mod % 2 == 1
  if op = 0 then (a.c, 0)
  else if stage = 3 ∨ stage = 4 then
    match op with
    | 0x01 => if stage = 3 then wMul md a.w b.w else wAdd md a.w b.w
    | 0x02 => wFma md a.w b.w c.w
    | 0x03 => wFma md a.w.neg b.w c.w
    | 0x04 => wAdd md a.w b.w.neg
    | _ => i40Result sat (a.i * b.i)
  else
    match op with
    | 0x01 => wAdd md a.w b.w
    | 0x02 => wAdd md a.w b.w.neg
    | 0x03 => (wMin a.wc b.wc, 0)
    | 0x04 => (wMax a.wc b.wc, 0)
    | 0x05 => (wCmp mod a.w b.w, 0)
    | 0x06 => (if a.w = .nan then canonNaN else a.wc &&& 0x7FFFFFFFFF#40, 0)
    | 0x07 => (if a.w = .nan then canonNaN else a.wc ^^^ 0x8000000000#40, 0)
    | 0x10 => i40Result sat (a.i + b.i)
    | 0x11 => i40Result sat (a.i - b.i)
    | 0x12 => (BitVec.ofInt 40 (if b.i < a.i then b.i else a.i), 0)
    | 0x13 => (BitVec.ofInt 40 (if a.i < b.i then b.i else a.i), 0)
    | 0x14 => (iCmp mod a.i b.i, 0)
    | 0x15 => (a.c &&& b.c, 0)
    | 0x16 => (a.c ||| b.c, 0)
    | 0x17 => (a.c ^^^ b.c, 0)
    | 0x18 => iShl sat a.i b.i
    | 0x19 => (iShr (BitVec.ofInt 40 a.i) b.i, 0)
    | 0x1A => (iSra a.i b.i, 0)
    | 0x40 => rcpa a.w
    | 0x41 => rsqaRow a.w
    | 0x42 => refine false md a.w b.w
    | 0x43 => refine true md a.w b.w
    | 0x44 => exp2a a.w
    | 0x45 => log2a a.w
    | _ => (a.c, 0)

/-! ## S1 (R331 to R335) -/

/-- The tag of an S1 operand: a head's STAG, an accumulator's tag, none for a counter (R334). -/
def selTag (i : FireIn) (sel : Nat) : Nat :=
  if sel < 8 then (match i.port sel with | some t => t.stag | none => 0)
  else if sel < 12 then (i.accs.getD (sel - 8) Acc.zero).tag
  else 0

/-- The source lane of SHUF (R333). -/
def shufSrc (i : FireIn) (w lane : Nat) : Nat :=
  match sMod w with
  | 0 => (sel1 i (sB w) lane).c.toNat % 16
  | 1 => (lane + sImm w % 16) % 16
  | 2 => lane ^^^ (sImm w % 16)
  | _ => 15 - lane

/-- A mask from a predicate on lanes. -/
def maskOf (f : Nat → Bool) : BitVec 16 :=
  (List.range 16).foldl (fun m l => if f l then m ||| BitVec.twoPow 16 l else m) 0#16

/-- The flow as it enters S1 (R326, R329, R51). -/
def flow0 (i : FireIn) : Flow :=
  { a := zeroElems, b := zeroElems, c := zeroElems, vs := [],
    m := i.heads.foldl (fun m x => m &&& x.2.valid) (BitVec.allOnes 16),
    tag := i.lead.stag, colour := i.lead.colour, fl := 0, retag := none }

/-- S1: the flow after it, or the cause of a failed read of a scale entry. -/
def stage1 (i : FireIn) : Except Nat Flow :=
  let w := hStage i.h 1
  let f := flow0 i
  let raw := lanes (fun l => (sel1 i (sA w) l).c)
  let f := { f with b := lanes (fun l => (sel1 i (sB w) l).c), c := lanes (fun l => (sel1 i (sC w) l).c) }
  let md := modeOf (sMod w)
  let unary := fun (g : Opd → Elem × Nat) =>
    let r := compute f.m (fun l => g (sel1 i (sA w) l))
    Except.ok { f with a := r.1, fl := f.fl ||| r.2 }
  let move := fun (src : Nat → Nat) =>
    let m := maskOf (fun l => f.m.getLsbD (src l))
    Except.ok { f with a := lanes (fun l => if m.getLsbD l then laneOf raw (src l) else 0#40), m := m }
  if stageRuns w i.lead.colour = false then .ok { f with a := raw }
  else
    match sOp w with
    | 1 => unary (fun x => cvtWI md x.i)
    | 2 => unary (fun x => cvtIW md x.w)
    | 3 => unary (fun x => fRnd md x.w)
    | 4 => move (shufSrc i w)
    | 5 => move (fun _ => sImm w % 16)
    | 6 =>
      match readTag i.plot (selTag i (sA w)) with
      | .error c => .error c
      | .ok v => (unary (fun x => wMul md x.w (fp32 v))).map ({ · with tag := 0 })
    | 7 =>
      let t := selTag i (sA w)
      match (if t = 0 then Except.ok 0#32 else readTag i.plot t) with
      | .error c => .error c
      | .ok _ => (unary (fun x => (x.c, 0))).map ({ · with retag := some (sDest w, t) })
    | _ => unary (fun x => (x.c, 0))

/-! ## S2 to S5 -/

/-- Stage j of a flow, for j from 2 to 5 (R328, R347). -/
def stageJ (i : FireIn) (j : Nat) (f : Flow) : Flow :=
  let w := hStage i.h j
  let a := fun l => selN i f w 0 (sA w) l
  if stageRuns w i.lead.colour = false then { f with vs := f.vs ++ [lanes (fun l => (a l).c)] }
  else
    let op := if sOp w = 0x20 then 0 else sOp w
    let r := compute f.m (fun l => opLane j op (sMod w) (a l) (selN i f w 1 (sB w) l) (selN i f w 2 (sC w) l))
    let steer := sOp w == 0x20 && f.m.getLsbD 0 && (a 0).i != 0
    { f with vs := f.vs ++ [r.1], fl := f.fl ||| r.2, colour := if steer then sMod w % 4 else f.colour }

/-- The flow after S1 to S5. -/
def stages (i : FireIn) : Except Nat Flow :=
  (stage1 i).map fun f => [2, 3, 4, 5].foldl (fun f j => stageJ i j f) f

/-! ## S6: lane reductions (R344) -/

/-- One combination of two lanes, an absent one being the identity. -/
def combine (kind imm : Nat) (x y : Option Elem) : Option Elem × Nat :=
  match x, y with
  | none, y => (y, 0)
  | x, none => (x, 0)
  | some a, some b =>
    let r := match kind with
      | 0 => wAdd (modeOf imm) (w40 a) (w40 b)
      | 1 => (wMin a b, 0)
      | 2 => (wMax a b, 0)
      | 3 => i40Result false (a.toInt + b.toInt)
      | 4 => i40Result true (a.toInt + b.toInt)
      | 5 => (BitVec.ofInt 40 (if b.toInt < a.toInt then b.toInt else a.toInt), 0)
      | _ => (BitVec.ofInt 40 (if a.toInt < b.toInt then b.toInt else a.toInt), 0)
    (some r.1, r.2)

/-- One level of the tree of R126. -/
def pairUp (kind imm : Nat) : List (Option Elem) → List (Option Elem) × Nat
  | x :: y :: r =>
    let c := combine kind imm x y
    let rest := pairUp kind imm r
    (c.1 :: rest.1, c.2 ||| rest.2)
  | l => (l, 0)

/-- The tree over 2^n lanes. -/
def treeOf (kind imm : Nat) : Nat → List (Option Elem) → Option Elem × Nat
  | 0, l => (l.head?.getD none, 0)
  | n + 1, l =>
    let p := pairUp kind imm l
    let r := treeOf kind imm n p.1
    (r.1, p.2 ||| r.2)

/-- LSCAN: the running values in lane order. -/
def scanOf (kind imm : Nat) : Option Elem → List (Option Elem) → List Elem × Nat
  | _, [] => ([], 0)
  | run, x :: r =>
    let c := combine kind imm run x
    let rest := scanOf kind imm c.1 r
    ((if x.isSome then c.1.getD 0#40 else 0#40) :: rest.1, c.2 ||| rest.2)

/-- A lane of an operand as a reduction of a kind reads it. -/
def redOpd (kind : Nat) (o : Opd) : Elem := if kind ≤ 2 then o.wc else BitVec.ofInt 40 o.i

/-- The operand A of S6 in a lane. -/
def opdA6 (i : FireIn) (f : Flow) (l : Nat) : Opd := let w := hStage i.h 6; selN i f w 0 (sA w) l

/-- The operand B of S6 in a lane. -/
def opdB6 (i : FireIn) (f : Flow) (l : Nat) : Opd := let w := hStage i.h 6; selN i f w 1 (sB w) l

/-- v6 and M of an S6 that runs: the reductions, or A in the lanes of M (R331, R344). -/
def v6Of (i : FireIn) (f : Flow) : List Elem × BitVec 16 × Nat :=
  let w := hStage i.h 6
  let xs := (List.range 16).map (fun l => if f.m.getLsbD l then some (redOpd (sMod w) (opdA6 i f l)) else none)
  if sOp w = 1 then
    let r := treeOf (sMod w) (sImm w) 4 xs
    (lanes (fun l => if l = 0 then r.1.getD 0#40 else 0#40), if r.1.isSome then 1#16 else 0#16, r.2)
  else if sOp w = 2 then
    let r := scanOf (sMod w) (sImm w) none xs
    (r.1, f.m, r.2)
  else (lanes (fun l => if f.m.getLsbD l then (opdA6 i f l).c else 0#40), f.m, 0)

end Sys2Proof.Machine
end

