-- ==== Sys2Proof/Machine/Fire.lean ====
section
/-!
DEFINITION. A firing performed (02 R42, R51 to R53; 07 R178 to R180; 15 R329, R334, R335, R344 to R357; 16 R373 to
R378): what its S6 does to accumulators, scale entries, scratch, stream ports and channels, and what it emits. A firing
that must be diverted, or must wait, changes nothing.
-/
namespace Sys2Proof.Machine

/-- A firing: launch, PE, handler index, image and node, its record, its heads by port, the counters it reads, whether it
is a re-firing whose tokens are replays (R173), and the ERR of the gate heads that it consumes (R51, R355). -/
structure Firing where
  lseq   : Nat
  pe     : Nat
  h      : Nat
  g      : Nat
  n      : Nat
  hrec   : Nat
  heads  : List (Nat × Token)
  k      : List Nat
  replay : Bool
  gerr   : Bool
  deriving DecidableEq, Repr

/-- Why a firing is not performed: a cause with its VALUE diverts it; or it waits. -/
inductive Stop
  | cause (c v : Nat)
  | wait
  deriving DecidableEq, Repr

abbrev Done := Except Stop State

def Firing.plot (f : Firing) : Nat := f.pe / 64
def Firing.lead (f : Firing) : Token := (f.heads.head?.map (·.2)).getD (ctlToken .null 0 0 false)
/-- ERR of what the firing emits: the OR over every head it consumes (R51). -/
def Firing.err (f : Firing) : Bool := f.heads.any (·.2.err) || f.gerr

/-! ## Counters (R42) -/

/-- A step of the counters from one of them on, with the carry out of the last. -/
def stepFrom : List Nat → List Nat → List Nat × Bool
  | lim :: ls, k :: ks => if k < lim then ((k + 1) :: ks, false) else let r := stepFrom ls ks; (0 :: r.1, r.2)
  | _, ks => (ks, true)

/-- Whether a step wraps k0. -/
def wraps0 (lim k : List Nat) : Bool := decide (lim.getD 0 0 ≤ k.getD 0 0)

/-! ## Emission (R51, R173, R329) -/

/-- The channel of output A (0) or B (1). -/
def Node.out (n : Node) (side : Nat) : Nat := if side = 0 then n.outA else n.outB

/-- A DATA or NULL token counted as emitted (R180). -/
def countOut (s : State) (f : Firing) (side : Nat) (t : Token) : State :=
  if t.kind = .data ∨ t.kind = .null then
    modPlane s f.pe fun q =>
      let n := q.nodeSt f.h
      q.setNodeSt f.h (if side = 0 then { n with eA := n.eA + 1 } else { n with eB := n.eB + 1 })
  else s

/-- A token emitted on an output: on the channel, or on its replay lane, where it already carries its tag at the
consumer's plot. An output without a channel emits nothing. -/
def emitOut (s : State) (l : Launch) (f : Firing) (side : Nat) (t : Token) : Done :=
  let (v, p) := l.img f.g
  let c := (v.node f.n).out side
  if c = noChan then .ok s
  else if f.replay then
    match crossRoute (addHolder s f.plot t.stag) t.stag (p.legsOf c) with
    | none => .error .wait
    | some (s', tag) =>
      let s' := if (p.legsOf c).length ≤ 1 then s' else dropHolder s' f.plot t.stag
      .ok (pushReplay s' f.lseq (chanKey f.g c) { t with stag := tag, chan := (p.nums.getD c []).getLastD 0 })
  else .ok (countOut (emitTok s f.lseq (chanKey f.g c) t) f side t)

/-- The same token on both outputs. -/
def emitBoth (s : State) (l : Launch) (f : Firing) (t : Token) : Done :=
  match emitOut s l f 0 t with
  | .ok s => emitOut s l f 1 t
  | e => e

/-- A token of the firing without elements: it carries the firing tag, but a NULL never does (R51, R329). -/
def Firing.ctl (f : Firing) (k : TKind) (tag : Nat) : Token :=
  { ctlToken k f.lead.colour f.lead.seq f.err with stag := if k = .null then 0 else tag }

/-- An ordering token (R353): DATA with every valid bit clear. It carries the firing tag (R329). -/
def Firing.order (f : Firing) (colour tag : Nat) : Token :=
  { ctlToken .data colour f.lead.seq f.err with stag := tag }

/-- The DATA token of R329. -/
def Firing.data (f : Firing) (colour tag : Nat) (els : List Elem) (m : BitVec 16) : Token :=
  { kind := .data, stag := tag, colour := colour, err := f.err, rsv := 0, seq := f.lead.seq % 2 ^ 32, chan := 0, valid := m,
    elems := els }

/-! ## Accumulators (R41, R335, R345, R346) -/

def accAt (s : State) (pe d : Nat) : Acc := (peOf s pe).active.accs.getD d Acc.zero

def setAcc (s : State) (pe d : Nat) (a : Acc) : State := modPlane s pe fun q => { q with accs := setNth q.accs d a }

/-- SRETAG: an accumulator moved to another tag; the new entry gains a holder and the old one loses one (R335). -/
def retagAcc (s : State) (pe d tag : Nat) : State :=
  let a := accAt s pe d
  dropHolder (addHolder (setAcc s pe d { a with tag := tag }) (pe / 64) tag) (pe / 64) a.tag

/-- R_a (R346). -/
def releaseCount (q : Plane) (a : Nat) : Nat :=
  Nat.max 1 (q.hrecs.filter (fun x => !isMatrix x.2 && (op6 x.2 == 3 || op6 x.2 == 4) && sDest (hStage x.2 6) == a)).length

/-- A release: the accumulator's lanes and tag leave in a DATA token, and it is as configuration load left it (R346). -/
def releaseAcc (s : State) (l : Launch) (f : Firing) (d colour : Nat) : Done :=
  let a := accAt s f.pe d
  match emitBoth s l f (f.data colour a.tag a.lanes (BitVec.allOnes 16)) with
  | .ok s => .ok (setAcc (dropHolder s f.plot a.tag) f.pe d Acc.zero)
  | e => e

/-- The tag rule of ACC.F and ACC.I (R345): whether the accumulator adopts the tag, or the cause. -/
def accTag (x : Plot) (a : Acc) (float : Bool) (t : Nat) : Except Nat Bool :=
  if a.tag = 0 then
    if t = 0 then .ok false
    else if a.lanes.all (fun e => if float then e &&& 0x7FFFFFFFFF#40 == 0#40 else e == 0#40) then .ok true
    else .error 0x44
  else if t = 0 then .error 0x44
  else
    match readTag x t, readTag x a.tag with
    | .error c, _ => .error c
    | _, .error c => .error c
    | .ok u, .ok w => if u = w then .ok false else .error 0x44

/-- ACC.F and ACC.I (R345). -/
def fireAcc (s : State) (f : Firing) (i : FireIn) (fl : Flow) : Done :=
  let w := hStage f.hrec 6
  let float := sOp w == 3
  let d := sDest w
  let a := accAt s f.pe d
  match accTag (plotOf s f.plot) a float fl.tag with
  | .error c => .error (.cause c 0)
  | .ok adopt =>
    let r := fun l =>
      if float then wAdd (modeOf (sMod w)) (w40 (laneOf a.lanes l)) (opdA6 i fl l).w
      else i40Result (sMod w % 2 == 1) ((laneOf a.lanes l).toInt + (opdA6 i fl l).i)
    let els := lanes (fun l => if fl.m.getLsbD l then (r l).1 else laneOf a.lanes l)
    let g := (List.range 16).foldl (fun g l => if fl.m.getLsbD l then g ||| (r l).2 else g) 0
    let s := if adopt then addHolder s f.plot fl.tag else s
    let s := setAcc s f.pe d { a with lanes := els, tag := if adopt then fl.tag else a.tag }
    .ok (match launchOf s f.lseq with | some l => raiseFlags s f.lseq (partOf l f.plot) g | none => s)

/-! ## Atomic nodes (R377, R378) -/

/-- The scratch words of the lanes of M, in lane order. -/
def atomWords (i : FireIn) (fl : Flow) : List (Nat × Nat) :=
  ((List.range 16).filter (fun l => fl.m.getLsbD l)).map (fun l => (l, ((opdA6 i fl l).i % 2 ^ 23).toNat / 8 * 8))

/-- Every lane performed in turn: the state, and the old value of each lane. -/
def atomLanes (op : AmoOp) (i : FireIn) (fl : Flow) (p : Nat) : List (Nat × Nat) → State → State × List (Nat × Elem)
  | [], s => (s, [])
  | (l, ea) :: r, s =>
    let old := winRead s p ea 8 % 2 ^ 40
    let x := (BitVec.ofInt 40 (opdB6 i fl l).i).toNat
    let s := winWrite s p ea 8 (amoVal op 5 old x % 2 ^ 40)
    let rest := atomLanes op i fl p r s
    (rest.1, (l, BitVec.ofNat 40 old) :: rest.2)

def amoOf : Nat → AmoOp
  | 0 => .swap | 1 => .add | 2 => .and | 3 => .or | 4 => .xor | 5 => .min | _ => .max

/-- ATOMN of a DATA firing (R377, R378). -/
def fireAtomn (s : State) (l : Launch) (f : Firing) (i : FireIn) (fl : Flow) : Done :=
  let ws := atomWords i fl
  match ws.find? (fun w => inFifo s f.plot w.2 8) with
  | some w => .error (.cause 0x25 w.2)
  | none =>
    if fl.tag ≠ 0 then .error (.cause 0x44 0)
    else if ws.any (fun w => listed s.backed (2048 * f.plot + w.2 / 4096)) then .error .wait
    else
      let r := atomLanes (amoOf (sMod (hStage f.hrec 6))) i fl f.plot ws s
      let els := lanes (fun k => ((r.2.find? (fun x => x.1 == k)).map (·.2)).getD 0#40)
      match emitOut r.1 l f 0 (f.data fl.colour 0 els fl.m) with
      | .ok s => emitOut s l f 1 (f.order fl.colour fl.tag)
      | e => e

/-! ## Sinks (R304, R354, R158) -/

/-- Lanes of the channel a sink reads (R99). -/
def sinkLanes (l : Launch) (f : Firing) : Nat :=
  let v := (l.img f.g).1
  (v.chan ((v.node f.n).ports.getD (hLow f.hrec) noChan)).lanes

/-- The record of a sink that receives more than its stream holds (R304). -/
def overrunInfo (s : State) (l : Launch) (f : Firing) (r : SRec) : FInfo :=
  { time := s.time, value := r.addr, seq := f.lead.seq, node := f.n,
    chan := some (((l.img f.g).1.node f.n).ports.getD (hLow f.hrec) noChan), plot := f.plot, srcNo := 1,
    unit := hLow f.hrec, cause := 0x2A, orig := 0, acc := 1, lseq := f.lseq }

/-- The scratch words of a token in a ring slot (R157). -/
def writeSlot (s : State) (p at_ : Nat) (els : Nat → Option Elem) : State :=
  (List.range 16).foldl (fun s i =>
    winWrite s p (at_ + 8 * i) 8 (match els i with | some e => slotWord true e | none => 0)) s

/-- A token consumed by a sink: its lanes wait for their stores, or fill a slot of the handle's ring; its ordering
token follows its stores. It carries the firing tag, and until then holds the tag's entry (R135, R329). -/
def sinkFire (s : State) (l : Launch) (f : Firing) (colour tag : Nat) (els : Nat → Option Elem) : Done :=
  let p := l.port f.n
  let tag := if ((l.img f.g).1.node f.n).outA = noChan then 0 else tag
  let t := { f.order colour tag with seq := f.lead.seq }
  match p.active with
  | none => .error .wait
  | some (.stream r tid _ _ ctr _ _ _) =>
    let lanes := sinkLanes l f
    if r.tokens lanes ≤ p.sinkTok then
      let s := addHolder (raiseFault s f.lseq (.port f.n) (overrunInfo s l f r)) f.plot tag
      .ok (modLaunch s f.lseq fun l => l.setPort f.n { p with sinkTok := p.sinkTok + 1, sinkQ := p.sinkQ ++ [(t, 0, [])] })
    else
      let n := (r.tokenAt lanes p.sinkTok).2
      let es := (List.range n).map els
      let now := if es.any (·.isSome) then 0 else n
      .ok (modLaunch (subPend (addHolder s f.plot tag) tid ctr (now * r.size)) f.lseq fun l => l.setPort f.n
        { p with sinkTok := p.sinkTok + 1, consumed := p.consumed + n, performed := p.performed + now, sinkQ := p.sinkQ ++ [(t, 0, es)] })
  | some (.handle tid h plot _ _) =>
    match boundHandle s f.lseq tid h with
    | none => .error .wait
    | some x =>
      let at_ := x.slotAddr x.tail 0
      if x.free = 0 ∨ listed s.backed (2048 * plot + at_ / 4096) then .error .wait
      else
        let s := writeSlot s plot at_ els
        let s := modLaunch s f.lseq fun l => l.setPort f.n { p with sinkTok := p.sinkTok + 1, consumed := p.consumed + 1 }
        emitOut (setBoundHandle s f.lseq tid h { x with tail := (x.tail + 1) % 2 ^ 32 }) l f 0 t

/-! ## Corner turn (R357) -/

/-- The block buffer with a row put at its number. -/
def putRow (b : List Token) (r : Nat) (t : Token) : List Token :=
  setNth (b ++ List.replicate (r + 1 - b.length) (ctlToken .null 0 0 false)) r t

/-- Column `c` of a block as a token. -/
def columnTok (x : Flush) (b : List Token) (c : Nat) : Token :=
  let h := b.length
  let last := (b.getLastD (ctlToken .null 0 0 false)).seq
  { kind := .data, stag := x.tag, colour := x.colour, err := x.err, rsv := 0,
    seq := (last + 2 ^ 32 - (h - 1) + c) % 2 ^ 32, chan := 0
    valid := maskOf (fun j => decide (j < h) && ((b.getD j (ctlToken .null 0 0 false)).valid.getLsbD c))
    elems := lanes (fun j => if j < h ∧ (b.getD j (ctlToken .null 0 0 false)).valid.getLsbD c
      then tokEl (b.getD j (ctlToken .null 0 0 false)) c else 0#40) }

/-- A flush begun: its columns leave one by one. It holds its tag until the last has left (R135). -/
def startFlush (s : State) (pe h n colour tag : Nat) (err ctl : Bool) : State :=
  addHolder (modPlane s pe fun q => { q with
      flush := some { h := h, n := n, colour := colour, tag := tag, err := err, done := 0, ctl := ctl } })
    (pe / 64) tag

/-- A row stored, and a flush begun after row 15. -/
def cturnRow (s : State) (f : Firing) (colour tag : Nat) (row : Token) : Done :=
  let r := f.k.getD 0 0
  let s := modPlane s f.pe fun q => { q with block := putRow q.block r row }
  .ok (if r = 15 then startFlush s f.pe f.h f.n colour tag f.err false else s)

/-- The flush after a column: one more is done; after the sixteenth the block is empty, and the flush is over unless a control
firing of the handler completes it (R357). -/
def Plane.columnDone (q : Plane) (x : Flush) : Plane :=
  if x.done < 15 then { q with flush := some { x with done := x.done + 1 } }
  else { q with block := [], flush := if x.ctl then some { x with done := 16 } else none }

/-- The next column of a flush, emitted once its channel has a credit; none where it must wait for that, or because it would
raise a REF past its limit (R135, R357). -/
def flushStep (s : State) (l : Launch) (pe : Nat) (x : Flush) : Option State :=
  let q := (peOf s pe).active
  let c := ((l.img q.img).1.node x.n).outA
  if c ≠ noChan ∧ chanCredit s l (chanKey q.img c) = false then none
  else
    let s := if c = noChan then s else emitTok s l.lseq (chanKey q.img c) (columnTok x q.block x.done)
    let s := modPlane s pe fun q =>
      let n := q.nodeSt x.h
      (if c = noChan then q else q.setNodeSt x.h { n with eA := n.eA + 1 }).columnDone x
    let s := if x.done < 15 then s else dropHolder s (pe / 64) x.tag
    if refOver s (pe / 64) then none else some s

/-! ## Sources (R152, R353) -/

/-- Values in a lane of a source's tokens: two where FP4 goes to a MATRIX node (R127). -/
def packOfRec (v : Variant) (n : Nat) (r : SRec) : Nat :=
  let c := (v.node n).outA
  if r.fmt = 5 ∧ c ≠ noChan ∧ isMatrix (v.node (v.chan c).dst).hrec = true then 2 else 1

/-- A source's DATA token has been emitted: the bytes of its elements leave the counter. -/
def sourceSent (s : State) (l : Launch) (f : Firing) : State :=
  let p := l.port f.n
  match p.active with
  | some (.stream r tid _ _ ctr _ _ _) =>
    let n := ((List.range 16).filter (fun i => f.lead.valid.getLsbD i)).length * packOfRec (l.img f.g).1 f.n r
    modLaunch (subPend s tid ctr (n * r.size)) f.lseq fun l =>
      l.setPort f.n { l.port f.n with emitted := p.emitted + 1, performed := p.performed + n }
  | _ => modLaunch s f.lseq fun l => l.setPort f.n { l.port f.n with emitted := p.emitted + 1 }

/-- The two tokens of a source or an ATOMN: the data, and the ordering token. -/
def emitMem (s : State) (l : Launch) (f : Firing) (colour : Nat) (t : Token) : Done :=
  match emitOut s l f 0 t with
  | .ok s => (emitOut s l f 1 (f.order colour t.stag)).map (fun s => if isSource f.hrec && !f.replay then sourceSent s l f else s)
  | e => e

/-! ## S6 of a DATA or merge firing -/

/-- The mask of a memory node after operand B has dropped lanes (R352). -/
def dropMask (i : FireIn) (fl : Flow) : BitVec 16 := maskOf (fun l => fl.m.getLsbD l && (opdB6 i fl l).i == 0)

/-- EOSGEN's ends, from the counters the firing read (R348). -/
def eosgenEnds (s : State) (l : Launch) (f : Firing) (colour tag : Nat) : Done :=
  let lim := (peOf s f.pe).active.klim
  let ctl := fun k => { f.ctl k tag with colour := colour }
  let one := if hKstep f.hrec && wraps0 lim f.k then emitBoth s l f (ctl .eor) else .ok s
  match one with
  | .ok s => if hKstep f.hrec && (stepFrom lim f.k).2 then emitBoth s l f (ctl .eos) else .ok s
  | e => e

/-- S6 that does not run (R45): the DATA token of R329 with A unchanged; a STORES acts as in a null firing (R354). -/
def idleS6 (s : State) (l : Launch) (f : Firing) (i : FireIn) (fl : Flow) : Done :=
  let els := lanes (fun k => (opdA6 i fl k).c)
  if isStores f.hrec then sinkFire s l f fl.colour fl.tag (fun _ => none)
  else if isSource f.hrec || isAtomn f.hrec then emitMem s l f fl.colour (f.data fl.colour fl.tag els fl.m)
  else emitBoth s l f (f.data fl.colour fl.tag els fl.m)

/-- S6 of a firing whose stages S1 to S5 have run. -/
def fireS6 (s : State) (l : Launch) (f : Firing) (i : FireIn) (fl : Flow) : Done :=
  let w := hStage f.hrec 6
  if stageRuns w i.lead.colour = false then idleS6 s l f i fl
  else
    let r := v6Of i fl
    let s := raiseFlags s f.lseq (partOf l f.plot) r.2.2
    let data := f.data fl.colour fl.tag r.1 r.2.1
    match sOp w with
    | 0x03 | 0x04 => fireAcc s f i fl
    | 0x05 => releaseAcc s l f (sDest w) fl.colour
    | 0x07 => emitOut s l f (fl.colour % 2) data
    | 0x08 => emitBoth s l f { f.ctl .null 0 with colour := fl.colour }
    | 0x09 =>
      match emitBoth s l f data with
      | .ok s => eosgenEnds s l f fl.colour fl.tag
      | e => e
    | 0x10 | 0x12 =>
      let m := dropMask i fl
      emitMem s l f fl.colour (f.data fl.colour fl.tag (lanes (fun k => if m.getLsbD k then laneOf r.1 k else 0#40)) m)
    | 0x11 =>
      if fl.tag ≠ 0 then .error (.cause 0x44 0)
      else
        let m := dropMask i fl
        sinkFire s l f fl.colour fl.tag (fun k => if m.getLsbD k then some (laneOf r.1 k) else none)
    | 0x13 => fireAtomn s l f i fl
    | 0x1C => cturnRow s f fl.colour fl.tag data
    | _ => emitBoth s l f data

/-- A firing counted on its lowest port (R180). -/
def countIn (s : State) (f : Firing) : State :=
  if f.replay then s
  else modPlane s f.pe fun q => let n := q.nodeSt f.h; q.setNodeSt f.h { n with c := n.c + 1 }

/-- A DATA or merge firing: S1 to S6 on its heads; a merge firing reads DATA in place of NULL (R349). -/
def fireData (s : State) (l : Launch) (f : Firing) (merge : Bool) : Done :=
  let ds := f.heads.filter (fun x => x.2.kind == .data)
  let low := (ds.head?.map (·.2)).getD f.lead
  let f := if merge then { f with heads := (ds.take 1) ++ (f.heads.filter (fun x => some x != ds.head?)) } else f
  let heads := if merge then f.heads.map (fun x => if x.2.kind = .null then (x.1, { low with err := x.2.err }) else x) else f.heads
  let q := (peOf s f.pe).active
  let i : FireIn := { h := f.hrec, heads := heads, accs := q.accs, k := f.k, plot := plotOf s f.plot }
  match stages i with
  | .error c => .error (.cause c 0)
  | .ok fl =>
    let s := match fl.retag with | some (d, t) => retagAcc s f.pe d t | none => s
    match fireS6 (raiseFlags s f.lseq (partOf l f.plot) fl.fl) l f i fl with
    | .ok s => .ok (countIn s f)
    | e => e

/-! ## Null and control firings (R52, R53) -/

/-- A null firing: NULL on each valid output; a sink counts its positions, an ATOMN and a sink emit their ordering token,
and a CTURN takes a row that is all invalid (R52, R354, R357, R377). -/
def fireNull (s : State) (l : Launch) (f : Firing) : Done :=
  let r :=
    if isStores f.hrec then sinkFire s l f f.lead.colour f.lead.stag (fun _ => none)
    else if isAtomn f.hrec then
      match emitOut s l f 0 (f.ctl .null 0) with
      | .ok s => emitOut s l f 1 (f.order f.lead.colour f.lead.stag)
      | e => e
    else if has6 f.hrec 0x1C then cturnRow s f f.lead.colour f.lead.stag (ctlToken .data 0 f.lead.seq false)
    else emitBoth s l f (f.ctl .null 0)
  match r with
  | .ok s => .ok (countIn s f)
  | e => e

/-- Whether an output keeps its bounds since the last MARK (R180). -/
def inBalance (x : Chan) (c e : Nat) : Bool :=
  decide (x.rminN * c ≤ e * x.rminD) && decide (e * x.rmaxD ≤ x.rmaxN * c)

/-- The record and the suspicion of an output out of balance (R180). Where the producer stands in the node's own plot, the rule
does not say that the two shares add up: the plot takes 64 once (DESIGN CHOICE, log 104). -/
def balanceFault (s : State) (l : Launch) (f : Firing) (c e : Nat) (k : Nat) : State :=
  let (v, p) := l.img f.g
  let up := (v.node f.n).ports.getD (hLow f.hrec) noChan
  let s := raiseFault s f.lseq (.pe f.pe f.h)
    (peInfo s f.lseq f.plot f.n (some k) (hLow f.hrec) 0xA0 (e * 2 ^ 32 + c % 2 ^ 32) f.lead.seq)
  let s := addScore s (unitPlot f.plot) 64
  if up = noChan ∨ p.plotOf (v.chan up).src = f.plot then s else addScore s (unitPlot (p.plotOf (v.chan up).src)) 64

/-- The balance check of a MARK; the counts start again (R180, R357). -/
def checkBalance (s : State) (l : Launch) (f : Firing) : State :=
  let v := (l.img f.g).1
  let n := (peOf s f.pe).active.nodeSt f.h
  let c := if has6 f.hrec 0x1C then (n.c + 15) / 16 * 16 else n.c
  let one := fun (s : State) (side e : Nat) =>
    let k := (v.node f.n).out side
    if k = noChan ∨ inBalance (v.chan k) c e = true then s else balanceFault s l f c e k
  let s := one (one s 0 n.eA) 1 n.eB
  modPlane s f.pe fun q => q.setNodeSt f.h { q.nodeSt f.h with c := 0, eA := 0, eB := 0 }

/-- What an EOS firing does to a stream port: a source has emitted its EOS, a sink has consumed it (R302, R158). -/
def portEos (s : State) (f : Firing) : State :=
  if isPort f.hrec then
    let src := isSource f.hrec
    let s := modLaunch s f.lseq fun l =>
      let p := l.port f.n
      l.setPort f.n (if src then { p with eosOut := true } else { p with eosIn := true })
    match launchOf s f.lseq with
    | none => s
    | some l =>
      match (l.port f.n).active with
      | some (.handle tid h _ _ _) =>
        (match boundHandle s f.lseq tid h with
         | some x => setBoundHandle s f.lseq tid h { x with eos := true }
         | none => s)
      | _ => s
  else s

/-- A control firing (R53); its tokens carry the tag of its lead head (R329). One fired again checks no balance (R173). -/
def fireCtl (s : State) (l : Launch) (f : Firing) (k : TKind) : Done :=
  match k with
  | .eos => if has6 f.hrec 9 then .ok s else (emitBoth s l f (f.ctl .eos f.lead.stag)).map (portEos · f)
  | .mark => emitBoth (if f.replay then s else checkBalance s l f) l f (f.ctl .mark f.lead.stag)
  | _ =>
    match accOf f.hrec with
    | none => emitBoth s l f (f.ctl .eor f.lead.stag)
    | some d =>
      let a := accAt s f.pe d
      let n := Nat.min (a.eor + 1) 65535
      let s := setAcc s f.pe d { a with eor := n }
      if releaseCount (peOf s f.pe).active d ≤ n then releaseAcc s l f d f.lead.colour else .ok s

/-! ## What a firing is -/

/-- The kinds of firing of R52, R53, R178 and R349. -/
inductive FKind
  | data
  | null
  | merge
  | ctl (k : TKind)
  | unpaired (port : Nat)
  deriving DecidableEq, Repr

/-- The firing that heads make, if any. -/
def classify (h : Nat) (heads : List (Nat × Token)) : Option FKind :=
  let all := fun (k : TKind) => heads.all (fun x => x.2.kind == k)
  let dn := fun (x : Nat × Token) => x.2.kind == .data || x.2.kind == .null
  let eqSeq := !isJoin h || heads.all (fun x => some x.2.seq == heads.head?.map (·.2.seq))
  if all .data then (if eqSeq then some .data else none)
  else if heads.all dn then
    (if has6 h 6 && heads.any (fun x => x.2.kind == .data) then some .merge else if eqSeq then some .null else none)
  else if all .eos then some (.ctl .eos)
  else if all .eor then some (.ctl .eor)
  else if all .mark then some (.ctl .mark)
  else if heads.length == 2 && !isStateful h && heads.any (fun x => x.2.kind == .eos) then
    (heads.find? dn).map (fun x => .unpaired x.1)
  else none

/-- A firing performed in full. -/
def perform (s : State) (l : Launch) (f : Firing) (k : FKind) : Done :=
  match k with
  | .data => fireData s l f false
  | .merge => fireData s l f true
  | .null => fireNull s l f
  | .ctl k => fireCtl s l f k
  | .unpaired _ => .ok s

end Sys2Proof.Machine
end

