-- ==== Sys2Proof/Machine/Image.lean ====
section
/-!
DEFINITION. The graph image and the launch header (03_graphs_and_placement.md R61 to R68, R412; 04 R106; 12 R264 to
R268; 15 R351, R358, R360; 16 R376, R377, R379): reading them as Marten reads, and every refusal of them.
-/
namespace Sys2Proof.Machine

/-! ## Marten's reads (R412) -/

/-- The context Marten reads a launch in: GID and PKEY are not checked (R412). -/
def martenCtx (vd : Nat) : Ctx := { vd := vd, lseq := 0, gid := 0, pkeys := 0#64, agent := .marten }

/-- `n` bytes read granule by granule: their value, or the memory cause. -/
def readRange (c : Ctx) : Nat → State → Nat → Nat → State × Except Nat Nat
  | 0, s, _, _ => (s, .ok 0)
  | f + 1, s, va, n =>
    if n = 0 then (s, .ok 0)
    else
      let k := Nat.min n (65536 - va % 65536)
      match loadVA s c .read va k 1 with
      | (s, .ok v) =>
        match readRange c f s (va + k) (n - k) with
        | (s, .ok w) => (s, .ok (v + 2 ^ (8 * k) * w))
        | r => r
      | (s, .bad x _) => (s, .error x)
      | (s, .hold _) => (s, .error 0x25)

def martenRead (s : State) (vd va n : Nat) : State × Except Nat Nat :=
  readRange (martenCtx vd) (n / 65536 + 2) s va n

/-! ## Statuses (R76) -/

def stOK : Nat := 0
def stFitSpace : Nat := 1
def stFitRoute : Nat := 2
def stFitRate : Nat := 3
def stFitScale : Nat := 4
def stHeader : Nat := 5
def stImage : Nat := 6

/-! ## The image (R61 to R65, R106) -/

/-- An image: its signature and its variants. -/
structure Image where
  sig : Nat
  variants : List Variant
  deriving DecidableEq, Repr

/-- The field of `n` bytes at an offset of an image held as one little-endian number. -/
def imgAt (img off n : Nat) : Nat := fld img (8 * (off + n) - 1) (8 * off)

/-- A table of `n` bytes at an offset that is a multiple of 16, inside the image. -/
def tableOk (len off n : Nat) : Bool := off % 16 == 0 && decide (off + n ≤ len)

def list16 (img off n : Nat) : List Nat := (List.range n).map (fun i => imgAt img (off + 2 * i) 2)

/-- A node record (R63); a limit Ki is kept as LIMi = Li − 1 (R56). -/
def parseNode (img off : Nat) : Node :=
  { hrec := imgAt img off 32, ports := list16 img (off + 32) 8, outA := imgAt img (off + 48) 2,
    outB := imgAt img (off + 50) 2, part := imgAt img (off + 52) 1, pack := imgAt img (off + 53) 1,
    srfn := imgAt img (off + 54) 1,
    klim := (list16 img (off + 56) 4).map (fun k => (k + 65535) % 65536) }

/-- A channel record (R64). -/
def parseChan (img off : Nat) : Chan :=
  { src := imgAt img off 2, dst := imgAt img (off + 2) 2, cls := imgAt img (off + 4) 1 % 16,
    lanes := imgAt img (off + 4) 1 / 16 + 1, back := imgAt img (off + 5) 1 % 2 == 1, depth := imgAt img (off + 6) 2,
    rminN := imgAt img (off + 8) 2, rminD := imgAt img (off + 10) 2, rmaxN := imgAt img (off + 12) 2,
    rmaxD := imgAt img (off + 14) 2 }

def chanIxOk (nchan c : Nat) : Bool := c == noChan || decide (c < nchan)

/-- The IMAGE conditions on a node record (R63, R65, R268, R379). -/
def nodeImageOk (img off npart nchan : Nat) : Bool :=
  let n := parseNode img off
  fld n.hrec 63 18 == 0 && imgAt img (off + 55) 1 == 0 && decide (n.part < npart) && decide (n.srfn ≤ 64) &&
  n.ports.all (chanIxOk nchan) && chanIxOk nchan n.outA && chanIxOk nchan n.outB &&
  (!isMatrix n.hrec || (List.range 8).all (fun j => chanIxOk nchan (matrixCol n.hrec j))) &&
  (!isFork n.hrec || (n.outA != noChan && n.outB != noChan))

/-- Every channel a node names as an output (R65). -/
def Node.named (n : Node) : List Nat :=
  ([n.outA, n.outB] ++ (if isMatrix n.hrec then (List.range 8).map (matrixCol n.hrec) else [])).filter (· != noChan)

/-- The IMAGE conditions on a channel record (R64, R65). -/
def chanImageOk (img off : Nat) (v : Variant) (c : Nat) : Bool :=
  let x := parseChan img off
  decide (x.cls ≤ 2) && decide (imgAt img (off + 5) 1 < 2) && decide (4 ≤ x.depth) && decide (x.depth ≤ 4096) &&
  decide (x.src < v.nodes.length) && decide (x.dst < v.nodes.length) &&
  (v.node x.dst).ports.elem c && (v.node x.src).named.elem c &&
  x.rminD != 0 && x.rmaxD != 0 && decide (x.rminN * x.rmaxD ≤ x.rmaxN * x.rminD)

/-- Every output a node names has that node as its source (R65). -/
def outsOk (v : Variant) : Bool :=
  (List.range v.nodes.length).all (fun n => (v.node n).named.all (fun c => (v.chan c).src == n))

/-- Nodes that share a PE (R63). -/
def samePe (v : Variant) (a b : Nat) : Bool :=
  a == b || ((v.node a).pack != 0 && (v.node a).pack == (v.node b).pack && (v.node a).part == (v.node b).part)

def packOf (v : Variant) (n : Nat) : List Nat := (List.range v.nodes.length).filter (samePe v n)

/-- The channels that the ports of some nodes bind, each once. -/
def portChans (v : Variant) (ns : List Nat) : List Nat :=
  (ns.map (fun n => (v.node n).ports)).flatten.foldl (fun l c => if c = noChan then l else addNat l c) []

/-- The limits of a pack (R63). -/
def packsOk (v : Variant) : Bool :=
  (List.range v.nodes.length).all (fun n =>
    decide ((packOf v n).length ≤ 16) && decide ((portChans v (packOf v n)).length ≤ 8 || (v.node n).pack = 0) &&
    (packOf v n).all (fun m => (v.node m).klim == (v.node n).klim))

/-- The next node of Kahn's order: the lowest one whose non-BACK producers have all been taken (R71). -/
def topoNext (v : Variant) (taken : List Nat) : Option Nat :=
  (List.range v.nodes.length).find? (fun n =>
    !taken.elem n && v.chans.all (fun c => c.back || c.dst != n || taken.elem c.src))

def topoFrom (v : Variant) : Nat → List Nat → List Nat
  | 0, t => t
  | k + 1, t =>
    match topoNext v t with
    | some n => topoFrom v k (t ++ [n])
    | none => t

/-- Topological order (R71); shorter than the node table when non-BACK channels form a cycle (R65). -/
def topo (v : Variant) : List Nat := topoFrom v v.nodes.length []

/-- The sections of an alias-class or scope table, from an offset (R106): for each the flag and nodes of its entries;
none where one is malformed. -/
def sections (img len : Nat) (flagged : Bool) : Nat → Nat → Option (List (List (Bool × List Nat)))
  | 0, _ => some []
  | k + 1, off =>
    let cnt := imgAt img off 2
    let next := imgAt img (off + 4) 4
    if len < off + 16 + 8 * cnt ∨ imgAt img (off + 2) 2 ≠ 0 ∨ imgAt img (off + 8) 8 ≠ 0 ∨ (next = 0 ∧ k ≠ 0) ∨
        (next ≠ 0 ∧ k = 0) then none
    else
      let ok := (List.range cnt).all (fun i =>
        let e := off + 16 + 8 * i
        let nm := imgAt img e 2
        decide (1 ≤ nm) && decide (nm ≤ 4096) && decide (imgAt img (e + 2) 1 < (if flagged then 2 else 1)) &&
        imgAt img (e + 3) 1 == 0 && decide (imgAt img (e + 4) 4 + 2 * nm ≤ len))
      if ok = false then none
      else
        let es := (List.range cnt).map (fun i =>
          let e := off + 16 + 8 * i
          (imgAt img (e + 2) 1 == 1, list16 img (imgAt img (e + 4) 4) (imgAt img e 2)))
        (sections img len flagged k next).map (es :: ·)

/-- Every class and scope names nodes of its variant; no node stands in two classes; no ATOMN is in an RO class
(R65, R106, R379). -/
def aliasOk (v : Variant) : Bool :=
  let nn := v.nodes.length
  v.alias_.all (fun a => a.2.all (fun n => decide (n < nn))) && v.scopes.all (fun a => a.all (fun n => decide (n < nn))) &&
  (List.range nn).all (fun n => decide ((v.alias_.filter (fun a => a.2.elem n)).length ≤ 1)) &&
  v.alias_.all (fun a => !a.1 || a.2.all (fun n => !isAtomn (v.node n).hrec))

/-- A variant of the table (R62), without its alias classes and scopes; none where a count, an offset or a reserved
field is wrong. -/
def parseVariant (img len off : Nat) : Option Variant :=
  let npart := imgAt img (off + 1) 1
  let nnode := imgAt img (off + 2) 2
  let nchan := imgAt img (off + 4) 2
  let no := imgAt img (off + 8) 4; let co := imgAt img (off + 12) 4; let po := imgAt img (off + 16) 4
  if 3 < imgAt img off 1 ∨ npart = 0 ∨ 64 < npart ∨ nnode = 0 ∨ 4096 < nnode ∨ 16384 < nchan ∨ imgAt img (off + 6) 2 ≠ 0 ∨
      imgAt img (off + 20) 4 ≠ 0 ∨ tableOk len no (64 * nnode) = false ∨ tableOk len co (16 * nchan) = false ∨
      tableOk len po (8 * npart) = false then none
  else
    let v : Variant :=
      { factor := imgAt img off 1
        parts := (List.range npart).map (fun q => (imgAt img (po + 8 * q) 1, imgAt img (po + 8 * q + 1) 1))
        nodes := (List.range nnode).map (fun n => parseNode img (no + 64 * n))
        chans := (List.range nchan).map (fun c => parseChan img (co + 16 * c))
        alias_ := [], scopes := [] }
    if (List.range npart).all (fun q => imgAt img (po + 8 * q + 3) 5 == 0) &&
        v.parts.all (fun p => decide (1 ≤ p.1) && decide (p.1 ≤ 4) && decide (1 ≤ p.2) && decide (p.2 ≤ 8)) &&
        (List.range nnode).all (fun n => nodeImageOk img (no + 64 * n) npart nchan) &&
        (List.range nchan).all (fun c => chanImageOk img (co + 16 * c) v c) && outsOk v && packsOk v &&
        (topo v).length == nnode
    then some v else none

/-- The variants of a table, with their sections. -/
def parseVariants (img len off : Nat) (al sc : List (List (Bool × List Nat))) : Nat → Option (List Variant)
  | 0 => some []
  | k + 1 =>
    let i := al.length - (k + 1)
    match parseVariant img len (off + 32 * i), parseVariants img len off al sc k with
    | some v, some vs =>
      let v := { v with alias_ := al.getD i [], scopes := (sc.getD i []).map (·.2) }
      if aliasOk v then some (v :: vs) else none
    | _, _ => none

def distinct : List Nat → Bool
  | [] => true
  | a :: l => !l.elem a && distinct l

/-- The image in `len` bytes, or none where it is refused with IMAGE (R65, R106, R268, R379). -/
def parseImage (img len : Nat) : Option Image :=
  let nvar := imgAt img 8 1
  let vo := imgAt img 16 8; let ao := imgAt img 24 8; let so := imgAt img 32 8; let sig := imgAt img 48 8
  if len < 64 ∨ imgAt img 0 4 ≠ 0x3149474B ∨ imgAt img 4 2 ≠ 1 ∨ imgAt img 6 2 ≠ 0 ∨ imgAt img 9 7 ≠ 0 ∨
      imgAt img 56 8 ≠ 0 ∨ nvar = 0 ∨ 4 < nvar ∨ tableOk len vo (32 * nvar) = false ∨ ao % 16 ≠ 0 ∨ so % 16 ≠ 0 then none
  else if (List.range nvar).any (fun i => imgAt img (vo + 32 * i + 24) 8 != sig) then none
  else if distinct ((List.range nvar).map (fun i => imgAt img (vo + 32 * i) 1)) = false then none
  else
    match sections img len true nvar ao, sections img len false nvar so with
    | some al, some sc => (parseVariants img len vo al sc nvar).map fun vs => { sig := sig, variants := vs }
    | _, _ => none

/-- The image at an address as Marten takes it (R412 step 3): it, or the cause of a failed read (0 where the image
was read and is refused). -/
def readImage (s : State) (vd va : Nat) : State × Except Nat Image :=
  if va % 64 ≠ 0 then (s, .error 0)
  else
    match martenRead s vd va 64 with
    | (s, .error c) => (s, .error c)
    | (s, .ok h) =>
      let len := imgAt h 40 8
      match martenRead s vd va len with
      | (s, .error c) => (s, .error c)
      | (s, .ok img) =>
        match parseImage img len with
        | some m => (s, .ok m)
        | none => (s, .error 0)

/-! ## Stage words (R264 to R266) -/

/-- The MOD classes of R265; FCMP and ICMP differ in their conditions. -/
inductive OpClass | z | r | s | cf | ci | p | l | q | k | w | t | g
  deriving DecidableEq, Repr

/-- An operation of a stage: how many operands it uses, its class, whether DEST names an accumulator. -/
structure OpInfo where
  ops : Nat
  cls : OpClass
  acc : Bool
  deriving DecidableEq, Repr

/-- The ALU operations of S2 and S5. -/
def aluInfo (op : Nat) : Option OpInfo :=
  match op with
  | 0x01 | 0x02 => some ⟨2, .r, false⟩
  | 0x03 | 0x04 => some ⟨2, .z, false⟩
  | 0x05 => some ⟨2, .cf, false⟩
  | 0x06 | 0x07 => some ⟨1, .z, false⟩
  | 0x10 | 0x11 => some ⟨2, .s, false⟩
  | 0x12 | 0x13 => some ⟨2, .z, false⟩
  | 0x14 => some ⟨2, .ci, false⟩
  | 0x15 | 0x16 | 0x17 => some ⟨2, .z, false⟩
  | 0x18 => some ⟨2, .s, false⟩
  | 0x19 | 0x1A => some ⟨2, .z, false⟩
  | _ => none

/-- The table of R264. -/
def opInfo (stage op : Nat) : Option OpInfo :=
  if op = 0 then some ⟨1, .z, false⟩
  else
    match stage with
    | 1 =>
      match op with
      | 1 | 2 | 3 => some ⟨1, .r, false⟩
      | 4 => some ⟨2, .p, false⟩
      | 5 => some ⟨1, .l, false⟩
      | 6 => some ⟨1, .r, false⟩
      | 7 => some ⟨1, .z, true⟩
      | _ => none
    | 2 => if op = 0x20 then some ⟨1, .k, false⟩ else aluInfo op
    | 3 =>
      match op with
      | 1 => some ⟨2, .r, false⟩
      | 2 | 3 => some ⟨3, .r, false⟩
      | 0x10 => some ⟨2, .s, false⟩
      | _ => none
    | 4 =>
      match op with
      | 1 | 4 => some ⟨2, .r, false⟩
      | 2 | 3 => some ⟨3, .r, false⟩
      | _ => none
    | 5 =>
      match op with
      | 0x40 | 0x41 | 0x44 | 0x45 => some ⟨1, .z, false⟩
      | 0x42 | 0x43 => some ⟨2, .r, false⟩
      | _ => aluInfo op
    | _ =>
      match op with
      | 1 | 2 => some ⟨1, .q, false⟩
      | 3 => some ⟨1, .r, true⟩
      | 4 => some ⟨1, .s, true⟩
      | 5 => some ⟨0, .z, true⟩
      | 6 | 7 | 8 | 9 => some ⟨1, .z, false⟩
      | 0x10 | 0x11 | 0x12 => some ⟨2, .w, false⟩
      | 0x13 => some ⟨2, .t, false⟩
      | 0x18 | 0x19 => some ⟨1, .z, false⟩
      | 0x1A | 0x1B => some ⟨1, .g, false⟩
      | 0x1C => some ⟨1, .z, false⟩
      | _ => none

/-- MOD values of a class (R265). -/
def modOk (c : OpClass) (m : Nat) : Bool :=
  match c with
  | .z | .l => m == 0
  | .r | .p | .k => decide (m < 4)
  | .s => decide (m < 2)
  | .cf | .q | .t => decide (m < 7)
  | .ci | .g => decide (m < 6)
  | .w => decide (m < 5)

/-- The used operands' selectors. -/
def usedSels (w n : Nat) : List Nat := [sA w, sB w, sC w].take n

/-- IMM as a class allows it, where a used selector may be the immediate (R265). In S1 a selector 0x6 is port 6 (R44), and R265 and R266
do not say whether their words on a selector 0x6 hold there. The model takes them to speak of the immediate alone: an S1 word of class
P or L may name port 6, and one of class Z or R that does has IMM 0 (DESIGN CHOICE, log 111). -/
def immOk (stage w : Nat) (o : OpInfo) : Bool :=
  let imm := decide (1 < stage) && (usedSels w o.ops).elem 6
  match o.cls with
  | .p | .l => decide (sImm w < 16)
  | .q => if sMod w = 0 then !imm && decide (sImm w < 4) else sImm w == 0
  | _ => imm || sImm w == 0

/-- A stage word that R266 does not refuse. In S1 every selector is in use (R327). -/
def wordOk (stage w : Nat) : Bool :=
  match opInfo stage (sOp w) with
  | none => false
  | some o =>
    modOk o.cls (sMod w) && (o.acc || sDest w == 0) && !(decide (1 ≤ sPm w) && decide (sPm w ≤ 3)) && immOk stage w o &&
    (if stage = 1 then o.cls != .p || sMod w == 0 || sB w == 0
     else
      ([sA w, sB w, sC w].drop o.ops).all (· == 0) &&
      (usedSels w o.ops).all (fun x => decide (x = 0) || decide (5 < x) || decide (x < stage)))

/-! ## Handler records (R360, R376, R377, R379) -/

def clsOk (v : Variant) (cls c : Nat) : Bool := c == noChan || (v.chan c).cls == cls

/-- A channel that is bound and carries data (R64, R351). -/
def isDataChan (v : Variant) (c : Nat) : Bool := c != noChan && (v.chan c).cls != 2

/-- The bound ports outside PMASK carry ordering tokens (R351, R377). -/
def gatesOk (v : Variant) (n : Node) : Bool := n.gates.all (fun i => clsOk v 2 (n.ports.getD i noChan))

/-- The format pairs of R127. -/
def matrixPair (a w : Nat) : Bool :=
  if a = 3 ∨ a = 4 then w == 3 || w == 4
  else (a == 1 || a == 2 || a == 5 || a == 8) && a == w

/-- A MATRIX node (R358). -/
def matrixOk (n : Node) : Bool :=
  let w := hStage n.hrec 1
  hPmask n.hrec == 255 && !hKstep n.hrec && n.outA == noChan && n.outB == noChan &&
  (List.range 8).all (fun i => n.ports.getD i noChan != noChan) && matrixPair (sA w) (sB w) &&
  decide (sMod w < 4) && fld w 16 14 == 0 && fld w 9 0 == 0 &&
  (fld w 13 13 == 0 || sA w == 3 || sA w == 4 || sA w == 5) && hStage n.hrec 6 == 0

/-- The S1 operands an operation computes with lie in PMASK (R360). -/
def s1PortsOk (h : Nat) : Bool :=
  let w := hStage h 1
  let n := match opInfo 1 (sOp w) with | some o => if o.cls = .p ∧ sMod w ≠ 0 then 1 else o.ops | none => 0
  (usedSels w n).all (fun x => decide (7 < x) || hPmask h / 2 ^ x % 2 == 1)

/-- A handler record and its words, as step 6 of R412 accepts them. -/
def nodeOk (v : Variant) (i : Nat) : Bool :=
  let n := v.node i
  let h := n.hrec
  hPmask h != 0 &&
  (if isMatrix h then matrixOk n
   else
    (List.range 6).all (fun j => wordOk (j + 1) (hStage h (j + 1))) && s1PortsOk h &&
    (!isSource h || (hPmask h == 1 && n.ports.getD 0 noChan == noChan && gatesOk v n && isDataChan v n.outA &&
                     clsOk v 2 n.outB)) &&
    (!isStores h || (hPmask h == 1 && isDataChan v (n.ports.getD 0 noChan) && gatesOk v n && clsOk v 2 n.outA &&
                     n.outB == noChan)) &&
    (!isAtomn h || ((hPmask h == 1 || hPmask h == 3) &&
                    (hPorts h).all (fun p => n.ports.getD p noChan != noChan && clsOk v 1 (n.ports.getD p noChan)) &&
                    (hPmask h == 3 || n.ports.getD 1 noChan == noChan) && gatesOk v n &&
                    (n.outA == noChan || isDataChan v n.outA) && clsOk v 2 n.outB)) &&
    (!isFork h || (hPorts h).length == 1) &&
    (!(has6 h 0x1C || has6 h 9) || hKstep h) && (!has6 h 0x1C || n.klim.getD 0 0 == 15) &&
    (!((has6 h 0x1A || has6 h 0x1B) && sMod (hStage h 6) == 1) || v.scopes.any (fun a => a.elem i)))

/-- Each port of a PE's plane maps one channel, and no two ports the same one (R47, R54). -/
def portMapOk (v : Variant) (i : Nat) : Bool :=
  let ns := packOf v i
  let at_ := fun p => ns.foldl (fun l n => let c := (v.node n).ports.getD p noChan; if c = noChan then l else addNat l c) []
  (List.range 8).all (fun p => decide ((at_ p).length ≤ 1)) &&
  distinct ((List.range 8).map at_).flatten

/-- Step 6 of R412 for one variant. -/
def variantOk (v : Variant) : Bool :=
  (List.range v.nodes.length).all (fun i => nodeOk v i && portMapOk v i)

/-! ## The launch header and its tables (R66 to R68) -/

def parseHeader (h : Nat) : Header :=
  { tvec := fld h 503 448, sig := fld h 447 384, seed := fld h 383 352, diemask := fld h 339 336, domain := fld h 335 320,
    ngrp := fld h 264 256, grptab := fld h 255 192, thrtab := fld h 191 128, nthr := fld h 106 96, super := fld h 93 93 == 1,
    queue := fld h 92 92 == 1, vd := fld h 91 88, prio := fld h 87 84, vset := fld h 83 80,
    markint := if fld h 79 64 = 0 then 4096 else fld h 79 64, kgiva := fld h 55 0,
    resv := fld h 511 504 != 0 || fld h 351 340 != 0 || fld h 319 265 != 0 || fld h 127 107 != 0 || fld h 95 94 != 0 ||
            fld h 63 56 != 0 }

/-- Step 2 of R412: what the header alone decides. `cap` says the device has the supervisor capability (R22). -/
def headerOk (h : Header) (vd : Nat) (cap : Bool) : Bool :=
  !h.resv && h.diemask != 0 && h.vd == vd && (!h.super || cap) && h.tvec % 4 == 0 && h.thrtab % 16 == 0 &&
  h.grptab % 8 == 0 && decide (h.nthr ≤ 1024) && decide (h.ngrp ≤ 256)

/-- A thread-table entry (R67). -/
def parseThr (e : Nat) : ThrEnt :=
  { entry := fld e 47 0, nreq := fld e 55 48, plotix := fld e 79 64,
    groups := ((List.range 4).filter (fun i => fld e (80 + i) (80 + i) == 1)).map (fun i => fld e (103 + 8 * i) (96 + 8 * i)),
    resv := fld e 95 84 != 0 || fld e 63 56 != 0 }

/-- Step 5 of R412: the thread table and the group table as numbers. -/
def tablesOk (h : Header) (ts : List ThrEnt) (gt : Nat) : Bool :=
  ts.all (fun t => !t.resv && decide (t.nreq ≤ 64) && t.entry % 4 == 0 && distinct t.groups &&
    t.groups.all (fun g => decide (g < h.ngrp) && fld gt (64 * g + 16) (64 * g + 16) == 1)) &&
  (List.range h.ngrp).all (fun g =>
    let e := fld gt (64 * g + 63) (64 * g)
    e / 2 ^ 17 == 0 && fld e 15 11 == 0 &&
    (fld e 16 16 == 0 || fld e 10 0 == (ts.filter (fun t => t.groups.elem g)).length))

/-- The tables as Marten reads them, each entry of the thread table in order. -/
def readTables (s : State) (h : Header) : State × Except Nat (List ThrEnt × Nat) :=
  match martenRead s h.vd h.thrtab (16 * h.nthr) with
  | (s, .error c) => (s, .error c)
  | (s, .ok tt) =>
    match martenRead s h.vd h.grptab (8 * h.ngrp) with
    | (s, .error c) => (s, .error c)
    | (s, .ok gt) => (s, .ok ((List.range h.nthr).map (fun i => parseThr (fld tt (128 * i + 127) (128 * i))), gt))

/-- The group table as the launch holds it: NMEM of each valid group (R67). -/
def groupMap (h : Header) (gt : Nat) : Assoc Nat :=
  ((List.range h.ngrp).filter (fun g => fld gt (64 * g + 16) (64 * g + 16) == 1)).map
    (fun g => (g, fld gt (64 * g + 10) (64 * g)))

end Sys2Proof.Machine
end

