-- ==== Sys2Proof/Machine/Place.lean ====
section
/-!
DEFINITION. Placement (03_graphs_and_placement.md R69 to R75, R80; 07 R175, R185; 09 R199, R201; 14 R320): every choice
in a fixed order, from the image, the header and the map of free and sound plots.
-/
namespace Sys2Proof.Machine

/-! ## Geometry (R57, R70, R72, R75, R199) -/

def diePlot (die px py : Nat) : Nat := die * 32 + py * 4 + px

/-- Logical elements in serpentine order (R57, R70). -/
def serpentine : List Nat :=
  ((List.range 8).map (fun i =>
    let row := (List.range 8).map (fun j => 8 * i + j)
    if i % 2 = 0 then row else row.reverse)).flatten

/-- The element that is last in serpentine order: the handler node's (R175). -/
def lastElem : Nat := 56

/-- Module coordinates of a logical element of a plot (R57, R199). -/
def siteXY (p e : Nat) : Nat × Nat :=
  (64 * (plotDie p % 2) + 16 * plotX p + 2 * (e % 8) + e / 8 % 2, 64 * (plotDie p / 2) + 8 * plotY p + e / 8)

/-- The plot of a site. -/
def plotAt (x y : Nat) : Nat := diePlot (x / 64 + 2 * (y / 64)) (x % 64 / 16) (y % 64 / 8)

/-- The link that a hop from a site takes in a direction (0 E, 1 W, 2 S, 3 N): one between adjacent sites, or the
crossing link of a die edge (R72, R199). -/
def linkKey (x y dir : Nat) : Nat :=
  let nx := if dir = 0 then x + 1 else if dir = 1 then x - 1 else x
  let ny := if dir = 2 then y + 1 else if dir = 3 then y - 1 else y
  if nx / 64 ≠ x / 64 then 65536 + ((y / 64) * 16 + y % 64 / 4) * 4 + dir
  else if ny / 64 ≠ y / 64 then 65536 + ((2 + x / 64) * 16 + x % 64 / 4) * 4 + dir
  else (y * 128 + x) * 4 + dir

/-- The UCIe edge and link of a crossing's key, if it is one (R187). -/
def crossingOf (k : Nat) : Option Nat := if 65536 ≤ k then some ((k - 65536) / 4) else none

/-- The links of a route, x first, and the sites it enters (R72). -/
def hops : Nat → Nat → Nat → Nat → Nat → List (Nat × Nat)
  | 0, _, _, _, _ => []
  | f + 1, x, y, tx, ty =>
    if x < tx then (linkKey x y 0, plotAt (x + 1) y) :: hops f (x + 1) y tx ty
    else if tx < x then (linkKey x y 1, plotAt (x - 1) y) :: hops f (x - 1) y tx ty
    else if y < ty then (linkKey x y 2, plotAt x (y + 1)) :: hops f x (y + 1) tx ty
    else if ty < y then (linkKey x y 3, plotAt x (y - 1)) :: hops f x (y - 1) tx ty
    else []

/-- Consecutive equal entries made one. -/
def squeeze : List Nat → List Nat
  | [] => []
  | a :: l => match squeeze l with | b :: r => if a = b then b :: r else a :: b :: r | [] => [a]

/-! ## Slots and numbers (R72) -/

/-- The channel slots and channel numbers in use: (link, slot) and (plot, number). -/
structure Used where
  links : List (Nat × Nat)
  nums  : List (Nat × Nat)
  deriving DecidableEq, Repr

def lowestFree (used : List (Nat × Nat)) (k limit : Nat) : Option Nat :=
  (List.range limit).find? (fun i => !used.elem (k, i))

/-- A route's slots, or none where a link has no 17th. -/
def takeSlots (u : Used) : List Nat → Option (Used × List (Nat × Nat))
  | [] => some (u, [])
  | k :: ks =>
    match lowestFree u.links k 16 with
    | none => none
    | some i =>
      (takeSlots { u with links := (k, i) :: u.links } ks).map fun (u, l) => (u, (k, i) :: l)

/-- A channel's number in each plot it meets, or none where a plot has no 1,025th. -/
def takeNums (u : Used) : List Nat → Option (Used × List Nat)
  | [] => some (u, [])
  | p :: ps =>
    match lowestFree u.nums p 1024 with
    | none => none
    | some i => (takeNums { u with nums := (p, i) :: u.nums } ps).map fun (u, l) => (u, i :: l)

/-- The plots a route meets and its links, from one site to another; an end on another module ends the route at the
end that is here (R202). -/
def routeOf (a b : Nat × Nat) : List Nat × List Nat :=
  if a.1 = awayPlot ∧ b.1 = awayPlot then ([], [])
  else if a.1 = awayPlot then ([b.1], [])
  else if b.1 = awayPlot then ([a.1], [])
  else
    let s := siteXY a.1 a.2; let t := siteXY b.1 b.2
    let hs := hops 256 s.1 s.2 t.1 t.2
    (squeeze (a.1 :: hs.map (·.2)), hs.map (·.1))

/-- A route with its slots and numbers (R72); none for FIT_ROUTE. -/
def routeChan (u : Used) (a b : Nat × Nat) : Option (Used × List Nat × List Nat × List (Nat × Nat)) :=
  let (plots, links) := routeOf a b
  match takeSlots u links with
  | none => none
  | some (u, sl) => (takeNums u plots).map fun (u, ns) => (u, plots, ns, sl)

/-! ## Ends of channels (R72) -/

/-- The port of a MATRIX node's column that is channel `c`. -/
def colOf (h c : Nat) : Nat := ((List.range 8).find? (fun j => matrixCol h j == c)).getD 0

/-- Where a channel starts: its producer's site, or the foot of its column. -/
def startSite (v : Variant) (sites : List (Nat × Nat)) (c : Nat) : Nat × Nat :=
  let n := (v.chan c).src
  let x := sites.getD n (awayPlot, 0)
  if isMatrix (v.node n).hrec then (x.1, 56 + colOf (v.node n).hrec c) else x

/-- Where a channel ends: its consumer's site, or the head of its row. -/
def endSite (v : Variant) (sites : List (Nat × Nat)) (c : Nat) : Nat × Nat :=
  let n := (v.chan c).dst
  let x := sites.getD n (awayPlot, 0)
  if isMatrix (v.node n).hrec then (x.1, 8 * v.dstPort c) else x

/-! ## Rectangles (R70) -/

/-- The plots of a rectangle in row-major order; of one on another module, `awayPlot` for each. -/
def rectPlots (r : Nat × Nat × Nat) (wh : Nat × Nat) : List Nat :=
  ((List.range wh.2).map (fun j => (List.range wh.1).map (fun i =>
    if r.1 < 4 then diePlot r.1 (r.2.1 + i) (r.2.2 + j) else awayPlot))).flatten

/-- The first rectangle in scan order whose plots all satisfy `free`. -/
def scanRect (free : Nat → Bool) (diemask : Nat) (wh : Nat × Nat) : Option (Nat × Nat × Nat) :=
  let cand := ((List.range 4).filter (fun d => diemask / 2 ^ d % 2 == 1)).map (fun d =>
    ((List.range (9 - wh.2)).map (fun y => (List.range (5 - wh.1)).map (fun x => (d, x, y)))).flatten)
  cand.flatten.find? (fun r => (rectPlots r wh).all free)

/-- A rectangle for each partition in turn; `mine` says which partitions this module places (R201). -/
def chooseRects (free : Nat → Bool) (diemask : Nat) :
    List (Nat × Nat) → List Bool → List Nat → Option (List (Nat × Nat × Nat))
  | [], _, _ => some []
  | wh :: rest, mine, taken =>
    if mine.headD true = false then
      (chooseRects free diemask rest mine.tail taken).map ((4, 0, 0) :: ·)
    else
      match scanRect (fun p => free p && !taken.elem p) diemask wh with
      | none => none
      | some r => (chooseRects free diemask rest mine.tail (rectPlots r wh ++ taken)).map (r :: ·)

/-! ## Sites (R70, R71, R175) -/

/-- Every site given so far, and the site of each node that has one. -/
structure Sited where
  given : List (Nat × Nat)
  sites : Assoc (Nat × Nat)
  deriving DecidableEq, Repr

/-- The order in which nodes and packs are placed (R70, R71). A pack enters the order at its first member to become ready, and the
rule does not say whether it is placed at once, or when that member is taken from the ready nodes as their lowest: the model has it
placed when its first member is taken, with its members in the order of their numbers (DESIGN CHOICE, log 107). -/
def placeOrder (v : Variant) : List Nat :=
  (topo v).foldl (fun o n =>
    if o.elem n then o
    else if isMatrix (v.node n).hrec then o ++ [n]
    else o ++ (packOf v n).filter (fun m => !isMatrix (v.node m).hrec)) []

/-- One node given its site; none where no site or plot is left. `plots` are its partition's. The members of a pack share the site
that the first of them to be taken is given (R71; DESIGN CHOICE, log 107). -/
def siteNode (v : Variant) (plots : List Nat) (x : Sited) (n : Nat) : Option Sited :=
  let put := fun (g : List (Nat × Nat)) (p : Nat × Nat) => some { given := g ++ x.given, sites := insert x.sites n p }
  if plots.elem awayPlot then put [] (awayPlot, 0)
  else if isMatrix (v.node n).hrec then
    match plots.find? (fun p => !x.given.any (fun g => g.1 == p)) with
    | some p => put ((List.range 64).map (fun e => (p, e))) (p, 0)
    | none => none
  else
    match (packOf v n).findSome? (fun m => if isMatrix (v.node m).hrec then none else lookup x.sites m) with
    | some p => put [] p
    | none =>
      match (plots.map (fun p => serpentine.map (fun e => (p, e)))).flatten.find? (fun g => !x.given.elem g) with
      | some g => put [g] g
      | none => none

def siteNodes (v : Variant) (pp : List (List Nat)) : List Nat → Sited → Option Sited
  | [], x => some x
  | n :: ns, x =>
    match siteNode v (pp.getD (v.node n).part []) x n with
    | some x => siteNodes v pp ns x
    | none => none

/-- The sites of every node, by node, with the handler nodes' taken first. -/
def sitesOf (v : Variant) (pp : List (List Nat)) : Option (List (Nat × Nat)) :=
  let hs := pp.map (fun ps => (ps.getLastD awayPlot, lastElem))
  (siteNodes v pp (placeOrder v) { given := hs, sites := [] }).map fun x =>
    (List.range v.nodes.length).map (fun n => lookupD x.sites n (awayPlot, 0))

/-- The handler index of a node within its PE (R63). -/
def handlerIx (v : Variant) (n : Nat) : Nat :=
  if isMatrix (v.node n).hrec then 0
  else ((packOf v n).filter (fun m => !isMatrix (v.node m).hrec)).idxOf n

/-! ## Rates and budgets (R73, R74, R134) -/

/-- The cumulative interval of a channel: low and high bounds as fractions. -/
def cumRate (v : Variant) : Nat → Nat → (Nat × Nat) × (Nat × Nat)
  | 0, c => let x := v.chan c; ((x.rminN, x.rminD), (x.rmaxN, x.rmaxD))
  | f + 1, c =>
    let x := v.chan c
    let n := v.node x.src
    let up := n.ports.getD (hLow n.hrec) noChan
    if up = noChan ∨ (v.chan up).back = true then ((x.rminN, x.rminD), (x.rmaxN, x.rmaxD))
    else
      let u := cumRate v f up
      ((x.rminN * u.1.1, x.rminD * u.1.2), (x.rmaxN * u.2.1, x.rmaxD * u.2.2))

def overlap (a b : (Nat × Nat) × (Nat × Nat)) : Bool :=
  decide (a.1.1 * b.2.2 ≤ b.2.1 * a.1.2) && decide (b.1.1 * a.2.2 ≤ a.2.1 * b.1.2)

/-- The rate check of R73; a BACK channel is compared with nothing. -/
def ratesOk (v : Variant) : Bool :=
  v.nodes.all (fun n =>
    let chans := (hPorts n.hrec).map (fun i => n.ports.getD i noChan)
    match chans with
    | a :: rest =>
      if a = noChan ∨ (v.chan a).back = true then true
      else rest.all (fun b => b == noChan || (v.chan b).back ||
        overlap (cumRate v v.chans.length a) (cumRate v v.chans.length b))
    | [] => true)

/-- FIFO slots that channels ending in a plot need (R73). -/
def fifoNeed (v : Variant) (sites : List (Nat × Nat)) (p : Nat) : Nat :=
  v.chans.foldl (fun n c => if (sites.getD c.dst (awayPlot, 0)).1 = p then n + (c.depth - 4) else n) 0

/-- The first entry of a node's range, and its length: the nodes of its plot in placement order (R134). -/
def srfRange (v : Variant) (sites : List (Nat × Nat)) (n : Nat) : Nat × Nat :=
  let p := (sites.getD n (awayPlot, 0)).1
  ((((placeOrder v).takeWhile (· != n)).filter (fun m => (sites.getD m (awayPlot, 0)).1 == p)).foldl
     (fun k m => k + (v.node m).srfn) 0, (v.node n).srfn)

/-- The entries that the nodes of a plot take in all. -/
def srfNeed (v : Variant) (sites : List (Nat × Nat)) (p : Nat) : Nat :=
  ((placeOrder v).filter (fun m => (sites.getD m (awayPlot, 0)).1 == p)).foldl (fun k m => k + (v.node m).srfn) 0

/-! ## A placement -/

/-- Every channel routed in channel-table order: plots, numbers and slots of each. -/
def routeAll (v : Variant) (sites : List (Nat × Nat)) :
    List Nat → Used → Option (List (List Nat) × List (List Nat) × List (List (Nat × Nat)))
  | [], _ => some ([], [], [])
  | c :: cs, u =>
    match routeChan u (startSite v sites c) (endSite v sites c) with
    | none => none
    | some (u, ps, ns, sl) => (routeAll v sites cs u).map fun (a, b, d) => (ps :: a, ns :: b, sl :: d)

/-- A variant placed into given rectangles, or the status of the failure (R70). -/
def placeInto (v : Variant) (rects : List (Nat × Nat × Nat)) (u : Used) : Except Nat Placed :=
  let pp := (rects.zip v.parts).map (fun r => rectPlots r.1 r.2)
  match sitesOf v pp with
  | none => .error stFitSpace
  | some sites =>
    match routeAll v sites (List.range v.chans.length) u with
    | none => .error stFitRoute
    | some (legs, nums, links) =>
      let here := pp.flatten.filter (· != awayPlot)
      if here.any (fun p => decide (2048 < fifoNeed v sites p)) || !ratesOk v then .error stFitRate
      else if here.any (fun p => decide (256 < srfNeed v sites p)) then .error stFitScale
      else
        .ok { rects := rects, plots := pp.flatten, sites := sites,
              hidx := (List.range v.nodes.length).map (handlerIx v), legs := legs, nums := nums, links := links,
              hnode := pp.map (fun ps => ps.getLastD awayPlot) }

/-! ## The power arbiter (R184, R232 to R235) -/

/-- Power fields of the module (R75). -/
def fieldCount : Nat := 32

/-- The clock of a field in MHz: free, and never below 900. -/
def freeClock (s : State) (f : Nat) : Nat := 900 + Config.freeNat (s.free + f)

/-- Whether a field stands at its floor while no other has margin: free. -/
def freeFloor (s : State) (f : Nat) : Bool := Config.freeBit (s.free + fieldCount + f)

/-- The arbiter divides the module's power among the fields, as it does at every load of a configuration, every change of variant and
every 100 µs; how it does is not visible and is free (R232). Ballast makes up what load loses too fast. -/
def arbitrate (s : State) : State :=
  let fs := List.range fieldCount
  { s with
    mhz := fs.map (fun f => (f, freeClock s f))
    atFloor := (fs.filter (freeFloor s)).map (fun f => (f, lookupD s.atFloor f s.time))
    ballast := Config.freeNat (s.free + 2 * fieldCount)
    lastArb := s.time
    free := s.free + 2 * fieldCount + 1 }

/-! ## Free and sound plots (R69) -/

/-- A plot that Brock has neither retired nor leased, whose field is not held at its floor (R69, R191, R233). -/
def soundPlot (s : State) (p : Nat) : Bool :=
  !isRetired s (unitPlot p) && !isRetired s (unitCC p) && (leaseOf s (unitPlot p)).isNone &&
  !listed s.atFloor (fieldOf p)

/-- A plot that is free and sound for a device's launch. -/
def freePlot (s : State) (vd p : Nat) : Bool :=
  ownsPlot s vd p && (plotOf s p).holder.isNone && soundPlot s p

/-- The slots and numbers that the resident launches use, but for one. -/
def usedBy (s : State) (except : Option Nat) : Used :=
  let ls := (s.launches.filter (fun l => l.2.resident && some l.1 != except)).map (·.2.place)
  { links := (ls.map (fun p => p.links.flatten)).flatten
    nums := (ls.map (fun p => ((p.legs.zip p.nums).map (fun x => x.1.zip x.2)).flatten)).flatten }

/-- Which partitions this module places: all, or those that PARTMAP gives its rank (R201). -/
def minePart (s : State) (vd : Nat) (v : Variant) (partmap : Option (List Nat)) : List Bool :=
  match partmap with
  | none => v.parts.map (fun _ => true)
  | some m => (List.range v.parts.length).map (fun q => m.getD q 0 == (match vdOf s vd with | some d => d.rank | none => 0))

/-- PlaceVariant of R70. -/
def placeVariant (s : State) (h : Header) (v : Variant) (partmap : Option (List Nat)) : Except Nat Placed :=
  match chooseRects (freePlot s h.vd) h.diemask v.parts (minePart s h.vd v partmap) [] with
  | none => .error stFitSpace
  | some rects => placeInto v rects (usedBy s none)

/-- The factors of a launch's variant set, largest first. -/
def variantsOf (img : List Variant) (vset : Nat) : List Variant :=
  [3, 2, 1, 0].filterMap (fun f => if vset / 2 ^ f % 2 = 1 then img.find? (fun v => v.factor == f) else none)

/-- The variants tried in turn: the first that fits, or the outcome of the last (R70). -/
def placeFirst (s : State) (h : Header) (partmap : Option (List Nat)) : List Variant → Nat → Except Nat (Variant × Placed)
  | [], st => .error st
  | v :: vs, _ =>
    match placeVariant s h v partmap with
    | .ok p => .ok (v, p)
    | .error st => placeFirst s h partmap vs st

/-! ## Step 8 of R412: R68's second list -/

/-- The thread-table entries on one plot of the launch, in table order. -/
def thrOn (ts : List ThrEnt) (ix : Nat) : List ThrEnt := ts.filter (fun t => t.plotix == ix)

/-- The gang limit of R77 on one CC: for each group, the threads up to and including its last member there. -/
def gangOk (ts : List ThrEnt) (ix : Nat) : Bool :=
  let on := thrOn ts ix
  (List.range on.length).all (fun k =>
    let upto := on.take (k + 1)
    match on[k]? with
    | some t => t.groups.isEmpty || (decide (upto.length ≤ 8) &&
        decide (upto.foldl (fun n t => n + (t.nreq + 7) / 8 * 8) 0 ≤ 512))
    | none => true)

/-- PLOTIX inside the launch, at most eight threads on a CC, and the gang limit. -/
def threadsFit (p : Placed) (ts : List ThrEnt) : Bool :=
  ts.all (fun t => decide (t.plotix < p.plots.length)) &&
  (List.range p.plots.length).all (fun ix => decide ((thrOn ts ix).length ≤ 8) && gangOk ts ix)

end Sys2Proof.Machine
end

