-- ==== Sys2Proof/Machine/Marten.lean ====
section
/-!
DEFINITION. Marten at work (03_graphs_and_placement.md R56, R69 to R77; 09 R201, R202, R213; 14 R318 to R324):
submission, the checks of R412 in order, commit and configuration load, the graph commands, and a launch's own end.
-/
namespace Sys2Proof.Machine

/-! ## Configuration load (R54, R56, R59, R72, R134) -/

/-- A node's record as it is loaded: outputs by channel number, valid where the KGI names a channel (R268, R358). -/
def loadedRec (v : Variant) (p : Placed) (n : Nat) : Nat :=
  let x := v.node n
  let plot := p.plotOf n
  if isMatrix x.hrec then
    (List.range 8).foldl (fun h j =>
      let c := matrixCol x.hrec j
      let at_ := 96 + 16 * j
      h - c * 2 ^ at_ + (if c = noChan then 0 else (numIn p c plot + 2 ^ 15) * 2 ^ at_)) x.hrec
  else
    x.hrec + (if x.outA = noChan then 0 else (2 * numIn p x.outA plot + 1) * 2 ^ 18)
           + (if x.outB = noChan then 0 else (2 * numIn p x.outB plot + 1) * 2 ^ 29)

/-- The nodes that stand on an element of a plot. -/
def nodesAt (v : Variant) (p : Placed) (plot e : Nat) : List Nat :=
  (List.range v.nodes.length).filter (fun n =>
    let s := p.sites.getD n (awayPlot, 0)
    s.1 == plot && (s.2 == e || isMatrix (v.node n).hrec))

/-- The plane that an image gives an element of a plot. -/
def planeFor (g : Nat) (v : Variant) (p : Placed) (plot e : Nat) : Plane :=
  let ns := nodesAt v p plot e
  let m := ns.any (fun n => isMatrix (v.node n).hrec)
  let mine := if m ∧ e ≠ 0 then [] else ns
  { Plane.empty with
    img := g
    hrecs := mine.foldl (fun a n => insert a (p.hidx.getD n 0) (loadedRec v p n)) []
    nodes := mine.foldl (fun a n => insert a (p.hidx.getD n 0) n) []
    ports := mine.foldl (fun a n => (List.range 8).foldl (fun a i =>
      let c := (v.node n).ports.getD i noChan
      if c = noChan then a else insert a i (numIn p c plot)) a) []
    colid := e % 8
    rowid := e / 8
    matrix := m
    klim := match ns with | n :: _ => (v.node n).klim | [] => [65535, 65535, 65535, 65535] }

/-- The SRF ranges of an image in a plot, by node, and where the common range starts (R134). -/
def rangesIn (v : Variant) (p : Placed) (plot : Nat) : Assoc (Nat × Nat) × Nat :=
  ((List.range v.nodes.length).foldl (fun a n =>
      if p.plotOf n = plot then insert a n (srfRange v p.sites n) else a) [], srfNeed v p.sites plot)

/-- A plot given to a launch: every SRF entry reset, its scratch untouched, the image's planes active, the shadow planes empty
(R69, R81, R133). -/
def loadPlot (s : State) (lseq g : Nat) (v : Variant) (p : Placed) (plot : Nat) : State :=
  let s := emptyScratch s plot
  let x := plotOf s plot
  let (rs, com) := rangesIn v p plot
  let s := setPlot s plot { Plot.empty with
    holder := some lseq, ranges := rs, common := com, fifo := fifoNeed v p.sites plot
    evq := x.evq, evHeld := x.evHeld, rr := x.rr, admq := x.admq }
  (List.range 64).foldl (fun s e => setPe s (64 * plot + e) { PE.empty with active := planeFor g v p plot e }) s

/-- The plots of a launch that are on this module, in PLOTIX order. -/
def Placed.here (p : Placed) : List Nat := p.plots.filter (· != awayPlot)

/-! ## Replies (R211) -/

/-- The bytes of a reply: the request's OP, VD and TAG, REPLY set (R211). -/
def replyBytes (op vd tag status cause : Nat) (body : List Byte) : List Byte :=
  natBytes 4 0x3150434B ++ natBytes 1 op ++ natBytes 1 1 ++ natBytes 1 vd ++ natBytes 1 status ++ natBytes 8 tag
    ++ natBytes 4 body.length ++ natBytes 1 cause ++ natBytes 11 0 ++ body

/-- A reply to the host. -/
def replyTo (s : State) (op vd tag status cause : Nat) (body : List Byte) : State :=
  { s with replies := s.replies ++ [{ bytes := replyBytes op vd tag status cause body }] }

/-- The reply to a LAUNCH start (R213). -/
def launchReply (s : State) (vd tag status lseq : Nat) : State := replyTo s 6 vd tag status 0 (natBytes 8 lseq)

/-! ## Submission (R69, R319, R412 step 1) -/

/-- A launch leaves Marten with a failure: its one record, the reply or the end of GLAUNCH's wait (R76, R213, R319). -/
def failLaunch (s : State) (vd : Nat) (o : Origin) (status cause : Nat) : State :=
  let s := post s (launchRecord vd o status cause 0)
  match o with
  | .host tag => launchReply s vd tag.toNat 0 0
  | .thread _ tid _ _ _ =>
    match threadOf s tid with
    | some t => completeWait (setThread s tid { t with glseq := 0 }) tid 4#64
    | none => s

/-- A launch submitted: its header is read once; it then waits for Marten (R69). -/
def submit (s : State) (vd gid va : Nat) (o : Origin) (partmap : Option (List Nat)) : State :=
  match martenRead s vd va 64 with
  | (s, .error c) => failLaunch s vd o stHeader c
  | (s, .ok h) =>
    let ticket := 1 + s.waiting.foldl (fun n w => Nat.max n w.ticket) 0
    { s with waiting := s.waiting ++ [{ ticket := ticket, hdr := parseHeader h, gid := gid, vd := vd, origin := o,
                                        parked := false, again := false, partmap := partmap }] }

/-! ## Taking a launch (R69, R217) -/

/-- Whether the launches of the other devices of a sharing set have given up its plots, as they do when their slice ends (R182,
R216). -/
def plotsHandedOver (s : State) (vd : Nat) : Bool :=
  s.launches.all (fun l => l.2.vd == vd || !l.2.resident || !l.2.place.here.any (ownsPlot s vd))

/-- Whether Marten may take a waiting launch: its device is open, has its slice and the plots of its set, and its queue is open
(R216, R217). -/
def takeable (s : State) (w : Waiting) : Bool :=
  !w.parked && plotsHandedOver s w.vd &&
  (match vdOf s w.vd with
   | some d => d.sliceOn && d.qmask / 2 ^ w.hdr.prio % 2 == 1
   | none => false)

/-- The waiting launch that Marten serves next: highest PRIO, then order of arrival. -/
def nextWaiting (s : State) : Option Waiting :=
  (s.waiting.filter (takeable s)).foldl (fun b w =>
    match b with
    | some x => if x.hdr.prio < w.hdr.prio then some w else b
    | none => some w) none

def dropWaiting (s : State) (ticket : Nat) : State :=
  { s with waiting := s.waiting.filter (fun w => w.ticket != ticket) }

/-- A header error of a node launch: a rank at or above the node size (R201). -/
def ranksOk (s : State) (vd : Nat) (partmap : Option (List Nat)) : Bool :=
  match partmap with
  | none => true
  | some m => m.all (fun r => decide (r < (match vdOf s vd with | some d => d.nodesz | none => 0)))

/-- The rank of each plot of a launch by PLOTIX (R201). -/
def plotRanks (v : Variant) (m : List Nat) : List Nat :=
  ((List.range v.parts.length).map (fun q =>
    let wh := v.parts.getD q (0, 0); List.replicate (wh.1 * wh.2) (m.getD q 0))).flatten

/-- No group's members lie on more than one module (R201). -/
def groupsOnOne (v : Variant) (partmap : Option (List Nat)) (ts : List ThrEnt) : Bool :=
  match partmap with
  | none => true
  | some m =>
    let rk := plotRanks v m
    ts.all (fun a => ts.all (fun b => a.groups.all (fun g => !b.groups.elem g || rk.getD a.plotix 0 == rk.getD b.plotix 0)))

/-- What a launch needs to commit. -/
structure Fit where
  variant : Variant
  place   : Placed
  image   : List Variant
  thr     : List ThrEnt
  groups  : Assoc Nat
  kslot   : Nat
  deriving DecidableEq, Repr

/-- The supervisor capability of a device (R22, R218). -/
def superCap (s : State) (vd : Nat) : Bool := match vdOf s vd with | some d => d.caps % 2 == 1 | none => false

/-- Steps 2 to 8 of R412: what fits, or the status and cause of the failure. -/
def attempt (s : State) (w : Waiting) : State × Except (Nat × Nat) Fit :=
  if headerOk w.hdr w.vd (superCap s w.vd) = false ∨ ranksOk s w.vd w.partmap = false then (s, .error (stHeader, 0))
  else
    match readImage s w.vd w.hdr.kgiva with
    | (s, .error c) => (s, .error (stImage, c))
    | (s, .ok img) =>
      let vs := variantsOf img.variants w.hdr.vset
      if w.hdr.sig ≠ img.sig ∨ vs = [] then (s, .error (stHeader, 0))
      else
        match readTables s w.hdr with
        | (s, .error c) => (s, .error (stHeader, c))
        | (s, .ok (ts, gt)) =>
          if tablesOk w.hdr ts gt = false ∨ vs.all variantOk = false then (s, .error (stHeader, 0))
          else
            match placeFirst s w.hdr w.partmap vs stFitSpace with
            | .error st => (s, .error (st, 0))
            | .ok (v, p) =>
              if threadsFit p ts = false ∨ groupsOnOne v w.partmap ts = false then (s, .error (stHeader, 0))
              else
                let ks := match translate s (martenCtx w.vd) .read w.hdr.kgiva with
                  | .ok (_, e, _) => fld e 14 5
                  | .error _ => 0
                (s, .ok { variant := v, place := p, image := vs, thr := ts, groups := groupMap w.hdr gt, kslot := ks })

/-! ## Commit (R69, R77, R202) -/

/-- A launch as it commits: every context register at its reset value (07 R168, R181; 04 R95; 05 R117). Its plots are loaded
in the step of the commit: the spec gives loading no order against a sibling's accesses, and the model lets none of them
find a plot unloaded, so that the hold of R78 never comes to act (log 86). -/
def newLaunch (s : State) (w : Waiting) (f : Fit) (lseq : Nat) : Launch :=
  { hdr := w.hdr, lseq := lseq, gid := w.gid, vd := w.vd, kslot := f.kslot, origin := w.origin, variant := f.variant,
    image := f.image, place := f.place, frozen := if w.partmap.isSome then [.node] else [], asked := [],
    resident := true, saved := Saved.empty, shadow := none, imgNo := 0, shNo := 0, swap := none,
    chans := [], ports := [], hnodes := [], orphans := [], requests := [], aflags := [], pkeys := BitVec.allOnes 64,
    fbbase := match vdOf s w.vd with | some d => d.fbbase | none => 0#64
    fbOvf := false, fbTail := 0, fbHead := 0, fbHeld := [], owlint := 0x4000000,
    idle := (List.range f.variant.parts.length).map (fun q => (q, s.time)), groups := f.groups, thrtab := f.thr,
    halted := ((List.range f.thr.length).filter (fun i =>
      match f.thr[i]? with | some t => f.place.plots.getD t.plotix awayPlot == awayPlot | none => false)),
    loaded := true, tasks := [], copyQ := [], collQ := [], colls := [], fences := 0, faulted := false, capWait := [], leaseUnit := none,
    partmap := w.partmap, nodeWait := w.partmap.isSome }

/-- The threads of a launch enter admission at their CCs in table order (R77). -/
def admitAll (s : State) (l : Launch) : State :=
  (List.range l.thrtab.length).foldl (fun s i =>
    match l.thrtab[i]? with
    | none => s
    | some t =>
      let p := l.place.plots.getD t.plotix awayPlot
      if p = awayPlot then s
      else
        let x := plotOf s p
        setPlot s p { x with admq := x.admq ++ [{ lseq := l.lseq, what := .entry i, nreq := t.nreq }] }) s

/-- The plots a launch holds under its key slot are remembered until the engagement closes (R225 step 3). -/
def rememberPlots (s : State) (k : Nat) (ps : List Nat) : State :=
  let x := slotOf s k
  { s with slots := insert s.slots k { x with plots := ps.foldl addNat x.plots } }

/-- A launch commits: it takes the next sequence number, its plots are loaded, and its threads enter admission. -/
def commit (s : State) (w : Waiting) (f : Fit) : State :=
  let lseq := s.lseq + 1
  let l := newLaunch s w f lseq
  let s := setLaunch { s with lseq := lseq } l
  let s := arbitrate (f.place.here.foldl (fun s p => loadPlot s lseq 0 f.variant f.place p) s)
  let s := rememberPlots s f.kslot f.place.here
  let s := if l.nodeWait then s else admitAll s l
  match w.origin with
  | .host tag => launchReply s w.vd tag.toNat 0 lseq
  | .thread _ tid _ _ _ =>
    match threadOf s tid with
    | some t => completeWait (setThread s tid { t with glseq := lseq }) tid 4#64
    | none => s

/-- PLACEMENT (R70, R76, R412): Marten takes one launch and commits it, fails it, or parks it. -/
def execPlacement (s : State) : Out :=
  match nextWaiting s with
  | none => .next s
  | some w =>
    match attempt s w with
    | (s, .ok f) => .next (commit (dropWaiting s w.ticket) w f)
    | (s, .error (st, c)) =>
      if st = stFitSpace ∧ w.hdr.queue = true then
        .next { s with waiting := s.waiting.map (fun x => if x.ticket = w.ticket then { x with parked := true, again := false } else x) }
      else .next (failLaunch (dropWaiting s w.ticket) w.vd w.origin st c)

/-- QUEUE_RETRY (R76): launches parked on FIT_SPACE stand before Marten again once plots of their device were released. -/
def execQueueRetry (s : State) : Out :=
  .next { s with waiting := s.waiting.map (fun w => if w.parked && w.again then { w with parked := false, again := false } else w) }

/-- A part of a node launch that still waits for Marten, be it parked, of which another module has failed: it ends with that module's
status. Which part, whether it ends and with which status from 1 to 6 are free (R201; log 43). -/
def endWaitingPart (s : State) : State :=
  let parts := s.waiting.filter (fun w => w.partmap.isSome)
  let s' := { s with free := s.free + 3 }
  match parts[Config.freeNat s.free % parts.length]? with
  | none => s
  | some w =>
    if Config.freeBit (s.free + 1) then
      failLaunch (dropWaiting s' w.ticket) w.vd w.origin (1 + Config.freeNat (s.free + 2) % 6) 0
    else s'

/-- NODE_LAUNCH_START (R201, R202): what the other modules made of their parts becomes known. Every module has placed and
loaded its part, and this module's part starts; or a module has failed, also one whose SIG differs, and this part ends with
its status. Which it is lies outside the module: a free bit and a free status from 1 to 6 (log 43). A part that has given up
its plots starts once it has them again. Launch 0, a number that no launch bears, stands for the parts that Marten has yet to
commit. -/
def execNodeLaunchStart (lseq : Nat) (s : State) : Out :=
  match launchOf s lseq with
  | none => .next (if lseq = 0 then endWaitingPart s else s)
  | some l =>
    if l.nodeWait && l.resident then
      let s := { s with free := s.free + 2 }
      if Config.freeBit (s.free - 2) then
        let l := { l with nodeWait := false, frozen := l.frozen.filter (· != .node) }
        .next (admitAll (setLaunch s l) l)
      else .next (endLaunch s lseq (1 + Config.freeNat (s.free - 1) % 6) 0 false)
    else .next s

/-! ## A launch's own end (R324) -/

/-- The conditions of R324; a record that has been raised is written first, or held (R169). -/
def launchDone (s : State) (l : Launch) : Bool :=
  (List.range l.thrtab.length).all (fun i => l.halted.elem i) &&
  !s.threads.any (fun t => t.2.lseq == l.lseq) &&
  l.tasks.all (fun q => q.2.recs.isEmpty && q.2.running.isEmpty) &&
  l.ports.all (fun p => p.2.active.isNone && p.2.waiting.isNone) &&
  l.copyQ.all (fun q => q.2.isEmpty) && l.collQ.all (fun q => q.2.isEmpty) &&
  !s.plots.any (fun x => x.2.evHeld.any (fun e => e.lseq == l.lseq && e.src.isSome)) &&
  l.fbHeld.all (fun r => r.held && (match r.src with | .thread _ => false | _ => true)) &&
  l.frozen.isEmpty && l.asked.isEmpty && l.resident && l.loaded

/-- LAUNCH_COMPLETE (R324). -/
def execLaunchComplete (lseq : Nat) (s : State) : Out :=
  match launchOf s lseq with
  | none => .next s
  | some l => if launchDone s l then .next (endLaunch s lseq stOK 0 false) else .next s

/-! ## The graph commands (R318 to R323) -/

/-- Whether a thread may name a launch as a target (R318). -/
def mayName (t : Thread) (own target : Launch) : Bool :=
  if t.mode then target.vd == own.vd
  else target.lseq == t.lseq ||
    (match target.origin with | .thread q _ _ _ _ => q == t.lseq | .host _ => false)

/-- A graph block (R318): target, image and factor; none where a reserved field is not zero. -/
def parseBlock (b : Nat) (shadow : Bool) : Option (Nat × Nat × Nat) :=
  if fld b 255 136 ≠ 0 ∨ (shadow = false ∧ fld b 135 64 ≠ 0) then none
  else some (fld b 63 0, fld b 127 64, fld b 135 128)

/-- The frame of the five commands on a target: the block, its fields, the target, and USER, in the order R318 lists them (R298; log
28). `k` gets the LSEQ field as written beside the target. -/
def graphCommand (a u : Reg) (i : Instr) (shadow : Bool) (s : State)
    (k : State → Nat → Thread → Launch → Nat → Nat → Nat → Out) : Out :=
  command [a, u] s fun tid t own =>
    withChecked (loadBlock s (threadCtx s t) (t.g a).toNat 32 32) tid t fun s b =>
      match parseBlock b shadow with
      | none => cmdTrap s tid t 0x80 i
      | some (q, va, f) =>
        match launchOf s (if q = 0 then t.lseq else q) with
        | none => cmdTrap s tid t 0x80 i
        | some l => if mayName t own l ∧ u = 0#6 then k s tid t l q va f else cmdTrap s tid t 0x80 i

/-- GLAUNCH (R319): a release at scope 4, then the header is submitted; the thread waits for the commit or the failure. -/
def execGlaunch (a u : Reg) (s : State) : Out :=
  command [a, u] s fun tid t l =>
    let ticket := 1 + s.waiting.foldl (fun n w => Nat.max n w.ticket) 0
    let s := setThread (showStores s tid 4) tid { t with stat := .waiting (.glaunch ticket) }
    .next (submit s l.vd l.gid (t.g a).toNat (.thread t.lseq tid t.plot t.slot (t.g u)) none)

/-- A launch that Owl froze or a drain holds (R320, R323). -/
def Launch.heldFrozen (l : Launch) : Bool := l.frozen.elem .owl || l.frozen.elem .drain

/-- GLOADSH (R320): a release at scope 4; the thread waits for SHADOW_IMAGE_LOAD. -/
def execGloadsh (a u : Reg) (s : State) : Out :=
  let i := Instr.gloadsh a u
  graphCommand a u i true s fun s tid t l _ va f =>
    if l.heldFrozen then cmdTrap s tid t 0x80 i else wait (showStores s tid 4) tid t (.gloadsh l.lseq va f (wordOf i))

/-- The shadow image of a target as Marten places it, or the status of the failure (R320). -/
def shadowFor (s : State) (l : Launch) (va f : Nat) : State × Except Nat (Variant × Placed) :=
  match readImage s l.vd va with
  | (s, .error _) => (s, .error stImage)
  | (s, .ok img) =>
    match img.variants.find? (fun v => v.factor == f) with
    | none => (s, .error stHeader)
    | some v =>
      if variantOk v = false then (s, .error stHeader)
      else if v.parts ≠ l.variant.parts then (s, .error stFitSpace)
      else
        match placeInto v l.place.rects { links := [], nums := [] } with
        | .error st => (s, .error st)
        | .ok p => (s, .ok (v, p))

/-- The shadow planes written (R54, R320), a load of configurations (R232). -/
def loadShadow (s : State) (l : Launch) (v : Variant) (p : Placed) : State :=
  let g := 1 - l.imgNo
  let l := { l with shadow := some (v, p), shNo := g, chans := l.chans.filter (fun c => keyImg c.1 != g) }
  let s := setLaunch s l
  arbitrate (p.here.foldl (fun s plot =>
    let x := plotOf s plot
    let s := setPlot s plot { (x.unhold x.shMatrix.bufA.tag).unhold x.shMatrix.bufB.tag with shMatrix := Matrix.empty }
    (List.range 64).foldl (fun s e =>
      setPe s (64 * plot + e) { peOf s (64 * plot + e) with shadow := planeFor g v p plot e }) s) s)

/-- SHADOW_IMAGE_LOAD (R320): Marten serves a GLOADSH whose target runs. A thread that is halted waits on (R35). -/
def execShadowImageLoad (tid : Nat) (s : State) : Out :=
  match threadOf s tid with
  | none => .next s
  | some t =>
    match t.stat with
    | .waiting (.gloadsh q va f w) =>
      match launchOf s q with
      | none => .next s
      | some l =>
        if !runs s t.lseq then .next s
        else if l.heldFrozen then .next (trap s tid t 0x80 t.pc w)
        else if !l.runs || l.swap.isSome then .next s
        else
          match shadowFor s l va f with
          | (s, .error st) => .next (trap s tid t 0x80 t.pc (BitVec.ofNat 64 st))
          | (s, .ok (v, p)) => .next (completeWait (loadShadow s l v p) tid 4#64)
    | _ => .next s

/-- The channels of the sources whose PE maps a port; the wavefront reaches the others at once (R186). -/
def swapKeys (s : State) (l : Launch) : List Nat :=
  ((List.range l.variant.nodes.length).map (fun n =>
    let x := l.variant.node n
    if isSource x.hrec && !(peOf s (l.place.peOf n)).active.ports.isEmpty then x.outs.map (chanKey l.imgNo) else [])).flatten

/-- A swap started by a thread: SWAP is put on every channel of the sources that has a credit, and is due on the others
(R186). -/
def swapSources (s : State) (l : Launch) (tid : Nat) : State :=
  let ks := swapKeys s l
  emitSwaps (setLaunch s { l with swap := some { tid := some tid, due := ks.filter (fun k => !chanCredit s l k) } }) l.lseq
    (ks.filter (chanCredit s l))

/-- SBINDs of a launch whose checks have passed, and which have not issued, wait for the swap with the rest: they will
resolve their ports in the new image (R397). -/
def holdBinds (s : State) (lseq : Nat) : State :=
  { s with threads := s.threads.map (fun x => (x.1, if x.2.lseq = lseq then
      (match x.2.stat with
       | .waiting (.cmd (.sbind ..) _) | .waiting (.cmd (.hbind ..) _) => { x.2 with stat := .waiting .swap }
       | _ => x.2)
    else x.2)) }

/-- A new region-wide swap begins: no PE of the launch has done it, and SWAPs of the last one, which every PE would
consume at once, are gone (R398). -/
def freshSwap (s : State) (l : Launch) : State :=
  let keep := fun (ts : List Token) => ts.filter (fun t => t.kind != .swap)
  let s := setLaunch s { l with chans := l.chans.map (fun c =>
    (c.1, { c.2 with legs := c.2.legs.map keep, fifo := keep c.2.fifo, spill := keep c.2.spill, ckpt := c.2.ckpt.filter (fun t => t.1.kind != .swap), recv := c.2.recv.filter (fun t => t.1.kind != .swap) })) }
  { s with pes := s.pes.map (fun x =>
      if (plotOf s (x.1 / 64)).holder = some l.lseq then
        (x.1, { x.2 with swapped := false
                         active := { x.2.active with queues := x.2.active.queues.map (fun q => (q.1, keep q.2)) } })
      else x) }

/-- GSWAP (R322): the swap starts, and the thread waits for its end; behind a swap under way it waits for that one. -/
def execGswap (a u : Reg) (s : State) : Out :=
  let i := Instr.gswap a u
  graphCommand a u i false s fun s tid t l _ _ _ =>
    if l.swap.isSome then wait s tid t (.gswap l.lseq)
    else if l.shadow.isNone || l.ports.any (fun p => p.2.active.isSome || p.2.waiting.isSome) || !l.frozen.isEmpty then
      cmdTrap s tid t 0x80 i
    else
      let s := freshSwap (holdBinds s l.lseq) l
      wait (swapSources s ((launchOf s l.lseq).getD l) tid) tid t (.gswap l.lseq)

/-- GDRAIN (R323): the pre-emption is asked for; a target that is frozen already is held, and the command completes. -/
def execGdrain (a u : Reg) (s : State) : Out :=
  let i := Instr.gdrain a u
  graphCommand a u i false s fun s tid t l q _ _ =>
    if q = 0 then cmdTrap s tid t 0x80 i
    else if !l.frozen.isEmpty then
      done (setLaunch s { l with frozen := if l.frozen.elem .drain then l.frozen else .drain :: l.frozen }) tid t i
    else
      wait (setLaunch s { l with asked := if l.asked.elem .drain then l.asked else .drain :: l.asked }) tid t (.gdrain l.lseq)

/-- A launch restarted that Owl froze or a drain holds: Owl's count starts again (R181, R323). RESTORE gives it plots
again where it has given them up. -/
def resumeLaunch (s : State) (l : Launch) : State :=
  if l.heldFrozen then
    setLaunch s { l with frozen := l.frozen.filter (fun f => f != .owl && f != .drain),
                         idle := l.idle.map (fun x => (x.1, s.time)) }
  else s

/-- GRESUME (R323). -/
def execGresume (a u : Reg) (s : State) : Out :=
  let i := Instr.gresume a u
  graphCommand a u i false s fun s tid t l _ _ _ => done (resumeLaunch s l) tid t i

/-- GEND (R323): the target ends; its own thread with it where it names its own launch. -/
def execGend (a u : Reg) (s : State) : Out :=
  let i := Instr.gend a u
  graphCommand a u i false s fun s tid t l _ _ _ =>
    if l.lseq = t.lseq then .next (endLaunch s l.lseq stOK 0 false)
    else done (endLaunch s l.lseq stOK 0 false) tid t i

end Sys2Proof.Machine
end

