-- ==== Sys2Proof/Machine/Fabric.lean ====
section
/-!
DEFINITION. Dispatch of a processing element (02 R47 to R55; 07 R171 to R178; 20 R398): which handler fires, poisoned
firings, retain store and reorder window, diversion of a firing, promotion, and the swap of one plane.
-/
namespace Sys2Proof.Machine

/-! ## Conditions of a firing (R48) -/

/-- The heads of the ports in PMASK, ascending; none where a port is empty. -/
def headsOf (q : Plane) : List Nat → Option (List (Nat × Token))
  | [] => some []
  | i :: r =>
    match q.head i, headsOf q r with
    | some t, some hs => some ((i, t) :: hs)
    | _, _ => none

/-- Every head's colour is accepted (R47). -/
def coloursOk (h : Nat) (hs : List (Nat × Token)) : Bool := hs.all (fun x => hPmatch h / 2 ^ x.2.colour % 2 == 1)

/-- A credit on each valid output (R48). -/
def outputsOk (s : State) (l : Launch) (g n : Nat) : Bool :=
  ((l.img g).1.node n).outs.all (fun c => chanCredit s l (chanKey g c))

/-- The gate ports whose heads a firing needs: those for which no head has been taken before (R172). -/
def openGates (nd : Node) (taken : List (Nat × Token)) : List Nat := nd.gates.filter (fun i => !taken.any (fun x => x.1 == i))

/-- Gates of a memory node that is no source: ordering tokens of the firing's SEQ, and EOS for its EOS (R355). A
source's gates admit its AG; its EOS firing consumes theirs. -/
def gatesReady (q : Plane) (nd : Node) (gates : List Nat) (k : FKind) (seq : Nat) : Bool :=
  gates.all (fun i =>
    match k, q.head i with
    | .ctl .eos, some t => t.kind == .eos
    | .ctl .eos, none => false
    | .ctl _, _ => true
    | _, some t => isSource nd.hrec || (t.kind == .data && t.seq == seq)
    | _, none => isSource nd.hrec)

/-- The heads of some ports consumed. -/
def takePorts (s : State) (pe : Nat) (ports : List Nat) : State :=
  ports.foldl (fun s i =>
    match (peOf s pe).active.head i with
    | some t => dropHolder (modPlane s pe fun q => q.setQueue i (q.queue i).tail) (pe / 64) t.stag
    | none => s) s

/-- Whether a firing consumes gate heads. -/
def takesGates (nd : Node) (k : FKind) : Bool :=
  match k with
  | .ctl .eos => true
  | .ctl _ => false
  | _ => !isSource nd.hrec

/-- The gate heads a firing consumes, by port. -/
def gateHeads (q : Plane) (nd : Node) (gates : List Nat) (k : FKind) : List (Nat × Token) :=
  if takesGates nd k then gates.filterMap (fun i => (q.head i).map (fun t => (i, t))) else []

/-- Tokens a sink holds before their stores (R172). -/
def windowCap : Nat := 64

/-- What a stream port adds to the conditions: an active binding; for a sink room for the token, and for its MARK and
EOS that every earlier store is done (R302, R304, R351, R158). A port without a binding is not runnable, whatever its heads
are. -/
def portReady (s : State) (lseq : Nat) (p : Port) (room : Bool) (h : Nat) (k : FKind) : Bool :=
  if isPort h = false then true
  else if isSource h then p.active.isSome && !p.eosOut
  else
    !p.eosIn &&
    (match p.active with
     | none => false
     | some (.stream ..) => (match k with | .ctl _ => p.sinkQ.isEmpty | _ => room)
     | some (.handle tid n _ _ _) =>
       (match k with
        | .ctl _ => true
        | _ => (match boundHandle s lseq tid n with | some x => decide (0 < x.free) | none => false)))

/-- The source that a record about an unpaired head waits at: it holds no handler until it is held itself (R178). -/
def unpairedSrc (pe h : Nat) : FSource := .pe pe (32 + h)

/-- Whether a handler is held: by a diversion, or by a record that is not yet written (R169, R175). -/
def handlerHeld (l : Launch) (q : Plane) (pe h : Nat) : Bool :=
  (q.nodeSt h).held || faultHeldAt l (.pe pe h) || l.fbHeld.any (fun r => r.src == unpairedSrc pe h && r.held)

/-! ## Poisoned and held firings (R171, R172) -/

/-- Whether a firing of one kind that consumes some heads is poisoned: any head in error makes it so, whatever its kind; an
unpaired head is no firing (R171). -/
def poisonedHeads (k : FKind) (hs : List (Nat × Token)) : Bool :=
  match k with
  | .unpaired _ => false
  | _ => hs.any (fun x => x.2.err)

/-- Two handlers of a PE whose firings wait for one another in its window: the same node, or memory nodes of one alias
class. -/
def sameWait (v : Variant) (q : Plane) (a b : Nat) : Bool :=
  a == b ||
  (match v.aliasOf (lookupD q.nodes a 65535), v.aliasOf (lookupD q.nodes b 65535) with
   | some x, some y => x == y
   | _, _ => false)

/-- Whether an open firing in the window holds a later one of a handler. -/
def behindHole (v : Variant) (x : PE) (h : Nat) : Bool := x.window.any (fun w => sameWait v x.active w.h h)

/-- Whether the reorder window of a handler's node has room: its open firings, and at a sink the tokens that wait for their
stores, are at most 64 (R172, R103). -/
def windowRoom (x : PE) (p : Port) (h : Nat) : Bool :=
  decide ((x.window.filter (fun w => w.h == h)).length + p.sinkQ.length < windowCap)

/-- Entries of the retain store (R171). -/
def retainCap : Nat := 16

/-- The tags of heads that a firing consumes leave the plot's holders. -/
def dropHeads (s : State) (plot : Nat) (hs : List (Nat × Token)) : State :=
  hs.foldl (fun s x => dropHolder s plot x.2.stag) s

/-! ## A handler looked at -/

/-- A handler that could fire: its index, record, node, heads, the kind of firing, and whether only credits fail. -/
structure Cand where
  h     : Nat
  hrec  : Nat
  n     : Nat
  heads : List (Nat × Token)
  kind  : FKind
  blocked : Bool
  deriving DecidableEq, Repr

/-- The kind of a firing as a verdict settles it (R177). -/
def settledKind (st : NodeSt) (k : FKind) : FKind :=
  match st.redo with
  | some true => (match k with | .ctl _ | .unpaired _ => k | _ => .null)
  | _ => k

/-- Whether a record of a stream port is held: the port waits (R169). -/
def portHeld (l : Launch) (n : Nat) : Bool := l.fbHeld.any (fun r => r.src == .port n && r.held)

/-- The conditions on a firing that is performed now. -/
def mayPerform (s : State) (l : Launch) (pe : Nat) (c : Cand) (taken : List (Nat × Token)) : Bool :=
  let q := (peOf s pe).active
  let nd := (l.img q.img).1.node c.n
  gatesReady q nd (openGates nd taken) c.kind ((c.heads.head?.map (·.2.seq)).getD 0) && portReady s l.lseq (l.port c.n) (windowRoom (peOf s pe) (l.port c.n) c.h) c.hrec c.kind && !(isStores c.hrec && portHeld l c.n)

/-- A handler of the active plane as a candidate (R47, R48, R171, R172). -/
def candOf (s : State) (l : Launch) (pe h : Nat) : Option Cand :=
  let x := peOf s pe
  let q := x.active
  let r := lookupD q.hrecs h 0
  let n := lookupD q.nodes h 65535
  let v := (l.img q.img).1
  if hEn r = false ∨ handlerHeld l q pe h = true then none
  else
    match headsOf q (hPorts r) with
    | none => none
    | some hs =>
      if hs.isEmpty || !coloursOk r hs then none
      else
        match classify r hs with
        | none => none
        | some k =>
          let k := settledKind (q.nodeSt h) k
          let c : Cand := { h := h, hrec := r, n := n, heads := hs, kind := k,
                            blocked := match k with | .unpaired _ => false | _ => !outputsOk s l q.img n }
          let bad := poisonedHeads k hs
          let later := (q.nodeSt h).redo.isNone && behindHole v x h
          let ok := match k with
            | .unpaired _ => true
            | _ =>
              if isStateful r && (bad || later) then windowRoom x (l.port n) h
              else mayPerform s l pe c [] && (!bad || decide (x.retain.length < retainCap))
          if ok then some c else none

/-! ## Selection (R49) -/

/-- Cycles after which a runnable handler is promoted (R49). -/
def promoteAt : Nat := 768

def effPrio (q : Plane) (c : Cand) : Nat := if promoteAt ≤ (q.nodeSt c.h).run then 16 else hPrio c.hrec

/-- Distance of a handler from the round-robin pointer. -/
def fromPtr (ptr h : Nat) : Nat := (h + 16 - ptr % 16) % 16

/-- The handler that fires: the highest effective priority, then the first at or after the pointer. -/
def selectCand (q : Plane) (ptr : Nat) (cs : List Cand) : Option Cand :=
  (cs.filter (fun c => !c.blocked)).foldl (fun b c =>
    match b with
    | none => some c
    | some o =>
      if effPrio q o < effPrio q c ∨ (effPrio q o = effPrio q c ∧ fromPtr ptr c.h < fromPtr ptr o.h) then some c else b) none

/-- The counts of R49 after a cycle: the handler that fired starts again, so does one that is not runnable; one that
is back-pressured, or that waited, keeps its count. -/
def countRuns (s : State) (pe : Nat) (cs : List Cand) (fired : Option Nat) : State :=
  modPlane s pe fun q =>
    q.hrecs.foldl (fun q x =>
      let n := q.nodeSt x.1
      let run := match cs.find? (fun c => c.h == x.1) with
        | none => 0
        | some c => if some x.1 = fired then 0 else if c.blocked then n.run else n.run + 1
      if run = n.run then q else q.setNodeSt x.1 { n with run := run }) q

/-! ## Diversion of a firing (R175, R177, R360) -/

/-- The record of a firing that is diverted. -/
def firingInfo (s : State) (l : Launch) (pe g : Nat) (c : Cand) (cause value port : Nat) (t : Token) : FInfo :=
  let k := ((l.img g).1.node c.n).ports.getD port noChan
  peInfo s l.lseq (pe / 64) c.n (if k = noChan then none else some k) port cause value t.seq

/-- A firing diverted: its lead head goes to the handler node, the others stay at their ports, and the handler is held
with the counters the firing read. -/
def divertFiring (s : State) (l : Launch) (pe g : Nat) (c : Cand) (k : List Nat) (cause value : Nat) : State :=
  match c.heads with
  | [] => s
  | (port, t) :: rest =>
    let s := rest.foldl (fun s x => pushHead s pe x.1 x.2) s
    let s := modPlane s pe fun q => q.setNodeSt c.h { q.nodeSt c.h with held := true, redo := none, keepK := some k }
    divert (scoreCause s (pe / 64) cause) l.lseq (partOf l (pe / 64)) (.firing pe c.h port) t (pe / 64) (.pe pe c.h)
      (firingInfo s l pe g c cause value port t)

/-! ## A selected firing -/

/-- Heads taken from their ports. -/
def takeHeads (s : State) (pe : Nat) (hs : List (Nat × Token)) : State :=
  hs.foldl (fun s x => modPlane s pe fun q => q.setQueue x.1 (q.queue x.1).tail) s

/-- The counters after a firing: a step for a KSTEP handler, once for each firing (R42); a CTURN's MARK and EOS set k0
to 0 (R357). -/
def stepCounters (s : State) (pe : Nat) (c : Cand) (redo : Bool) : State :=
  modPlane s pe fun q =>
    match c.kind with
    | .ctl .eor | .unpaired _ => q
    | .ctl _ => if has6 c.hrec 0x1C then { q with k := setNth q.k 0 0 } else q
    | _ => if hKstep c.hrec && !redo then { q with k := (stepFrom q.klim q.k).1 } else q

/-- A partition's handler fired: Owl's count starts again (R181). -/
def markActive (s : State) (l : Launch) (plot : Nat) : State :=
  modLaunch s l.lseq fun x => { x with idle := insert x.idle (partOf l plot) s.time }

/-- The retain entry of a poisoned firing of a stateless node (R171); its good heads stay holders. -/
def retainFiring (s : State) (pe : Nat) (c : Cand) (k : List Nat) : State :=
  let x := peOf s pe
  let out : List (Nat × Token) := match c.kind with
    | .merge => c.heads.filter (fun t => t.2.kind == .data)
    | _ => c.heads
  let low := (out.head?.map (tokId ·.2)).getD 0
  setPe s pe { x with retain := x.retain ++ [{ img := x.active.img, h := c.h, seq := low, good := c.heads.filter (fun t => !t.2.err)
                                               bad := (c.heads.filter (fun t => t.2.err)).map (fun t => (t.1, tokId t.2))
                                               k := k, asked := false }] }

/-- The channel keys and numbers of ERR heads, as requests; a source asks its own AG (R173). -/
def askFor (l : Launch) (g n : Nat) (bad : List (Nat × Nat)) : List RepReq :=
  let nd := (l.img g).1.node n
  bad.map (fun b => { chan := if isSource nd.hrec then selfKey g n else chanKey g (nd.ports.getD b.1 noChan), seq := b.2 })

/-- The hole that some heads make: those without ERR, and the ports and numbers of the others. -/
def holeOf (h : Nat) (ctl : Bool) (k : List Nat) (bad : Bool) (heads : List (Nat × Token)) : Hole :=
  { h := h, heads := heads.filter (fun t => !(bad && t.2.err)), k := k, ctl := ctl
    need := if bad then (heads.filter (fun t => t.2.err)).map (fun t => (t.1, tokId t.2)) else [] }

/-- The replay requests of a hole's lost heads, which are holders no more (R173). -/
def askHole (s : State) (l : Launch) (pe g n : Nat) (bad : Bool) (heads : List (Nat × Token)) : State :=
  let lost := if bad then heads.filter (fun t => t.2.err) else []
  modLaunch (dropHeads s (pe / 64) lost) l.lseq fun y =>
    { y with requests := y.requests ++ askFor l g n (lost.map (fun t => (t.1, tokId t.2))) }

/-- A firing of a stateful node that stays open in the reorder window: a hole, which asks for its ERR heads, or a later
firing that waits behind one (R172, R173). -/
def openHole (s : State) (l : Launch) (pe g : Nat) (c : Cand) (k : List Nat) (bad : Bool) (heads : List (Nat × Token)) : State :=
  let x := peOf s pe
  let ctl := match c.kind with | .ctl _ => true | _ => false
  askHole (setPe s pe { x with window := x.window ++ [holeOf c.h ctl k bad heads] }) l pe g c.n bad heads

/-- An unpaired head diverted (R178): the handler goes on with the next, one in a cycle. None while the divert ring is
full. -/
def divertUnpaired (s : State) (l : Launch) (pe g : Nat) (c : Cand) (port : Nat) : Option State :=
  match c.heads.find? (fun x => x.1 == port) with
  | none => none
  | some (_, t) =>
    if ringRoom s l (partOf l (pe / 64)) then
      some (divert (takeHeads s pe [(port, t)]) l.lseq (partOf l (pe / 64)) (.unpaired pe c.h port) t (pe / 64) (unpairedSrc pe c.h)
        (firingInfo s l pe g c 0x43 0 port t))
    else none

/-- Whether a control firing of a CTURN finds rows in its block, which are flushed before it (R357). -/
def flushesFirst (c : Cand) (k : List Nat) : Bool :=
  has6 c.hrec 0x1C && decide (0 < k.getD 0 0) && (match c.kind with | .ctl .eor => false | .ctl _ => true | _ => false)

/-- The flush that a control firing of a CTURN makes first; none while it would raise a REF past its limit (R135). -/
def flushFor (s : State) (pe : Nat) (c : Cand) : Option State :=
  let t := (c.heads.head?.map (·.2)).getD (ctlToken .null 0 0 false)
  let s := startFlush s pe c.h c.n t.colour t.stag (c.heads.any (·.2.err)) true
  if refOver s (pe / 64) then none else some s

/-- What a firing whose conditions hold comes to: none where it must wait, for a page, for a spare place in the divert ring,
or because it would leave a REF past its limit (R82, R135, R176); diverted where it raises a cause, with every head that it has
taken; or performed, with its gate heads and, by `after`, its heads consumed. -/
def settleFiring (s s2 : State) (l : Launch) (pe g : Nat) (c : Cand) (f : Firing) (k : List Nat) (gates : List (Nat × Token))
    (after : State → State) : Option State :=
  match perform s2 l f c.kind with
  | .error .wait => none
  | .error (.cause cause value) =>
    if ringRoom s l (partOf l (pe / 64)) then some (markActive (divertFiring s2 l pe g c k cause value) l (pe / 64)) else none
  | .ok s3 =>
    let s4 := after (takePorts s3 pe (gates.map (·.1)))
    if refOver s4 (pe / 64) then none else some (markActive s4 l (pe / 64))

/-- The selected handler fires; none where it must wait. -/
def fireCand (s : State) (l : Launch) (pe : Nat) (c : Cand) : Option State :=
  let x := peOf s pe
  let g := x.active.img
  let st := x.active.nodeSt c.h
  let k := if st.redo.isSome then st.keepK.getD x.active.k else x.active.k
  let v := (l.img g).1
  let nd := v.node c.n
  match c.kind with
  | .unpaired port => divertUnpaired s l pe g c port
  | _ =>
    let bad := poisonedHeads c.kind c.heads
    let gates := gateHeads x.active nd nd.gates c.kind
    let f : Firing := { lseq := l.lseq, pe := pe, h := c.h, g := g, n := c.n, hrec := c.hrec, heads := c.heads, k := k, replay := false
                        gerr := gates.any (·.2.err) }
    let s1 := takeHeads s pe c.heads
    let s1 := setPe s1 pe { peOf s1 pe with ptr := (c.h + 1) % 16 }
    let s1 := modPlane s1 pe fun q => q.setNodeSt c.h { q.nodeSt c.h with redo := none, keepK := none }
    let s2 := stepCounters s1 pe c st.redo.isSome
    if isStateful c.hrec && (bad || (st.redo.isNone && behindHole v x c.h)) then
      some (markActive (openHole s2 l pe g c k bad c.heads) l (pe / 64))
    else if isStateful c.hrec && poisonedHeads c.kind gates then
      some (markActive (openHole (takeHeads s2 pe gates) l pe g c k true (c.heads ++ gates)) l (pe / 64))
    else if flushesFirst c k then (flushFor s pe c).map (fun s => modPlane s pe fun q => { q with k := setNth q.k 0 0 })
    else
      settleFiring s s2 l pe g c f k gates fun s3 =>
        if bad then dropHeads (retainFiring s3 pe c k) (pe / 64) (c.heads.filter (fun t => t.2.err))
        else dropHeads s3 (pe / 64) c.heads

/-- The handler that fires in a cycle: the first in the order of R49 that need not wait, with the ones that had to. -/
def firePick (s : State) (l : Launch) (pe : Nat) : Nat → List Cand → Option (State × Nat × List Cand)
  | 0, _ => none
  | n + 1, cs =>
    match selectCand (peOf s pe).active (peOf s pe).ptr cs with
    | none => none
    | some c =>
      match fireCand s l pe c with
      | some s' => some (s', c.h, cs)
      | none => firePick s l pe n (cs.map (fun x => if x.h = c.h then { x with blocked := true } else x))

/-! ## Held firings performed (R172) -/

/-- The first entry of the window, of the handlers that a test names, that is complete, has no earlier entry it waits for, and can
be performed now. -/
def windowReady (s : State) (l : Launch) (pe : Nat) (only : Nat → Bool) : Option (Nat × Cand × Hole) :=
  let x := peOf s pe
  let q := x.active
  let v := (l.img q.img).1
  (List.range x.window.length).findSome? (fun i =>
    match x.window[i]? with
    | none => none
    | some w =>
      let r := lookupD q.hrecs w.h 0
      let n := lookupD q.nodes w.h 65535
      if !only w.h || !w.need.isEmpty || (x.window.take i).any (fun y => sameWait v q y.h w.h) || handlerHeld l q pe w.h ||
          (q.nodeSt w.h).redo.isSome then none
      else
        let hs := w.heads.filter (fun t => (hPorts r).elem t.1)
        match classify r hs with
        | none => none
        | some k =>
          let c : Cand := { h := w.h, hrec := r, n := n, heads := hs, kind := k, blocked := false }
          if outputsOk s l q.img n && mayPerform s l pe c w.heads then some (i, c, w) else none)

/-- A held firing performed; none where it must wait. Gate heads that came with the hole are consumed already, and go back to their
ports with the others where the firing is diverted (R177); a gate head in error opens the hole again, and a CTURN flushes its
rows before a control firing. -/
def fireHeld (s : State) (l : Launch) (pe i : Nat) (c : Cand) (w : Hole) : Option State :=
  let x := peOf s pe
  let g := x.active.img
  let nd := (l.img g).1.node c.n
  let gates := gateHeads x.active nd (openGates nd w.heads) c.kind
  let f : Firing := { lseq := l.lseq, pe := pe, h := c.h, g := g, n := c.n, hrec := c.hrec, heads := c.heads, k := w.k, replay := false
                      gerr := gates.any (·.2.err) }
  let swap := fun (s : State) (w : Hole) => setPe s pe { peOf s pe with window := setNth (peOf s pe).window i w }
  if poisonedHeads c.kind gates then
    some (markActive (askHole (swap (takeHeads s pe gates) (holeOf w.h w.ctl w.k true (w.heads ++ gates))) l pe g c.n true gates) l (pe / 64))
  else if flushesFirst c w.k then flushFor (swap s { w with k := setNth w.k 0 0 }) pe c
  else
    let all := { c with heads := c.heads ++ w.heads.filter (fun t => !c.heads.elem t) }
    settleFiring s (setPe s pe { x with window := x.window.eraseIdx i }) l pe g all f w.k gates fun s2 => dropHeads s2 (pe / 64) w.heads

/-! ## One cycle of a PE -/

/-- SWAPs at the ports of a PE that has swapped are consumed (R398), and so are MARKs at gate ports (R355). -/
def tidyPorts (s : State) (l : Launch) (pe : Nat) : State :=
  let x := peOf s pe
  let q := x.active
  let v := (l.img q.img).1
  let gates := (q.nodes.map (fun n => (v.node n.2).gates)).flatten
  modPlane s pe fun q => q.queues.foldl (fun q e =>
    let ts := if x.swapped then dropSwaps e.2 else e.2
    let ts := if gates.elem e.1 then ts.dropWhile (fun t => t.kind == .mark) else ts
    if ts.length = e.2.length then q else q.setQueue e.1 ts) q

/-- A SWAP at the head of a valid port holds selection (R55). -/
def swapHead (q : Plane) : Bool := q.ports.any (fun p => match q.head p.1 with | some t => t.kind == .swap | none => false)

/-- The partition whose handler node stands on a PE, if one does (R175). -/
def handlerPart (l : Launch) (pe : Nat) : Option Nat :=
  (List.range l.place.hnode.length).find? (fun q => l.place.hnode.getD q awayPlot == pe / 64 && pe % 64 == 56)

/-- The handlers of a PE that are runnable or back-pressured in a cycle (R48). -/
def candsOf (s : State) (l : Launch) (pe : Nat) : List Cand := (peOf s pe).active.hrecs.filterMap (fun x => candOf s l pe x.1)

/-- A cycle in which no handler is selected, after what it did: the counts of the handlers that were runnable go on (R48, R49). -/
def heldCycle (s : State) (pe : Nat) (cs : List Cand) : State := countRuns s pe cs none

/-- A cycle of a flush that is under way (R357): its next column leaves, or the control firing that it belongs to is performed,
which ends it. It holds selection until then (R46). -/
def flushCycle (s : State) (l : Launch) (pe : Nat) (x : Flush) : State :=
  let cs := candsOf s l pe
  if x.done < 16 then heldCycle (((flushStep s l pe x).map (markActive · l (pe / 64))).getD s) pe cs
  else
    let over_ := fun (s : State) => modPlane s pe fun q => { q with flush := none }
    match (windowReady s l pe (· == x.h)).bind (fun w => fireHeld s l pe w.1 w.2.1 w.2.2) with
    | some s' => heldCycle (over_ s') pe cs
    | none =>
      match firePick s l pe 1 (cs.filter (fun c => c.h == x.h)) with
      | some (s', h, _) => countRuns (over_ s') pe cs (some h)
      | none => heldCycle s pe cs

/-- One cycle of the active plane of a PE outside matrix mode (R49): a flush that is under way goes on, and so does the control
firing that made it; or a held firing that has become complete is performed; or else a selected handler fires, unless a SWAP
holds selection (R55). The counts of the handlers that were runnable go on in each of them. -/
def firingCycle (s : State) (l : Launch) (pe : Nat) : State :=
  let q := (peOf s pe).active
  match q.flush with
  | some x => flushCycle s l pe x
  | none =>
    let cs := candsOf s l pe
    match (windowReady s l pe (fun _ => true)).bind (fun x => fireHeld s l pe x.1 x.2.1 x.2.2) with
    | some s' => heldCycle s' pe cs
    | none =>
      if swapHead q then heldCycle s pe cs
      else
        match firePick s l pe cs.length cs with
        | some (s', h, cs') => countRuns s' pe cs' (some h)
        | none => countRuns s pe (cs.map ({ · with blocked := true })) none

/-- A cycle of a PE, with the work of the handler node where it has one, and the heads that are consumed at once. -/
def peCycle (s : State) (pe : Nat) : State :=
  match peLaunch s pe with
  | none => s
  | some l =>
    if l.runs = false then s
    else
      let s := match handlerPart l pe with | some q => handlerNodeWork s l.lseq q | none => s
      match launchOf s l.lseq with
      | none => s
      | some l =>
        let s := tidyPorts s l pe
        if (peOf s pe).active.matrix then s else firingCycle s l pe

/-- HANDLER_FIRING (R49): one cycle of a PE. -/
def execHandlerFiring (pe : Nat) (s : State) : Out := .next (peCycle s pe)

/-- Whether a handler has stayed runnable so long that the coming cycle, if it does not fire, makes its count 768. -/
def promotes (s : State) (l : Launch) (pe h : Nat) : Bool :=
  match candOf s l pe h with
  | some c => !c.blocked && l.runs && decide (promoteAt ≤ ((peOf s pe).active.nodeSt h).run + 1)
  | none => false

/-- HANDLER_PROMOTION (R49): the cycle in which a handler that does not fire reaches its 768th cycle of being runnable, and
so effective priority 16. -/
def execHandlerPromotion (pe h : Nat) (s : State) : Out :=
  match peLaunch s pe with
  | none => .next s
  | some l => if promotes s l pe h then .next (peCycle s pe) else .next s

/-! ## Plane swap (R55, R186, R397 to R399) -/

/-- The channels that the handlers of a plane name as outputs, by key. -/
def planeOuts (l : Launch) (q : Plane) : List Nat :=
  (q.nodes.map (fun n => (((l.img q.img).1.node n.2).outs).map (chanKey q.img))).flatten

/-- The channels on which SWAPs go out as some planes pass to others: each once, however many outputs name it (R55, R398). -/
def swapOuts (l : Launch) (qs : List Plane) : List Nat := (qs.map (planeOuts l)).flatten.foldl addNat []

/-- The SWAPs at the heads of some ports consumed: the one that each waited for, and every one behind it, which then stands at the
head of a port of a PE that has swapped (R398). -/
def Plane.takeSwaps (q : Plane) (ports : List Nat) : Plane := ports.foldl (fun q i => q.setQueue i (dropSwaps (q.queue i))) q

/-- A PE with its planes exchanged. -/
def PE.exchange (x : PE) : PE := { x with active := x.shadow, shadow := x.active, swapped := true }

/-- The weight buffers of a plot pass with the buffer sets once every PE of it has swapped (R399). -/
def swapMatrix (s : State) (plot : Nat) : State :=
  let x := plotOf s plot
  setPlot s plot { x with matrix := x.shMatrix, shMatrix := x.matrix }

def plotSwapped (s : State) (plot : Nat) : Bool := (List.range 64).all (fun e => (peOf s (64 * plot + e)).swapped)

/-- Threads that waited for the swap go on: the GSWAP that started it completes; one behind it, and an SBIND, are made
again (R322, R397). -/
def wakeSwap (s : State) (lseq : Nat) (by_ : Option Nat) : State :=
  s.threads.foldl (fun s x => match x.2.stat with
    | .waiting (.gswap q) => if q ≠ lseq then s else if by_ = some x.1 then completeWait s x.1 4#64 else retryWait s x.1
    | .waiting .swap => if x.2.lseq = lseq then retryWait s x.1 else s
    | _ => s) s

/-- The swap is complete: the shadow image is the launch's image, and the ranges of its plots are the new image's. -/
def finishSwap (s : State) (l : Launch) : State :=
  match l.shadow, l.swap with
  | some (v, p), some w =>
    let l' := { l with variant := v, place := p, shadow := some (l.variant, l.place), imgNo := l.shNo, shNo := l.imgNo,
                       swap := none }
    let s := setLaunch s l'
    let s := p.here.foldl (fun s plot =>
      let (rs, com) := rangesIn v p plot
      setPlot s plot { plotOf s plot with ranges := rs, common := com, fifo := fifoNeed v p.sites plot }) s
    wakeSwap s l.lseq w.tid
  | _, _ => s

/-- The swap ends once every PE of the launch has swapped (R186). -/
def endSwap (s : State) (lseq : Nat) : State :=
  match launchOf s lseq with
  | some l => if l.place.here.all (plotSwapped s) then finishSwap s l else s
  | none => s

/-- The channels on which a source of a PE has yet to emit the SWAP of the swap under way (R186). -/
def swapsDue (l : Launch) (pe : Nat) : List Nat :=
  match l.swap with
  | some w => w.due.filter (fun k => l.place.peOf (l.variant.chan (keyChan k)).src == pe)
  | none => []

/-- The SWAPs that the sources of a PE can emit now, one for each channel that has a credit (R186). -/
def emitDue (s : State) (l : Launch) (pe : Nat) : State :=
  let now := (swapsDue l pe).filter (chanCredit s l)
  modLaunch (emitSwaps s l.lseq now) l.lseq fun l =>
    { l with swap := l.swap.map (fun w => { w with due := w.due.filter (fun k => !now.elem k) }) }

/-- A PE that may swap: a SWAP at the head of every valid port, no firing open, none diverted (R55). -/
def maySwap (s : State) (l : Launch) (pe : Nat) : Bool :=
  let x := peOf s pe
  l.runs && l.swap.isSome && !x.swapped && !x.active.matrix && x.window.isEmpty &&
  x.active.st.all (fun n => !n.2.held && n.2.redo.isNone) && x.active.flush.isNone && (swapsDue l pe).isEmpty &&
  x.active.ports.all (fun p => match x.active.head p.1 with | some t => t.kind == .swap | none => false) &&
  (swapOuts l [x.active, x.shadow]).all (chanCredit s l)

/-- PLANE_SWAP (R55, R398): the shadow plane is made active, the SWAPs are consumed, and SWAP goes out on every output
of both planes. Before that its sources emit the SWAPs that waited for a credit (R186). -/
def execPlaneSwap (pe : Nat) (s : State) : Out :=
  match peLaunch s pe with
  | none => .next s
  | some l =>
    if maySwap s l pe then
      let x := peOf s pe
      let outs := swapOuts l [x.active, x.shadow]
      let s := modPlane s pe fun q => q.takeSwaps (q.ports.map (·.1))
      let s := setPe s pe (peOf s pe).exchange
      let s := emitSwaps s l.lseq outs
      let s := if plotSwapped s (pe / 64) then swapMatrix s (pe / 64) else s
      .next (endSwap s l.lseq)
    else if l.runs && l.swap.isSome then .next (emitDue s l pe)
    else .next s

/-- MATRIX_PLOT_SWAP (R399): a plot in matrix mode swaps as one unit, once a SWAP stands at the head of each row. -/
def execMatrixPlotSwap (plot : Nat) (s : State) : Out :=
  match peLaunch s (64 * plot) with
  | none => .next s
  | some l =>
    let x := peOf s (64 * plot)
    let outs := swapOuts l (x.active :: (List.range 64).map (fun e => (peOf s (64 * plot + e)).shadow))
    if l.runs && l.swap.isSome && !x.swapped && x.active.matrix &&
        (List.range 8).all (fun i => match x.active.head i with | some t => t.kind == .swap | none => false) &&
        outs.all (chanCredit s l) then
      let s := modPlane s (64 * plot) fun q => q.takeSwaps (List.range 8)
      let s := (List.range 64).foldl (fun s e => setPe s (64 * plot + e) (peOf s (64 * plot + e)).exchange) s
      .next (endSwap (swapMatrix (emitSwaps s l.lseq outs) plot) l.lseq)
    else .next s

end Sys2Proof.Machine
end

