-- ==== Sys2Proof/Machine/Stream.lean ====
section
/-!
DEFINITION. Address generators (04_memory_levels.md R99 to R104; 05 R120 to R125; 07 R170, R179; 14 R302 to R305; 15
R351 to R355; 21 R401, R402): one element at a time, the tokens a source places in port 0, the stores of a sink, held
elements and their retries, and the end of a stream.
-/
namespace Sys2Proof.Machine

/-! ## Accesses of an AG -/

/-- The context of an AG's accesses (R92, R303). -/
def fabricCtx (l : Launch) (pkeys : Word) : Ctx := { vd := l.vd, lseq := l.lseq, gid := l.gid, pkeys := pkeys, agent := .fabric }

/-- The keys that a binding took at its issue (R303). -/
def bindKeys : Binding → Word
  | .stream _ _ _ _ _ _ k _ => k
  | _ => 0#64

/-- A record of a stream port (R104, R167). -/
def portInfo (s : State) (l : Launch) (n cause value seq acc : Nat) : FInfo :=
  let nd := l.variant.node n
  let c := if isSource nd.hrec then nd.outA else nd.ports.getD (hLow nd.hrec) noChan
  { time := s.time, value := value, seq := seq, node := n, chan := if c = noChan then none else some c,
    plot := l.place.plotOf n, srcNo := 1, unit := hLow nd.hrec, cause := cause, orig := 0, acc := acc, lseq := l.lseq }

/-- The 64 KiB granule of an address (R104). -/
def pageOf (va : Nat) : Nat := va / 65536

/-- A fault of a port at an address: one record for each page; the retry timer runs from the first (R104). -/
def portFault (s : State) (l : Launch) (n va cause value seq acc : Nat) : State :=
  let p := l.port n
  let s := if p.pages.elem (pageOf va) then s else raiseFault s l.lseq (.port n) (portInfo s l n cause value seq acc)
  modLaunch s l.lseq fun l =>
    let p := l.port n
    l.setPort n { p with pages := addNat p.pages (pageOf va)
                         retryAt := if p.spill.isEmpty && p.linkHeld.isNone then s.time else p.retryAt }

/-- A read of `n` bytes by an AG, with whether they are poisoned (R85); it need not see a thread's plain stores yet (R382). -/
def agRead (s : State) (c : Ctx) (va n : Nat) : State × Checked (Nat × Bool) :=
  match dataCheck s c .read va n 1 with
  | (s, .ok x) =>
    let o := observe s c .read x n
    (readEffect o.1 x, .ok (readLoc o.2 x n, (match x.reg with | .window .. => false | .domain .. => Config.farPoison x.pa s.time | _ => poisoned s x.pa n)))
  | (s, .bad c v) => (s, .bad c v)
  | (s, .hold w) => (s, .hold w)

/-- An element as loaded: its half of the byte where the format has one, converted exactly (R98, R120). -/
def elemOf (r : SRec) (pack : Nat) (raw : Nat) (odd : Bool) : Elem :=
  let v := if r.nibble then (if odd then raw / 16 % 16 else raw % 16) else raw
  if pack = 2 then BitVec.ofNat 40 v else loadConv r.fmt v

/-! ## Block scales (R123 to R125, R136) -/

/-- A scale as FP32 (R124). -/
def scaleFp32 (skind raw : Nat) : BitVec 32 :=
  if skind ≠ 1 then BitVec.ofNat 32 raw
  else if raw = 255 then 0x7FC00000#32
  else if raw = 0 then 0x00400000#32
  else BitVec.ofNat 32 (raw * 2 ^ 23)

/-- The tag of a position's block, bound in the node's range where it is not yet held; none while no entry is free.
R85 says what the AG does with an element of a poisoned sector and nothing of a scale: the model binds the scale as read (log
88). -/
def blockTag (s : State) (l : Launch) (n : Nat) (r : SRec) (keys : Word) (pos : Nat) : State × Checked (Option Nat) :=
  if r.skind = 0 then (s, .ok (some 0))
  else
    let b := r.blockOf pos
    match (l.port n).scales.find? (fun x => x.1 == b) with
    | some x => (s, .ok (some x.2))
    | none =>
      let plot := l.place.plotOf n
      let (lo, k) := lookupD (plotOf s plot).ranges n (0, 0)
      if (freeEntry (plotOf s plot) lo k).isNone then (s, .ok none)
      else
        let w := scaleBytes r.skind
        match loadVA s (fabricCtx l keys) .read ((r.scale + w * b) % 2 ^ 56) w 1 with
        | (s, .bad c v) => (s, .bad c v)
        | (s, .hold h) => (s, .hold h)
        | (s, .ok raw) =>
          match bindIn (plotOf s plot) lo k (scaleFp32 r.skind raw) with
          | none => (s, .ok none)
          | some (x, tag) =>
            let s := setPlot s plot x
            (modLaunch s l.lseq fun l => let p := l.port n; l.setPort n { p with scales := p.scales ++ [(b, tag)] }, .ok (some tag))

/-- The binding of a block released once its last element has been generated (R125). -/
def releaseBlock (s : State) (l : Launch) (n : Nat) (r : SRec) (pos : Nat) : State :=
  if r.skind = 0 ∨ r.blockEnds pos = false then s
  else
    let b := r.blockOf pos
    match (l.port n).scales.find? (fun x => x.1 == b) with
    | none => s
    | some x =>
      let s := dropHolder s (l.place.plotOf n) x.2
      modLaunch s l.lseq fun l => let p := l.port n; l.setPort n { p with scales := p.scales.filter (fun y => y.1 != b) }

/-! ## Placing tokens in port 0 (R103, R179, R351, R401) -/

/-- DATA tokens a source has placed since its stream began. -/
def placed (p : Port) : Nat := p.nTok - p.window.length

def WinTok.holds (w : WinTok) : Bool := w.els.any (·.isNone)
def WinTok.ready (w : WinTok) : Bool := w.full && !w.holds

/-- Whether a source's consumer is declared commutative (R103, R356). -/
def toCommutative (v : Variant) (n : Nat) : Bool :=
  let c := (v.node n).outA
  c != noChan && (v.node (v.chan c).dst).commutative

/-- The elements of a token by lane, two to a lane where FP4 is packed (R99, R127). -/
def laneElems (pack : Nat) (els : List (Option Elem)) : List Elem :=
  let e := fun i => (els.getD i none).getD 0#40
  if pack = 2 then lanes (fun i => e (2 * i) ||| (e (2 * i + 1) <<< 4)) else lanes e

def validUpTo (n : Nat) : BitVec 16 := BitVec.ofNat 16 (2 ^ n - 1)

/-- The DATA token of a complete window entry. -/
def winToken (pack : Nat) (w : WinTok) : Token :=
  { kind := .data, stag := w.stag, colour := 0, err := w.err, rsv := 0, seq := w.num % 2 ^ 32, chan := 0,
    valid := validUpTo ((w.els.length + pack - 1) / pack), elems := laneElems pack w.els }

/-- A token put in port 0 of a source's PE: its port has emitted, and Owl's count starts again (R181). -/
def putPort0 (s : State) (l : Launch) (n : Nat) (t : Token) : State :=
  markActive (modPlane s (l.place.peOf n) fun q => q.setQueue 0 (q.queue 0 ++ [t])) l (l.place.plotOf n)

/-- What a source places next: a MARK that is due, a complete token in SEQ order (any complete one for a commutative
consumer), or at its end a MARK and then EOS. -/
inductive Placing
  | mark
  | data (i : Nat)
  | eos
  deriving DecidableEq, Repr

def nextPlaced (p : Port) (markint : Nat) (comm : Bool) : Option Placing :=
  if markint ≤ p.sinceMark then (if comm && p.window.any WinTok.holds then none else some .mark)
  else
    match (if comm then p.window.findIdx? WinTok.ready else if (p.window.head?.map WinTok.ready) = some true then some 0 else none) with
    | some i => some (.data i)
    | none =>
      if p.generated && p.window.isEmpty && !p.eosIn then (if p.sinceMark = 0 then some .eos else some .mark) else none

/-- The token placed, and the port after it; an ERR token is remembered for its replay (R170, R173). -/
def placeNext (s : State) (l : Launch) (n pack : Nat) (b : Binding) (pl : Placing) : State :=
  let p := l.port n
  let k := placed p
  let (t, p') := match pl with
    | .mark => (ctlToken .mark 0 k false, { p with sinceMark := 0 })
    | .eos => (ctlToken .eos 0 k false, { p with eosIn := true })
    | .data i =>
      match p.window[i]? with
      | none => (ctlToken .null 0 0 false, p)
      | some w =>
        (winToken pack w,
         { p with window := p.window.eraseIdx i, sinceMark := p.sinceMark + 1
                  poisoned := if w.err then p.poisoned ++ [{ seq := w.num % 2 ^ 32, b := b, at_ := w.at_, pos := w.pos, fails := 0 }]
                              else p.poisoned })
  putPort0 (setLaunch s (l.setPort n p')) l n t

/-! ## Generating elements -/

/-- Elements held at a source before it stops generating (R103). -/
def spillCap : Nat := 16

/-- Gates of a source admit token `k`: ordering tokens of its SEQ at every gate head (R355). -/
def gatesAdmit (q : Plane) (nd : Node) (k : Nat) : Bool :=
  nd.gates.all (fun i => match q.head i with | some t => t.kind == .data && t.seq == k % 2 ^ 32 | none => false)

/-- The window entry that is being filled, or a new one for the next token. -/
def openTok (p : Port) (pos stag : Nat) : List WinTok × WinTok :=
  match p.window.getLast? with
  | some w => if w.full then (p.window, { num := p.nTok, els := [], at_ := [], pos := pos, full := false, stag := stag, err := false })
              else (p.window.dropLast, w)
  | none => ([], { num := p.nTok, els := [], at_ := [], pos := pos, full := false, stag := stag, err := false })

/-- Whether the next element begins a token. -/
def beginsTok (p : Port) : Bool := match p.window.getLast? with | some w => w.full | none => true

/-- An element generated at an address: read, or diverted to the spill queue on a fault; `full` says it is its token's
last (R99, R103). -/
def genElem (s : State) (l : Launch) (n pack : Nat) (r : SRec) (keys : Word) (va : Nat) (odd : Bool) (pos stag : Nat)
    (full : Bool) : Option State :=
  let put := fun (s : State) (e : Option Elem) (bad : Bool) =>
    modLaunch s l.lseq fun l =>
      let p := l.port n
      let new := beginsTok p
      let (ws, w) := openTok p pos stag
      let w := { w with els := w.els ++ [e], at_ := w.at_ ++ [(va, odd)], full := full, err := w.err || bad }
      let sp := if e.isSome then p.spill
        else p.spill ++ [{ at_ := (va, odd), tok := w.num, lane := w.els.length - 1, page := pageOf va }]
      l.setPort n { p with window := ws ++ [w], nTok := if new then p.nTok + 1 else p.nTok, pos := p.pos + 1, spill := sp
                           uncorr := p.uncorr || bad }
  match agRead s (fabricCtx l keys) va r.size with
  | (_, .hold _) => none
  | (s, .ok (raw, bad)) => some (put s (some (elemOf r pack raw odd)) bad)
  | (s, .bad c v) =>
    let p := l.port n
    some (put (portFault s l n va c v (if beginsTok p then p.nTok else p.nTok - 1) 0) none false)

/-- A link or a scale that faulted stalls generation (R102, R104). -/
def stallPort (s : State) (l : Launch) (n va c v : Nat) : State :=
  let s := portFault s l n va c v ((l.port n).nTok % 2 ^ 32) 0
  modLaunch s l.lseq fun l => l.setPort n { l.port n with linkHeld := some va }

/-- The gate heads of a new token consumed. -/
def admitTok (s : State) (l : Launch) (n : Nat) : State :=
  takePorts s (l.place.peOf n) (l.variant.node n).gates

/-- The link of a chase followed: the next node, or the end (R102). R85 says what the AG does with an element of a poisoned
sector and nothing of a link: the model follows the link as read (log 87). -/
def followLink (s : State) (l : Launch) (n : Nat) (r : SRec) (keys : Word) (a : Nat) : State :=
  match agRead s (fabricCtx l keys) a 8 with
  | (s, .hold _) => s
  | (s, .bad c v) => stallPort s ((launchOf s l.lseq).getD l) n a c v
  | (s, .ok (link, _)) =>
    modLaunch s l.lseq fun l =>
      let p := l.port n
      let ends := decide (link = 0) || decide (r.count 0 ≤ p.visited)
      l.setPort n { p with
        linkHeld := none, generated := ends
        chaseAt := if ends then none else some (((link : Int) + r.stride 1) % 2 ^ 56).toNat
        window := if ends then p.window.map (fun w => { w with full := true }) else p.window }

/-- One node of a chase: its element, and its link (R102). Nothing of it is done while either read waits (R229). -/
def chaseStep (s : State) (l : Launch) (n pack ln : Nat) (r : SRec) (keys : Word) : State :=
  let p := l.port n
  match p.chaseAt with
  | none => s
  | some a =>
    let va := (((a : Int) + r.stride 0) % 2 ^ 56).toNat
    let cnt := if beginsTok p then 0 else (p.window.getLast?.map (·.els.length)).getD 0
    let s1 := if beginsTok p then admitTok s l n else s
    match genElem s1 ((launchOf s1 l.lseq).getD l) n pack r keys va false p.pos 0 (decide (cnt + 1 = ln)) with
    | none => s
    | some s2 =>
      match (agRead s2 (fabricCtx l keys) a 8).2 with
      | .hold _ => s
      | _ =>
        let s2 := modLaunch s2 l.lseq fun l => let p := l.port n; l.setPort n { p with visited := p.visited + 1 }
        followLink s2 ((launchOf s2 l.lseq).getD l) n r keys a

/-- One element of a record in generation order (R99, R125). Nothing of it is done while its read waits (R229). -/
def recordStep (s : State) (l : Launch) (n pack ln : Nat) (r : SRec) (keys : Word) : State :=
  let p := l.port n
  let pos := p.pos
  match blockTag s l n r keys pos with
  | (_, .hold _) => s
  | (s, .bad c v) => stallPort s l n ((r.scale + scaleBytes r.skind * r.blockOf pos) % 2 ^ 56) c v
  | (_, .ok none) => s
  | (s1, .ok (some tag)) =>
    let new := beginsTok p
    let plot := l.place.plotOf n
    if new ∧ refFull (plotOf s1 plot) tag then s
    else
      let s1 := if new then addHolder (admitTok s1 l n) plot tag else s1
      let k := if new then p.nTok else p.nTok - 1
      let span := r.tokenAt (ln * pack) k
      let full := decide (pos + 1 = span.1 + span.2)
      let l := (launchOf s1 l.lseq).getD l
      match genElem s1 l n pack r keys (r.addrOf pos) ((r.idx pos).getD 0 0 % 2 == 1) pos tag full with
      | none => s
      | some s =>
        let s := releaseBlock s ((launchOf s l.lseq).getD l) n r pos
        modLaunch s l.lseq fun l => let p := l.port n; l.setPort n { p with generated := decide (r.total ≤ p.pos) }

/-- A source takes its next step: it places a token that is due, or generates an element (R99). A token takes a place of the
window from its first element until it is emitted: while it is built, while it waits for its elements or its turn, and in port
0 (R103, R401). -/
def sourceStep (s : State) (l : Launch) (n : Nat) (b : Binding) (r : SRec) : State :=
  let p := l.port n
  let v := l.variant
  let nd := v.node n
  let pe := l.place.peOf n
  let pack := packOfRec v n r
  let ln := (v.chan nd.outA).lanes
  let comm := toCommutative v n
  let q := (peOf s pe).active
  match (if (q.queue 0).length < queueCap then nextPlaced p l.hdr.markint comm else none) with
  | some pl => placeNext s l n pack b pl
  | none =>
    let busy := p.window.length + ((q.queue 0).filter (fun t => t.kind == .data)).length
    if p.generated then s
    else if r.empty then setLaunch s (l.setPort n { p with generated := true })
    else if p.linkHeld.isSome ∨ spillCap ≤ p.spill.length then s
    else if beginsTok p ∧ (windowCap ≤ busy ∨ gatesAdmit q nd p.nTok = false) then s
    else if r.chase then chaseStep s l n pack ln r (bindKeys b)
    else recordStep s l n pack ln r (bindKeys b)

/-! ## An OUT handle (R159) -/

/-- The DATA token of a ring slot: elements and valid bits as written, lanes of the channel alone. -/
def slotToken (s : State) (plot ln : Nat) (x : Handle) (num : Nat) : Token :=
  let w := fun i => readRaw s.mem (scratchAddr plot (x.slotAddr x.head i)) 8
  { kind := .data, stag := lookupD x.tags x.head 0, colour := 0, err := false, rsv := 0, seq := num % 2 ^ 32, chan := 0,
    valid := maskOf (fun i => decide (i < ln) && w i / 2 ^ 63 == 1), elems := lanes (fun i => BitVec.ofNat 40 (w i)) }

/-- A source bound to an OUT handle: the slot at HEAD leaves as a token, with MARK and EOS as any source's. Once its EOS is placed
the port takes no more of the handle, which may be bound anew before STREAM_END, to this port or to another (R305). -/
def handleStep (s : State) (l : Launch) (n tid h plot slot : Nat) (user : Word) : State :=
  let p := l.port n
  let nd := l.variant.node n
  let pe := l.place.peOf n
  let q := (peOf s pe).active
  match boundHandle s l.lseq tid h with
  | none => s
  | some x =>
    let b := Binding.handle tid h plot slot user
    if p.eosIn || p.eosOut || x.node != n || decide (queueCap ≤ (q.queue 0).length) then s
    else if l.hdr.markint ≤ p.sinceMark then placeNext s l n 1 b .mark
    else if x.head ≠ x.tail then
      let at_ := x.slotAddr x.head 0
      if gatesAdmit q nd p.nTok = false ∨ listed s.backed (2048 * plot + at_ / 4096) then s
      else
        let tok := slotToken s plot (l.variant.chan nd.outA).lanes x p.nTok
        let s := admitTok (sawBytes (touchPage s plot at_) (scratchAddr plot at_) 128) l n
        let s := putPort0 (modLaunch s l.lseq fun l => l.setPort n { p with nTok := p.nTok + 1, sinceMark := p.sinceMark + 1 }) l n tok
        setBoundHandle s l.lseq tid h { x with head := (x.head + 1) % 2 ^ 32, tags := remove x.tags x.head }
    else if x.eosAt then placeNext s l n 1 b (if p.sinceMark = 0 then .eos else .mark)
    else s

/-! ## Sinks (R99, R121, R354) -/

/-- The mode of a store (R97, R122). -/
def storeMode (l : Launch) (r : SRec) (seq lane : Nat) : Mode := if r.rm = 4 then .sr (srWord l.hdr.seed seq lane) else modeOf r.rm

/-- One element stored: converted, merged with the other half of its byte where the format has halves (R108). -/
def storeElem (s : State) (l : Launch) (r : SRec) (keys : Word) (va : Nat) (odd : Bool) (bits : Nat) : State × Checked Unit :=
  match dataCheck s (fabricCtx l keys) .write va r.size 1 with
  | (s, .ok x) =>
    let old := if r.nibble then readLoc s x 1 else 0
    let v := if r.nibble then (if odd then old % 16 + bits * 16 else old / 16 * 16 + bits) else bits
    (writeLoc s x r.size v, .ok ())
  | (s, .bad c v) => (s, .bad c v)
  | (s, .hold w) => (s, .hold w)

/-- The next lane of a token that is to be stored. -/
def nextStore (lane : Nat) (es : List (Option Elem)) : Option (Nat × Elem) :=
  (List.range es.length).findSome? (fun i => if i < lane then none else (es.getD i none).map (fun e => (i, e)))

/-- The token at the head of a sink is stored: its ordering token, and the bytes of the positions it did not store. -/
def sinkDone (s : State) (l : Launch) (n tid ctr size : Nat) (t : Token) (es : List (Option Elem)) : State :=
  let c := (l.variant.node n).outA
  if c ≠ noChan ∧ chanCredit s l (chanKey l.imgNo c) = false then s
  else
    let some_ := es.any (·.isSome)
    let rest := if some_ then (es.filter (·.isNone)).length else 0
    let s := modLaunch (subPend s tid ctr (rest * size)) l.lseq fun l =>
      let p := l.port n
      l.setPort n { p with sinkQ := p.sinkQ.tail, performed := p.performed + rest }
    if c = noChan then s
    else
      let pe := l.place.peOf n
      let s := dropHolder (emitTok s l.lseq (chanKey l.imgNo c) t) (l.place.plotOf n) t.stag
      modPlane (markActive s l (l.place.plotOf n)) pe fun q =>
        let h := l.place.hidx.getD n 0; q.setNodeSt h { q.nodeSt h with eA := (q.nodeSt h).eA + 1 }

/-- The number of the oldest token that a sink holds. -/
def sinkFirst (p : Port) : Nat := p.sinkTok - p.sinkQ.length

/-- The lanes of a token from one on that are to be stored. -/
def lanesFrom (lane : Nat) (es : List (Option Elem)) : List (Nat × Elem) :=
  (List.range es.length).filterMap (fun i => if i < lane then none else (es.getD i none).map (fun e => (i, e)))

/-- What a sink has yet to store, in generation order: the place of the token, the lane and the element. -/
def lanesLeft (p : Port) : List (Nat × Nat × Elem) :=
  ((List.range p.sinkQ.length).map (fun i => (p.sinkQ[i]?.elim [] (fun x => lanesFrom x.2.1 x.2.2)).map (fun y => (i, y.1, y.2)))).flatten

/-- The next of them. -/
def nextLane (p : Port) : Option (Nat × Nat × Elem) := (lanesLeft p).head?

/-- Whether a lane of a sink's token is held in the spill queue. -/
def laneHeld (p : Port) (ix i : Nat) : Bool := p.spill.any (fun e => e.tok == sinkFirst p + ix && e.lane == i)

/-- The oldest token of a sink, once each of its lanes has been stored. -/
def sinkReady (p : Port) : Option (Token × List (Option Elem)) :=
  match p.sinkQ with
  | (t, lane, es) :: _ => if (lanesFrom lane es).isEmpty then some (t, es) else none
  | [] => none

/-- The address of lane `i` of the sink's token `k`, and its half of the byte (R99). -/
def laneAddr (l : Launch) (n : Nat) (r : SRec) (k i : Nat) : Nat × Bool :=
  let ln := (l.variant.chan ((l.variant.node n).ports.getD (hLow (l.variant.node n).hrec) noChan)).lanes
  let pos := (r.tokenAt ln k).1 + i
  (r.addrOf pos, (r.idx pos).getD 0 0 % 2 == 1)

/-- One lane of a sink's token written: its flags raised and its bytes taken off the counter (R121, R152). -/
def storeLane (s : State) (l : Launch) (n : Nat) (r : SRec) (tid ctr : Nat) (keys : Word) (t : Token) (at_ : Nat × Bool) (i : Nat)
    (e : Elem) : State × Checked Unit :=
  let (bits, fl) := storeConv r.fmt (storeMode l r t.seq i) e
  match storeElem s l r keys at_.1 at_.2 bits with
  | (s, .ok _) =>
    (modLaunch (subPend (raiseFlags s l.lseq (partOf l (l.place.plotOf n)) fl) tid ctr r.size) l.lseq fun l =>
      l.setPort n { l.port n with performed := (l.port n).performed + 1 }, .ok ())
  | x => x

/-- A sink's lane that has been stored: the lanes of its token go on after it, and it is held no more. -/
def laneStored (p : Port) (ix i : Nat) : Port :=
  match p.sinkQ[ix]? with
  | some (t, _, es) => { p with sinkQ := setNth p.sinkQ ix (t, i + 1, es)
                                spill := p.spill.filter (fun e => !(e.tok == sinkFirst p + ix && e.lane == i)) }
  | none => p

/-- Held elements in generation order. -/
def addSpill (q : List Spilled) (e : Spilled) : List Spilled :=
  let before := fun (y : Spilled) => decide (y.tok < e.tok) || (y.tok == e.tok && decide (y.lane < e.lane))
  q.takeWhile before ++ e :: q.dropWhile before

/-- A sink's lane that faults: its page is reported, and it goes to the spill queue while that has room (R103). -/
def holdLane (s : State) (l : Launch) (n : Nat) (t : Token) (k i : Nat) (at_ : Nat × Bool) (c v : Nat) : State :=
  modLaunch (portFault s l n at_.1 c v t.seq 1) l.lseq fun l =>
    let p := l.port n
    l.setPort n { p with spill := addSpill p.spill { at_ := at_, tok := k, lane := i, page := pageOf at_.1 } }

/-- A lane that waits behind a held one, where its check fails: it is held too. None where it passes: it is not written yet. -/
def holdWaiting (s : State) (l : Launch) (n : Nat) (r : SRec) (tid ctr : Nat) (keys : Word) (x : Nat × Nat × Elem) : Option State :=
  let p := l.port n
  let k := sinkFirst p + x.1
  let at_ := laneAddr l n r k x.2.1
  match p.sinkQ[x.1]? with
  | none => none
  | some (t, _, _) =>
    match storeLane s l n r tid ctr keys t at_ x.2.1 x.2.2 with
    | (s, .bad c v) => some (holdLane s l n t k x.2.1 at_ c v)
    | _ => none

/-- The first of some lanes that wait behind a held one which would fault, held too: the port goes on with later elements, which
it checks and, where they pass, does not write yet (R103 steps 1 and 7, R79; log 55). -/
def holdLater (s : State) (l : Launch) (n : Nat) (r : SRec) (tid ctr : Nat) (keys : Word) (xs : List (Nat × Nat × Elem)) : State :=
  (xs.findSome? (holdWaiting s l n r tid ctr keys)).getD s

/-- The next lane of a sink tried: stored, or held in the spill queue on a fault, where that has room. -/
def sinkLane (s : State) (l : Launch) (n : Nat) (r : SRec) (tid ctr : Nat) (keys : Word) (ix i : Nat) (e : Elem) : State :=
  let p := l.port n
  let k := sinkFirst p + ix
  let at_ := laneAddr l n r k i
  match p.sinkQ[ix]? with
  | none => s
  | some (t, _, _) =>
    match storeLane s l n r tid ctr keys t at_ i e with
    | (_, .hold _) => s
    | (s, .ok _) => modLaunch s l.lseq fun l => l.setPort n (laneStored (l.port n) ix i)
    | (s', .bad c v) => if spillCap ≤ p.spill.length then s else holdLane s' l n t k i at_ c v

/-- A sink takes its next step (R99, R103, R354): its oldest token is done with; or the next lane in its order is tried; or, where
that one is held, a later one that would fault is held too, unless the spill queue is full. A sink writes its values in the
order of their positions, whatever is held (R79, R173). -/
def sinkStep (s : State) (l : Launch) (n : Nat) (r : SRec) (tid ctr : Nat) (keys : Word) : State :=
  let p := l.port n
  match sinkReady p with
  | some (t, es) => sinkDone s l n tid ctr r.size t es
  | none =>
    match nextLane p with
    | none => s
    | some (ix, i, e) =>
      if laneHeld p ix i = false then sinkLane s l n r tid ctr keys ix i e
      else if spillCap ≤ p.spill.length then s
      else holdLater s l n r tid ctr keys ((lanesLeft p).filter (fun x => !laneHeld p x.1 x.2.1))

/-- The held lanes of a sink tried again, in generation order (R104): one that passes is held no more, and is stored where it is the
sink's next. -/
def retrySink (s : State) (l : Launch) (n : Nat) (r : SRec) (tid ctr : Nat) (keys : Word) : List Spilled → State
  | [] => s
  | e :: rest =>
    let p := l.port n
    let ix := e.tok - sinkFirst p
    match (p.sinkQ[ix]?).bind (fun x => (x.2.2.getD e.lane none).map (fun v => (x.1, v))) with
    | none => retrySink s l n r tid ctr keys rest
    | some (t, v) =>
      match storeLane s l n r tid ctr keys t e.at_ e.lane v with
      | (_, .hold _) => retrySink s l n r tid ctr keys rest
      | (s', .ok _) =>
        let s := if nextLane p = some (ix, e.lane, v) then modLaunch s' l.lseq fun l => l.setPort n (laneStored (l.port n) ix e.lane)
          else modLaunch s l.lseq fun l => l.setPort n { l.port n with spill := (l.port n).spill.filter (· != e) }
        retrySink s ((launchOf s l.lseq).getD l) n r tid ctr keys rest
      | (s, .bad c x) =>
        let s := portFault s l n e.at_.1 c x t.seq 1
        retrySink s ((launchOf s l.lseq).getD l) n r tid ctr keys rest

/-! ## The steps of a port -/

/-- AG_ELEMENT (R99): the AG of a port takes its next step, unless the port waits behind a record (R155). -/
def execAgElement (lseq node : Nat) (s : State) : Out :=
  match launchOf s lseq with
  | none => .next s
  | some l =>
    let h := (l.variant.node node).hrec
    if l.runs = false ∨ l.swap.isSome ∨ isPort h = false ∨ eventHeldAt s lseq (.port node) then .next s
    else
      let s := tidyPorts s l (l.place.peOf node)
      match (l.port node).active with
      | none => .next s
      | some b =>
        match b with
        | .stream r tid _ _ ctr _ keys _ =>
          .next (if isSource h then sourceStep s l node b r else sinkStep s l node r tid ctr keys)
        | .handle tid n plot slot user => if isSource h then .next (handleStep s l node tid n plot slot user) else .next s

/-- Ticks between retries of held elements (R104). -/
def retryTicks : Nat := 65536

/-- One held element of a source tried again: it fills its place, or stays (R402). -/
def retrySource (s : State) (l : Launch) (n pack : Nat) (r : SRec) (keys : Word) : List Spilled → State
  | [] => s
  | e :: rest =>
    match agRead s (fabricCtx l keys) e.at_.1 r.size with
    | (s, .ok (raw, bad)) =>
      let s := modLaunch s l.lseq fun l =>
        let p := l.port n
        l.setPort n { p with
          spill := p.spill.filter (· != e), uncorr := p.uncorr || bad
          window := p.window.map (fun w => if w.num = e.tok
            then { w with els := setNth w.els e.lane (some (elemOf r pack raw e.at_.2)), err := w.err || bad } else w) }
      retrySource s ((launchOf s l.lseq).getD l) n pack r keys rest
    | (s', .bad c v) =>
      let s := portFault s' l n e.at_.1 c v e.tok 0
      retrySource s ((launchOf s l.lseq).getD l) n pack r keys rest
    | (_, .hold _) => retrySource s l n pack r keys rest

/-- Whether a port's record about the element, link or scale at an address is held, which then stays (R169). VALUE is the address, or
for PHYS_HOLE the physical one, whose low 16 bits are the same. -/
def recordWaits (l : Launch) (node va : Nat) : Bool :=
  l.fbHeld.any (fun r => r.src == .port node && r.held &&
    (fld r.bits 191 128 == va || (fld r.bits 63 56 == 0x27 && fld r.bits 143 128 == va % 65536)))

/-- HELD_ELEMENT_RETRY (R104, R402): once an invalidation has reached a held page, or 65,536 ticks after the last try,
every held element of the port is tried in generation order; so is a link or a scale that stalls the port. One whose own record
is held stays so until the next such event (R169). -/
def execHeldElementRetry (lseq node : Nat) (s : State) : Out :=
  match launchOf s lseq with
  | none => .next s
  | some l =>
    let p := l.port node
    let h := (l.variant.node node).hrec
    if l.runs = false ∨ (p.spill.isEmpty ∧ p.linkHeld.isNone) ∨ (p.retryNow = false ∧ s.time < p.retryAt + retryTicks) then .next s
    else
      let tried := p.spill.filter (fun e => !recordWaits l node e.at_.1)
      let p := { p with retryAt := s.time, retryNow := false }
      let s := setLaunch s (l.setPort node p)
      let l := l.setPort node p
      match p.active with
      | some (.stream r tid _ _ ctr _ keys _) =>
        if isSource h then
          let s := retrySource s l node (packOfRec l.variant node r) r keys tried
          let l := (launchOf s lseq).getD l
          match p.linkHeld with
          | some a =>
            if recordWaits l node a then .next s
            else if r.chase then .next (followLink s l node r keys a)
            else .next (setLaunch s (l.setPort node { l.port node with linkHeld := none }))
          | none => .next s
        else .next (retrySink s l node r tid ctr keys tried)
      | _ => .next s

/-- STREAM_END (R302, R304, R305): the record is posted with the bytes still counted taken off their counter, and the
binding that waits becomes active. -/
def execStreamEnd (lseq node : Nat) (s : State) : Out :=
  match launchOf s lseq with
  | none => .next s
  | some l =>
    let p := l.port node
    let h := (l.variant.node node).hrec
    let finished := if isSource h then p.eosOut else p.eosIn && p.sinkQ.isEmpty
    if l.runs = false ∨ finished = false then .next s
    else
      let next := match p.waiting with
        | some b => startBinding b p.poisoned
        | none => { Port.empty with poisoned := p.poisoned }
      let l := match p.active with
        | some (.handle tid hd _ _ _) => { l with orphans := remove l.orphans (16 * tid + hd) }
        | _ => l
      let rec_ := fun tid plot slot user count =>
        opRecord l tid plot slot 2 (if p.uncorr then 0x10 else 0) 0 user count (some (.port node))
      let s1 := setLaunch s (l.setPort node next)
      match p.active with
      | some (.stream r tid plot slot ctr user _ total) =>
        let count := if r.empty then 0 else if r.chase then p.visited else if isSource h then r.total else p.consumed
        .next (post s1 { rec_ tid plot slot user count with left := some (ctr, total - p.performed * r.size) })
      | some (.handle tid hd plot slot user) =>
        .next (post s1 (rec_ tid plot slot user (bindCount p (.handle tid hd plot slot user))))
      | none => .next s

end Sys2Proof.Machine
end

