-- ==== Sys2Proof/Machine/Matrix.lean ====
section
/-!
DEFINITION. Matrix mode (02 R59, R60; 05 R127 to R132; 06 R149; 07 R173; 15 R358, R359): weight loads and their switch,
the column results of a vector with their promotion, the checksum column, and the vectors kept for replay.
-/
namespace Sys2Proof.Machine

/-! ## The node (R358) -/

/-- Activation and weight format, rounding mode, and MX of a MATRIX record. -/
def mAfmt (h : Nat) : Nat := sA (hStage h 1)
def mWfmt (h : Nat) : Nat := sB (hStage h 1)
def mMode (h : Nat) : Mode := modeOf (sMod (hStage h 1))
def mMx (h : Nat) : Bool := fld (hStage h 1) 13 13 == 1

/-- K: rows of the weight block (R127). -/
def depthOf (fmt : Nat) : Nat := if fmt = 5 then 256 else 128

/-- Values that a row token carries (R60, R127). -/
def perRow (fmt : Nat) : Nat := depthOf fmt / 8

/-- The MATRIX node of a plot: its image and index, once all 64 PEs are in matrix mode. -/
def matrixNode (s : State) (plot : Nat) : Option (Nat × Nat) :=
  let q := (peOf s (64 * plot)).active
  if (List.range 64).all (fun e => let y := (peOf s (64 * plot + e)).active; y.matrix && y.img == q.img) then
    (q.nodes.head?).map (fun x => (q.img, x.2))
  else none

/-! ## Operands (R127) -/

/-- A raw element of a format as an exact value. -/
def rawVal (fmt raw : Nat) : FNum :=
  match floatFmt fmt with
  | some g => g.decode raw
  | none => intNum (signedOf 8 raw)

/-- An activation element in its format, rounded RNE with NX where it is not exact. -/
def actVal (fmt : Nat) (e : Elem) : FNum × Nat :=
  match floatFmt fmt with
  | some g =>
    let x := w40 e
    let r := g.store .rne x
    (r.1, if r.2 = 0 then 0 else flagNX)
  | none =>
    let r := storeConv 8 .rne e
    (intNum (signedOf 8 r.1), if r.2 = 0 then 0 else flagNX)

/-- The activations of a vector, in order of k; none for an invalid lane. -/
def actsOf (fmt : Nat) (rows : List Token) : List (Option FNum) × Nat :=
  let per := fun (t : Token) (l : Nat) =>
    if fmt = 5 then
      [rawVal 5 ((tokEl t l).toNat % 16), rawVal 5 ((tokEl t l).toNat / 16 % 16)].map (fun x => (if t.valid.getLsbD l then some x else none, 0))
    else
      let r := actVal fmt (tokEl t l)
      [if t.valid.getLsbD l then (some r.1, r.2) else (none, 0)]
  let xs := (rows.map (fun t => ((List.range 16).map (per t)).flatten)).flatten
  (xs.map (·.1), xs.foldl (fun g x => g ||| x.2) 0)

/-- The raw weight W[k][n]: PE (i, j) holds rows 16i to 16i + 15 of columns 16j to 16j + 15, one row to an operand; in E2M1
operand a holds rows 32i + 2a and 32i + 2a + 1, two values to an element (R59, R127). -/
def weightAt (fmt : Nat) (b : WBuf) (k n : Nat) : Nat :=
  let r := if fmt = 5 then k / 2 else k
  let x := ((lookupD b.blocks (r / 16 * 8 + n / 16) []).getD (r % 16) []).getD (n % 16) 0
  if fmt = 5 then x / 16 ^ (k % 2) % 16 else x

/-- The weights of a column, in order of k. -/
def weightsOf (fmt : Nat) (b : WBuf) (n : Nat) : List FNum := (List.range (depthOf fmt)).map (fun k => rawVal fmt (weightAt fmt b k n))

/-! ## Chunks (R128, R129) -/

/-- The sum of a chunk's products: exact in units of 2^−32, with what special products it met. -/
structure Chunk where
  sum  : Int
  nan  : Bool
  zinf : Bool
  pinf : Bool
  ninf : Bool
  deriving DecidableEq, Repr

/-- A finite value in units of 2^−32. -/
def fixed32 (n : Bool) (m : Nat) (e : Int) : Int :=
  let v : Int := (m * 2 ^ (e + 32).toNat : Nat)
  if n then -v else v

def addProduct (c : Chunk) (x : Option FNum) (w : FNum) : Chunk :=
  match x with
  | none => c
  | some x =>
    let p := fmul x w
    match p.1 with
    | .nan => if p.2 = 0 then { c with nan := true } else { c with zinf := true }
    | .inf n => if n then { c with ninf := true } else { c with pinf := true }
    | .fin n m e => { c with sum := c.sum + fixed32 n m e }

def chunkOf (xs : List (Option FNum)) (ws : List FNum) : Chunk :=
  (xs.zip ws).foldl (fun c x => addProduct c x.1 x.2) { sum := 0, nan := false, zinf := false, pinf := false, ninf := false }

/-- A chunk's special value and its flag, if it has one (R129). -/
def Chunk.special (c : Chunk) : Option (FNum × Nat) :=
  if c.nan || c.zinf then some (.nan, if c.zinf then flagNV else 0)
  else if c.pinf && c.ninf then some (.nan, flagNV)
  else if c.pinf then some (.inf false, 0)
  else if c.ninf then some (.inf true, 0)
  else none

/-- The chunk sum as an exact value. -/
def Chunk.value (c : Chunk) : FNum := .fin (decide (c.sum < 0)) c.sum.natAbs (-32)

/-! ## Promotion (R130, R131) -/

/-- One chunk added to y. -/
def promote (mode : Mode) (y : FNum × Nat) (c : Chunk) (sa sw : FNum) : FNum × Nat :=
  let t := match c.special with
    | some t => t
    | none =>
      let sc := wMul mode sa sw
      let r := wMul mode (w40 sc.1) c.value
      (w40 r.1, sc.2 ||| r.2)
  let r := wAdd mode y.1 t.1
  (w40 r.1, y.2 ||| t.2 ||| r.2)

/-- Consecutive parts of a list, `n` to a part. -/
def partsOf {α : Type} (n : Nat) : Nat → List α → List (List α)
  | 0, _ => []
  | k + 1, l => l.take n :: partsOf n k (l.drop n)

/-- A column's result in an 8-bit or 4-bit format, with its flags and its plain sum. -/
def columnFixed (mode : Mode) (chunks : Nat) (sas : List FNum) (sw : FNum) (xs : List (Option FNum)) (ws : List FNum) :
    Elem × Nat × List Chunk :=
  let n := xs.length / chunks
  let cs := ((partsOf n chunks xs).zip (partsOf n chunks ws)).map (fun p => chunkOf p.1 p.2)
  let y := (cs.zip sas).foldl (fun y c => promote mode y c.1 c.2 sw) (FNum.fin false 0 0, 0)
  (toW40 y.1, y.2, cs)

/-- The tree over 2^n W40 leaves (R126, R131). -/
def sumTree (mode : Mode) : Nat → List Elem → Elem × Nat
  | 0, l => (l.headD 0#40, 0)
  | n + 1, l =>
    let a := sumTree mode n (l.take (2 ^ n)); let b := sumTree mode n (l.drop (2 ^ n))
    let r := wAdd mode (w40 a.1) (w40 b.1)
    (r.1, a.2 ||| b.2 ||| r.2)

/-- A column's result in BF16 or FP16 (R131). -/
def columnFloat (mode : Mode) (xs : List (Option FNum)) (ws : List FNum) : Elem × Nat :=
  let ps := (xs.zip ws).map (fun p => match p.1 with | some x => wMul mode x p.2 | none => (0#40, 0))
  let r := sumTree mode 7 (ps.map (·.1))
  (r.1, r.2 ||| ps.foldl (fun g p => g ||| p.2) 0)

/-! ## Scales of a vector (R130) -/

/-- The value of each row's tag, or the first cause of a failed read. -/
def rowScales (x : Plot) : List Token → Except Nat (List (BitVec 32))
  | [] => .ok []
  | t :: r =>
    match readTag x t.stag with
    | .error c => .error c
    | .ok v => (rowScales x r).map (v :: ·)

/-- The scale of each chunk; none where rows that must agree, the rows of a chunk, do not. -/
def chunkScales (chunks : Nat) (vs : List (BitVec 32)) : Option (List FNum) :=
  let ps := partsOf (vs.length / chunks) chunks vs
  if ps.all (fun p => p.all (fun v => some v == p.head?)) then some (ps.map (fun p => fp32 (p.headD 0x3F800000#32))) else none

/-- The scales of a vector: those of its chunks and that of the weights; or the cause of a record and what is added to the
plot's suspicion. Reads are checked first, rows before weights; a miscompare adds 128, tags that merely disagree nothing
(R130, R138, R139, R188). -/
def vectorScales (x : Plot) (chunks : Nat) (b : WBuf) (rows : List Token) : Except (Nat × Nat) (List FNum × FNum) :=
  let failed := fun (c : Nat) => .error (c, if c = 0x61 then 128 else 0)
  match rowScales x rows, readTag x b.tag with
  | .error c, _ => failed c
  | _, .error c => failed c
  | .ok vs, .ok sw =>
    match chunkScales chunks vs with
    | some sas => if b.mixed then .error (0x61, 0) else .ok (sas, fp32 sw)
    | none => .error (0x61, 0)

/-- Chunks of a column (R128). -/
def chunksOf (h : Nat) : Nat := if mMx h then (if mAfmt h = 5 then 8 else 4) else 1

/-! ## A vector (R60, R132, R359) -/

/-- The buffer a vector uses. -/
def Matrix.buf (m : Matrix) (useB : Bool) : WBuf := if useB then m.bufB else m.bufA

/-- What a vector comes to: the elements of all 128 columns, the flags, whether its results carry ERR by the array's own
checks, and the cause of a record with what it adds to the plot's suspicion. -/
structure VecOut where
  cols  : List Elem
  flags : Nat
  fault : Option (Nat × Nat)
  deriving DecidableEq, Repr

/-- The checksum column holds: Σ_n P_n = Σ_k x_k × R_k, where every term is finite (R132). `cs` holds each column's
chunks. -/
def checksumOk (xs : List (Option FNum)) (sums : List Int) (cs : List (List Chunk)) : Bool :=
  if cs.any (fun c => c.any (fun x => x.special.isSome)) || xs.any (fun x => match x with | some (.fin ..) | none => false | _ => true) then true
  else
    let left := cs.foldl (fun a c => c.foldl (fun a x => a + x.sum) a) (0 : Int)
    let right := ((xs.zip (List.range xs.length)).foldl (fun a x => match x.1 with
      | some (.fin n m e) => a + fixed32 n m e * sums.getD x.2 0
      | _ => a) (0 : Int))
    left * 2 ^ 32 == right

/-- The vector of eight row tokens with a weight buffer. R132 compares each vector, and R128 gives the sums P that it compares
for the 8-bit and 4-bit formats alone: the model compares no BF16 or FP16 vector (log 90). A vector whose scales fail has no
stated elements: they are free. -/
def vectorOf (x : Plot) (h : Nat) (b : WBuf) (rows : List Token) (free : Nat) : VecOut :=
  let af := mAfmt h; let wf := mWfmt h; let mode := mMode h
  let xs := actsOf af rows
  if af = 1 ∨ af = 2 then
    let r := (List.range 128).map (fun n => columnFloat mode xs.1 (weightsOf wf b n))
    { cols := r.map (·.1), flags := xs.2 ||| r.foldl (fun g c => g ||| c.2) 0, fault := none }
  else
    match vectorScales x (chunksOf h) b rows with
    | .error c => { cols := (List.range 128).map (fun i => Config.freeElem (free + i)), flags := 0, fault := some c }
    | .ok (sas, sw) =>
      let r := (List.range 128).map (fun n => columnFixed mode (chunksOf h) sas sw xs.1 (weightsOf wf b n))
      { cols := r.map (·.1), flags := xs.2 ||| r.foldl (fun g c => g ||| c.2.1) 0,
        fault := if checksumOk xs.1 b.sums (r.map (·.2.2)) then none else some (0xA2, 256) }

/-- The result token of a column. -/
def columnToken (rows : List Token) (o : VecOut) (j : Nat) : Token :=
  let t := rows.headD (ctlToken .null 0 0 false)
  { kind := .data, stag := 0, colour := t.colour, err := rows.any (·.err) || o.fault.isSome, rsv := 0, seq := t.seq, chan := 0,
    valid := BitVec.allOnes 16, elems := (o.cols.drop (16 * j)).take 16 }

/-- The record of a vector whose scales or checksum failed, and the suspicion it adds (R130, R132, R174). -/
def vectorFault (s : State) (l : Launch) (plot n seq : Nat) (c : Nat × Nat) : State :=
  let s := raiseFault s l.lseq (.pe (64 * plot) 0) (peInfo s l.lseq plot n none 0 c.1 0 seq)
  if c.2 = 0 then s else addScore s (unitPlot plot) c.2

/-- The columns of a MATRIX node that have a channel, with the channel. -/
def columnsOf (v : Variant) (n : Nat) : List (Nat × Nat) :=
  ((List.range 8).map (fun j => (j, matrixCol (v.node n).hrec j))).filter (fun x => x.2 != noChan)

/-- A token on every column (R359). -/
def emitColumns (s : State) (l : Launch) (g n : Nat) (t : Nat → Token) : State :=
  (columnsOf (l.img g).1 n).foldl (fun s c => emitTok s l.lseq (chanKey g c.2) (t c.1)) s

/-- Weight loads for a plot that a copy queue of the launch still holds, by FROMSEQ (R149). -/
def queuedLoads (l : Launch) (plot : Nat) : List Nat :=
  (l.copyQ.map (fun q => q.2.filterMap (fun e => match e with
    | .op j => (match j.op with | .tile _ _ d _ (some f) => if d = plot then some f else none | _ => none)
    | .fence .. => none))).flatten

/-- The balance check of a MATRIX node's MARK: each column counts one token a vector (R180, R359). -/
def matrixBalance (s : State) (l : Launch) (plot g n : Nat) (seq : Nat) : State :=
  let v := (l.img g).1
  let st := (peOf s (64 * plot)).active.nodeSt 0
  let f : Firing := { lseq := l.lseq, pe := 64 * plot, h := 0, g := g, n := n, hrec := (v.node n).hrec,
                      heads := [(0, ctlToken .mark 0 seq false)], k := [], replay := false, gerr := false }
  let s := (columnsOf v n).foldl (fun s c =>
    if inBalance (v.chan c.2) st.c st.eA then s else balanceFault s l f st.c st.eA c.2) s
  modPlane s (64 * plot) fun q => q.setNodeSt 0 { q.nodeSt 0 with c := 0, eA := 0, eB := 0 }

/-- What eight row tokens are where they are no vector: EOS, MARK, or rows that make NULL (R359). -/
def vectorKind (toks : List Token) : Option TKind :=
  if toks.all (fun t => t.kind == .data) then none
  else if toks.all (fun t => t.kind == .eos) then some .eos
  else if toks.all (fun t => t.kind == .mark) then some .mark
  else some .null

/-- Whether a retained vector still needs a buffer (R173). -/
def Matrix.needs (m : Matrix) (useB : Bool) : Bool := m.retained.any (fun v => (vectorKind v.toks).isNone && v.useB == useB)

/-- The token that every column receives where the eight heads are no vector: NULL, EOS or MARK, with the header of row 0. A control
token carries the firing tag (R329, R359). -/
def controlToken (k : TKind) (rows : List Token) : Token :=
  let t := rows.headD (ctlToken .null 0 0 false)
  { ctlToken k t.colour t.seq (rows.any (·.err)) with stag := if k = .null then 0 else t.stag }

/-- A firing of a MATRIX node with a head or a result in error is kept, with its heads, until its columns have been replayed
(R171, R173); the heads of any other leave the plot's holders. -/
def keepVector (s : State) (l : Launch) (plot g n id : Nat) (err : Bool) (rows : List (Nat × Token)) : State :=
  if err then
    let y := plotOf s plot
    let cols := (columnsOf (l.img g).1 n).map (·.1)
    setPlot s plot { y with matrix := { y.matrix with retained := y.matrix.retained ++
      [{ seq := id, toks := rows.map (·.2), useB := y.matrix.useB, bad := cols, asked := false, fails := 0 }] } }
  else dropHeads s plot rows

/-- The heads of rows that are NULL, EOS or MARK consumed, and their token on every column. -/
def runControl (s : State) (l : Launch) (plot g n : Nat) (k : TKind) (rows : List (Nat × Token)) : State :=
  let toks := rows.map (·.2)
  let t := controlToken k toks
  keepVector (emitColumns s l g n (fun _ => t)) l plot g n (tokId t) t.err rows

/-- The vector's results emitted, with what its checks raise. -/
def runVector (s : State) (l : Launch) (plot g n : Nat) (rows : List (Nat × Token)) : State :=
  let h := ((l.img g).1.node n).hrec
  let x := plotOf s plot
  let toks := rows.map (·.2)
  let seq := (toks.headD (ctlToken .null 0 0 false)).seq
  let o := vectorOf x h (x.matrix.buf x.matrix.useB) toks s.free
  let err := toks.any (·.err) || o.fault.isSome
  let s := { s with free := s.free + 128 }
  let s := raiseFlags s l.lseq (partOf l plot) o.flags
  let s := match o.fault with | some c => vectorFault s l plot n seq c | none => s
  keepVector (emitColumns s l g n (columnToken toks o)) l plot g n seq err rows

/-- MATRIX_VECTOR (R60, R149, R359): the plot takes one token from each row. A vector at or past FROMSEQ first switches to
the loaded weights, and waits for those that are on their way, of whichever load (log 56). -/
def execMatrixVector (plot : Nat) (s : State) : Out :=
  match peLaunch s (64 * plot), matrixNode s plot with
  | some l, some (g, n) =>
    let s := tidyPorts s l (64 * plot)
    let q := (peOf s (64 * plot)).active
    let x := plotOf s plot
    let v := (l.img g).1
    match headsOf q (List.range 8) with
    | none => .next s
    | some hs =>
      let all := fun (k : TKind) => hs.all (fun y => y.2.kind == k)
      let seq := (hs.head?.map (·.2.seq)).getD 0
      let credit := (columnsOf v n).all (fun c => chanCredit s l (chanKey g c.2))
      let count := fun (s : State) => modPlane s (64 * plot) fun q =>
        let st := q.nodeSt 0; q.setNodeSt 0 { st with c := st.c + 1, eA := st.eA + 1 }
      let waits := (queuedLoads l plot).any (fun f => decide (f ≤ seq))
      if l.runs = false ∨ credit = false ∨ faultHeldAt l (.pe (64 * plot) 0) = true then .next s
      else if all .data then
        match x.matrix.pending with
        | some f =>
          if f ≤ seq then
            if x.matrix.needs x.matrix.useB then .next s
            else .next (setPlot s plot { x with matrix := { x.matrix with useB := !x.matrix.useB, pending := none } })
          else if waits then .next s
          else .next (markActive (count (runVector (takeHeads s (64 * plot) hs) l plot g n hs)) l plot)
        | none =>
          if waits then .next s
          else .next (markActive (count (runVector (takeHeads s (64 * plot) hs) l plot g n hs)) l plot)
      else if hs.all (fun y => y.2.kind == .data || y.2.kind == .null) then
        .next (markActive (count (runControl (takeHeads s (64 * plot) hs) l plot g n .null hs)) l plot)
      else if all .eos then .next (markActive (runControl (takeHeads s (64 * plot) hs) l plot g n .eos hs) l plot)
      else if all .mark then
        .next (markActive (runControl (matrixBalance (takeHeads s (64 * plot) hs) l plot g n seq) l plot g n .mark hs) l plot)
      else .next s
  | _, _ => .next s

/-! ## LOADW (R149) -/

/-- Half-bytes of an element at (k, n) of a tile whose rows hold `cols` bytes; none past the tile. -/
def tileElem (s : State) (plot : Nat) (d : BitVec 512) (fmt k n : Nat) : Option Nat :=
  let nib := fmtNibbles fmt
  let at_ := n * nib / 2
  if tdRows d ≤ k ∨ tdCols d ≤ at_ + (nib - 1) / 2 then none
  else
    let a := (((tdAddr d : Int) + k * tdStride d) % 2 ^ 23).toNat + at_
    let raw := winRead s plot a (fmtBytes fmt)
    some (if nib = 1 then raw / 16 ^ (n % 2) % 16 else raw)

/-- The weight (k, n) of a tile; an element the tile does not reach is free. -/
def tileWeight (s : State) (plot : Nat) (d : BitVec 512) (fmt k n : Nat) : Nat :=
  (tileElem s plot d fmt k n).getD (Config.freeNat (s.free + 128 * k + n) % 2 ^ (4 * fmtNibbles fmt))

/-- An operand on a bus of a plot (R58): the bus, row buses 0 to 7 and column buses 8 to 15; its row label and column label;
its index within the load, its tag and its sixteen elements. -/
structure Operand where
  bus : Nat
  row : Nat
  col : Nat
  idx : Nat
  tag : Nat
  els : List Nat
  deriving DecidableEq, Repr

/-- Whether a PE takes an operand of a bus it listens to: on a row bus by its COLID, on a column bus by its ROWID, or 0xF. No
identifier is above 7, so labels 0x8 to 0xE match no PE, and such an operand is discarded (R58). -/
def Operand.accepted (o : Operand) (q : Plane) : Bool :=
  if o.bus < 8 then o.col == q.colid || o.col == 15 else o.row == q.rowid || o.row == 15

/-- The elements that listen to a bus (R58). -/
def busElems (bus : Nat) : List Nat := (List.range 8).map (fun k => if bus < 8 then 8 * bus + k else 8 * k + (bus - 8))

/-- An operand driven: each PE that takes it puts its elements into the row of its block that the index names. -/
def driveOperand (s : State) (plot : Nat) (b : Assoc (List (List Nat))) (o : Operand) : Assoc (List (List Nat)) :=
  (busElems o.bus).foldl (fun b e =>
    if o.accepted (peOf s (64 * plot + e)).active then
      insert b e (setNth (lookupD b e (List.replicate 16 [])) o.idx o.els)
    else b) b

/-- The operands of a load, sixteen for each PE, labelled for that PE alone: operand a carries row a of its block (R59, R127).
The rules leave the bus of an operand open: the first eight of a PE go by its row bus and the others by its column bus. -/
def loadOperands (s : State) (plot : Nat) (d : BitVec 512) (fmt tag : Nat) : List Operand :=
  ((List.range 64).map (fun e => (List.range 16).map (fun a =>
    let i := e / 8; let j := e % 8
    { bus := if a < 8 then i else 8 + j, row := i, col := j, idx := a, tag := tag
      els := (List.range 16).map (fun c =>
        let n := 16 * j + c
        if fmt = 5 then tileWeight s plot d fmt (32 * i + 2 * a) n + 16 * tileWeight s plot d fmt (32 * i + 2 * a + 1) n
        else tileWeight s plot d fmt (16 * i + a) n) }))).flatten

/-- R_k in units of 2^−32; a special value adds nothing (R132). -/
def rowSum (fmt : Nat) (b : WBuf) (k : Nat) : Int :=
  (List.range 128).foldl (fun a n => match rawVal fmt (weightAt fmt b k n) with | .fin g m e => a + fixed32 g m e | _ => a) 0

/-- A weight buffer filled by the operands of a load, which checks that their tags are equal in value (R58, R59, R130). -/
def loadBuffer (s : State) (plot : Nat) (d : BitVec 512) (fmt tag : Nat) : WBuf :=
  let os := loadOperands s plot d fmt tag
  let x := plotOf s plot
  let val := fun (o : Operand) => match readTag x o.tag with | .ok v => some v | .error _ => none
  let b : WBuf := { blocks := os.foldl (driveOperand s plot) [], tag := tag
                    mixed := os.any (fun o => o.tag != tag && val o != (os.head?.map val).getD none), sums := [] }
  { b with sums := (List.range (depthOf fmt)).map (rowSum fmt b) }

/-- The scale of a tile: the FP32 at SCALEVA where SKIND is 3, read as its copy command reads. A SCALEVA of 0 with SKIND 3,
which R147 calls 'none' and R149 a scale, reads the one at address 0 (log 91). -/
def tileScale (s : State) (l : Launch) (keys : Word) (d : BitVec 512) : State × Checked (Option (BitVec 32)) :=
  if tdSkind d ≠ 3 then (s, .ok none)
  else
    match loadVA s { vd := l.vd, lseq := l.lseq, gid := l.gid, pkeys := keys, agent := .copy } .read (tdScale d) 4 1 with
    | (s, .ok v) => (s, .ok (some (BitVec.ofNat 32 v)))
    | (s, .bad c v) => (s, .bad c v)
    | (s, .hold w) => (s, .hold w)

/-- The tag of a load: none for an unscaled tile, else a binding of its scale in the plot's common range; the rules do not say
in which range a LOADW binds (log 93). None while no entry is free (R136). -/
def loadTag (x : Plot) (sc : Option (BitVec 32)) : Option (Plot × Nat) :=
  match sc with
  | none => some (x, 0)
  | some v => bindCommon x v

/-- The buffer that is not in use, filled: the tag it had is bound no more. -/
def Matrix.fill (m : Matrix) (b : WBuf) (from_ : Option Nat) : Matrix :=
  if m.useB then { m with bufA := b, pending := from_ } else { m with bufB := b, pending := from_ }

/-- A copy engine's record (R146, R167). -/
def copyInfo (s : State) (l : Launch) (plot q cause value acc : Nat) : FInfo :=
  { time := s.time, value := value, seq := 0, node := 0xFFFF, chan := none, plot := plot, srcNo := 3, unit := q,
    cause := cause, orig := 0, acc := acc, lseq := l.lseq }

/-- The head of a copy queue changed. -/
def setHead (l : Launch) (key : Nat) (j : CopyJob) : Launch :=
  { l with copyQ := insert l.copyQ key (match lookupD l.copyQ key [] with | _ :: r => .op j :: r | [] => []) }

/-- A fault of a copy at an address: a record for each page and operation; the queue is held there (R146). -/
def copyFault (s : State) (l : Launch) (key : Nat) (j : CopyJob) (va cause value acc : Nat) : State :=
  let s := if j.pages.elem (pageOf va) then s
    else raiseFault s l.lseq (.copyQ (key / 16) (key % 16)) (copyInfo s l j.plot (key % 16) cause value acc)
  modLaunch s l.lseq fun l => setHead l key { j with pages := addNat j.pages (pageOf va), held := true, retryAt := s.time, retryNow := false }

/-- Whether a copy is a CPYM, whose bytes leave the counter all at once (R149, R152). -/
def CopyOp.loads : CopyOp → Bool
  | .tile _ _ _ _ (some _) => true
  | _ => false

/-- The operation at the head of a copy queue has ended: its record is posted, and with it what is left of the operation leaves
the counter (R149, R152). -/
def endCopy (s : State) (l : Launch) (key : Nat) (j : CopyJob) (status : Nat) : State :=
  let left := if j.op.loads then j.total else j.total - j.pos - j.part
  let s := modLaunch s l.lseq fun l => { l with copyQ := insert l.copyQ key (lookupD l.copyQ key []).tail }
  post s { opRecord l j.tid j.plot j.slot 1 status (key % 16) j.user j.total (some (.copyQ (key / 16) (key % 16))) with
    left := some (j.ctr, left) }

/-- The copy queue whose head waits for a LOADW into a plot. -/
def waitingLoad (l : Launch) (plot : Nat) : Option (Nat × CopyJob) :=
  l.copyQ.findSome? (fun q => match q.2 with
    | .op j :: _ => (match j.op with
        | .tile _ _ d _ (some _) => if d = plot ∧ j.waitLoad ∧ j.held = false then some (q.1, j) else none
        | _ => none)
    | _ => none)

/-- LOADW (R149): the tile is loaded into the buffer that is not in use, once that buffer awaits no switch, and the
copy's record is posted. A plot that is no longer in matrix mode ends it with NOMATRIX. -/
def execLoadw (plot : Nat) (s : State) : Out :=
  match peLaunch s (64 * plot), matrixNode s plot with
  | some l, none =>
    match waitingLoad l plot with
    | some (key, j) => if l.runs then .next (endCopy s l key j 0x11) else .next s
    | none => .next s
  | some l, some (g, n) =>
    let x := plotOf s plot
    match waitingLoad l plot with
    | none => .next s
    | some (key, j) =>
      match j.op with
      | .linear .. => .next s
      | .tile d _ _ _ f =>
        let fmt := mWfmt ((l.img g).1.node n).hrec
        if l.runs = false ∨ x.matrix.pending.isSome ∨ x.matrix.needs (!x.matrix.useB) = true then .next s
        else
          match tileScale s l j.pkeys d with
          | (s, .bad c v) => .next (copyFault s l key j (tdScale d) c v 0)
          | (_, .hold _) => .next s
          | (s1, .ok sc) =>
            let x := plotOf s1 plot
            match loadTag (x.unhold (x.matrix.buf (!x.matrix.useB)).tag) sc with
            | none => .next s
            | some (x, tag) =>
              let s1 := setPlot s1 plot x
              let b := loadBuffer s1 plot d fmt tag
              let s1 := setPlot { s1 with free := s1.free + 32768 } plot { x with matrix := x.matrix.fill b f }
              .next (endCopy s1 ((launchOf s1 l.lseq).getD l) key j (if j.uncorr then 0x10 else 0))
  | _, _ => .next s

end Sys2Proof.Machine
end

