-- ==== Sys2Proof/Machine/Replay.lean ====
section
/-!
DEFINITION. Replay (07_faults_and_preemption.md R173, R174): a request on its way to the producer of a poisoned token,
and the replay on its way to the consumer that asked for it. Replays stand on a lane of their own at each channel,
outside the order of R39; a source's lane from its AG to port 0 stands beside them.
-/
namespace Sys2Proof.Machine

/-- Failed replays of one SEQ after which its producer stops (R174). -/
def replayLimit : Nat := 8

/-! ## Requests -/

/-- A request taken out of the launch's list. -/
def dropRequest (s : State) (lseq idx : Nat) : State :=
  modLaunch s lseq fun l => { l with requests := l.requests.eraseIdx idx }

/-- The elements of a poisoned token read again: whether any is still poisoned; or where a read faults. -/
def rereadElems (s : State) (c : Ctx) (r : SRec) (pack : Nat) : List (Nat × Bool) → State × Except (Nat × Nat × Nat) (List (Option Elem) × Bool)
  | [] => (s, .ok ([], false))
  | a :: rest =>
    match agRead s c a.1 r.size with
    | (s, .ok (raw, bad)) =>
      match rereadElems s c r pack rest with
      | (s, .ok (es, b)) => (s, .ok (some (elemOf r pack raw a.2) :: es, bad || b))
      | x => x
    | (s, .bad x v) => (s, .error (a.1, x, v))
    | (s, .hold _) => (s, .error (a.1, 0, 0))

/-- A fresh binding of the block scale of a token that is read again; none while no entry is free (R125, R136). -/
def replayTag (s : State) (l : Launch) (n : Nat) (r : SRec) (keys : Word) (pos : Nat) : Option (State × Nat) :=
  if r.skind = 0 then some (s, 0)
  else
    let plot := l.place.plotOf n
    let (lo, k) := lookupD (plotOf s plot).ranges n (0, 0)
    let w := scaleBytes r.skind
    match loadVA s (fabricCtx l keys) .read ((r.scale + w * r.blockOf pos) % 2 ^ 56) w 1 with
    | (s, .ok raw) => (bindIn (plotOf s plot) lo k (scaleFp32 r.skind raw)).map fun (x, tag) => (setPlot s plot x, tag)
    | _ => none

/-- The token is given up: it goes to the handler node, whose verdict supplies the replay (R174, R177). None while the divert
ring is full: what would give it up waits (R176). -/
def exhaust (s : State) (lseq plot key : Nat) (t : Token) (src : FSource) (f : FInfo) : Option State :=
  (launchOf s lseq).bind fun l =>
    if ringRoom s l (partOf l plot) then some (divert s lseq (partOf l plot) (.exhausted key) t plot src f) else none

/-- A source port reads the elements of a SEQ again and sends the token once more. -/
def replaySource (s : State) (l : Launch) (idx key n seq : Nat) : State :=
  match (l.port n).poisoned.find? (fun p => p.seq == seq) with
  | none => dropRequest s l.lseq idx
  | some p =>
    match p.b with
    | .handle .. => dropRequest s l.lseq idx
    | .stream r _ _ _ _ _ keys _ =>
      let pack := packOfRec l.variant n r
      match rereadElems s (fabricCtx l keys) r pack p.at_ with
      | (s', .error (va, c, v)) => if c = 0 then s else portFault s' l n va c v seq 0
      | (s', .ok (es, bad)) =>
        match replayTag s' l n r keys p.pos with
        | none => s
        | some (s', tag) =>
          let t := { winToken pack { num := seq, els := es, at_ := p.at_, pos := p.pos, full := true, stag := tag, err := bad } with err := bad }
          let out := bad && decide (replayLimit ≤ p.fails + 1)
          let keep := (l.port n).poisoned.filter (fun x => x.seq != seq)
          let s' := modLaunch (dropRequest s' l.lseq idx) l.lseq fun l => l.setPort n { l.port n with
            poisoned := if bad && !out then { p with fails := p.fails + 1 } :: keep else keep }
          if out then (exhaust s' l.lseq (l.place.plotOf n) key t (.port n) (portInfo s' l n 0x45 0 seq 0)).getD s
          else pushReplay s' l.lseq key t

/-- The column of a MATRIX node that a channel carries. -/
def columnOf (v : Variant) (n c : Nat) : Nat := ((columnsOf v n).find? (fun x => x.2 == c)).elim 0 (·.1)

/-- A retained vector of a plot put back with its changes; one whose columns have all been replayed is freed. -/
def setVec (s : State) (plot : Nat) (m : MVec) : State :=
  let x := plotOf s plot
  let gone := fun (y : MVec) => y.seq == m.seq && m.bad.isEmpty
  setPlot s plot { x with matrix := { x.matrix with
    retained := (x.matrix.retained.map (fun y => if y.seq = m.seq then m else y)).filter (fun y => !gone y) } }

/-- A MATRIX node computes a vector again with the buffer it first used, once its rows are clean. -/
def replayVector (s : State) (l : Launch) (idx key g n seq : Nat) : State :=
  let (v, p) := l.img g
  let plot := p.plotOf n
  let x := plotOf s plot
  let col := columnOf v n (keyChan key)
  match x.matrix.retained.find? (fun m => m.seq == seq && m.bad.elem col) with
  | none => dropRequest s l.lseq idx
  | some m =>
    let lost := ((List.range m.toks.length).zip m.toks).filterMap (fun x => if x.2.err then some (x.1, tokId x.2) else none)
    if lost ≠ [] then
      if m.asked then s
      else
        modLaunch (setVec s plot { m with asked := true }) l.lseq fun y => { y with requests := y.requests ++ askFor l g n lost }
    else
      let rest := { m with bad := m.bad.filter (· != col), asked := false }
      let done := fun (s : State) => (if rest.bad.isEmpty then dropHeads s plot (m.toks.map (fun t => (0, t))) else s)
      match vectorKind m.toks with
      | some k => pushReplay (done (setVec (dropRequest s l.lseq idx) plot rest)) l.lseq key (controlToken k m.toks)
      | none =>
      let o := vectorOf x (v.node n).hrec (x.matrix.buf m.useB) m.toks s.free
      let t := columnToken m.toks o col
      let s1 := raiseFlags { s with free := s.free + 128 } l.lseq (partOf l plot) o.flags
      match o.fault with
      | none => pushReplay (done (setVec (dropRequest s1 l.lseq idx) plot rest)) l.lseq key t
      | some c =>
        let s1 := vectorFault s1 l plot n seq c
        if m.fails + 1 < replayLimit then setVec s1 plot { m with fails := m.fails + 1 }
        else
          (exhaust (done (setVec (dropRequest s1 l.lseq idx) plot rest)) l.lseq plot key t (.pe (64 * plot) 0)
            (peInfo s l.lseq plot n (some (keyChan key)) 0 0x45 0 seq)).getD s

/-- Whether a retained firing of a node emitted the token of a number: that of its heads, or, where it is a firing of EOSGEN on DATA,
an EOR or an EOS with the SEQ of its DATA token (R348). -/
def Retain.emitted (r : Retain) (h id : Nat) : Bool :=
  r.seq == id || (has6 h 9 && decide (r.seq < 2 ^ 32) && r.seq == id % 2 ^ 32 && (id / 2 ^ 32 == 1 || id / 2 ^ 32 == 2))

/-- A stateless producer asks for the ERR heads of the firing that emitted a token; a second request for the firing is
merged with the first. -/
def replayRetained (s : State) (l : Launch) (idx g n id : Nat) : State :=
  let (v, p) := l.img g
  let pe := p.peOf n
  let h := p.hidx.getD n 0
  let x := peOf s pe
  let s := dropRequest s l.lseq idx
  match x.retain.find? (fun r => r.img == g && r.h == h && r.emitted (v.node n).hrec id) with
  | none => s
  | some r =>
    if r.asked || isStateful (v.node n).hrec then s
    else
      let s := setPe s pe { x with retain := x.retain.map (fun y => if y = r then { r with asked := true } else y) }
      modLaunch s l.lseq fun y => { y with requests := y.requests ++ askFor l g n r.bad }

/-- A request for a token of another module: its replay comes over the lane, with what that module says, as free numbers give it, and its
tag bound here (log 43). None while no entry is free. -/
def farReplay (s : State) (l : Launch) (idx key id : Nat) : Option State :=
  let (g, n, _) := l.replayEnd key
  let plot := (l.img g).2.plotOf n
  let x := farToken (match id / 2 ^ 32 with | 1 => .eor | 2 => .eos | 3 => .mark | _ => .data) s.free
  let send := fun (s : State) (tag : Nat) =>
    some (pushReplay (dropRequest { s with free := s.free + farTokenNumbers } l.lseq idx) l.lseq key
      { x.1 with seq := id % 2 ^ 32, stag := tag })
  if x.1.stag = 0 then send s 0 else (bindCommon (plotOf s plot) x.2).bind (fun y => send (setPlot s plot y.1) y.2)

/-- REPLAY_REQUEST (R173, R174): the `idx`-th request of a launch reaches the producer of its channel. -/
def execReplayRequest (lseq idx : Nat) (s : State) : Out :=
  match launchOf s lseq with
  | none => .next s
  | some l =>
    match l.requests[idx]? with
    | none => .next s
    | some q =>
      if l.runs = false then .next s
      else if isSelf q.chan then .next (replaySource s l idx q.chan (q.chan % 65536) q.seq)
      else
        let g := keyImg q.chan
        let (v, p) := l.img g
        let n := (v.chan (keyChan q.chan)).src
        if p.plotOf n = awayPlot then .next ((farReplay s l idx q.chan q.seq).getD s)
        else if isMatrix (v.node n).hrec then .next (replayVector s l idx q.chan g n q.seq)
        else .next (replayRetained s l idx g n q.seq)

/-! ## Replays -/

/-- A head put among others, by port. -/
def insertHead (hs : List (Nat × Token)) (x : Nat × Token) : List (Nat × Token) :=
  hs.takeWhile (fun y => decide (y.1 < x.1)) ++ x :: hs.dropWhile (fun y => decide (y.1 < x.1))

/-- A retained firing fired again with its replays; it does not step the counters (R173), and Owl's count starts again (R181). A
firing that raises a cause hands each of its outputs to the handler node. -/
def refire (s : State) (l : Launch) (pe g n : Nat) (r : Retain) : Option State :=
  let h := ((l.img g).1.node n).hrec
  let f : Firing := { lseq := l.lseq, pe := pe, h := r.h, g := g, n := n, hrec := h, heads := r.good, k := r.k, replay := true, gerr := false }
  match classify h r.good with
  | none => none
  | some k =>
    match perform s l f k with
    | .ok s => some (markActive s l (pe / 64))
    | .error .wait => none
    | .error (.cause c v) =>
      ((l.img g).1.node n).outs.foldl (fun s k => s.bind fun s =>
        exhaust s l.lseq (pe / 64) (chanKey g k) { f.lead with stag := 0 } (.pe pe r.h)
          (peInfo s l.lseq (pe / 64) n (some k) (hLow h) c v f.lead.seq)) (some (scoreCause s (pe / 64) c))

/-- A replay reaches a retain entry: it takes the place of its ERR head, and a firing whose heads are complete fires
again and is freed; while a head still carries ERR the entry stays, for a further request. None where it must wait, as where it
would leave a REF past its limit (R135). -/
def fillRetain (s : State) (l : Launch) (pe g n port : Nat) (r : Retain) (t : Token) : Option State :=
  let x := peOf s pe
  let bad := r.bad.filter (fun b => b.1 != port)
  let r' := { r with good := insertHead r.good (port, t), bad := bad }
  let put := fun (s : State) (new : Option Retain) =>
    let kept := (peOf s pe).retain.filter (fun y => new.isSome || y != r)
    setPe s pe { peOf s pe with retain := kept.map (fun y => if y = r then new.getD y else y) }
  if bad ≠ [] then some (put (setPe s pe x) (some r'))
  else
    (refire s l pe g n r').bind fun s =>
      let still := r'.good.filter (fun y => y.2.err)
      let s := dropHeads s (pe / 64) (if still.isEmpty then r'.good else still)
      if refOver s (pe / 64) then none
      else if still.isEmpty then some (put s none)
      else some <| put s (some { r' with good := r'.good.filter (fun y => !y.2.err), bad := still.map (fun y => (y.1, tokId y.2)), asked := false })

/-- A replay reaches a hole of a reorder window: it fills it, or opens it again with a further request (R173, R174). -/
def fillHole (s : State) (l : Launch) (pe key i port : Nat) (w : Hole) (t : Token) : State :=
  let x := peOf s pe
  if t.err then
    let s := dropHolder s (pe / 64) t.stag
    modLaunch s l.lseq fun y => { y with requests := y.requests ++ [{ chan := key, seq := tokId t }] }
  else
    setPe s pe { x with window := setNth x.window i { w with heads := insertHead w.heads (port, t), need := w.need.filter (fun b => b.1 != port) } }

/-- A replay at the consumer that asked for it; none where it did not ask. -/
def takeReplay (s : State) (l : Launch) (key : Nat) (t : Token) : Option State :=
  let (g, n, port) := l.replayEnd key
  let (v, p) := l.img g
  let h := p.hidx.getD n 0
  if isMatrix (v.node n).hrec then
    let plot := p.plotOf n
    match (plotOf s plot).matrix.retained.find? (fun m => match m.toks[port]? with | some y => y.err && tokId y == tokId t | none => false) with
    | none => none
    | some m => some (setVec s plot { m with toks := setNth m.toks port t, asked := false })
  else
    let pe := p.peOf n
    let x := peOf s pe
    match x.window.findIdx? (fun w => w.h == h && w.need.elem (port, tokId t)) with
    | some i => (x.window[i]?).map (fun w => fillHole s l pe key i port w t)
    | none =>
      match x.retain.find? (fun r => r.img == g && r.h == h && r.bad.elem (port, tokId t)) with
      | some r => fillRetain s l pe g n port r t
      | none => none

/-- The first replay of a lane that its consumer takes, with what it leaves. -/
def firstTaken (s : State) (l : Launch) (key : Nat) : List Token → List Token → Option (State × List Token)
  | _, [] => none
  | before, t :: rest =>
    let l' := l.setChan key { l.chanSt key with replay := before ++ rest }
    match takeReplay (setLaunch s l') l' key t with
    | some s => some (s, before ++ rest)
    | none => firstTaken s l key (before ++ [t]) rest

/-- REPLAY_TOKEN (R173): a replay on the lane of a channel reaches the consumer that asked for it; one that it has not
asked for yet waits on the lane. `idx` is the channel's key. -/
def execReplayToken (lseq idx : Nat) (s : State) : Out :=
  match launchOf s lseq with
  | none => .next s
  | some l =>
    if l.runs = false then .next s
    else match firstTaken s l idx [] (l.chanSt idx).replay with
      | some (s, _) => .next s
      | none => .next s

end Sys2Proof.Machine
end

