-- ==== Sys2Proof/Machine/Copy.lean ====
section
/-!
DEFINITION. Copy engines (06_asynchronous_engines.md R144 to R150; 14 R310 to R313): one unit of 2 KiB at a turn, its
pieces read and then written in rising order, what a failed check holds, fences, and the end of an operation. A copy whose
ranges share bytes keeps what it writes over: where the virtual ranges overlap every byte receives what its source held before
the copy began, and where they overlap through aliases alone, one of the two values that R145 allows (log 60).
-/
namespace Sys2Proof.Machine

/-! ## The two sides of a copy (R145, R147, R148) -/

/-- One side: scratch of a plot or virtual addresses, the address of row 0, the distance of rows, bytes in a row. -/
structure Side where
  scratch : Bool
  plot    : Nat
  base    : Nat
  stride  : Int
  row     : Nat
  deriving DecidableEq, Repr

def tileSide (d : BitVec 512) (plot : Nat) : Side :=
  { scratch := tdSpace d, plot := plot, base := tdAddr d, stride := tdStride d, row := tdCols d }

def CopyOp.source : CopyOp → Side
  | .linear _ src len => { scratch := false, plot := 0, base := src, stride := 0, row := len }
  | .tile _ src _ p _ => tileSide src p

def CopyOp.dest : CopyOp → Side
  | .linear dst _ len => { scratch := false, plot := 0, base := dst, stride := 0, row := len }
  | .tile dst _ p _ _ => tileSide dst p

/-- Bytes `o` to `o + k − 1` of a side, in runs within a row: addresses and lengths. -/
def Side.runs (x : Side) (o k : Nat) : List (Nat × Nat) :=
  (List.range ((o + k - 1) / x.row + 1 - o / x.row)).map (fun i =>
    let r := o / x.row + i
    let lo := Nat.max o (r * x.row)
    let hi := Nat.min (o + k) ((r + 1) * x.row)
    ((((x.base : Int) + r * x.stride + ((lo - r * x.row : Nat) : Int)) % 2 ^ 64).toNat, hi - lo))

/-- The first and one past the last byte that a side of `n` bytes spans. -/
def Side.span (x : Side) (n : Nat) : Int × Int :=
  let last := (x.base : Int) + ((n / x.row - 1 : Nat) : Int) * x.stride
  (min (x.base : Int) last, max (x.base : Int) last + x.row)

/-- The rows of a side of `n` bytes: first addresses. -/
def Side.rows (x : Side) (n : Nat) : List Int := (List.range (n / x.row)).map (fun (r : Nat) => (x.base : Int) + (r : Int) * x.stride)

/-- Whether two sides of one address space share a byte of their virtual ranges (R145). -/
def Side.meets (x y : Side) (n : Nat) : Bool :=
  x.scratch == y.scratch && (!x.scratch || x.plot == y.plot) &&
  decide ((x.span n).1 < (y.span n).2) && decide ((y.span n).1 < (x.span n).2) &&
  (x.rows n).any (fun a => (y.rows n).any (fun b => decide (a < b + y.row) && decide (b < a + x.row)))

/-! ## Pieces -/

/-- What stops a transfer: a cause with the address, its VALUE and whether it was a write; or a wait. -/
inductive CopyStop
  | fault (va cause value acc : Nat)
  | wait
  deriving DecidableEq, Repr

def copyCtx (l : Launch) (j : CopyJob) : Ctx := { vd := l.vd, lseq := l.lseq, gid := l.gid, pkeys := j.pkeys, agent := .copy }

/-- The block of a side within which an access is one piece: a page, a window's page of 4 KiB, and in a window's registers
eight bytes (R81, R87, R88). -/
def pieceUnit (s : State) (c : Ctx) (k : Kind) (x : Side) (a : Nat) : Nat :=
  if x.scratch then 4096
  else match translate s c k a with
    | .ok (_, _, pa) => (match regionAt s pa with
        | .window _ off => if scratchSize ≤ off then 8 else 4096
        | _ => 65536)
    | .error _ => 65536

/-- Bytes of the piece of a side at an address, of at most `n`. -/
def pieceLen (s : State) (c : Ctx) (k : Kind) (x : Side) (a n : Nat) : Nat :=
  Nat.min n (pieceUnit s c k x a - a % pieceUnit s c k x a)

/-- A read of one piece: its bytes, and whether they are poisoned. -/
def readPiece (s : State) (c : Ctx) (x : Side) (a n : Nat) : State × Except CopyStop (List Byte × Bool) :=
  if x.scratch then
    if scratchSize < a + n then (s, .error (.fault a 0x25 a 0))
    else
      match winCheck s c .read a x.plot a n with
      | .bad e v => (s, .error (.fault a e v 0))
      | .hold _ => (s, .error .wait)
      | .ok _ =>
        let l : Loc := { reg := .window x.plot a, pa := scratchAddr x.plot a, eng := 0, leaf := 0 }
        let o := observe s c .read l n
        (readEffect o.1 l, .ok (natBytes n (readLoc o.2 l n), false))
  else
    match agRead s c a n with
    | (s, .ok (v, bad)) => (s, .ok (natBytes n v, bad))
    | (s, .bad e v) => (s, .error (.fault a e v 0))
    | (s, .hold _) => (s, .error .wait)

/-- A write of one piece. -/
def writePiece (s : State) (c : Ctx) (x : Side) (a : Nat) (bs : List Byte) : State × Except CopyStop Unit :=
  if x.scratch then
    if scratchSize < a + bs.length then (s, .error (.fault a 0x25 a 1))
    else
      match winCheck s c .write a x.plot a bs.length with
      | .bad e v => (s, .error (.fault a e v 1))
      | .hold _ => (s, .error .wait)
      | .ok _ => (winWrite s x.plot a bs.length (bytesNat bs), .ok ())
  else
    match storeVA s c a bs.length 1 (bytesNat bs) with
    | (s, .ok _) => (s, .ok ())
    | (s, .bad e v) => (s, .error (.fault a e v 1))
    | (s, .hold _) => (s, .error .wait)

/-- The address of byte `i` of a side. -/
def Side.byteAt (x : Side) (i : Nat) : Nat := ((x.runs i 1).headD (0, 0)).1

/-- Bytes of a copy from position `i`, of at most `k`, that are one piece of a row on both sides. -/
def copyPiece (s : State) (c : Ctx) (op : CopyOp) (i k : Nat) : Nat :=
  let side := fun (kind : Kind) (x : Side) n => pieceLen s c kind x (x.byteAt i) (Nat.min n (x.row - i % x.row))
  side .write op.dest (side .read op.source k)

/-! ## One unit -/

/-- Bytes of a unit (R144). -/
def unitBytes : Nat := 2048

/-- A copy that stops at its unit: held on a fault, or left for its next turn. -/
def stopUnit (s : State) (l : Launch) (key : Nat) (j : CopyJob) : CopyStop → State
  | .wait => modLaunch s l.lseq fun l => setHead l key j
  | .fault va c v acc => copyFault s ((launchOf s l.lseq).getD l) key j va c v acc

/-- Whether the node of a plot takes a tile as its weights (R149, R312). -/
def takesTile (s : State) (l : Launch) (d : BitVec 512) (plot : Nat) : Bool :=
  match matrixNode s plot with
  | none => false
  | some (g, n) =>
    let w := mWfmt ((l.img g).1.node n).hrec
    tdFmt d == w && tdRows d == depthOf w && tdCols d == 64 * fmtNibbles w

/-- The last byte has been written: a CPYM issues its LOADW, or ends with NOMATRIX; any other copy ends (R149). -/
def copied (s : State) (l : Launch) (key : Nat) (j : CopyJob) : State :=
  let status := if j.uncorr then 0x10 else 0
  match j.op with
  | .tile d _ p _ (some _) =>
    if takesTile s l d p then modLaunch s l.lseq fun l => setHead l key { j with waitLoad := true }
    else endCopy s l key j 0x11
  | _ => endCopy s l key j status

/-! ### Ranges that share bytes (R145) -/

/-- Where a byte of a side lies: a physical address of this module, or a byte of another module's DRAM. -/
def physOf (s : State) (c : Ctx) (k : Kind) (x : Side) (a : Nat) : Option Nat :=
  if x.scratch then some (scratchAddr x.plot a)
  else
    match translate s c k a with
    | .error _ => none
    | .ok (_, _, pa) => (match regionAt s pa with
        | .hole => none
        | .domain m a => (vdOf s c.vd).map (fun v => if m = v.domix then a else farPlace v.domain m a)
        | _ => some pa)

/-- Whether a place is a byte of a register of a plot's window, which is read and written in words (R87). -/
def isRegister (p : Nat) : Bool :=
  decide (windowBase ≤ p) && decide (p < windowEnd) && decide (scratchSize ≤ (p - windowBase) % 0x1000000)

/-- The byte that stands at a place. -/
def byteNow (s : State) (p : Nat) : Byte :=
  if isRegister p then
    let o := p - windowBase
    BitVec.ofNat 8 (winRead s (o / 0x1000000) (o % 0x1000000 / 8 * 8) 8 / 256 ^ (o % 8))
  else if 2 ^ 64 ≤ p then BitVec.ofNat 8 (farRead p s.time 1)
  else keyedByte s (lookupD s.keytags (p / 32) 0) p

/-- The granules of a side with the frames they map to. -/
def sideFrames (s : State) (c : Ctx) (k : Kind) (x : Side) (n : Nat) : List (Nat × Nat) :=
  ((x.runs 0 n).map (fun r => (granulesOf r.1 r.2).filterMap (fun g =>
    (physOf s c k x (g * 65536)).map (fun pa => (g, pa / 65536))))).flatten

/-- Whether a source and a destination granule that differ map to one frame. -/
def aliased (s : State) (c : Ctx) (j : CopyJob) : Bool :=
  let d := sideFrames s c .write j.op.dest j.total
  (sideFrames s c .read j.op.source j.total).any (fun x => d.any (fun y => x.2 == y.2 && (x.1 != y.1 || j.op.source.scratch != j.op.dest.scratch)))

/-- How the two sides of a copy share bytes: not at all, in their virtual ranges, or through aliases alone. -/
inductive Sharing
  | none
  | ranges
  | aliases
  deriving DecidableEq, Repr

def sharing (s : State) (c : Ctx) (j : CopyJob) : Sharing :=
  if j.op.source.meets j.op.dest j.total then .ranges else if aliased s c j then .aliases else .none

/-- Byte `i` of a copy, which its source now holds as `now`: where this copy has written over it, what it held before; or,
where the ranges overlap through aliases alone, either of the two, as a free bit says. -/
def sourceByte (c : Ctx) (sh : Sharing) (j : CopyJob) (i : Nat) (now : Byte) (s : State) : State × Byte :=
  match physOf s c .read j.op.source (j.op.source.byteAt i) with
  | some p =>
    match lookup j.olds p, sh with
    | some old, .aliases => ({ s with free := s.free + 1 }, if Config.freeBit s.free then old else now)
    | some old, _ => (s, old)
    | none, _ => (s, now)
  | none => (s, now)

/-- The bytes of a piece from position `i`. -/
def sourceBytes (c : Ctx) (sh : Sharing) (j : CopyJob) : Nat → List Byte → State → State × List Byte
  | _, [], s => (s, [])
  | i, b :: r, s =>
    let x := sourceByte c sh j i b s
    let y := sourceBytes c sh j (i + 1) r x.1
    (y.1, x.2 :: y.2)

/-- What is about to be written over at positions `i` to `i + n − 1`, kept by address. -/
def keepOlds (s : State) (c : Ctx) (j : CopyJob) (i n : Nat) : Assoc Byte :=
  (List.range n).foldl (fun m x =>
    match physOf s c .write j.op.dest (j.op.dest.byteAt (i + x)) with
    | some p => if listed m p then m else insert m p (byteNow s p)
    | none => m) j.olds

/-! ### Pieces in order -/

/-- A piece moved: its bytes as read, or as kept from an earlier try, and written. The third part is what stops it. -/
def movePiece (c : Ctx) (sh : Sharing) (i n : Nat) (s : State) (j : CopyJob) : State × CopyJob × Option CopyStop :=
  let ix := (List.range n).map (· + i)
  match (if ix.all (listed j.snap) then (s, Except.ok (ix.map (fun i => lookupD j.snap i 0#8), false))
         else readPiece s c j.op.source (j.op.source.byteAt i) n) with
  | (s, .error e) => (s, j, some e)
  | (s, .ok (bs, bad)) =>
    let x := if sh = .none then (s, bs) else sourceBytes c sh j i bs s
    let s := x.1
    let new := (ix.zip x.2).filter (fun y => !listed j.snap y.1)
    let j := { j with snap := j.snap ++ new, uncorr := j.uncorr || bad }
    let olds := if sh = .none then j.olds else keepOlds s c j i n
    match writePiece s c j.op.dest (j.op.dest.byteAt i) (ix.map (fun i => lookupD j.snap i 0#8)) with
    | (s, .error e) => (s, j, some e)
    | (s, .ok _) => (s, { j with olds := olds }, none)

/-- The pieces of a unit, in rising order; `fuel` is at least their number. Where the ranges overlap through aliases alone,
every byte that is no register is a piece. The third part counts the bytes written: those before a piece that fails stay so (R146). -/
def movePieces (c : Ctx) (sh : Sharing) : Nat → Nat → Nat → State → CopyJob → State × CopyJob × Nat × Option CopyStop
  | 0, _, _, s, j => (s, j, 0, none)
  | fuel + 1, i, k, s, j =>
    if k = 0 then (s, j, 0, none)
    else
      let bytes := fun (p : Option Nat) => p.any (fun p => !isRegister p)
      let single := sh == .aliases && bytes (physOf s c .read j.op.source (j.op.source.byteAt i)) &&
        bytes (physOf s c .write j.op.dest (j.op.dest.byteAt i))
      let n := if single then 1 else Nat.max 1 (copyPiece s c j.op i k)
      match movePiece c sh i n s j with
      | (s, j, some e) => (s, j, 0, some e)
      | (s, j, none) =>
        let r := movePieces c sh fuel (i + n) (k - n) s j
        (r.1, r.2.1, n + r.2.2.1, r.2.2.2)

/-- The `k` bytes of the unit under way moved. -/
def moveUnit (s : State) (c : Ctx) (j : CopyJob) (k : Nat) : State × CopyJob × Nat × Option CopyStop :=
  movePieces c (sharing s c j) k j.pos k s j

/-- `k` more bytes of a copy are visible: they leave its counter, but for those of a CPYM, which leave all at once (R152). -/
def passBytes (s : State) (j : CopyJob) (k : Nat) : State := if j.op.loads then s else subPend s j.tid j.ctr k

/-- A unit performed (R144 to R146). -/
def copyUnit (s : State) (l : Launch) (key : Nat) (j : CopyJob) : State :=
  let k := Nat.min unitBytes (j.total - j.pos)
  match moveUnit s (copyCtx l j) j k with
  | (s, j, n, some e) => stopUnit (passBytes s j (n - j.part)) l key { j with part := Nat.max j.part n } e
  | (s, j, _, none) =>
    let s := passBytes s j (k - j.part)
    let j := { j with pos := j.pos + k, part := 0, snap := [] }
    let s := modLaunch s l.lseq fun l => setHead l key j
    if j.pos = j.total then copied s ((launchOf s l.lseq).getD l) key j else s

/-! ## Turns and fences (R144, R313) -/

/-- Whether a fence has nothing left before it in any queue that it joins: it stands at the head of each, and no record of the
queue waits to be posted (R155, R313). -/
def fenceReady (s : State) (l : Launch) (f : CopyEnt) : Bool :=
  l.copyQ.all (fun q => !q.2.elem f || (q.2.head? == some f && !eventHeldAt s l.lseq (.copyQ (q.1 / 16) (q.1 % 16))))

/-- A fence gone from every queue that it joins. -/
def passFence (l : Launch) (f : CopyEnt) : Launch :=
  { l with copyQ := l.copyQ.map (fun q => (q.1, q.2.filter (fun e => e != f))) }

/-- Whether the head of a queue may take a turn: it is not held, no record of it waits, and it does not wait for LOADW. -/
def queueReady (s : State) (l : Launch) (key : Nat) : Bool :=
  let src := FSource.copyQ (key / 16) (key % 16)
  l.runs && !faultHeldAt l src && !eventHeldAt s l.lseq src &&
  (match (lookupD l.copyQ key []).head? with
   | none => false
   | some (.fence id p) => fenceReady s l (.fence id p)
   | some (.op j) => !j.held && !j.waitLoad)

/-- The queues of a die that may take a turn, as launch × 16 + queue. -/
def readyQueues (s : State) (die : Nat) : List Nat :=
  (s.launches.map (fun x => (List.range 16).filterMap (fun q =>
    if queueReady s x.2 (die * 16 + q) then some (x.1 * 16 + q) else none))).flatten

/-- The queue that the engine serves next, after the one it served last. The spec says round-robin, and neither in what order
nor where it starts: by launch number and then by queue number, from the lowest (DESIGN CHOICE, log 103). -/
def nextQueue (s : State) (die : Nat) : Option Nat :=
  let qs := readyQueues s die
  let least := fun (l : List Nat) => l.foldl (fun b x => match b with
    | some y => if x < y then some x else b
    | none => some x) (none : Option Nat)
  match least (qs.filter (fun q => decide (lookupD s.copyRr die 0 < q))) with
  | some q => some q
  | none => least qs

/-- What a queue does in its turn: its unit, or its fence passes. -/
def serveQueue (s : State) (l : Launch) (key : Nat) : State :=
  match (lookupD l.copyQ key []).head? with
  | some (.op j) => copyUnit s l key j
  | some (.fence id p) => setLaunch s (passFence l (.fence id p))
  | none => s

/-- COPY_UNIT (R144): the engine of a die serves its next queue. -/
def execCopyUnit (die : Nat) (s : State) : Out :=
  match nextQueue s die with
  | none => .next s
  | some x =>
    match launchOf s (x / 16) with
    | none => .next s
    | some l => .next (serveQueue { s with copyRr := insert s.copyRr die x } l (die * 16 + x % 16))

/-- COPY_UNIT_RETRY (R146, R104): the hold of a unit on a failed check ends once an invalidation has reached its page, or 65,536
ticks after the last try, and the engine tries the unit again in its queue's turn (R144); so it is with a LOADW whose scale
could not be read. -/
def execCopyUnitRetry (lseq die q : Nat) (s : State) : Out :=
  match launchOf s lseq with
  | none => .next s
  | some l =>
    let key := die * 16 + q
    match (lookupD l.copyQ key []).head? with
    | some (.op j) =>
      if j.held = false ∨ l.runs = false ∨ (j.retryNow = false ∧ s.time < j.retryAt + retryTicks) ∨
          faultHeldAt l (.copyQ die q) = true then .next s
      else .next (setLaunch s (setHead l key { j with held := false, retryNow := false }))
    | _ => .next s

end Sys2Proof.Machine
end

