-- ==== Sys2Proof/Machine/Coll.lean ====
section
/-!
DEFINITION. Collective engines (09_many_dies_and_devices.md R206 to R209; 06 R164; 14 R317; 22 R406 to R408): a collective
starts once every participant has issued, its tree is combined pair by pair, each participant's outputs are stored and
its record posted, and an abandoned one posts TERMINATED. A rank on another module brings inputs that are free (log 61).
-/
namespace Sys2Proof.Machine

/-! ## Finding a collective -/

/-- The collectives of a COMMID on a device, in order of their occurrence. -/
def collsOf (s : State) (vd comm : Nat) : List (Nat × Coll) := s.colls.filter (fun c => c.2.vd == vd && c.2.comm == comm)

def setColl (s : State) (key : Nat) (c : Coll) : State := { s with colls := insert s.colls key c }

/-- A participant's operation in its queue. -/
def jobOf (l : Launch) (p : CollPart) (key : Nat) : Option CollJob :=
  (lookupD l.collQ p.key []).findSome? (fun e => match e with
    | .op j => if j.coll = key ∧ j.rank = p.rank then some j else none
    | .fence .. => none)

def partSrc (p : CollPart) : FSource := .collQ (p.key / 16) (p.key % 16)

/-- Whether a participant's queue may work: its launch runs, and the queue waits behind no record (R155, R165, R169). -/
def partFree (s : State) (p : CollPart) : Bool :=
  match launchOf s p.lseq with
  | none => false
  | some l => l.runs && !faultHeldAt l (partSrc p) && !eventHeldAt s p.lseq (partSrc p)

/-- Whether only operations of the same collective stand before a participant's own in its queue (R111, R164). -/
def partFirst (s : State) (p : CollPart) (key : Nat) : Bool :=
  match launchOf s p.lseq with
  | none => false
  | some l =>
    ((lookupD l.collQ p.key []).takeWhile (fun e => match e with | .op j => j.coll != key || j.rank != p.rank | .fence .. => true)).all
      (fun e => match e with | .op j => j.coll == key | .fence .. => false)

/-- Whether a collective has a participant on another module. -/
def ranksAway (s : State) (c : Coll) : Bool := decide ((ranksHere s c).length < c.n)

/-- Whether a collective held on a fault may be tried now (R104, R146). -/
def collDue (s : State) (c : Coll) : Bool :=
  match c.retryAt with
  | none => true
  | some t => c.retryNow || decide (t + retryTicks ≤ s.time)

/-- Whether every participant has issued and stands first in its queue (R408). -/
def collReady (s : State) (key : Nat) (c : Coll) : Bool :=
  !c.started && !c.abandoned && (ranksHere s c).all (fun r => c.parts.any (fun p => p.rank == r)) &&
  c.parts.all (fun p => partFree s p && partFirst s p key) && collDue s c

/-! ## Records (R167) -/

def collInfo (s : State) (l : Launch) (p : CollPart) (plot cause value acc : Nat) : FInfo :=
  { time := s.time, value := value, seq := 0, node := 0xFFFF, chan := none, plot := plot, srcNo := 4, unit := p.key % 16,
    cause := cause, orig := 0, acc := acc, lseq := l.lseq }

def raiseColl (s : State) (p : CollPart) (key cause value acc : Nat) : State :=
  match launchOf s p.lseq with
  | none => s
  | some l => raiseFault s p.lseq (partSrc p) (collInfo s l p ((jobOf l p key).elim 0 (·.plot)) cause value acc)

/-- A fault of a participant's access: one record for each page and kind of access, and the collective is held (R146). -/
def collFault (s : State) (key : Nat) (c : Coll) (p : CollPart) (va cause value acc : Nat) : State :=
  let mark := (p.rank * 2 + acc, pageOf va)
  let s := if c.pages.elem mark then s else raiseColl s p key cause value acc
  setColl s key { c with pages := if c.pages.elem mark then c.pages else mark :: c.pages, retryAt := some s.time, retryNow := false }

/-! ## COLLECTIVE_START -/

/-- An element read as I40 times a scale, with one rounding to an integer (R207). Of a product outside I40, or with a scale that is
no number, the rule says nothing: it is free (log 61). -/
def scaleInt (x : Elem) (scale : BitVec 32) : Elem × Nat :=
  let open_ := (Config.scaledInt x scale, Config.scaledIntFlags x scale % 64)
  match (fmul (intNum x.toInt) (fp32 scale)).1 with
  | .fin n m e =>
    let (q, changed) := roundInt .rne n m e
    if -(2 ^ 39) ≤ q ∧ q < 2 ^ 39 then (BitVec.ofInt 40 q, if changed then flagNX else 0) else open_
  | _ => open_

/-- An input element: converted exactly, and multiplied by its scale with one rounding (R207, R406). -/
def collElem (c : Coll) (raw scale : Nat) : Elem × Nat :=
  let x := loadConv (collStore c.fmt) raw
  let sc := BitVec.ofNat 32 scale
  if c.sc = false then (x, 0)
  else if collIsInt c.fmt then scaleInt x sc
  else w40Result .rne (fmul (w40 x) (fp32 sc))

/-- A participant's input from element `i` on: elements, flags, and whether a read was uncorrectable. -/
def readInput (c : Coll) (p : CollPart) : Nat → Nat → State → State × Except (Nat × Nat × Nat) (List Elem × Nat × Bool)
  | 0, _, s => (s, .ok ([], 0, false))
  | n + 1, i, s =>
    let b := collBytes c.fmt
    let a := elemVA p.inva b i
    match agRead s (collCtx s p) a b with
    | (s, .bad x v) => (s, .error (a, x, v))
    | (s, .hold _) => (s, .error (a, 0, 0))
    | (s, .ok (raw, bad)) =>
      let sa := elemVA p.scaleva 4 (collBlock i)
      match (if c.sc then agRead s (collCtx s p) sa 4 else (s, .ok (0, false))) with
      | (s, .bad x v) => (s, .error (sa, x, v))
      | (s, .hold _) => (s, .error (sa, 0, 0))
      | (s, .ok (sc, bad')) =>
        let (e, f) := collElem c raw sc
        match readInput c p n (i + 1) s with
        | (s, .error x) => (s, .error x)
        | (s, .ok (es, g, u)) => (s, .ok (e :: es, f ||| g, bad || bad' || u))

/-- The launch of a collective's first participant here. -/
def Coll.first (c : Coll) : Nat := (c.parts.head?.map (·.lseq)).getD 0

/-- The input of a rank on another module: elements of the format, with their scales, as they stand there. They are free, and the
same however and whenever they are asked for (R208, R411; log 61). -/
def remoteInput (c : Coll) (rank : Nat) : List Elem × Nat :=
  let xs := (List.range c.len).map (fun i =>
    collElem c (Config.farInput c.first c.comm c.occ rank i % 2 ^ (8 * collBytes c.fmt))
      (Config.farScale c.first c.comm c.occ rank (collBlock i)))
  (xs.map (·.1), xs.foldl (fun f x => f ||| x.2) 0)

/-- Every rank's input, read by the engine that serves it. -/
def readInputs (key : Nat) (c : Coll) : List Nat → State → State × Except Unit Coll
  | [], s => (s, .ok c)
  | r :: rest, s =>
    match c.parts.find? (fun p => p.rank == r) with
    | none =>
      let (es, f) := remoteInput c r
      readInputs key { c with partials := c.partials ++ [(r, r + 1, es)], flags := c.flags ||| f } rest s
    | some p =>
      match readInput c p c.len 0 s with
      | (s, .error (va, x, v)) => (if x = 0 then s else collFault s key { c with partials := [], flags := 0 } p va x v 0, .error ())
      | (s, .ok (es, f, u)) =>
        readInputs key { c with partials := c.partials ++ [(r, r + 1, es)], flags := c.flags ||| f, uncorr := c.uncorr || u } rest s

/-- COLLECTIVE_START (R317, R408): the fields are compared; where they agree, the inputs are read, and where they
differ, each engine writes a record and the collective goes no further. -/
def execCollectiveStart (vd comm : Nat) (s : State) : Out :=
  match (collsOf s vd comm).find? (fun c => collReady s c.1 c.2) with
  | none => .next s
  | some (key, c) =>
    if c.bad then
      let one := c.parts.foldl (fun (a : List CollPart) p =>
        if a.any (fun q => q.lseq == p.lseq && q.key / 16 == p.key / 16) then a else a ++ [p]) []
      .next (setColl (one.foldl (fun s p => raiseColl s p key 0x80 0 0) s) key { c with started := true })
    else
      match readInputs key c (List.range c.n) s with
      | (s, .error _) => .next s
      | (s, .ok c) => .next (setColl s key { c with started := true, retryAt := none, retryNow := false })

/-- COLLECTIVE_COMBINE (R207, R208): two partial values of the tree are combined, left first. -/
def execCollectiveCombine (vd comm : Nat) (s : State) : Out :=
  match (collsOf s vd comm).find? (fun c => c.2.nextNode.isSome && !c.2.abandoned && c.2.parts.all (fun p =>
      c.2.ended.elem p.rank || partFree s p)) with
  | none => .next s
  | some (key, c) =>
    match c.nextNode with
    | some x => .next (setColl s key (c.combine x))
    | none => .next s

/-! ## COLLECTIVE_COMPLETE -/

/-- A participant's elements stored from element `i` on: how many, and what stopped them. -/
def writeOutput (c : Coll) (p : CollPart) : Nat → List Nat → State → State × Nat × Option (Nat × Nat × Nat)
  | _, [], s => (s, 0, none)
  | i, v :: vs, s =>
    let b := collBytes c.fmt
    let a := elemVA p.outva b i
    match storeVA s (collCtx s p) a b 1 v with
    | (s, .bad x t) => (s, 0, some (a, x, t))
    | (s, .hold _) => (s, 0, some (a, 0, 0))
    | (s, .ok _) => let r := writeOutput c p (i + 1) vs s; (r.1, r.2.1 + 1, r.2.2)

/-- A participant's operation gone from its queue, with its record (R152, R156). -/
def endPart (s : State) (key : Nat) (c : Coll) (p : CollPart) (status : Nat) : State :=
  match launchOf s p.lseq with
  | none => s
  | some l =>
    match jobOf l p key with
    | none => s
    | some j =>
      let l := { l with collQ := insert l.collQ p.key ((lookupD l.collQ p.key []).filter (fun e => e != .op j)) }
      let wrote := p.wrote * collBytes c.fmt
      let s := setLaunch s l
      let ended := addNat c.ended p.rank
      let s := keepColl s key { c.setPart p with ended := ended }
      let e := { opRecord l j.tid j.plot j.slot 4 status (p.key % 16) j.user wrote
        (some (partSrc p)) with left := some (j.ctr, j.total - wrote), flow := p.modules }
      tidyColls (post s e) l.lseq

/-- COLLECTIVE_COMPLETE (R209, R407): one participant's flags are set, its outputs are stored, and its record is posted. -/
def execCollectiveComplete (vd comm : Nat) (s : State) : Out :=
  match (collsOf s vd comm).findSome? (fun c =>
      if c.2.formed && !c.2.abandoned && collDue s c.2 then
        (c.2.parts.find? (fun p => !c.2.ended.elem p.rank && partFree s p)).map (fun p => (c.1, c.2, p))
      else none) with
  | none => .next s
  | some (key, c, p) =>
    match launchOf s p.lseq with
    | none => .next s
    | some l =>
      let s := raiseFlags s p.lseq p.part (c.flags ||| c.storeFlags)
      let (s, k, stop) := writeOutput c p p.wrote ((c.stored p.rank).1.drop p.wrote) s
      let p := { p with wrote := p.wrote + k }
      let j := jobOf l p key
      let s := match j with | some j => subPend s j.tid j.ctr (k * collBytes c.fmt) | none => s
      match stop with
      | some (va, x, v) =>
        let c := c.setPart p
        .next (if x = 0 then setColl s key c else collFault s key c p va x v 1)
      | none => .next (endPart s key { c with retryAt := none, retryNow := false } p (if c.uncorr then 0x10 else 0))

/-- A participant of an abandoned collective posts TERMINATED with the bytes written; its flags are those of the whole collective,
as on every participant (R407, R408; log 95). -/
def abandonPart (s : State) (key : Nat) (c : Coll) (p : CollPart) : State :=
  let before := p.wrote * collBytes c.fmt
  let s := scatterPart s key c p
  let p' := (((lookup s.colls key).getD c).parts.find? (fun q => q.rank == p.rank)).getD p
  let s := raiseFlags s p.lseq p.part c.allFlags
  match (launchOf s p.lseq).bind (fun l => jobOf l p' key) with
  | none => s
  | some j => endPart (subPend s j.tid j.ctr (p'.wrote * collBytes c.fmt - before)) key (c.setPart p') p' 0x12

/-- Whether a participant of a collective on another module has ended before its operation has completed: when one does is free
(R408; log 61). -/
def farEnded (s : State) (c : Coll) : Bool :=
  match Config.farEnds c.first c.comm c.occ with
  | some t => decide (t ≤ s.time)
  | none => false

/-- A collective whose participant on another module has ended is abandoned here as well (R408). -/
def abandonAway (s : State) (vd comm : Nat) : State :=
  match (collsOf s vd comm).find? (fun c => ranksAway s c.2 && !c.2.abandoned && !(c.2.bad && c.2.started) && farEnded s c.2) with
  | none => s
  | some (key, c) => setColl s key { c with abandoned := true, upto := s.lseq }

/-- COLLECTIVE_ABANDON (R408): a participant of an abandoned collective posts TERMINATED; with none to post, a collective may
turn out abandoned by another module. -/
def execCollectiveAbandon (vd comm : Nat) (s : State) : Out :=
  match (collsOf s vd comm).findSome? (fun c =>
      if c.2.abandoned then (c.2.parts.find? (fun p => !c.2.ended.elem p.rank && partFree s p)).map (fun p => (c.1, c.2, p)) else none) with
  | none => .next (abandonAway s vd comm)
  | some (key, c, p) => .next (abandonPart s key c p)

end Sys2Proof.Machine
end

