-- ==== Sys2Proof/Machine/Preempt.lean ====
section
/-!
DEFINITION. Pre-emption, the saved image of a launch, and its restore (07_faults_and_preemption.md R182 to R185; 03 R80;
01 R35; 04 R82; 05 R142; 06 R165; 08 R198; 16 R362, R372): freezing a launch where it stands, moving its state out of
its plots, and back into the same or other rectangles with tags, routes and places rewritten.
-/
namespace Sys2Proof.Machine

/-! ## Capacity-change records (R198) -/

/-- A capacity-change record of a launch: it waits until the launch runs and thread-table entry 0 has its slot. -/
def postCap (s : State) (lseq event ukind unit count : Nat) : State :=
  modLaunch s lseq fun l => { l with capWait := l.capWait ++ [(event * 2 ^ 56 + ukind * 2 ^ 52 + unit % 2 ^ 32, count)] }

/-- The thread of thread-table entry 0, if it lives. -/
def entryZero (s : State) (lseq : Nat) : Option (Nat × Thread) :=
  s.threads.find? (fun x => x.2.lseq == lseq && x.2.idx == some 0 && x.2.stat != .dead)

/-- A record to the slot of thread-table entry 0, or to the host where that thread has halted (R155, R169, R198). -/
def zeroRecord (s : State) (l : Launch) (kind count : Nat) (user : Word) : Event :=
  match entryZero s l.lseq with
  | some (tid, t) => { vd := l.vd, lseq := l.lseq, plot := t.plot, slot := t.slot, kind := kind, status := 0, cause := 0, queue := 0,
                       user := user, count := count, toHost := false, tid := some tid, src := none, left := none, flow := [] }
  | none => { vd := l.vd, lseq := l.lseq, plot := 0, slot := 0, kind := kind, status := 0, cause := 0, queue := 0, user := user,
              count := count, toHost := true, tid := none, src := none, left := none, flow := [] }

/-- Whether entry 0 has been admitted, or has halted, or the launch has no threads. -/
def zeroKnown (s : State) (l : Launch) : Bool := l.thrtab.isEmpty || l.halted.elem 0 || (entryZero s l.lseq).isSome

/-- The records that a launch which runs has waiting are posted, before any of its threads issues (R198). -/
def flushCap (s : State) (l : Launch) : State :=
  if l.runs && !l.capWait.isEmpty && zeroKnown s l then
    let s := modLaunch s l.lseq fun l => { l with capWait := [] }
    l.capWait.foldl (fun s c => post s (zeroRecord s l 5 c.2 (BitVec.ofNat 64 c.1))) s
  else s

/-- Plots of a device in service: in its mask, not retired, not under a lease that has begun (R198). -/
def plotsInService (s : State) (vd : Nat) : Nat :=
  ((List.range 128).filter (fun p => ownsPlot s vd p && !isRetired s (unitPlot p) && !isRetired s (unitCC p) &&
    (match leaseOf s (unitPlot p) with | some x => x.st != .active | none => true))).length

/-! ## Freezing (R182) -/

/-- Tokens of a channel that are on their way, each with the stops that it may still pass and a landing; and one. -/
def drainFuel (l : Launch) (k : Nat) : Nat :=
  let st := l.chanSt k
  (st.moving + st.recv.length) * (st.legs.length + 2) + 1

/-- One move of a token of a channel towards its destination queue: it lands, or goes on, or leaves its receive buffer. -/
def drainOnce (s : State) (l : Launch) (k : Nat) : Option State :=
  (landOnce s l k).orElse fun _ => (crossOnce s l k).orElse fun _ => leaveRecv s l k

def drainChan (lseq k : Nat) : Nat → State → State
  | 0, s => s
  | n + 1, s =>
    match launchOf s lseq with
    | none => s
    | some l => match drainOnce s l k with
      | some s => drainChan lseq k n s
      | none => s

/-- Tokens in the near buffer of a crossing link stand back in the plot it leaves. -/
def standBack (kinds : List StopKind) (legs : List (List Token)) : List (List Token) :=
  let near := fun (i : Nat) => match kinds.getD i .plot with | .near _ => true | _ => false
  (List.range kinds.length).map (fun i =>
    if near i then [] else (if near (i + 1) then legs.getD (i + 1) [] else []) ++ legs.getD i [])

/-- What a freeze leaves of a channel's tokens in elastic buffers lands in the checkpoint area of the plot before them. -/
def leaveBuffers (lseq : Nat) (s : State) (k : Nat) : State :=
  modLaunch s lseq fun l =>
    let ks := (l.img (keyImg k)).2.stopKinds (keyChan k)
    l.setChan k { l.chanSt k with legs := standBack ks (l.chanSt k).legs }

/-- Times that the channels of a launch are gone through: a route crosses at most two die edges, and a token may wait for the
tokens of other channels to leave each of the four buffers there before it. -/
def drainPasses : Nat := 5

/-- Tokens on links, in elastic buffers and in edge ports land in their destination queues, and those that find no room in the
checkpoint area of the plot they stand in (R182 step 2). -/
def drainLinks (s : State) (l : Launch) : State :=
  let ks := (keysOf l.chans).filter (fun k => !isSelf k)
  let pass := fun (s : State) => ks.foldl (fun s k => drainChan l.lseq k (drainFuel ((launchOf s l.lseq).getD l) k) s) s
  let s := (List.range drainPasses).foldl (fun s _ => pass s) s
  (ks.filter (fun k => !isAway l k)).foldl (leaveBuffers l.lseq) s

/-- A thread halted at an instruction boundary: its outstanding loads complete, and an instruction that waits only for
its own checks or a page to pass is made again (R35, R182). -/
def haltThread (t : Thread) : Thread :=
  let t := t.settle
  match t.stat with
  | .waiting (.cmd _ _) | .waiting (.sibling _) | .waiting (.backing _ _) | .waiting (.logFull _) => { t with stat := .ready }
  | _ => t

/-- A GDRAIN completes once its target is frozen (R323). -/
def wakeDrained (s : State) (lseq : Nat) : State :=
  s.threads.foldl (fun s x => if x.2.stat = .waiting (.gdrain lseq) then completeWait s x.1 4#64 else s) s

def addFreeze (l : List Freeze) (f : Freeze) : List Freeze := if l.elem f then l else f :: l

/-- A launch frozen where it stands, for some reasons more. -/
def freezeLaunch (s : State) (l : Launch) (why : List Freeze) : State :=
  let s := drainLinks s l
  let s := { s with threads := s.threads.map (fun x => if x.2.lseq = l.lseq then (x.1, haltThread x.2) else x) }
  let s := modLaunch s l.lseq fun l => { l with frozen := why.foldl addFreeze l.frozen, asked := [] }
  wakeDrained s l.lseq

/-! ## Saving (R183) -/

/-- Whether a channel's route lies inside one partition (R80). -/
def inPart (v : Variant) (c : Nat) : Bool := (v.node (v.chan c).src).part == (v.node (v.chan c).dst).part

/-- The tokens of a channel between partitions that have not reached its destination plot go into the checkpoint areas of the
plots they stand in, oldest first, with the values of their tags (R182 step 2). -/
def checkpointChan (lseq : Nat) (s : State) (k : Nat) : State :=
  match launchOf s lseq with
  | none => s
  | some l =>
    let (v, p) := l.img (keyImg k)
    if isSelf k || inPart v (keyChan k) || isAway l k then s
    else
      let st := l.chanSt k
      let stops := p.stopsOf (keyChan k)
      let legs := fullLegs st.legs stops.length
      let late := (((legs.zip stops).dropLast).reverse.map (fun x => x.1.map (fun t => (x.2, t)))).flatten
      let ckpt := late.map (fun x => (x.2, (srfGet (plotOf s x.1) (x.2.stag / 16)).value))
      let s := setLaunch s (l.setChan k { st with
        legs := List.replicate (stops.length - 1) [] ++ [legs.getLastD []], ckpt := st.ckpt ++ ckpt })
      late.foldl (fun s x => dropHolder s x.1 x.2.stag) s

/-- Map rows between a launch's plot and plots that are not its own let go (R137). -/
def cutEdges (own : List Nat) (s : State) (p : Nat) : State :=
  let out := (plotOf s p).edges.filter (fun r => !own.elem r.dst)
  let s := out.foldl (fun s r => dropHolder s r.dst r.dtag) s
  let s := setPlot s p { plotOf s p with edges := (plotOf s p).edges.filter (fun r => own.elem r.dst) }
  let in_ := (s.plots.filter (fun x => !own.elem x.1)).map (fun x => x.2.edges.filter (fun r => r.dst == p))
  let s := in_.flatten.foldl (fun s r => dropHolder s p r.dtag) s
  { s with plots := s.plots.map (fun x => if own.elem x.1 then x else (x.1, { x.2 with edges := x.2.edges.filter (fun r => r.dst != p) })) }

/-- PLOTIX and plot of the launch's plots on this module. -/
def ownPlots (p : Placed) : List (Nat × Nat) :=
  ((List.range p.plots.length).map (fun i => (i, p.plots.getD i awayPlot))).filter (fun x => x.2 != awayPlot)

/-! ### Backing (R82) -/

/-- The lowest frame of 4 KiB of a device's backing pool that holds no page. -/
def freeBack (d : VD) : Option Nat :=
  (List.range (Nat.min (d.backlen / 4096) (d.back.length + 1))).find? (fun i => !listed d.back i)

/-- A written page of a saved launch put into backing, under the launch's key slot: the page by PLOTIX × 2,048 + page, and the frame
that takes it. The pool may have none left, of which the spec says nothing: the image itself then keeps the page (log 98). -/
def backPage (l : Launch) (ix p : Nat) (x : State × Assoc (Option Nat)) (page : Nat) : State × Assoc (Option Nat) :=
  let (s, ps) := x
  let key := ix * 2048 + page
  match (vdOf s l.vd).bind (fun d => (freeBack d).map (fun i => (d, i))) with
  | none => (s, insert ps key none)
  | some (d, i) =>
    let pa := d.backpa + 4096 * i
    if regionAt s pa ≠ .dram then (s, insert ps key none)
    else
      let k := slotOf s l.kslot
      let s := fillFrame s k.engid pa (cellsAt s.mem (scratchAddr p (4096 * page)) 4096)
      ({ s with vds := insert s.vds l.vd { d with back := insert d.back i l.lseq }
                slots := insert s.slots l.kslot { k with backs := addRange k.backs (pa, 4096) } }, insert ps key (some i))

/-- The pages of one plot put into backing: those still there stay where they are, and the written ones follow. -/
def backPlot (l : Launch) (x : State × Assoc (Option Nat)) (ixp : Nat × Nat) : State × Assoc (Option Nat) :=
  let still := (x.1.backed.filter (fun b => b.1 / 2048 == ixp.2)).foldl (fun ps b =>
    insert ps (ixp.1 * 2048 + b.1 % 2048) (b.2.map (·.2))) x.2
  ((x.1.pages.filter (fun k => k.1 / 2048 == ixp.2 && k.2.dirty)).map (fun k => k.1 % 2048)).foldl (backPage l ixp.1 ixp.2) (x.1, still)

/-- The bytes of the pages that no frame of the pool took, where the image keeps them. -/
def keptPages (s : State) (ps : Assoc (Option Nat)) (own : List (Nat × Nat)) : List Host.Cell :=
  ((ps.filter (fun x => x.2.isNone)).map (fun x =>
    match own.find? (fun y => y.1 == x.1 / 2048) with
    | some y => (cellsAt s.mem (scratchAddr y.2 (4096 * (x.1 % 2048))) 4096).map (fun c => (x.1 / 2048 * 2 ^ 24 + 4096 * (x.1 % 2048) + c.1, c.2))
    | none => [])).flatten

/-! ### The image -/

/-- The contents of a plot that leave it with the launch. -/
def plotImage (s : State) (lseq p : Nat) : Plot :=
  let x := plotOf s p
  { x with holder := none, evq := [], evHeld := [], rr := 0, yieldedSlot := none, admq := x.admq.filter (fun a => a.lseq == lseq) }

/-- The image of a launch, with its pages in backing. -/
def imageOf (s : State) (l : Launch) (pages : Assoc (Option Nat)) : Saved :=
  let ps := ownPlots l.place
  { pes := (ps.map (fun x => (s.pes.filter (fun e => e.1 / 64 == x.2)).map (fun e => (64 * x.1 + e.1 % 64, e.2)))).flatten
    plots := ps.map (fun x => (x.1, plotImage s l.lseq x.2))
    scratch := keptPages s pages ps
    pages := pages
    evHeld := (ps.map (fun x => ((plotOf s x.2).evHeld.filter (fun e => e.lseq == l.lseq)).map (fun e => (x.1, e)))).flatten }

/-- The plot number that a saved thread carries: no plot of the module. -/
def savedPlot (ix : Nat) : Nat := 128 + ix

/-- A thread of a saved launch: it has no slot until it is admitted again, and its records are kept with it. -/
def saveThread (l : Launch) (s : State) (tid : Nat) (t : Thread) : State :=
  let p := savedPlot (plotIx l.place t.plot)
  if t.lseq ≠ l.lseq ∨ 128 ≤ t.plot then s
  else setThread (moveRecords s tid t.plot p t.slot) tid { t with plot := p }

/-- The frozen state streamed out: the launch gives up its plots (R182 step 5, R183). -/
def saveLaunch (s : State) (l : Launch) : State :=
  let own := l.place.here
  let s := (keysOf l.chans).foldl (checkpointChan l.lseq) s
  let s := (s.threads.filter (fun x => x.2.lseq == l.lseq)).foldl (fun s x => showStores s x.1 4) s
  let s := own.foldl (cutEdges own) s
  let (s, pages) := (ownPlots l.place).foldl (backPlot l) (s, [])
  let img := imageOf s l pages
  let s := own.foldl (fun s p => setPlot s p { plotOf s p with evHeld := (plotOf s p).evHeld.filter (fun e => e.lseq != l.lseq) }) s
  let s := s.threads.foldl (fun s x => saveThread l s x.1 x.2) s
  let s := modLaunch s l.lseq fun l => { l with resident := false, saved := img }
  plotsReleased (own.foldl releasePlot s) own

/-- FROZEN_STATE_STREAMED_OUT (R182): a launch that is frozen for the end of its slice, or for a lease, gives up its plots. -/
def execFrozenStateStreamedOut (lseq : Nat) (s : State) : Out :=
  match launchOf s lseq with
  | none => .next s
  | some l =>
    if l.resident && (l.frozen.elem .slice || l.frozen.elem .forced) then .next (saveLaunch s l) else .next s

/-! ## Places in other rectangles (R80, R185) -/

/-- The plot that takes the place of one of a placement's own. -/
def movedPlot (old new : Placed) (p : Nat) : Nat :=
  if p ≠ awayPlot ∧ old.plots.elem p then new.plots.getD (old.plots.idxOf p) awayPlot else p

/-- A placement with its rectangles, plots, sites and handler nodes translated; the routes inside partitions keep their
shape, slots and numbers, the others are empty. -/
def translatePlace (v : Variant) (p : Placed) (rects : List (Nat × Nat × Nat)) : Placed :=
  let q := { p with rects := rects, plots := ((rects.zip v.parts).map (fun r => rectPlots r.1 r.2)).flatten }
  let sites := p.sites.map (fun x => (movedPlot p q x.1, x.2))
  let ix := List.range v.chans.length
  { q with
    sites := sites
    hnode := p.hnode.map (movedPlot p q)
    legs := ix.map (fun c => if inPart v c then (p.legsOf c).map (movedPlot p q) else [])
    links := ix.map (fun c => if inPart v c then
      (routeOf (startSite v sites c) (endSite v sites c)).2.zip ((p.links.getD c []).map (·.2)) else []) }

/-- The slots and numbers that a placement's routes inside partitions take, and the numbers its channels keep in the
plots of their ends. -/
def keptUse (v : Variant) (p : Placed) : Used :=
  let ix := List.range v.chans.length
  { links := (ix.map (fun c => p.links.getD c [])).flatten
    nums := (ix.map (fun c =>
      if inPart v c then (p.legsOf c).zip (p.nums.getD c [])
      else [(p.plotOf (v.chan c).src, (p.nums.getD c []).headD 0), (p.plotOf (v.chan c).dst, (p.nums.getD c []).getLastD 0)])).flatten }

/-- A channel between partitions routed anew: its lowest free slots, its own numbers at its ends, free ones between. -/
def routeKeep (u : Used) (a b : Nat × Nat) (old : List Nat) : Option (Used × List Nat × List Nat × List (Nat × Nat)) :=
  let (plots, links) := routeOf a b
  match takeSlots u links with
  | none => none
  | some (u, sl) =>
    (takeNums u (plots.drop 1).dropLast).map fun (u, mid) =>
      (u, plots, if plots.length ≤ 1 then old.take 1 else old.headD 0 :: mid ++ [old.getLastD 0], sl)

def routeBetween (v : Variant) : List Nat → Used → Placed → Option Placed
  | [], _, p => some p
  | c :: cs, u, p =>
    if inPart v c then routeBetween v cs u p
    else
      match routeKeep u (startSite v p.sites c) (endSite v p.sites c) (p.nums.getD c []) with
      | none => none
      | some (u, ps, ns, sl) =>
        routeBetween v cs u { p with legs := setNth p.legs c ps, nums := setNth p.nums c ns, links := setNth p.links c sl }

/-- A placement moved into rectangles; none where a route between partitions does not fit. -/
def movePlace (v : Variant) (p : Placed) (rects : List (Nat × Nat × Nat)) (u : Used) : Option Placed :=
  let q := translatePlace v p rects
  let k := keptUse v q
  routeBetween v (List.range v.chans.length) { links := k.links ++ u.links, nums := k.nums ++ u.nums } q

/-- A launch's placements, of its image and its shadow image, in other rectangles. -/
def movePlaces (s : State) (l : Launch) (rects : List (Nat × Nat × Nat)) : Option (Placed × Option (Variant × Placed)) :=
  match movePlace l.variant l.place rects (usedBy s (some l.lseq)) with
  | none => none
  | some p =>
    match l.shadow with
    | none => some (p, none)
    | some (v, q) => (movePlace v q rects { links := [], nums := [] }).map (fun q => (p, some (v, q)))

/-- The rectangles that Marten chooses for a launch's committed variant (R185). -/
def chooseFor (s : State) (l : Launch) (free : Nat → Bool) : Option (List (Nat × Nat × Nat)) :=
  chooseRects free l.hdr.diemask l.variant.parts (minePart s l.vd l.variant l.partmap) []

/-! ## Scale entries and tags (R142, R362) -/

/-- The range that holds an entry of a plot (R134). -/
def rangeAt (x : Plot) (e : Nat) : Nat × Nat :=
  match x.ranges.find? (fun r => decide (r.2.1 ≤ e) && decide (e < r.2.1 + r.2.2)) with
  | some r => r.2
  | none => (x.common, 256 - x.common)

/-- The held entries of a saved plot bound in a plot that has been reset: the new entries, and where each old one went. -/
def rebindSrf (x : Plot) : Assoc SrfEntry × Assoc Nat :=
  (x.srf.filter (fun e => decide (0 < e.2.ref))).foldl (fun (a : Assoc SrfEntry × Assoc Nat) e =>
    let (lo, n) := rangeAt x e.1
    match (List.range n).find? (fun i => !listed a.1 (lo + i)) with
    | some i => (insert a.1 (lo + i) { e.2 with gen := 1 }, insert a.2 e.1 (lo + i))
    | none => a) ([], [])

/-- A saved tag's new tag. -/
def mapTag (m : Assoc Nat) (t : Nat) : Nat :=
  if t = 0 then 0 else match lookup m (t / 16) with | some e => e * 16 + 1 | none => t

/-- The name map of the target plot. -/
def rebindNames (x : Plot) (m : Assoc Nat) : Assoc (Nat × Nat) :=
  let held := (List.range 256).filterMap (fun n => (lookup m (nameEntry x n)).map (fun e => (n, e, (16 - seenGen x n) % 15)))
  let names := (List.range 256).filter (fun n => !held.any (fun h => h.1 == n))
  let ents := (List.range 256).filter (fun e => !held.any (fun h => h.2.1 == e))
  let all := held ++ (names.zip ents).map (fun y => (y.1, y.2, 0))
  all.foldl (fun a y => if y.1 = y.2.1 ∧ y.2.2 = 0 then a else insert a y.1 (y.2.1, y.2.2)) []

def mapTok (m : Assoc Nat) (t : Token) : Token := { t with stag := mapTag m t.stag }

def mapPlane (m : Assoc Nat) (q : Plane) : Plane :=
  { q with queues := q.queues.map (fun x => (x.1, x.2.map (mapTok m)))
           accs := q.accs.map (fun a => { a with tag := mapTag m a.tag })
           block := q.block.map (mapTok m), flush := q.flush.map (fun x => { x with tag := mapTag m x.tag }) }

def mapPE (m : Assoc Nat) (x : PE) : PE :=
  { x with active := mapPlane m x.active, shadow := mapPlane m x.shadow
           retain := x.retain.map (fun r => { r with good := r.good.map (fun g => (g.1, mapTok m g.2)) })
           window := x.window.map (fun w => { w with heads := w.heads.map (fun g => (g.1, mapTok m g.2)) }) }

def mapMatrix (m : Assoc Nat) (x : Matrix) : Matrix :=
  { x with bufA := { x.bufA with tag := mapTag m x.bufA.tag }, bufB := { x.bufB with tag := mapTag m x.bufB.tag }
           retained := x.retained.map (fun v => { v with toks := v.toks.map (mapTok m) }) }

/-! ## Restoring (R185) -/

/-- Where each entry of each saved plot goes, by PLOTIX. -/
def srfMoves (l : Launch) : Assoc (Assoc Nat) := l.saved.plots.map (fun x => (x.1, (rebindSrf x.2).2))

/-- The map of the plot that held a number before the move. -/
def movesOf (l : Launch) (ms : Assoc (Assoc Nat)) (p : Nat) : Assoc Nat := lookupD ms (plotIx l.place p) []

/-- A map row in its new plot. -/
def moveRow (l : Launch) (ms : Assoc (Assoc Nat)) (new : Placed) (ix : Nat) (r : EdgeRow) : EdgeRow :=
  let src := new.plots.getD ix awayPlot
  let dst := movedPlot l.place new r.dst
  { r with dir := crossDir src dst, tag := mapTag (lookupD ms ix []) r.tag, dst := dst, dtag := mapTag (movesOf l ms r.dst) r.dtag }

/-- One plot of a launch restored: pages, which are in backing, then scale entries and what the plot holds. -/
def restorePlot (l : Launch) (ms : Assoc (Assoc Nat)) (new : Placed) (s : State) (ix : Nat) (x : Plot) : State :=
  let p := new.plots.getD ix awayPlot
  let m := lookupD ms ix []
  let y := plotOf s p
  let s := emptyScratch s p
  let s := { s with
    mem := (l.saved.scratch.filter (fun c => c.1 / 2 ^ 24 == ix)).foldl (fun a c => memPut a (scratchAddr p (c.1 % 2 ^ 24)) c.2) s.mem
    backed := (l.saved.pages.filter (fun k => k.1 / 2048 == ix)).foldl (fun a k =>
      insert a (p * 2048 + k.1 % 2048) (k.2.map (fun i => (l.vd, i)))) s.backed }
  let s := setPlot s p { x with
    holder := some l.lseq, srf := (rebindSrf x).1, names := rebindNames x m, edges := x.edges.map (moveRow l ms new ix)
    matrix := mapMatrix m x.matrix, shMatrix := mapMatrix m x.shMatrix
    evq := y.evq, evHeld := y.evHeld, rr := y.rr, yieldedSlot := y.yieldedSlot, admq := y.admq }
  (l.saved.pes.filter (fun e => e.1 / 64 == ix)).foldl (fun s e => setPe s (64 * p + e.1 % 64) (mapPE m e.2)) s

/-- The records of entries whose copies differ at the restore, and the suspicion they add (R139, R142). -/
def restoreMiscompares (l : Launch) (new : Placed) (s : State) (ix : Nat) (x : Plot) : State :=
  let p := new.plots.getD ix awayPlot
  (x.srf.filter (fun e => decide (0 < e.2.ref) && e.2.value != e.2.dup)).foldl (fun s _ =>
    addScore (raiseFault s l.lseq (.pe (64 * p) 16) (peInfo s l.lseq p 0xFFFF none 0 0x61 0 0)) (unitPlot p) 128) s

/-- A binding with the place of its thread rewritten. -/
def moveBinding (old new : Placed) : Binding → Binding
  | .stream r tid p sl c u k n => .stream r tid (movedPlot old new p) sl c u k n
  | .handle tid h p sl u => .handle tid h (movedPlot old new p) sl u

def movePort (l : Launch) (ms : Assoc (Assoc Nat)) (new : Placed) (n : Nat) (p : Port) : Port :=
  let m := movesOf l ms (l.place.plotOf n)
  { p with active := p.active.map (moveBinding l.place new), waiting := p.waiting.map (moveBinding l.place new)
           window := p.window.map (fun w => { w with stag := mapTag m w.stag })
           scales := p.scales.map (fun x => (x.1, mapTag m x.2))
           sinkQ := p.sinkQ.map (fun x => (mapTok m x.1, x.2))
           poisoned := p.poisoned.map (fun x => { x with b := moveBinding l.place new x.b }) }

/-- The tokens at the stops of a route in the plots of another of the same shape, each at the last stop of its plot. -/
def restop (old new : List Nat) (legs : List (List Token)) : List (List Token) :=
  let plots := squeeze old; let mine := squeeze new
  (List.range new.length).map (fun j =>
    if new[j]? = new[j + 1]? then []
    else
      let at_ := plots.getD (mine.idxOf (new.getD j 0)) 0
      ((legs.zip old).reverse.filter (fun x => x.2 == at_)).foldl (fun ts x => ts ++ x.1) [])

/-- A channel's tokens with their tags rewritten; on a new route they stand at its end. `stops` are its new stops. -/
def moveChan (l : Launch) (ms : Assoc (Assoc Nat)) (stops : List Nat) (k : Nat) (c : ChanSt) : ChanSt :=
  let (g, n, _) := l.replayEnd k
  let (v, p) := l.img g
  let m := movesOf l ms (p.plotOf n)
  let old := p.stopsOf (keyChan k)
  let full := ((fullLegs c.legs old.length).zip old).map (fun x => x.1.map (mapTok (movesOf l ms x.2)))
  let legs :=
    if isSelf k then []
    else if inPart v (keyChan k) then restop old stops full
    else List.replicate (stops.length - 1) [] ++ [full.getLastD []]
  { c with legs := legs, fifo := c.fifo.map (mapTok m), spill := c.spill.map (mapTok m), replay := c.replay.map (mapTok m) }

/-- The plot of the CC that issued an entry of a queue. -/
def CopyEnt.plot : CopyEnt → Nat
  | .op j => j.plot
  | .fence _ p => p

def CollEnt.plot : CollEnt → Nat
  | .op j => j.plot
  | .fence _ p => p

/-- A key of a queue moved with the die of its first entry's plot (R144, R164, R165). -/
def moveCopyKey (old new : Placed) (k : Nat) (es : List CopyEnt) : Nat :=
  match es with
  | e :: _ => copyKey (movedPlot old new e.plot) (k % 16)
  | [] => k

def moveCollKey (old new : Placed) (k : Nat) (es : List CollEnt) : Nat :=
  match es with
  | e :: _ => collQKey (movedPlot old new e.plot) (k % 16)
  | [] => k

/-- A byte's place after a move: one in the window of a plot of the launch moves with the plot (R145, R165). A source in scratch
names its plot by PLOTIX and looks there for what it held; one by virtual address goes on naming the place it named. -/
def movedPlace (old new : Placed) (a : Nat) : Nat :=
  if windowBase ≤ a ∧ a < windowEnd then
    scratchAddr (movedPlot old new ((a - windowBase) / 0x1000000)) ((a - windowBase) % 0x1000000)
  else a

def moveCopyEnt (old new : Placed) : CopyEnt → CopyEnt
  | .op j => .op { j with
      plot := movedPlot old new j.plot
      olds := if j.op.source.scratch then j.olds.foldl (fun m x => insert m (movedPlace old new x.1) x.2) [] else j.olds
      op := match j.op with
        | .tile d x dp sp f => .tile d x (movedPlot old new dp) (movedPlot old new sp) f
        | o => o }
  | .fence id p => .fence id (movedPlot old new p)

def moveCollEnt (old new : Placed) : CollEnt → CollEnt
  | .op j => .op { j with plot := movedPlot old new j.plot }
  | .fence id p => .fence id (movedPlot old new p)

/-- Queues under their new keys; queues that meet are joined in order. -/
def joinQueues {α : Type} (qs : List (Nat × List α)) : Assoc (List α) :=
  qs.foldl (fun a q => insert a q.1 (lookupD a q.1 [] ++ q.2)) []

/-- A PE's number with its plot moved. -/
def movedPe (old new : Placed) (pe : Nat) : Nat := 64 * movedPlot old new (pe / 64) + pe % 64

def moveKind (old new : Placed) : DivKind → DivKind
  | .firing pe h port => .firing (movedPe old new pe) h port
  | .unpaired pe h port => .unpaired (movedPe old new pe) h port
  | k => k

def moveHnode (old new : Placed) (h : HNode) : HNode :=
  let f := fun (e : DivEntry) => { e with kind := moveKind old new e.kind }
  { h with ring := h.ring.map f, acting := h.acting.map f }

/-- The source of a fault record that is not yet written, after a move. -/
def moveSrc (l : Launch) (new : Placed) : FSource → FSource
  | .pe pe h => .pe (movedPe l.place new pe) h
  | .copyQ die q =>
    let k := moveCopyKey l.place new (16 * die + q) (lookupD l.copyQ (16 * die + q) [])
    .copyQ (k / 16) (k % 16)
  | .collQ io q =>
    let k := moveCollKey l.place new (16 * io + q) (lookupD l.collQ (16 * io + q) [])
    .collQ (k / 16) (k % 16)
  | x => x

/-- A record that waited to be posted, after a move: its queue is where the entries behind it have moved, or with none where its
CC's plot now has it (R155, R165). -/
def moveHeld (l : Launch) (new : Placed) (e : Event) : Event :=
  let p := movedPlot l.place new e.plot
  { e with
    plot := p
    src := e.src.map (fun x => match x with
      | .copyQ die q => if (lookupD l.copyQ (16 * die + q) []).isEmpty then .copyQ (p / 32) q else moveSrc l new x
      | .collQ io q => if (lookupD l.collQ (16 * io + q) []).isEmpty then .collQ (ioOf p) q else moveSrc l new x
      | x => x) }

/-- The PLOTIX of the ring of a kept handle: that of the port bound to it. -/
def orphanIx (l : Launch) (k : Nat) : Nat :=
  let at_ := fun (b : Option Binding) => match b with
    | some (.handle tid h p _ _) => if 16 * tid + h = k then some (plotIx l.place p) else none
    | _ => none
  (l.ports.findSome? (fun p => (at_ p.2.active).orElse (fun _ => at_ p.2.waiting))).getD 0

/-- The tags stamped on a handle's slots rewritten (R371). -/
def mapHandle (m : Assoc Nat) (h : Handle) : Handle := { h with tags := h.tags.map (fun t => (t.1, mapTag m t.2)) }

/-- The launch's own account of a move. -/
def moveLaunch (s : State) (l : Launch) (ms : Assoc (Assoc Nat)) (new : Placed) (shadow : Option (Variant × Placed)) : Launch :=
  let old := l.place
  let stops := fun k => (if keyImg k = l.imgNo then new else (match shadow with | some x => x.2 | none => new)).stopsOf (keyChan k)
  { l with
    place := new, shadow := shadow, resident := true, saved := Saved.empty
    chans := l.chans.map (fun c => (c.1, moveChan l ms (stops c.1) c.1 c.2))
    ports := l.ports.map (fun p => (p.1, movePort l ms new p.1 p.2))
    hnodes := l.hnodes.map (fun h => (h.1, moveHnode old new h.2))
    orphans := l.orphans.map (fun o => (o.1, mapHandle (lookupD ms (orphanIx l o.1) []) o.2))
    fbHeld := l.fbHeld.map (fun r => { r with src := moveSrc l new r.src })
    copyQ := joinQueues (l.copyQ.map (fun q => (moveCopyKey old new q.1 q.2, q.2.map (moveCopyEnt old new))))
    collQ := joinQueues (l.collQ.map (fun q => (moveCollKey old new q.1 q.2, q.2.map (moveCollEnt old new))))
    idle := l.idle.map (fun x => (x.1, s.time)) }

/-- The participants of a launch in their queues' new places. -/
def moveParts (s : State) (l : Launch) (new : Placed) : State :=
  { s with colls := s.colls.map (fun c => (c.1, { c.2 with parts := c.2.parts.map (fun p =>
      if p.lseq = l.lseq then
        { p with key := match jobOf l p c.1 with | some j => collQKey (movedPlot l.place new j.plot) (p.key % 16) | none => p.key }
      else p) })) }

/-- The saved threads of a launch in the order they enter admission: by thread-table entry, then the tasks. -/
def savedThreads (s : State) (lseq : Nat) : List (Nat × Thread) :=
  let mine := s.threads.filter (fun x => x.2.lseq == lseq)
  let most := 65536
  (List.range most).filterMap (fun i => mine.find? (fun x => x.2.idx == some i)) ++ mine.filter (fun x => x.2.idx.isNone)

/-- The launch's threads wait at their CCs, with what was waiting there before (R16, R35). -/
def requeue (s : State) (l : Launch) (new : Placed) : State :=
  let add := fun (s : State) (ix : Nat) (a : Adm) =>
    let p := new.plots.getD ix awayPlot
    setPlot s p { plotOf s p with admq := (plotOf s p).admq ++ [a] }
  let s := (savedThreads s l.lseq).foldl (fun s x => add s (x.2.plot - 128) { lseq := l.lseq, what := .restore x.1, nreq := x.2.nreg }) s
  l.saved.plots.foldl (fun s x => x.2.admq.foldl (fun s a => add s x.1 a) s) s

/-- The records that the launch's sources hold, at the CCs of their threads' new plots (R155, R165). -/
def reholdRecords (s : State) (l : Launch) (new : Placed) : State :=
  l.saved.evHeld.foldl (fun s x =>
    let p := new.plots.getD x.1 awayPlot
    setPlot s p { plotOf s p with evHeld := (plotOf s p).evHeld ++ [moveHeld l new x.2] }) s

/-- A saved launch put into new places, in the order of R185; its configurations are loaded, and the arbiter divides the power (R232). -/
def restoreInto (s : State) (l : Launch) (new : Placed) (shadow : Option (Variant × Placed)) : State :=
  let ms := srfMoves l
  let s := l.saved.plots.foldl (fun s x => restorePlot l ms new s x.1 x.2) s
  let s := moveParts s l new
  let s := setLaunch s (moveLaunch s l ms new shadow)
  let s := l.saved.plots.foldl (fun s x => restoreMiscompares l new s x.1 x.2) s
  let s := { s with threads := s.threads.map (fun x =>
    if x.2.lseq = l.lseq then
      let m := lookupD ms (x.2.plot - 128) []
      (x.1, { x.2 with handles := x.2.handles.map (fun h => (h.1, mapHandle m h.2)) })
    else x) }
  arbitrate (rememberPlots (reholdRecords (requeue s l new) l new) l.kslot new.here)

/-- The reasons that a restore ends. -/
def unfreeze (s : State) (lseq : Nat) : State :=
  modLaunch s lseq fun l => { l with frozen := l.frozen.filter (fun f => f != .forced && f != .reloc) }

/-- The record of a restore after a lease (R198). -/
def reportRestore (s : State) (l : Launch) : State :=
  match l.leaseUnit with
  | none => s
  | some u =>
    let s := modLaunch s l.lseq fun l => { l with leaseUnit := none }
    postCap s l.lseq 7 (unitKind u) (unitId u) (plotsInService s l.vd)

/-- Where a saved launch is restored: a slice gives it its own plots again where they are free and sound; otherwise
Marten chooses as it places (R182 step 4, R185). -/
def restoreRects (s : State) (l : Launch) : Option (List (Nat × Nat × Nat)) :=
  let own := l.place.here.all (fun p => freePlot s l.vd p)
  if own && l.leaseUnit.isNone then some l.place.rects else chooseFor s l (freePlot s l.vd)

/-- Whether a launch's device has its slice, so that it may be restored. -/
def sliceOn (s : State) (vd : Nat) : Bool := match vdOf s vd with | some d => d.sliceOn | none => false

/-- A saved launch that may run, restored once rectangles are free and sound and its routes fit (R185). -/
def restoreNow (s : State) (l : Launch) : State :=
  if l.resident || l.frozen.elem .slice || !sliceOn s l.vd then s
  else
    match (restoreRects s l).bind (fun r => movePlaces s l r) with
    | none => s
    | some (p, sh) => reportRestore (unfreeze (restoreInto s l p sh) l.lseq) l

/-- RESTORE (R185): a saved launch is restored. -/
def execRestore (lseq : Nat) (s : State) : Out :=
  match launchOf s lseq with
  | none => .next s
  | some l => .next (restoreNow s l)

/-! ## Pre-emption (R182, R216) -/

/-- Whether a launch that its slice brings back stands in the shadow planes of its own plots, which a frozen one leaves: neither
of the two holds a shadow image of its own (R216, R321). -/
def preloaded (s : State) (l out : Launch) : Bool :=
  !l.resident && l.vd != out.vd && sliceOn s l.vd && l.shadow.isNone && l.leaseUnit.isNone && l.place.here.any out.place.here.elem

/-- Step 4 of R182: the frozen buffer set leaves the active planes, and the next context becomes active in the same cycle. Whether
the shadow planes hold it is free (log 67). -/
def nextContext (s : State) (out : Launch) : State :=
  let next := s.launches.filter (fun x => preloaded s x.2 out)
  let held := Config.freeBit s.free
  let s := { s with free := s.free + 1 }
  if held then next.foldl (fun s x => ((launchOf s x.1).map (restoreNow s)).getD s) (saveLaunch s out) else s

/-- PREEMPTION (R182): the requests made for a launch are carried out: it is frozen, and at the end of its slice the next context
may take its plots at once. -/
def execPreemption (lseq : Nat) (s : State) : Out :=
  match launchOf s lseq with
  | none => .next s
  | some l =>
    if l.asked.isEmpty then .next s
    else
      let s := freezeLaunch s l l.asked
      match launchOf s lseq with
      | some l => if l.frozen.elem .slice && l.shadow.isNone && l.swap.isNone then .next (nextContext s l) else .next s
      | none => .next s

/-! ## Relocation (R185) -/

/-- A running launch moved into rectangles of plots that satisfy `free`; none where they or the routes do not fit. -/
def relocate (s : State) (l : Launch) (free : Nat → Bool) : Option State :=
  match (chooseFor s l free).bind (fun r => movePlaces s l r) with
  | none => none
  | some (p, sh) =>
    let s := freezeLaunch s l [.reloc]
    (launchOf s l.lseq).bind fun l =>
      let s := saveLaunch s l
      (launchOf s l.lseq).map (fun l => unfreeze (restoreInto s l p sh) l.lseq)

/-- RELOCATION (R185): Marten moves a launch for its own purposes, where rectangles and routes fit. -/
def execRelocation (lseq : Nat) (s : State) : Out :=
  match launchOf s lseq with
  | none => .next s
  | some l => if l.runs && l.swap.isNone then .next ((relocate s l (freePlot s l.vd)).getD s) else .next s

end Sys2Proof.Machine
end

