-- ==== Sys2Proof/Machine/Secure.lean ====
section
/-!
DEFINITION. Engagements, receipts, range monitors and their logs (10_sharing_the_device.md R220 to R229).
-/
namespace Sys2Proof.Machine

/-! ## Engagements (R221) -/

def putSlot (s : State) (k : Nat) (x : KeySlot) : State := { s with slots := insert s.slots k x }

def setVd (s : State) (v : Nat) (x : VD) : State := { s with vds := insert s.vds v x }

/-- The epoch after an open: 2^22 − 1 is followed by 1 (R220). -/
def nextEpoch (e : Nat) : Nat := if e = 2 ^ 22 - 1 then 1 else e + 1

/-- OP 1 of ENGCTL: open a closed slot, or join an engagement its owner has granted (R221). -/
def engOpen (s : State) (v : Nat) (vd : VD) (k : Nat) : Option State :=
  let x := slotOf s k
  match x.st with
  | .closed =>
    let e := nextEpoch x.epoch
    some (setVd (putSlot s k { st := .opened, epoch := e, engid := engOf k e, owner := v, joined := [], granted := [],
                               openAt := s.time, closeAt := 0, holders := [], frames := [], plots := [], backs := [], rings := [] })
      v { vd with engid := engOf k e })
  | .opened =>
    if x.granted.elem v then
      some (setVd (putSlot s k { x with joined := addNat x.joined v }) v { vd with engid := x.engid })
    else none
  | .scrubbing => none

/-- Ascending ranges of (address, length) with adjacent ones merged: address, length, and how many make it up (R226). -/
def mergeRanges : List (Nat × Nat) → List (Nat × Nat × Nat)
  | [] => []
  | (a, n) :: rs =>
    match mergeRanges rs with
    | (b, m, k) :: rest => if b = a + n then (a, n + m, k + 1) :: rest else (a, n, 1) :: (b, m, k) :: rest
    | [] => [(a, n, 1)]

/-- A range entry of a receipt (R226). -/
def rangeBytes (kind count base len : Nat) : List Byte :=
  natBytes 1 kind ++ natBytes 3 0 ++ natBytes 4 count ++ natBytes 8 base ++ natBytes 8 len

/-- Bytes followed by both signatures of the module identity keys over them (R197). -/
def signed (b : List Byte) : List Byte := b ++ natBytes 96 (Config.ecdsa b) ++ natBytes 3284 (Config.hss b)

/-- The frames, backing pages and spill segments of a slot as range entries: KIND, COUNT, BASE and LENGTH (R226). -/
def memoryRanges (x : KeySlot) : List (Nat × Nat × Nat × Nat) :=
  let of := fun (kind : Nat) (rs : List (Nat × Nat)) => (mergeRanges rs).map (fun r => (kind, r.2.2, r.1, r.2.1))
  of 1 (x.frames.map (fun f => (65536 * f, 65536))) ++ of 2 x.backs ++ of 3 x.rings

/-- A receipt (R226). Plots come first, then frames, backing pages and spill segments. -/
def receiptBytes (x : KeySlot) (done nsrf npage nline : Nat) : List Byte :=
  let rs := memoryRanges x
  let body := natBytes 4 0x3143524B ++ natBytes 2 1 ++ natBytes 2 0 ++ natBytes 4 x.engid ++ natBytes 1 x.owner
    ++ natBytes 3 0 ++ natBytes 8 x.openAt ++ natBytes 8 x.closeAt ++ natBytes 8 done ++ natBytes 16 Config.modid
    ++ natBytes 4 (x.plots.length + rs.length) ++ natBytes 4 x.plots.length ++ natBytes 4 nsrf ++ natBytes 4 npage
    ++ natBytes 8 nline ++ natBytes 8 (rs.foldl (fun n r => n + r.2.2.2) 0) ++ natBytes 8 0
    ++ (x.plots.map fun p => rangeBytes 0 1 p 0).flatten
    ++ (rs.map fun r => rangeBytes r.1 r.2.1 r.2.2.1 r.2.2.2).flatten
  signed body

/-- Ranges of DRAM zeroed: their bytes, their poison and their key tags are gone, and earlier stores there come before (R225, R85). -/
def zeroRanges (s : State) (rs : List (Nat × Nat)) : State :=
  let s := rs.foldl (fun s r => landStores s r.1 r.2) s
  { s with
    mem := s.mem.filter (fun c => !inRanges rs c.1)
    poison := s.poison.filter (fun c => !inRanges rs (32 * c.1))
    keytags := s.keytags.filter (fun c => !inRanges rs (32 * c.1)) }

/-- The most receipts IOA keeps (R225). -/
def receiptCap : Nat := 4096

/-- The plots that step 3 of R225 clears: those that a launch of the slot has held since the open, and no other launch holds now. -/
def clearedPlots (s : State) (k : Nat) : List Nat :=
  (slotOf s k).plots.filter (fun p => match (plotOf s p).holder.bind (launchOf s) with | some l => l.kslot == k | none => true)

/-- The close of an engagement, in the order of R225: the slot scrubs, its launches end, their plots are cleared, the
frames are zeroed, the key is destroyed, and the receipt is signed. What NSRF and NPAGE count is not said: the model counts the 256
entries of every plot that step 3 clears, and of their scratch pages those that have been touched (DESIGN CHOICE, log 29). -/
def scrub (s : State) (k : Nat) (quiet : Bool) : State :=
  let x := slotOf s k
  let x := { x with st := .scrubbing, closeAt := s.time, holders := x.owner :: x.joined }
  let s := putSlot s k x
  let ls := (s.launches.filter (fun l => l.2.kslot == k)).map (·.1)
  let mine := clearedPlots s k
  let npage := (s.pages.filter (fun t => mine.elem (t.1 / 2048))).length
  let s := ls.foldl (fun s l => endLaunch s l 0 0 quiet) s
  let s := zeroRanges s (x.frames.map (fun f => (65536 * f, 65536)) ++ x.backs ++ x.rings)
  let s := putSlot s k { x with st := .closed, joined := [], granted := [], frames := [], plots := [], backs := [], rings := [] }
  let r : Receipt := { engid := x.engid,
                       bytes := receiptBytes x s.time (256 * mine.length) npage (Config.freeNat s.free) }
  { s with free := s.free + 1
           receipts := (s.receipts ++ [r]).drop ((s.receipts.length + 1) - receiptCap) }

/-- OP 2 of ENGCTL: close an owned engagement, or withdraw from a joined one (R221). -/
def engClose (s : State) (v : Nat) (vd : VD) (k : Nat) : Option State :=
  let x := slotOf s k
  if x.st = .opened ∧ x.owner = v then
    some (scrub (setVd s v { vd with engid := x.engid }) k false)
  else if x.st = .opened ∧ x.joined.elem v then
    some (setVd (putSlot s k { x with joined := x.joined.filter (· != v) }) v { vd with engid := x.engid })
  else none

/-- OP 3 of ENGCTL: the owner lets PEER join (R221). -/
def engGrant (s : State) (v : Nat) (k peer : Nat) : Option State :=
  let x := slotOf s k
  if x.st = .opened ∧ x.owner = v ∧ peer ≠ v then some (putSlot s k { x with granted := addNat x.granted peer })
  else none

/-- A write of `sys.ENGCTL`: none where it traps with KEY_SLOT and changes nothing (R221). -/
def engctlWrite (s : State) (v : Nat) (vd : VD) (w : Nat) : Option State :=
  let k := fld w 9 0
  let peer := fld w 23 20
  let vd' := { vd with slot := k, peer := peer }
  match fld w 31 30 with
  | 0 => some (setVd s v vd')
  | 1 => engOpen s v vd' k
  | 2 => engClose s v vd' k
  | _ => engGrant (setVd s v vd') v k peer

/-! ## Monitors (R227 to R229) -/

/-- A log record (R228). -/
def logRec (first last count granule mon kind lseq : Nat) : Nat :=
  lseq % 2 ^ 32 + kind % 4 * 2 ^ 50 + mon % 16 * 2 ^ 52 + granule % 2 ^ 40 * 2 ^ 56 + count % 2 ^ 32 * 2 ^ 96
    + last % 2 ^ 64 * 2 ^ 128 + first % 2 ^ 64 * 2 ^ 192

/-- Records of a full block (R229). -/
def blockRecs : Nat := 404

def logOf (vd : VD) (mon : Nat) : MonLog := lookupD vd.monlogs mon MonLog.empty
def setLog (vd : VD) (mon : Nat) (l : MonLog) : VD := { vd with monlogs := insert vd.monlogs mon l }

/-- The window of a record: that of its FIRST (R228). -/
def windowOf (r : Nat) : Nat := winOf (r / 2 ^ 192)

/-- The bytes of a sealed block of given records (R229). The windows that START and END name, where time has sealed the block, are not
said: the model takes those of the first and the last record it holds (DESIGN CHOICE, log 109). -/
def blockBytes (v mon : Nat) (l : MonLog) (recs : List Nat) : List Byte :=
  let body := natBytes 4 0x31474C4B ++ natBytes 2 1 ++ natBytes 1 v ++ natBytes 1 mon ++ natBytes 4 l.next
    ++ natBytes 2 recs.length ++ natBytes 2 0 ++ natBytes 8 (windowOf (recs.headD 0) * 1000000)
    ++ natBytes 8 (windowOf (recs.getLastD 0) * 1000000 + 999999)
    ++ natBytes 16 Config.modid ++ natBytes 8 l.prev ++ natBytes 8 0
    ++ (recs.map (natBytes 32)).flatten ++ natBytes (32 * (blockRecs - recs.length)) 0
  signed body ++ natBytes 12 0

/-- Where the store of a device is full, a block that the host has fetched makes room: the first of the first monitor that
has one (log 101). -/
def makeRoom (vd : VD) : VD :=
  if storeFull vd then
    match vd.monlogs.find? (fun l => !l.2.fetched.isEmpty) with
    | some (mon, l) =>
      setLog vd mon { l with blocks := remove l.blocks (l.fetched.headD 0), fetched := l.fetched.tail }
    | none => vd
  else vd

/-- The open block of a monitor sealed: it joins the store. Records that waited for room open the next block. -/
def sealBlock (time v mon : Nat) (vd : VD) : VD :=
  let vd := makeRoom vd
  let l := logOf vd mon
  let b := blockBytes v mon l (l.recs.take blockRecs)
  setLog vd mon { l with blocks := insert l.blocks l.next b, next := l.next + 1, prev := Config.sha384 b % 2 ^ 64
                         recs := l.recs.drop blockRecs, openAt := time }

/-- A record appended to a monitor's open block. A full block is sealed, or waits with the records after it while no block
of the store may be overwritten (R229). -/
def appendRec (time v mon : Nat) (vd : VD) (r : Nat) : VD :=
  let l := logOf vd mon
  let vd := setLog vd mon { l with recs := l.recs ++ [r], openAt := if l.recs.isEmpty then time else l.openAt }
  if blockRecs ≤ l.recs.length + 1 ∧ logFull vd = false then sealBlock time v mon vd else vd

/-- The end of a window for one monitor: a record for each granule and kind it touched, ascending, reads before writes
(R228). Windows that have ended since are taken together, in order. -/
def closeWindow (time v mon : Nat) (vd : VD) : VD :=
  let l := logOf vd mon
  let now := winOf time
  let old := l.touches.filter (fun t => decide (t.1 / 2 ^ 41 < now))
  old.foldl (fun vd t =>
    let (f, la, c, q) := t.2
    appendRec time v mon vd (logRec f la c (t.1 % 2 ^ 41 / 2) mon (t.1 % 2) q))
    (setLog vd mon { l with touches := l.touches.filter (fun t => decide (now ≤ t.1 / 2 ^ 41)) })

/-- MONITOR_WINDOW_END (R228): one monitor's records of ended windows are appended. With no such record, or no such
monitor, nothing happens. -/
def execMonitorWindowEnd (v mon : Nat) (s : State) : Out :=
  match vdOf s v with
  | none => .next s
  | some vd =>
    match lookup vd.monlogs mon with
    | none => .next s
    | some _ => .next (setVd s v (closeWindow s.time v mon vd))

/-- LOG_BLOCK_SEAL (R229): a block that is full, or that a second has passed over, is sealed, unless the store is full of
blocks that no host has fetched. When a block is opened, and whether one without records is sealed, is not said: the model opens it at
its first record, or with records that waited at the seal before, and seals none without records (DESIGN CHOICE, log 109). -/
def execLogBlockSeal (v mon : Nat) (s : State) : Out :=
  match vdOf s v with
  | none => .next s
  | some vd =>
    match lookup vd.monlogs mon with
    | none => .next s
    | some l =>
      if l.recs.isEmpty ∨ (s.time < l.openAt + 1000000000 ∧ l.recs.length < blockRecs) ∨ logFull vd then .next s
      else .next (setVd s v (sealBlock s.time v mon vd))

def Monitor.off : Monitor :=
  { base := 0, en := false, limit := 0, nbase := 0, nen := false, nlimit := 0, win := 0 }

/-- A write of `sys.RMBASE` or `sys.RMLIM` of the selected monitor: it takes effect at the next window boundary and
appends a record of KIND 2, with the new BASE and EN (R227, R228). -/
def monitorWrite (s : State) (v : Nat) (vd : VD) (lseq : Nat) (lim : Bool) (w : Nat) : State :=
  let now := winOf s.time
  let m := (lookupD vd.mons vd.rmsel Monitor.off).settled now
  let m := if lim then { m with nlimit := fld w 55 16, win := now }
           else { m with nbase := fld w 55 16, nen := w % 2 = 1, win := now }
  let r := logRec s.time s.time (if m.nen then 1 else 0) m.nbase vd.rmsel 2 lseq
  let d := appendRec s.time v vd.rmsel (closeWindow s.time v vd.rmsel vd) r
  setVd s v { d with mons := insert d.mons vd.rmsel m }

end Sys2Proof.Machine
end

