-- ==== Sys2Proof/Machine/Sys.lean ====
section
/-!
DEFINITION. System instructions (13_control_instructions.md R289 to R295) and every system register (R24 to R27, R89,
R95, R117, R151, R168, R181, R219, R221, R227, R279, R306, R371). The rows of the table that name a write of one
register (ENGAGEMENT_OPEN to MONITOR_CONFIG_WRITE) are definitions of their own over the same operations.
-/
namespace Sys2Proof.Machine

/-! ## Register numbers, levels and values -/

inductive Level | u | s
  deriving DecidableEq, Repr

/-- Read level and write level of an assigned system register; a write level of none has no writable field (R24). -/
def srLevels (n : Nat) : Option (Level × Option Level) :=
  if n = 0x000 then some (.u, none)
  else if n = 0x001 then some (.u, some .u)
  else if n = 0x002 then some (.u, none)
  else if n = 0x003 then some (.u, some .s)
  else if n ≤ 0x006 then some (.s, some .s)
  else if n = 0x007 then some (.u, some .s)
  else if n = 0x008 then some (.s, some .s)
  else if n = 0x009 then some (.u, none)
  else if n = 0x00A then some (.s, some .s)
  else if n = 0x00B then some (.s, none)
  else if n = 0x00C then some (.u, some .u)
  else if n ≤ 0x010 then some (.u, none)
  else if n ≤ 0x017 then some (.s, some .s)
  else if n ≤ 0x01A then some (.u, some .s)
  else if n = 0x01B then some (.u, none)
  else if n < 0x020 then none
  else if n ≤ 0x02F then some (.u, none)
  else if n ≤ 0x03F then some (.u, some .u)
  else none

def b2n (b : Bool) : Nat := if b then 1 else 0

/-- `sys.STATUS` (R25). -/
def statusWord (t : Thread) : Nat := b2n t.mode + 2 * b2n t.pmode + 4 * b2n t.intrap

/-- `sys.THREAD` (R26). A plot's number is die × 32 + py × 4 + px (R86). -/
def threadWord (t : Thread) (vd : Nat) : Nat :=
  vd % 16 + t.slot % 8 * 2 ^ 8 + t.plot % 32 / 4 * 2 ^ 17 + t.plot % 4 * 2 ^ 20 + t.plot / 32 * 2 ^ 22 + t.nreg * 2 ^ 32

/-- `sys.FBSTAT` (R168). -/
def fbstatWord (l : Launch) : Nat := l.fbHead + l.fbTail * 2 ^ 32 + b2n l.fbOvf * 2 ^ 63

/-- `sys.HSTh` (R306). -/
def hstWord : Option Handle → Nat
  | none => 0
  | some h => (h.tail + 2 ^ 32 - h.head) % 2 ^ 32 % 2 ^ 11 + h.log2n * 2 ^ 11 + b2n h.div.isSome * 2 ^ 28
      + b2n h.eos * 2 ^ 29 + b2n h.dirOut * 2 ^ 30 + 2 ^ 31 + h.head * 2 ^ 32

/-- The value MFS reads; reserved bits read zero (R289). -/
def srRead (s : State) (t : Thread) (n : Nat) : Nat :=
  let l := launchOf s t.lseq
  let vd := (l.map (·.vd)).getD 0
  let v := vdOf s vd
  let lf := fun (f : Launch → Nat) => (l.map f).getD 0
  let vf := fun (f : VD → Nat) => (v.map f).getD 0
  if n = 0x000 then s.time % 2 ^ 64
  else if n = 0x001 then t.tcmp.toNat
  else if n = 0x002 then threadWord t vd
  else if n = 0x003 then statusWord t
  else if n = 0x004 then t.epc.toNat
  else if n = 0x005 then t.cause
  else if n = 0x006 then t.tval.toNat
  else if n = 0x007 then t.tvec.toNat
  else if n = 0x008 then t.scratch.toNat
  else if n = 0x009 then lf (·.pkeys.toNat)
  else if n = 0x00A then lf fbstatWord
  else if n = 0x00B then vf (fun x => x.ptbase / 65536 % 2 ^ 36 * 65536)
  else if n = 0x00C then lf (fun x => lookupD x.aflags (partOf x t.plot) 0)
  else if n ≤ 0x010 then t.pend.getD (n - 0x00D) 0
  else if n = 0x011 then lf (·.fbbase.toNat)
  else if n = 0x012 then lf (·.owlint)
  else if n = 0x013 then vf (fun x => x.slot + x.peer * 2 ^ 20 + x.engid * 2 ^ 32)
  else if n = 0x014 then vf (·.qmask)
  else if n = 0x015 then vf (·.rmsel)
  else if n = 0x016 then vf (fun x =>
    let m := lookupD x.mons x.rmsel Monitor.off; b2n m.nen + m.nbase * 2 ^ 16)
  else if n = 0x017 then vf (fun x => (lookupD x.mons x.rmsel Monitor.off).nlimit * 2 ^ 16)
  else if n = 0x018 then t.lstart.toNat
  else if n = 0x019 then t.lend.toNat
  else if n = 0x01A then t.lcount.toNat
  else if n = 0x01B then t.glseq
  else if n ≤ 0x02F then hstWord (lookup t.handles (n - 0x020))
  else lookupD t.htags (n - 0x030) 0

/-- The ring's size in records: 16 × 2^LOG2N (R168). -/
def ringSize (fbbase : Word) : Nat := 16 * 2 ^ (fbbase.toNat % 16)

/-- A new value of `sys.FBBASE`: LOG2N above 12 traps (R168). -/
def fbbaseWrite (l : Launch) (w : Nat) : Option Launch :=
  if 12 < w % 16 then none else some { l with fbbase := BitVec.ofNat 64 (fld w 55 12 * 4096 + w % 16) }

/-- A write of `sys.FBSTAT`: OVF is cleared by 1, HEAD is written, TAIL stands; a HEAD that would make TAIL − HEAD
exceed the ring's size traps (R168). -/
def fbstatSet (l : Launch) (w : Nat) : Option Launch :=
  let h := fld w 23 0
  if ringSize l.fbbase < (l.fbTail + 2 ^ 24 - h) % 2 ^ 24 then none
  else some { l with fbHead := h, fbOvf := if fld w 63 63 = 1 then false else l.fbOvf }

/-- Records that have become held set OVF no more once a supervisor has cleared it: they are marked held already. -/
def mapLaunch (s : State) (lseq : Nat) (f : Launch → Option Launch) : Option State :=
  match launchOf s lseq with
  | some l => (f l).map (setLaunch s)
  | none => some s

/-- The effect of MTS on a per-thread register (R24, R25, R27, R279, R371). -/
def threadWrite (t : Thread) (n : Nat) (v : Word) : Thread :=
  if n = 0x001 then { t with tcmp := v }
  else if n = 0x003 then { t with pmode := v.getLsbD 1, intrap := v.getLsbD 2 }
  else if n = 0x004 then { t with epc := v &&& ~~~3#64 }
  else if n = 0x005 then { t with cause := v.toNat % 256 }
  else if n = 0x006 then { t with tval := v }
  else if n = 0x007 then { t with tvec := v &&& ~~~3#64 }
  else if n = 0x008 then { t with scratch := v }
  else if n = 0x018 then { t with lstart := v &&& ~~~3#64 }
  else if n = 0x019 then { t with lend := v &&& ~~~3#64 }
  else if n = 0x01A then { t with lcount := v }
  else { t with htags := insert t.htags (n - 0x030) (v.toNat % 4096) }

/-- Whether a register is per-thread and writable. -/
def isThreadReg (n : Nat) : Bool :=
  n == 1 || (decide (3 ≤ n) && decide (n ≤ 8)) || (decide (0x018 ≤ n) && decide (n ≤ 0x01A)) || decide (0x030 ≤ n)

/-- The effect of MTS on a register of the context or device: the next state, or the cause and TVAL of a trap. -/
def sharedWrite (s : State) (t : Thread) (n : Nat) (v : Word) : Except (Nat × Nat) State :=
  let w := v.toNat
  let vd := (launchOf s t.lseq).elim 0 (·.vd)
  let viaLaunch := fun f => match mapLaunch s t.lseq f with | some s => Except.ok s | none => Except.error (0x06, n)
  match vdOf s vd with
  | none => .ok s
  | some x =>
    if n = 0x00A then viaLaunch (fun l => fbstatSet l w)
    else if n = 0x00C then
      viaLaunch (fun l =>
        let p := partOf l t.plot
        let f := lookupD l.aflags p 0
        some { l with aflags := insert l.aflags p (f - (f &&& (w % 64))) })
    else if n = 0x011 then viaLaunch (fun l => fbbaseWrite l w)
    else if n = 0x012 then viaLaunch (fun l => some { l with owlint := w % 2 ^ 40 })
    else if n = 0x013 then
      match engctlWrite s vd x w with
      | some s => .ok s
      | none => .error (0xC0, fld w 9 0)
    else if n = 0x014 then .ok (setVd s vd { x with qmask := w % 2 ^ 16 })
    else if n = 0x015 then .ok (setVd s vd { x with rmsel := w % 16 })
    else .ok (monitorWrite s vd x t.lseq (n == 0x017) w)

/-! ## MFS and MTS (R289) -/

/-- Checks 5 and 7 of R253 for a read. For SYSREG_ACCESS `sys.TVAL` holds the register number, as R30's table and R289 say; R269, which
gives the first word for its list and refers to R30, is read as leaving R30's row as it stands (DEDUCED, log 112). -/
def readCheck (t : Thread) (n : Nat) (i : Instr) : Option (Nat × Word) :=
  match srLevels n with
  | none => some (0x06, BitVec.ofNat 64 n)
  | some (r, _) => if r = .s ∧ t.mode = false then some (0x05, wordOf i) else none

/-- The capability a write needs (R218): bit 1 for ENGCTL, bit 2 for the monitor registers. -/
def capOk (s : State) (t : Thread) (n : Nat) : Bool :=
  let caps := ((launchOf s t.lseq).bind (fun l => vdOf s l.vd)).elim 0 (·.caps)
  if n = 0x013 then caps / 2 % 2 == 1
  else if 0x015 ≤ n ∧ n ≤ 0x017 then caps / 4 % 2 == 1
  else true

/-- Checks 5, 6 and 7 of R253 for a write, with the TVAL of `readCheck` (DEDUCED, log 112). -/
def writeCheck (s : State) (t : Thread) (n : Nat) (i : Instr) : Option (Nat × Word) :=
  match srLevels n with
  | none => some (0x06, BitVec.ofNat 64 n)
  | some (_, none) => some (0x06, BitVec.ofNat 64 n)
  | some (_, some l) =>
    if l = .s ∧ t.mode = false then some (0x05, wordOf i)
    else if capOk s t n = false then some (0xC2, wordOf i)
    else none

/-- MFS. -/
def execMfs (d : Reg) (sr : BitVec 12) (s : State) : Out :=
  instr [d] s fun tid t =>
    match readCheck t sr.toNat (.mfs d sr) with
    | some (c, v) => .next (trap s tid t c t.pc v)
    | none => done s tid (t.setG d (BitVec.ofNat 64 (srRead s t sr.toNat))) (.mfs d sr)

/-- Whether a write is an MTS to sys.ENGCTL that opens or closes an engagement: a release at scope 4 (R221). -/
def opensOrCloses (n w : Nat) : Bool := n == 0x013 && (fld w 31 30 == 1 || fld w 31 30 == 2)

/-- A write of a system register by the current thread. -/
def sysWrite (sr : BitVec 12) (a : Reg) (s : State) : Out :=
  instr [a] s fun tid t =>
    let i := Instr.mts sr a
    match writeCheck s t sr.toNat i with
    | some (c, v) => .next (trap s tid t c t.pc v)
    | none =>
      if isThreadReg sr.toNat then done s tid (threadWrite t sr.toNat (t.g a)) i
      else
        match sharedWrite s t sr.toNat (t.g a) with
        | .error (c, v) => .next (trap s tid t c t.pc (BitVec.ofNat 64 v))
        | .ok s' =>
          let s' := if opensOrCloses sr.toNat (t.g a).toNat then showStores s' tid 4 else s'
          match threadOf s' tid with
          | some t' => done s' tid t' i
          | none => .next s'

/-- MTS. -/
def execMts (sr : BitVec 12) (a : Reg) (s : State) : Out := sysWrite sr a s

/-! The rows that name one register's write: the thread's MTS of that register. A row whose OP field the register does
not carry is that MTS all the same, since the OP is in the word (R221). -/

def execEngagementOpen (a : Reg) (s : State) : Out := sysWrite 0x013#12 a s
def execEngagementClose (a : Reg) (s : State) : Out := sysWrite 0x013#12 a s
def execEngagementGrant (a : Reg) (s : State) : Out := sysWrite 0x013#12 a s
def execEngctlSet (a : Reg) (s : State) : Out := sysWrite 0x013#12 a s
def execFbstatWrite (a : Reg) (s : State) : Out := sysWrite 0x00A#12 a s
def execVdqmaskWrite (a : Reg) (s : State) : Out := sysWrite 0x014#12 a s
def execMonitorConfigWrite (sr : BitVec 12) (a : Reg) (s : State) : Out := sysWrite sr a s

/-! ## TRAP, RETT, WFE, GETEV, WRPK, MTT -/

/-- TRAP e (R290): EPC already points past it. -/
def execTrap (e : BitVec 16) (s : State) : Out :=
  instr [] s fun tid t => .next (trap s tid t 0x01 (t.pc + 4#64) (e.setWidth 64))

/-- RETT (R31, R291). -/
def execRett (s : State) : Out :=
  instr [] s fun tid t =>
    if t.mode = false then .next (trap s tid t 0x05 t.pc (wordOf .rett))
    else .next (setThread s tid t.ret)

/-- WFE (R292). -/
def execWfe (s : State) : Out :=
  instr [] s fun tid t => if wfeDone s tid t then done s tid t .wfe else wait s tid t .wfe

/-- The first record for a thread removed from its CC's queue. -/
def takeEvent (q : List EvEntry) (tid : Nat) : Option (EvEntry × List EvEntry) :=
  match q with
  | [] => none
  | r :: rest =>
    if r.tid = tid then some (r, rest)
    else match takeEvent rest tid with
      | some (x, rest') => some (x, r :: rest')
      | none => none

/-- The four registers that receive a record (R293). -/
def Thread.setRecord (t : Thread) (d : Reg) (bits : Nat) : Thread :=
  (((t.setG d (BitVec.ofNat 64 bits)).setG (regUp d 1) (BitVec.ofNat 64 (bits / 2 ^ 64))).setG (regUp d 2)
    (BitVec.ofNat 64 (bits / 2 ^ 128))).setG (regUp d 3) (BitVec.ofNat 64 (bits / 2 ^ 192))

/-- GETEV (R293). -/
def execGetev (p : Pred) (d : Reg) (s : State) : Out :=
  instr [d] s fun tid t =>
    match takeEvent (plotOf s t.plot).evq tid with
    | some (r, rest) =>
      done (setPlot s t.plot { plotOf s t.plot with evq := rest }) tid ((t.setRecord d r.bits).setP p true) (.getev p d)
    | none => done s tid (t.setP p false) (.getev p d)

/-- WRPK (R294). -/
def execWrpk (a : Reg) (s : State) : Out :=
  instr [a] s fun tid t =>
    let s := showStores s tid 3
    match launchOf s t.lseq with
    | some l => done (setLaunch s { l with pkeys := t.g a }) tid t (.wrpk a)
    | none => done s tid t (.wrpk a)

/-- MTT (R295). -/
def execMtt (n : BitVec 5) (a : Reg) (s : State) : Out :=
  instr [a] s fun tid t =>
    withChecked (loadBlock s (threadCtx s t) (t.g a).toNat 64 64) tid t fun s v =>
      let x := plotOf s t.plot
      done (setPlot s t.plot { x with tiles := insert x.tiles n.toNat (tileMask (BitVec.ofNat 512 v)) }) tid t (.mtt n a)

end Sys2Proof.Machine
end

