-- ==== Sys2Proof/Machine/Faults.lean ====
section
/-!
DEFINITION. The fault buffer and Owl (07_faults_and_preemption.md R167 to R169, R181; 21 R403; 01 R32): records written
at TAIL or held at their sources, and the freeze of a launch in which nothing has moved.
-/
namespace Sys2Proof.Machine

/-! ## The fault buffer (R168, R169) -/

/-- Whether the ring has no place left: TAIL − HEAD, mod 2^24, is its size. -/
def ringFull (l : Launch) : Bool := decide (ringSize l.fbbase ≤ (l.fbTail + 2 ^ 24 - l.fbHead) % 2 ^ 24)

/-- Where the record numbered TAIL lies. -/
def recordAddr (l : Launch) : Nat := fld l.fbbase.toNat 55 12 * 4096 + 32 * (l.fbTail % ringSize l.fbbase)

/-- The records that wait become held, the first of them setting OVF; OVF from 0 to 1 posts FB_FULL (R169). -/
def holdRecords (s : State) (l : Launch) : State :=
  if l.fbHeld.all (·.held) then s
  else
    let s := setLaunch s { l with fbHeld := l.fbHeld.map (fun r => { r with held := true }), fbOvf := true }
    if l.fbOvf then s else post s (zeroRecord s l 6 0 0#64)

/-- A record written and TAIL advanced; a launch whose DOUBLE_TRAP record has been written ends as FAULTED (R32). -/
def recordWritten (s : State) (l : Launch) (r : FRec) : State :=
  let s := setLaunch s { l with fbTail := (l.fbTail + 1) % 2 ^ 24, fbHeld := l.fbHeld.tail }
  match r.src with
  | .thread _ => endLaunch s l.lseq 7 9 false
  | _ => s

/-- FAULT_RECORD_WRITE (R169): the oldest record of a launch is written, or it and those behind it are held. -/
def execFaultRecordWrite (lseq : Nat) (s : State) : Out :=
  match launchOf s lseq with
  | none => .next s
  | some l =>
    match l.fbHeld with
    | [] => .next s
    | r :: _ =>
      if ringFull l then .next (holdRecords s l)
      else
        match storeVA s (martenCtx l.vd) (recordAddr l) 32 32 r.bits with
        | (s, .ok _) => .next (recordWritten s l r)
        | (s, _) => .next (holdRecords s l)

/-! ## Owl (R181) -/

/-- The tokens of a channel: in its port queue, in its FIFO, and in its spill ring and on its links. -/
structure ChanMap where
  queue : List Token
  fifo  : List Token
  moved : List Token
  deriving DecidableEq, Repr

def chanMap (s : State) (l : Launch) (k : Nat) : ChanMap :=
  let (v, p) := l.img (keyImg k)
  let c := keyChan k
  let st := l.chanSt k
  let dst := (v.chan c).dst
  { queue := if p.plotOf dst = awayPlot then [] else ((peOf s (p.peOf dst)).planeOf (keyImg k)).queue (v.dstPort c)
    fifo := st.fifo
    moved := st.spill ++ st.legs.getLastD [] ++ st.ckpt.map (·.1) ++ st.legs.dropLast.reverse.flatten ++ st.recv.map (·.1) }

def ChanMap.all (m : ChanMap) : List Token := m.queue ++ m.fifo ++ m.moved

/-- The channels of a launch: those of its image, and those of its shadow image. -/
def chanKeys (l : Launch) : List Nat :=
  (List.range l.variant.chans.length).map (chanKey l.imgNo) ++
  (match l.shadow with
   | some (v, _) => (List.range v.chans.length).map (chanKey l.shNo)
   | none => [])

/-- The partition of the plot that holds a channel's consumer. -/
def chanPart (l : Launch) (k : Nat) : Nat :=
  let (v, _) := l.img (keyImg k)
  (v.node (v.chan (keyChan k)).dst).part

/-- Whether a token of a channel lies in a partition: with its consumer, or at a stop in one of the partition's plots. -/
def chanIn (s : State) (l : Launch) (part k : Nat) : Bool :=
  let (v, p) := l.img (keyImg k)
  let m := chanMap s l k
  (chanPart l k == part && !(m.queue.isEmpty && m.fifo.isEmpty && (l.chanSt k).spill.isEmpty && (l.chanSt k).ckpt.isEmpty &&
    (l.chanSt k).recv.isEmpty)) ||
  ((fullLegs (l.chanSt k).legs (p.stopsOf (keyChan k)).length).zip (p.stopsOf (keyChan k))).any (fun x =>
    !x.1.isEmpty && (if p.plots.elem x.2 then partIn v p x.2 else chanPart l k) == part)

/-- Whether port 0 of a source in a partition holds a token that its AG or its handle has placed. -/
def sourceIn (s : State) (l : Launch) (part : Nat) : Bool :=
  (List.range l.variant.nodes.length).any (fun n =>
    let x := l.variant.node n
    x.part == part && isSource x.hrec && l.place.plotOf n != awayPlot &&
      !(((peOf s (l.place.peOf n)).planeOf l.imgNo).queue 0).isEmpty)

/-- Whether a token lies in a partition's port queues, FIFOs, links or spill rings (R181). -/
def tokensIn (s : State) (l : Launch) (part : Nat) : Bool := (chanKeys l).any (chanIn s l part) || sourceIn s l part

/-- Whether Owl's ticks stand still in a partition (R181). -/
def owlStopped (l : Launch) (part : Nat) : Bool :=
  !l.runs || !((l.hnode part).ring.isEmpty && (l.hnode part).acting.isEmpty) ||
  l.ports.any (fun p => (l.variant.node p.1).part == part && (!p.2.spill.isEmpty || p.2.linkHeld.isSome))

/-- Owl's count of a partition over a step of `d` ticks: it stands still, starts again where no token is present, or
runs on. `idle` is the tick the count started at. -/
def owlCount (s : State) (l : Launch) (now d part : Nat) : Nat :=
  let i := lookupD l.idle part 0
  if owlStopped l part then Nat.min (i + d) now else if tokensIn s l part then i else now

/-- Whether Owl fires for a partition. -/
def owlDue (s : State) (l : Launch) (part : Nat) : Bool :=
  l.owlint != 0 && !owlStopped l part && tokensIn s l part && decide (lookupD l.idle part 0 + l.owlint ≤ s.time)

/-- The map record of a channel that holds a token. -/
def mapInfo (s : State) (l : Launch) (k : Nat) : Option FInfo :=
  let (v, p) := l.img (keyImg k)
  let m := chanMap s l k
  m.all.head?.map fun t =>
    { time := s.time, value := m.queue.length % 2 ^ 16 * 2 ^ 48 + m.fifo.length % 2 ^ 16 * 2 ^ 32 + m.moved.length % 2 ^ 32,
      seq := t.seq, node := (v.chan (keyChan k)).dst, chan := some (keyChan k), plot := p.plotOf (v.chan (keyChan k)).dst,
      srcNo := 6, unit := 1, cause := 0xA1, orig := kindCode t.kind % 8, acc := 0, lseq := l.lseq }

/-- The HANG record. -/
def hangInfo (s : State) (l : Launch) (part n : Nat) : FInfo :=
  { time := s.time, value := n, seq := 0, node := 0xFFFF, chan := none, plot := l.place.hnode.getD part 0, srcNo := 6,
    unit := 0, cause := 0xA1, orig := 0, acc := 0, lseq := l.lseq }

/-- OWL_FIRE (R181): the launch is frozen, then a map record for each channel that holds a token and the HANG record. -/
def execOwlFire (lseq part : Nat) (s : State) : Out :=
  match launchOf s lseq with
  | none => .next s
  | some l =>
    if part < l.variant.parts.length ∧ owlDue s l part then
      let s := freezeLaunch s l [.owl]
      let maps := match launchOf s lseq with
        | some l => (chanKeys l).filterMap (mapInfo s l)
        | none => []
      let s := maps.foldl (fun s m => raiseFault s lseq .owl m) s
      let h := hangInfo s l part maps.length
      .next (toHostStream (raiseFault s lseq .owl h) l.vd (faultBits h))
    else .next s

end Sys2Proof.Machine
end

