-- ==== Sys2Proof/Machine/Clock.lean ====
section
/-!
DEFINITION. Time: the ticks between steps (01 R33; 07 R181), the slices of virtual devices that share plots
(10_sharing_the_device.md R216), and the narrowing of a launch under its field's power budget (10 R233).
-/
namespace Sys2Proof.Machine

/-! ## Ticks -/

/-- Owl's counts over a step of `d` ticks that ends at tick `now`. -/
def owlTick (s : State) (now d : Nat) (l : Launch) : Launch :=
  { l with idle := (List.range l.variant.parts.length).map (fun q => (q, owlCount s l now d q)) }

/-- `sys.TIME` moves on by `d` ticks (R33). -/
def tick (s : State) (d : Nat) : State :=
  { s with time := s.time + d, launches := s.launches.map (fun x => (x.1, owlTick s (s.time + d) d x.2)) }

/-- Capacity records that waited for their launches to run are posted, before any thread issues (R198). -/
def flushAll (s : State) : State := s.launches.foldl (fun s x => flushCap s x.2) s

/-! ## Slices (R216) -/

/-- The open devices of a device's sharing set, itself among them, in ascending order (R215). -/
def sharers (s : State) (mask : Nat) : List Nat := (s.vds.filter (fun x => x.2.plotmask == mask)).map (·.1)

/-- Whether a device has a launch to run or resume: one that Marten may take in its slice, or one that is not held
frozen by Owl or a drain. A launch parked on FIT_SPACE counts once plots of its device were released. -/
def hasWork (s : State) (v : Nat) : Bool :=
  s.launches.any (fun x => x.2.vd == v && !x.2.heldFrozen) ||
  s.waiting.any (fun w => w.vd == v && (!w.parked || w.again) &&
    (match vdOf s v with | some d => d.qmask / 2 ^ w.hdr.prio % 2 == 1 | none => false))

/-- The device whose turn is next after `v`: the first with work in ascending, cyclic order. -/
def nextSharer (s : State) (v mask : Nat) : Option Nat :=
  let all := (sharers s mask).filter (fun w => w != v && hasWork s w)
  match all.find? (fun w => decide (v < w)) with
  | some w => some w
  | none => all.head?

/-- A launch of the outgoing device is pre-empted; one that is frozen already stays so, and gives up its plots. -/
def sliceOut (l : Launch) : Launch :=
  if l.runs then { l with asked := addFreeze l.asked .slice } else { l with frozen := addFreeze l.frozen .slice }

/-- A launch of the incoming device may go on. -/
def sliceIn (l : Launch) : Launch :=
  { l with asked := l.asked.filter (· != .slice), frozen := l.frozen.filter (· != .slice) }

/-- The slice of a sharing set passed from one device to another. -/
def passSlice (s : State) (old new : Nat) : State :=
  { s with
    launches := s.launches.map (fun x => (x.1, if x.2.vd = old then sliceOut x.2 else if x.2.vd = new then sliceIn x.2 else x.2))
    vds := s.vds.map (fun x => (x.1, if x.1 = old then { x.2 with sliceOn := false }
      else if x.1 = new then { x.2 with sliceOn := true, sliceAt := s.time } else x.2)) }

/-- Ticks of a slice: WEIGHT × 100 µs, and a WEIGHT of 0 counts as 1. -/
def sliceTicks (d : VD) : Nat := Nat.max 1 d.weight * 100000

/-- TIME_SLICE_END (R216): the active device's slice has passed, or it has nothing to run; the next device with work
takes the plots. A device alone in its set, or the only one with work, has no slice end. -/
def execTimeSliceEnd (v : Nat) (s : State) : Out :=
  match vdOf s v with
  | none => .next s
  | some d =>
    if d.sliceOn && (decide (d.sliceAt + sliceTicks d ≤ s.time) || !hasWork s v) then
      match nextSharer s v d.plotmask with
      | some w => .next (passSlice s v w)
      | none => .next s
    else .next s

/-- The slice of a device that is gone passes to the next one of its set. -/
def inheritSlice (s : State) (v mask : Nat) : State :=
  let set := sharers s mask
  if set.any (sliceOn s) then s
  else
    match (match nextSharer s v mask with | some w => some w | none => set.head?) with
    | some w => passSlice s v w
    | none => s

/-! ## Narrowing (R233) -/

/-- Ticks that a field must stay at its floor: 10 ms. -/
def floorTicks : Nat := 10000000

/-- Whether a field that holds plots of a launch has stayed at its floor. -/
def short (s : State) (l : Launch) : Bool :=
  l.place.here.any (fun p => match lookup s.atFloor (fieldOf p) with | some t => decide (t + floorTicks ≤ s.time) | none => false)

/-- The next smaller variant of a launch's set. -/
def nextSmaller (l : Launch) : Option Variant := l.image.find? (fun v => decide (v.factor < l.variant.factor))

def Variant.plotCount (v : Variant) : Nat := v.parts.foldl (fun n wh => n + wh.1 * wh.2) 0

/-- Whether every PLOTIX of a launch, and every thread of it, lies within a variant. -/
def withinVariant (s : State) (l : Launch) (v : Variant) : Bool :=
  l.thrtab.all (fun t => decide (t.plotix < v.plotCount)) &&
  s.threads.all (fun x => x.2.lseq != l.lseq || decide (plotIx l.place x.2.plot < v.plotCount))

def planeQuiet (q : Plane) : Bool := q.accs.all (· == Acc.zero) && q.queues.all (·.2.isEmpty) && q.block.isEmpty && q.flush.isNone

/-- A quiescent point: no token in flight, every accumulator released, no stream bound. -/
def quiescent (s : State) (l : Launch) : Bool :=
  (chanKeys l).all (fun k => (chanMap s l k).all.isEmpty) && l.chans.all (fun c => c.2.replay.isEmpty) && l.requests.isEmpty &&
  l.ports.all (fun p => p.2.active.isNone && p.2.waiting.isNone && p.2.sinkQ.isEmpty) &&
  l.hnodes.all (fun h => h.2.ring.isEmpty && h.2.acting.isEmpty) &&
  l.place.here.all (fun p =>
    (waitingLoad l p).isNone && (plotOf s p).matrix.pending.isNone &&
    (List.range 64).all (fun e => let x := peOf s (64 * p + e); planeQuiet x.active && x.window.isEmpty))

/-- A weight buffer taken from a saved plot over into another, its scale bound there. -/
def carryBuf (from_ : Plot) (dst : Plot × List WBuf) (b : WBuf) : Plot × List WBuf :=
  if b.tag = 0 then (dst.1, dst.2 ++ [b])
  else
    let v := (srfGet from_ (b.tag / 16)).value
    match (bindCommon dst.1 v).orElse (fun _ => bindIn dst.1 0 256 v) with
    | some (x, t) => (x, dst.2 ++ [{ b with tag := t }])
    | none => (dst.1, dst.2 ++ [{ b with tag := 0 }])

/-- A saved plot of the narrower variant `x` with the weight buffers it takes over: those of the MATRIX node of the same
number. -/
def keptMatrix (l : Launch) (v : Variant) (p : Placed) (ix : Nat) (x : Plot) : Plot :=
  let plot := p.plots.getD ix awayPlot
  let x' := { (x.unhold x.matrix.bufA.tag).unhold x.matrix.bufB.tag with matrix := Matrix.empty }
  match (List.range v.nodes.length).find? (fun n => isMatrix (v.node n).hrec && p.plotOf n == plot) with
  | some n =>
    if isMatrix (l.variant.node n).hrec then
      match lookup l.saved.plots (plotIx l.place (l.place.plotOf n)) with
      | some y =>
        let r := [y.matrix.bufA, y.matrix.bufB].foldl (carryBuf y) (x', [])
        { r.1 with matrix := { y.matrix with bufA := r.2.getD 0 WBuf.empty, bufB := r.2.getD 1 WBuf.empty, retained := [] } }
      | none => x'
    else x'
  | none => x'

/-- A saved image refitted to a narrower variant: fresh planes, its pinned entries, and the plots that remain. -/
def refit (l : Launch) (v : Variant) (p : Placed) : Saved :=
  let n := v.plotCount
  { l.saved with
    plots := (l.saved.plots.filter (fun x => decide (x.1 < n))).map (fun x =>
      (x.1, { keptMatrix l v p x.1 { x.2 with common := (rangesIn v p (p.plots.getD x.1 awayPlot)).2 } with
                ranges := [], edges := [], ageCtr := 0, fifo := fifoNeed v p.sites (p.plots.getD x.1 awayPlot)
                shMatrix := Matrix.empty }))
    pes := ((l.saved.plots.filter (fun x => decide (x.1 < n))).map (fun x => (List.range 64).map (fun e =>
      (64 * x.1 + e, { PE.empty with active := planeFor l.imgNo v p (p.plots.getD x.1 awayPlot) e })))).flatten }

/-- The launch as it takes a narrower variant, before its image is put into the plots. -/
def narrowed (l : Launch) (v : Variant) (p : Placed) : Launch :=
  { l with variant := v, saved := refit l v p, chans := [], ports := [] }

/-- A launch narrowed to a variant placed in its own plots. -/
def narrowTo (s : State) (l : Launch) (v : Variant) (p : Placed) : Option State :=
  let s := freezeLaunch s l [.reloc]
  match launchOf s l.lseq with
  | none => none
  | some l =>
    let s := saveLaunch s l
    (launchOf s l.lseq).map fun l =>
      let l' := narrowed l v p
      let s := restoreInto (setLaunch s l') l' p none
      let s := p.here.foldl (fun s plot => setPlot s plot { plotOf s plot with ranges := (rangesIn v p plot).1 }) s
      let s := modLaunch s l.lseq fun l => { l with idle := (List.range v.parts.length).map (fun q => (q, s.time)) }
      postCap (unfreeze s l.lseq) l.lseq 8 0 0 (plotsInService s l.vd)

/-- The narrower variant in a launch's own plots that are neither retired nor leased, under R70. -/
def narrowPlace (s : State) (l : Launch) (v : Variant) : Option Placed :=
  let free := fun p => l.place.here.elem p && !isRetired s (unitPlot p) && !isRetired s (unitCC p) && (leaseOf s (unitPlot p)).isNone
  match chooseRects free l.hdr.diemask v.parts (minePart s l.vd v l.partmap) [] with
  | none => none
  | some rects =>
    match placeInto v rects (usedBy s (some l.lseq)) with
    | .ok p => some p
    | .error _ => none

/-- VARIANT_NARROW (R233). A launch that holds a shadow image is not narrowed. -/
def execVariantNarrow (lseq : Nat) (s : State) : Out :=
  match launchOf s lseq with
  | none => .next s
  | some l =>
    match nextSmaller l with
    | none => .next s
    | some v =>
      if l.runs && short s l && withinVariant s l v && quiescent s l && l.shadow.isNone && l.swap.isNone then
        .next (((narrowPlace s l v).bind (narrowTo s l v)).getD s)
      else .next s

end Sys2Proof.Machine
end

