-- ==== Sys2Proof/Machine/Lanes.lean ====
section
/-!
DEFINITION. Lane groups and what runs over them (08_health_service.md R187, R192, R195, R198; 09 R199 to R203; 22 R408 to
R410): the groups of a link or port, the ports that flows take, and the launches that a lease, return or retirement of
a group concerns.
-/
namespace Sys2Proof.Machine

/-! ## Groups, links and ports (R187) -/

def isKlink (u : Nat) : Bool := decide (256 ≤ u) && decide (u < 352)
def isUcie (u : Nat) : Bool := decide (352 ≤ u) && decide (u < 864)
def isLane (u : Nat) : Bool := isKlink u || isUcie u

/-- The dies that a lane group's lease counts on: compute dies 0 to 3, IOA 4, IOB 5 (R190). -/
def laneDies (u : Nat) : List Nat :=
  if isKlink u then [if unitId u / 4 < 12 then 4 else 5]
  else match unitId u / 64 with
    | 0 => [0, 1] | 1 => [2, 3] | 2 => [0, 2] | 3 => [1, 3] | 4 => [0] | 5 => [2] | 6 => [1] | _ => [3]

/-! ## What runs over a UCIe link -/

/-- The links, as edge × 16 + link, whose tokens a link carries: its own, and those of link XOR 1 once all groups of
that one have retired (R195). -/
def carried (s : State) (link : Nat) : List Nat :=
  let peer := link ^^^ 1
  if (siblings (unitUcie (4 * peer))).all (isRetired s) then [link, peer] else [link]

/-- Whether a route of a launch, of its image or of its shadow image, runs over one of some links. -/
def crosses (l : Launch) (links : List Nat) : Bool :=
  (l.place.links ++ (l.shadow.elim [] (·.2.links))).any (fun r => r.any (fun x =>
    match crossingOf x.1 with | some k => links.elem k | none => false))

/-! ## What runs over a KLink port -/

/-- The records of a launch that wait to be posted, at its CCs and in its saved image (R155, R165). -/
def heldEvents (s : State) (l : Launch) : List Event :=
  (s.plots.map (fun p => p.2.evHeld.filter (fun e => e.lseq == l.lseq))).flatten ++ l.saved.evHeld.map (·.2)

/-- The members of its domain that a launch's collectives reach, with the I/O die that serves each: from the issue of one until
its record is posted (R408). -/
def collFlows (s : State) (l : Launch) : List (Nat × Nat) :=
  let own := (vdOf s l.vd).elim 0 (·.domix)
  ((heldEvents s l).map fun e => match e.src with
    | some (.collQ io _) => (e.flow.filter (· != own)).map (fun m => (io, m))
    | _ => []).flatten ++
  (l.collQ.map fun q => (q.2.map fun e => match e with
    | .op j =>
      match (lookup s.colls j.coll).bind (fun c => c.parts.find? (fun p => p.rank == j.rank)) with
      | some p => (p.modules.filter (· != own)).map (fun m => (q.1 / 16, m))
      | none => []
    | .fence .. => []).flatten).flatten

/-- The members of its domain that a launch's queued copies reach, with the compute die of each. -/
def copyFlows (s : State) (l : Launch) : List (Nat × Nat) :=
  let own := (vdOf s l.vd).elim 0 (·.domix)
  (l.copyQ.map fun q => (q.2.map fun e => match e with
    | .op j =>
      let c := copyCtx l j
      let fs := sideFrames s c .read j.op.source j.total ++ sideFrames s c .write j.op.dest j.total
      fs.filterMap (fun f => match regionOf (f.2 * 65536) with
        | .domain m _ => if m = own then none else some (q.1 / 16, m)
        | _ => none)
    | .fence .. => []).flatten).flatten

/-- The ports of a launch's channels to and from other modules of its node, with the compute dies of their ends here (R202). -/
def channelPorts (s : State) (l : Launch) : List (Nat × Nat) :=
  (chanKeys l).filterMap (fun k =>
    let x := l.img (keyImg k)
    let c := x.1.chan (keyChan k)
    let src := x.2.plotOf c.src
    if isAway l k && src != awayPlot then (awayPort s l k).map (fun p => (plotDie src, p))
    else if fromAway l k then (peerPort s l (keyImg k) c.dst c.src).map (fun p => (plotDie (x.2.plotOf c.dst), p))
    else none)

/-- The ports of a launch's queued load-store flows, with the compute dies of their copy engines. -/
def copyPorts (s : State) (l : Launch) : List (Nat × Nat) :=
  let dom := (vdOf s l.vd).elim 0 (·.domain)
  (copyFlows s l).filterMap (fun f => (portFor s (f.1 % 2) (Config.leadsTo dom f.2)).map (fun p => (f.1, p)))

/-- The KLink ports that carry a launch's channels and flows. -/
def launchPorts (s : State) (l : Launch) : List Nat :=
  let dom := (vdOf s l.vd).elim 0 (·.domain)
  (channelPorts s l ++ copyPorts s l).map (·.2) ++ (collFlows s l).filterMap (fun f => portFor s f.1 (Config.leadsTo dom f.2))

/-- The UCIe edges between a compute die and an I/O die, IOA 0 and IOB 1: straight, or by way of the die beside it (R187). -/
def edgesTo (die io : Nat) : List Nat :=
  match die, io with
  | 0, 0 => [4] | 1, 0 => [0, 4] | 2, 0 => [5] | 3, 0 => [1, 5]
  | 0, _ => [0, 6] | 1, _ => [6] | 2, _ => [1, 7] | _, _ => [7]

/-- Whether a launch's channels to other modules or its queued load-store flows pass over an edge. Which links of the edge they
take is not stated: all of them (log 64). -/
def flowsOver (s : State) (l : Launch) (edge : Nat) : Bool :=
  (channelPorts s l ++ copyPorts s l).any (fun x => (edgesTo x.1 (x.2 / 12)).elem edge)

/-! ## Records (R198) -/

/-- Whether a lane group carries something of a launch. -/
def usesLane (s : State) (u : Nat) (l : Launch) : Bool :=
  if isKlink u then (launchPorts s l).elem (unitId u / 4) else (l.resident && crosses l (carried s (unitId u / 4))) || flowsOver s l (unitId u / 64)

/-- The launches that a lane group carries something of, in order of their numbers. -/
def laneUsers (s : State) (u : Nat) : List Nat := (s.launches.filter (fun x => usesLane s u x.2)).map (·.1)

/-- The record of an event of a unit for some launches. -/
def postCaps (s : State) (ls : List Nat) (event u count : Nat) : State :=
  ls.foldl (fun s q => postCap s q event (unitKind u) (unitId u) count) s

/-- Whether a memory channel serves from its own rows: it is not retired, or retired but resident (R196). -/
def chanServes (s : State) (c : Nat) : Bool :=
  !isRetired s (unitChan c) || !s.brock.remaps.any (fun r => r.1 / 4096 == c)

/-- Memory channels in service. -/
def chansIn (s : State) : Nat :=
  ((List.range 192).filter (fun c => chanServes s c &&
    (match leaseOf s (unitChan c) with | some x => x.st != .active | none => true))).length

/-- The launches of the devices that share a memory channel (R224). -/
def shareUsers (s : State) : List Nat :=
  (s.launches.filter (fun x => match vdOf s x.2.vd with | some d => d.chshare != 0 | none => false)).map (·.1)

end Sys2Proof.Machine
end

