-- ==== Sys2Proof/Machine/Brock.lean ====
section
/-!
DEFINITION. Brock's leases and retirements (08_health_service.md R188 to R198): routine leases and the order of requests,
plot, lane-group and memory-channel leases, how a lease ends, retirement records in flash, spare windows, and decay.
-/
namespace Sys2Proof.Machine

/-! ## Scores (R188, R189) -/

/-- The group of units whose leases exclude each other and are ordered together. -/
inductive Class | plot | lane | chan
  deriving DecidableEq, Repr

def classOf (u : Nat) : Class := if u < 256 then .plot else if u < 864 then .lane else .chan

/-- An error that a memory controller could not correct, in a sector that its channel serves: whether one is met, and in which
sector, is free (R85, R196; log 96). -/
def uncorrected (s : State) (chan pa : Nat) : State :=
  let s' := { s with free := s.free + 2 }
  if Config.freeBit s.free ∧ regionAt s pa = .dram ∧ (servedBy s pa).1 = chan then poisonSector s' pa else s'

/-- CORRECTED_ERROR (R85, R188): a channel, plot or CC is charged by 1; the L2, numbered past the units, is counted in
the management report and charged to none. The controller of a channel may have met one that it could not correct. -/
def execCorrectedError (unit : Nat) (s : State) : Out :=
  if unit = unitCount then .next { s with l2ce := Nat.min (s.l2ce + 1) (2 ^ 32 - 1) }
  else if classOf unit = .chan ∧ unit < unitCount then
    .next (uncorrected (addScore s unit 1) (unitId unit) (32 * (Config.freeNat (s.free + 1) % (dramEnd / 32))))
  else if unit < unitCount ∧ isLane unit = false then .next (addScore s unit 1)
  else .next s

/-- LINK_RETRY (R188, R200, R409): a resent flit is charged to the lane group that carried it. -/
def execLinkRetry (unit : Nat) (s : State) : Out := if isLane unit then .next (addScore s unit 1) else .next s

/-- Ticks between decays: 10 s (R189). -/
def decayTicks : Nat := 10000000000

/-- SCORE_DECAY (R189): at each multiple of 10 s every score above 0 falls by 1. -/
def execScoreDecay (s : State) : Out :=
  if s.brock.lastDecay < s.time / decayTicks then
    .next (setBrock s { s.brock with lastDecay := s.brock.lastDecay + 1
                                     scores := (s.brock.scores.map (fun x => (x.1, x.2 - 1))).filter (fun x => x.2 != 0) })
  else .next s

/-! ## Which request starts (R190) -/

/-- The dies on which a lease counts. -/
def leaseDies (u : Nat) : List Nat :=
  match classOf u with
  | .plot => [plotDie (leaseKey u)]
  | .lane => laneDies u
  | .chan => [unitId u / 48]

/-- Whether the limit of a die keeps a lease of a unit from being active. -/
def dieBusy (s : State) (u : Nat) : Bool :=
  s.brock.leases.any (fun x => x.2.st == .active && x.1 != leaseKey u && classOf x.1 == classOf u &&
    (leaseDies x.1).any (fun d => (leaseDies u).elem d))

/-- Whether one request goes before another: immediate before routine, then by tick. -/
def before (a b : Lease) : Bool :=
  if a.immediate = b.immediate then decide (a.askedAt < b.askedAt) else a.immediate

/-- Whether a lane group is its link's or port's last, which no lease withdraws (R192). -/
def lastGroup (s : State) (u : Nat) : Bool := isLane u && groupIn s u && groupsIn s u == 1

/-- Whether a plot is held by a launch that is paused or frozen, which its lease does not touch (R191). -/
def heldStill (s : State) (u : Nat) : Bool :=
  decide (leaseKey u < 128) && (match (plotOf s (leaseKey u)).holder.bind (launchOf s) with | some l => !l.runs | none => false)

/-- Whether nothing but other requests keeps a unit's request from starting. -/
def couldStart (s : State) (u : Nat) : Bool := !dieBusy s u && !lastGroup s u && !heldStill s u

/-- Whether a unit's request may start: it is asked for, the limit allows it, and no request on the same dies that could
start goes before it. -/
def mayStart (s : State) (u : Nat) (l : Lease) : Bool :=
  l.st == .asked && couldStart s u &&
  !s.brock.leases.any (fun x => x.1 != leaseKey u && classOf x.1 == classOf u && x.2.st == .asked && before x.2 l &&
    (leaseDies x.1).any (fun d => (leaseDies u).elem d) && couldStart s x.1)

def setLeaseSt (s : State) (u : Nat) (st : LeaseSt) : State :=
  match leaseOf s u with
  | some l => setLease s u { l with st := st, again := false }
  | none => s

def endLease (s : State) (u : Nat) : State := setBrock s { s.brock with leases := remove s.brock.leases (leaseKey u) }

/-! ## Plot leases (R191) -/

/-- The plots that a lease's relocation may use: free and sound, or the launch's own other than the leased one. -/
def freeForLease (s : State) (l : Launch) (leased p : Nat) : Bool :=
  freePlot s l.vd p || (l.place.here.elem p && p != leased && soundPlot s p)

/-- A launch saved for a lease: its restore is reported, and skips the leased plot. -/
def saveForLease (s : State) (l : Launch) (unit : Nat) : State :=
  saveLaunch (modLaunch s l.lseq fun l => { l with leaseUnit := some unit }) l

/-- A plot lease tried: it starts where the plot is free or its launch can be relocated; none where it cannot start. -/
def tryPlotLease (s : State) (plot : Nat) (lease : Lease) : Option State :=
  let begin := fun (s : State) => setLeaseSt s plot .active
  match (plotOf s plot).holder.bind (launchOf s) with
  | none => some (begin s)
  | some l =>
    if l.runs then
      (relocate s l (freeForLease s l plot)).map fun s =>
        let s := begin s
        postCap s l.lseq 4 (unitKind lease.unit) (unitId lease.unit) (plotsInService s l.vd)
    else none

/-- A lease forced: its launch is pre-empted, and its image waits (R191). -/
def forceLease (s : State) (plot : Nat) (lease : Lease) : Option State :=
  match (plotOf s plot).holder.bind (launchOf s) with
  | none => some (setLeaseSt s plot .active)
  | some l =>
    let s := if l.runs then freezeLaunch s l [.forced] else s
    (launchOf s l.lseq).map fun l =>
      let s := setLeaseSt (saveForLease s l lease.unit) plot .active
      postCap s l.lseq 6 (unitKind lease.unit) (unitId lease.unit) (plotsInService s l.vd)

/-- PLOT_LEASE (R191): the pending request of a plot begins, by relocation where a launch holds it, or is deferred; one
that retires the unit is forced at once. -/
def execPlotLease (plot : Nat) (s : State) : Out :=
  match leaseOf s plot with
  | none => .next s
  | some x =>
    if plot < 128 && mayStart s plot x then
      match tryPlotLease s plot x with
      | some s => .next s
      | none =>
        if x.retire ≠ [] then .next ((forceLease s plot x).getD s)
        else
          match (plotOf s plot).holder.bind (launchOf s) with
          | some l =>
            if l.runs then
              .next (postCap (setLeaseSt s plot .deferred) l.lseq 5 (unitKind x.unit) (unitId x.unit) (plotsInService s l.vd))
            else .next s
          | none => .next s
    else .next s

/-- LEASE_DEFERRED_RETRY (R191): a plot of the device was released, and the relocation is tried again. -/
def execLeaseDeferredRetry (unit : Nat) (s : State) : Out :=
  match leaseOf s unit with
  | none => .next s
  | some x =>
    if unit < 128 && x.st == .deferred && x.again && !dieBusy s unit then
      .next ((tryPlotLease s unit x).getD (setLease s unit { x with again := false }))
    else .next s

/-- Ticks after which a deferred lease is forced: 10 minutes. -/
def forceTicks : Nat := 600000000000

/-- LEASE_FORCE (R191). -/
def execLeaseForce (plot : Nat) (s : State) : Out :=
  match leaseOf s plot with
  | none => .next s
  | some x =>
    if plot < 128 && x.st == .deferred && (!x.retire.isEmpty || decide (x.askedAt + forceTicks ≤ s.time)) && !dieBusy s plot then
      .next ((forceLease s plot x).getD s)
    else .next s

/-! ## Lane-group leases (R192, R409, R410) -/

/-- The far end of a KLink port withdraws a group under a lease of its own, and this end with it: no record is posted and no
score changes (R410). Whether it does is free (log 99). -/
def farWithdraw (s : State) (unit : Nat) : State :=
  if isKlink unit && groupIn s unit && !lastGroup s unit && Config.farLeased unit s.time then
    setBrock s { s.brock with far := addNat s.brock.far unit }
  else s

/-- The far end's group returns, and with it this end's (R410). -/
def farReturn (s : State) (unit : Nat) : State :=
  if s.brock.far.elem unit && !Config.farLeased unit s.time then
    setBrock s { s.brock with far := s.brock.far.filter (· != unit) }
  else s

/-- LANE_GROUP_LEASE: the group's flits have been acknowledged, and it is withdrawn. A group that Brock here does not lease may
be withdrawn for the far end. -/
def execLaneGroupLease (unit : Nat) (s : State) : Out :=
  match leaseOf s unit with
  | none => .next (farWithdraw s unit)
  | some x =>
    if isLane unit && mayStart s unit x && x.retire.isEmpty then
      let s := setLeaseSt s unit .active
      let users := laneUsers s unit
      let s := setBrock s { s.brock with withdrawn := addNat s.brock.withdrawn unit }
      .next (postCaps s users 1 unit (groupsIn s unit))
    else .next s

/-! ## Memory-channel leases (R193) -/

/-- Windows of a memory channel. -/
def windows : Nat := 4096

/-- A memory-channel lease that starts. -/
def startChan (s : State) (u : Nat) (x : Lease) : State :=
  if mayStart s u x && x.retire.isEmpty then
    let s := setLeaseSt s u .active
    postCaps s (shareUsers s) 1 u (chansIn s)
  else s

/-- MEMORY_WINDOW_TEST: the patterns run on the next window of an active lease; a request that may start starts with its
first window. The buffer that stands in for the window leaves every value and order as it is; a line that meets an
uncorrectable error is staged with its poison. -/
def execMemoryWindowTest (chan : Nat) (res : LeaseResult) (s : State) : Out :=
  if chan < 192 then
    match leaseOf s (unitChan chan) with
    | none => .next s
    | some x =>
      let s := startChan s (unitChan chan) x
      match leaseOf s (unitChan chan) with
      | some x =>
        if x.st == .active && decide (x.window < windows) then
          let s := setLease s (unitChan chan) { x with window := x.window + 1
                                                       fails := if res = .failed then x.fails + 1 else x.fails }
          let s := match res with
            | .corrected n => addScore s (unitChan chan) n
            | _ => s
          .next (uncorrected s chan (dramAddr s.full chan (x.window * 2 ^ 20 + 32 * (Config.freeNat (s.free + 1) % 2 ^ 15))))
        else .next s
      | none => .next s
  else .next s

/-! ## Spare windows (R196) -/

/-- Spare windows of a channel. -/
def spares : Nat := 32

/-- The free spares of each channel that is in service, by channel. -/
def freeSpares (s : State) : List (Nat × List Nat) :=
  ((List.range 192).filter (fun c => !isRetired s (unitChan c))).map (fun c =>
    (c, (List.range spares).filter (fun k => !s.brock.remaps.any (fun r => r.2 == c * spares + k))))

/-- The channel with the most free spares, the lowest-numbered of those. -/
def mostFree (fs : List (Nat × List Nat)) : Option (Nat × List Nat) :=
  fs.foldl (fun b x => match b with
    | some y => if y.2.length < x.2.length then some x else b
    | none => some x) none

/-- The places of `n` windows of a channel from window `w`. Of the free spare windows of the channel chosen, which the rule does not
name one of, a window takes the lowest-numbered (DESIGN CHOICE, log 108). -/
def spareFor (c : Nat) : Nat → Nat → List (Nat × List Nat) → List (Nat × Nat)
  | 0, _, _ => []
  | n + 1, w, fs =>
    match mostFree fs with
    | some (d, k :: ks) => (c * windows + w, d * spares + k) :: spareFor c n (w + 1) (fs.map (fun x => if x.1 = d then (d, ks) else x))
    | _ => []

/-- A retired channel's windows moved to spares; none where fewer than 4,096 are free. -/
def migrate (s : State) (c : Nat) : Option State :=
  let fs := freeSpares s
  if (fs.foldl (fun n x => n + x.2.length) 0) < windows then none
  else some (setBrock s { s.brock with remaps := (spareFor c windows 0 fs).foldl (fun m r => insert m r.1 r.2) s.brock.remaps })

/-! ## Retirement records (R197) -/

/-- Places for retirement records in IOA flash. -/
def flashPlaces : Nat := 2048

/-- A retirement record's 4,096 bytes. -/
def retireBytes (u reason score pattern time serial : Nat) : List Byte :=
  let b := natBytes 4 0x314B5242 ++ natBytes 2 1 ++ natBytes 1 (unitKind u) ++ natBytes 1 reason ++ natBytes 4 (unitId u)
    ++ natBytes 2 score ++ natBytes 2 pattern ++ natBytes 8 time ++ natBytes 8 serial ++ natBytes 16 Config.modid
    ++ natBytes 16 0
  signed b ++ natBytes 652 0

/-- A record written into the first place that takes it: a place whose write fails verification is worn (R197). -/
def writePlace (rec : List Byte) : List Nat → State → State × Bool
  | [], s => (s, false)
  | p :: ps, s =>
    let ok := Config.freeBit s.free
    let s := { s with free := s.free + 1 }
    if ok then (setBrock s { s.brock with flash := insert s.brock.flash p rec }, true)
    else writePlace rec ps (setBrock s { s.brock with worn := addNat s.brock.worn p })

/-- The places that may take a record. -/
def freePlaces (s : State) : List Nat :=
  (List.range flashPlaces).filter (fun p => !s.brock.worn.elem p && !listed s.brock.flash p)

/-- A record kept: in flash; or, where no place takes it, in IOA memory, with the unit's fuse blown. -/
def keepRecord (s : State) (u : Nat) (rec : List Byte) : State :=
  match writePlace rec (freePlaces s) s with
  | (s, true) => s
  | (s, false) =>
    let at_ := flashPlaces + (s.brock.flash.filter (fun x => decide (flashPlaces ≤ x.1))).length
    setBrock s { s.brock with flash := insert s.brock.flash at_ rec, fuses := addNat s.brock.fuses u }

/-- The value of a unit number in a retirement record: its kind and identifier back to one numbering. -/
def unitOf (kind id : Nat) : Nat :=
  match kind with | 0 => unitPlot id | 1 => unitCC id | 2 => unitKlink id | 3 => unitUcie id | _ => unitChan id

/-! ## Retirement (R195) -/

/-- A plot removed from the plot sets of the devices that own it. -/
def dropPlot (s : State) (p : Nat) : State :=
  { s with vds := s.vds.map (fun x =>
      (x.1, if x.2.plotmask / 2 ^ p % 2 = 1 then { x.2 with plotmask := x.2.plotmask - 2 ^ p } else x.2)) }

/-- What retiring does to a unit's service, with the records it posts to `users`, the launches it concerns. `leased` says that a lease
of a channel ends with it. A channel's migration posts one record as it starts, with which such a lease ends, and one as it ends
(R198; log 100); a channel with too few spares stays, retired but resident, and posts one for the end of a lease alone. -/
def retireEffect (s : State) (u time serial : Nat) (users : List Nat) (leased : Bool) : State :=
  match classOf u with
  | .plot => dropPlot s (leaseKey u)
  | .lane =>
    let s := setBrock s { s.brock with withdrawn := s.brock.withdrawn.filter (· != u) }
    postCaps s users 3 u (groupsIn s u)
  | .chan =>
    match migrate s (unitId u) with
    | some m => postCaps (postCaps m users 3 u (chansIn s)) users 3 u (chansIn m)
    | none =>
      let s := if leased then postCaps s users 3 u (chansIn s) else s
      keepRecord s u (retireBytes u 3 (scoreOf s u) 0xFFFF time serial)

/-- The launches that a retirement concerns (R198). -/
def retireUsers (s : State) (u : Nat) : List Nat :=
  match classOf u with
  | .plot => []
  | .lane => laneUsers s u
  | .chan => shareUsers s

/-- A unit's part in its lease over: the lease goes on where the other part of the site is yet to retire (R187, R189). -/
def leavePart (s : State) (u : Nat) : State :=
  match leaseOf s u with
  | some x =>
    match x.retire.filter (· != u) with
    | [] => endLease s u
    | o :: r => setLease s u { x with unit := o, retire := o :: r }
  | none => s

/-- A unit retired: its record is written, its part in its lease ends, and it leaves service. -/
def retireUnit (s : State) (u reason pattern : Nat) : State :=
  let users := retireUsers s u
  let serial := s.brock.serial + 1
  let leased := (leaseOf s u).any (fun x => x.st == .active)
  let s := keepRecord (setBrock s { s.brock with serial := serial }) u (retireBytes u reason (scoreOf s u) pattern s.time serial)
  let s := leavePart s u
  let s := setBrock s { s.brock with retired := addNat s.brock.retired u }
  retireEffect s u s.time serial users leased

/-- RETIREMENT (R189, R191, R195): a unit whose score has reached 4,096 is retired without a test, a plot or CC once its
lease has begun. -/
def execRetirement (unit : Nat) (s : State) : Out :=
  match leaseOf s unit with
  | none => .next s
  | some x =>
    if x.retire.elem unit && (classOf unit != .plot || x.st == .active) then .next (retireUnit s unit 2 0xFFFF)
    else .next s

/-! ## The end of a lease (R189, R194) -/

/-- A score halved by a pass. -/
def halve (s : State) (u : Nat) : State := setScore s u (scoreOf s u / 2)

/-- A unit returned to service after its patterns passed. -/
def returnUnit (s : State) (u : Nat) : State :=
  let s := endLease s u
  match classOf u with
  | .plot => halve (halve s (unitPlot (leaseKey u))) (unitCC (leaseKey u))
  | .lane =>
    let s := halve (setBrock s { s.brock with withdrawn := s.brock.withdrawn.filter (· != u) }) u
    postCaps s (laneUsers s u) 2 u (groupsIn s u)
  | .chan => let s := halve s u; postCaps s (shareUsers s) 2 u (chansIn s)

/-- Whether an active lease's patterns have all run. -/
def patternsRun (u : Nat) (x : Lease) : Bool := classOf u != .chan || decide (windows ≤ x.window)

/-- LEASE_END (R194, R410): the patterns of an active lease have finished; `unit` says which part of a shared site failed. Errors
corrected while they ran are charged first. A group that Brock here does not lease may return from a lease of the far end. -/
def execLeaseEnd (unit : Nat) (res : LeaseResult) (s : State) : Out :=
  let s := match res, leaseOf s unit with
    | .corrected n, some x => if x.st == .active && x.retire.isEmpty && patternsRun unit x then addScore s unit n else s
    | _, _ => s
  match leaseOf s unit with
  | none => .next (farReturn s unit)
  | some x =>
    if x.st == .active && x.retire.isEmpty && patternsRun unit x then
      if res = .failed ∨ 0 < x.fails then
        .next (retireUnit { s with free := s.free + 1 } unit 1 (Config.freeNat s.free % 65535))
      else .next (returnUnit s unit)
    else .next s

/-! ## Routine leases (R190) -/

/-- The cursor of a unit's kind: one for each of plots, KLink groups and UCIe groups, and one for each die's channels. -/
def cursorOf (u : Nat) : Nat := if u < 256 then 0 else if u < 352 then 2 else if u < 864 then 3 else 4 + unitId u / 48

/-- First unit and number of units of a cursor's round. -/
def cursorUnits (c : Nat) : Nat × Nat :=
  match c with | 0 => (0, 128) | 2 => (256, 96) | 3 => (352, 512) | _ => (864 + 48 * (c - 4), 48)

/-- Ticks between routine leases of a kind. -/
def cursorTicks (c : Nat) : Nat :=
  match c with | 0 => 60000000000 | 2 => 10000000000 | 3 => 2000000000 | _ => 600000000000

/-- Whether a cursor passes over a unit. -/
def passedOver (s : State) (u : Nat) : Bool :=
  isRetired s u || (decide (u < 128) && isRetired s (unitCC u)) || (leaseOf s u).isSome || lastGroup s u ||
  (isLane u && !groupIn s u)

/-- The unit that a cursor stands before. -/
def cursorNext (s : State) (c : Nat) : Option Nat :=
  let (lo, n) := cursorUnits c
  ((List.range n).map (fun i => lo + (lookupD s.brock.cursors c 0 + i) % n)).find? (fun u => !passedOver s u)

/-- ROUTINE_LEASE (R190): on its timer Brock requests a lease of the next unit of a kind. The tick of a cursor's last
lease is kept beside it. -/
def execRoutineLease (unit : Nat) (s : State) : Out :=
  let c := cursorOf unit
  if unit < unitCount && cursorNext s c == some unit && decide (lookupD s.brock.cursors (16 + c) 0 + cursorTicks c ≤ s.time) then
    let s := requestLease s unit false
    let at_ := insert s.brock.cursors c ((unit - (cursorUnits c).1 + 1) % (cursorUnits c).2)
    .next (setBrock s { s.brock with cursors := insert at_ (16 + c) s.time })
  else .next s

end Sys2Proof.Machine
end

