-- ==== Sys2Proof/Machine/Kcp.lean ====
section
/-!
DEFINITION. The Kalok Command Protocol (09_many_dies_and_devices.md R210 to R214; 10 R215, R218, R225 to R231): the form of
a message, and the effect and reply of each.
-/
namespace Sys2Proof.Machine

/-! ## Statuses and fields (R211) -/

def kOK : Nat := 0
def kMalformed : Nat := 1
def kNoVd : Nat := 2
def kDenied : Nat := 3
def kFault : Nat := 4
def kNotFound : Nat := 5

/-- The `n`-byte little-endian number at an offset. -/
def leAt (b : List Byte) (off n : Nat) : Nat := bytesNat ((b.drop off).take n)

def mOp (m : Kcp) : Nat := leAt m.bytes 4 1
def mVd (m : Kcp) : Nat := leAt m.bytes 6 1
def mTag (m : Kcp) : Nat := leAt m.bytes 8 8
def mBody (m : Kcp) : List Byte := m.bytes.drop 32

/-- Whether a header is well formed: MAGIC, a known OP, no reserved bit, STATUS and CAUSE zero, a VD of 0 to 15, and LEN
the bytes of the body. -/
def headOk (m : Kcp) : Bool :=
  decide (32 ≤ m.bytes.length) && leAt m.bytes 0 4 == 0x3150434B && decide (1 ≤ mOp m) && decide (mOp m ≤ 10) &&
  leAt m.bytes 5 1 == 0 && decide (mVd m < 16) && leAt m.bytes 7 1 == 0 && leAt m.bytes 16 4 == (mBody m).length &&
  leAt m.bytes 20 12 == 0

/-- Most bytes of a message, request or reply (R210), and of its body. -/
def messageMax : Nat := 2 ^ 24
def bodyMax : Nat := messageMax - 32

/-- The host ports: four in full service, and port 0 alone in nursery service (R210, R236). -/
def portRuns (s : State) (port : Nat) : Bool := decide (port < if s.full then 4 else 1)

/-- Whether a message reaches the module (R210): an image runs (R230), the port runs, it has at most 16 MiB, and it comes under a
security association, as every message must but an ATTEST. One that does not has no effect and no reply (log 69). -/
def received (s : State) (m : Kcp) : Bool :=
  decide (s.running < 2) && portRuns s m.port && decide (m.bytes.length ≤ messageMax) && (m.vds != [] || mOp m == 8)

/-- A reply to a message. -/
def answer (s : State) (m : Kcp) (status cause : Nat) (body : List Byte) : State :=
  replyTo s (mOp m) (mVd m) (mTag m) status cause body

/-- Whether a device is open. -/
def isOpen (s : State) (v : Nat) : Bool := (vdOf s v).isSome

/-- The order of one device's messages on one ROD connection (R214): a message stands behind one that waits; what it does,
it does once it is the first. -/
def inTurn (i : Instr) (m : Kcp) (s : State) (k : State → Out) : Out :=
  let mine := fun (x : Kcp × Instr) => x == (m, i)
  if (s.kcpHeld.takeWhile (fun x => !mine x)).any (fun x => m.conn.isSome && x.1.conn == m.conn && mVd x.1 == mVd m) then
    .next (if s.kcpHeld.any mine then s else { s with kcpHeld := s.kcpHeld ++ [(m, i)] })
  else k { s with kcpHeld := s.kcpHeld.erase (m, i) }

/-- The frame of a message of code `op`: a malformed one is answered so and has no effect; one of another code is another
step's; one that names a device not open, or one its association may not command, is turned away. -/
def message (i : Instr) (op : Nat) (m : Kcp) (s : State) (bodyOk : List Byte → Bool) (mine : List Byte → Bool)
    (k : State → Nat → VD → List Byte → Out) : Out :=
  if received s m = false then .next s
  else if headOk m = true ∧ (mOp m ≠ op ∨ bodyOk (mBody m) = true ∧ mine (mBody m) = false) then .next s
  else
    inTurn i m s fun s =>
      if headOk m = false ∨ bodyOk (mBody m) = false then .next (answer s m kMalformed 0 [])
      else
        match vdOf s (mVd m) with
        | none => .next (answer s m kNoVd 0 [])
        | some d => if m.vds.elem (mVd m) then k s (mVd m) d (mBody m) else .next (answer s m kDenied 0 [])

/-! ## OPEN_VD (R212, R213, R215, R218, R236) -/

/-- The ranges of an OPEN_VD body (R89, R168, R204, R211, R212). -/
def openOk (b : List Byte) : Bool :=
  b.length == 336 && fld (leAt b 0 8) 63 52 == 0 && fld (leAt b 0 8) 15 0 == 0 &&
  fld (leAt b 8 8) 63 56 == 0 && fld (leAt b 8 8) 11 4 == 0 && decide (leAt b 8 1 % 16 ≤ 12) &&
  leAt b 24 8 % 65536 == 0 && decide (leAt b 72 1 ≤ 63) && (leAt b 70 2 != 0 || leAt b 72 1 == 0) &&
  decide (leAt b 73 1 ≤ 16) && leAt b 75 1 == 0

/-- Whether two sets of plots are neither disjoint nor equal (R215). -/
def partOverlap (a b : Nat) : Bool := a &&& b != 0 && a != b

/-- The checks of R213, R215, R218 and R236. -/
def mayOpen (s : State) (m : Kcp) (b : List Byte) : Bool :=
  let mask := leAt b 48 16
  m.vds.elem (mVd m) && !isOpen s (mVd m) &&
  (s.full || (s.bringup != .done && mVd m == 0 && decide (mask < 256))) &&
  !s.vds.any (fun x => partOverlap x.2.plotmask mask) &&
  (List.range 128).all (fun p => mask / 2 ^ p % 2 == 0 || !(isRetired s (unitPlot p) || isRetired s (unitCC p))) &&
  leAt b 64 2 != 0 && decide (leAt b 76 4 < 8)

/-- A device as it is opened. -/
def newVd (s : State) (b : List Byte) : VD :=
  { ptbase := leAt b 0 8, fbbase := BitVec.ofNat 64 (leAt b 8 8), spillva := leAt b 16 8, spilllen := leAt b 24 8,
    backpa := leAt b 32 8, backlen := leAt b 40 8, plotmask := leAt b 48 16, waymask := leAt b 64 2, chshare := leAt b 66 2,
    weight := leAt b 68 2, domain := leAt b 70 2, domix := leAt b 72 1, nodesz := leAt b 73 1, rank := leAt b 74 1,
    caps := leAt b 76 4, nodeids := (List.range 16).map (fun i => leAt b (80 + 16 * i) 16), qmask := 0xFFFF, engid := 0,
    peer := 0, slot := 0, rmsel := 0, mons := [], monlogs := [], events := [],
    sliceOn := !(sharers s (leAt b 48 16)).any (sliceOn s), sliceAt := s.time, segs := [], back := [] }

/-- OPEN_VD. -/
def execOpenVd (m : Kcp) (s : State) : Out :=
  if received s m = false then .next s
  else if headOk m = true ∧ mOp m ≠ 1 then .next s
  else
    inTurn (.openVd m) m s fun s =>
      if headOk m = false ∨ openOk (mBody m) = false then .next (answer s m kMalformed 0 [])
      else if mayOpen s m (mBody m) then .next (answer (setVd s (mVd m) (newVd s (mBody m))) m kOK 0 [])
      else .next (answer s m kDenied 0 [])

/-! ## CLOSE_VD (R213, R221, R225) -/

/-- The waiting launches of a device are gone; those of the host are answered NO_VD. -/
def dropWaitingOf (s : State) (v : Nat) : State :=
  let mine := s.waiting.filter (fun w => w.vd == v)
  let s := { s with waiting := s.waiting.filter (fun w => w.vd != v) }
  mine.foldl (fun s w => match w.origin with
    | .host tag => launchReply s v tag.toNat kNoVd 0
    | .thread .. => s) s

/-- Every engagement that a device owns closes, and it leaves those it has joined. -/
def leaveSlots (s : State) (v : Nat) : State :=
  let owned := (s.slots.filter (fun k => k.2.st == .opened && k.2.owner == v)).map (·.1)
  let s := owned.foldl (fun s k => scrub s k false) s
  { s with slots := s.slots.map (fun k => (k.1, { k.2 with joined := k.2.joined.filter (· != v) })) }

/-- CLOSE_VD. Nursery service ends with the last device once bring-up is complete (R236). -/
def execCloseVd (m : Kcp) (s : State) : Out :=
  message (.closeVd m) 2 m s (·.isEmpty) (fun _ => true) fun s v d _ =>
    let s := dropWaitingOf s v
    let s := ((s.launches.filter (fun l => l.2.vd == v)).map (·.1)).foldl (fun s q => endLaunch s q 0 0 true) s
    let s := leaveSlots s v
    let s := { s with vds := remove s.vds v, xt := s.xt.filter (fun x => x.vd != v), colls := s.colls.filter (fun c => c.2.vd != v) }
    let s := inheritSlice s v d.plotmask
    .next (answer { s with full := s.full || (s.bringup == .done && s.vds.isEmpty) } m kOK 0 [])

/-! ## MAP (R93, R213) -/

def mapOk (b : List Byte) : Bool :=
  decide (24 ≤ b.length) && decide (leAt b 16 4 ≤ 4096) && b.length == 24 + 16 * leAt b 16 4 && leAt b 20 4 == 0

/-- The entries written in order, each as one store; an address that no memory has stops them with PHYS_HOLE. -/
def mapStores (b : List Byte) : List Nat → State → State × Option Nat
  | [], s => (s, none)
  | i :: is, s =>
    let pa := leAt b (24 + 16 * i) 8
    match regionAt s pa with
    | .dram =>
      mapStores b is { s with mem := writeRaw s.mem pa 8 (leAt b (32 + 16 * i) 8), poison := poisonAfter s.poison pa 8 (sectorsOf pa 8) }
    | _ => (s, some 0x27)

/-- Whether a page of 64 KiB lies in an invalidated range. -/
def inRange (va size page : Nat) : Bool := decide (0 < size) && decide (va / 65536 ≤ page) && decide (page ≤ (va + size - 1) / 65536)

/-- What is held on a page of an invalidated range is tried again (R93, R104, R146, R402). -/
def invalidate (s : State) (v va size : Nat) : State :=
  let s := dropXt s v va size
  let hit := inRange va size
  let port := fun (p : Port) =>
    if p.spill.any (fun e => hit e.page) || (match p.linkHeld with | some a => hit (pageOf a) | none => false)
    then { p with retryNow := true } else p
  let copy := fun (e : CopyEnt) => match e with
    | .op j => .op (if j.held && j.pages.any hit then { j with retryNow := true } else j)
    | e => e
  let launch := fun (l : Launch) =>
    if l.vd = v then { l with ports := l.ports.map (fun x => (x.1, port x.2)), copyQ := l.copyQ.map (fun q => (q.1, q.2.map copy)) } else l
  { s with
    launches := s.launches.map (fun x => (x.1, launch x.2))
    colls := s.colls.map (fun c =>
      (c.1, if c.2.vd = v ∧ c.2.retryAt.isSome ∧ c.2.pages.any (fun p => hit p.2) then { c.2 with retryNow := true } else c.2)) }

def execMap (m : Kcp) (s : State) : Out :=
  message (.map m) 3 m s mapOk (fun _ => true) fun s v _ b =>
    match mapStores b (List.range (leAt b 16 4)) s with
    | (s, none) => .next (answer (invalidate s v (leAt b 0 8) (leAt b 8 8)) m kOK 0 [])
    | (s, some c) => .next (answer (invalidate s v (leAt b 0 8) (leAt b 8 8)) m kFault c [])

/-! ## WRITE and READ (R213, R228, R229) -/

/-- The context of the host's accesses: GID and PKEY are not checked. -/
def hostCtx (v : Nat) : Ctx := { vd := v, lseq := 0, gid := 0, pkeys := BitVec.allOnes 64, agent := .host }

/-- What ended a host access: all of it was made; a cause, with the bytes before the failing page; or a wait for room in
the block store. -/
inductive HostEnd
  | ok
  | bad (cause : Nat)
  | wait
  deriving DecidableEq, Repr

/-- Bytes of one page at an address. -/
def hostPiece (va n : Nat) : Nat := Nat.min n (65536 - va % 65536)

/-- A write page by page; the first failing page ends it. -/
def hostWrite (v : Nat) : Nat → Nat → List Byte → State → State × HostEnd
  | 0, _, _, s => (s, .ok)
  | f + 1, va, bs, s =>
    if bs.isEmpty then (s, .ok)
    else
      let k := hostPiece va bs.length
      match storeVA s (hostCtx v) va k 1 (bytesNat (bs.take k)) with
      | (s, .ok _) => hostWrite v f (va + k) (bs.drop k) s
      | (s, .bad c _) => (s, .bad c)
      | (s, .hold _) => (s, .wait)

/-- A read page by page; the first failing page ends it. -/
def hostRead (v : Nat) : Nat → Nat → Nat → State → State × List Byte × HostEnd
  | 0, _, _, s => (s, [], .ok)
  | f + 1, va, n, s =>
    if n = 0 then (s, [], .ok)
    else
      let k := hostPiece va n
      match loadVA s (hostCtx v) .read va k 1 with
      | (s, .ok x) => let r := hostRead v f (va + k) (n - k) s; (r.1, natBytes k x ++ r.2.1, r.2.2)
      | (s, .bad c _) => (s, [], .bad c)
      | (s, .hold _) => (s, [], .wait)

/-- The reply to an access. One that waits has no effect and stands first among the messages that wait. -/
def endAccess (i : Instr) (s0 s : State) (m : Kcp) (body : List Byte) : HostEnd → Out
  | .ok => .next (answer s m kOK 0 body)
  | .bad c => .next (answer s m kFault c body)
  | .wait => .next { s0 with kcpHeld := (m, i) :: s0.kcpHeld }

def execWrite (m : Kcp) (s : State) : Out :=
  message (.write m) 4 m s (fun b => decide (16 ≤ b.length) && leAt b 8 8 == 0) (fun _ => true) fun s v _ b =>
    let (s', e) := hostWrite v (b.length / 65536 + 2) (leAt b 0 8) (b.drop 16) s
    endAccess (.write m) s s' m [] e

def execRead (m : Kcp) (s : State) : Out :=
  message (.read m) 5 m s (fun b => b.length == 16 && decide (leAt b 8 8 ≤ bodyMax)) (fun _ => true) fun s v _ b =>
    let (s', bs, e) := hostRead v (leAt b 8 8 / 65536 + 2) (leAt b 0 8) (leAt b 8 8) s
    endAccess (.read m) s s' m bs e

/-! ## LAUNCH (R201, R213) -/

def launchOk (b : List Byte) : Bool := b.length == 88 && decide (leAt b 0 1 ≤ 3) && leAt b 2 6 == 0

/-- PARTMAP of a node launch: none for a launch of a device in no node that maps every partition to rank 0 (R201). -/
def partmapOf (d : VD) (b : List Byte) : Option (List Nat) :=
  let ranks := (List.range 64).map (fun q => leAt b (24 + q) 1)
  if d.nodesz ≤ 1 ∧ ranks.all (· == 0) then none else some ranks

def execLaunchStart (m : Kcp) (s : State) : Out :=
  message (.launchStart m) 6 m s launchOk (fun b => leAt b 0 1 == 0) fun s v d b =>
    .next (submit s v (leAt b 1 1) (leAt b 8 8) (.host (BitVec.ofNat 64 (mTag m))) (partmapOf d b))

/-- The frame of a message that names a launch of its device. -/
def launchMessage (i : Instr) (op : Nat) (m : Kcp) (s : State) (k : State → Launch → State) : Out :=
  message i 6 m s launchOk (fun b => leAt b 0 1 == op) fun s v _ b =>
    match launchOf s (leAt b 16 8) with
    | some l =>
      if l.vd = v then .next (answer (k s l) m kOK 0 (natBytes 8 l.lseq)) else .next (answer s m kNotFound 0 (natBytes 8 0))
    | none => .next (answer s m kNotFound 0 (natBytes 8 0))

def execLaunchResume (m : Kcp) (s : State) : Out := launchMessage (.launchResume m) 1 m s resumeLaunch

def execLaunchEnd (m : Kcp) (s : State) : Out := launchMessage (.launchEnd m) 2 m s fun s l => endLaunch s l.lseq stOK 0 false

/-- A launch pre-empted and held, with whatever else was asked of it. -/
def drainLaunch (s : State) (l : Launch) : State :=
  if l.frozen.isEmpty then freezeLaunch s l (.drain :: l.asked) else setLaunch s { l with frozen := addFreeze l.frozen .drain }

def execLaunchDrain (m : Kcp) (s : State) : Out := launchMessage (.launchDrain m) 3 m s drainLaunch

/-! ## EVENTS (R213) -/

def eventsOk (b : List Byte) : Bool := b.length == 4 && decide (1 ≤ leAt b 0 4) && decide (leAt b 0 4 ≤ 65536)

def execEvents (m : Kcp) (s : State) : Out :=
  message (.events m) 7 m s eventsOk (fun _ => true) fun s v d b =>
    let out := d.events.take (leAt b 0 4)
    .next (answer (setVd s v { d with events := d.events.drop (leAt b 0 4) }) m kOK 0
      (natBytes 4 out.length ++ natBytes 4 0 ++ (out.map (natBytes 32)).flatten))

/-! ## ATTEST (R231, R235) -/

/-- Whether a retirement record's signatures and unused bytes are as they were written (R197). -/
def recordOk (r : List Byte) : Bool := r == signed (r.take 64) ++ natBytes 652 0

/-- Whether a unit has a record in flash. -/
def inFlash (s : State) (u : Nat) : Bool :=
  s.brock.flash.any (fun x => decide (x.1 < flashPlaces) && unitOf (leAt x.2 6 1) (leAt x.2 8 4) == u)

def flagWord (s : State) : Nat :=
  b2n (!s.full) + 2 * b2n (s.brock.flash.any (fun x => !recordOk x.2)) + 4 * b2n (s.brock.fuses.any (fun u => !inFlash s u)) +
  8 * b2n ((List.range 192).any (fun c => isRetired s (unitChan c) && chanServes s c)) + 16 * b2n (s.bringup == .failed)

/-- Plots, channels and lane groups in service: in nursery service plots 0 to 7 and channels 0 to 7 alone (R236). -/
def plotServes (s : State) (p : Nat) : Bool :=
  !isRetired s (unitPlot p) && !isRetired s (unitCC p) && (match leaseOf s (unitPlot p) with | some x => x.st != .active | none => true)

def nplot (s : State) : Nat := ((List.range (if s.full then 128 else 8)).filter (plotServes s)).length
def nchan (s : State) : Nat := if s.full then chansIn s else ((List.range 8).filter (chanServes s)).length
def nklg (s : State) : Nat := if s.full then ((List.range 96).filter (fun g => groupIn s (unitKlink g))).length else 0
def nucg (s : State) : Nat := if s.full then ((List.range 512).filter (fun g => groupIn s (unitUcie g))).length else 0

def runningImage (s : State) : FwPlace := s.fw.getD s.running { valid := false, svn := 0, digest := 0 }

/-- The report, signed over its first 144 bytes, and the certificate. -/
def report (s : State) (nonce : List Byte) : List Byte :=
  signed (natBytes 4 0x3154414B ++ natBytes 2 1 ++ natBytes 2 (flagWord s) ++ natBytes 8 s.time ++ natBytes 16 Config.modid
    ++ nonce ++ natBytes 48 (runningImage s).digest ++ natBytes 4 (runningImage s).svn ++ natBytes 2 (nplot s)
    ++ natBytes 2 (nchan s) ++ natBytes 2 (nklg s) ++ natBytes 2 (nucg s)
    ++ natBytes 2 (s.vds.foldl (fun n x => n + 2 ^ x.1) 0) ++ natBytes 2 Config.cert.length
    ++ natBytes 2 (s.slots.filter (fun k => k.2.st == .opened)).length ++ natBytes 2 0 ++ natBytes 4 s.l2ce
    ++ natBytes 8 s.energy) ++ Config.cert

/-- Energy drawn since the last sample, a free amount; the counter saturates (R235). -/
def sampleEnergy (s : State) : State :=
  { s with energy := Nat.min (s.energy + Config.freeNat s.free) (2 ^ 64 - 1), free := s.free + 1 }

/-- ATTEST. One that comes under no security association, as it may before every OPEN_VD of its connection, is answered
whatever device it names: attestation precedes the first device (R210, R236, log 69). -/
def execAttest (m : Kcp) (s : State) : Out :=
  if m.vds = [] then
    if received s m = false then .next s
    else if headOk m = true ∧ mOp m ≠ 8 then .next s
    else if headOk m = false ∨ (mBody m).length ≠ 32 then .next (answer s m kMalformed 0 [])
    else let s := sampleEnergy s; .next (answer s m kOK 0 (report s (mBody m)))
  else
    message (.attest m) 8 m s (fun b => b.length == 32) (fun _ => true) fun s _ _ b =>
      let s := sampleEnergy s
      .next (answer s m kOK 0 (report s b))

/-! ## LOG_FETCH and RECEIPT_FETCH (R225, R229) -/

def logOk (b : List Byte) : Bool :=
  b.length == 12 && decide (leAt b 0 1 ≤ 1) && decide (leAt b 1 1 ≤ 15) && leAt b 2 2 == 0 && decide (leAt b 8 4 ≤ 1023) &&
  (leAt b 0 1 == 0 || leAt b 1 1 == 0)

def blocksBody (bs : List (List Byte)) : List Byte := natBytes 4 bs.length ++ natBytes 4 0 ++ bs.flatten

/-- LOG_FETCH: blocks of a monitor, which may then be overwritten, or retirement records in the order of their places. -/
def execLogFetch (m : Kcp) (s : State) : Out :=
  message (.logFetch m) 9 m s logOk (fun _ => true) fun s v d b =>
    let from_ := leAt b 4 4; let most := leAt b 8 4
    if leAt b 0 1 = 1 then .next (answer s m kOK 0 (blocksBody (((s.brock.flash.map (·.2)).drop from_).take most)))
    else
      let mon := leAt b 1 1
      let l := logOf d mon
      let out := (l.blocks.filter (fun x => decide (from_ ≤ x.1))).take most
      let l := { l with fetched := out.foldl (fun f x => addNat f x.1) l.fetched }
      let s := if out.isEmpty then s else setVd s v (setLog d mon l)
      .next (answer s m kOK 0 (blocksBody (out.map (·.2))))

/-- RECEIPT_FETCH: the latest receipt of an engagement. -/
def execReceiptFetch (m : Kcp) (s : State) : Out :=
  message (.receiptFetch m) 10 m s (fun b => b.length == 4) (fun _ => true) fun s _ _ b =>
    match s.receipts.reverse.find? (fun r => r.engid == leAt b 0 4) with
    | some r => .next (answer s m kOK 0 r.bytes)
    | none => .next (answer s m kNotFound 0 [])

end Sys2Proof.Machine
end

