-- ==== Sys2Proof/Machine/Power.lean ====
section
/-!
DEFINITION. The module as a whole (10_sharing_the_device.md R230 to R236; 08 R195 to R197; 09 R204, R205): power-on and
nursery service, firmware updates, the power arbiter, and the accesses of other modules to this one's memory.
-/
namespace Sys2Proof.Machine

/-! ## Firmware places (R230) -/

/-- Whether an image may run: both signatures verify, and its SVN is not below the highest ever run. -/
def mayRun (s : State) (f : FwPlace) : Bool := f.valid && decide (s.maxSvn ≤ f.svn)

/-- The image that runs at power-on: the valid one with the higher SVN; 2 for none. Of two valid images with the same SVN the rule names
none: the model runs that of place 0 (DESIGN CHOICE, log 110). -/
def imageToRun (s : State) : Nat :=
  match s.fw with
  | [a, b] =>
    if mayRun s a && (!mayRun s b || decide (b.svn ≤ a.svn)) then 0
    else if mayRun s b then 1
    else 2
  | _ => 2

/-! ## Retirements rebuilt (R195 to R197) -/

/-- The unit and the REASON that a retirement record names. -/
def recordUnit (r : List Byte) : Nat := unitOf (leAt r 6 1) (leAt r 8 4)
def recordReason (r : List Byte) : Nat := leAt r 7 1

/-- The units that records and fuses keep out of service. -/
def excluded (flash : Assoc (List Byte)) (fuses : List Nat) : List Nat :=
  (flash.filter (fun x => recordReason x.2 != 3)).foldl (fun l x => addNat l (recordUnit x.2)) fuses

/-- The retired channels in record order, read as the order of their places in flash (log 92), then those of fuses alone;
one that is resident is passed over. -/
def channelsToMove (flash : Assoc (List Byte)) (fuses : List Nat) : List Nat :=
  let resident := (flash.filter (fun x => recordReason x.2 == 3)).map (fun x => recordUnit x.2)
  let named := (flash.filter (fun x => recordReason x.2 != 3)).map (fun x => recordUnit x.2)
  ((named ++ fuses.filter (fun u => !named.elem u)).filter (fun u => classOf u == .chan && !resident.elem u)).eraseDups

/-- Retirements and spare windows rebuilt from flash and fuses; records kept in IOA memory are gone. -/
def rebuild (s : State) (b : Brock) : State :=
  let flash := b.flash.filter (fun x => decide (x.1 < flashPlaces))
  let s := setBrock s { Brock.init with flash := flash, worn := b.worn, fuses := b.fuses, retired := excluded flash b.fuses
                                        serial := b.serial }
  (channelsToMove flash b.fuses).foldl (fun s u => (migrate s (unitId u)).getD s) s

/-! ## POWER_ON (R230, R236) -/

/-- POWER_ON: everything starts as after reset but for what flash and fuses keep; the image that runs is chosen, and the
module gives nursery service. The model's own schedule goes on. -/
def execPowerOn (s : State) : Out :=
  let r := { State.reset with agenda := s.agenda, pace := s.pace, turn := s.turn, free := s.free, lateLoads := s.lateLoads
                              fw := s.fw, maxSvn := s.maxSvn, running := imageToRun s }
  let r := match s.fw[imageToRun s]? with
    | some f => { r with maxSvn := Nat.max s.maxSvn f.svn }
    | none => r
  .next (rebuild r s.brock)

/-- NURSERY_EXIT (R236): bring-up ends, well or not; once it is complete and no device is open, full service begins. -/
def execNurseryExit (ok : Bool) (s : State) : Out :=
  let s := if s.bringup = .running then { s with bringup := if ok then .done else .failed } else s
  if s.bringup = .done ∧ s.vds = [] then .next { s with full := true } else .next s

/-! ## FIRMWARE_UPDATE (R195, R230) -/

/-- Retirement records removed by a signed update: the units they alone retired return to service, and a channel's windows
to its own rows. -/
def removeRecords (s : State) (places : List Nat) : State :=
  let flash := s.brock.flash.filter (fun x => !places.elem x.1)
  let ret := excluded flash s.brock.fuses
  setBrock s { s.brock with flash := flash, retired := ret
                            remaps := s.brock.remaps.filter (fun r => ret.elem (unitChan (r.1 / 4096))) }

/-- FIRMWARE_UPDATE: an image place is written; records are removed where the signatures verify. -/
def execFirmwareUpdate (place svn digest : Nat) (valid : Bool) (removed : List Nat) (s : State) : Out :=
  let s := { s with fw := setNth s.fw place { valid := valid, svn := svn % 2 ^ 32, digest := digest % 2 ^ 384 } }
  .next (if valid then removeRecords s removed else s)

/-! ## POWER_ARBITRATION (R184, R232 to R235) -/

/-- POWER_ARBITRATION: the arbiter divides the module's power every 100 µs (R232). -/
def execPowerArbitration (s : State) : Out := .next (arbitrate s)

/-! ## REMOTE_ACCESS (R204, R205) -/

/-- Whether a device is open here in a load-store domain. -/
def inDomain (s : State) (v domain : Nat) : Bool :=
  domain != 0 && (match vdOf s v with | some d => d.domain == domain | none => false)

/-- Bytes that a remote operation covers. -/
def remoteLen : RemoteOp → Nat
  | .read n => n
  | .write d => d.length
  | .amo _ n _ => n
  | .cas n _ _ => n

/-- The effect of a remote operation at a DRAM address under an engagement's key. An atomic that meets poison is not
performed. -/
def remoteEffect (s : State) (eng a : Nat) : RemoteOp → State
  | .read _ => s
  | .write d => writeKeyed s eng a d.length (bytesNat d)
  | .amo op n x => if poisoned s a n then s else writeKeyed s eng a n (amoVal op n (readKeyed s eng a n) x)
  | .cas n e x => if poisoned s a n then s else if readKeyed s eng a n = e then writeKeyed s eng a n x else s

/-- REMOTE_ACCESS: another member's access is performed at its address under the same slot number, if its virtual device holds
the slot here; what it reads, or the cause of its failure, goes to the member that asked. -/
def execRemoteAccess (r : RemoteReq) (s : State) : Out :=
  if inDomain s r.vd r.domain ∧ regionAt s r.addr = .dram ∧ regionAt s (r.addr + remoteLen r.op - 1) = .dram ∧
      keyCheck s r.vd r.slot = none then
    .next (remoteEffect s (slotOf s r.slot).engid r.addr r.op)
  else .next s

end Sys2Proof.Machine
end

