-- ==== Sys2Proof/Machine/Dispatch.lean ====
section
/-!
DEFINITION. What each step of the machine does: one arm for each row of spec/opcode_table.json, in the table's order.
-/
namespace Sys2Proof.Machine

/-- The meaning of one step. -/
def exec (i : Instr) (s : State) : Host.Outcome State Fault Refusal :=
  match i with
  | .powerOn => Sys2Proof.Machine.execPowerOn s
  | .nurseryExit ok => Sys2Proof.Machine.execNurseryExit ok s
  | .openVd m => Sys2Proof.Machine.execOpenVd m s
  | .closeVd m => Sys2Proof.Machine.execCloseVd m s
  | .map m => Sys2Proof.Machine.execMap m s
  | .write m => Sys2Proof.Machine.execWrite m s
  | .read m => Sys2Proof.Machine.execRead m s
  | .launchStart m => Sys2Proof.Machine.execLaunchStart m s
  | .launchResume m => Sys2Proof.Machine.execLaunchResume m s
  | .launchEnd m => Sys2Proof.Machine.execLaunchEnd m s
  | .launchDrain m => Sys2Proof.Machine.execLaunchDrain m s
  | .events m => Sys2Proof.Machine.execEvents m s
  | .attest m => Sys2Proof.Machine.execAttest m s
  | .logFetch m => Sys2Proof.Machine.execLogFetch m s
  | .receiptFetch m => Sys2Proof.Machine.execReceiptFetch m s
  | .placement => Sys2Proof.Machine.execPlacement s
  | .queueRetry => Sys2Proof.Machine.execQueueRetry s
  | .threadAdmission cc => Sys2Proof.Machine.execThreadAdmission cc s
  | .gangStart lseq => Sys2Proof.Machine.execGangStart lseq s
  | .launchComplete lseq => Sys2Proof.Machine.execLaunchComplete lseq s
  | .instructionIssue cc => Sys2Proof.Machine.execInstructionIssue cc s
  | .wfeWake tid => Sys2Proof.Machine.execWfeWake tid s
  | .loadReturn tid => Sys2Proof.Machine.execLoadReturn tid s
  | .siblingWindowRelease tid => Sys2Proof.Machine.execSiblingWindowRelease tid s
  | .remoteAccess r => Sys2Proof.Machine.execRemoteAccess r s
  | .correctedError unit => Sys2Proof.Machine.execCorrectedError unit s
  | .backedPageResident plot page => Sys2Proof.Machine.execBackedPageResident plot page s
  | .tokenArrival lseq chan => Sys2Proof.Machine.execTokenArrival lseq chan s
  | .edgePortCrossing lseq chan => Sys2Proof.Machine.execEdgePortCrossing lseq chan s
  | .handlerFiring pe => Sys2Proof.Machine.execHandlerFiring pe s
  | .handlerPromotion pe h => Sys2Proof.Machine.execHandlerPromotion pe h s
  | .planeSwap pe => Sys2Proof.Machine.execPlaneSwap pe s
  | .matrixPlotSwap plot => Sys2Proof.Machine.execMatrixPlotSwap plot s
  | .matrixVector plot => Sys2Proof.Machine.execMatrixVector plot s
  | .loadw plot => Sys2Proof.Machine.execLoadw plot s
  | .agElement lseq node => Sys2Proof.Machine.execAgElement lseq node s
  | .heldElementRetry lseq node => Sys2Proof.Machine.execHeldElementRetry lseq node s
  | .fifoSpill lseq chan => Sys2Proof.Machine.execFifoSpill lseq chan s
  | .streamEnd lseq node => Sys2Proof.Machine.execStreamEnd lseq node s
  | .commandIssue tid => Sys2Proof.Machine.execCommandIssue tid s
  | .copyUnit die => Sys2Proof.Machine.execCopyUnit die s
  | .eventRecordPost cc => Sys2Proof.Machine.execEventRecordPost cc s
  | .taskStart lseq q => Sys2Proof.Machine.execTaskStart lseq q s
  | .collectiveStart vd comm => Sys2Proof.Machine.execCollectiveStart vd comm s
  | .collectiveCombine vd comm => Sys2Proof.Machine.execCollectiveCombine vd comm s
  | .collectiveComplete vd comm => Sys2Proof.Machine.execCollectiveComplete vd comm s
  | .collectiveAbandon vd comm => Sys2Proof.Machine.execCollectiveAbandon vd comm s
  | .faultRecordWrite lseq => Sys2Proof.Machine.execFaultRecordWrite lseq s
  | .replayRequest lseq idx => Sys2Proof.Machine.execReplayRequest lseq idx s
  | .replayToken lseq idx => Sys2Proof.Machine.execReplayToken lseq idx s
  | .owlFire lseq part => Sys2Proof.Machine.execOwlFire lseq part s
  | .preemption lseq => Sys2Proof.Machine.execPreemption lseq s
  | .timeSliceEnd vd => Sys2Proof.Machine.execTimeSliceEnd vd s
  | .relocation lseq => Sys2Proof.Machine.execRelocation lseq s
  | .restore lseq => Sys2Proof.Machine.execRestore lseq s
  | .variantNarrow lseq => Sys2Proof.Machine.execVariantNarrow lseq s
  | .powerArbitration => Sys2Proof.Machine.execPowerArbitration s
  | .scoreDecay => Sys2Proof.Machine.execScoreDecay s
  | .routineLease unit => Sys2Proof.Machine.execRoutineLease unit s
  | .plotLease plot => Sys2Proof.Machine.execPlotLease plot s
  | .leaseDeferredRetry unit => Sys2Proof.Machine.execLeaseDeferredRetry unit s
  | .leaseForce plot => Sys2Proof.Machine.execLeaseForce plot s
  | .laneGroupLease unit => Sys2Proof.Machine.execLaneGroupLease unit s
  | .memoryWindowTest chan res => Sys2Proof.Machine.execMemoryWindowTest chan res s
  | .leaseEnd unit res => Sys2Proof.Machine.execLeaseEnd unit res s
  | .retirement unit => Sys2Proof.Machine.execRetirement unit s
  | .linkRetry unit => Sys2Proof.Machine.execLinkRetry unit s
  | .engagementOpen a => Sys2Proof.Machine.execEngagementOpen a s
  | .engagementClose a => Sys2Proof.Machine.execEngagementClose a s
  | .engagementGrant a => Sys2Proof.Machine.execEngagementGrant a s
  | .engctlSet a => Sys2Proof.Machine.execEngctlSet a s
  | .fbstatWrite a => Sys2Proof.Machine.execFbstatWrite a s
  | .vdqmaskWrite a => Sys2Proof.Machine.execVdqmaskWrite a s
  | .monitorConfigWrite sr a => Sys2Proof.Machine.execMonitorConfigWrite sr a s
  | .monitorWindowEnd vd mon => Sys2Proof.Machine.execMonitorWindowEnd vd mon s
  | .logBlockSeal vd mon => Sys2Proof.Machine.execLogBlockSeal vd mon s
  | .nop => Sys2Proof.Machine.execNop s
  | .add d a b => Sys2Proof.Machine.execAdd d a b s
  | .sub d a b => Sys2Proof.Machine.execSub d a b s
  | .mul d a b => Sys2Proof.Machine.execMul d a b s
  | .mulh d a b => Sys2Proof.Machine.execMulh d a b s
  | .mulhu d a b => Sys2Proof.Machine.execMulhu d a b s
  | .div d a b => Sys2Proof.Machine.execDiv d a b s
  | .divu d a b => Sys2Proof.Machine.execDivu d a b s
  | .rem d a b => Sys2Proof.Machine.execRem d a b s
  | .remu d a b => Sys2Proof.Machine.execRemu d a b s
  | .and d a b => Sys2Proof.Machine.execAnd d a b s
  | .or d a b => Sys2Proof.Machine.execOr d a b s
  | .xor d a b => Sys2Proof.Machine.execXor d a b s
  | .sll d a b => Sys2Proof.Machine.execSll d a b s
  | .srl d a b => Sys2Proof.Machine.execSrl d a b s
  | .sra d a b => Sys2Proof.Machine.execSra d a b s
  | .min d a b => Sys2Proof.Machine.execMin d a b s
  | .max d a b => Sys2Proof.Machine.execMax d a b s
  | .minu d a b => Sys2Proof.Machine.execMinu d a b s
  | .maxu d a b => Sys2Proof.Machine.execMaxu d a b s
  | .clz d a => Sys2Proof.Machine.execClz d a s
  | .ctz d a => Sys2Proof.Machine.execCtz d a s
  | .popc d a => Sys2Proof.Machine.execPopc d a s
  | .addsc k d a b => Sys2Proof.Machine.execAddsc k d a b s
  | .sel n d a b => Sys2Proof.Machine.execSel n d a b s
  | .addImm d a imm => Sys2Proof.Machine.execAddImm d a imm s
  | .andImm d a imm => Sys2Proof.Machine.execAndImm d a imm s
  | .orImm d a imm => Sys2Proof.Machine.execOrImm d a imm s
  | .xorImm d a imm => Sys2Proof.Machine.execXorImm d a imm s
  | .sllImm d a m => Sys2Proof.Machine.execSllImm d a m s
  | .srlImm d a m => Sys2Proof.Machine.execSrlImm d a m s
  | .sraImm d a m => Sys2Proof.Machine.execSraImm d a m s
  | .addLong d a imm => Sys2Proof.Machine.execAddLong d a imm s
  | .andLong d a imm => Sys2Proof.Machine.execAndLong d a imm s
  | .orLong d a imm => Sys2Proof.Machine.execOrLong d a imm s
  | .xorLong d a imm => Sys2Proof.Machine.execXorLong d a imm s
  | .bfx d a pos lenm1 => Sys2Proof.Machine.execBfx d a pos lenm1 s
  | .bfxS d a pos lenm1 => Sys2Proof.Machine.execBfxS d a pos lenm1 s
  | .bfi d a pos lenm1 => Sys2Proof.Machine.execBfi d a pos lenm1 s
  | .cmpCc p c a b => Sys2Proof.Machine.execCmpCc p c a b s
  | .cmpCcImm p c a imm => Sys2Proof.Machine.execCmpCcImm p c a imm s
  | .ld d a sz u off => Sys2Proof.Machine.execLd d a sz u off s
  | .st b a sz off => Sys2Proof.Machine.execSt b a sz off s
  | .ldAcq d a sz u scope off => Sys2Proof.Machine.execLdAcq d a sz u scope off s
  | .stRel b a sz scope off => Sys2Proof.Machine.execStRel b a sz scope off s
  | .amoW op d a b ord scope => Sys2Proof.Machine.execAmoW op d a b ord scope s
  | .amoD op d a b ord scope => Sys2Proof.Machine.execAmoD op d a b ord scope s
  | .casW d a b ord scope => Sys2Proof.Machine.execCasW d a b ord scope s
  | .casD d a b ord scope => Sys2Proof.Machine.execCasD d a b ord scope s
  | .cas16 d a b ord scope => Sys2Proof.Machine.execCas16 d a b ord scope s
  | .fence scope => Sys2Proof.Machine.execFence scope s
  | .prefDc a imm => Sys2Proof.Machine.execPrefDc a imm s
  | .prefL2 a imm => Sys2Proof.Machine.execPrefL2 a imm s
  | .br p off => Sys2Proof.Machine.execBr p off s
  | .brN p off => Sys2Proof.Machine.execBrN p off s
  | .jal d off => Sys2Proof.Machine.execJal d off s
  | .jalr d a imm => Sys2Proof.Machine.execJalr d a imm s
  | .loop a endOff => Sys2Proof.Machine.execLoop a endOff s
  | .halt => Sys2Proof.Machine.execHalt s
  | .yield => Sys2Proof.Machine.execYield s
  | .mfs d sr => Sys2Proof.Machine.execMfs d sr s
  | .mts sr a => Sys2Proof.Machine.execMts sr a s
  | .trap e => Sys2Proof.Machine.execTrap e s
  | .rett => Sys2Proof.Machine.execRett s
  | .wfe => Sys2Proof.Machine.execWfe s
  | .getev p d => Sys2Proof.Machine.execGetev p d s
  | .wrpk a => Sys2Proof.Machine.execWrpk a s
  | .mtt n a => Sys2Proof.Machine.execMtt n a s
  | .smul d a b => Sys2Proof.Machine.execSmul d a b s
  | .smax d a b => Sys2Proof.Machine.execSmax d a b s
  | .srcp d a => Sys2Proof.Machine.execSrcp d a s
  | .sexp2 d a => Sys2Proof.Machine.execSexp2 d a s
  | .scopy d a => Sys2Proof.Machine.execScopy d a s
  | .scvt d a bf16 rm => Sys2Proof.Machine.execScvt d a bf16 rm s
  | .smov nm a => Sys2Proof.Machine.execSmov nm a s
  | .sread d nm => Sys2Proof.Machine.execSread d nm s
  | .sbindS d a => Sys2Proof.Machine.execSbindS d a s
  | .sfree a => Sys2Proof.Machine.execSfree a s
  | .sbind ctr port a u => Sys2Proof.Machine.execSbind ctr port a u s
  | .sbindHandle h port a log2n u => Sys2Proof.Machine.execSbindHandle h port a log2n u s
  | .sbar mask => Sys2Proof.Machine.execSbar mask s
  | .sbarComplete tid => Sys2Proof.Machine.execSbarComplete tid s
  | .glaunch a u => Sys2Proof.Machine.execGlaunch a u s
  | .gloadsh a u => Sys2Proof.Machine.execGloadsh a u s
  | .gswap a u => Sys2Proof.Machine.execGswap a u s
  | .gdrain a u => Sys2Proof.Machine.execGdrain a u s
  | .gresume a u => Sys2Proof.Machine.execGresume a u s
  | .gend a u => Sys2Proof.Machine.execGend a u s
  | .cpy ctr q d a l u => Sys2Proof.Machine.execCpy ctr q d a l u s
  | .cpyT ctr q d a u => Sys2Proof.Machine.execCpyT ctr q d a u s
  | .cpym ctr q d a c u => Sys2Proof.Machine.execCpym ctr q d a c u s
  | .qfence mask => Sys2Proof.Machine.execQfence mask s
  | .qfenceColl mask => Sys2Proof.Machine.execQfenceColl mask s
  | .postc q a => Sys2Proof.Machine.execPostc q a s
  | .taskend => Sys2Proof.Machine.execTaskend s
  | .evpost n a b => Sys2Proof.Machine.execEvpost n a b s
  | .coll op red fmt sc ctr q a root u => Sys2Proof.Machine.execColl op red fmt sc ctr q a root u s
  | .gbar grp => Sys2Proof.Machine.execGbar grp s
  | .gbarComplete tid => Sys2Proof.Machine.execGbarComplete tid s
  | .cbwaitf h n => Sys2Proof.Machine.execCbwaitf h n s
  | .cbwaite h n => Sys2Proof.Machine.execCbwaite h n s
  | .cbWaitComplete tid => Sys2Proof.Machine.execCbWaitComplete tid s
  | .cbadv h n => Sys2Proof.Machine.execCbadv h n s
  | .cbadvEos h n => Sys2Proof.Machine.execCbadvEos h n s
  | .cbget d h slot el => Sys2Proof.Machine.execCbget d h slot el s
  | .cbput h slot el a => Sys2Proof.Machine.execCbput h slot el a s
  | .copyUnitRetry lseq die q => Sys2Proof.Machine.execCopyUnitRetry lseq die q s
  | .nodeLaunchStart lseq => Sys2Proof.Machine.execNodeLaunchStart lseq s
  | .frozenStateStreamedOut lseq => Sys2Proof.Machine.execFrozenStateStreamedOut lseq s
  | .shadowImageLoad tid => Sys2Proof.Machine.execShadowImageLoad tid s
  | .firmwareUpdate place svn digest valid removed => Sys2Proof.Machine.execFirmwareUpdate place svn digest valid removed s

end Sys2Proof.Machine
end

