-- ==== Sys2Proof/Machine/Loader.lean ====
section
/-!
DEFINITION. Putting an instruction where the machine fetches next, and the loaded program that this takes where no thread
runs (log 17): the module runs no instruction of its own after reset.
-/
namespace Sys2Proof.Machine

/-! ## A given instruction, fetched next -/

/-- The words of an instruction whose bits are `w`, numbered as spec/opcode_table.json numbers them: the first word lowest. -/
def tableWords (w : Nat) : Nat := w % 2 ^ 64

/-- Where a thread's next eight bytes are fetched from, if both words are. -/
def fetchLocs (s : State) (t : Thread) : Option (Loc × Loc) :=
  match dataCheck s (threadCtx s t) .fetch t.pc.toNat 4 4 with
  | (_, .ok a) =>
    match dataCheck s (threadCtx s t) .fetch (t.pc + 4#64).toNat 4 4 with
    | (_, .ok b) => some (a, b)
    | _ => none
  | _ => none

/-- The next thread to issue on a CC, with the CC and its fetch locations. -/
def nextFetch (s : State) : Option (Nat × Loc × Loc) :=
  s.threads.findSome? (fun x =>
    match pickThread s x.2.plot with
    | some (_, tid) => (threadOf s tid).bind (fun t => (fetchLocs s t).map (fun l => (x.2.plot, l)))
    | none => none)

/-- The header, and the placement in plot 0 of C0, of a launch whose graph has no node. -/
def loaderHeader : Header :=
  { tvec := 0x8000, sig := 0, seed := 0, diemask := 1, domain := 0, ngrp := 0, grptab := 0, thrtab := 0, nthr := 1,
    super := true, queue := false, vd := 0, prio := 0, vset := 1, markint := 0, kgiva := 0, resv := false }

def loaderVariant : Variant := { factor := 0, parts := [(1, 1)], nodes := [], chans := [], alias_ := [], scopes := [] }

def loaderFit : Fit :=
  { variant := loaderVariant
    place := { rects := [(0, 0, 0)], plots := [0], sites := [], hidx := [], legs := [], nums := [], links := [], hnode := [0] }
    image := [loaderVariant]
    thr := [{ entry := 0x4000, nreq := 64, plotix := 0, groups := [], resv := false }]
    groups := []
    kslot := 1 }

/-- A device as OPEN_VD opens it, with every capability, plot 0, and its level-0 table at 0x10000. -/
def loaderVd : VD :=
  { ptbase := 0x10000, fbbase := 0x6000#64, spillva := 0, spilllen := 0, backpa := 0, backlen := 0, plotmask := 1,
    waymask := 1, chshare := 1, weight := 1, domain := 0, domix := 0, nodesz := 0, rank := 0, caps := 7, nodeids := [],
    qmask := 0xFFFF, engid := engOf 1 1, peer := 0, slot := 1, rmsel := 0, mons := [], monlogs := [], events := [],
    sliceOn := true, sliceAt := 0, segs := [], back := [] }

/-- A machine with one launch of one supervisor thread that runs at address 0x4000, as a host would load it: a device, an
open engagement, a table that maps the first GiB to itself, and the launch committed and its thread admitted (log 17). -/
def loadProgram (s : State) : State :=
  let w : Waiting := { ticket := 0, hdr := loaderHeader, gid := 0, vd := 0, origin := .host 0#64, parked := false, again := false, partmap := none }
  let l := newLaunch s w loaderFit (s.lseq + 1)
  let mem := writeRaw (writeRaw s.mem 0x10000 8 0x20001) 0x20000 8 0x2F
  let s := { s with
    lseq := s.lseq + 1
    vds := insert s.vds 0 loaderVd
    slots := insert s.slots 1 { st := .opened, epoch := 1, engid := engOf 1 1, owner := 0, joined := [], granted := [],
                                openAt := 0, closeAt := 0, holders := [], frames := [], plots := [0], backs := [], rings := [] }
    mem := mem
    keytags := []
    poison := []
    xt := []
    launches := [(l.lseq, l)]
    plots := [(0, { Plot.empty with holder := some l.lseq })] }
  { s with threads := [(s.nextTid, { newThread l 0 0 0x4000 64 true with idx := some 0 })], nextTid := s.nextTid + 1 }

/-- The bytes of an instruction put where a thread's two words are fetched, and its CC to issue next. -/
def placeWord (s : State) (cc : Nat) (a b : Loc) (w : Nat) : State :=
  { writeLoc (writeLoc s a 4 (w % 2 ^ 32)) b 4 (w / 2 ^ 32 % 2 ^ 32) with agenda := .instructionIssue cc :: s.agenda, latch := none }

/-- A machine that can fetch, with the place of its next fetch: the given one, or one with a program loaded. -/
def readyToFetch (s : State) : Option (State × Nat × Loc × Loc) :=
  match nextFetch s with
  | some x => some (s, x)
  | none => (nextFetch (loadProgram s)).map (fun x => (loadProgram s, x))

/-- The state with an instruction stored where the next step fetches it. -/
def storeNext (s : State) (w : Nat) : State :=
  match readyToFetch s with
  | some (s, cc, a, b) => placeWord s cc a b (tableWords w)
  | none => s

end Sys2Proof.Machine
end

