-- ==== Sys2Proof/Machine/Sched.lean ====
section
/-!
DEFINITION. Which step comes next. Which agent moves is an input: `State.agenda` lists the steps to come, and where it is
empty the agents of the module take turns (log 1). Time moves on before each step by the ticks `State.pace` lists (log 2).
An instruction of a control thread runs only when INSTRUCTION_ISSUE has fetched it, in the same step.
-/
namespace Sys2Proof.Machine

/-! ## Schedule -/

/-- Whether a row is an instruction of a control thread, or another name of one: it comes from a fetch alone. -/
def ofThread (i : Instr) : Bool :=
  match i with
  | .engagementOpen _ | .engagementClose _ | .engagementGrant _ | .engctlSet _ | .fbstatWrite _ | .vdqmaskWrite _
  | .monitorConfigWrite _ _ => true
  | i => !(encode i).isEmpty

/-- The steps that a thread's state calls for. -/
def threadSteps (s : State) (tid : Nat) (t : Thread) : List Instr :=
  (if eligible s t then [.instructionIssue t.plot] else []) ++
  (if t.loads.isEmpty then [] else [.loadReturn tid]) ++
  match t.stat with
  | .waiting w => match w with
    | .wfe => [.wfeWake tid]
    | .cbFull _ _ | .cbEmpty _ _ => [.cbWaitComplete tid]
    | .sbar _ => [.sbarComplete tid]
    | .gbar _ => [.gbarComplete tid]
    | .cmd _ _ => [.commandIssue tid]
    | .gloadsh _ _ _ _ => [.shadowImageLoad tid]
    | .sibling _ => [.siblingWindowRelease tid]
    | _ => []
  | .gang => [.gangStart t.lseq]
  | _ => []

/-- The steps that a stream port calls for. -/
def portSteps (q : Nat) (p : Nat × Port) : List Instr :=
  (if p.2.active.isSome || !p.2.sinkQ.isEmpty then [.agElement q p.1, .streamEnd q p.1] else []) ++
  (if p.2.spill.isEmpty && p.2.linkHeld.isNone then [] else [.heldElementRetry q p.1])

/-- The steps that a channel's tokens call for. -/
def chanSteps (q : Nat) (c : Nat × ChanSt) : List Instr :=
  if isSelf c.1 then []
  else
    (if c.2.legs.all (·.isEmpty) && c.2.fifo.isEmpty && c.2.spill.isEmpty && c.2.ckpt.isEmpty && c.2.recv.isEmpty && c.2.sent == 0 then []
     else [.edgePortCrossing q c.1, .tokenArrival q c.1, .fifoSpill q c.1])

/-- The steps that a region-wide swap calls for: every PE that has not swapped (R186). -/
def swapSteps (s : State) (plot : Nat) : List Instr :=
  .matrixPlotSwap plot :: ((List.range 64).filter (fun e => !(peOf s (64 * plot + e)).swapped)).map (fun e => .planeSwap (64 * plot + e))

/-- The steps that a launch's state calls for. -/
def launchSteps (s : State) (q : Nat) (l : Launch) : List Instr :=
  (l.ports.map (portSteps q)).flatten ++ (l.chans.map (chanSteps q)).flatten ++
  (((chanKeys l).filter (fromAway l)).map (.edgePortCrossing q ·)) ++
  ((List.range l.requests.length).map (.replayRequest q ·)) ++
  ((l.chans.filter (fun c => !c.2.replay.isEmpty)).map (fun c => .replayToken q c.1)) ++
  ((l.tasks.filter (fun t => !t.2.recs.isEmpty)).map (fun t => .taskStart q t.1)) ++
  ((l.copyQ.filter (fun c => !c.2.isEmpty)).map (fun c => .copyUnitRetry q (c.1 / 16) (c.1 % 16))) ++
  ((l.place.here.filter (fun p => (waitingLoad l p).isSome)).map .loadw) ++
  (if l.fbHeld.isEmpty then [] else [.faultRecordWrite q]) ++
  ((l.hnodes.filter (fun h => !h.2.acting.isEmpty || (h.2.bound.isNone && !h.2.ring.isEmpty))).map
    (fun h => .handlerFiring (64 * l.place.hnode.getD h.1 awayPlot + 56))) ++
  ((List.range l.variant.parts.length).filter (owlDue s l)).map (.owlFire q ·) ++
  (if l.swap.isSome then (l.place.here.map (swapSteps s)).flatten else []) ++
  (if l.asked.isEmpty then [] else [.preemption q]) ++
  (if l.resident then (if l.frozen.isEmpty then [] else [.frozenStateStreamedOut q]) else [.restore q]) ++
  (if launchDone s l then [.launchComplete q] else []) ++
  (if short s l then [.variantNarrow q] else [])

/-- The steps that a PE's active plane calls for. -/
def peSteps (pe : Nat) (x : PE) : List Instr :=
  if x.active.hrecs.isEmpty && x.window.isEmpty then []
  else if x.active.matrix then [.matrixVector (pe / 64)] else [.handlerFiring pe]

/-- The steps that a plot's state calls for. -/
def plotSteps (p : Nat) (x : Plot) : List Instr :=
  (if x.admq.isEmpty || decide (128 ≤ p) then [] else [.threadAdmission p]) ++
  (if x.evHeld.isEmpty then [] else [.eventRecordPost p])

/-- The steps that Brock's leases call for; what a pattern finds is an input, and its steps are the agenda's. -/
def leaseSteps (s : State) (u : Nat) (x : Lease) : List Instr :=
  match x.st with
  | .asked => if !x.retire.isEmpty && classOf u != .plot then x.retire.map (.retirement ·)
      else match classOf u with | .plot => [.plotLease u] | .lane => [.laneGroupLease u] | .chan => []
  | .deferred => (if x.again then [.leaseDeferredRetry u] else []) ++
      (if !x.retire.isEmpty || decide (x.askedAt + forceTicks ≤ s.time) then [.leaseForce u] else [])
  | .active => x.retire.map (.retirement ·)

/-- The steps of a device's slices and logs. -/
def vdSteps (v : Nat) (d : VD) : List Instr :=
  .timeSliceEnd v :: (d.monlogs.map (fun m => [.monitorWindowEnd v m.1, .logBlockSeal v m.1])).flatten

/-- The steps of a collective. -/
def collSteps (c : Coll) : List Instr :=
  [.collectiveStart c.vd c.comm, .collectiveCombine c.vd c.comm, .collectiveComplete c.vd c.comm, .collectiveAbandon c.vd c.comm]

/-- The steps that the module's agents may take next; a step whose conditions do not hold changes nothing. -/
def candidates (s : State) : List Instr :=
  (s.threads.map (fun t => threadSteps s t.1 t.2)).flatten ++
  (if (nextWaiting s).isSome then [.placement] else []) ++
  (if s.waiting.any (fun w => w.parked && w.again) then [.queueRetry] else []) ++
  (s.plots.map (fun p => plotSteps p.1 p.2)).flatten ++
  (s.launches.map (fun l => launchSteps s l.1 l.2)).flatten ++
  (s.pes.map (fun p => peSteps p.1 p.2)).flatten ++
  (if s.launches.any (fun l => l.2.copyQ.any (fun q => !q.2.isEmpty)) then (List.range 4).map (.copyUnit ·) else []) ++
  (s.colls.map (fun c => collSteps c.2)).flatten ++
  (s.backed.map (fun b => .backedPageResident (b.1 / 2048) (b.1 % 2048))) ++
  (s.brock.leases.map (fun x => leaseSteps s x.1 x.2)).flatten ++
  (s.vds.map (fun v => vdSteps v.1 v.2)).flatten ++ s.kcpHeld.map (·.2) ++
  (if s.brock.lastDecay < s.time / decayTicks then [.scoreDecay] else []) ++
  ((List.range 8).filter (fun c => c != 1 && decide (lookupD s.brock.cursors (16 + c) 0 + cursorTicks c ≤ s.time))).filterMap
    (fun c => (cursorNext s c).map (.routineLease ·)) ++
  (if s.lastArb + 100000 ≤ s.time then [.powerArbitration] else [])

/-! ## The step -/

/-- A step taken; an instruction that it has fetched runs in it. -/
def run (i : Instr) (s : State) : Host.Outcome State Fault Refusal :=
  match exec i s with
  | .next t =>
    match t.latch with
    | some j => exec j { t with latch := none }
    | none => .next t
  | o => o

/-- Ticks that the next step takes: the first of `pace`, or one. -/
def paced (s : State) : State := flushAll (tick { s with pace := s.pace.tail } (s.pace.headD 1))

/-- The next step of a schedule: the agenda's first, or the one whose turn it is. With none to take, time moves on. -/
def takeStep (s : State) : Host.Outcome State Fault Refusal :=
  match s.agenda with
  | i :: rest => if ofThread i then .next { s with agenda := rest } else run i { s with agenda := rest }
  | [] =>
    match (candidates s)[s.turn % (candidates s).length]? with
    | some i => run i { s with turn := s.turn + 1 }
    | none => .next s

end Sys2Proof.Machine
end

