-- ==== Sys2Proof/Machine/Step.lean ====
section
/-!
DEFINITION. One step of the machine, and the state whose next step runs a given instruction.
-/
namespace Sys2Proof.Machine

/-- One step: time moves on, and the next step of the schedule is taken. -/
def step (s : State) : Host.Outcome State Fault Refusal := takeStep (paced s)

/-- The state with an instruction stored where the next step fetches (log 17). `_nbits` needs no use: the bits above it are
zero in `w`. -/
def State.withFetchWord (s : State) (_nbits w : Nat) : State := storeNext s w

end Sys2Proof.Machine
end

