-- ==== Sys2Proof/Laws/Encoding.lean ====
section
/-!
SUPPORT. The fields of a word that the encoder builds: each field of a concatenation is the part it was built from (R254
to R262). A lemma for each pair of widths that the formats use.
-/
set_option Elab.async false
namespace Sys2Proof.Laws

@[simp] theorem high_of_1_1 (x : BitVec 1) (y : BitVec 1) (s l : Nat) (h : 1 ≤ s) :
    ((x ++ y : BitVec (1 + 1)) : BitVec 2).extractLsb' s l = x.extractLsb' (s - 1) l :=
  BitVec.extractLsb'_append_eq_of_le h

@[simp] theorem low_of_1_1 (x : BitVec 1) (y : BitVec 1) (s l : Nat) (h : s + l ≤ 1) :
    ((x ++ y : BitVec (1 + 1)) : BitVec 2).extractLsb' s l = y.extractLsb' s l :=
  BitVec.extractLsb'_append_eq_of_add_le h

@[simp] theorem high_of_1_3 (x : BitVec 1) (y : BitVec 3) (s l : Nat) (h : 3 ≤ s) :
    ((x ++ y : BitVec (1 + 3)) : BitVec 4).extractLsb' s l = x.extractLsb' (s - 3) l :=
  BitVec.extractLsb'_append_eq_of_le h

@[simp] theorem low_of_1_3 (x : BitVec 1) (y : BitVec 3) (s l : Nat) (h : s + l ≤ 3) :
    ((x ++ y : BitVec (1 + 3)) : BitVec 4).extractLsb' s l = y.extractLsb' s l :=
  BitVec.extractLsb'_append_eq_of_add_le h

@[simp] theorem high_of_2_1 (x : BitVec 2) (y : BitVec 1) (s l : Nat) (h : 1 ≤ s) :
    ((x ++ y : BitVec (2 + 1)) : BitVec 3).extractLsb' s l = x.extractLsb' (s - 1) l :=
  BitVec.extractLsb'_append_eq_of_le h

@[simp] theorem low_of_2_1 (x : BitVec 2) (y : BitVec 1) (s l : Nat) (h : s + l ≤ 1) :
    ((x ++ y : BitVec (2 + 1)) : BitVec 3).extractLsb' s l = y.extractLsb' s l :=
  BitVec.extractLsb'_append_eq_of_add_le h

@[simp] theorem high_of_2_2 (x : BitVec 2) (y : BitVec 2) (s l : Nat) (h : 2 ≤ s) :
    ((x ++ y : BitVec (2 + 2)) : BitVec 4).extractLsb' s l = x.extractLsb' (s - 2) l :=
  BitVec.extractLsb'_append_eq_of_le h

@[simp] theorem low_of_2_2 (x : BitVec 2) (y : BitVec 2) (s l : Nat) (h : s + l ≤ 2) :
    ((x ++ y : BitVec (2 + 2)) : BitVec 4).extractLsb' s l = y.extractLsb' s l :=
  BitVec.extractLsb'_append_eq_of_add_le h

@[simp] theorem high_of_2_6 (x : BitVec 2) (y : BitVec 6) (s l : Nat) (h : 6 ≤ s) :
    ((x ++ y : BitVec (2 + 6)) : BitVec 8).extractLsb' s l = x.extractLsb' (s - 6) l :=
  BitVec.extractLsb'_append_eq_of_le h

@[simp] theorem low_of_2_6 (x : BitVec 2) (y : BitVec 6) (s l : Nat) (h : s + l ≤ 6) :
    ((x ++ y : BitVec (2 + 6)) : BitVec 8).extractLsb' s l = y.extractLsb' s l :=
  BitVec.extractLsb'_append_eq_of_add_le h

@[simp] theorem high_of_3_2 (x : BitVec 3) (y : BitVec 2) (s l : Nat) (h : 2 ≤ s) :
    ((x ++ y : BitVec (3 + 2)) : BitVec 5).extractLsb' s l = x.extractLsb' (s - 2) l :=
  BitVec.extractLsb'_append_eq_of_le h

@[simp] theorem low_of_3_2 (x : BitVec 3) (y : BitVec 2) (s l : Nat) (h : s + l ≤ 2) :
    ((x ++ y : BitVec (3 + 2)) : BitVec 5).extractLsb' s l = y.extractLsb' s l :=
  BitVec.extractLsb'_append_eq_of_add_le h

@[simp] theorem high_of_3_3 (x : BitVec 3) (y : BitVec 3) (s l : Nat) (h : 3 ≤ s) :
    ((x ++ y : BitVec (3 + 3)) : BitVec 6).extractLsb' s l = x.extractLsb' (s - 3) l :=
  BitVec.extractLsb'_append_eq_of_le h

@[simp] theorem low_of_3_3 (x : BitVec 3) (y : BitVec 3) (s l : Nat) (h : s + l ≤ 3) :
    ((x ++ y : BitVec (3 + 3)) : BitVec 6).extractLsb' s l = y.extractLsb' s l :=
  BitVec.extractLsb'_append_eq_of_add_le h

@[simp] theorem high_of_3_11 (x : BitVec 3) (y : BitVec 11) (s l : Nat) (h : 11 ≤ s) :
    ((x ++ y : BitVec (3 + 11)) : BitVec 14).extractLsb' s l = x.extractLsb' (s - 11) l :=
  BitVec.extractLsb'_append_eq_of_le h

@[simp] theorem low_of_3_11 (x : BitVec 3) (y : BitVec 11) (s l : Nat) (h : s + l ≤ 11) :
    ((x ++ y : BitVec (3 + 11)) : BitVec 14).extractLsb' s l = y.extractLsb' s l :=
  BitVec.extractLsb'_append_eq_of_add_le h

@[simp] theorem high_of_4_2 (x : BitVec 4) (y : BitVec 2) (s l : Nat) (h : 2 ≤ s) :
    ((x ++ y : BitVec (4 + 2)) : BitVec 6).extractLsb' s l = x.extractLsb' (s - 2) l :=
  BitVec.extractLsb'_append_eq_of_le h

@[simp] theorem low_of_4_2 (x : BitVec 4) (y : BitVec 2) (s l : Nat) (h : s + l ≤ 2) :
    ((x ++ y : BitVec (4 + 2)) : BitVec 6).extractLsb' s l = y.extractLsb' s l :=
  BitVec.extractLsb'_append_eq_of_add_le h

@[simp] theorem high_of_5_3 (x : BitVec 5) (y : BitVec 3) (s l : Nat) (h : 3 ≤ s) :
    ((x ++ y : BitVec (5 + 3)) : BitVec 8).extractLsb' s l = x.extractLsb' (s - 3) l :=
  BitVec.extractLsb'_append_eq_of_le h

@[simp] theorem low_of_5_3 (x : BitVec 5) (y : BitVec 3) (s l : Nat) (h : s + l ≤ 3) :
    ((x ++ y : BitVec (5 + 3)) : BitVec 8).extractLsb' s l = y.extractLsb' s l :=
  BitVec.extractLsb'_append_eq_of_add_le h

@[simp] theorem high_of_6_1 (x : BitVec 6) (y : BitVec 1) (s l : Nat) (h : 1 ≤ s) :
    ((x ++ y : BitVec (6 + 1)) : BitVec 7).extractLsb' s l = x.extractLsb' (s - 1) l :=
  BitVec.extractLsb'_append_eq_of_le h

@[simp] theorem low_of_6_1 (x : BitVec 6) (y : BitVec 1) (s l : Nat) (h : s + l ≤ 1) :
    ((x ++ y : BitVec (6 + 1)) : BitVec 7).extractLsb' s l = y.extractLsb' s l :=
  BitVec.extractLsb'_append_eq_of_add_le h

@[simp] theorem high_of_6_2 (x : BitVec 6) (y : BitVec 2) (s l : Nat) (h : 2 ≤ s) :
    ((x ++ y : BitVec (6 + 2)) : BitVec 8).extractLsb' s l = x.extractLsb' (s - 2) l :=
  BitVec.extractLsb'_append_eq_of_le h

@[simp] theorem low_of_6_2 (x : BitVec 6) (y : BitVec 2) (s l : Nat) (h : s + l ≤ 2) :
    ((x ++ y : BitVec (6 + 2)) : BitVec 8).extractLsb' s l = y.extractLsb' s l :=
  BitVec.extractLsb'_append_eq_of_add_le h

@[simp] theorem high_of_6_3 (x : BitVec 6) (y : BitVec 3) (s l : Nat) (h : 3 ≤ s) :
    ((x ++ y : BitVec (6 + 3)) : BitVec 9).extractLsb' s l = x.extractLsb' (s - 3) l :=
  BitVec.extractLsb'_append_eq_of_le h

@[simp] theorem low_of_6_3 (x : BitVec 6) (y : BitVec 3) (s l : Nat) (h : s + l ≤ 3) :
    ((x ++ y : BitVec (6 + 3)) : BitVec 9).extractLsb' s l = y.extractLsb' s l :=
  BitVec.extractLsb'_append_eq_of_add_le h

@[simp] theorem high_of_6_4 (x : BitVec 6) (y : BitVec 4) (s l : Nat) (h : 4 ≤ s) :
    ((x ++ y : BitVec (6 + 4)) : BitVec 10).extractLsb' s l = x.extractLsb' (s - 4) l :=
  BitVec.extractLsb'_append_eq_of_le h

@[simp] theorem low_of_6_4 (x : BitVec 6) (y : BitVec 4) (s l : Nat) (h : s + l ≤ 4) :
    ((x ++ y : BitVec (6 + 4)) : BitVec 10).extractLsb' s l = y.extractLsb' s l :=
  BitVec.extractLsb'_append_eq_of_add_le h

@[simp] theorem high_of_6_5 (x : BitVec 6) (y : BitVec 5) (s l : Nat) (h : 5 ≤ s) :
    ((x ++ y : BitVec (6 + 5)) : BitVec 11).extractLsb' s l = x.extractLsb' (s - 5) l :=
  BitVec.extractLsb'_append_eq_of_le h

@[simp] theorem low_of_6_5 (x : BitVec 6) (y : BitVec 5) (s l : Nat) (h : s + l ≤ 5) :
    ((x ++ y : BitVec (6 + 5)) : BitVec 11).extractLsb' s l = y.extractLsb' s l :=
  BitVec.extractLsb'_append_eq_of_add_le h

@[simp] theorem high_of_6_6 (x : BitVec 6) (y : BitVec 6) (s l : Nat) (h : 6 ≤ s) :
    ((x ++ y : BitVec (6 + 6)) : BitVec 12).extractLsb' s l = x.extractLsb' (s - 6) l :=
  BitVec.extractLsb'_append_eq_of_le h

@[simp] theorem low_of_6_6 (x : BitVec 6) (y : BitVec 6) (s l : Nat) (h : s + l ≤ 6) :
    ((x ++ y : BitVec (6 + 6)) : BitVec 12).extractLsb' s l = y.extractLsb' s l :=
  BitVec.extractLsb'_append_eq_of_add_le h

@[simp] theorem high_of_6_8 (x : BitVec 6) (y : BitVec 8) (s l : Nat) (h : 8 ≤ s) :
    ((x ++ y : BitVec (6 + 8)) : BitVec 14).extractLsb' s l = x.extractLsb' (s - 8) l :=
  BitVec.extractLsb'_append_eq_of_le h

@[simp] theorem low_of_6_8 (x : BitVec 6) (y : BitVec 8) (s l : Nat) (h : s + l ≤ 8) :
    ((x ++ y : BitVec (6 + 8)) : BitVec 14).extractLsb' s l = y.extractLsb' s l :=
  BitVec.extractLsb'_append_eq_of_add_le h

@[simp] theorem high_of_6_10 (x : BitVec 6) (y : BitVec 10) (s l : Nat) (h : 10 ≤ s) :
    ((x ++ y : BitVec (6 + 10)) : BitVec 16).extractLsb' s l = x.extractLsb' (s - 10) l :=
  BitVec.extractLsb'_append_eq_of_le h

@[simp] theorem low_of_6_10 (x : BitVec 6) (y : BitVec 10) (s l : Nat) (h : s + l ≤ 10) :
    ((x ++ y : BitVec (6 + 10)) : BitVec 16).extractLsb' s l = y.extractLsb' s l :=
  BitVec.extractLsb'_append_eq_of_add_le h

@[simp] theorem high_of_6_18 (x : BitVec 6) (y : BitVec 18) (s l : Nat) (h : 18 ≤ s) :
    ((x ++ y : BitVec (6 + 18)) : BitVec 24).extractLsb' s l = x.extractLsb' (s - 18) l :=
  BitVec.extractLsb'_append_eq_of_le h

@[simp] theorem low_of_6_18 (x : BitVec 6) (y : BitVec 18) (s l : Nat) (h : s + l ≤ 18) :
    ((x ++ y : BitVec (6 + 18)) : BitVec 24).extractLsb' s l = y.extractLsb' s l :=
  BitVec.extractLsb'_append_eq_of_add_le h

@[simp] theorem high_of_6_22 (x : BitVec 6) (y : BitVec 22) (s l : Nat) (h : 22 ≤ s) :
    ((x ++ y : BitVec (6 + 22)) : BitVec 28).extractLsb' s l = x.extractLsb' (s - 22) l :=
  BitVec.extractLsb'_append_eq_of_le h

@[simp] theorem low_of_6_22 (x : BitVec 6) (y : BitVec 22) (s l : Nat) (h : s + l ≤ 22) :
    ((x ++ y : BitVec (6 + 22)) : BitVec 28).extractLsb' s l = y.extractLsb' s l :=
  BitVec.extractLsb'_append_eq_of_add_le h

@[simp] theorem high_of_6_26 (x : BitVec 6) (y : BitVec 26) (s l : Nat) (h : 26 ≤ s) :
    ((x ++ y : BitVec (6 + 26)) : BitVec 32).extractLsb' s l = x.extractLsb' (s - 26) l :=
  BitVec.extractLsb'_append_eq_of_le h

@[simp] theorem low_of_6_26 (x : BitVec 6) (y : BitVec 26) (s l : Nat) (h : s + l ≤ 26) :
    ((x ++ y : BitVec (6 + 26)) : BitVec 32).extractLsb' s l = y.extractLsb' s l :=
  BitVec.extractLsb'_append_eq_of_add_le h

@[simp] theorem high_of_7_1 (x : BitVec 7) (y : BitVec 1) (s l : Nat) (h : 1 ≤ s) :
    ((x ++ y : BitVec (7 + 1)) : BitVec 8).extractLsb' s l = x.extractLsb' (s - 1) l :=
  BitVec.extractLsb'_append_eq_of_le h

@[simp] theorem low_of_7_1 (x : BitVec 7) (y : BitVec 1) (s l : Nat) (h : s + l ≤ 1) :
    ((x ++ y : BitVec (7 + 1)) : BitVec 8).extractLsb' s l = y.extractLsb' s l :=
  BitVec.extractLsb'_append_eq_of_add_le h

@[simp] theorem high_of_7_9 (x : BitVec 7) (y : BitVec 9) (s l : Nat) (h : 9 ≤ s) :
    ((x ++ y : BitVec (7 + 9)) : BitVec 16).extractLsb' s l = x.extractLsb' (s - 9) l :=
  BitVec.extractLsb'_append_eq_of_le h

@[simp] theorem low_of_7_9 (x : BitVec 7) (y : BitVec 9) (s l : Nat) (h : s + l ≤ 9) :
    ((x ++ y : BitVec (7 + 9)) : BitVec 16).extractLsb' s l = y.extractLsb' s l :=
  BitVec.extractLsb'_append_eq_of_add_le h

@[simp] theorem high_of_9_1 (x : BitVec 9) (y : BitVec 1) (s l : Nat) (h : 1 ≤ s) :
    ((x ++ y : BitVec (9 + 1)) : BitVec 10).extractLsb' s l = x.extractLsb' (s - 1) l :=
  BitVec.extractLsb'_append_eq_of_le h

@[simp] theorem low_of_9_1 (x : BitVec 9) (y : BitVec 1) (s l : Nat) (h : s + l ≤ 1) :
    ((x ++ y : BitVec (9 + 1)) : BitVec 10).extractLsb' s l = y.extractLsb' s l :=
  BitVec.extractLsb'_append_eq_of_add_le h

@[simp] theorem high_of_10_2 (x : BitVec 10) (y : BitVec 2) (s l : Nat) (h : 2 ≤ s) :
    ((x ++ y : BitVec (10 + 2)) : BitVec 12).extractLsb' s l = x.extractLsb' (s - 2) l :=
  BitVec.extractLsb'_append_eq_of_le h

@[simp] theorem low_of_10_2 (x : BitVec 10) (y : BitVec 2) (s l : Nat) (h : s + l ≤ 2) :
    ((x ++ y : BitVec (10 + 2)) : BitVec 12).extractLsb' s l = y.extractLsb' s l :=
  BitVec.extractLsb'_append_eq_of_add_le h

@[simp] theorem high_of_10_22 (x : BitVec 10) (y : BitVec 22) (s l : Nat) (h : 22 ≤ s) :
    ((x ++ y : BitVec (10 + 22)) : BitVec 32).extractLsb' s l = x.extractLsb' (s - 22) l :=
  BitVec.extractLsb'_append_eq_of_le h

@[simp] theorem low_of_10_22 (x : BitVec 10) (y : BitVec 22) (s l : Nat) (h : s + l ≤ 22) :
    ((x ++ y : BitVec (10 + 22)) : BitVec 32).extractLsb' s l = y.extractLsb' s l :=
  BitVec.extractLsb'_append_eq_of_add_le h

@[simp] theorem high_of_11_1 (x : BitVec 11) (y : BitVec 1) (s l : Nat) (h : 1 ≤ s) :
    ((x ++ y : BitVec (11 + 1)) : BitVec 12).extractLsb' s l = x.extractLsb' (s - 1) l :=
  BitVec.extractLsb'_append_eq_of_le h

@[simp] theorem low_of_11_1 (x : BitVec 11) (y : BitVec 1) (s l : Nat) (h : s + l ≤ 1) :
    ((x ++ y : BitVec (11 + 1)) : BitVec 12).extractLsb' s l = y.extractLsb' s l :=
  BitVec.extractLsb'_append_eq_of_add_le h

@[simp] theorem high_of_12_4 (x : BitVec 12) (y : BitVec 4) (s l : Nat) (h : 4 ≤ s) :
    ((x ++ y : BitVec (12 + 4)) : BitVec 16).extractLsb' s l = x.extractLsb' (s - 4) l :=
  BitVec.extractLsb'_append_eq_of_le h

@[simp] theorem low_of_12_4 (x : BitVec 12) (y : BitVec 4) (s l : Nat) (h : s + l ≤ 4) :
    ((x ++ y : BitVec (12 + 4)) : BitVec 16).extractLsb' s l = y.extractLsb' s l :=
  BitVec.extractLsb'_append_eq_of_add_le h

@[simp] theorem high_of_12_6 (x : BitVec 12) (y : BitVec 6) (s l : Nat) (h : 6 ≤ s) :
    ((x ++ y : BitVec (12 + 6)) : BitVec 18).extractLsb' s l = x.extractLsb' (s - 6) l :=
  BitVec.extractLsb'_append_eq_of_le h

@[simp] theorem low_of_12_6 (x : BitVec 12) (y : BitVec 6) (s l : Nat) (h : s + l ≤ 6) :
    ((x ++ y : BitVec (12 + 6)) : BitVec 18).extractLsb' s l = y.extractLsb' s l :=
  BitVec.extractLsb'_append_eq_of_add_le h

@[simp] theorem high_of_12_8 (x : BitVec 12) (y : BitVec 8) (s l : Nat) (h : 8 ≤ s) :
    ((x ++ y : BitVec (12 + 8)) : BitVec 20).extractLsb' s l = x.extractLsb' (s - 8) l :=
  BitVec.extractLsb'_append_eq_of_le h

@[simp] theorem low_of_12_8 (x : BitVec 12) (y : BitVec 8) (s l : Nat) (h : s + l ≤ 8) :
    ((x ++ y : BitVec (12 + 8)) : BitVec 20).extractLsb' s l = y.extractLsb' s l :=
  BitVec.extractLsb'_append_eq_of_add_le h

@[simp] theorem high_of_12_9 (x : BitVec 12) (y : BitVec 9) (s l : Nat) (h : 9 ≤ s) :
    ((x ++ y : BitVec (12 + 9)) : BitVec 21).extractLsb' s l = x.extractLsb' (s - 9) l :=
  BitVec.extractLsb'_append_eq_of_le h

@[simp] theorem low_of_12_9 (x : BitVec 12) (y : BitVec 9) (s l : Nat) (h : s + l ≤ 9) :
    ((x ++ y : BitVec (12 + 9)) : BitVec 21).extractLsb' s l = y.extractLsb' s l :=
  BitVec.extractLsb'_append_eq_of_add_le h

@[simp] theorem high_of_12_20 (x : BitVec 12) (y : BitVec 20) (s l : Nat) (h : 20 ≤ s) :
    ((x ++ y : BitVec (12 + 20)) : BitVec 32).extractLsb' s l = x.extractLsb' (s - 20) l :=
  BitVec.extractLsb'_append_eq_of_le h

@[simp] theorem low_of_12_20 (x : BitVec 12) (y : BitVec 20) (s l : Nat) (h : s + l ≤ 20) :
    ((x ++ y : BitVec (12 + 20)) : BitVec 32).extractLsb' s l = y.extractLsb' s l :=
  BitVec.extractLsb'_append_eq_of_add_le h

@[simp] theorem high_of_14_8 (x : BitVec 14) (y : BitVec 8) (s l : Nat) (h : 8 ≤ s) :
    ((x ++ y : BitVec (14 + 8)) : BitVec 22).extractLsb' s l = x.extractLsb' (s - 8) l :=
  BitVec.extractLsb'_append_eq_of_le h

@[simp] theorem low_of_14_8 (x : BitVec 14) (y : BitVec 8) (s l : Nat) (h : s + l ≤ 8) :
    ((x ++ y : BitVec (14 + 8)) : BitVec 22).extractLsb' s l = y.extractLsb' s l :=
  BitVec.extractLsb'_append_eq_of_add_le h

@[simp] theorem high_of_15_4 (x : BitVec 15) (y : BitVec 4) (s l : Nat) (h : 4 ≤ s) :
    ((x ++ y : BitVec (15 + 4)) : BitVec 19).extractLsb' s l = x.extractLsb' (s - 4) l :=
  BitVec.extractLsb'_append_eq_of_le h

@[simp] theorem low_of_15_4 (x : BitVec 15) (y : BitVec 4) (s l : Nat) (h : s + l ≤ 4) :
    ((x ++ y : BitVec (15 + 4)) : BitVec 19).extractLsb' s l = y.extractLsb' s l :=
  BitVec.extractLsb'_append_eq_of_add_le h

@[simp] theorem high_of_16_1 (x : BitVec 16) (y : BitVec 1) (s l : Nat) (h : 1 ≤ s) :
    ((x ++ y : BitVec (16 + 1)) : BitVec 17).extractLsb' s l = x.extractLsb' (s - 1) l :=
  BitVec.extractLsb'_append_eq_of_le h

@[simp] theorem low_of_16_1 (x : BitVec 16) (y : BitVec 1) (s l : Nat) (h : s + l ≤ 1) :
    ((x ++ y : BitVec (16 + 1)) : BitVec 17).extractLsb' s l = y.extractLsb' s l :=
  BitVec.extractLsb'_append_eq_of_add_le h

@[simp] theorem high_of_16_16 (x : BitVec 16) (y : BitVec 16) (s l : Nat) (h : 16 ≤ s) :
    ((x ++ y : BitVec (16 + 16)) : BitVec 32).extractLsb' s l = x.extractLsb' (s - 16) l :=
  BitVec.extractLsb'_append_eq_of_le h

@[simp] theorem low_of_16_16 (x : BitVec 16) (y : BitVec 16) (s l : Nat) (h : s + l ≤ 16) :
    ((x ++ y : BitVec (16 + 16)) : BitVec 32).extractLsb' s l = y.extractLsb' s l :=
  BitVec.extractLsb'_append_eq_of_add_le h

@[simp] theorem high_of_17_11 (x : BitVec 17) (y : BitVec 11) (s l : Nat) (h : 11 ≤ s) :
    ((x ++ y : BitVec (17 + 11)) : BitVec 28).extractLsb' s l = x.extractLsb' (s - 11) l :=
  BitVec.extractLsb'_append_eq_of_le h

@[simp] theorem low_of_17_11 (x : BitVec 17) (y : BitVec 11) (s l : Nat) (h : s + l ≤ 11) :
    ((x ++ y : BitVec (17 + 11)) : BitVec 28).extractLsb' s l = y.extractLsb' s l :=
  BitVec.extractLsb'_append_eq_of_add_le h

@[simp] theorem high_of_18_2 (x : BitVec 18) (y : BitVec 2) (s l : Nat) (h : 2 ≤ s) :
    ((x ++ y : BitVec (18 + 2)) : BitVec 20).extractLsb' s l = x.extractLsb' (s - 2) l :=
  BitVec.extractLsb'_append_eq_of_le h

@[simp] theorem low_of_18_2 (x : BitVec 18) (y : BitVec 2) (s l : Nat) (h : s + l ≤ 2) :
    ((x ++ y : BitVec (18 + 2)) : BitVec 20).extractLsb' s l = y.extractLsb' s l :=
  BitVec.extractLsb'_append_eq_of_add_le h

@[simp] theorem high_of_18_4 (x : BitVec 18) (y : BitVec 4) (s l : Nat) (h : 4 ≤ s) :
    ((x ++ y : BitVec (18 + 4)) : BitVec 22).extractLsb' s l = x.extractLsb' (s - 4) l :=
  BitVec.extractLsb'_append_eq_of_le h

@[simp] theorem low_of_18_4 (x : BitVec 18) (y : BitVec 4) (s l : Nat) (h : s + l ≤ 4) :
    ((x ++ y : BitVec (18 + 4)) : BitVec 22).extractLsb' s l = y.extractLsb' s l :=
  BitVec.extractLsb'_append_eq_of_add_le h

@[simp] theorem high_of_18_6 (x : BitVec 18) (y : BitVec 6) (s l : Nat) (h : 6 ≤ s) :
    ((x ++ y : BitVec (18 + 6)) : BitVec 24).extractLsb' s l = x.extractLsb' (s - 6) l :=
  BitVec.extractLsb'_append_eq_of_le h

@[simp] theorem low_of_18_6 (x : BitVec 18) (y : BitVec 6) (s l : Nat) (h : s + l ≤ 6) :
    ((x ++ y : BitVec (18 + 6)) : BitVec 24).extractLsb' s l = y.extractLsb' s l :=
  BitVec.extractLsb'_append_eq_of_add_le h

@[simp] theorem high_of_18_14 (x : BitVec 18) (y : BitVec 14) (s l : Nat) (h : 14 ≤ s) :
    ((x ++ y : BitVec (18 + 14)) : BitVec 32).extractLsb' s l = x.extractLsb' (s - 14) l :=
  BitVec.extractLsb'_append_eq_of_le h

@[simp] theorem low_of_18_14 (x : BitVec 18) (y : BitVec 14) (s l : Nat) (h : s + l ≤ 14) :
    ((x ++ y : BitVec (18 + 14)) : BitVec 32).extractLsb' s l = y.extractLsb' s l :=
  BitVec.extractLsb'_append_eq_of_add_le h

@[simp] theorem high_of_19_13 (x : BitVec 19) (y : BitVec 13) (s l : Nat) (h : 13 ≤ s) :
    ((x ++ y : BitVec (19 + 13)) : BitVec 32).extractLsb' s l = x.extractLsb' (s - 13) l :=
  BitVec.extractLsb'_append_eq_of_le h

@[simp] theorem low_of_19_13 (x : BitVec 19) (y : BitVec 13) (s l : Nat) (h : s + l ≤ 13) :
    ((x ++ y : BitVec (19 + 13)) : BitVec 32).extractLsb' s l = y.extractLsb' s l :=
  BitVec.extractLsb'_append_eq_of_add_le h

@[simp] theorem high_of_20_1 (x : BitVec 20) (y : BitVec 1) (s l : Nat) (h : 1 ≤ s) :
    ((x ++ y : BitVec (20 + 1)) : BitVec 21).extractLsb' s l = x.extractLsb' (s - 1) l :=
  BitVec.extractLsb'_append_eq_of_le h

@[simp] theorem low_of_20_1 (x : BitVec 20) (y : BitVec 1) (s l : Nat) (h : s + l ≤ 1) :
    ((x ++ y : BitVec (20 + 1)) : BitVec 21).extractLsb' s l = y.extractLsb' s l :=
  BitVec.extractLsb'_append_eq_of_add_le h

@[simp] theorem high_of_20_4 (x : BitVec 20) (y : BitVec 4) (s l : Nat) (h : 4 ≤ s) :
    ((x ++ y : BitVec (20 + 4)) : BitVec 24).extractLsb' s l = x.extractLsb' (s - 4) l :=
  BitVec.extractLsb'_append_eq_of_le h

@[simp] theorem low_of_20_4 (x : BitVec 20) (y : BitVec 4) (s l : Nat) (h : s + l ≤ 4) :
    ((x ++ y : BitVec (20 + 4)) : BitVec 24).extractLsb' s l = y.extractLsb' s l :=
  BitVec.extractLsb'_append_eq_of_add_le h

@[simp] theorem high_of_20_12 (x : BitVec 20) (y : BitVec 12) (s l : Nat) (h : 12 ≤ s) :
    ((x ++ y : BitVec (20 + 12)) : BitVec 32).extractLsb' s l = x.extractLsb' (s - 12) l :=
  BitVec.extractLsb'_append_eq_of_le h

@[simp] theorem low_of_20_12 (x : BitVec 20) (y : BitVec 12) (s l : Nat) (h : s + l ≤ 12) :
    ((x ++ y : BitVec (20 + 12)) : BitVec 32).extractLsb' s l = y.extractLsb' s l :=
  BitVec.extractLsb'_append_eq_of_add_le h

@[simp] theorem high_of_21_1 (x : BitVec 21) (y : BitVec 1) (s l : Nat) (h : 1 ≤ s) :
    ((x ++ y : BitVec (21 + 1)) : BitVec 22).extractLsb' s l = x.extractLsb' (s - 1) l :=
  BitVec.extractLsb'_append_eq_of_le h

@[simp] theorem low_of_21_1 (x : BitVec 21) (y : BitVec 1) (s l : Nat) (h : s + l ≤ 1) :
    ((x ++ y : BitVec (21 + 1)) : BitVec 22).extractLsb' s l = y.extractLsb' s l :=
  BitVec.extractLsb'_append_eq_of_add_le h

@[simp] theorem high_of_21_4 (x : BitVec 21) (y : BitVec 4) (s l : Nat) (h : 4 ≤ s) :
    ((x ++ y : BitVec (21 + 4)) : BitVec 25).extractLsb' s l = x.extractLsb' (s - 4) l :=
  BitVec.extractLsb'_append_eq_of_le h

@[simp] theorem low_of_21_4 (x : BitVec 21) (y : BitVec 4) (s l : Nat) (h : s + l ≤ 4) :
    ((x ++ y : BitVec (21 + 4)) : BitVec 25).extractLsb' s l = y.extractLsb' s l :=
  BitVec.extractLsb'_append_eq_of_add_le h

@[simp] theorem high_of_21_11 (x : BitVec 21) (y : BitVec 11) (s l : Nat) (h : 11 ≤ s) :
    ((x ++ y : BitVec (21 + 11)) : BitVec 32).extractLsb' s l = x.extractLsb' (s - 11) l :=
  BitVec.extractLsb'_append_eq_of_le h

@[simp] theorem low_of_21_11 (x : BitVec 21) (y : BitVec 11) (s l : Nat) (h : s + l ≤ 11) :
    ((x ++ y : BitVec (21 + 11)) : BitVec 32).extractLsb' s l = y.extractLsb' s l :=
  BitVec.extractLsb'_append_eq_of_add_le h

@[simp] theorem high_of_22_6 (x : BitVec 22) (y : BitVec 6) (s l : Nat) (h : 6 ≤ s) :
    ((x ++ y : BitVec (22 + 6)) : BitVec 28).extractLsb' s l = x.extractLsb' (s - 6) l :=
  BitVec.extractLsb'_append_eq_of_le h

@[simp] theorem low_of_22_6 (x : BitVec 22) (y : BitVec 6) (s l : Nat) (h : s + l ≤ 6) :
    ((x ++ y : BitVec (22 + 6)) : BitVec 28).extractLsb' s l = y.extractLsb' s l :=
  BitVec.extractLsb'_append_eq_of_add_le h

@[simp] theorem high_of_22_8 (x : BitVec 22) (y : BitVec 8) (s l : Nat) (h : 8 ≤ s) :
    ((x ++ y : BitVec (22 + 8)) : BitVec 30).extractLsb' s l = x.extractLsb' (s - 8) l :=
  BitVec.extractLsb'_append_eq_of_le h

@[simp] theorem low_of_22_8 (x : BitVec 22) (y : BitVec 8) (s l : Nat) (h : s + l ≤ 8) :
    ((x ++ y : BitVec (22 + 8)) : BitVec 30).extractLsb' s l = y.extractLsb' s l :=
  BitVec.extractLsb'_append_eq_of_add_le h

@[simp] theorem high_of_22_10 (x : BitVec 22) (y : BitVec 10) (s l : Nat) (h : 10 ≤ s) :
    ((x ++ y : BitVec (22 + 10)) : BitVec 32).extractLsb' s l = x.extractLsb' (s - 10) l :=
  BitVec.extractLsb'_append_eq_of_le h

@[simp] theorem low_of_22_10 (x : BitVec 22) (y : BitVec 10) (s l : Nat) (h : s + l ≤ 10) :
    ((x ++ y : BitVec (22 + 10)) : BitVec 32).extractLsb' s l = y.extractLsb' s l :=
  BitVec.extractLsb'_append_eq_of_add_le h

@[simp] theorem high_of_24_3 (x : BitVec 24) (y : BitVec 3) (s l : Nat) (h : 3 ≤ s) :
    ((x ++ y : BitVec (24 + 3)) : BitVec 27).extractLsb' s l = x.extractLsb' (s - 3) l :=
  BitVec.extractLsb'_append_eq_of_le h

@[simp] theorem low_of_24_3 (x : BitVec 24) (y : BitVec 3) (s l : Nat) (h : s + l ≤ 3) :
    ((x ++ y : BitVec (24 + 3)) : BitVec 27).extractLsb' s l = y.extractLsb' s l :=
  BitVec.extractLsb'_append_eq_of_add_le h

@[simp] theorem high_of_24_8 (x : BitVec 24) (y : BitVec 8) (s l : Nat) (h : 8 ≤ s) :
    ((x ++ y : BitVec (24 + 8)) : BitVec 32).extractLsb' s l = x.extractLsb' (s - 8) l :=
  BitVec.extractLsb'_append_eq_of_le h

@[simp] theorem low_of_24_8 (x : BitVec 24) (y : BitVec 8) (s l : Nat) (h : s + l ≤ 8) :
    ((x ++ y : BitVec (24 + 8)) : BitVec 32).extractLsb' s l = y.extractLsb' s l :=
  BitVec.extractLsb'_append_eq_of_add_le h

@[simp] theorem high_of_25_7 (x : BitVec 25) (y : BitVec 7) (s l : Nat) (h : 7 ≤ s) :
    ((x ++ y : BitVec (25 + 7)) : BitVec 32).extractLsb' s l = x.extractLsb' (s - 7) l :=
  BitVec.extractLsb'_append_eq_of_le h

@[simp] theorem low_of_25_7 (x : BitVec 25) (y : BitVec 7) (s l : Nat) (h : s + l ≤ 7) :
    ((x ++ y : BitVec (25 + 7)) : BitVec 32).extractLsb' s l = y.extractLsb' s l :=
  BitVec.extractLsb'_append_eq_of_add_le h

@[simp] theorem high_of_27_2 (x : BitVec 27) (y : BitVec 2) (s l : Nat) (h : 2 ≤ s) :
    ((x ++ y : BitVec (27 + 2)) : BitVec 29).extractLsb' s l = x.extractLsb' (s - 2) l :=
  BitVec.extractLsb'_append_eq_of_le h

@[simp] theorem low_of_27_2 (x : BitVec 27) (y : BitVec 2) (s l : Nat) (h : s + l ≤ 2) :
    ((x ++ y : BitVec (27 + 2)) : BitVec 29).extractLsb' s l = y.extractLsb' s l :=
  BitVec.extractLsb'_append_eq_of_add_le h

@[simp] theorem high_of_28_4 (x : BitVec 28) (y : BitVec 4) (s l : Nat) (h : 4 ≤ s) :
    ((x ++ y : BitVec (28 + 4)) : BitVec 32).extractLsb' s l = x.extractLsb' (s - 4) l :=
  BitVec.extractLsb'_append_eq_of_le h

@[simp] theorem low_of_28_4 (x : BitVec 28) (y : BitVec 4) (s l : Nat) (h : s + l ≤ 4) :
    ((x ++ y : BitVec (28 + 4)) : BitVec 32).extractLsb' s l = y.extractLsb' s l :=
  BitVec.extractLsb'_append_eq_of_add_le h

@[simp] theorem high_of_29_3 (x : BitVec 29) (y : BitVec 3) (s l : Nat) (h : 3 ≤ s) :
    ((x ++ y : BitVec (29 + 3)) : BitVec 32).extractLsb' s l = x.extractLsb' (s - 3) l :=
  BitVec.extractLsb'_append_eq_of_le h

@[simp] theorem low_of_29_3 (x : BitVec 29) (y : BitVec 3) (s l : Nat) (h : s + l ≤ 3) :
    ((x ++ y : BitVec (29 + 3)) : BitVec 32).extractLsb' s l = y.extractLsb' s l :=
  BitVec.extractLsb'_append_eq_of_add_le h

@[simp] theorem high_of_30_2 (x : BitVec 30) (y : BitVec 2) (s l : Nat) (h : 2 ≤ s) :
    ((x ++ y : BitVec (30 + 2)) : BitVec 32).extractLsb' s l = x.extractLsb' (s - 2) l :=
  BitVec.extractLsb'_append_eq_of_le h

@[simp] theorem low_of_30_2 (x : BitVec 30) (y : BitVec 2) (s l : Nat) (h : s + l ≤ 2) :
    ((x ++ y : BitVec (30 + 2)) : BitVec 32).extractLsb' s l = y.extractLsb' s l :=
  BitVec.extractLsb'_append_eq_of_add_le h

/-- The two parts of a long immediate make it whole (R254, format L). -/
@[simp] theorem long_whole (i : BitVec 46) :
    ((i.extractLsb' 32 14 ++ i.extractLsb' 0 32 : BitVec (14 + 32)) : BitVec 46) = i := by
  have h := BitVec.extractLsb'_append_extractLsb'_eq_extractLsb' (x := i) (start₁ := 0) (len₁ := 32) (start₂ := 32)
    (len₂ := 14) rfl
  exact h.trans BitVec.extractLsb'_eq_self

/-- A word with a field that is not zero is not zero. -/
theorem ne_zero_of_field {w : IWord} (s l : Nat) (h : w.extractLsb' s l ≠ 0) : w ≠ 0#32 := by
  intro e; subst e; simp at h

@[simp] theorem condOf_code (c : CmpCond) : condOf (condCode c).toNat = some c := by cases c <;> rfl
@[simp] theorem amoOf_code (c : AmoOp) : amoOf (amoCode c).toNat = some c := by cases c <;> rfl
@[simp] theorem copOf_code (c : CollOp) : copOf (copCode c).toNat = some c := by cases c <;> rfl
@[simp] theorem oprOf_code (c : CollRed) : oprOf (oprCode c).toNat = some c := by cases c <;> rfl
@[simp] theorem cfmtOf_code (c : CollFmt) : cfmtOf (cfmtCode c).toNat = some c := by cases c <;> rfl
@[simp] theorem bit1_eq_one (b : Bool) : (bit1 b == 1#1) = b := by cases b <;> rfl

theorem two_cases (k : BitVec 2) : k = 0#2 ∨ k = 1#2 ∨ k = 2#2 ∨ k = 3#2 := by decide +revert

theorem three_cases (n : BitVec 3) :
    n = 0#3 ∨ n = 1#3 ∨ n = 2#3 ∨ n = 3#3 ∨ n = 4#3 ∨ n = 5#3 ∨ n = 6#3 ∨ n = 7#3 := by decide +revert

end Sys2Proof.Laws
end

