-- ==== Sys2Proof/Laws/PerInstr.lean ====
section
/-!
SUPPORT. One lemma per constructor of Instr for the family RoundTrip: what the encoder writes, the decoder reads back with
every operand at every value that is well formed.
-/
set_option Elab.async false
set_option linter.unusedSimpArgs false
namespace Sys2Proof.Laws

/-- An instruction with an encoding decodes, from the words that encode it, to itself (R252 to R262). -/
def RoundTrip.Statement (i : Instr) : Prop :=
  i.wf = true → encode i ≠ [] → decodeWords (encode i) = some i

/-- The round trip, from the decoding of the words alone. -/
theorem roundTrip_of_decode {i : Instr} (h : i.wf = true → decodeWords (encode i) = some i) : RoundTrip.Statement i :=
  fun w _ => h w

/-- A step without an encoding has nothing to decode. -/
theorem roundTrip_of_none {i : Instr} (h : encode i = []) : RoundTrip.Statement i := fun _ e => absurd h e

theorem RoundTrip.powerOn : RoundTrip.Statement .powerOn := roundTrip_of_none rfl
theorem RoundTrip.nurseryExit (ok : Bool) : RoundTrip.Statement (.nurseryExit ok) := roundTrip_of_none rfl
theorem RoundTrip.openVd (m : Kcp) : RoundTrip.Statement (.openVd m) := roundTrip_of_none rfl
theorem RoundTrip.closeVd (m : Kcp) : RoundTrip.Statement (.closeVd m) := roundTrip_of_none rfl
theorem RoundTrip.map (m : Kcp) : RoundTrip.Statement (.map m) := roundTrip_of_none rfl
theorem RoundTrip.write (m : Kcp) : RoundTrip.Statement (.write m) := roundTrip_of_none rfl
theorem RoundTrip.read (m : Kcp) : RoundTrip.Statement (.read m) := roundTrip_of_none rfl
theorem RoundTrip.launchStart (m : Kcp) : RoundTrip.Statement (.launchStart m) := roundTrip_of_none rfl
theorem RoundTrip.launchResume (m : Kcp) : RoundTrip.Statement (.launchResume m) := roundTrip_of_none rfl
theorem RoundTrip.launchEnd (m : Kcp) : RoundTrip.Statement (.launchEnd m) := roundTrip_of_none rfl
theorem RoundTrip.launchDrain (m : Kcp) : RoundTrip.Statement (.launchDrain m) := roundTrip_of_none rfl
theorem RoundTrip.events (m : Kcp) : RoundTrip.Statement (.events m) := roundTrip_of_none rfl
theorem RoundTrip.attest (m : Kcp) : RoundTrip.Statement (.attest m) := roundTrip_of_none rfl
theorem RoundTrip.logFetch (m : Kcp) : RoundTrip.Statement (.logFetch m) := roundTrip_of_none rfl
theorem RoundTrip.receiptFetch (m : Kcp) : RoundTrip.Statement (.receiptFetch m) := roundTrip_of_none rfl
theorem RoundTrip.placement : RoundTrip.Statement .placement := roundTrip_of_none rfl
theorem RoundTrip.queueRetry : RoundTrip.Statement .queueRetry := roundTrip_of_none rfl
theorem RoundTrip.threadAdmission (cc : Nat) : RoundTrip.Statement (.threadAdmission cc) := roundTrip_of_none rfl
theorem RoundTrip.gangStart (lseq : Nat) : RoundTrip.Statement (.gangStart lseq) := roundTrip_of_none rfl
theorem RoundTrip.launchComplete (lseq : Nat) : RoundTrip.Statement (.launchComplete lseq) := roundTrip_of_none rfl
theorem RoundTrip.instructionIssue (cc : Nat) : RoundTrip.Statement (.instructionIssue cc) := roundTrip_of_none rfl
theorem RoundTrip.wfeWake (tid : Nat) : RoundTrip.Statement (.wfeWake tid) := roundTrip_of_none rfl
theorem RoundTrip.loadReturn (tid : Nat) : RoundTrip.Statement (.loadReturn tid) := roundTrip_of_none rfl
theorem RoundTrip.siblingWindowRelease (tid : Nat) : RoundTrip.Statement (.siblingWindowRelease tid) := roundTrip_of_none rfl
theorem RoundTrip.remoteAccess (r : RemoteReq) : RoundTrip.Statement (.remoteAccess r) := roundTrip_of_none rfl
theorem RoundTrip.correctedError (unit : Nat) : RoundTrip.Statement (.correctedError unit) := roundTrip_of_none rfl
theorem RoundTrip.backedPageResident (plot page : Nat) : RoundTrip.Statement (.backedPageResident plot page) := roundTrip_of_none rfl
theorem RoundTrip.tokenArrival (lseq chan : Nat) : RoundTrip.Statement (.tokenArrival lseq chan) := roundTrip_of_none rfl
theorem RoundTrip.edgePortCrossing (lseq chan : Nat) : RoundTrip.Statement (.edgePortCrossing lseq chan) := roundTrip_of_none rfl
theorem RoundTrip.handlerFiring (pe : Nat) : RoundTrip.Statement (.handlerFiring pe) := roundTrip_of_none rfl
theorem RoundTrip.handlerPromotion (pe h : Nat) : RoundTrip.Statement (.handlerPromotion pe h) := roundTrip_of_none rfl
theorem RoundTrip.planeSwap (pe : Nat) : RoundTrip.Statement (.planeSwap pe) := roundTrip_of_none rfl
theorem RoundTrip.matrixPlotSwap (plot : Nat) : RoundTrip.Statement (.matrixPlotSwap plot) := roundTrip_of_none rfl
theorem RoundTrip.matrixVector (plot : Nat) : RoundTrip.Statement (.matrixVector plot) := roundTrip_of_none rfl
theorem RoundTrip.loadw (plot : Nat) : RoundTrip.Statement (.loadw plot) := roundTrip_of_none rfl
theorem RoundTrip.agElement (lseq node : Nat) : RoundTrip.Statement (.agElement lseq node) := roundTrip_of_none rfl
theorem RoundTrip.heldElementRetry (lseq node : Nat) : RoundTrip.Statement (.heldElementRetry lseq node) := roundTrip_of_none rfl
theorem RoundTrip.fifoSpill (lseq chan : Nat) : RoundTrip.Statement (.fifoSpill lseq chan) := roundTrip_of_none rfl
theorem RoundTrip.streamEnd (lseq node : Nat) : RoundTrip.Statement (.streamEnd lseq node) := roundTrip_of_none rfl
theorem RoundTrip.commandIssue (tid : Nat) : RoundTrip.Statement (.commandIssue tid) := roundTrip_of_none rfl
theorem RoundTrip.copyUnit (die : Nat) : RoundTrip.Statement (.copyUnit die) := roundTrip_of_none rfl
theorem RoundTrip.eventRecordPost (cc : Nat) : RoundTrip.Statement (.eventRecordPost cc) := roundTrip_of_none rfl
theorem RoundTrip.taskStart (lseq q : Nat) : RoundTrip.Statement (.taskStart lseq q) := roundTrip_of_none rfl
theorem RoundTrip.collectiveStart (vd comm : Nat) : RoundTrip.Statement (.collectiveStart vd comm) := roundTrip_of_none rfl
theorem RoundTrip.collectiveCombine (vd comm : Nat) : RoundTrip.Statement (.collectiveCombine vd comm) := roundTrip_of_none rfl
theorem RoundTrip.collectiveComplete (vd comm : Nat) : RoundTrip.Statement (.collectiveComplete vd comm) := roundTrip_of_none rfl
theorem RoundTrip.collectiveAbandon (vd comm : Nat) : RoundTrip.Statement (.collectiveAbandon vd comm) := roundTrip_of_none rfl
theorem RoundTrip.faultRecordWrite (lseq : Nat) : RoundTrip.Statement (.faultRecordWrite lseq) := roundTrip_of_none rfl
theorem RoundTrip.replayRequest (lseq idx : Nat) : RoundTrip.Statement (.replayRequest lseq idx) := roundTrip_of_none rfl
theorem RoundTrip.replayToken (lseq idx : Nat) : RoundTrip.Statement (.replayToken lseq idx) := roundTrip_of_none rfl
theorem RoundTrip.owlFire (lseq part : Nat) : RoundTrip.Statement (.owlFire lseq part) := roundTrip_of_none rfl
theorem RoundTrip.preemption (lseq : Nat) : RoundTrip.Statement (.preemption lseq) := roundTrip_of_none rfl
theorem RoundTrip.timeSliceEnd (vd : Nat) : RoundTrip.Statement (.timeSliceEnd vd) := roundTrip_of_none rfl
theorem RoundTrip.relocation (lseq : Nat) : RoundTrip.Statement (.relocation lseq) := roundTrip_of_none rfl
theorem RoundTrip.restore (lseq : Nat) : RoundTrip.Statement (.restore lseq) := roundTrip_of_none rfl
theorem RoundTrip.variantNarrow (lseq : Nat) : RoundTrip.Statement (.variantNarrow lseq) := roundTrip_of_none rfl
theorem RoundTrip.powerArbitration : RoundTrip.Statement .powerArbitration := roundTrip_of_none rfl
theorem RoundTrip.scoreDecay : RoundTrip.Statement .scoreDecay := roundTrip_of_none rfl
theorem RoundTrip.routineLease (unit : Nat) : RoundTrip.Statement (.routineLease unit) := roundTrip_of_none rfl
theorem RoundTrip.plotLease (plot : Nat) : RoundTrip.Statement (.plotLease plot) := roundTrip_of_none rfl
theorem RoundTrip.leaseDeferredRetry (unit : Nat) : RoundTrip.Statement (.leaseDeferredRetry unit) := roundTrip_of_none rfl
theorem RoundTrip.leaseForce (plot : Nat) : RoundTrip.Statement (.leaseForce plot) := roundTrip_of_none rfl
theorem RoundTrip.laneGroupLease (unit : Nat) : RoundTrip.Statement (.laneGroupLease unit) := roundTrip_of_none rfl
theorem RoundTrip.memoryWindowTest (chan : Nat) (res : LeaseResult) : RoundTrip.Statement (.memoryWindowTest chan res) := roundTrip_of_none rfl
theorem RoundTrip.leaseEnd (unit : Nat) (res : LeaseResult) : RoundTrip.Statement (.leaseEnd unit res) := roundTrip_of_none rfl
theorem RoundTrip.retirement (unit : Nat) : RoundTrip.Statement (.retirement unit) := roundTrip_of_none rfl
theorem RoundTrip.linkRetry (unit : Nat) : RoundTrip.Statement (.linkRetry unit) := roundTrip_of_none rfl
theorem RoundTrip.engagementOpen (a : Reg) : RoundTrip.Statement (.engagementOpen a) := roundTrip_of_none rfl
theorem RoundTrip.engagementClose (a : Reg) : RoundTrip.Statement (.engagementClose a) := roundTrip_of_none rfl
theorem RoundTrip.engagementGrant (a : Reg) : RoundTrip.Statement (.engagementGrant a) := roundTrip_of_none rfl
theorem RoundTrip.engctlSet (a : Reg) : RoundTrip.Statement (.engctlSet a) := roundTrip_of_none rfl
theorem RoundTrip.fbstatWrite (a : Reg) : RoundTrip.Statement (.fbstatWrite a) := roundTrip_of_none rfl
theorem RoundTrip.vdqmaskWrite (a : Reg) : RoundTrip.Statement (.vdqmaskWrite a) := roundTrip_of_none rfl
theorem RoundTrip.monitorConfigWrite (sr : BitVec 12) (a : Reg) : RoundTrip.Statement (.monitorConfigWrite sr a) := roundTrip_of_none rfl
theorem RoundTrip.monitorWindowEnd (vd mon : Nat) : RoundTrip.Statement (.monitorWindowEnd vd mon) := roundTrip_of_none rfl
theorem RoundTrip.logBlockSeal (vd mon : Nat) : RoundTrip.Statement (.logBlockSeal vd mon) := roundTrip_of_none rfl
theorem RoundTrip.nop : RoundTrip.Statement .nop := by
  refine roundTrip_of_decode fun _ => ?_
  simp only [decodeWords, encode]
  rw [decode, if_neg (ne_zero_of_field 0 8 (by simp [encR]))]
  simp [fOp, fD, fA, fB, fFn, encR, decodeR, req, Except.toOption]
theorem RoundTrip.add (d a b : Reg) : RoundTrip.Statement (.add d a b) := by
  refine roundTrip_of_decode fun _ => ?_
  simp only [decodeWords, encode]
  rw [decode, if_neg (ne_zero_of_field 0 8 (by simp [encR]))]
  simp [fOp, fD, fA, fB, fFn, encR, decodeR, req, Except.toOption]
theorem RoundTrip.sub (d a b : Reg) : RoundTrip.Statement (.sub d a b) := by
  refine roundTrip_of_decode fun _ => ?_
  simp only [decodeWords, encode]
  rw [decode, if_neg (ne_zero_of_field 0 8 (by simp [encR]))]
  simp [fOp, fD, fA, fB, fFn, encR, decodeR, req, Except.toOption]
theorem RoundTrip.mul (d a b : Reg) : RoundTrip.Statement (.mul d a b) := by
  refine roundTrip_of_decode fun _ => ?_
  simp only [decodeWords, encode]
  rw [decode, if_neg (ne_zero_of_field 0 8 (by simp [encR]))]
  simp [fOp, fD, fA, fB, fFn, encR, decodeR, req, Except.toOption]
theorem RoundTrip.mulh (d a b : Reg) : RoundTrip.Statement (.mulh d a b) := by
  refine roundTrip_of_decode fun _ => ?_
  simp only [decodeWords, encode]
  rw [decode, if_neg (ne_zero_of_field 0 8 (by simp [encR]))]
  simp [fOp, fD, fA, fB, fFn, encR, decodeR, req, Except.toOption]
theorem RoundTrip.mulhu (d a b : Reg) : RoundTrip.Statement (.mulhu d a b) := by
  refine roundTrip_of_decode fun _ => ?_
  simp only [decodeWords, encode]
  rw [decode, if_neg (ne_zero_of_field 0 8 (by simp [encR]))]
  simp [fOp, fD, fA, fB, fFn, encR, decodeR, req, Except.toOption]
theorem RoundTrip.div (d a b : Reg) : RoundTrip.Statement (.div d a b) := by
  refine roundTrip_of_decode fun _ => ?_
  simp only [decodeWords, encode]
  rw [decode, if_neg (ne_zero_of_field 0 8 (by simp [encR]))]
  simp [fOp, fD, fA, fB, fFn, encR, decodeR, req, Except.toOption]
theorem RoundTrip.divu (d a b : Reg) : RoundTrip.Statement (.divu d a b) := by
  refine roundTrip_of_decode fun _ => ?_
  simp only [decodeWords, encode]
  rw [decode, if_neg (ne_zero_of_field 0 8 (by simp [encR]))]
  simp [fOp, fD, fA, fB, fFn, encR, decodeR, req, Except.toOption]
theorem RoundTrip.rem (d a b : Reg) : RoundTrip.Statement (.rem d a b) := by
  refine roundTrip_of_decode fun _ => ?_
  simp only [decodeWords, encode]
  rw [decode, if_neg (ne_zero_of_field 0 8 (by simp [encR]))]
  simp [fOp, fD, fA, fB, fFn, encR, decodeR, req, Except.toOption]
theorem RoundTrip.remu (d a b : Reg) : RoundTrip.Statement (.remu d a b) := by
  refine roundTrip_of_decode fun _ => ?_
  simp only [decodeWords, encode]
  rw [decode, if_neg (ne_zero_of_field 0 8 (by simp [encR]))]
  simp [fOp, fD, fA, fB, fFn, encR, decodeR, req, Except.toOption]
theorem RoundTrip.and (d a b : Reg) : RoundTrip.Statement (.and d a b) := by
  refine roundTrip_of_decode fun _ => ?_
  simp only [decodeWords, encode]
  rw [decode, if_neg (ne_zero_of_field 0 8 (by simp [encR]))]
  simp [fOp, fD, fA, fB, fFn, encR, decodeR, req, Except.toOption]
theorem RoundTrip.or (d a b : Reg) : RoundTrip.Statement (.or d a b) := by
  refine roundTrip_of_decode fun _ => ?_
  simp only [decodeWords, encode]
  rw [decode, if_neg (ne_zero_of_field 0 8 (by simp [encR]))]
  simp [fOp, fD, fA, fB, fFn, encR, decodeR, req, Except.toOption]
theorem RoundTrip.xor (d a b : Reg) : RoundTrip.Statement (.xor d a b) := by
  refine roundTrip_of_decode fun _ => ?_
  simp only [decodeWords, encode]
  rw [decode, if_neg (ne_zero_of_field 0 8 (by simp [encR]))]
  simp [fOp, fD, fA, fB, fFn, encR, decodeR, req, Except.toOption]
theorem RoundTrip.sll (d a b : Reg) : RoundTrip.Statement (.sll d a b) := by
  refine roundTrip_of_decode fun _ => ?_
  simp only [decodeWords, encode]
  rw [decode, if_neg (ne_zero_of_field 0 8 (by simp [encR]))]
  simp [fOp, fD, fA, fB, fFn, encR, decodeR, req, Except.toOption]
theorem RoundTrip.srl (d a b : Reg) : RoundTrip.Statement (.srl d a b) := by
  refine roundTrip_of_decode fun _ => ?_
  simp only [decodeWords, encode]
  rw [decode, if_neg (ne_zero_of_field 0 8 (by simp [encR]))]
  simp [fOp, fD, fA, fB, fFn, encR, decodeR, req, Except.toOption]
theorem RoundTrip.sra (d a b : Reg) : RoundTrip.Statement (.sra d a b) := by
  refine roundTrip_of_decode fun _ => ?_
  simp only [decodeWords, encode]
  rw [decode, if_neg (ne_zero_of_field 0 8 (by simp [encR]))]
  simp [fOp, fD, fA, fB, fFn, encR, decodeR, req, Except.toOption]
theorem RoundTrip.min (d a b : Reg) : RoundTrip.Statement (.min d a b) := by
  refine roundTrip_of_decode fun _ => ?_
  simp only [decodeWords, encode]
  rw [decode, if_neg (ne_zero_of_field 0 8 (by simp [encR]))]
  simp [fOp, fD, fA, fB, fFn, encR, decodeR, req, Except.toOption]
theorem RoundTrip.max (d a b : Reg) : RoundTrip.Statement (.max d a b) := by
  refine roundTrip_of_decode fun _ => ?_
  simp only [decodeWords, encode]
  rw [decode, if_neg (ne_zero_of_field 0 8 (by simp [encR]))]
  simp [fOp, fD, fA, fB, fFn, encR, decodeR, req, Except.toOption]
theorem RoundTrip.minu (d a b : Reg) : RoundTrip.Statement (.minu d a b) := by
  refine roundTrip_of_decode fun _ => ?_
  simp only [decodeWords, encode]
  rw [decode, if_neg (ne_zero_of_field 0 8 (by simp [encR]))]
  simp [fOp, fD, fA, fB, fFn, encR, decodeR, req, Except.toOption]
theorem RoundTrip.maxu (d a b : Reg) : RoundTrip.Statement (.maxu d a b) := by
  refine roundTrip_of_decode fun _ => ?_
  simp only [decodeWords, encode]
  rw [decode, if_neg (ne_zero_of_field 0 8 (by simp [encR]))]
  simp [fOp, fD, fA, fB, fFn, encR, decodeR, req, Except.toOption]
theorem RoundTrip.clz (d a : Reg) : RoundTrip.Statement (.clz d a) := by
  refine roundTrip_of_decode fun _ => ?_
  simp only [decodeWords, encode]
  rw [decode, if_neg (ne_zero_of_field 0 8 (by simp [encR]))]
  simp [fOp, fD, fA, fB, fFn, encR, decodeR, req, Except.toOption]
theorem RoundTrip.ctz (d a : Reg) : RoundTrip.Statement (.ctz d a) := by
  refine roundTrip_of_decode fun _ => ?_
  simp only [decodeWords, encode]
  rw [decode, if_neg (ne_zero_of_field 0 8 (by simp [encR]))]
  simp [fOp, fD, fA, fB, fFn, encR, decodeR, req, Except.toOption]
theorem RoundTrip.popc (d a : Reg) : RoundTrip.Statement (.popc d a) := by
  refine roundTrip_of_decode fun _ => ?_
  simp only [decodeWords, encode]
  rw [decode, if_neg (ne_zero_of_field 0 8 (by simp [encR]))]
  simp [fOp, fD, fA, fB, fFn, encR, decodeR, req, Except.toOption]
theorem RoundTrip.addsc (k : BitVec 2) (d a b : Reg) : RoundTrip.Statement (.addsc k d a b) := by
  refine roundTrip_of_decode fun _ => ?_
  simp only [decodeWords, encode]
  rw [decode, if_neg (ne_zero_of_field 2 6 (by simp [encR]))]
  rcases two_cases k with rfl | rfl | rfl | rfl <;> simp [fOp, fD, fA, fB, fFn, encR, decodeR, req, Except.toOption]
theorem RoundTrip.sel (n : Pred) (d a b : Reg) : RoundTrip.Statement (.sel n d a b) := by
  refine roundTrip_of_decode fun _ => ?_
  simp only [decodeWords, encode]
  rw [decode, if_neg (ne_zero_of_field 3 5 (by simp [encR]))]
  rcases three_cases n with rfl | rfl | rfl | rfl | rfl | rfl | rfl | rfl <;>
    simp [fOp, fD, fA, fB, fFn, encR, decodeR, req, Except.toOption]
theorem RoundTrip.addImm (d a : Reg) (i : BitVec 14) : RoundTrip.Statement (.addImm d a i) := by
  refine roundTrip_of_decode fun w => ?_
  simp only [decodeWords, encode]
  rw [decode, if_neg (ne_zero_of_field 26 6 (by simp [encR, encI, encSu]))]
  simp_all [Instr.wf, fOp, fD, fA, fB, fFn, fImm14, fPd, fCc, fSz, fU, encR, encI, encSu, immLong, req, Except.toOption, decodeSh, decodeBf, decodeCmp, decodeMem, decodeAmo, decodeCas, decodeX, decodeBr, decodeHalt, decodeSys, decodeSs, decodeSu, decodeSg, decodeSbS, decodeSbind, decodeG, decodeCpy, decodeCpym, decodeE36, decodeColl, decodeCb, decodeCbg]
theorem RoundTrip.andImm (d a : Reg) (i : BitVec 14) : RoundTrip.Statement (.andImm d a i) := by
  refine roundTrip_of_decode fun w => ?_
  simp only [decodeWords, encode]
  rw [decode, if_neg (ne_zero_of_field 26 6 (by simp [encR, encI, encSu]))]
  simp_all [Instr.wf, fOp, fD, fA, fB, fFn, fImm14, fPd, fCc, fSz, fU, encR, encI, encSu, immLong, req, Except.toOption, decodeSh, decodeBf, decodeCmp, decodeMem, decodeAmo, decodeCas, decodeX, decodeBr, decodeHalt, decodeSys, decodeSs, decodeSu, decodeSg, decodeSbS, decodeSbind, decodeG, decodeCpy, decodeCpym, decodeE36, decodeColl, decodeCb, decodeCbg]
theorem RoundTrip.orImm (d a : Reg) (i : BitVec 14) : RoundTrip.Statement (.orImm d a i) := by
  refine roundTrip_of_decode fun w => ?_
  simp only [decodeWords, encode]
  rw [decode, if_neg (ne_zero_of_field 26 6 (by simp [encR, encI, encSu]))]
  simp_all [Instr.wf, fOp, fD, fA, fB, fFn, fImm14, fPd, fCc, fSz, fU, encR, encI, encSu, immLong, req, Except.toOption, decodeSh, decodeBf, decodeCmp, decodeMem, decodeAmo, decodeCas, decodeX, decodeBr, decodeHalt, decodeSys, decodeSs, decodeSu, decodeSg, decodeSbS, decodeSbind, decodeG, decodeCpy, decodeCpym, decodeE36, decodeColl, decodeCb, decodeCbg]
theorem RoundTrip.xorImm (d a : Reg) (i : BitVec 14) : RoundTrip.Statement (.xorImm d a i) := by
  refine roundTrip_of_decode fun w => ?_
  simp only [decodeWords, encode]
  rw [decode, if_neg (ne_zero_of_field 26 6 (by simp [encR, encI, encSu]))]
  simp_all [Instr.wf, fOp, fD, fA, fB, fFn, fImm14, fPd, fCc, fSz, fU, encR, encI, encSu, immLong, req, Except.toOption, decodeSh, decodeBf, decodeCmp, decodeMem, decodeAmo, decodeCas, decodeX, decodeBr, decodeHalt, decodeSys, decodeSs, decodeSu, decodeSg, decodeSbS, decodeSbind, decodeG, decodeCpy, decodeCpym, decodeE36, decodeColl, decodeCb, decodeCbg]
theorem RoundTrip.sllImm (d a : Reg) (m : BitVec 6) : RoundTrip.Statement (.sllImm d a m) := by
  refine roundTrip_of_decode fun w => ?_
  simp only [decodeWords, encode]
  rw [decode, if_neg (ne_zero_of_field 26 6 (by simp [encR, encI, encSu]))]
  simp_all [Instr.wf, fOp, fD, fA, fB, fFn, fImm14, fPd, fCc, fSz, fU, encR, encI, encSu, immLong, req, Except.toOption, decodeSh, decodeBf, decodeCmp, decodeMem, decodeAmo, decodeCas, decodeX, decodeBr, decodeHalt, decodeSys, decodeSs, decodeSu, decodeSg, decodeSbS, decodeSbind, decodeG, decodeCpy, decodeCpym, decodeE36, decodeColl, decodeCb, decodeCbg]
theorem RoundTrip.srlImm (d a : Reg) (m : BitVec 6) : RoundTrip.Statement (.srlImm d a m) := by
  refine roundTrip_of_decode fun w => ?_
  simp only [decodeWords, encode]
  rw [decode, if_neg (ne_zero_of_field 26 6 (by simp [encR, encI, encSu]))]
  simp_all [Instr.wf, fOp, fD, fA, fB, fFn, fImm14, fPd, fCc, fSz, fU, encR, encI, encSu, immLong, req, Except.toOption, decodeSh, decodeBf, decodeCmp, decodeMem, decodeAmo, decodeCas, decodeX, decodeBr, decodeHalt, decodeSys, decodeSs, decodeSu, decodeSg, decodeSbS, decodeSbind, decodeG, decodeCpy, decodeCpym, decodeE36, decodeColl, decodeCb, decodeCbg]
theorem RoundTrip.sraImm (d a : Reg) (m : BitVec 6) : RoundTrip.Statement (.sraImm d a m) := by
  refine roundTrip_of_decode fun w => ?_
  simp only [decodeWords, encode]
  rw [decode, if_neg (ne_zero_of_field 26 6 (by simp [encR, encI, encSu]))]
  simp_all [Instr.wf, fOp, fD, fA, fB, fFn, fImm14, fPd, fCc, fSz, fU, encR, encI, encSu, immLong, req, Except.toOption, decodeSh, decodeBf, decodeCmp, decodeMem, decodeAmo, decodeCas, decodeX, decodeBr, decodeHalt, decodeSys, decodeSs, decodeSu, decodeSg, decodeSbS, decodeSbind, decodeG, decodeCpy, decodeCpym, decodeE36, decodeColl, decodeCb, decodeCbg]
theorem RoundTrip.addLong (d a : Reg) (i : BitVec 46) : RoundTrip.Statement (.addLong d a i) := by
  refine roundTrip_of_decode fun w => ?_
  simp only [decodeWords, encode]
  rw [decode, if_neg (ne_zero_of_field 26 6 (by simp [encR, encI, encSu]))]
  simp_all [Instr.wf, fOp, fD, fA, fB, fFn, fImm14, fPd, fCc, fSz, fU, encR, encI, encSu, immLong, req, Except.toOption, decodeSh, decodeBf, decodeCmp, decodeMem, decodeAmo, decodeCas, decodeX, decodeBr, decodeHalt, decodeSys, decodeSs, decodeSu, decodeSg, decodeSbS, decodeSbind, decodeG, decodeCpy, decodeCpym, decodeE36, decodeColl, decodeCb, decodeCbg]
theorem RoundTrip.andLong (d a : Reg) (i : BitVec 46) : RoundTrip.Statement (.andLong d a i) := by
  refine roundTrip_of_decode fun w => ?_
  simp only [decodeWords, encode]
  rw [decode, if_neg (ne_zero_of_field 26 6 (by simp [encR, encI, encSu]))]
  simp_all [Instr.wf, fOp, fD, fA, fB, fFn, fImm14, fPd, fCc, fSz, fU, encR, encI, encSu, immLong, req, Except.toOption, decodeSh, decodeBf, decodeCmp, decodeMem, decodeAmo, decodeCas, decodeX, decodeBr, decodeHalt, decodeSys, decodeSs, decodeSu, decodeSg, decodeSbS, decodeSbind, decodeG, decodeCpy, decodeCpym, decodeE36, decodeColl, decodeCb, decodeCbg]
theorem RoundTrip.orLong (d a : Reg) (i : BitVec 46) : RoundTrip.Statement (.orLong d a i) := by
  refine roundTrip_of_decode fun w => ?_
  simp only [decodeWords, encode]
  rw [decode, if_neg (ne_zero_of_field 26 6 (by simp [encR, encI, encSu]))]
  simp_all [Instr.wf, fOp, fD, fA, fB, fFn, fImm14, fPd, fCc, fSz, fU, encR, encI, encSu, immLong, req, Except.toOption, decodeSh, decodeBf, decodeCmp, decodeMem, decodeAmo, decodeCas, decodeX, decodeBr, decodeHalt, decodeSys, decodeSs, decodeSu, decodeSg, decodeSbS, decodeSbind, decodeG, decodeCpy, decodeCpym, decodeE36, decodeColl, decodeCb, decodeCbg]
theorem RoundTrip.xorLong (d a : Reg) (i : BitVec 46) : RoundTrip.Statement (.xorLong d a i) := by
  refine roundTrip_of_decode fun w => ?_
  simp only [decodeWords, encode]
  rw [decode, if_neg (ne_zero_of_field 26 6 (by simp [encR, encI, encSu]))]
  simp_all [Instr.wf, fOp, fD, fA, fB, fFn, fImm14, fPd, fCc, fSz, fU, encR, encI, encSu, immLong, req, Except.toOption, decodeSh, decodeBf, decodeCmp, decodeMem, decodeAmo, decodeCas, decodeX, decodeBr, decodeHalt, decodeSys, decodeSs, decodeSu, decodeSg, decodeSbS, decodeSbind, decodeG, decodeCpy, decodeCpym, decodeE36, decodeColl, decodeCb, decodeCbg]
theorem RoundTrip.bfx (d a : Reg) (pos lenm1 : BitVec 6) : RoundTrip.Statement (.bfx d a pos lenm1) := by
  refine roundTrip_of_decode fun w => ?_
  simp only [decodeWords, encode]
  rw [decode, if_neg (ne_zero_of_field 26 6 (by simp [encR, encI, encSu]))]
  simp_all [Instr.wf, fOp, fD, fA, fB, fFn, fImm14, fPd, fCc, fSz, fU, encR, encI, encSu, immLong, req, Except.toOption, decodeSh, decodeBf, decodeCmp, decodeMem, decodeAmo, decodeCas, decodeX, decodeBr, decodeHalt, decodeSys, decodeSs, decodeSu, decodeSg, decodeSbS, decodeSbind, decodeG, decodeCpy, decodeCpym, decodeE36, decodeColl, decodeCb, decodeCbg]
theorem RoundTrip.bfxS (d a : Reg) (pos lenm1 : BitVec 6) : RoundTrip.Statement (.bfxS d a pos lenm1) := by
  refine roundTrip_of_decode fun w => ?_
  simp only [decodeWords, encode]
  rw [decode, if_neg (ne_zero_of_field 26 6 (by simp [encR, encI, encSu]))]
  simp_all [Instr.wf, fOp, fD, fA, fB, fFn, fImm14, fPd, fCc, fSz, fU, encR, encI, encSu, immLong, req, Except.toOption, decodeSh, decodeBf, decodeCmp, decodeMem, decodeAmo, decodeCas, decodeX, decodeBr, decodeHalt, decodeSys, decodeSs, decodeSu, decodeSg, decodeSbS, decodeSbind, decodeG, decodeCpy, decodeCpym, decodeE36, decodeColl, decodeCb, decodeCbg]
theorem RoundTrip.bfi (d a : Reg) (pos lenm1 : BitVec 6) : RoundTrip.Statement (.bfi d a pos lenm1) := by
  refine roundTrip_of_decode fun w => ?_
  simp only [decodeWords, encode]
  rw [decode, if_neg (ne_zero_of_field 26 6 (by simp [encR, encI, encSu]))]
  simp_all [Instr.wf, fOp, fD, fA, fB, fFn, fImm14, fPd, fCc, fSz, fU, encR, encI, encSu, immLong, req, Except.toOption, decodeSh, decodeBf, decodeCmp, decodeMem, decodeAmo, decodeCas, decodeX, decodeBr, decodeHalt, decodeSys, decodeSs, decodeSu, decodeSg, decodeSbS, decodeSbind, decodeG, decodeCpy, decodeCpym, decodeE36, decodeColl, decodeCb, decodeCbg]
theorem RoundTrip.cmpCc (p : Pred) (c : CmpCond) (a b : Reg) : RoundTrip.Statement (.cmpCc p c a b) := by
  refine roundTrip_of_decode fun w => ?_
  simp only [decodeWords, encode]
  rw [decode, if_neg (ne_zero_of_field 26 6 (by simp [encR, encI, encSu]))]
  simp_all [Instr.wf, fOp, fD, fA, fB, fFn, fImm14, fPd, fCc, fSz, fU, encR, encI, encSu, immLong, req, Except.toOption, decodeSh, decodeBf, decodeCmp, decodeMem, decodeAmo, decodeCas, decodeX, decodeBr, decodeHalt, decodeSys, decodeSs, decodeSu, decodeSg, decodeSbS, decodeSbind, decodeG, decodeCpy, decodeCpym, decodeE36, decodeColl, decodeCb, decodeCbg]
theorem RoundTrip.cmpCcImm (p : Pred) (c : CmpCond) (a : Reg) (i : BitVec 14) : RoundTrip.Statement (.cmpCcImm p c a i) := by
  refine roundTrip_of_decode fun w => ?_
  simp only [decodeWords, encode]
  rw [decode, if_neg (ne_zero_of_field 26 6 (by simp [encR, encI, encSu]))]
  simp_all [Instr.wf, fOp, fD, fA, fB, fFn, fImm14, fPd, fCc, fSz, fU, encR, encI, encSu, immLong, req, Except.toOption, decodeSh, decodeBf, decodeCmp, decodeMem, decodeAmo, decodeCas, decodeX, decodeBr, decodeHalt, decodeSys, decodeSs, decodeSu, decodeSg, decodeSbS, decodeSbind, decodeG, decodeCpy, decodeCpym, decodeE36, decodeColl, decodeCb, decodeCbg]
theorem RoundTrip.ld (d a : Reg) (sz : BitVec 2) (u : Bool) (off : BitVec 11) : RoundTrip.Statement (.ld d a sz u off) := by
  refine roundTrip_of_decode fun w => ?_
  simp only [decodeWords, encode]
  rw [decode, if_neg (ne_zero_of_field 26 6 (by simp [encR, encI, encSu]))]
  simp_all [Instr.wf, fOp, fD, fA, fB, fFn, fImm14, fPd, fCc, fSz, fU, encR, encI, encSu, immLong, req, Except.toOption, decodeSh, decodeBf, decodeCmp, decodeMem, decodeAmo, decodeCas, decodeX, decodeBr, decodeHalt, decodeSys, decodeSs, decodeSu, decodeSg, decodeSbS, decodeSbind, decodeG, decodeCpy, decodeCpym, decodeE36, decodeColl, decodeCb, decodeCbg]
theorem RoundTrip.st (b a : Reg) (sz : BitVec 2) (off : BitVec 11) : RoundTrip.Statement (.st b a sz off) := by
  refine roundTrip_of_decode fun w => ?_
  simp only [decodeWords, encode]
  rw [decode, if_neg (ne_zero_of_field 26 6 (by simp [encR, encI, encSu]))]
  simp_all [Instr.wf, fOp, fD, fA, fB, fFn, fImm14, fPd, fCc, fSz, fU, encR, encI, encSu, immLong, req, Except.toOption, decodeSh, decodeBf, decodeCmp, decodeMem, decodeAmo, decodeCas, decodeX, decodeBr, decodeHalt, decodeSys, decodeSs, decodeSu, decodeSg, decodeSbS, decodeSbind, decodeG, decodeCpy, decodeCpym, decodeE36, decodeColl, decodeCb, decodeCbg]
theorem RoundTrip.ldAcq (d a : Reg) (sz : BitVec 2) (u : Bool) (scope : BitVec 3) (off : BitVec 8) : RoundTrip.Statement (.ldAcq d a sz u scope off) := by
  refine roundTrip_of_decode fun w => ?_
  simp only [decodeWords, encode]
  rw [decode, if_neg (ne_zero_of_field 26 6 (by simp [encR, encI, encSu]))]
  simp_all [Instr.wf, fOp, fD, fA, fB, fFn, fImm14, fPd, fCc, fSz, fU, encR, encI, encSu, immLong, req, Except.toOption, decodeSh, decodeBf, decodeCmp, decodeMem, decodeAmo, decodeCas, decodeX, decodeBr, decodeHalt, decodeSys, decodeSs, decodeSu, decodeSg, decodeSbS, decodeSbind, decodeG, decodeCpy, decodeCpym, decodeE36, decodeColl, decodeCb, decodeCbg]
theorem RoundTrip.stRel (b a : Reg) (sz : BitVec 2) (scope : BitVec 3) (off : BitVec 8) : RoundTrip.Statement (.stRel b a sz scope off) := by
  refine roundTrip_of_decode fun w => ?_
  simp only [decodeWords, encode]
  rw [decode, if_neg (ne_zero_of_field 26 6 (by simp [encR, encI, encSu]))]
  simp_all [Instr.wf, fOp, fD, fA, fB, fFn, fImm14, fPd, fCc, fSz, fU, encR, encI, encSu, immLong, req, Except.toOption, decodeSh, decodeBf, decodeCmp, decodeMem, decodeAmo, decodeCas, decodeX, decodeBr, decodeHalt, decodeSys, decodeSs, decodeSu, decodeSg, decodeSbS, decodeSbind, decodeG, decodeCpy, decodeCpym, decodeE36, decodeColl, decodeCb, decodeCbg]
theorem RoundTrip.amoW (op : AmoOp) (d a b : Reg) (ord : BitVec 2) (scope : BitVec 3) : RoundTrip.Statement (.amoW op d a b ord scope) := by
  refine roundTrip_of_decode fun w => ?_
  simp only [decodeWords, encode]
  rw [decode, if_neg (ne_zero_of_field 26 6 (by simp [encR, encI, encSu]))]
  simp_all [Instr.wf, fOp, fD, fA, fB, fFn, fImm14, fPd, fCc, fSz, fU, encR, encI, encSu, immLong, req, Except.toOption, decodeSh, decodeBf, decodeCmp, decodeMem, decodeAmo, decodeCas, decodeX, decodeBr, decodeHalt, decodeSys, decodeSs, decodeSu, decodeSg, decodeSbS, decodeSbind, decodeG, decodeCpy, decodeCpym, decodeE36, decodeColl, decodeCb, decodeCbg]
theorem RoundTrip.amoD (op : AmoOp) (d a b : Reg) (ord : BitVec 2) (scope : BitVec 3) : RoundTrip.Statement (.amoD op d a b ord scope) := by
  refine roundTrip_of_decode fun w => ?_
  simp only [decodeWords, encode]
  rw [decode, if_neg (ne_zero_of_field 26 6 (by simp [encR, encI, encSu]))]
  simp_all [Instr.wf, fOp, fD, fA, fB, fFn, fImm14, fPd, fCc, fSz, fU, encR, encI, encSu, immLong, req, Except.toOption, decodeSh, decodeBf, decodeCmp, decodeMem, decodeAmo, decodeCas, decodeX, decodeBr, decodeHalt, decodeSys, decodeSs, decodeSu, decodeSg, decodeSbS, decodeSbind, decodeG, decodeCpy, decodeCpym, decodeE36, decodeColl, decodeCb, decodeCbg]
theorem RoundTrip.casW (d a b : Reg) (ord : BitVec 2) (scope : BitVec 3) : RoundTrip.Statement (.casW d a b ord scope) := by
  refine roundTrip_of_decode fun w => ?_
  simp only [decodeWords, encode]
  rw [decode, if_neg (ne_zero_of_field 26 6 (by simp [encR, encI, encSu]))]
  simp_all [Instr.wf, fOp, fD, fA, fB, fFn, fImm14, fPd, fCc, fSz, fU, encR, encI, encSu, immLong, req, Except.toOption, decodeSh, decodeBf, decodeCmp, decodeMem, decodeAmo, decodeCas, decodeX, decodeBr, decodeHalt, decodeSys, decodeSs, decodeSu, decodeSg, decodeSbS, decodeSbind, decodeG, decodeCpy, decodeCpym, decodeE36, decodeColl, decodeCb, decodeCbg]
theorem RoundTrip.casD (d a b : Reg) (ord : BitVec 2) (scope : BitVec 3) : RoundTrip.Statement (.casD d a b ord scope) := by
  refine roundTrip_of_decode fun w => ?_
  simp only [decodeWords, encode]
  rw [decode, if_neg (ne_zero_of_field 26 6 (by simp [encR, encI, encSu]))]
  simp_all [Instr.wf, fOp, fD, fA, fB, fFn, fImm14, fPd, fCc, fSz, fU, encR, encI, encSu, immLong, req, Except.toOption, decodeSh, decodeBf, decodeCmp, decodeMem, decodeAmo, decodeCas, decodeX, decodeBr, decodeHalt, decodeSys, decodeSs, decodeSu, decodeSg, decodeSbS, decodeSbind, decodeG, decodeCpy, decodeCpym, decodeE36, decodeColl, decodeCb, decodeCbg]
theorem RoundTrip.cas16 (d a b : Reg) (ord : BitVec 2) (scope : BitVec 3) : RoundTrip.Statement (.cas16 d a b ord scope) := by
  refine roundTrip_of_decode fun w => ?_
  simp only [decodeWords, encode]
  rw [decode, if_neg (ne_zero_of_field 26 6 (by simp [encR, encI, encSu]))]
  simp_all [Instr.wf, fOp, fD, fA, fB, fFn, fImm14, fPd, fCc, fSz, fU, encR, encI, encSu, immLong, req, Except.toOption, decodeSh, decodeBf, decodeCmp, decodeMem, decodeAmo, decodeCas, decodeX, decodeBr, decodeHalt, decodeSys, decodeSs, decodeSu, decodeSg, decodeSbS, decodeSbind, decodeG, decodeCpy, decodeCpym, decodeE36, decodeColl, decodeCb, decodeCbg]
theorem RoundTrip.fence (scope : BitVec 3) : RoundTrip.Statement (.fence scope) := by
  refine roundTrip_of_decode fun w => ?_
  simp only [decodeWords, encode]
  rw [decode, if_neg (ne_zero_of_field 26 6 (by simp [encR, encI, encSu]))]
  simp_all [Instr.wf, fOp, fD, fA, fB, fFn, fImm14, fPd, fCc, fSz, fU, encR, encI, encSu, immLong, req, Except.toOption, decodeSh, decodeBf, decodeCmp, decodeMem, decodeAmo, decodeCas, decodeX, decodeBr, decodeHalt, decodeSys, decodeSs, decodeSu, decodeSg, decodeSbS, decodeSbind, decodeG, decodeCpy, decodeCpym, decodeE36, decodeColl, decodeCb, decodeCbg]
theorem RoundTrip.prefDc (a : Reg) (i : BitVec 14) : RoundTrip.Statement (.prefDc a i) := by
  refine roundTrip_of_decode fun w => ?_
  simp only [decodeWords, encode]
  rw [decode, if_neg (ne_zero_of_field 26 6 (by simp [encR, encI, encSu]))]
  simp_all [Instr.wf, fOp, fD, fA, fB, fFn, fImm14, fPd, fCc, fSz, fU, encR, encI, encSu, immLong, req, Except.toOption, decodeSh, decodeBf, decodeCmp, decodeMem, decodeAmo, decodeCas, decodeX, decodeBr, decodeHalt, decodeSys, decodeSs, decodeSu, decodeSg, decodeSbS, decodeSbind, decodeG, decodeCpy, decodeCpym, decodeE36, decodeColl, decodeCb, decodeCbg]
theorem RoundTrip.prefL2 (a : Reg) (i : BitVec 14) : RoundTrip.Statement (.prefL2 a i) := by
  refine roundTrip_of_decode fun w => ?_
  simp only [decodeWords, encode]
  rw [decode, if_neg (ne_zero_of_field 26 6 (by simp [encR, encI, encSu]))]
  simp_all [Instr.wf, fOp, fD, fA, fB, fFn, fImm14, fPd, fCc, fSz, fU, encR, encI, encSu, immLong, req, Except.toOption, decodeSh, decodeBf, decodeCmp, decodeMem, decodeAmo, decodeCas, decodeX, decodeBr, decodeHalt, decodeSys, decodeSs, decodeSu, decodeSg, decodeSbS, decodeSbind, decodeG, decodeCpy, decodeCpym, decodeE36, decodeColl, decodeCb, decodeCbg]
theorem RoundTrip.br (p : Pred) (off : BitVec 22) : RoundTrip.Statement (.br p off) := by
  refine roundTrip_of_decode fun w => ?_
  simp only [decodeWords, encode]
  rw [decode, if_neg (ne_zero_of_field 26 6 (by simp [encR, encI, encSu]))]
  simp_all [Instr.wf, fOp, fD, fA, fB, fFn, fImm14, fPd, fCc, fSz, fU, encR, encI, encSu, immLong, req, Except.toOption, decodeSh, decodeBf, decodeCmp, decodeMem, decodeAmo, decodeCas, decodeX, decodeBr, decodeHalt, decodeSys, decodeSs, decodeSu, decodeSg, decodeSbS, decodeSbind, decodeG, decodeCpy, decodeCpym, decodeE36, decodeColl, decodeCb, decodeCbg]
theorem RoundTrip.brN (p : Pred) (off : BitVec 22) : RoundTrip.Statement (.brN p off) := by
  refine roundTrip_of_decode fun w => ?_
  simp only [decodeWords, encode]
  rw [decode, if_neg (ne_zero_of_field 26 6 (by simp [encR, encI, encSu]))]
  simp_all [Instr.wf, fOp, fD, fA, fB, fFn, fImm14, fPd, fCc, fSz, fU, encR, encI, encSu, immLong, req, Except.toOption, decodeSh, decodeBf, decodeCmp, decodeMem, decodeAmo, decodeCas, decodeX, decodeBr, decodeHalt, decodeSys, decodeSs, decodeSu, decodeSg, decodeSbS, decodeSbind, decodeG, decodeCpy, decodeCpym, decodeE36, decodeColl, decodeCb, decodeCbg]
theorem RoundTrip.jal (d : Reg) (off : BitVec 20) : RoundTrip.Statement (.jal d off) := by
  refine roundTrip_of_decode fun w => ?_
  simp only [decodeWords, encode]
  rw [decode, if_neg (ne_zero_of_field 26 6 (by simp [encR, encI, encSu]))]
  simp_all [Instr.wf, fOp, fD, fA, fB, fFn, fImm14, fPd, fCc, fSz, fU, encR, encI, encSu, immLong, req, Except.toOption, decodeSh, decodeBf, decodeCmp, decodeMem, decodeAmo, decodeCas, decodeX, decodeBr, decodeHalt, decodeSys, decodeSs, decodeSu, decodeSg, decodeSbS, decodeSbind, decodeG, decodeCpy, decodeCpym, decodeE36, decodeColl, decodeCb, decodeCbg]
theorem RoundTrip.jalr (d a : Reg) (i : BitVec 14) : RoundTrip.Statement (.jalr d a i) := by
  refine roundTrip_of_decode fun w => ?_
  simp only [decodeWords, encode]
  rw [decode, if_neg (ne_zero_of_field 26 6 (by simp [encR, encI, encSu]))]
  simp_all [Instr.wf, fOp, fD, fA, fB, fFn, fImm14, fPd, fCc, fSz, fU, encR, encI, encSu, immLong, req, Except.toOption, decodeSh, decodeBf, decodeCmp, decodeMem, decodeAmo, decodeCas, decodeX, decodeBr, decodeHalt, decodeSys, decodeSs, decodeSu, decodeSg, decodeSbS, decodeSbind, decodeG, decodeCpy, decodeCpym, decodeE36, decodeColl, decodeCb, decodeCbg]
theorem RoundTrip.loop (a : Reg) (endOff : BitVec 14) : RoundTrip.Statement (.loop a endOff) := by
  refine roundTrip_of_decode fun w => ?_
  simp only [decodeWords, encode]
  rw [decode, if_neg (ne_zero_of_field 26 6 (by simp [encR, encI, encSu]))]
  simp_all [Instr.wf, fOp, fD, fA, fB, fFn, fImm14, fPd, fCc, fSz, fU, encR, encI, encSu, immLong, req, Except.toOption, decodeSh, decodeBf, decodeCmp, decodeMem, decodeAmo, decodeCas, decodeX, decodeBr, decodeHalt, decodeSys, decodeSs, decodeSu, decodeSg, decodeSbS, decodeSbind, decodeG, decodeCpy, decodeCpym, decodeE36, decodeColl, decodeCb, decodeCbg]
theorem RoundTrip.halt : RoundTrip.Statement .halt := by
  refine roundTrip_of_decode fun w => ?_
  simp only [decodeWords, encode]
  rw [decode, if_neg (ne_zero_of_field 26 6 (by simp [encR, encI, encSu]))]
  simp_all [Instr.wf, fOp, fD, fA, fB, fFn, fImm14, fPd, fCc, fSz, fU, encR, encI, encSu, immLong, req, Except.toOption, decodeSh, decodeBf, decodeCmp, decodeMem, decodeAmo, decodeCas, decodeX, decodeBr, decodeHalt, decodeSys, decodeSs, decodeSu, decodeSg, decodeSbS, decodeSbind, decodeG, decodeCpy, decodeCpym, decodeE36, decodeColl, decodeCb, decodeCbg]
theorem RoundTrip.yield : RoundTrip.Statement .yield := by
  refine roundTrip_of_decode fun w => ?_
  simp only [decodeWords, encode]
  rw [decode, if_neg (ne_zero_of_field 26 6 (by simp [encR, encI, encSu]))]
  simp_all [Instr.wf, fOp, fD, fA, fB, fFn, fImm14, fPd, fCc, fSz, fU, encR, encI, encSu, immLong, req, Except.toOption, decodeSh, decodeBf, decodeCmp, decodeMem, decodeAmo, decodeCas, decodeX, decodeBr, decodeHalt, decodeSys, decodeSs, decodeSu, decodeSg, decodeSbS, decodeSbind, decodeG, decodeCpy, decodeCpym, decodeE36, decodeColl, decodeCb, decodeCbg]
theorem RoundTrip.mfs (d : Reg) (sr : BitVec 12) : RoundTrip.Statement (.mfs d sr) := by
  refine roundTrip_of_decode fun w => ?_
  simp only [decodeWords, encode]
  rw [decode, if_neg (ne_zero_of_field 26 6 (by simp [encR, encI, encSu]))]
  simp_all [Instr.wf, fOp, fD, fA, fB, fFn, fImm14, fPd, fCc, fSz, fU, encR, encI, encSu, immLong, req, Except.toOption, decodeSh, decodeBf, decodeCmp, decodeMem, decodeAmo, decodeCas, decodeX, decodeBr, decodeHalt, decodeSys, decodeSs, decodeSu, decodeSg, decodeSbS, decodeSbind, decodeG, decodeCpy, decodeCpym, decodeE36, decodeColl, decodeCb, decodeCbg]
theorem RoundTrip.mts (sr : BitVec 12) (a : Reg) : RoundTrip.Statement (.mts sr a) := by
  refine roundTrip_of_decode fun w => ?_
  simp only [decodeWords, encode]
  rw [decode, if_neg (ne_zero_of_field 26 6 (by simp [encR, encI, encSu]))]
  simp_all [Instr.wf, fOp, fD, fA, fB, fFn, fImm14, fPd, fCc, fSz, fU, encR, encI, encSu, immLong, req, Except.toOption, decodeSh, decodeBf, decodeCmp, decodeMem, decodeAmo, decodeCas, decodeX, decodeBr, decodeHalt, decodeSys, decodeSs, decodeSu, decodeSg, decodeSbS, decodeSbind, decodeG, decodeCpy, decodeCpym, decodeE36, decodeColl, decodeCb, decodeCbg]
theorem RoundTrip.trap (e : BitVec 16) : RoundTrip.Statement (.trap e) := by
  refine roundTrip_of_decode fun w => ?_
  simp only [decodeWords, encode]
  rw [decode, if_neg (ne_zero_of_field 26 6 (by simp [encR, encI, encSu]))]
  simp_all [Instr.wf, fOp, fD, fA, fB, fFn, fImm14, fPd, fCc, fSz, fU, encR, encI, encSu, immLong, req, Except.toOption, decodeSh, decodeBf, decodeCmp, decodeMem, decodeAmo, decodeCas, decodeX, decodeBr, decodeHalt, decodeSys, decodeSs, decodeSu, decodeSg, decodeSbS, decodeSbind, decodeG, decodeCpy, decodeCpym, decodeE36, decodeColl, decodeCb, decodeCbg]
theorem RoundTrip.rett : RoundTrip.Statement .rett := by
  refine roundTrip_of_decode fun w => ?_
  simp only [decodeWords, encode]
  rw [decode, if_neg (ne_zero_of_field 26 6 (by simp [encR, encI, encSu]))]
  simp_all [Instr.wf, fOp, fD, fA, fB, fFn, fImm14, fPd, fCc, fSz, fU, encR, encI, encSu, immLong, req, Except.toOption, decodeSh, decodeBf, decodeCmp, decodeMem, decodeAmo, decodeCas, decodeX, decodeBr, decodeHalt, decodeSys, decodeSs, decodeSu, decodeSg, decodeSbS, decodeSbind, decodeG, decodeCpy, decodeCpym, decodeE36, decodeColl, decodeCb, decodeCbg]
theorem RoundTrip.wfe : RoundTrip.Statement .wfe := by
  refine roundTrip_of_decode fun w => ?_
  simp only [decodeWords, encode]
  rw [decode, if_neg (ne_zero_of_field 26 6 (by simp [encR, encI, encSu]))]
  simp_all [Instr.wf, fOp, fD, fA, fB, fFn, fImm14, fPd, fCc, fSz, fU, encR, encI, encSu, immLong, req, Except.toOption, decodeSh, decodeBf, decodeCmp, decodeMem, decodeAmo, decodeCas, decodeX, decodeBr, decodeHalt, decodeSys, decodeSs, decodeSu, decodeSg, decodeSbS, decodeSbind, decodeG, decodeCpy, decodeCpym, decodeE36, decodeColl, decodeCb, decodeCbg]
theorem RoundTrip.getev (p : Pred) (d : Reg) : RoundTrip.Statement (.getev p d) := by
  refine roundTrip_of_decode fun w => ?_
  simp only [decodeWords, encode]
  rw [decode, if_neg (ne_zero_of_field 26 6 (by simp [encR, encI, encSu]))]
  simp_all [Instr.wf, fOp, fD, fA, fB, fFn, fImm14, fPd, fCc, fSz, fU, encR, encI, encSu, immLong, req, Except.toOption, decodeSh, decodeBf, decodeCmp, decodeMem, decodeAmo, decodeCas, decodeX, decodeBr, decodeHalt, decodeSys, decodeSs, decodeSu, decodeSg, decodeSbS, decodeSbind, decodeG, decodeCpy, decodeCpym, decodeE36, decodeColl, decodeCb, decodeCbg]
theorem RoundTrip.wrpk (a : Reg) : RoundTrip.Statement (.wrpk a) := by
  refine roundTrip_of_decode fun w => ?_
  simp only [decodeWords, encode]
  rw [decode, if_neg (ne_zero_of_field 26 6 (by simp [encR, encI, encSu]))]
  simp_all [Instr.wf, fOp, fD, fA, fB, fFn, fImm14, fPd, fCc, fSz, fU, encR, encI, encSu, immLong, req, Except.toOption, decodeSh, decodeBf, decodeCmp, decodeMem, decodeAmo, decodeCas, decodeX, decodeBr, decodeHalt, decodeSys, decodeSs, decodeSu, decodeSg, decodeSbS, decodeSbind, decodeG, decodeCpy, decodeCpym, decodeE36, decodeColl, decodeCb, decodeCbg]
theorem RoundTrip.mtt (n : BitVec 5) (a : Reg) : RoundTrip.Statement (.mtt n a) := by
  refine roundTrip_of_decode fun w => ?_
  simp only [decodeWords, encode]
  rw [decode, if_neg (ne_zero_of_field 26 6 (by simp [encR, encI, encSu]))]
  simp_all [Instr.wf, fOp, fD, fA, fB, fFn, fImm14, fPd, fCc, fSz, fU, encR, encI, encSu, immLong, req, Except.toOption, decodeSh, decodeBf, decodeCmp, decodeMem, decodeAmo, decodeCas, decodeX, decodeBr, decodeHalt, decodeSys, decodeSs, decodeSu, decodeSg, decodeSbS, decodeSbind, decodeG, decodeCpy, decodeCpym, decodeE36, decodeColl, decodeCb, decodeCbg]
theorem RoundTrip.smul (d a b : SName) : RoundTrip.Statement (.smul d a b) := by
  refine roundTrip_of_decode fun w => ?_
  simp only [decodeWords, encode]
  rw [decode, if_neg (ne_zero_of_field 26 6 (by simp [encR, encI, encSu]))]
  simp_all [Instr.wf, fOp, fD, fA, fB, fFn, fImm14, fPd, fCc, fSz, fU, encR, encI, encSu, immLong, req, Except.toOption, decodeSh, decodeBf, decodeCmp, decodeMem, decodeAmo, decodeCas, decodeX, decodeBr, decodeHalt, decodeSys, decodeSs, decodeSu, decodeSg, decodeSbS, decodeSbind, decodeG, decodeCpy, decodeCpym, decodeE36, decodeColl, decodeCb, decodeCbg]
theorem RoundTrip.smax (d a b : SName) : RoundTrip.Statement (.smax d a b) := by
  refine roundTrip_of_decode fun w => ?_
  simp only [decodeWords, encode]
  rw [decode, if_neg (ne_zero_of_field 26 6 (by simp [encR, encI, encSu]))]
  simp_all [Instr.wf, fOp, fD, fA, fB, fFn, fImm14, fPd, fCc, fSz, fU, encR, encI, encSu, immLong, req, Except.toOption, decodeSh, decodeBf, decodeCmp, decodeMem, decodeAmo, decodeCas, decodeX, decodeBr, decodeHalt, decodeSys, decodeSs, decodeSu, decodeSg, decodeSbS, decodeSbind, decodeG, decodeCpy, decodeCpym, decodeE36, decodeColl, decodeCb, decodeCbg]
theorem RoundTrip.srcp (d a : SName) : RoundTrip.Statement (.srcp d a) := by
  refine roundTrip_of_decode fun w => ?_
  simp only [decodeWords, encode]
  rw [decode, if_neg (ne_zero_of_field 26 6 (by simp [encR, encI, encSu]))]
  simp_all [Instr.wf, fOp, fD, fA, fB, fFn, fImm14, fPd, fCc, fSz, fU, encR, encI, encSu, immLong, req, Except.toOption, decodeSh, decodeBf, decodeCmp, decodeMem, decodeAmo, decodeCas, decodeX, decodeBr, decodeHalt, decodeSys, decodeSs, decodeSu, decodeSg, decodeSbS, decodeSbind, decodeG, decodeCpy, decodeCpym, decodeE36, decodeColl, decodeCb, decodeCbg]
theorem RoundTrip.sexp2 (d a : SName) : RoundTrip.Statement (.sexp2 d a) := by
  refine roundTrip_of_decode fun w => ?_
  simp only [decodeWords, encode]
  rw [decode, if_neg (ne_zero_of_field 26 6 (by simp [encR, encI, encSu]))]
  simp_all [Instr.wf, fOp, fD, fA, fB, fFn, fImm14, fPd, fCc, fSz, fU, encR, encI, encSu, immLong, req, Except.toOption, decodeSh, decodeBf, decodeCmp, decodeMem, decodeAmo, decodeCas, decodeX, decodeBr, decodeHalt, decodeSys, decodeSs, decodeSu, decodeSg, decodeSbS, decodeSbind, decodeG, decodeCpy, decodeCpym, decodeE36, decodeColl, decodeCb, decodeCbg]
theorem RoundTrip.scopy (d a : SName) : RoundTrip.Statement (.scopy d a) := by
  refine roundTrip_of_decode fun w => ?_
  simp only [decodeWords, encode]
  rw [decode, if_neg (ne_zero_of_field 26 6 (by simp [encR, encI, encSu]))]
  simp_all [Instr.wf, fOp, fD, fA, fB, fFn, fImm14, fPd, fCc, fSz, fU, encR, encI, encSu, immLong, req, Except.toOption, decodeSh, decodeBf, decodeCmp, decodeMem, decodeAmo, decodeCas, decodeX, decodeBr, decodeHalt, decodeSys, decodeSs, decodeSu, decodeSg, decodeSbS, decodeSbind, decodeG, decodeCpy, decodeCpym, decodeE36, decodeColl, decodeCb, decodeCbg]
theorem RoundTrip.scvt (d a : SName) (bf16 : Bool) (rm : BitVec 2) : RoundTrip.Statement (.scvt d a bf16 rm) := by
  refine roundTrip_of_decode fun _ => ?_
  simp only [decodeWords, encode]
  rw [decode, if_neg (ne_zero_of_field 26 6 (by simp [encSu]))]
  cases bf16 <;> simp [bit1, fOp, encSu, decodeSu, Except.toOption]
theorem RoundTrip.smov (s : SName) (a : Reg) : RoundTrip.Statement (.smov s a) := by
  refine roundTrip_of_decode fun w => ?_
  simp only [decodeWords, encode]
  rw [decode, if_neg (ne_zero_of_field 26 6 (by simp [encR, encI, encSu]))]
  simp_all [Instr.wf, fOp, fD, fA, fB, fFn, fImm14, fPd, fCc, fSz, fU, encR, encI, encSu, immLong, req, Except.toOption, decodeSh, decodeBf, decodeCmp, decodeMem, decodeAmo, decodeCas, decodeX, decodeBr, decodeHalt, decodeSys, decodeSs, decodeSu, decodeSg, decodeSbS, decodeSbind, decodeG, decodeCpy, decodeCpym, decodeE36, decodeColl, decodeCb, decodeCbg]
theorem RoundTrip.sread (d : Reg) (s : SName) : RoundTrip.Statement (.sread d s) := by
  refine roundTrip_of_decode fun w => ?_
  simp only [decodeWords, encode]
  rw [decode, if_neg (ne_zero_of_field 26 6 (by simp [encR, encI, encSu]))]
  simp_all [Instr.wf, fOp, fD, fA, fB, fFn, fImm14, fPd, fCc, fSz, fU, encR, encI, encSu, immLong, req, Except.toOption, decodeSh, decodeBf, decodeCmp, decodeMem, decodeAmo, decodeCas, decodeX, decodeBr, decodeHalt, decodeSys, decodeSs, decodeSu, decodeSg, decodeSbS, decodeSbind, decodeG, decodeCpy, decodeCpym, decodeE36, decodeColl, decodeCb, decodeCbg]
theorem RoundTrip.sbindS (d a : Reg) : RoundTrip.Statement (.sbindS d a) := by
  refine roundTrip_of_decode fun w => ?_
  simp only [decodeWords, encode]
  rw [decode, if_neg (ne_zero_of_field 26 6 (by simp [encR, encI, encSu]))]
  simp_all [Instr.wf, fOp, fD, fA, fB, fFn, fImm14, fPd, fCc, fSz, fU, encR, encI, encSu, immLong, req, Except.toOption, decodeSh, decodeBf, decodeCmp, decodeMem, decodeAmo, decodeCas, decodeX, decodeBr, decodeHalt, decodeSys, decodeSs, decodeSu, decodeSg, decodeSbS, decodeSbind, decodeG, decodeCpy, decodeCpym, decodeE36, decodeColl, decodeCb, decodeCbg]
theorem RoundTrip.sfree (a : Reg) : RoundTrip.Statement (.sfree a) := by
  refine roundTrip_of_decode fun w => ?_
  simp only [decodeWords, encode]
  rw [decode, if_neg (ne_zero_of_field 26 6 (by simp [encR, encI, encSu]))]
  simp_all [Instr.wf, fOp, fD, fA, fB, fFn, fImm14, fPd, fCc, fSz, fU, encR, encI, encSu, immLong, req, Except.toOption, decodeSh, decodeBf, decodeCmp, decodeMem, decodeAmo, decodeCas, decodeX, decodeBr, decodeHalt, decodeSys, decodeSs, decodeSu, decodeSg, decodeSbS, decodeSbind, decodeG, decodeCpy, decodeCpym, decodeE36, decodeColl, decodeCb, decodeCbg]
theorem RoundTrip.sbind (ctr : BitVec 2) (port : BitVec 13) (a u : Reg) : RoundTrip.Statement (.sbind ctr port a u) := by
  refine roundTrip_of_decode fun w => ?_
  simp only [decodeWords, encode]
  rw [decode, if_neg (ne_zero_of_field 26 6 (by simp [encR, encI, encSu]))]
  simp_all [Instr.wf, fOp, fD, fA, fB, fFn, fImm14, fPd, fCc, fSz, fU, encR, encI, encSu, immLong, req, Except.toOption, decodeSh, decodeBf, decodeCmp, decodeMem, decodeAmo, decodeCas, decodeX, decodeBr, decodeHalt, decodeSys, decodeSs, decodeSu, decodeSg, decodeSbS, decodeSbind, decodeG, decodeCpy, decodeCpym, decodeE36, decodeColl, decodeCb, decodeCbg]
theorem RoundTrip.sbindHandle (h : BitVec 4) (port : BitVec 13) (a : Reg) (log2n : BitVec 4) (u : Reg) : RoundTrip.Statement (.sbindHandle h port a log2n u) := by
  refine roundTrip_of_decode fun w => ?_
  simp only [decodeWords, encode]
  rw [decode, if_neg (ne_zero_of_field 26 6 (by simp [encR, encI, encSu]))]
  simp_all [Instr.wf, fOp, fD, fA, fB, fFn, fImm14, fPd, fCc, fSz, fU, encR, encI, encSu, immLong, req, Except.toOption, decodeSh, decodeBf, decodeCmp, decodeMem, decodeAmo, decodeCas, decodeX, decodeBr, decodeHalt, decodeSys, decodeSs, decodeSu, decodeSg, decodeSbS, decodeSbind, decodeG, decodeCpy, decodeCpym, decodeE36, decodeColl, decodeCb, decodeCbg]
theorem RoundTrip.sbar (mask : BitVec 4) : RoundTrip.Statement (.sbar mask) := by
  refine roundTrip_of_decode fun w => ?_
  simp only [decodeWords, encode]
  rw [decode, if_neg (ne_zero_of_field 26 6 (by simp [encR, encI, encSu]))]
  simp_all [Instr.wf, fOp, fD, fA, fB, fFn, fImm14, fPd, fCc, fSz, fU, encR, encI, encSu, immLong, req, Except.toOption, decodeSh, decodeBf, decodeCmp, decodeMem, decodeAmo, decodeCas, decodeX, decodeBr, decodeHalt, decodeSys, decodeSs, decodeSu, decodeSg, decodeSbS, decodeSbind, decodeG, decodeCpy, decodeCpym, decodeE36, decodeColl, decodeCb, decodeCbg]
theorem RoundTrip.sbarComplete (tid : Nat) : RoundTrip.Statement (.sbarComplete tid) := roundTrip_of_none rfl
theorem RoundTrip.glaunch (a u : Reg) : RoundTrip.Statement (.glaunch a u) := by
  refine roundTrip_of_decode fun w => ?_
  simp only [decodeWords, encode]
  rw [decode, if_neg (ne_zero_of_field 26 6 (by simp [encR, encI, encSu]))]
  simp_all [Instr.wf, fOp, fD, fA, fB, fFn, fImm14, fPd, fCc, fSz, fU, encR, encI, encSu, immLong, req, Except.toOption, decodeSh, decodeBf, decodeCmp, decodeMem, decodeAmo, decodeCas, decodeX, decodeBr, decodeHalt, decodeSys, decodeSs, decodeSu, decodeSg, decodeSbS, decodeSbind, decodeG, decodeCpy, decodeCpym, decodeE36, decodeColl, decodeCb, decodeCbg]
theorem RoundTrip.gloadsh (a u : Reg) : RoundTrip.Statement (.gloadsh a u) := by
  refine roundTrip_of_decode fun w => ?_
  simp only [decodeWords, encode]
  rw [decode, if_neg (ne_zero_of_field 26 6 (by simp [encR, encI, encSu]))]
  simp_all [Instr.wf, fOp, fD, fA, fB, fFn, fImm14, fPd, fCc, fSz, fU, encR, encI, encSu, immLong, req, Except.toOption, decodeSh, decodeBf, decodeCmp, decodeMem, decodeAmo, decodeCas, decodeX, decodeBr, decodeHalt, decodeSys, decodeSs, decodeSu, decodeSg, decodeSbS, decodeSbind, decodeG, decodeCpy, decodeCpym, decodeE36, decodeColl, decodeCb, decodeCbg]
theorem RoundTrip.gswap (a u : Reg) : RoundTrip.Statement (.gswap a u) := by
  refine roundTrip_of_decode fun w => ?_
  simp only [decodeWords, encode]
  rw [decode, if_neg (ne_zero_of_field 26 6 (by simp [encR, encI, encSu]))]
  simp_all [Instr.wf, fOp, fD, fA, fB, fFn, fImm14, fPd, fCc, fSz, fU, encR, encI, encSu, immLong, req, Except.toOption, decodeSh, decodeBf, decodeCmp, decodeMem, decodeAmo, decodeCas, decodeX, decodeBr, decodeHalt, decodeSys, decodeSs, decodeSu, decodeSg, decodeSbS, decodeSbind, decodeG, decodeCpy, decodeCpym, decodeE36, decodeColl, decodeCb, decodeCbg]
theorem RoundTrip.gdrain (a u : Reg) : RoundTrip.Statement (.gdrain a u) := by
  refine roundTrip_of_decode fun w => ?_
  simp only [decodeWords, encode]
  rw [decode, if_neg (ne_zero_of_field 26 6 (by simp [encR, encI, encSu]))]
  simp_all [Instr.wf, fOp, fD, fA, fB, fFn, fImm14, fPd, fCc, fSz, fU, encR, encI, encSu, immLong, req, Except.toOption, decodeSh, decodeBf, decodeCmp, decodeMem, decodeAmo, decodeCas, decodeX, decodeBr, decodeHalt, decodeSys, decodeSs, decodeSu, decodeSg, decodeSbS, decodeSbind, decodeG, decodeCpy, decodeCpym, decodeE36, decodeColl, decodeCb, decodeCbg]
theorem RoundTrip.gresume (a u : Reg) : RoundTrip.Statement (.gresume a u) := by
  refine roundTrip_of_decode fun w => ?_
  simp only [decodeWords, encode]
  rw [decode, if_neg (ne_zero_of_field 26 6 (by simp [encR, encI, encSu]))]
  simp_all [Instr.wf, fOp, fD, fA, fB, fFn, fImm14, fPd, fCc, fSz, fU, encR, encI, encSu, immLong, req, Except.toOption, decodeSh, decodeBf, decodeCmp, decodeMem, decodeAmo, decodeCas, decodeX, decodeBr, decodeHalt, decodeSys, decodeSs, decodeSu, decodeSg, decodeSbS, decodeSbind, decodeG, decodeCpy, decodeCpym, decodeE36, decodeColl, decodeCb, decodeCbg]
theorem RoundTrip.gend (a u : Reg) : RoundTrip.Statement (.gend a u) := by
  refine roundTrip_of_decode fun w => ?_
  simp only [decodeWords, encode]
  rw [decode, if_neg (ne_zero_of_field 26 6 (by simp [encR, encI, encSu]))]
  simp_all [Instr.wf, fOp, fD, fA, fB, fFn, fImm14, fPd, fCc, fSz, fU, encR, encI, encSu, immLong, req, Except.toOption, decodeSh, decodeBf, decodeCmp, decodeMem, decodeAmo, decodeCas, decodeX, decodeBr, decodeHalt, decodeSys, decodeSs, decodeSu, decodeSg, decodeSbS, decodeSbind, decodeG, decodeCpy, decodeCpym, decodeE36, decodeColl, decodeCb, decodeCbg]
theorem RoundTrip.cpy (ctr : BitVec 2) (q : BitVec 4) (d a l u : Reg) : RoundTrip.Statement (.cpy ctr q d a l u) := by
  refine roundTrip_of_decode fun w => ?_
  simp only [decodeWords, encode]
  rw [decode, if_neg (ne_zero_of_field 26 6 (by simp [encR, encI, encSu]))]
  simp_all [Instr.wf, fOp, fD, fA, fB, fFn, fImm14, fPd, fCc, fSz, fU, encR, encI, encSu, immLong, req, Except.toOption, decodeSh, decodeBf, decodeCmp, decodeMem, decodeAmo, decodeCas, decodeX, decodeBr, decodeHalt, decodeSys, decodeSs, decodeSu, decodeSg, decodeSbS, decodeSbind, decodeG, decodeCpy, decodeCpym, decodeE36, decodeColl, decodeCb, decodeCbg]
theorem RoundTrip.cpyT (ctr : BitVec 2) (q : BitVec 4) (d a u : Reg) : RoundTrip.Statement (.cpyT ctr q d a u) := by
  refine roundTrip_of_decode fun w => ?_
  simp only [decodeWords, encode]
  rw [decode, if_neg (ne_zero_of_field 26 6 (by simp [encR, encI, encSu]))]
  simp_all [Instr.wf, fOp, fD, fA, fB, fFn, fImm14, fPd, fCc, fSz, fU, encR, encI, encSu, immLong, req, Except.toOption, decodeSh, decodeBf, decodeCmp, decodeMem, decodeAmo, decodeCas, decodeX, decodeBr, decodeHalt, decodeSys, decodeSs, decodeSu, decodeSg, decodeSbS, decodeSbind, decodeG, decodeCpy, decodeCpym, decodeE36, decodeColl, decodeCb, decodeCbg]
theorem RoundTrip.cpym (ctr : BitVec 2) (q : BitVec 4) (d a c u : Reg) : RoundTrip.Statement (.cpym ctr q d a c u) := by
  refine roundTrip_of_decode fun w => ?_
  simp only [decodeWords, encode]
  rw [decode, if_neg (ne_zero_of_field 26 6 (by simp [encR, encI, encSu]))]
  simp_all [Instr.wf, fOp, fD, fA, fB, fFn, fImm14, fPd, fCc, fSz, fU, encR, encI, encSu, immLong, req, Except.toOption, decodeSh, decodeBf, decodeCmp, decodeMem, decodeAmo, decodeCas, decodeX, decodeBr, decodeHalt, decodeSys, decodeSs, decodeSu, decodeSg, decodeSbS, decodeSbind, decodeG, decodeCpy, decodeCpym, decodeE36, decodeColl, decodeCb, decodeCbg]
theorem RoundTrip.qfence (mask : BitVec 16) : RoundTrip.Statement (.qfence mask) := by
  refine roundTrip_of_decode fun w => ?_
  simp only [decodeWords, encode]
  rw [decode, if_neg (ne_zero_of_field 26 6 (by simp [encR, encI, encSu]))]
  simp_all [Instr.wf, fOp, fD, fA, fB, fFn, fImm14, fPd, fCc, fSz, fU, encR, encI, encSu, immLong, req, Except.toOption, decodeSh, decodeBf, decodeCmp, decodeMem, decodeAmo, decodeCas, decodeX, decodeBr, decodeHalt, decodeSys, decodeSs, decodeSu, decodeSg, decodeSbS, decodeSbind, decodeG, decodeCpy, decodeCpym, decodeE36, decodeColl, decodeCb, decodeCbg]
theorem RoundTrip.qfenceColl (mask : BitVec 16) : RoundTrip.Statement (.qfenceColl mask) := by
  refine roundTrip_of_decode fun w => ?_
  simp only [decodeWords, encode]
  rw [decode, if_neg (ne_zero_of_field 26 6 (by simp [encR, encI, encSu]))]
  simp_all [Instr.wf, fOp, fD, fA, fB, fFn, fImm14, fPd, fCc, fSz, fU, encR, encI, encSu, immLong, req, Except.toOption, decodeSh, decodeBf, decodeCmp, decodeMem, decodeAmo, decodeCas, decodeX, decodeBr, decodeHalt, decodeSys, decodeSs, decodeSu, decodeSg, decodeSbS, decodeSbind, decodeG, decodeCpy, decodeCpym, decodeE36, decodeColl, decodeCb, decodeCbg]
theorem RoundTrip.postc (q : BitVec 4) (a : Reg) : RoundTrip.Statement (.postc q a) := by
  refine roundTrip_of_decode fun w => ?_
  simp only [decodeWords, encode]
  rw [decode, if_neg (ne_zero_of_field 26 6 (by simp [encR, encI, encSu]))]
  simp_all [Instr.wf, fOp, fD, fA, fB, fFn, fImm14, fPd, fCc, fSz, fU, encR, encI, encSu, immLong, req, Except.toOption, decodeSh, decodeBf, decodeCmp, decodeMem, decodeAmo, decodeCas, decodeX, decodeBr, decodeHalt, decodeSys, decodeSs, decodeSu, decodeSg, decodeSbS, decodeSbind, decodeG, decodeCpy, decodeCpym, decodeE36, decodeColl, decodeCb, decodeCbg]
theorem RoundTrip.taskend : RoundTrip.Statement .taskend := by
  refine roundTrip_of_decode fun w => ?_
  simp only [decodeWords, encode]
  rw [decode, if_neg (ne_zero_of_field 26 6 (by simp [encR, encI, encSu]))]
  simp_all [Instr.wf, fOp, fD, fA, fB, fFn, fImm14, fPd, fCc, fSz, fU, encR, encI, encSu, immLong, req, Except.toOption, decodeSh, decodeBf, decodeCmp, decodeMem, decodeAmo, decodeCas, decodeX, decodeBr, decodeHalt, decodeSys, decodeSs, decodeSu, decodeSg, decodeSbS, decodeSbind, decodeG, decodeCpy, decodeCpym, decodeE36, decodeColl, decodeCb, decodeCbg]
theorem RoundTrip.evpost (n : BitVec 3) (a b : Reg) : RoundTrip.Statement (.evpost n a b) := by
  refine roundTrip_of_decode fun _ => ?_
  simp only [decodeWords, encode]
  rw [decode, if_neg (ne_zero_of_field 26 6 (by simp [encR]))]
  rcases three_cases n with rfl | rfl | rfl | rfl | rfl | rfl | rfl | rfl <;>
    simp [fOp, fA, fB, fFn, encR, decodeE36, req, Except.toOption]
theorem RoundTrip.coll (op : CollOp) (red : CollRed) (fmt : CollFmt) (sc : Bool) (ctr : BitVec 2) (q : BitVec 4) (a : Reg) (root : BitVec 10) (u : Reg) : RoundTrip.Statement (.coll op red fmt sc ctr q a root u) := by
  refine roundTrip_of_decode fun w => ?_
  simp only [decodeWords, encode]
  rw [decode, if_neg (ne_zero_of_field 26 6 (by simp [encR, encI, encSu]))]
  simp_all [Instr.wf, fOp, fD, fA, fB, fFn, fImm14, fPd, fCc, fSz, fU, encR, encI, encSu, immLong, req, Except.toOption, decodeSh, decodeBf, decodeCmp, decodeMem, decodeAmo, decodeCas, decodeX, decodeBr, decodeHalt, decodeSys, decodeSs, decodeSu, decodeSg, decodeSbS, decodeSbind, decodeG, decodeCpy, decodeCpym, decodeE36, decodeColl, decodeCb, decodeCbg]
theorem RoundTrip.gbar (grp : BitVec 8) : RoundTrip.Statement (.gbar grp) := by
  refine roundTrip_of_decode fun w => ?_
  simp only [decodeWords, encode]
  rw [decode, if_neg (ne_zero_of_field 26 6 (by simp [encR, encI, encSu]))]
  simp_all [Instr.wf, fOp, fD, fA, fB, fFn, fImm14, fPd, fCc, fSz, fU, encR, encI, encSu, immLong, req, Except.toOption, decodeSh, decodeBf, decodeCmp, decodeMem, decodeAmo, decodeCas, decodeX, decodeBr, decodeHalt, decodeSys, decodeSs, decodeSu, decodeSg, decodeSbS, decodeSbind, decodeG, decodeCpy, decodeCpym, decodeE36, decodeColl, decodeCb, decodeCbg]
theorem RoundTrip.gbarComplete (tid : Nat) : RoundTrip.Statement (.gbarComplete tid) := roundTrip_of_none rfl
theorem RoundTrip.cbwaitf (h : BitVec 4) (n : BitVec 11) : RoundTrip.Statement (.cbwaitf h n) := by
  refine roundTrip_of_decode fun w => ?_
  simp only [decodeWords, encode]
  rw [decode, if_neg (ne_zero_of_field 26 6 (by simp [encR, encI, encSu]))]
  simp_all [Instr.wf, fOp, fD, fA, fB, fFn, fImm14, fPd, fCc, fSz, fU, encR, encI, encSu, immLong, req, Except.toOption, decodeSh, decodeBf, decodeCmp, decodeMem, decodeAmo, decodeCas, decodeX, decodeBr, decodeHalt, decodeSys, decodeSs, decodeSu, decodeSg, decodeSbS, decodeSbind, decodeG, decodeCpy, decodeCpym, decodeE36, decodeColl, decodeCb, decodeCbg]
theorem RoundTrip.cbwaite (h : BitVec 4) (n : BitVec 11) : RoundTrip.Statement (.cbwaite h n) := by
  refine roundTrip_of_decode fun w => ?_
  simp only [decodeWords, encode]
  rw [decode, if_neg (ne_zero_of_field 26 6 (by simp [encR, encI, encSu]))]
  simp_all [Instr.wf, fOp, fD, fA, fB, fFn, fImm14, fPd, fCc, fSz, fU, encR, encI, encSu, immLong, req, Except.toOption, decodeSh, decodeBf, decodeCmp, decodeMem, decodeAmo, decodeCas, decodeX, decodeBr, decodeHalt, decodeSys, decodeSs, decodeSu, decodeSg, decodeSbS, decodeSbind, decodeG, decodeCpy, decodeCpym, decodeE36, decodeColl, decodeCb, decodeCbg]
theorem RoundTrip.cbWaitComplete (tid : Nat) : RoundTrip.Statement (.cbWaitComplete tid) := roundTrip_of_none rfl
theorem RoundTrip.cbadv (h : BitVec 4) (n : BitVec 11) : RoundTrip.Statement (.cbadv h n) := by
  refine roundTrip_of_decode fun w => ?_
  simp only [decodeWords, encode]
  rw [decode, if_neg (ne_zero_of_field 26 6 (by simp [encR, encI, encSu]))]
  simp_all [Instr.wf, fOp, fD, fA, fB, fFn, fImm14, fPd, fCc, fSz, fU, encR, encI, encSu, immLong, req, Except.toOption, decodeSh, decodeBf, decodeCmp, decodeMem, decodeAmo, decodeCas, decodeX, decodeBr, decodeHalt, decodeSys, decodeSs, decodeSu, decodeSg, decodeSbS, decodeSbind, decodeG, decodeCpy, decodeCpym, decodeE36, decodeColl, decodeCb, decodeCbg]
theorem RoundTrip.cbadvEos (h : BitVec 4) (n : BitVec 11) : RoundTrip.Statement (.cbadvEos h n) := by
  refine roundTrip_of_decode fun w => ?_
  simp only [decodeWords, encode]
  rw [decode, if_neg (ne_zero_of_field 26 6 (by simp [encR, encI, encSu]))]
  simp_all [Instr.wf, fOp, fD, fA, fB, fFn, fImm14, fPd, fCc, fSz, fU, encR, encI, encSu, immLong, req, Except.toOption, decodeSh, decodeBf, decodeCmp, decodeMem, decodeAmo, decodeCas, decodeX, decodeBr, decodeHalt, decodeSys, decodeSs, decodeSu, decodeSg, decodeSbS, decodeSbind, decodeG, decodeCpy, decodeCpym, decodeE36, decodeColl, decodeCb, decodeCbg]
theorem RoundTrip.cbget (d : Reg) (h : BitVec 4) (slot : BitVec 11) (el : BitVec 4) : RoundTrip.Statement (.cbget d h slot el) := by
  refine roundTrip_of_decode fun w => ?_
  simp only [decodeWords, encode]
  rw [decode, if_neg (ne_zero_of_field 26 6 (by simp [encR, encI, encSu]))]
  simp_all [Instr.wf, fOp, fD, fA, fB, fFn, fImm14, fPd, fCc, fSz, fU, encR, encI, encSu, immLong, req, Except.toOption, decodeSh, decodeBf, decodeCmp, decodeMem, decodeAmo, decodeCas, decodeX, decodeBr, decodeHalt, decodeSys, decodeSs, decodeSu, decodeSg, decodeSbS, decodeSbind, decodeG, decodeCpy, decodeCpym, decodeE36, decodeColl, decodeCb, decodeCbg]
theorem RoundTrip.cbput (h : BitVec 4) (slot : BitVec 11) (el : BitVec 4) (a : Reg) : RoundTrip.Statement (.cbput h slot el a) := by
  refine roundTrip_of_decode fun w => ?_
  simp only [decodeWords, encode]
  rw [decode, if_neg (ne_zero_of_field 26 6 (by simp [encR, encI, encSu]))]
  simp_all [Instr.wf, fOp, fD, fA, fB, fFn, fImm14, fPd, fCc, fSz, fU, encR, encI, encSu, immLong, req, Except.toOption, decodeSh, decodeBf, decodeCmp, decodeMem, decodeAmo, decodeCas, decodeX, decodeBr, decodeHalt, decodeSys, decodeSs, decodeSu, decodeSg, decodeSbS, decodeSbind, decodeG, decodeCpy, decodeCpym, decodeE36, decodeColl, decodeCb, decodeCbg]
theorem RoundTrip.copyUnitRetry (lseq die q : Nat) : RoundTrip.Statement (.copyUnitRetry lseq die q) := roundTrip_of_none rfl
theorem RoundTrip.nodeLaunchStart (lseq : Nat) : RoundTrip.Statement (.nodeLaunchStart lseq) := roundTrip_of_none rfl
theorem RoundTrip.frozenStateStreamedOut (lseq : Nat) : RoundTrip.Statement (.frozenStateStreamedOut lseq) := roundTrip_of_none rfl
theorem RoundTrip.shadowImageLoad (tid : Nat) : RoundTrip.Statement (.shadowImageLoad tid) := roundTrip_of_none rfl
theorem RoundTrip.firmwareUpdate (place svn digest : Nat) (valid : Bool) (removed : List Nat) : RoundTrip.Statement (.firmwareUpdate place svn digest valid removed) := roundTrip_of_none rfl

end Sys2Proof.Laws
end

