-- ==== Sys2Proof/Safety.lean ====
section
/-!
DEFINITION. What a safe run is: the machine goes on, and its memory is in canonical form.
-/
namespace Sys2Proof.Machine

/-- The state after a step, where there is one. -/
def nextOf : Host.Outcome State Fault Refusal → Option State
  | .next t => some t
  | .fault _ => none
  | .refused _ => none

/-- The states of a run: `n` steps from a state, where every one goes on. -/
def runFor : Nat → State → Option State
  | 0, s => some s
  | n + 1, s => (nextOf (step s)).bind (runFor n)

/-- The state of the machine between steps: memory is canonical, and no instruction stands half issued. -/
def State.sound (s : State) : Bool := Memory.wf s.mem && s.latch.isNone

/-- A run of `n` steps is safe if it does not stop and ends in a sound state. -/
def safeRun (n : Nat) (s : State) : Bool := match runFor n s with | some t => t.sound | none => false

/-! ## The vocabulary of the statements -/

/-- `t` is the thread being served, and it owns every register that these fields name (R18). -/
abbrev Serving (s : State) (t : Thread) (fields : List Reg) : Prop := threadOf s s.cur = some t ∧ firstBad t fields = none

/-- The current thread completes an instruction of `len` bytes as `t`, and nothing else of the machine changes. -/
def completed (s : State) (t : Thread) (len : Word) : Out := .next (setThread s s.cur (t.next len))

/-- The current thread, `t`, stands at its instruction until a condition holds (R19). -/
def waiting (s : State) (t : Thread) (w : Wait) : Out := .next (setThread s s.cur { t with stat := .waiting w })

/-- The current thread, `t`, takes a trap (R29). -/
def trapped (s : State) (t : Thread) (cause : Nat) (epc tval : Word) : Out := .next (trap s s.cur t cause epc tval)

/-- Thread `tid`, standing as `t`, goes on past an instruction of `len` bytes that it waited at, or issued with an effect
that `s` already holds. -/
def goesOn (s : State) (tid : Nat) (t : Thread) (len : Word) : Out := .next (setThread s tid { t.next len with stat := .ready })

/-- A thread that can enter its handler: it has one, and handles no trap (R29). -/
abbrev Handled (t : Thread) : Prop := t.tvec &&& ~~~3#64 ≠ 0#64 ∧ t.intrap = false

/-- The general-register fields that each control-thread instruction uses, in the order rd, ra, rb, then the USER field:
the "R18 fields" of the rules of 13, 14 and 16. -/
def fieldsOf : Instr → List Reg
  | .add d a b | .sub d a b | .mul d a b | .mulh d a b | .mulhu d a b | .div d a b | .divu d a b | .rem d a b
  | .remu d a b | .and d a b | .or d a b | .xor d a b | .sll d a b | .srl d a b | .sra d a b | .min d a b | .max d a b
  | .minu d a b | .maxu d a b | .addsc _ d a b | .sel _ d a b | .amoW _ d a b _ _ | .amoD _ d a b _ _
  | .casW d a b _ _ | .casD d a b _ _ | .cas16 d a b _ _ => [d, a, b]
  | .clz d a | .ctz d a | .popc d a | .addImm d a _ | .andImm d a _ | .orImm d a _ | .xorImm d a _ | .sllImm d a _
  | .srlImm d a _ | .sraImm d a _ | .addLong d a _ | .andLong d a _ | .orLong d a _ | .xorLong d a _ | .bfx d a _ _
  | .bfxS d a _ _ | .bfi d a _ _ | .ld d a _ _ _ | .st d a _ _ | .ldAcq d a _ _ _ _ | .stRel d a _ _ _ | .jalr d a _
  | .sbindS d a => [d, a]
  | .cmpCc _ _ a b | .evpost _ a b => [a, b]
  | .cmpCcImm _ _ a _ | .prefDc a _ | .prefL2 a _ | .loop a _ | .mts _ a | .wrpk a | .mtt _ a | .smov _ a | .sfree a
  | .postc _ a | .cbput _ _ _ a => [a]
  | .jal d _ | .mfs d _ | .getev _ d | .sread d _ | .cbget d _ _ _ => [d]
  | .sbind _ _ a u | .sbindHandle _ _ a _ u | .glaunch a u | .gloadsh a u | .gswap a u | .gdrain a u | .gresume a u
  | .gend a u | .coll _ _ _ _ _ _ a _ u => [a, u]
  | .cpy _ _ d a n u | .cpym _ _ d a n u => [d, a, n, u]
  | .cpyT _ _ d a u => [d, a, u]
  | _ => []

/-! ### Accesses (13 R271, R283 to R288) -/

/-- The memory access that each control-thread instruction makes first, as the thread stands: kind, address, bytes. -/
def accessOf (t : Thread) : Instr → Option (Kind × Word × Nat)
  | .ld _ a sz _ o => some (.read, BitVec.ofInt 64 ((t.g a).toNat + o.toInt), 2 ^ sz.toNat)
  | .st _ a sz o => some (.write, BitVec.ofInt 64 ((t.g a).toNat + o.toInt), 2 ^ sz.toNat)
  | .ldAcq _ a sz _ _ o => some (.read, BitVec.ofInt 64 ((t.g a).toNat + o.toInt), 2 ^ sz.toNat)
  | .stRel _ a sz _ o => some (.write, BitVec.ofInt 64 ((t.g a).toNat + o.toInt), 2 ^ sz.toNat)
  | .amoW _ _ a _ _ _ | .casW _ a _ _ _ => some (.atomic, t.g a, 4)
  | .amoD _ _ a _ _ _ | .casD _ a _ _ _ => some (.atomic, t.g a, 8)
  | .cas16 _ a _ _ _ => some (.atomic, t.g a, 16)
  | .mtt _ a => some (.read, t.g a, 64)
  | _ => none

/-- The low `n` bytes of a register. -/
def lowBytes (x : Word) (n : Nat) : Nat := x.toNat % 2 ^ (8 * n)

/-- `n` bytes read as a two's-complement number. -/
def signedBytes (v n : Nat) : Int := if v < 2 ^ (8 * n - 1) then v else (v : Int) - 2 ^ (8 * n)

/-! ### Instructions that work on registers alone -/

/-- For the instructions of 13 that have no effect outside their thread's registers, predicates and pc (a FENCE only lets its
thread's stores be seen): the general register and the predicate that each may write. LOOP, MFS and MTS are not among them: they use the loop and the special
registers. -/
def registerOnly : Instr → Option (Option Reg × Option Pred)
  | .nop | .br _ _ | .brN _ _ | .fence _ | .prefDc _ _ | .prefL2 _ _ => some (none, none)
  | .add d _ _ | .sub d _ _ | .mul d _ _ | .mulh d _ _ | .mulhu d _ _ | .div d _ _ | .divu d _ _ | .rem d _ _
  | .remu d _ _ | .and d _ _ | .or d _ _ | .xor d _ _ | .sll d _ _ | .srl d _ _ | .sra d _ _ | .min d _ _ | .max d _ _
  | .minu d _ _ | .maxu d _ _ | .addsc _ d _ _ | .sel _ d _ _ | .clz d _ | .ctz d _ | .popc d _ | .addImm d _ _
  | .andImm d _ _ | .orImm d _ _ | .xorImm d _ _ | .sllImm d _ _ | .srlImm d _ _ | .sraImm d _ _ | .addLong d _ _
  | .andLong d _ _ | .orLong d _ _ | .xorLong d _ _ | .bfx d _ _ _ | .bfxS d _ _ _ | .bfi d _ _ _ | .jal d _
  | .jalr d _ _ => some (some d, none)
  | .cmpCc p _ _ _ | .cmpCcImm p _ _ _ => some (none, some p)
  | _ => none

/-- What an instruction on registers alone leaves of its thread `t`, which afterwards stands as `u`: everything but the
registers and predicates it names and, where it traps, the trap's own registers (R29), with what its earlier loads and atomics
still owed returned (R28). -/
structure RegisterFrame (d : Option Reg) (p : Option Pred) (t u : Thread) : Prop where
  regs : u.intrap = t.intrap → ∀ r : Reg, some r ≠ d → u.g r = t.g r
  preds : ∀ q : Pred, some q ≠ p → u.p q = t.p q
  owned : u.nreg = t.nreg
  loop : u.lstart = t.lstart ∧ u.lend = t.lend
  vector : u.tvec = t.tvec ∧ u.scratch = t.scratch ∧ u.tcmp = t.tcmp
  engines : u.pend = t.pend ∧ u.glseq = t.glseq ∧ u.handles = t.handles ∧ u.htags = t.htags ∧ u.pins = t.pins
  place : u.lseq = t.lseq ∧ u.idx = t.idx ∧ u.task = t.task ∧ u.plot = t.plot ∧ u.slot = t.slot
  others : u.groups = t.groups
  loads : u.intrap = t.intrap → u.loads = t.loads ∨ ∃ r, d = some r ∧ u.loads = t.loads.filter (fun x => x.1 != r.toNat)
  noTrap : u.intrap = t.intrap →
    u.epc = t.epc ∧ u.cause = t.cause ∧ u.tval = t.tval ∧ u.pmode = t.pmode ∧ u.mode = t.mode ∧ u.stat = t.stat
  atTrap : u.intrap ≠ t.intrap → u.regs = t.settle.regs ∧ u.loads = [] ∧ u.preds = t.preds ∧ u.lcount = t.lcount

end Sys2Proof.Machine
end

