-- ==== Sys2Proof/Certificates/Slice0/Obligations.lean ====
section
/-!
DEFINITION. The statements for the provers, in the order of OBLIGATIONS.json. The vocabulary they share (`Serving`, `completed`,
`trapped`, `waiting`, `goesOn`, `fieldsOf`, `accessOf`) is in Safety.lean.
-/
open Sys2Proof Sys2Proof.Machine Sys2Proof.Laws

/-! ## Integer and address words (13 R272 to R276) -/

/-- Every register form of R272 writes the value of its row into rd and completes. A write to g0 is discarded and g0 reads
zero; any other register that the thread owns then reads what was written, and no other changes (R13); a load that had yet to
reach the register is dropped (log 4). The registers that each form names are those of its row. -/
def Obligations.RegisterForms : Prop :=
  ∀ (s : State) (t : Thread),
    (∀ v : Word, t.setG 0#6 v = t ∧ t.g 0#6 = 0#64) ∧
    (∀ (d : Reg) (v : Word), d ≠ 0#6 → d.toNat < t.regs.length → t.setG d v = { t with regs := (t.setG d v).regs, loads := (t.setG d v).loads } ∧
      ∀ r : Reg, (t.setG d v).g r = if r = d then v else t.g r) ∧
    (Serving s t [] → exec .nop s = completed s t 4#64) ∧
    (∀ d a b : Reg, Serving s t [d, a, b] → ∀ x y : Word, x = t.g a → y = t.g b →
      let n := y.toNat % 64
      let wrote := fun r : Word => completed s (t.setG d r) 4#64
      exec (.add d a b) s = wrote (BitVec.ofNat 64 (x.toNat + y.toNat)) ∧
      exec (.sub d a b) s = wrote (BitVec.ofInt 64 ((x.toNat : Int) - y.toNat)) ∧
      exec (.mul d a b) s = wrote (BitVec.ofNat 64 (x.toNat * y.toNat)) ∧
      exec (.mulh d a b) s = wrote (BitVec.ofInt 64 (x.toInt * y.toInt / 2 ^ 64)) ∧
      exec (.mulhu d a b) s = wrote (BitVec.ofNat 64 (x.toNat * y.toNat / 2 ^ 64)) ∧
      (∃ r, (∀ k, r.getLsbD k = (x.getLsbD k && y.getLsbD k)) ∧ exec (.and d a b) s = wrote r) ∧
      (∃ r, (∀ k, r.getLsbD k = (x.getLsbD k || y.getLsbD k)) ∧ exec (.or d a b) s = wrote r) ∧
      (∃ r, (∀ k, r.getLsbD k = (x.getLsbD k != y.getLsbD k)) ∧ exec (.xor d a b) s = wrote r) ∧
      exec (.sll d a b) s = wrote (BitVec.ofNat 64 (x.toNat * 2 ^ n)) ∧
      exec (.srl d a b) s = wrote (BitVec.ofNat 64 (x.toNat / 2 ^ n)) ∧
      exec (.sra d a b) s = wrote (BitVec.ofInt 64 (x.toInt / 2 ^ n)) ∧
      exec (.min d a b) s = wrote (if x.toInt ≤ y.toInt then x else y) ∧
      exec (.max d a b) s = wrote (if x.toInt ≤ y.toInt then y else x) ∧
      exec (.minu d a b) s = wrote (if x.toNat ≤ y.toNat then x else y) ∧
      exec (.maxu d a b) s = wrote (if x.toNat ≤ y.toNat then y else x) ∧
      (∀ k : BitVec 2, exec (.addsc k d a b) s = wrote (BitVec.ofNat 64 (x.toNat + y.toNat * 2 ^ k.toNat))) ∧
      (∀ n : Pred, exec (.sel n d a b) s = wrote (if n = 0#3 ∨ t.preds.getLsbD n.toNat = true then x else y))) ∧
    (∀ d a : Reg, Serving s t [d, a] → ∀ x : Word, x = t.g a →
      let wrote := fun r : Nat => completed s (t.setG d (BitVec.ofNat 64 r)) 4#64
      (∃ r, exec (.clz d a) s = wrote r ∧ (x = 0#64 → r = 64) ∧
        (x ≠ 0#64 → 2 ^ (63 - r) ≤ x.toNat ∧ x.toNat < 2 ^ (64 - r) ∧ r < 64)) ∧
      (∃ r, exec (.ctz d a) s = wrote r ∧ (x = 0#64 → r = 64) ∧
        (x ≠ 0#64 → x.toNat % 2 ^ r = 0 ∧ x.getLsbD r = true)) ∧
      exec (.popc d a) s = wrote ((List.range 64).countP (fun k => x.getLsbD k))) ∧
    (∀ (d a b : Reg) (k : BitVec 2) (n : Pred), fieldsOf .nop = [] ∧
      (∀ i ∈ [Instr.add d a b, .sub d a b, .mul d a b, .mulh d a b, .mulhu d a b, .and d a b, .or d a b, .xor d a b, .sll d a b,
        .srl d a b, .sra d a b, .min d a b, .max d a b, .minu d a b, .maxu d a b, .addsc k d a b, .sel n d a b],
        fieldsOf i = [d, a, b]) ∧
      ∀ i ∈ [Instr.clz d a, .ctz d a, .popc d a], fieldsOf i = [d, a])

/-- DIV, DIVU, REM and REMU: the quotient and remainder, and the trap where the divisor is 0. -2^63 by -1 wraps, with no trap. -/
def Obligations.DivisionForms : Prop :=
  ∀ (s : State) (t : Thread) (d a b : Reg), Serving s t [d, a, b] → ∀ x y : Word, x = t.g a → y = t.g b →
    let wrote := fun r : Word => completed s (t.setG d r) 4#64
    (y = 0#64 → ∀ i ∈ [Instr.div d a b, .divu d a b, .rem d a b, .remu d a b],
      exec i s = trapped s t 0x0A t.pc (((encode i).headD 0#32).setWidth 64)) ∧
    (y ≠ 0#64 →
      (∃ q : Int, exec (.div d a b) s = wrote (BitVec.ofInt 64 q) ∧
        exec (.rem d a b) s = wrote (BitVec.ofInt 64 (x.toInt - q * y.toInt)) ∧
        (x.toInt - q * y.toInt).natAbs < y.toInt.natAbs ∧
        (x.toInt - q * y.toInt ≠ 0 → (0 < x.toInt - q * y.toInt ↔ 0 < x.toInt))) ∧
      exec (.divu d a b) s = wrote (BitVec.ofNat 64 (x.toNat / y.toNat)) ∧
      exec (.remu d a b) s = wrote (BitVec.ofNat 64 (x.toNat - x.toNat / y.toNat * y.toNat))) ∧
    (x.toInt = -2 ^ 63 → y.toInt = -1 →
      exec (.div d a b) s = wrote x ∧ exec (.rem d a b) s = wrote 0#64)

/-- The immediate forms act as the register forms with the sign-extended immediate, and the shifts by AMOUNT; each names rd
and ra. -/
def Obligations.ImmediateForms : Prop :=
  ∀ (s : State) (t : Thread) (d a : Reg), Serving s t [d, a] → ∀ x : Word, x = t.g a →
    (∀ i : BitVec 14,
      let y : Word := BitVec.ofInt 64 i.toInt
      let wrote := fun r : Word => completed s (t.setG d r) 4#64
      exec (.addImm d a i) s = wrote (BitVec.ofInt 64 (x.toNat + i.toInt)) ∧
      (∃ r, (∀ k, r.getLsbD k = (x.getLsbD k && y.getLsbD k)) ∧ exec (.andImm d a i) s = wrote r) ∧
      (∃ r, (∀ k, r.getLsbD k = (x.getLsbD k || y.getLsbD k)) ∧ exec (.orImm d a i) s = wrote r) ∧
      (∃ r, (∀ k, r.getLsbD k = (x.getLsbD k != y.getLsbD k)) ∧ exec (.xorImm d a i) s = wrote r)) ∧
    (∀ i : BitVec 46,
      let y : Word := BitVec.ofInt 64 i.toInt
      let wrote := fun r : Word => completed s (t.setG d r) 8#64
      exec (.addLong d a i) s = wrote (BitVec.ofInt 64 (x.toNat + i.toInt)) ∧
      (∃ r, (∀ k, r.getLsbD k = (x.getLsbD k && y.getLsbD k)) ∧ exec (.andLong d a i) s = wrote r) ∧
      (∃ r, (∀ k, r.getLsbD k = (x.getLsbD k || y.getLsbD k)) ∧ exec (.orLong d a i) s = wrote r) ∧
      (∃ r, (∀ k, r.getLsbD k = (x.getLsbD k != y.getLsbD k)) ∧ exec (.xorLong d a i) s = wrote r)) ∧
    (∀ m : BitVec 6,
      let wrote := fun r : Word => completed s (t.setG d r) 4#64
      exec (.sllImm d a m) s = wrote (BitVec.ofNat 64 (x.toNat * 2 ^ m.toNat)) ∧
      exec (.srlImm d a m) s = wrote (BitVec.ofNat 64 (x.toNat / 2 ^ m.toNat)) ∧
      exec (.sraImm d a m) s = wrote (BitVec.ofInt 64 (x.toInt / 2 ^ m.toNat))) ∧
    (∀ (i : BitVec 14) (j : BitVec 46) (m : BitVec 6), ∀ k ∈ [Instr.addImm d a i, .andImm d a i, .orImm d a i, .xorImm d a i,
      .addLong d a j, .andLong d a j, .orLong d a j, .xorLong d a j, .sllImm d a m, .srlImm d a m, .sraImm d a m],
      fieldsOf k = [d, a])

/-- BFX, BFX.S and BFI, bit by bit; each names rd and ra. -/
def Obligations.BitFieldForms : Prop :=
  ∀ (s : State) (t : Thread) (d a : Reg) (p l : BitVec 6), Serving s t [d, a] → p.toNat + l.toNat < 64 →
    ∀ x z : Word, x = t.g a → z = t.g d →
    let wrote := fun r : Word => completed s (t.setG d r) 4#64
    (∃ r, (∀ k, r.getLsbD k = (decide (k ≤ l.toNat) && x.getLsbD (p.toNat + k))) ∧ exec (.bfx d a p l) s = wrote r) ∧
    (∃ r, (∀ k, k < 64 → r.getLsbD k = x.getLsbD (p.toNat + if k ≤ l.toNat then k else l.toNat)) ∧
      exec (.bfxS d a p l) s = wrote r) ∧
    (∃ r, (∀ k, k < 64 → r.getLsbD k = if p.toNat ≤ k ∧ k ≤ p.toNat + l.toNat then x.getLsbD (k - p.toNat) else z.getLsbD k) ∧
      exec (.bfi d a p l) s = wrote r) ∧
    ∀ i ∈ [Instr.bfx d a p l, .bfxS d a p l, .bfi d a p l], fieldsOf i = [d, a]

/-- CMP.cc writes one predicate with its condition; p0 keeps reading true. It names ra, and rb in the register form. -/
def Obligations.Compare : Prop :=
  ∀ (s : State) (t : Thread) (p : Pred) (c : CmpCond) (a : Reg) (x y : Word), x = t.g a →
    let holds : Bool := match c with
      | .eq => decide (x = y)
      | .ne => decide (x ≠ y)
      | .lt => decide (x.toInt < y.toInt)
      | .ge => decide (y.toInt ≤ x.toInt)
      | .ltu => decide (x.toNat < y.toNat)
      | .geu => decide (y.toNat ≤ x.toNat)
    ∃ u : Thread,
      (∀ b : Reg, Serving s t [a, b] → y = t.g b → exec (.cmpCc p c a b) s = completed s u 4#64) ∧
      (∀ i : BitVec 14, Serving s t [a] → y = BitVec.ofInt 64 i.toInt → exec (.cmpCcImm p c a i) s = completed s u 4#64) ∧
      u = { t with preds := u.preds } ∧
      (∀ q : Pred, u.p q = if q = 0#3 then true else if q = p then holds else t.p q) ∧
      (∀ (b : Reg) (i : BitVec 14), fieldsOf (.cmpCc p c a b) = [a, b] ∧ fieldsOf (.cmpCcImm p c a i) = [a])

/-! ## Control flow (13 R277 to R282) -/

/-- BR and BR.N: where the guard has the sense of the form, the jump to the target, else the next instruction; p0 always reads
true. Neither names a register. -/
def Obligations.Branch : Prop :=
  ∀ (s : State) (t : Thread) (p : Pred) (o : BitVec 22), Serving s t [] →
    let target : Word := BitVec.ofInt 64 (t.pc.toNat + 4 * o.toInt)
    exec (.br p o) s =
      (if t.p p then .next (setThread s s.cur (t.jump target)) else completed s t 4#64) ∧
    exec (.brN p o) s =
      (if t.p p then completed s t 4#64 else .next (setThread s s.cur (t.jump target))) ∧
    t.p 0#3 = true ∧ fieldsOf (.br p o) = [] ∧ fieldsOf (.brN p o) = []

/-- JAL and JALR link and jump; a misaligned target of JALR traps; ra is read before rd is written. JAL names rd, JALR rd
and ra. -/
def Obligations.JumpAndLink : Prop :=
  ∀ (s : State) (t : Thread) (d a : Reg),
    (∀ o : BitVec 20, Serving s t [d] →
      exec (.jal d o) s = .next (setThread s s.cur
        ((t.setG d (t.pc + 4#64)).jump (BitVec.ofInt 64 (t.pc.toNat + 4 * o.toInt))))) ∧
    (∀ i : BitVec 14, Serving s t [d, a] → ∀ x : Word, x = BitVec.ofInt 64 ((t.g a).toNat + i.toInt) →
      (x.toNat % 4 ≠ 0 → exec (.jalr d a i) s = trapped s t 0x07 t.pc x) ∧
      (x.toNat % 4 = 0 → exec (.jalr d a i) s = .next (setThread s s.cur ((t.setG d (t.pc + 4#64)).jump x)))) ∧
    (∀ (o : BitVec 20) (i : BitVec 14), fieldsOf (.jal d o) = [d] ∧ fieldsOf (.jalr d a i) = [d, a])

/-- LOOP sets the loop registers, or skips the body of a loop of no iterations (R280). How a thread that goes on past an
instruction (`Thread.next`) or is sent elsewhere by a taken BR, a JAL or a JALR (`Thread.jump`) keeps the loop (R281): the body
starts again while LCOUNT is 2 or more, LCOUNT 1 ends it, a jump out of the body drops it, and nothing else moves it; INTRAP
suspends the first two. That the check reads the loop registers as the instruction left them is the model's reading (log 25). -/
def Obligations.HardwareLoop : Prop :=
   (∀ (s : State) (t : Thread) (a : Reg) (e : BitVec 14), Serving s t [a] →
      let last : Word := BitVec.ofNat 64 (t.pc.toNat + 4 * e.toNat)
      exec (.loop a e) s = .next (setThread s s.cur
        (if t.g a = 0#64 then { t with lcount := 0#64, pc := last + 4#64 }
         else { t with lstart := t.pc + 4#64, lend := last, lcount := t.g a, pc := t.pc + 4#64 })) ∧
      fieldsOf (.loop a e) = [a]) ∧
   (∀ (t : Thread) (len target : Word),
      (t.pc = t.lend → t.intrap = false → 2 ≤ t.lcount.toNat →
        t.next len = { t with lcount := BitVec.ofNat 64 (t.lcount.toNat - 1), pc := t.lstart }) ∧
      (t.pc = t.lend → t.intrap = false → t.lcount = 1#64 → t.next len = { t with lcount := 0#64, pc := t.pc + len }) ∧
      (t.pc ≠ t.lend ∨ t.intrap = true ∨ t.lcount = 0#64 → t.next len = { t with pc := t.pc + len }) ∧
      (t.lstart.toNat ≤ target.toNat → target.toNat ≤ t.lend.toNat → t.jump target = { t with pc := target }) ∧
      (target.toNat < t.lstart.toNat ∨ t.lend.toNat < target.toNat →
        t.jump target = { t with lcount := 0#64, pc := target }))

/-! ## Loads, stores and atomics (13 R271, R283 to R288) -/

/-- LD and LD.ACQ: where the checks of R271 pass, rd takes the bytes at the address, extended, and the loop and pc go on.
Where loads stay outstanding (log 4) the value stands in the thread's list until LOAD_RETURN. That the load is performed in its
own step is log 12. The stores of other threads that it meets are visible to every agent from then on (R108). -/
def Obligations.Loads : Prop :=
  ∀ (s : State) (t : Thread) (d a : Reg) (sz : BitVec 2) (u : Bool) (i : Instr) (ea : Word) (s' : State) (l : Loc),
    Serving s t [d, a] → (u = true → sz ≠ 3#2) →
    ((∃ o, i = .ld d a sz u o ∧ ea = BitVec.ofInt 64 ((t.g a).toNat + o.toInt)) ∨
      ∃ sc o, i = .ldAcq d a sz u sc o ∧ ea = BitVec.ofInt 64 ((t.g a).toNat + o.toInt)) →
    dataCheck s (threadCtx s t) .read ea.toNat (2 ^ sz.toNat) (2 ^ sz.toNat) = (s', .ok l) →
    let n := 2 ^ sz.toNat
    let v := readLoc s' l n
    let r : Word := if u then BitVec.ofNat 64 v else BitVec.ofInt 64 (signedBytes v n)
    let met := performStores s' (fun e => e.meets l.memAt n && e.tid != s.cur)
    exec i s = completed (readEffect met l)
      (if s.lateLoads then { t with loads := t.loads ++ [(d.toNat, r)] } else t.setG d r) 4#64

/-- ST and ST.REL: where the checks pass, ST.REL first makes the thread's earlier stores visible within its scope, and the low
bytes of the data register are then written at the address. That the bytes are written in the step of the store is the model's
choice (log 12); until every agent sees it, a store to DRAM or to scratch is remembered with the bytes before and after it, so
that a stream, a copy or a fetch may still miss it (R21, R382). The thread goes on as the write left it: a store through the
register view may name its own registers. -/
def Obligations.Stores : Prop :=
  ∀ (s : State) (t : Thread) (b a : Reg) (sz : BitVec 2) (i : Instr) (ea : Word) (rel : Nat) (s' : State) (l : Loc),
    Serving s t [b, a] →
    ((∃ o, i = .st b a sz o ∧ rel = 0 ∧ ea = BitVec.ofInt 64 ((t.g a).toNat + o.toInt)) ∨
      ∃ sc o, i = .stRel b a sz sc o ∧ rel = sc.toNat ∧ ea = BitVec.ofInt 64 ((t.g a).toNat + o.toInt)) →
    dataCheck s (threadCtx s t) .write ea.toNat (2 ^ sz.toNat) (2 ^ sz.toNat) = (s', .ok l) →
    let n := 2 ^ sz.toNat
    let shown := showStores s' s.cur rel
    let after := writeLoc shown l n (lowBytes (t.g b) n)
    ∃ u : Thread, threadOf after s.cur = some u ∧ u = { t with regs := u.regs } ∧
      (l.reg = .dram ∨ (∃ m x, l.reg = .domain m x) → u = t) ∧
      (∀ at_, l.reg = .dram ∧ at_ = l.pa ∨ (∃ p off, l.reg = .window p off ∧ off < scratchSize ∧ at_ = scratchAddr p off) →
        ∃ e : PStore, exec i s = completed { after with stores := shown.stores ++ [e] } u 4#64 ∧
          e.tid = s.cur ∧ e.addr = at_ ∧ e.seen = false ∧ e.old.length = n ∧
          e.new = (List.range n).map (fun j => memGet after.mem (at_ + j)) ∧
          ((l.reg ≠ .dram ∨ ∀ sec ∈ sectorsOf l.pa n, lookup s.keytags sec = some l.eng) →
            e.old = (List.range n).map (fun j => memGet s'.mem (at_ + j)))) ∧
      ((∃ m x, l.reg = .domain m x) ∨ (∃ p off, l.reg = .window p off ∧ scratchSize ≤ off) → exec i s = completed after u 4#64)

/-- AMO: after the release that an ORD with its bit 1 makes at the scope (R109), the location takes the operation's value
whatever it held, and rd the old value, sign-extended: at once, or at LOAD_RETURN where results stay outstanding (log 4). That
the access is performed in the step of the instruction is log 12. -/
def Obligations.Atomics : Prop :=
  ∀ (s : State) (t : Thread) (op : AmoOp) (d a b : Reg) (o : BitVec 2) (sc : BitVec 3) (i : Instr) (n : Nat) (s' : State) (l : Loc),
    Serving s t [d, a, b] → i = .amoW op d a b o sc ∧ n = 4 ∨ i = .amoD op d a b o sc ∧ n = 8 →
    dataCheck s (threadCtx s t) .atomic (t.g a).toNat n n = (s', .ok l) →
    let s1 := if o.getLsbD 1 then showStores s' s.cur sc.toNat else s'
    let old := readLoc s' l n
    let x := lowBytes (t.g b) n
    let new := match op with
      | .swap => x
      | .add => (old + x) % 2 ^ (8 * n)
      | .and => old &&& x
      | .or => old ||| x
      | .xor => old ^^^ x
      | .min => if signedBytes x n < signedBytes old n then x else old
      | .max => if signedBytes old n < signedBytes x n then x else old
    exec i s = completed (writeLoc (markLeaf s1 l.leaf true) l n new)
      (loaded s t d (BitVec.ofInt 64 (signedBytes old n))) 4#64

/-- CAS.W, CAS.D and CAS16: after the release that an ORD with its bit 1 makes (R109), the location is written only where it
held the expected value; rd (and rd + 1) take the old value either way, at once or at LOAD_RETURN (log 4); a failing CAS writes
nothing and leaves D, and every store that it meets is visible from then on (R108). -/
def Obligations.CompareAndSwap : Prop :=
  ∀ (s : State) (t : Thread) (d a b : Reg) (o : BitVec 2) (sc : BitVec 3) (s' : State) (l : Loc), Serving s t [d, a, b] →
    let rel := fun u => if o.getLsbD 1 then showStores u s.cur sc.toNat else u
    let failed := fun n => performStores (rel s') (fun e => e.meets l.memAt n)
    (∀ (i : Instr) (n : Nat), i = .casW d a b o sc ∧ n = 4 ∨ i = .casD d a b o sc ∧ n = 8 →
      dataCheck s (threadCtx s t) .atomic (t.g a).toNat n n = (s', .ok l) →
      let old := readLoc s' l n
      exec i s = completed
        (if old = lowBytes (t.g d) n then writeLoc (markLeaf (rel s') l.leaf true) l n (lowBytes (t.g b) n) else failed n)
        (loaded s t d (BitVec.ofInt 64 (signedBytes old n))) 4#64) ∧
    (dataCheck s (threadCtx s t) .atomic (t.g a).toNat 16 16 = (s', .ok l) →
      let old := readLoc s' l 16
      let e := (t.g d).toNat + 2 ^ 64 * (t.g (d + 1#6)).toNat
      let x := (t.g b).toNat + 2 ^ 64 * (t.g (b + 1#6)).toNat
      exec (.cas16 d a b o sc) s = completed
        (if old = e then writeLoc (markLeaf (rel s') l.leaf true) l 16 x else failed 16)
        (loaded s (loaded s t d (BitVec.ofNat 64 old)) (d + 1#6) (BitVec.ofNat 64 (old / 2 ^ 64))) 4#64)

/-- A failing check traps with its cause and value and the instruction does nothing else; a held access makes the thread
wait; an address that is not a multiple of the access's size traps before anything is looked at. -/
def Obligations.AccessTraps : Prop :=
  ∀ (s : State) (t : Thread) (i : Instr) (k : Kind) (ea : Word) (n : Nat) (s' : State),
    Serving s t (fieldsOf i) → accessOf t i = some (k, ea, n) →
    (∀ c v, dataCheck s (threadCtx s t) k ea.toNat n n = (s', .bad c v) →
      exec i s = trapped s' t c t.pc (BitVec.ofNat 64 v)) ∧
    (∀ w, dataCheck s (threadCtx s t) k ea.toNat n n = (s', .hold w) → exec i s = waiting s' t w) ∧
    (ea.toNat % n ≠ 0 → exec i s = trapped s t 0x08 t.pc ea)

/-- What an access may change before it is performed, and what a write changes: outside the bytes written and the eight
bytes of the leaf, every address reads as before to every reader of the engagement; the leaf takes its A bit and, for a write, its
D bit and keeps all others, always where no slice holds an older entry for the page (log 22); a check alone changes no register,
launch, plot or processing element. -/
def Obligations.MemoryFrame : Prop :=
  ∀ (s : State) (c : Ctx) (k : Kind) (ea n : Nat) (s' : State) (l : Loc),
    Memory.wf s.mem = true → dataCheck s c k ea n n = (s', .ok l) →
    (s'.threads = s.threads ∧ s'.launches = s.launches ∧ s'.plots = s.plots ∧ s'.pes = s.pes ∧ s'.poison = s.poison ∧
      s'.keytags = s.keytags ∧ s'.stores = s.stores ∧ s'.time = s.time ∧ s'.lateLoads = s.lateLoads) ∧
    (∀ x, ¬(l.leaf ≤ x ∧ x < l.leaf + 8) → memGet s'.mem x = memGet s.mem x) ∧
    (let marked := readRaw s.mem l.leaf 8 ||| 8 ||| (if k = .write then 16 else 0)
     (readRaw s'.mem l.leaf 8 = readRaw s.mem l.leaf 8 ∨ readRaw s'.mem l.leaf 8 = marked) ∧
      (c.agent.usesXt = false ∨ (∀ x ∈ s.xt, x.vd = c.vd → x.page ≠ ea / 2 ^ x.lo) → readRaw s'.mem l.leaf 8 = marked)) ∧
    (∀ v x, ¬(l.pa ≤ x ∧ x < l.pa + n) → (∀ p o, l.reg = .window p o → l.pa = scratchAddr p o) →
      keyedByte (writeLoc s' l n v) l.eng x = keyedByte s' l.eng x) ∧
    (∀ v j, j < n → l.reg = .dram → keyedByte (writeLoc s' l n v) l.eng (l.pa + j) = BitVec.ofNat 8 (v / 2 ^ (8 * j)))

/-- FENCE makes the thread's earlier stores visible and changes nothing else: FENCE.0 makes none so; from scope 1 on each is visible
to every agent of the module at one moment, with each earlier store that it overlaps (R108), and from scope 4 on to fetches as well, so
that none of them is remembered (R21, R109, R287, R382; that every access was already performed in its own step, and that a fetch
may see a store later than other agents do, is log 12). The prefetches complete and change nothing; a prefetch neither traps nor waits at any address, and names
ra. -/
def Obligations.FenceAndPrefetch : Prop :=
  ∀ (s : State) (t : Thread) (a : Reg) (sc : BitVec 3) (e : BitVec 14),
    (Serving s t [] → ∃ left : List PStore, exec (.fence sc) s = completed { s with stores := left } t 4#64 ∧
      let bare := fun es : List PStore => es.map (fun e => { e with seen := false })
      (sc = 0#3 → left = s.stores) ∧
      (sc ≠ 0#3 → sc.toNat < 4 → bare left = bare s.stores ∧
        ∀ (i : Nat) (e f : PStore), s.stores[i]? = some e → left[i]? = some f →
          (f.seen = true ↔ e.seen = true ∨ e.tid = s.cur ∨
            ∃ j g, i < j ∧ left[j]? = some g ∧ g.seen = true ∧ g.meets e.addr e.old.length = true)) ∧
      (4 ≤ sc.toNat → (∀ e ∈ left, e.tid ≠ s.cur) ∧ (bare left).Sublist (bare s.stores) ∧
        ((∀ e ∈ s.stores, e.tid ≠ s.cur) → bare left = bare s.stores))) ∧
    (Serving s t [a] → exec (.prefDc a e) s = completed s t 4#64 ∧ exec (.prefL2 a e) s = completed s t 4#64) ∧
    fieldsOf (.fence sc) = [] ∧ fieldsOf (.prefDc a e) = [a] ∧ fieldsOf (.prefL2 a e) = [a]

/-- The order of R92 and the physical address of a page: with valid pointers above it, the leaf of a 1 GiB, 2 MiB or 64 KiB
page decides by its own bits, R before W before GID before PKEY. An access goes by that walk, or by a leaf of the page that the
slice of its address still holds, with the same checks (R93, log 22); where no slice holds one it goes by the walk. -/
def Obligations.Translation : Prop :=
  ∀ (s : State) (c : Ctx) (k : Kind) (va lo : Nat) (vd : VD) (e1 e2 e3 leaf e : Nat),
    vdOf s c.vd = some vd → va < 2 ^ 56 →
    let word := fun x => readRaw s.mem x 8
    let root := vd.ptbase / 65536 % 2 ^ 36 * 65536
    let pointer := fun x below => x % 2 = 1 ∧ x / 2 % 4 = 0 ∧ x / 8 % 32 = 0 ∧ x / 2 ^ 52 % 2 ^ 12 = 0 ∧ x / 256 % 2 ^ 44 * 256 % 2 ^ below = 0
    let table := fun x => x / 256 % 2 ^ 44 * 256
    e1 = word (root + 8 * (va / 2 ^ 43 % 2 ^ 13)) → pointer e1 16 →
    e2 = word (table e1 + 8 * (va / 2 ^ 30 % 2 ^ 13)) →
    e3 = word (table e2 + 8 * (va / 2 ^ 21 % 2 ^ 9)) →
    (lo = 30 ∧ leaf = table e1 + 8 * (va / 2 ^ 30 % 2 ^ 13) ∧ e = e2 ∧ (e % 2 = 0 ∨ e / 2 % 4 ≠ 0) ∨
      lo = 21 ∧ pointer e2 12 ∧ leaf = table e2 + 8 * (va / 2 ^ 21 % 2 ^ 9) ∧ e = e3 ∧ (e % 2 = 0 ∨ e / 2 % 4 ≠ 0) ∨
      lo = 16 ∧ pointer e2 12 ∧ pointer e3 8 ∧ leaf = table e3 + 8 * (va / 2 ^ 16 % 2 ^ 5) ∧ e = word leaf) →
    let frame := e / 2 ^ 28 % 2 ^ 36
    let key := e / 2 ^ 23 % 2 ^ 5
    let reads := k = .read ∨ k = .fetch ∨ k = .atomic
    let writes := k = .write ∨ k = .atomic
    translate s c k va =
      (if e % 2 = 0 then .error 0x20
      else if frame % 2 ^ (lo - 16) ≠ 0 then .error 0x24
      else if reads ∧ e / 2 % 2 = 0 then .error 0x21
      else if writes ∧ e / 4 % 2 = 0 then .error 0x22
      else if c.agent = .fabric ∧ e / 2 ^ 15 % 2 ^ 8 ≠ 0 ∧ e / 2 ^ 15 % 2 ^ 8 ≠ c.gid then .error 0x23
      else if (c.agent = .thread ∨ c.agent = .copy) ∧
          (reads ∧ c.pkeys.getLsbD (2 * key) = false ∨ writes ∧ c.pkeys.getLsbD (2 * key + 1) = false) then .error 0x26
      else .ok (leaf, e, frame * 65536 + va % 2 ^ lo)) ∧
    (let r := xtTranslate s c k va
     r.1 = { s with xt := r.1.xt, free := r.1.free } ∧
      (c.agent.usesXt = false ∨ (∀ x ∈ s.xt, x.vd = c.vd → x.page ≠ va / 2 ^ x.lo) → r.2 = translate s c k va) ∧
      (r.2 = translate s c k va ∨ ∃ x ∈ s.xt, x.vd = c.vd ∧ x.slice = xtSlice va ∧ x.page = va / 2 ^ x.lo ∧
        r.2 = match leafCheck c k x.ent with
          | some cause => .error cause
          | none => .ok (x.addr, x.ent, x.ent / 2 ^ 28 % 2 ^ 36 * 65536 + va % 2 ^ x.lo)))

/-- The order of R271 for a thread's access to DRAM of its own module: alignment, the upper address bits, translation,
holes, spill segments, the key slot, and the poison that a read or an atomic meets. The leaf takes its A bit, and D for a write, as
soon as R92 passes, also where a later check of R271 fails: the model's reading (log 22). Plot windows and the domain window
are left out here. -/
def Obligations.AccessOrder : Prop :=
  ∀ (s : State) (t : Thread) (k : Kind) (ea n : Nat) (vd : VD) (leaf e pa : Nat),
    k = .read ∨ k = .write ∨ k = .atomic → vdOf s (threadCtx s t).vd = some vd → n ≠ 0 →
    let c := threadCtx s t
    let s0 := (xtTranslate s c k ea).1
    let r := (xtTranslate s c k ea).2
    let s1 := if sansAD (readRaw s0.mem leaf 8) = sansAD e then markLeaf s0 leaf (k == .write) else s0
    let slot := e / 32 % 1024
    (ea % n ≠ 0 → dataCheck s c k ea n n = (s, .bad 0x08 ea)) ∧
    (ea % n = 0 → 2 ^ 56 ≤ ea → dataCheck s c k ea n n = (s, .bad 0x20 ea)) ∧
    (∀ x, ea % n = 0 → r = .error x → dataCheck s c k ea n n = (s0, .bad x ea)) ∧
    (ea % n = 0 → r = .ok (leaf, e, pa) → regionAt s pa = .hole →
      dataCheck s c k ea n n = (s1, .bad 0x27 pa)) ∧
    (ea % n = 0 → r = .ok (leaf, e, pa) → regionAt s pa = .dram →
      (inSpill s1 pa n = true → dataCheck s c k ea n n = (s1, .bad 0x28 ea)) ∧
      (inSpill s1 pa n = false →
        (holdsSlot s c.vd slot = false →
          dataCheck s c k ea n n = (s1, .bad
            (if (slotOf s slot).st ≠ .opened ∧ (slotOf s slot).holders.elem c.vd = true then 0xC1 else 0xC0) ea)) ∧
        (holdsSlot s c.vd slot = true →
          (k ≠ .write → poisoned s pa n = true → dataCheck s c k ea n n = (s1, .bad 0x29 ea)) ∧
          (k = .write ∨ poisoned s pa n = false → logStall s1 c.vd ea n = false →
            ∃ s', dataCheck s c k ea n n =
              (s', .ok { reg := .dram, pa := pa, eng := (slotOf s slot).engid, leaf := leaf })))))

/-! ## Traps (01 R18, R29 to R32) -/

/-- A register field at or above g(N) traps before any effect, whatever the instruction would do with it, with the number of
the first such field in TVAL; g0 never does. -/
def Obligations.RegisterOutOfAllocation : Prop :=
  ∀ (s : State) (t : Thread) (i : Instr) (before after : List Reg) (r : Reg),
    threadOf s s.cur = some t → fieldsOf i = before ++ r :: after →
    (∀ q ∈ before, q = 0#6 ∨ q.toNat < t.regs.length) → r ≠ 0#6 → t.regs.length ≤ r.toNat →
    exec i s = trapped s t 0x04 t.pc (BitVec.ofNat 64 r.toNat)

/-- Trap entry saves the pc, the cause, the value and the mode, enters supervisor mode with INTRAP set, and goes to
the handler; what the thread's earlier loads and atomics still owed has returned, oldest first (R28), and otherwise the general
registers, the predicates, the loop and all else stand. A trap with no handler, or inside
one, halts the thread: its slot and registers are free, and a DOUBLE_TRAP record with the cause and the instruction's
address stands behind the launch's earlier records; other threads are untouched. -/
def Obligations.TrapTaken : Prop :=
   (∀ (s : State) (t : Thread) (cause : Nat) (epc tval : Word), Handled t →
      ∃ u : Thread, trap s s.cur t cause epc tval = setThread s s.cur u ∧
        u.epc = BitVec.ofNat 64 (epc.toNat / 4 * 4) ∧ u.cause = cause ∧ u.tval = tval ∧ u.pmode = t.mode ∧ u.mode = true ∧
        u.intrap = true ∧ u.pc = BitVec.ofNat 64 (t.tvec.toNat / 4 * 4) ∧ u.stat = .ready ∧
        u = { t.settle with epc := u.epc, cause := u.cause, tval := u.tval, pmode := u.pmode, mode := u.mode, intrap := u.intrap,
                            pc := u.pc, stat := u.stat } ∧
        (t.loads = [] → t.settle = t) ∧
        ∀ d v rest, t.loads = (d, v) :: rest → t.settle = { t.setG (BitVec.ofNat 6 d) v with loads := rest }.settle) ∧
   (∀ (s : State) (t : Thread) (cause : Nat) (epc tval : Word) (l : Launch),
      threadOf s s.cur = some t → launchOf s t.lseq = some l → t.tvec.toNat / 4 = 0 ∨ t.intrap = true →
      let s' := trap s s.cur t cause epc tval
      threadOf s' s.cur = none ∧
      (∀ tid, tid ≠ s.cur → threadOf s' tid = threadOf s tid) ∧
      (∃ l' r, launchOf s' t.lseq = some l' ∧ l'.fbHeld = l.fbHeld ++ [r] ∧ r.src = .thread s.cur ∧ r.held = false ∧
        r.bits / 2 ^ 56 % 2 ^ 8 = 0x09 ∧ r.bits / 2 ^ 48 % 2 ^ 8 = cause % 256 ∧ r.bits / 2 ^ 128 % 2 ^ 64 = t.pc.toNat ∧
        r.bits % 2 ^ 32 = t.lseq % 2 ^ 32 ∧ r.bits / 2 ^ 64 % 2 ^ 4 = t.slot % 16 ∧ r.bits / 2 ^ 72 % 2 ^ 7 = t.plot % 128 ∧
        r.bits / 2 ^ 192 = s.time % 2 ^ 64) ∧
      s'.mem = s.mem)

/-- TRAP and RETT: TRAP saves the address after itself and its number (R30, R290); RETT goes back to EPC with the saved mode and
INTRAP clear (R31, R291), and traps with PRIVILEGED in user mode (R23). -/
def Obligations.TrapAndReturn : Prop :=
  ∀ (s : State) (t : Thread) (e : BitVec 16), Serving s t [] →
    (Handled t → ∃ u : Thread, exec (.trap e) s = .next (setThread s s.cur u) ∧
      u.epc = BitVec.ofNat 64 ((t.pc.toNat + 4) % 2 ^ 64 / 4 * 4) ∧ u.cause = 1 ∧ u.tval = BitVec.ofNat 64 e.toNat ∧ u.pmode = t.mode ∧
      u.mode = true ∧ u.intrap = true ∧ u.pc = BitVec.ofNat 64 (t.tvec.toNat / 4 * 4) ∧ u.regs = t.settle.regs ∧ u.loads = [] ∧
      u.preds = t.preds) ∧
    (t.mode = true → exec .rett s = .next (setThread s s.cur
      { t with pc := BitVec.ofNat 64 (t.epc.toNat / 4 * 4), mode := t.pmode, intrap := false })) ∧
    (t.mode = false → exec .rett s = trapped s t 0x05 t.pc 0x8C000001#64)

/-! ## System instructions (13 R282, R289 to R295) -/

/-- MFS of every assigned register: the value its rule gives, reserved bits zero. -/
def Obligations.SystemRegisterReads : Prop :=
  ∀ (s : State) (t : Thread) (d : Reg) (l : Launch) (v : VD) (m : Monitor),
    Serving s t [d] → t.mode = true → launchOf s t.lseq = some l → vdOf s l.vd = some v →
    m = (lookup v.mons v.rmsel).getD { base := 0, en := false, limit := 0, nbase := 0, nen := false, nlimit := 0, win := 0 } →
    let reads := fun (n x : Nat) => exec (.mfs d (BitVec.ofNat 12 n)) s = completed s (t.setG d (BitVec.ofNat 64 x)) 4#64
    let bit := fun b : Bool => if b then 1 else 0
    reads 0x000 (s.time % 2 ^ 64) ∧ reads 0x001 t.tcmp.toNat ∧
    reads 0x002 (l.vd % 16 + 2 ^ 8 * (t.slot % 8) + 2 ^ 17 * (t.plot % 32 / 4) + 2 ^ 20 * (t.plot % 4) + 2 ^ 22 * (t.plot / 32)
      + 2 ^ 32 * t.regs.length) ∧
    reads 0x003 (bit t.mode + 2 * bit t.pmode + 4 * bit t.intrap) ∧
    reads 0x004 t.epc.toNat ∧ reads 0x005 t.cause ∧ reads 0x006 t.tval.toNat ∧ reads 0x007 t.tvec.toNat ∧
    reads 0x008 t.scratch.toNat ∧ reads 0x009 l.pkeys.toNat ∧
    reads 0x00A (l.fbHead + 2 ^ 32 * l.fbTail + 2 ^ 63 * bit l.fbOvf) ∧
    reads 0x00B (v.ptbase / 2 ^ 16 % 2 ^ 36 * 2 ^ 16) ∧ reads 0x00C ((lookup l.aflags (partOf l t.plot)).getD 0) ∧
    (∀ c, c < 4 → reads (0x00D + c) (t.pend.getD c 0)) ∧ reads 0x011 l.fbbase.toNat ∧ reads 0x012 l.owlint ∧
    reads 0x013 (v.slot + 2 ^ 20 * v.peer + 2 ^ 32 * v.engid) ∧ reads 0x014 v.qmask ∧ reads 0x015 v.rmsel ∧
    reads 0x016 (bit m.nen + 2 ^ 16 * m.nbase) ∧ reads 0x017 (2 ^ 16 * m.nlimit) ∧
    reads 0x018 t.lstart.toNat ∧ reads 0x019 t.lend.toNat ∧ reads 0x01A t.lcount.toNat ∧ reads 0x01B t.glseq ∧
    (∀ h, h < 16 → reads (0x020 + h) (match lookup t.handles h with
      | none => 0
      | some x => (x.tail + 2 ^ 32 - x.head) % 2 ^ 32 % 2 ^ 11 + 2 ^ 11 * x.log2n + 2 ^ 28 * bit x.div.isSome + 2 ^ 29 * bit x.eos
          + 2 ^ 30 * bit x.dirOut + 2 ^ 31 + 2 ^ 32 * x.head)) ∧
    (∀ h, h < 16 → reads (0x030 + h) ((lookup t.htags h).getD 0))

/-- MFS and MTS refused: an unassigned number, or a register without a writable field, traps with SYSREG_ACCESS and its
number, whatever the mode; an assigned register above the thread's mode with PRIVILEGED and the word; in supervisor mode a write
that needs a capability the device lacks with CAPABILITY and the word. The conditions exclude each other, so no order among them
is said. -/
def Obligations.SystemRegisterChecks : Prop :=
  ∀ (s : State) (t : Thread) (r : Reg) (n : BitVec 12), Serving s t [r] →
    let k := n.toNat
    let unassigned := 0x01C ≤ k ∧ k ≤ 0x01F ∨ 0x040 ≤ k
    let readOnly := k = 0x000 ∨ k = 0x002 ∨ k = 0x009 ∨ k = 0x00B ∨ 0x00D ≤ k ∧ k ≤ 0x010 ∨ k = 0x01B ∨ 0x020 ≤ k ∧ k ≤ 0x02F
    let readByS := 0x004 ≤ k ∧ k ≤ 0x006 ∨ k = 0x008 ∨ k = 0x00A ∨ k = 0x00B ∨ 0x011 ≤ k ∧ k ≤ 0x017
    let writtenByU := k = 0x001 ∨ k = 0x00C ∨ 0x030 ≤ k
    let word := fun i : Instr => ((encode i).headD 0#32).setWidth 64
    (unassigned → exec (.mfs r n) s = trapped s t 0x06 t.pc (BitVec.ofNat 64 k)) ∧
    (¬unassigned → readByS → t.mode = false → exec (.mfs r n) s = trapped s t 0x05 t.pc (word (.mfs r n))) ∧
    (unassigned ∨ readOnly → exec (.mts n r) s = trapped s t 0x06 t.pc (BitVec.ofNat 64 k)) ∧
    (¬unassigned → ¬readOnly → ¬writtenByU → t.mode = false → exec (.mts n r) s = trapped s t 0x05 t.pc (word (.mts n r))) ∧
    (t.mode = true → ∀ l v, launchOf s t.lseq = some l → vdOf s l.vd = some v →
      k = 0x013 ∧ v.caps / 2 % 2 = 0 ∨ 0x015 ≤ k ∧ k ≤ 0x017 ∧ v.caps / 4 % 2 = 0 →
      exec (.mts n r) s = trapped s t 0xC2 t.pc (word (.mts n r)))

/-- MTS of the registers of the thread itself: each takes the fields that can be written, and nothing else changes; STATUS
keeps MODE. -/
def Obligations.ThreadRegisterWrites : Prop :=
  ∀ (s : State) (t : Thread) (a : Reg), Serving s t [a] → ∀ x : Word, x = t.g a →
    let writes := fun (n : Nat) (u : Thread) => exec (.mts (BitVec.ofNat 12 n) a) s = completed s u 4#64
    let aligned := BitVec.ofNat 64 (x.toNat / 4 * 4)
    writes 0x001 { t with tcmp := x } ∧
    (∀ h, h < 16 → writes (0x030 + h) { t with htags := insert t.htags h (x.toNat % 2 ^ 12) }) ∧
    (t.mode = true →
      writes 0x003 { t with pmode := x.getLsbD 1, intrap := x.getLsbD 2 } ∧ writes 0x004 { t with epc := aligned } ∧
      writes 0x005 { t with cause := x.toNat % 2 ^ 8 } ∧ writes 0x006 { t with tval := x } ∧ writes 0x007 { t with tvec := aligned } ∧
      writes 0x008 { t with scratch := x } ∧ writes 0x018 { t with lstart := aligned } ∧ writes 0x019 { t with lend := aligned } ∧
      writes 0x01A { t with lcount := x })

/-- MTS of the registers of the context and the device that need no capability, and WRPK, which is a release at scope 3 as well:
flags cleared by ones, the fault ring's registers within their bounds, and the writes of FBSTAT and VDQMASK under their own rows
(log 18). -/
def Obligations.ContextRegisterWrites : Prop :=
  ∀ (s : State) (t : Thread) (a : Reg) (l : Launch) (v : VD),
    Serving s t [a] → launchOf s t.lseq = some l → vdOf s l.vd = some v → ∀ x : Word, x = t.g a →
    let launch := fun l' : Launch => completed (setLaunch s l') t 4#64
    let f := (lookup l.aflags (partOf l t.plot)).getD 0
    let head := x.toNat % 2 ^ 24
    exec (.wrpk a) s = completed (setLaunch (showStores s s.cur 3) { l with pkeys := x }) t 4#64 ∧
    (∃ g, exec (.mts 0x00C#12 a) s = launch { l with aflags := insert l.aflags (partOf l t.plot) g } ∧
      (f < 64 → ∀ j, g.testBit j = (f.testBit j && !x.getLsbD j))) ∧
    (t.mode = true →
      (∀ i ∈ [Instr.mts 0x00A#12 a, .fbstatWrite a],
        ((l.fbTail + 2 ^ 24 - head) % 2 ^ 24 ≤ 16 * 2 ^ (l.fbbase.toNat % 16) →
          exec i s = launch { l with fbHead := head, fbOvf := if x.getLsbD 63 then false else l.fbOvf }) ∧
        (16 * 2 ^ (l.fbbase.toNat % 16) < (l.fbTail + 2 ^ 24 - head) % 2 ^ 24 →
          exec i s = trapped s t 0x06 t.pc 0x00A#64)) ∧
      (x.toNat % 16 ≤ 12 → exec (.mts 0x011#12 a) s =
        launch { l with fbbase := BitVec.ofNat 64 (x.toNat / 2 ^ 12 % 2 ^ 44 * 2 ^ 12 + x.toNat % 16) }) ∧
      (12 < x.toNat % 16 → exec (.mts 0x011#12 a) s = trapped s t 0x06 t.pc 0x011#64) ∧
      exec (.mts 0x012#12 a) s = launch { l with owlint := x.toNat % 2 ^ 40 } ∧
      (∀ i ∈ [Instr.mts 0x014#12 a, .vdqmaskWrite a],
        exec i s = completed (setVd s l.vd { v with qmask := x.toNat % 2 ^ 16 }) t 4#64))

/-- ENGCTL: OP 1 opens a closed slot at its next epoch or joins a granted one, OP 2 closes or withdraws, OP 3 grants, OP 0
only sets the fields; every other case traps with KEY_SLOT and changes nothing. SLOT, PEER and ENGID take the values of the
write, and an open or close is a release at scope 4. That a close is scrubbed and closed within its step is the model's (log 30), as
is that rows 67 to 73 of the table are the MTS of their registers (log 18). -/
def Obligations.Engagements : Prop :=
  ∀ (s : State) (t : Thread) (a : Reg) (l : Launch) (v : VD), Serving s t [a] → t.mode = true →
    launchOf s t.lseq = some l → vdOf s l.vd = some v → v.caps / 2 % 2 = 1 → ∀ x : Nat, x = (t.g a).toNat →
    let k := x % 1024
    let peer := x / 2 ^ 20 % 16
    let op := x / 2 ^ 30 % 4
    let slot := slotOf s k
    let v' := { v with slot := k, peer := peer }
    let refused := trapped s t 0xC0 t.pc (BitVec.ofNat 64 k)
    let done := fun u : State => completed u t 4#64
    let released := fun u : State => done (showStores u s.cur 4)
    ∀ i ∈ [Instr.mts 0x013#12 a, .engagementOpen a, .engagementClose a, .engagementGrant a, .engctlSet a],
      (op = 0 → exec i s = done (setVd s l.vd v')) ∧
      (op = 1 → slot.st = .closed → exec i s = released (setVd
        (putSlot s k { st := .opened, epoch := if slot.epoch = 2 ^ 22 - 1 then 1 else slot.epoch + 1,
                       engid := k * 2 ^ 22 + (if slot.epoch = 2 ^ 22 - 1 then 1 else slot.epoch + 1), owner := l.vd, joined := [],
                       granted := [], openAt := s.time, closeAt := 0, holders := [], frames := [], plots := [], backs := [],
                       rings := [] }) l.vd
        { v' with engid := k * 2 ^ 22 + (if slot.epoch = 2 ^ 22 - 1 then 1 else slot.epoch + 1) })) ∧
      (op = 1 → slot.st = .opened → slot.granted.elem l.vd = true → exec i s =
        released (setVd (putSlot s k { slot with joined := addNat slot.joined l.vd }) l.vd { v' with engid := slot.engid })) ∧
      (op = 1 → slot.st = .opened → slot.granted.elem l.vd = false → exec i s = refused) ∧
      (op = 1 → slot.st = .scrubbing → exec i s = refused) ∧
      (op = 2 → slot.st = .opened → slot.owner = l.vd → ∃ u : State,
        (∀ u', threadOf u s.cur = some u' → exec i s = completed u u' 4#64) ∧ (threadOf u s.cur = none → exec i s = .next u) ∧
        (slotOf u k).st = .closed ∧ (slotOf u k).epoch = slot.epoch ∧ u.receipts ≠ [] ∧
        (∃ d, vdOf u l.vd = some d ∧ d.slot = k ∧ d.peer = peer ∧ d.engid = slot.engid) ∧ (∀ e ∈ u.stores, e.tid ≠ s.cur) ∧
        (∀ f ∈ slot.frames, ∀ b, b < 65536 → memGet u.mem (65536 * f + b) = 0#8) ∧
        (∀ r ∈ slot.backs ++ slot.rings, ∀ b, b < r.2 → memGet u.mem (r.1 + b) = 0#8)) ∧
      (op = 2 → slot.st = .opened → slot.owner ≠ l.vd → slot.joined.elem l.vd = true → exec i s =
        released (setVd (putSlot s k { slot with joined := slot.joined.filter (· != l.vd) }) l.vd { v' with engid := slot.engid })) ∧
      (op = 2 → (slot.st ≠ .opened ∨ slot.owner ≠ l.vd ∧ slot.joined.elem l.vd = false) → exec i s = refused) ∧
      (op = 3 → slot.st = .opened → slot.owner = l.vd → peer ≠ l.vd → exec i s =
        done (putSlot (setVd s l.vd v') k { slot with granted := addNat slot.granted peer })) ∧
      (op = 3 → (slot.st ≠ .opened ∨ slot.owner ≠ l.vd ∨ peer = l.vd) → exec i s = refused)

/-- The monitor registers (written by MTS alone or by their own row, log 18): RMSEL selects, and RMBASE and RMLIM set what the selected monitor takes at the next window
boundary; what is in force in this window stands. -/
def Obligations.MonitorRegisters : Prop :=
  ∀ (s : State) (t : Thread) (a : Reg) (l : Launch) (v : VD), Serving s t [a] → t.mode = true →
    launchOf s t.lseq = some l → vdOf s l.vd = some v → v.caps / 4 % 2 = 1 → ∀ x : Nat, x = (t.g a).toNat →
    let now := s.time / 1000000
    let m := (lookup v.mons v.rmsel).getD { base := 0, en := false, limit := 0, nbase := 0, nen := false, nlimit := 0, win := 0 }
    exec (.mts 0x015#12 a) s = completed (setVd s l.vd { v with rmsel := x % 16 }) t 4#64 ∧
    (∀ n : BitVec 12, n = 0x016#12 ∨ n = 0x017#12 → ∀ i ∈ [Instr.mts n a, .monitorConfigWrite n a], ∃ v' m',
      exec i s = completed (setVd s l.vd v') t 4#64 ∧ v' = { v with mons := v'.mons, monlogs := v'.monlogs } ∧
      lookup v'.mons v.rmsel = some m' ∧ (∀ j, j ≠ v.rmsel → lookup v'.mons j = lookup v.mons j) ∧
      (n = 0x016#12 → m'.nbase = x / 2 ^ 16 % 2 ^ 40 ∧ m'.nen = decide (x % 2 = 1) ∧ m'.nlimit = m.nlimit) ∧
      (n = 0x017#12 → m'.nlimit = x / 2 ^ 16 % 2 ^ 40 ∧ m'.nbase = m.nbase ∧ m'.nen = m.nen) ∧
      (∀ g, m'.covers now g = m.covers now g) ∧
      (∀ g, m'.covers (now + 1) g = (m'.nen && decide (m'.nbase ≤ g ∧ g ≤ m'.nlimit))))

/-- WFE completes at once where a record for its thread is queued or TIME has reached a non-zero TCMP, and else waits;
WFE_WAKE ends the wait on the same conditions; neither takes the record. GETEV takes the oldest record for the thread
out of its queue into four registers; without one it clears the predicate alone. -/
def Obligations.EventWaits : Prop :=
   (∀ (s : State) (t : Thread), 
      let ready := fun tid => (∃ r ∈ (plotOf s t.plot).evq, r.tid = tid) ∨ t.tcmp ≠ 0#64 ∧ t.tcmp.toNat ≤ s.time % 2 ^ 64
      (Serving s t [] →
        (ready s.cur → exec .wfe s = completed s t 4#64) ∧ (¬ready s.cur → exec .wfe s = waiting s t .wfe)) ∧
      (∀ tid, threadOf s tid = some t → t.stat = .waiting .wfe → runs s t.lseq = true → ready tid →
        exec (.wfeWake tid) s = .next (setThread s tid { t.next 4#64 with stat := .ready }))) ∧
   (∀ (s : State) (t : Thread) (p : Pred) (d : Reg), Serving s t [d] → d.toNat % 4 = 0 →
      let q := (plotOf s t.plot).evq
      ((∀ r ∈ q, r.tid ≠ s.cur) → exec (.getev p d) s = completed s (t.setP p false) 4#64) ∧
      (∀ before r after, q = before ++ r :: after → (∀ e ∈ before, e.tid ≠ s.cur) → r.tid = s.cur → ∃ u : Thread,
        exec (.getev p d) s = completed (setPlot s t.plot { plotOf s t.plot with evq := before ++ after }) u 4#64 ∧
        u = { t with regs := u.regs, preds := u.preds, loads := u.loads } ∧ u.preds = (t.setP p true).preds ∧
        (d.toNat + 4 ≤ t.regs.length → ∀ n : Reg, u.g n =
          if n = 0#6 then 0#64
          else if d.toNat ≤ n.toNat ∧ n.toNat < d.toNat + 4 then BitVec.ofNat 64 (r.bits / 2 ^ (64 * (n.toNat - d.toNat)))
          else t.g n)))

/-- MTT writes one tile descriptor of the thread's plot from memory, its reserved bits forced to zero. -/
def Obligations.TileDescriptorWrite : Prop :=
  ∀ (s : State) (t : Thread) (n : BitVec 5) (a : Reg) (s' : State) (l : Loc), Serving s t [a] →
    dataCheck s (threadCtx s t) .read (t.g a).toNat 64 64 = (s', .ok l) →
    let met := performStores s' (fun e => e.meets l.memAt 64 && e.tid != s.cur)
    ∃ d : BitVec 512, exec (.mtt n a) s = completed (setPlot (readEffect met l) t.plot
        { plotOf s t.plot with tiles := insert (plotOf s t.plot).tiles n.toNat d }) t 4#64 ∧
      ∀ b, b < 512 → d.getLsbD b = ((readLoc s' l 64).testBit b && (decide (b < 56) || decide (64 ≤ b ∧ b < 192)))

/-- HALT and TASKEND end the thread: it is gone with its registers and slot, its stores are visible to all, its task is no longer
running, its records leave its core's queue and stand behind the earlier records of the device's host stream in their order, and
no other thread, memory or processing element changes. YIELD changes only whom its core serves next. A core passes over the slot that yielded while another of its threads is eligible, and serves it where
none is. -/
def Obligations.HaltAndYield : Prop :=
   (∀ (s : State) (t : Thread), Serving s t [] →
      (∀ i ∈ [Instr.halt, .taskend], ∃ u, exec i s = .next u ∧ threadOf u s.cur = none ∧
        (∀ tid, tid ≠ s.cur → threadOf u tid = threadOf s tid) ∧ u.mem = s.mem ∧ u.pes = s.pes ∧ u.time = s.time ∧
        (∀ r ∈ (plotOf u t.plot).evq, r.tid ≠ s.cur) ∧ (∀ e ∈ u.stores, e.tid ≠ s.cur) ∧
        (∀ l d, launchOf s t.lseq = some l → vdOf s l.vd = some d →
          let records := ((plotOf s t.plot).evq.filter (fun r => r.tid == s.cur)).map (fun r => r.bits)
          vdOf u l.vd = some { d with events := d.events ++ records }) ∧
        (∀ l, launchOf s t.lseq = some l → ∃ l', launchOf u t.lseq = some l' ∧ l'.copyQ = l.copyQ ∧ l'.ports = l.ports ∧
          (∀ k, t.idx = some k → k ∈ l'.halted) ∧
          (∀ q n, t.task = some (q, n) → ∀ tq, lookup l'.tasks q = some tq → n ∉ tq.running))) ∧
      exec .yield s = completed (setPlot s t.plot { plotOf s t.plot with yieldedSlot := some t.slot }) t 4#64) ∧
   (∀ (s : State) (p y : Nat), (plotOf s p).yieldedSlot = some y → (∀ x ∈ eligibleAt s p, x.1 < 8) →
      ((∃ x ∈ eligibleAt s p, x.1 ≠ y) → ∃ c tid, pickThread s p = some (c, tid) ∧ c ≠ y ∧ (c, tid) ∈ eligibleAt s p) ∧
      ((∀ x ∈ eligibleAt s p, x.1 = y) → eligibleAt s p ≠ [] → ∃ tid, pickThread s p = some (y, tid)))

/-! ## Scales (16 R362 to R369) -/

/-- The scale words: operands read with both copies compared, the destination's holders checked, VALUE and DUP set to the
result, GEN and REF left, and the flags of the result added to the partition's; SMOV takes the low half of a register. -/
def Obligations.ScaleResults : Prop :=
  ∀ (s : State) (t : Thread) (l : Launch) (d a b : SName) (r : Reg) (bf16 : Bool) (rm : BitVec 2) (x y : BitVec 32),
    launchOf s t.lseq = some l →
    let p := plotOf s t.plot
    let entry := fun n : SName => srfGet p (nameEntry p n.toNat)
    let holds := fun (n : SName) v => (entry n).value = v ∧ (entry n).dup = v
    let writes := fun (v : BitVec 32) (f : Nat) => completed
      (raiseFlags (setPlot s t.plot (srfPut p (nameEntry p d.toNat) { entry d with value := v, dup := v })) t.lseq
        (partOf l t.plot) f) t 4#64
    (entry d).ref ≤ 1 →
    (Serving s t [] → holds a x →
      (holds b y →
        exec (.smul d a b) s = writes (scaleMul x y).1 (scaleMul x y).2 ∧ exec (.smax d a b) s = writes (scaleMax x y).1 0) ∧
      exec (.srcp d a) s = writes (scaleRcp x).1 (scaleRcp x).2 ∧ exec (.sexp2 d a) s = writes (scaleExp2 x).1 (scaleExp2 x).2 ∧
      exec (.scopy d a) s = writes (canonScale x) 0 ∧
      exec (.scvt d a bf16 rm) s = writes (scaleCvt bf16 rm x).1 (scaleCvt bf16 rm x).2) ∧
    (Serving s t [r] → exec (.smov d r) s = writes (canonScale ((t.g r).setWidth 32)) 0)

/-- A scale word whose operand's copies differ traps with SCALE_MISCOMPARE and that name, the first in its order, and
adds 128 to the plot's score; one whose destination has two holders or more traps with SCALE_SHARED and the
destination's name. SREAD, SBIND.S and SFREE: the value, generation and holders of a name; a free entry bound at 1.0
with one holder and its next generation and pinned; a pin released. A name above 255, an entry in use, and a name not
pinned trap. -/
def Obligations.ScaleTrapsAndBindings : Prop :=
   (∀ (s : State) (t : Thread) (r : Reg) (d a b : SName) (bf16 : Bool) (rm : BitVec 2),
      let p := plotOf s t.plot
      let entry := fun n : SName => srfGet p (nameEntry p n.toNat)
      let differs := fun n : SName => (entry n).value ≠ (entry n).dup
      let miscompare := fun n : SName =>
        Host.Outcome.next (addScore (trap s s.cur t 0x61 t.pc (BitVec.ofNat 64 n.toNat)) (unitPlot t.plot) 128)
      let reads := [Instr.smul d a b, .smax d a b, .srcp d a, .sexp2 d a, .scopy d a, .scvt d a bf16 rm]
      let shared := trapped s t 0x62 t.pc (BitVec.ofNat 64 d.toNat)
      (Serving s t [] → differs a → ∀ i ∈ reads, exec i s = miscompare a) ∧
      (Serving s t [] → ¬differs a → differs b → exec (.smul d a b) s = miscompare b ∧ exec (.smax d a b) s = miscompare b) ∧
      (Serving s t [] → ¬differs a → ¬differs b → 1 < (entry d).ref → ∀ i ∈ reads, exec i s = shared) ∧
      (Serving s t [r] → 1 < (entry d).ref → exec (.smov d r) s = shared) ∧
      (Serving s t [r] → differs a → exec (.sread r a) s = miscompare a)) ∧
   (∀ (s : State) (t : Thread) (d a : Reg) (n : SName),
      let p := plotOf s t.plot
      let x := t.g a
      let k := x.toNat
      let e := srfGet p (nameEntry p k)
      let m := srfGet p (nameEntry p n.toNat)
      (Serving s t [d] → m.value = m.dup →
        exec (.sread d n) s = completed s (t.setG d (BitVec.ofNat 64
          (m.value.toNat + 2 ^ 32 * seenGen p n.toNat + 2 ^ 40 * m.ref))) 4#64) ∧
      (Serving s t [d, a] →
        (k < 256 → e.ref = 0 →
          let p' := srfPut p (nameEntry p k)
            { value := 0x3F800000#32, dup := 0x3F800000#32, ref := 1, gen := if e.gen = 15 then 1 else e.gen + 1 }
          exec (.sbindS d a) s = completed (setPlot s t.plot p')
            ({ t with pins := addNat t.pins k }.setG d (BitVec.ofNat 64 (16 * k + seenGen p' k))) 4#64) ∧
        (256 ≤ k ∨ e.ref ≠ 0 → exec (.sbindS d a) s = trapped s t 0x62 t.pc x)) ∧
      (Serving s t [a] →
        (k < 256 → t.pins.elem k = true → exec (.sfree a) s =
          completed (setPlot s t.plot (srfPut p (nameEntry p k) { e with ref := e.ref - 1 }))
            { t with pins := t.pins.filter (· != k) } 4#64) ∧
        (256 ≤ k ∨ t.pins.elem k = false → exec (.sfree a) s = trapped s t 0x63 t.pc x)))

/-- The scale arithmetic on every operand, by the magnitude of a pattern in units of 2^-149. A NaN operand gives
0x7FC0_0000; 0 times an infinity too, with NV; the reciprocal of a zero is an infinity, with DZ. A product and a reciprocal of
finite operands are the FP32 value nearest to the exact one, the even of two that are equally near, an infinity from half a
unit above the greatest on, with OF, UF and NX as R117 says. SMAX picks the greater, and +0 over −0. SEXP2 of an integer is that
power of two; of other operands only the smallest and the infinities are said. SCVT rounds to BF16 and to E8M0 in each mode. SCOPY
keeps every pattern but a NaN's. -/
def Obligations.ScaleValues : Prop :=
  ∀ x y : BitVec 32,
    let ex := fun v : BitVec 32 => v.toNat / 2 ^ 23 % 2 ^ 8
    let nan := fun v : BitVec 32 => ex v = 255 ∧ v.toNat % 2 ^ 23 ≠ 0
    let inf := fun v : BitVec 32 => ex v = 255 ∧ v.toNat % 2 ^ 23 = 0
    let mag : BitVec 32 → Nat := fun v => if ex v = 0 then v.toNat % 2 ^ 23 else (2 ^ 23 + v.toNat % 2 ^ 23) * 2 ^ (ex v - 1)
    let num : BitVec 32 → Int := fun v => if v.msb then -(mag v : Int) else (mag v : Int)
    let infinity := fun neg : Bool => if neg then 0xFF800000#32 else 0x7F800000#32
    let zero := fun neg : Bool => if neg then 0x80000000#32 else 0x00000000#32
    -- the exact magnitude p / d, in units of 2^-149, rounded once
    let rounded := fun (neg : Bool) (p d : Nat) (r : BitVec 32 × Nat) =>
      let off := fun v : BitVec 32 => ((p : Int) - mag v * d).natAbs
      ((2 ^ 25 - 1) * 2 ^ 252 * d ≤ p → r = (infinity neg, 5)) ∧
      (p < (2 ^ 25 - 1) * 2 ^ 252 * d → ex r.1 < 255 ∧ r.1.msb = neg ∧
        (∀ w, ex w < 255 → off r.1 ≤ off w ∧ (off r.1 = off w → mag w ≠ mag r.1 → r.1.toNat % 2 = 0)) ∧
        r.2 = if p = mag r.1 * d then 0 else if p < 2 ^ 23 * d then 3 else 1)
    (nan x ∨ nan y → (scaleMul x y).1 = 0x7FC00000#32 ∧ scaleMax x y = (0x7FC00000#32, 0)) ∧
    (nan x → (scaleRcp x).1 = 0x7FC00000#32 ∧ (scaleExp2 x).1 = 0x7FC00000#32 ∧ canonScale x = 0x7FC00000#32 ∧
      ∀ bf16 rm, scaleCvt bf16 rm x = (0x7FC00000#32, 0)) ∧
    (¬nan x → canonScale x = x ∧ scaleMul x 0x3F800000#32 = (x, 0) ∧ scaleMax x x = (x, 0)) ∧
    (mag x = 0 → inf y → scaleMul x y = (0x7FC00000#32, 16) ∧ scaleMul y x = (0x7FC00000#32, 16)) ∧
    (¬nan x → mag x ≠ 0 → inf y → scaleMul x y = (infinity (x.msb != y.msb), 0) ∧ scaleMul y x = (infinity (x.msb != y.msb), 0)) ∧
    (ex x < 255 → ex y < 255 → (mag x = 0 ∨ mag y = 0 → scaleMul x y = (zero (x.msb != y.msb), 0)) ∧
      (mag x ≠ 0 → mag y ≠ 0 → rounded (x.msb != y.msb) (mag x * mag y) (2 ^ 149) (scaleMul x y))) ∧
    (mag x = 0 → scaleRcp x = (infinity x.msb, 8)) ∧ (inf x → scaleRcp x = (zero x.msb, 0)) ∧
    (ex x < 255 → mag x ≠ 0 → rounded x.msb (2 ^ 298) (mag x) (scaleRcp x)) ∧
    (¬nan x → ¬nan y → num x < num y → scaleMax x y = (y, 0) ∧ scaleMax y x = (y, 0)) ∧
    scaleMax 0x80000000#32 0x00000000#32 = (0x00000000#32, 0) ∧ scaleMax 0x00000000#32 0x80000000#32 = (0x00000000#32, 0) ∧
    (inf x → scaleExp2 x = (zero false, 0) ∨ scaleExp2 x = (infinity false, 0)) ∧
    (inf x → (scaleExp2 x = (zero false, 0) ↔ x.msb = true)) ∧
    (mag x ≠ 0 → mag x < 2 ^ 123 → scaleExp2 x = (0x3F800000#32, 1)) ∧
    (∀ n : Int, ex x < 255 → num x = n * 2 ^ 149 →
      (-149 ≤ n → n ≤ 127 → ∃ r, scaleExp2 x = (r, 0) ∧ r.msb = false ∧ mag r = 2 ^ (n + 149).toNat) ∧
      (127 < n → scaleExp2 x = (infinity false, 5)) ∧ (n < -149 → scaleExp2 x = (zero false, 3))) ∧
    (∀ rm : BitVec 2, ¬nan x →
      let low := x.toNat % 2 ^ 16
      let down := x.toNat - low
      let up : Bool := match rm.toNat with
        | 0 => decide (2 ^ 15 < low) || decide (low = 2 ^ 15) && decide (down / 2 ^ 16 % 2 = 1)
        | 1 => false
        | 2 => !x.msb && low != 0
        | _ => x.msb && low != 0
      let r := BitVec.ofNat 32 (if up then down + 2 ^ 16 else down)
      scaleCvt true rm x = (r, if low = 0 then 0 else if ex r = 255 then 5 else if ex x = 0 then 3 else 1)) ∧
    (∀ rm : BitVec 2,
      (mag x = 0 ∨ x.msb = true → ¬nan x → scaleCvt false rm x = (0x7FC00000#32, 16)) ∧
      (inf x → x.msb = false → scaleCvt false rm x = (0x7F000000#32, 4)) ∧
      (∀ j, x.msb = false → ex x < 255 → 2 ^ j ≤ mag x → mag x < 2 ^ (j + 1) →
        let up : Bool := match rm.toNat with
          | 0 => decide (3 * 2 ^ j < 2 * mag x) || decide (3 * 2 ^ j = 2 * mag x) && decide (j % 2 = 1)
          | 2 => decide (mag x ≠ 2 ^ j)
          | _ => false
        let k := if up then j + 1 else j
        ∃ r f, scaleCvt false rm x = (r, f) ∧ r.msb = false ∧ mag r = 2 ^ Nat.min 276 (Nat.max 22 k) ∧
          f = if 276 < k then 5 else if k < 22 then 3 else if mag x = 2 ^ j then 0 else 1))

/-! ## Commands (14 R298 to R325; 06 R144 to R164) -/

/-- SBIND in both forms: a port that is none, or holds the other form, is turned away; a record that passes its checks is
appended to the port, with its bytes added to the counter; a handle is bound to the port, or to a divert ring. During a
swap of the launch both wait (R397); that the handle form waits as well, and its TVAL under STREAM_RECORD, are the model's
reading (log 37). A ring that overlaps the FIFO pages of its plot traps with WINDOW_DENIED and the first such address. -/
def Obligations.StreamBindings : Prop :=
  ∀ (s : State) (t : Thread) (l : Launch) (port : BitVec 13) (a u : Reg), Serving s t [a, u] → launchOf s t.lseq = some l →
    let p := port.toNat
    let n := l.variant.node p
    let x := t.g a
    (∀ c : BitVec 2,
      let i := Instr.sbind c port a u
      let refused := fun s' => trapped s' t 0x2A t.pc x
      (l.swap ≠ none → exec i s = waiting s t .swap) ∧
      (l.swap = none → (0x1000 ≤ p ∨ l.variant.nodes.length ≤ p ∨ isPort n.hrec = false ∨ (l.port p).hasForm true = true) →
        exec i s = refused s) ∧
      (∀ s' raw, l.swap = none → p < 0x1000 → p < l.variant.nodes.length → isPort n.hrec = true → (l.port p).hasForm true = false →
        loadBlock s (threadCtx s t) x.toNat 64 64 = (s', .ok raw) →
        let r := parseRec x.toNat raw
        (recOk raw r n.hrec (portClass l.variant n) n.srfn = false ∨ r.chase ≠ isChase n.hrec ∨ 2 ^ 40 ≤ r.bytes →
          exec i s = refused s') ∧
        (recOk raw r n.hrec (portClass l.variant n) n.srfn = true → r.chase = isChase n.hrec → r.bytes < 2 ^ 40 →
          t.pend.getD c.toNat 0 + r.bytes < 2 ^ 40 → (l.port p).waiting = none →
          exec i s = goesOn (setLaunch s' (l.setPort p ((l.port p).bind
              (.stream r s.cur t.plot t.slot c.toNat (t.g u) l.pkeys r.bytes)))) s.cur (addPend t c.toNat r.bytes) 8#64))) ∧
    (∀ h ln : BitVec 4,
      let i := Instr.sbindHandle h port a ln u
      let refused := trapped s t 0x83 t.pc (wordOf i)
      let bound := fun hd => { t with handles := insert t.handles h.toNat hd }
      let busy := ∃ y, lookup t.handles h.toNat = some y ∧ (y.div ≠ none ∨ y.eos = false)
      let size := 128 * 2 ^ ln.toNat
      (l.swap ≠ none → exec i s = waiting s t .swap) ∧
      (l.swap = none → p < 0x1000 →
        ((l.variant.nodes.length ≤ p ∨ (isLoads n.hrec = false ∧ isStores n.hrec = false) ∨ busy ∨ x.toNat % 128 ≠ 0 ∨
          scratchSize < x.toNat + size) → exec i s = refused) ∧
        (p < l.variant.nodes.length → isLoads n.hrec = true ∨ isStores n.hrec = true → ¬busy → x.toNat % 128 = 0 →
          x.toNat + size ≤ scratchSize →
          (scratchSize - 4096 * fifoPages s t.plot < x.toNat + size → exec i s = trapped s t 0x25 t.pc
            (BitVec.ofNat 64 (Nat.max x.toNat (scratchSize - 4096 * fifoPages s t.plot)))) ∧
          (x.toNat + size ≤ scratchSize - 4096 * fifoPages s t.plot →
          ((l.port p).hasForm false = true → exec i s = trapped s t 0x2A t.pc x) ∧
          ((l.port p).hasForm false = false → (l.port p).waiting = none →
            exec i s = goesOn (setLaunch s (l.setPort p ((l.port p).bind (.handle s.cur h.toNat t.plot t.slot (t.g u))))) s.cur
              (bound { dirOut := isLoads n.hrec, base := x.toNat, log2n := ln.toNat, head := 0, tail := 0, eos := false,
                       eosAt := false, tags := [], div := none, node := p, user := t.g u }) 8#64)))) ∧
      (l.swap = none → 0x1000 ≤ p → ∀ q, q = p - 0x1000 →
        ((l.variant.parts.length ≤ q ∨ busy ∨ x ≠ 0#64 ∨ ln ≠ 7#4 ∨ (l.hnode q).bound ≠ none) → exec i s = refused) ∧
        (q < l.variant.parts.length → ¬busy → x = 0#64 → ln = 7#4 → (l.hnode q).bound = none →
          exec i s = goesOn (modLaunch (handlerNodeWork s l.lseq q) l.lseq
              (fun l => l.setHnode q { l.hnode q with bound := some (s.cur, h.toNat), wrote := 0 })) s.cur
            (bound { dirOut := false, base := ringBase, log2n := 7, head := 0, tail := 0, eos := false, eosAt := false, tags := [],
                     div := some q, node := 0, user := t.g u }) 8#64)))

/-- CPY, CPY.T and CPYM: malformed commands trap; the others enter the queue of their die's engine with their bytes added
to the counter, and keep the protection keys of their issue. -/
def Obligations.Copies : Prop :=
  ∀ (s : State) (t : Thread) (l : Launch) (c : BitVec 2) (q : BitVec 4) (d a n u : Reg), launchOf s t.lseq = some l →
    let key := t.plot / 32 * 16 + q.toNat
    let queue := lookupD l.copyQ key []
    let job := fun (op : CopyOp) (len : Nat) => CopyEnt.op
      { op := op, total := len, pkeys := l.pkeys, tid := s.cur, ctr := c.toNat, plot := t.plot, slot := t.slot, user := t.g u,
        pos := 0, part := 0, uncorr := false, snap := [], olds := [], pages := [], held := false, retryAt := 0, retryNow := false, waitLoad := false }
    let issued := fun (op : CopyOp) (len : Nat) =>
      goesOn (setLaunch s { l with copyQ := insert l.copyQ key (queue ++ [job op len]) }) s.cur (addPend t c.toNat len) 8#64
    let room := fun len => t.pend.getD c.toNat 0 + len < 2 ^ 40 ∧ queue.length < 64
    let bad := fun i (x : Nat) => trapped s t x t.pc (wordOf i)
    let desc := fun (x : Word) (p : Nat) (y : BitVec 512) => x.toNat < 2 ^ 21 ∧ l.place.plots[x.toNat / 32]? = some p ∧
      y = lookupD (plotOf s p).tiles (x.toNat % 32) 0#512
    let f := fun (y : BitVec 512) hi lo => y.toNat / 2 ^ lo % 2 ^ (hi + 1 - lo)
    let sound := fun x y => f x 135 135 = 1 ∧ f y 135 135 = 1 ∧ (f x 133 132 = 0 ∨ f x 133 132 = 3) ∧
      (f y 133 132 = 0 ∨ f y 133 132 = 3) ∧ f x 79 64 = f y 79 64 ∧ f x 95 80 = f y 95 80
    let bytes := fun y => (f y 79 64 + 1) * (f y 95 80 + 1)
    (Serving s t [d, a, n, u] → ∀ len, len = (t.g n).toNat →
      (len = 0 ∨ 2 ^ 40 ≤ len → exec (.cpy c q d a n u) s = bad (.cpy c q d a n u) 0x80) ∧
      (0 < len → len < 2 ^ 40 → room len → exec (.cpy c q d a n u) s = issued (.linear (t.g d).toNat (t.g a).toNat len) len)) ∧
    (Serving s t [d, a, u] → ∀ pd ps x y, desc (t.g d) pd x → desc (t.g a) ps y →
      (¬sound x y → exec (.cpyT c q d a u) s = bad (.cpyT c q d a u) 0x81) ∧
      (sound x y → room (bytes x) → exec (.cpyT c q d a u) s = issued (.tile x y pd ps none) (bytes x))) ∧
    (Serving s t [d, a, u] → ((∀ pd x, ¬desc (t.g d) pd x) ∨ ∀ ps y, ¬desc (t.g a) ps y) →
      exec (.cpyT c q d a u) s = bad (.cpyT c q d a u) 0x80) ∧
    (Serving s t [d, a, n, u] → ∀ pd ps x y, desc (t.g d) pd x → desc (t.g a) ps y → ∀ m, m = (t.g n).toNat →
      let formed := m / 2 ^ 8 % 2 ^ 24 = 0 ∧ m % 8 = 1 ∧ m / 8 % 32 = (t.g d).toNat % 32
      (¬sound x y → exec (.cpym c q d a n u) s = bad (.cpym c q d a n u) 0x81) ∧
      (sound x y → ¬formed → exec (.cpym c q d a n u) s = bad (.cpym c q d a n u) 0x80) ∧
      (sound x y → formed → f x 134 134 = 0 → exec (.cpym c q d a n u) s = bad (.cpym c q d a n u) 0x81) ∧
      (sound x y → formed → f x 134 134 = 1 → room (bytes x) →
        exec (.cpym c q d a n u) s = issued (.tile x y pd ps (some (m / 2 ^ 32))) (bytes x)))

/-- QFENCE, QFENCE.COLL, POSTC and EVPOST: a fence joins the tail of every queue that its mask names, behind the operations there;
one of the collective queues that finds no operation in any of them may pass at once, as may a fence that it lets through, and no
operation leaves its queue. POSTC and EVPOST are releases at scope 3: a task record joins its queue under the next number, and a
posted event becomes a record for the slot it names. -/
def Obligations.FencesTasksEvents : Prop :=
  ∀ (s : State) (t : Thread) (l : Launch), launchOf s t.lseq = some l →
    (∀ m : BitVec 16, Serving s t [] →
      let named := fun (base key : Nat) => base ≤ key ∧ key < base + 16 ∧ m.getLsbD (key - base) = true
      ((∀ k, named (t.plot / 32 * 16) k → (lookupD l.copyQ k []).length < 64) → ∃ l' : Launch,
        exec (.qfence m) s = goesOn (setLaunch s l') s.cur t 4#64 ∧
        l' = { l with fences := l.fences + 1, copyQ := l'.copyQ } ∧
        ∀ k, (named (t.plot / 32 * 16) k → lookupD l'.copyQ k [] = lookupD l.copyQ k [] ++ [.fence l.fences t.plot]) ∧
          (¬named (t.plot / 32 * 16) k → lookupD l'.copyQ k [] = lookupD l.copyQ k [])) ∧
      ((∀ k, named (t.plot / 32 % 2 * 16) k → (lookupD l.collQ k []).length < 64) → l.lseq = t.lseq →
        (∀ q ∈ l.collQ, CollEnt.fence l.fences t.plot ∉ q.2) → ∃ (l' : Launch) (stays : CollEnt → Bool),
        exec (.qfenceColl m) s = goesOn (setLaunch s l') s.cur t 4#64 ∧
        l' = { l with fences := l.fences + 1, collQ := l'.collQ } ∧
        (∀ k, lookupD l'.collQ k [] = (lookupD l.collQ k [] ++
          if named (t.plot / 32 % 2 * 16) k then [CollEnt.fence l.fences t.plot] else []).filter stays) ∧
        (∀ j, stays (CollEnt.op j) = true) ∧
        ((∃ k j, named (t.plot / 32 % 2 * 16) k ∧ CollEnt.op j ∈ lookupD l.collQ k []) → stays (CollEnt.fence l.fences t.plot) = true))) ∧
    (∀ (q : BitVec 4) (a : Reg) (s' : State) (raw : Nat), Serving s t [a] →
      loadBlock s (threadCtx s t) (t.g a).toNat 64 64 = (s', .ok raw) →
      let tq := lookupD l.tasks q.toNat TaskQ.empty
      let f := fun hi lo => raw / 2 ^ lo % 2 ^ (hi + 1 - lo)
      let formed := f 1 0 = 0 ∧ f 135 128 ≤ 64 ∧ f 151 144 ≤ 5 ∧ f 143 137 = 0 ∧ f 191 152 = 0
      (¬formed → exec (.postc q a) s = trapped s' t 0x82 t.pc (wordOf (.postc q a))) ∧
      let rec_ : Task := { num := tq.next, entry := f 63 0, hash := f 127 64, nreq := f 135 128, barrier := decide (f 136 136 = 1),
                           args := (List.range (f 151 144)).map (fun i => BitVec.ofNat 64 (f (255 + 64 * i) (192 + 64 * i))) }
      let tq' := { tq with recs := tq.recs ++ [rec_], next := tq.next + 1 }
      (formed → tq.recs.length < 4096 →
        exec (.postc q a) s = goesOn (setLaunch (showStores s' s.cur 3) { l with tasks := insert l.tasks q.toNat tq' }) s.cur t 4#64)) ∧
    (∀ (n : BitVec 3) (a b : Reg), Serving s t [a, b] →
      (l.place.plots[(t.g a).toNat]? = none → exec (.evpost n a b) s = trapped s t 0x80 t.pc (wordOf (.evpost n a b))) ∧
      (∀ p, l.place.plots[(t.g a).toNat]? = some p → eventRoom s t.lseq p n.toNat = true →
        let e : Event := { vd := l.vd, lseq := t.lseq, plot := p, slot := n.toNat, kind := 1, status := 0, cause := 0,
                           queue := 0, user := t.g b, count := 0, toHost := false, tid := none, src := none, left := none, flow := [] }
        exec (.evpost n a b) s = goesOn (post (showStores s s.cur 3) e) s.cur t 4#64))

/-- COLL: with its blocks read and its fields in their ranges, the participant's operation enters the queue of its I/O
die with its bytes added to the counter, and the participant joins its collective, the command acting as a release (R209); else
ENGINE_RECORD (0x80, R317). -/
def Obligations.CollectiveIssue : Prop :=
  ∀ (s : State) (t : Thread) (l : Launch) (op : CollOp) (red : CollRed) (fmt : CollFmt) (sc : Bool) (c : BitVec 2) (q : BitVec 4)
    (a : Reg) (root : BitVec 10) (u : Reg) (s1 s2 s3 : State) (hdr ent : Nat) (ms : List Nat)
    (vd : VD), Serving s t [a, u] → launchOf s t.lseq = some l → vdOf s l.vd = some vd →
    let i := Instr.coll op red fmt sc c q a root u
    let base := (t.g a).toNat
    let ctx := threadCtx s t
    let f := fun (x hi lo : Nat) => x / 2 ^ lo % 2 ^ (hi + 1 - lo)
    let n := f hdr 79 64
    let my := f hdr 95 80
    let len := f hdr 191 128
    let total := collOut op n len my root.toNat * collBytes fmt
    let formed := f hdr 127 96 = 0 ∧ f hdr 255 192 = 0 ∧ f ent 63 8 = 0 ∧ 1 ≤ n ∧ n ≤ 1024 ∧ my < n ∧ len < 2 ^ 32 ∧
      (sc = false → f ent 255 192 = 0) ∧ (sc = true → f ent 255 192 % 4 = 0) ∧ f ent 7 0 = vd.domix ∧ root.toNat < n ∧
      (op = .reducescatter → len % n = 0) ∧ total < 2 ^ 40
    let key := t.plot / 32 % 2 * 16 + q.toNat
    loadBlock s ctx base 32 32 = (s1, .ok hdr) → loadBlock s1 ctx ((base + 32 + 32 * my) % 2 ^ 64) 32 32 = (s2, .ok ent) →
    (¬formed → exec i s = trapped s2 t 0x80 t.pc (wordOf i)) ∧
    (formed → readModules s2 ctx base my (f ent 7 0) 0 n = (s3, .ok ms) →
      ((∃ m ∈ ms, 63 < m ∨ vd.domain = 0 ∧ m ≠ 0) → exec i s = trapped s3 t 0x80 t.pc (wordOf i)) ∧
      ((∀ m ∈ ms, m ≤ 63 ∧ (vd.domain = 0 → m = 0)) → t.pend.getD c.toNat 0 + total < 2 ^ 40 →
        (lookupD l.collQ key []).length < 64 → ∃ (l' : Launch) (j : CollJob) (k : Nat) (co : Coll) (p : CollPart),
        exec i s = goesOn { setLaunch (showStores s3 s.cur 5) l' with colls := insert s3.colls k co } s.cur (addPend t c.toNat total) 8#64 ∧
        l' = { l with colls := l'.colls, collQ := insert l.collQ key (lookupD l.collQ key [] ++ [.op j]) } ∧
        j = { coll := k, rank := my, total := total, tid := s.cur, ctr := c.toNat, plot := t.plot, slot := t.slot, user := t.g u } ∧
        p ∈ co.parts ∧ p = { rank := my, vd := l.vd, lseq := l.lseq, part := p.part, key := key, inva := f ent 127 64,
                             outva := f ent 191 128, scaleva := f ent 255 192, modules := ms, wrote := 0 }))

/-- SBAR and GBAR complete at once or wait, GBAR as a release at scope 3; SBAR_COMPLETE, GBAR_COMPLETE and COMMAND_ISSUE end the wait of a thread whose
launch runs, on the same conditions, and do nothing before. -/
def Obligations.BarriersAndWaits : Prop :=
  ∀ (s : State) (t : Thread),
    (∀ m : BitVec 4, Serving s t [] →
      let zero := ∀ c, c < 4 → m.getLsbD c = true → t.pend.getD c 0 = 0
      (zero → exec (.sbar m) s = completed s t 4#64) ∧ (¬zero → exec (.sbar m) s = waiting s t (.sbar m.toNat))) ∧
    (∀ (g : BitVec 8) (l : Launch), Serving s t [] → launchOf s t.lseq = some l →
      ((arrivals t g.toNat = none ∨ listed l.groups g.toNat = false) →
        exec (.gbar g) s = trapped s t 0x84 t.pc (wordOf (.gbar g))) ∧
      (∀ n, arrivals t g.toNat = some n → listed l.groups g.toNat = true →
        let u := t.arrive g.toNat
        let all := gbarDone (setThread s s.cur u) t.lseq g.toNat (n + 1)
        (all = true → exec (.gbar g) s = completed (showStores s s.cur 3) u 4#64) ∧
        (all = false → exec (.gbar g) s = waiting (showStores s s.cur 3) u (.gbar g.toNat)))) ∧
    (∀ tid, threadOf s tid = some t → runs s t.lseq = true →
      (∀ m, t.stat = .waiting (.sbar m) →
        ((∀ c, c < 4 → m / 2 ^ c % 2 = 1 → t.pend.getD c 0 = 0) → exec (.sbarComplete tid) s = goesOn s tid t 4#64) ∧
        (∀ c, c < 4 → m / 2 ^ c % 2 = 1 → t.pend.getD c 0 ≠ 0 → exec (.sbarComplete tid) s = .next s)) ∧
      (∀ g, t.stat = .waiting (.gbar g) →
        (gbarDone s t.lseq g ((arrivals t g).getD 0) = true → exec (.gbarComplete tid) s = goesOn s tid t 4#64) ∧
        (gbarDone s t.lseq g ((arrivals t g).getD 0) = false → exec (.gbarComplete tid) s = .next s)) ∧
      (∀ (op : Issue) (len : Word), t.stat = .waiting (.cmd op len) →
        (canIssue s t op = false → exec (.commandIssue tid) s = .next s) ∧
        (∀ (l : Launch) k c n j, launchOf s t.lseq = some l → op = .copy k c n (.op j) → t.pend.getD c 0 + n < 2 ^ 40 →
          (lookupD l.copyQ k []).length < 64 → exec (.commandIssue tid) s =
            goesOn (setLaunch s { l with copyQ := insert l.copyQ k (lookupD l.copyQ k [] ++ [.op { j with pkeys := l.pkeys }]) })
              tid (addPend t c n) len)))

/-- The handle instructions: what each waits for, what it moves, and the words of scratch that it reads and writes, for a divert
handle those of the handler node's plot; what CBGET reads of another thread's stores is visible to all from then on (R108). An
unbound handle, one of the other direction, a count outside the ring's slots and a
handle tag that R371 refuses trap with CB_STATE (0x83). What CBADV does with the verdicts of a divert ring and with a tag that
R371 admits is left out here. -/
def Obligations.Handles : Prop :=
  ∀ (s : State) (t : Thread) (l : Launch) (h : BitVec 4) (n slot : BitVec 11) (el : BitVec 4) (d : Reg),
    launchOf s t.lseq = some l →
    let ours := lookup t.handles h.toNat
    let misuse := fun i => exec i s = trapped s t 0x83 t.pc (wordOf i)
    let N := fun x : Handle => 2 ^ x.log2n
    let full := fun x : Handle => (x.tail + 2 ^ 32 - x.head) % 2 ^ 32
    let suits := fun (x : Handle) out => x.dirOut = out ∧ 1 ≤ n.toNat ∧ n.toNat ≤ N x
    let put := fun (x : Handle) => { t with handles := insert t.handles h.toNat x }
    (Serving s t [] →
      (∀ i ∈ [Instr.cbwaitf h n, .cbwaite h n, .cbadv h n, .cbadvEos h n], ours = none → misuse i) ∧
      (∀ x, ours = some x →
        (¬suits x false → misuse (.cbwaitf h n)) ∧ (¬suits x true → misuse (.cbwaite h n) ∧ misuse (.cbadvEos h n)) ∧
        (suits x false →
          (n.toNat ≤ full x ∨ x.eos = true → exec (.cbwaitf h n) s = completed s t 4#64) ∧
          (full x < n.toNat → x.eos = false → exec (.cbwaitf h n) s = waiting s t (.cbFull h.toNat n.toNat)) ∧
          (full x < n.toNat → misuse (.cbadv h n)) ∧
          (n.toNat ≤ full x → x.div = none →
            exec (.cbadv h n) s = completed s (put { x with head := (x.head + n.toNat) % 2 ^ 32 }) 4#64)) ∧
        (suits x true →
          (n.toNat + full x ≤ N x → exec (.cbwaite h n) s = completed s t 4#64) ∧
          (N x < n.toNat + full x →
            exec (.cbwaite h n) s = waiting s t (.cbEmpty h.toNat n.toNat)) ∧
          (x.eosAt = true ∨ N x < n.toNat + full x → misuse (.cbadv h n) ∧ misuse (.cbadvEos h n)) ∧
          (x.eosAt = false → n.toNat + full x ≤ N x → lookupD t.htags h.toNat 0 ≠ 0 →
            let tag := lookupD t.htags h.toNat 0
            l.place.plotOf x.node ≠ t.plot ∨ tag / 16 ∉ t.pins ∨ seenGen (plotOf s t.plot) (tag / 16) ≠ tag % 16 →
            misuse (.cbadv h n) ∧ misuse (.cbadvEos h n)) ∧
          (x.eosAt = false → n.toNat + full x ≤ N x → lookupD t.htags h.toNat 0 = 0 →
            exec (.cbadv h n) s = completed s (put { x with tail := (x.tail + n.toNat) % 2 ^ 32 }) 4#64 ∧
            exec (.cbadvEos h n) s = completed s (put { x with tail := (x.tail + n.toNat) % 2 ^ 32, eosAt := true }) 4#64)))) ∧
    (∀ tid, threadOf s tid = some t → runs s t.lseq = true → ∀ (x : Handle) (k m : Nat), lookup t.handles k = some x →
      ((t.stat = .waiting (.cbFull k m) ∧ (m ≤ full x ∨ x.eos = true) ∨ t.stat = .waiting (.cbEmpty k m) ∧ m + full x ≤ N x) →
        exec (.cbWaitComplete tid) s = goesOn s tid t 4#64)) ∧
    (Serving s t [d] → ∀ x, ours = some x →
      let at_ := fun from_ => x.base + 128 * ((from_ + slot.toNat) % N x) + 8 * el.toNat
      let p := match x.div with | some q => l.place.hnode.getD q awayPlot | none => t.plot
      let there := fun w => listed s.backed (2048 * p + w / 4096) = false
      -- a word of the ring's scratch written: stores that it overlaps, and those under them, are visible from then on
      let puts := fun (w v : Nat) => ∃ u : State, exec (.cbput h slot el d) s = completed u t 4#64 ∧ u = { s with
        mem := writeRaw s.mem (scratchAddr p w) 8 v, pages := u.pages
        stores := (dropStores s (fun e => e.meets (scratchAddr p w) 8)).stores }
      let element := 2 ^ 63 * ((t.g d).toNat / 2 ^ 63) + (t.g d).toNat % 2 ^ 40
      let odd := (x.head + slot.toNat) % 2 = 1
      (x.dirOut = true ∨ full x ≤ slot.toNat → misuse (.cbget d h slot el)) ∧
      (x.dirOut = false → slot.toNat < full x →
        (there (at_ x.head) → exec (.cbget d h slot el) s = completed
          (performStores (touchPage s p (at_ x.head)) (fun e => e.meets (scratchAddr p (at_ x.head)) 8 && e.tid != s.cur))
          (t.setG d (BitVec.ofNat 64 (readRaw s.mem (scratchAddr p (at_ x.head)) 8))) 4#64) ∧
        (¬there (at_ x.head) → exec (.cbget d h slot el) s = waiting s t (.backing p (at_ x.head / 4096)))) ∧
      (x.dirOut = true → slot.toNat + full x < N x → x.div = none → there (at_ x.tail) → puts (at_ x.tail) element) ∧
      (x.dirOut = false → slot.toNat < full x → x.div ≠ none → there (at_ x.head) →
        (odd → puts (at_ x.head) element) ∧
        (¬odd → el = 6#4 ∨ el = 7#4 → puts (at_ x.head) (t.g d).toNat) ∧
        (¬odd → el ≠ 6#4 → el ≠ 7#4 → misuse (.cbput h slot el d))) ∧
      (x.dirOut = true → N x ≤ slot.toNat + full x → misuse (.cbput h slot el d)) ∧
      (x.dirOut = false → x.div = none → misuse (.cbput h slot el d)))

/-- The graph commands: a malformed block, a target that does not exist, one that the thread may not name, and a USER field are
turned away, in the order that R318 lists them (R298; log 28); else each acts on its target as its rule says. GLAUNCH and GLOADSH are releases at scope 4. That GDRAIN of a
launch frozen for another reason holds it for the drain as well is the model's reading (log 51). -/
def Obligations.GraphCommands : Prop :=
  ∀ (s : State) (t : Thread) (own : Launch) (a u : Reg), Serving s t [a, u] → launchOf s t.lseq = some own →
    let five := [Instr.gloadsh a u, .gswap a u, .gdrain a u, .gresume a u, .gend a u]
    let bad := fun s' i => trapped s' t 0x80 t.pc (wordOf i)
    (∀ s' c v, loadBlock s (threadCtx s t) (t.g a).toNat 32 32 = (s', .bad c v) →
      ∀ i ∈ five, exec i s = trapped s' t c t.pc (BitVec.ofNat 64 v)) ∧
    (∀ s' b, loadBlock s (threadCtx s t) (t.g a).toNat 32 32 = (s', .ok b) → u ≠ 0#6 → ∀ i ∈ five, exec i s = bad s' i) ∧
    (∀ s' b, u = 0#6 → loadBlock s (threadCtx s t) (t.g a).toNat 32 32 = (s', .ok b) →
      let q := if b % 2 ^ 64 = 0 then t.lseq else b % 2 ^ 64
      let image := b / 2 ^ 64 % 2 ^ 64
      let factor := b / 2 ^ 128 % 2 ^ 8
      (b / 2 ^ 136 % 2 ^ 120 ≠ 0 → ∀ i ∈ five, exec i s = bad s' i) ∧
      (b / 2 ^ 64 % 2 ^ 72 ≠ 0 → ∀ i ∈ five.tail, exec i s = bad s' i) ∧
      (launchOf s q = none → ∀ i ∈ five, exec i s = bad s' i) ∧
      (∀ l, launchOf s q = some l →
        let own_ := if t.mode then l.vd = own.vd else l.lseq = t.lseq ∨ ∃ x y z w, l.origin = .thread t.lseq x y z w
        let held := Freeze.owl ∈ l.frozen ∨ Freeze.drain ∈ l.frozen
        (¬own_ → ∀ i ∈ five, exec i s = bad s' i) ∧
        (own_ → b / 2 ^ 136 % 2 ^ 120 = 0 →
          (held → exec (.gloadsh a u) s = bad s' (.gloadsh a u)) ∧
          (¬held → exec (.gloadsh a u) s = waiting (showStores s' s.cur 4) t (.gloadsh l.lseq image factor (wordOf (.gloadsh a u))))) ∧
        (own_ → b / 2 ^ 64 = 0 →
          (l.swap ≠ none → exec (.gswap a u) s = waiting s' t (.gswap l.lseq)) ∧
          (l.swap = none → (l.shadow = none ∨ l.frozen ≠ [] ∨ ∃ p ∈ l.ports, p.2.active ≠ none ∨ p.2.waiting ≠ none) →
            exec (.gswap a u) s = bad s' (.gswap a u)) ∧
          (l.swap = none → l.shadow ≠ none → l.frozen = [] → (∀ p ∈ l.ports, p.2.active = none ∧ p.2.waiting = none) →
            let fresh := freshSwap (holdBinds s' l.lseq) l
            exec (.gswap a u) s = waiting (swapSources fresh ((launchOf fresh l.lseq).getD l) s.cur) t (.gswap l.lseq)) ∧
          (b % 2 ^ 64 = 0 → exec (.gdrain a u) s = bad s' (.gdrain a u)) ∧
          (b % 2 ^ 64 ≠ 0 → l.frozen = [] → Freeze.drain ∉ l.asked → exec (.gdrain a u) s =
            waiting (setLaunch s' { l with asked := .drain :: l.asked }) t (.gdrain l.lseq)) ∧
          (b % 2 ^ 64 ≠ 0 → l.frozen ≠ [] → Freeze.drain ∉ l.frozen → exec (.gdrain a u) s =
            completed (setLaunch s' { l with frozen := .drain :: l.frozen }) t 4#64) ∧
          (held → ∃ l' : Launch, exec (.gresume a u) s = completed (setLaunch s' l') t 4#64 ∧
            l' = { l with frozen := l'.frozen, idle := l'.idle } ∧ (∀ f, f ∈ l'.frozen ↔ f ∈ l.frozen ∧ f ≠ .owl ∧ f ≠ .drain)) ∧
          (¬held → exec (.gresume a u) s = completed s' t 4#64) ∧
          (l.lseq ≠ t.lseq → exec (.gend a u) s =
            .next (setThread (endLaunch s' l.lseq 0 0 false) s.cur (t.next 4#64))) ∧
          (l.lseq = t.lseq → exec (.gend a u) s = .next (endLaunch s' l.lseq 0 0 false))))) ∧
    (∀ q st c b, launchOf (endLaunch s q st c b) q = none) ∧
    (∀ w s1 s2 h, w = 1 + s.waiting.foldl (fun n x => Nat.max n x.ticket) 0 →
      s1 = setThread (showStores s s.cur 4) s.cur { t with stat := .waiting (.glaunch w) } →
      martenRead s1 own.vd (t.g a).toNat 64 = (s2, .ok h) →
      let new : Waiting := { ticket := w, hdr := parseHeader h, gid := own.gid, vd := own.vd, parked := false, again := false,
                             origin := .thread t.lseq s.cur t.plot t.slot (t.g u), partmap := none }
      exec (.glaunch a u) s = .next { s2 with waiting := s2.waiting ++ [new] }) ∧
    (∀ tid x q image factor word l, threadOf s tid = some x → x.stat = .waiting (.gloadsh q image factor word) →
      launchOf s q = some l → l.runs = true → runs s x.lseq = true → l.swap = none →
      (∀ s' v p, shadowFor s l image factor = (s', .ok (v, p)) →
        exec (.shadowImageLoad tid) s = goesOn (loadShadow s' l v p) tid x 4#64) ∧
      (∀ s' st, shadowFor s l image factor = (s', .error st) →
        exec (.shadowImageLoad tid) s = .next (trap s' tid x 0x80 x.pc (BitVec.ofNat 64 st))))

/-! ## The control cores and Marten (01 R14 to R19, R34, R77, R78; 03 R69, R76; 04 R82; 07 R182 to R185; 09 R202; 14 R324) -/

/-- LOAD_RETURN (log 4), SIBLING_WINDOW_RELEASE, BACKED_PAGE_RESIDENT, THREAD_ADMISSION and GANG_START: what each gives its thread,
and which threads it leaves. A page in a frame of the backing pool comes back as that frame's reader sees it, and the frame is
free again; no other byte changes. That a new thread's predicates are 0 is the model's choice (log 9), as are the lowest free slot
(log 81) and its TCMP of 0 (log 82). -/
def Obligations.ThreadEvents : Prop :=
  ∀ (s : State),
    (∀ tid t, threadOf s tid = some t →
    (∀ d v rest, t.loads = (d, v) :: rest →
      exec (.loadReturn tid) s = .next (setThread s tid { t.setG (BitVec.ofNat 6 d) v with loads := rest })) ∧
    (∀ p, t.stat = .waiting (.sibling p) →
      (unloaded s p t.lseq = false → exec (.siblingWindowRelease tid) s = .next (setThread s tid { t with stat := .ready })) ∧
      (unloaded s p t.lseq = true → exec (.siblingWindowRelease tid) s = .next s)) ∧
    (∀ p page at_, lookup s.backed (2048 * p + page) = some at_ → ∃ u, exec (.backedPageResident p page) s = .next u ∧
      (t.stat = .waiting (.backing p page) → threadOf u tid = some { t with stat := .ready }) ∧
      let lo := scratchAddr p (4096 * page)
      listed u.backed (2048 * p + page) = false ∧ (at_ = none → u.mem = s.mem) ∧
      (∀ a, ¬(lo ≤ a ∧ a < lo + 4096) → memGet u.mem a = memGet s.mem a) ∧
      (∀ v i d, at_ = some (v, i) → vdOf s v = some d → (∃ d', vdOf u v = some d' ∧ lookup d'.back i = none) ∧
        (Memory.wf s.mem = true → (∀ j, j < 4096 → memGet s.mem (lo + j) = 0#8) → ∀ j, j < 4096 →
          memGet u.mem (lo + j) = keyedByte s (backEng s p) (d.backpa + 4096 * i + j)))) ∧
    (∀ lseq l, launchOf s lseq = some l → l.loaded = true → ∃ u, exec (.gangStart lseq) s = .next u ∧
      threadOf u tid = some (if t.lseq = lseq ∧ t.stat = .gang ∧
          (∀ g ∈ t.groups, ∀ i ∈ members l g.1, i ∈ l.halted ∨ ∃ x ∈ s.threads, x.2.lseq = l.lseq ∧ x.2.idx = some i)
        then { t with stat := .ready } else t))) ∧
    (∀ cc a rest, (plotOf s cc).admq = a :: rest →
      (freeSlot s cc = none ∨ 512 < poolUsed s cc + granted a.nreq → exec (.threadAdmission cc) s = .next s) ∧
      (∀ slot l, freeSlot s cc = some slot → poolUsed s cc + granted a.nreq ≤ 512 → launchOf s a.lseq = some l →
        (∀ i e, a.what = .entry i → l.thrtab[i]? = some e → ∃ u x, exec (.threadAdmission cc) s = .next u ∧
          u.nextTid = s.nextTid + 1 ∧ (plotOf u cc).admq = rest ∧ threadOf u s.nextTid = some x ∧
          x.regs = List.replicate ((e.nreq + 7) / 8 * 8) 0#64 ∧ x.pc = BitVec.ofNat 64 e.entry ∧ x.plot = cc ∧ x.slot = slot ∧
          x.lseq = l.lseq ∧ x.idx = some i ∧ x.mode = l.hdr.super ∧ x.preds = 0#8 ∧ x.intrap = false ∧ x.tcmp = 0#64 ∧
          x.pend = [0, 0, 0, 0] ∧ x.lcount = 0#64 ∧ x.tvec = BitVec.ofNat 64 l.hdr.tvec ∧
          x.stat = (if e.groups = [] then .ready else .gang)) ∧
        (∀ q r more, a.what = .task q → (lookupD l.tasks q TaskQ.empty).recs = r :: more →
          ∃ u x, exec (.threadAdmission cc) s = .next u ∧ threadOf u s.nextTid = some x ∧ x.pc = BitVec.ofNat 64 r.entry ∧
            x.regs.length = (r.nreq + 7) / 8 * 8 ∧ x.mode = false ∧ x.task = some (q, r.num) ∧ x.stat = .ready ∧
            ∀ k, k < x.regs.length → x.regs[k]? = some (if 1 ≤ k ∧ k ≤ r.args.length then r.args.getD (k - 1) 0#64 else 0#64)) ∧
        (∀ tid t, a.what = .restore tid → threadOf s tid = some t → ∃ u, exec (.threadAdmission cc) s = .next u ∧
          threadOf u tid = some { t with plot := cc, slot := slot } ∧ u.nextTid = s.nextTid)))

/-- PLACEMENT, QUEUE_RETRY, NODE_LAUNCH_START, LAUNCH_COMPLETE, PREEMPTION, FROZEN_STATE_STREAMED_OUT, RESTORE and
RELOCATION: a launch commits with the next sequence number and its plots, or fails with its record, or stands parked among the
waiting launches; a part of a node launch starts, or ends with the status of another module's failure (which of them is free, log
43), one that still waits too (NODE_LAUNCH_START of launch 0, a number that no launch has); one that is done ends; one that is asked for freezes, and one that its slice freezes may give its place to the next context
at once (log 67); a saved one holds no plot, and is resident again in its new place. -/
def Obligations.LaunchEvents : Prop :=
  ∀ (s : State),
    (∀ w s', nextWaiting s = some w →
      (∀ f, attempt s w = (s', .ok f) → ∃ u l, exec .placement s = .next u ∧ u.lseq = s'.lseq + 1 ∧
        launchOf u (s'.lseq + 1) = some l ∧ l.variant = f.variant ∧ l.place = f.place ∧ l.frozen = (if w.partmap.isSome then [.node] else []) ∧
        (∀ p ∈ f.place.here, (plotOf u p).holder = some (s'.lseq + 1)) ∧ u.waiting = s'.waiting.filter (fun x => x.ticket != w.ticket)) ∧
      (∀ st c, attempt s w = (s', .error (st, c)) →
        (st = stFitSpace → w.hdr.queue = true → w ∈ s.waiting ∧ s'.waiting = s.waiting ∧ exec .placement s = .next { s' with
          waiting := s.waiting.map (fun x => if x.ticket = w.ticket then { x with parked := true, again := false } else x) }) ∧
        (st ≠ stFitSpace ∨ w.hdr.queue = false →
          exec .placement s = .next (failLaunch (dropWaiting s' w.ticket) w.vd w.origin st c)))) ∧
    (∃ u, exec .queueRetry s = .next u ∧ u.waiting.length = s.waiting.length ∧
      (∀ x ∈ u.waiting, ¬(x.parked = true ∧ x.again = true)) ∧
      (∀ x ∈ s.waiting, x.parked = true → x.again = true → { x with parked := false, again := false } ∈ u.waiting)) ∧
    (launchOf s 0 = none → let parts := s.waiting.filter (fun w => w.partmap.isSome)
      let s1 := { s with free := s.free + 3 }
      (parts = [] → exec (.nodeLaunchStart 0) s = .next s) ∧
      ∀ w, parts[Config.freeNat s.free % parts.length]? = some w →
        (Config.freeBit (s.free + 1) = false → exec (.nodeLaunchStart 0) s = .next s1) ∧
        (Config.freeBit (s.free + 1) = true → ∃ st, 1 ≤ st ∧ st ≤ 6 ∧
          exec (.nodeLaunchStart 0) s = .next (failLaunch (dropWaiting s1 w.ticket) w.vd w.origin st 0))) ∧
    (∀ q l, launchOf s q = some l → l.lseq = q →
      (l.nodeWait = true → l.resident = true →
        (Config.freeBit s.free = true → ∃ u l', exec (.nodeLaunchStart q) s = .next u ∧ launchOf u q = some l' ∧
          l'.nodeWait = false ∧ (∀ f, f ∈ l'.frozen ↔ f ∈ l.frozen ∧ f ≠ .node)) ∧
        (Config.freeBit s.free = false → ∃ st, 1 ≤ st ∧ st ≤ 6 ∧
          exec (.nodeLaunchStart q) s = .next (endLaunch { s with free := s.free + 2 } q st 0 false))) ∧
      (l.nodeWait = false ∨ l.resident = false → exec (.nodeLaunchStart q) s = .next s) ∧
      (launchDone s l = true → ∃ u, exec (.launchComplete q) s = .next u ∧ launchOf u q = none) ∧
      (launchDone s l = false → exec (.launchComplete q) s = .next s) ∧
      (l.asked ≠ [] → ∃ u l', launchOf u q = some l' ∧ l'.asked = [] ∧
        (∀ f, f ∈ l.asked ∨ f ∈ l.frozen → f ∈ l'.frozen) ∧ l'.runs = false ∧ exec (.preemption q) s = .next
          (if Freeze.slice ∈ l'.frozen ∧ l'.shadow = none ∧ l'.swap = none then nextContext u l' else u)) ∧
      (l.asked = [] → exec (.preemption q) s = .next s) ∧
      (Config.freeBit s.free = false → nextContext s l = { s with free := s.free + 1 }) ∧
      (l.resident = true → Freeze.slice ∈ l.frozen ∨ Freeze.forced ∈ l.frozen →
        ∃ u l', exec (.frozenStateStreamedOut q) s = .next u ∧ launchOf u q = some l' ∧ l'.resident = false ∧
          (∀ p ∈ l.place.here, (plotOf u p).holder = none)) ∧
      (∀ r p sh, l.resident = false → Freeze.slice ∉ l.frozen → sliceOn s l.vd = true → restoreRects s l = some r →
        movePlaces s l r = some (p, sh) → ∃ u l', exec (.restore q) s = .next u ∧ launchOf u q = some l' ∧ l'.resident = true ∧
          l'.place = p ∧ (∀ f, f ∈ l'.frozen ↔ f ∈ l.frozen ∧ f ≠ .forced ∧ f ≠ .reloc)) ∧
      (∀ u, l.runs = true → l.swap = none → relocate s l (freePlot s l.vd) = some u → exec (.relocation q) s = .next u ∧
        ∃ l', launchOf u q = some l' ∧ l'.resident = true))

/-! ## The Kalok Command Protocol (09 R210 to R214) -/

/-- Each host message. One that comes over a port that is not in use, is longer than 16 MiB, or names no device of a security
association and is no ATTEST, has no effect (R210, R236; log 69). Of the others, one of whose connection and device none waits before
it (R214): a malformed header is answered MALFORMED
with no effect; a device that is not open NO_VD, and one that the port does not serve DENIED; else each message has its own effect
and is answered with it. One behind a waiting message of its connection and device waits too, and a WRITE or READ that meets a full
block store has no effect and waits, first of all. That the device is looked at before the association, what an ATTEST under no
association needs, and the fields that are refused are the model's reading (log 69), as are the checks of an OPEN_VD (log 70). -/
def Obligations.HostMessages : Prop :=
  ∀ (s : State) (m : Kcp),
    let v := mVd m
    let b := mBody m
    let le := fun off n => leAt b off n
    let messages := [(Instr.closeVd m, 2), (.map m, 3), (.write m, 4), (.read m, 5), (.launchStart m, 6), (.events m, 7),
        (.attest m, 8), (.logFetch m, 9), (.receiptFetch m, 10)]
    let formed := fun op => headOk m = true ∧ mOp m = op ∧ (op = 2 → b = []) ∧ (op = 3 → mapOk b = true) ∧
      (op = 4 → 16 ≤ b.length ∧ le 8 8 = 0) ∧ (op = 5 → b.length = 16 ∧ le 8 8 ≤ bodyMax) ∧
      (op = 6 → launchOk b = true ∧ le 0 1 = 0) ∧ (op = 7 → eventsOk b = true) ∧ (op = 8 → b.length = 32 ∧ m.vds ≠ []) ∧
      (op = 9 → logOk b = true) ∧ (op = 10 → b.length = 4)
    let sampled := fun e => { s with energy := e, free := s.free + 1 }
    let heard := s.running < 2 ∧ m.port < (if s.full = true then 4 else 1) ∧ m.bytes.length ≤ 2 ^ 24 ∧ (m.vds ≠ [] ∨ mOp m = 8)
    let all := [Instr.openVd m, .closeVd m, .map m, .write m, .read m, .launchStart m, .launchResume m, .launchEnd m,
      .launchDrain m, .events m, .attest m, .logFetch m, .receiptFetch m]
    (¬heard → ∀ i ∈ all, exec i s = .next s) ∧ (heard →
    (∀ i op, (i, op) ∈ messages → formed op → (∃ x ∈ s.kcpHeld, x.1 ≠ m ∧ m.conn ≠ none ∧ x.1.conn = m.conn ∧ mVd x.1 = v) →
      (∀ x ∈ s.kcpHeld, x.1 ≠ m) → exec i s = .next { s with kcpHeld := s.kcpHeld ++ [(m, i)] }) ∧
    (∀ i op, (i, op) ∈ messages → formed op → s.kcpHeld = [(m, i)] → exec i s = exec i { s with kcpHeld := [] }) ∧
    ((∀ x ∈ s.kcpHeld, x.1 ≠ m ∧ (m.conn = none ∨ x.1.conn ≠ m.conn ∨ mVd x.1 ≠ v)) →
    (headOk m = false → ∀ i ∈ all, exec i s = .next (answer s m 1 0 [])) ∧
    (headOk m = true → mOp m = 1 → openOk b = true →
      (mayOpen s m b = true → exec (.openVd m) s = .next (answer (setVd s v (newVd s b)) m 0 0 [])) ∧
      (mayOpen s m b = false → exec (.openVd m) s = .next (answer s m 3 0 []))) ∧
    (headOk m = true → mOp m = 8 → b.length = 32 → m.vds = [] → ∃ e, Nat.min s.energy (2 ^ 64 - 1) ≤ e ∧
      exec (.attest m) s = .next (answer (sampled e) m 0 0 (report (sampled e) b))) ∧
    (∀ i op, (i, op) ∈ messages → formed op →
      (vdOf s v = none → exec i s = .next (answer s m 2 0 [])) ∧
      (∀ d, vdOf s v = some d → v ∉ m.vds → exec i s = .next (answer s m 3 0 [])) ∧
      (∀ d, vdOf s v = some d → v ∈ m.vds →
        (op = 2 → ∃ u, vdOf u v = none ∧
          exec i s = .next (answer { u with full := u.full || (u.bringup == .done && u.vds.isEmpty) } m 0 0 [])) ∧
        (op = 3 → ∀ s', mapStores b (List.range (le 16 4)) s = (s', none) →
          exec i s = .next (answer (invalidate s' v (le 0 8) (le 8 8)) m 0 0 [])) ∧
        (op = 3 → ∀ s' c, mapStores b (List.range (le 16 4)) s = (s', some c) →
          exec i s = .next (answer (invalidate s' v (le 0 8) (le 8 8)) m 4 c [])) ∧
        (op = 4 → ∀ s', hostWrite v (b.length / 65536 + 2) (le 0 8) (b.drop 16) s = (s', .ok) → exec i s = .next (answer s' m 0 0 [])) ∧
        (op = 4 → ∀ s' c, hostWrite v (b.length / 65536 + 2) (le 0 8) (b.drop 16) s = (s', .bad c) →
          exec i s = .next (answer s' m 4 c [])) ∧
        (op = 4 → ∀ s', hostWrite v (b.length / 65536 + 2) (le 0 8) (b.drop 16) s = (s', .wait) →
          exec i s = .next { s with kcpHeld := (m, i) :: s.kcpHeld }) ∧
        (op = 5 → ∀ s' x, hostRead v (le 8 8 / 65536 + 2) (le 0 8) (le 8 8) s = (s', x, .ok) → exec i s = .next (answer s' m 0 0 x)) ∧
        (op = 5 → ∀ s' x c, hostRead v (le 8 8 / 65536 + 2) (le 0 8) (le 8 8) s = (s', x, .bad c) →
          exec i s = .next (answer s' m 4 c x)) ∧
        (op = 5 → ∀ s' x, hostRead v (le 8 8 / 65536 + 2) (le 0 8) (le 8 8) s = (s', x, .wait) →
          exec i s = .next { s with kcpHeld := (m, i) :: s.kcpHeld }) ∧
        (op = 6 → exec i s = .next (submit s v (le 1 1) (le 8 8) (.host (BitVec.ofNat 64 (mTag m))) (partmapOf d b))) ∧
        (op = 7 → exec i s = .next (answer (setVd s v { d with events := d.events.drop (le 0 4) }) m 0 0
          (natBytes 4 (d.events.take (le 0 4)).length ++ natBytes 4 0 ++ ((d.events.take (le 0 4)).map (natBytes 32)).flatten))) ∧
        (op = 8 → ∃ e, Nat.min s.energy (2 ^ 64 - 1) ≤ e ∧
          exec i s = .next (answer (sampled e) m 0 0 (report (sampled e) b))) ∧
        (op = 9 → le 0 1 = 0 →
          let l := (lookup d.monlogs (le 1 1)).getD MonLog.empty
          let out := (l.blocks.filter (fun x => decide (le 4 4 ≤ x.1))).take (le 8 4)
          ∃ f u, exec i s = .next (answer u m 0 0 (blocksBody (out.map (·.2)))) ∧
            u = (if out = [] then s else setVd s v { d with monlogs := insert d.monlogs (le 1 1) { l with fetched := f } }) ∧
            (∀ k, k ∈ f ↔ k ∈ l.fetched ∨ ∃ x ∈ out, x.1 = k)) ∧
        (op = 9 → le 0 1 = 1 → exec i s = .next (answer s m 0 0 (blocksBody (((s.brock.flash.map (·.2)).drop (le 4 4)).take (le 8 4))))) ∧
        (op = 10 → ∀ r, s.receipts.reverse.find? (fun r => r.engid == le 0 4) = some r → exec i s = .next (answer s m 0 0 r.bytes)) ∧
        (op = 10 → (∀ r ∈ s.receipts, r.engid ≠ le 0 4) → exec i s = .next (answer s m 5 0 [])))) ∧
    (∀ i n, (i, n) ∈ [(Instr.launchResume m, 1), (.launchEnd m, 2), (.launchDrain m, 3)] →
      headOk m = true → mOp m = 6 → launchOk b = true → le 0 1 = n → ∀ d, vdOf s v = some d → v ∈ m.vds →
      (∀ l, launchOf s (le 16 8) = some l → l.vd = v → ∃ u, exec i s = .next (answer u m 0 0 (natBytes 8 l.lseq)) ∧
        (n = 1 → u = resumeLaunch s l) ∧ (n = 2 → launchOf u l.lseq = none) ∧
        (n = 3 → l.lseq = le 16 8 → ∃ l', launchOf u l.lseq = some l' ∧ Freeze.drain ∈ l'.frozen)) ∧
      ((∀ l, launchOf s (le 16 8) = some l → l.vd ≠ v) → exec i s = .next (answer s m 5 0 (natBytes 8 0))))))

/-! ## Engines at work (06 R144 to R163; 09 R206 to R209; 22 R406 to R408) -/

/-- COPY_UNIT, COPY_UNIT_RETRY, LOADW, EVENT_RECORD_POST and TASK_START. COPY_UNIT: a fence that is served leaves every queue that
it joins, and nothing else does; a unit that moves whole leaves its counter but for a CPYM's bytes (R152) and moves POS on; the last
unit ends the operation with its record, or, of a CPYM whose tile the plot's node takes, sets its LOADW to wait (R149, NOMATRIX
otherwise); a unit that a failed check stops keeps the bytes it has written (R146). COPY_UNIT_RETRY ends the hold
alone: the next try comes in the queue's turn. LOADW: NOMATRIX whatever the copy has read (log 58); the buffer not in use is
filled with the delivered blocks, whose elements outside the tile are free. -/
def Obligations.EngineEvents : Prop :=
  ∀ (s : State),
    (∀ die x l, nextQueue s die = some x → launchOf s (x / 16) = some l →
      let key := die * 16 + x % 16
      let s1 := { s with copyRr := insert s.copyRr die x }
      (∀ id p rest, lookupD l.copyQ key [] = .fence id p :: rest → ∃ l', exec (.copyUnit die) s = .next (setLaunch s1 l') ∧
        l' = { l with copyQ := l'.copyQ } ∧ (∀ k, (lookupD l'.copyQ k []) = (lookupD l.copyQ k []).filter (fun e => e != .fence id p))) ∧
      (∀ j rest s' j' n, lookupD l.copyQ key [] = .op j :: rest →
        let k := Nat.min 2048 (j.total - j.pos)
        let left := if j.op.loads then s' else subPend s' j'.tid j'.ctr (k - j'.part)
        let u := modLaunch left l.lseq (fun l => setHead l key { j' with pos := j.pos + k, part := 0, snap := [] })
        let done := { j' with pos := j.pos + k, part := 0, snap := [] }
        moveUnit s1 (copyCtx l j) j k = (s', j', n, none) → j'.pos = j.pos → j'.total = j.total → j'.op = j.op →
        (j.pos + k < j.total → exec (.copyUnit die) s = .next u) ∧
        (j.pos + k = j.total → (∀ d a p q f, j.op ≠ .tile d a p q (some f)) →
          exec (.copyUnit die) s = .next (endCopy u ((launchOf u l.lseq).getD l) key done (if j'.uncorr then 0x10 else 0))) ∧
        (∀ d a p q f, j.pos + k = j.total → j.op = .tile d a p q (some f) →
          exec (.copyUnit die) s = .next (if takesTile u ((launchOf u l.lseq).getD l) d p
            then modLaunch u ((launchOf u l.lseq).getD l).lseq (fun l => setHead l key { done with waitLoad := true })
            else endCopy u ((launchOf u l.lseq).getD l) key done 0x11))) ∧
      (∀ j rest s' j' n va c v acc, lookupD l.copyQ key [] = .op j :: rest →
        moveUnit s1 (copyCtx l j) j (Nat.min 2048 (j.total - j.pos)) = (s', j', n, some (.fault va c v acc)) →
        let u := passBytes s' j' (n - j'.part)
        exec (.copyUnit die) s = .next (copyFault u ((launchOf u l.lseq).getD l) key { j' with part := Nat.max j'.part n } va c v acc))) ∧
    (∀ q die n l j rest, launchOf s q = some l → l.runs = true → lookupD l.copyQ (die * 16 + n) [] = .op j :: rest → j.held = true →
      faultHeldAt l (.copyQ die n) = false →
      (j.retryNow = false → s.time < j.retryAt + 65536 → exec (.copyUnitRetry q die n) s = .next s) ∧
      (j.retryNow = true ∨ j.retryAt + 65536 ≤ s.time → exec (.copyUnitRetry q die n) s =
        .next (setLaunch s (setHead l (die * 16 + n) { j with held := false, retryNow := false })))) ∧
    (∀ plot l key j, peLaunch s (64 * plot) = some l → waitingLoad l plot = some (key, j) → l.runs = true →
      (matrixNode s plot = none → exec (.loadw plot) s = .next (endCopy s l key j 0x11)) ∧
      (∀ g n d a p q f, matrixNode s plot = some (g, n) → j.op = .tile d a p q f → (plotOf s plot).matrix.pending = none →
        (∀ v ∈ (plotOf s plot).matrix.retained, v.useB = (plotOf s plot).matrix.useB) → tdSkind d ≠ 3 →
        let fmt := mWfmt ((l.img g).1.node n).hrec
        let x := (plotOf s plot).unhold ((plotOf s plot).matrix.buf (!(plotOf s plot).matrix.useB)).tag
        let b := loadBuffer (setPlot s plot x) plot d fmt 0
        let m := x.matrix
        let u := setPlot { s with free := s.free + 32768, plots := (setPlot s plot x).plots } plot { x with matrix :=
          if m.useB then { m with bufA := b, pending := f } else { m with bufB := b, pending := f } }
        exec (.loadw plot) s = .next (endCopy u ((launchOf u l.lseq).getD l) key j (if j.uncorr then 0x10 else 0)))) ∧
    (∀ cc e rest, (plotOf s cc).evHeld = e :: rest →
      (∀ u, enterEvent (setPlot s cc { plotOf s cc with evHeld := rest }) e = some u → exec (.eventRecordPost cc) s = .next (tidyColls u e.lseq)) ∧
      ((∀ a f b, (plotOf s cc).evHeld = a ++ f :: b → enterEvent (setPlot s cc { plotOf s cc with evHeld := a ++ b }) f = none) →
        exec (.eventRecordPost cc) s = .next s)) ∧
    (∀ q n l r rest, launchOf s q = some l → l.runs = true → (lookupD l.tasks n TaskQ.empty).recs = r :: rest →
      let tq := lookupD l.tasks n TaskQ.empty
      let p := taskPlot s l r.hash
      (tq.sent = true ∨ r.barrier = true ∧ tq.running ≠ [] → exec (.taskStart q n) s = .next s) ∧
      (tq.sent = false → r.barrier = false ∨ tq.running = [] → exec (.taskStart q n) s =
        .next (setPlot (setLaunch s { l with tasks := insert l.tasks n { tq with sent := true } }) p
          { plotOf s p with admq := (plotOf s p).admq ++ [{ lseq := q, what := .task n, nreq := r.nreq }] })))

/-- The collectives of a COMMID: one whose participants have all issued starts with its inputs read, or goes no further
with a record of each engine (ENGINE_RECORD) where their fields differ; two partial values combine, left first, element by element; a
participant's flags are set, its output is stored, and its record is posted as the bytes leave its counter; a store that fails a
check holds the collective; an abandoned one posts TERMINATED. Inputs of other modules are free, and so is the tick at which a
participant there ends (log 61); the flags of an abandoned collective, and when one is over, are log 95. A record names its engine,
and the modules that its flow joins (R198, R408). -/
def Obligations.CollectiveEvents : Prop :=
  ∀ (s : State) (vd comm key : Nat) (c : Coll),
    let finish : State → Coll → CollPart → Launch → CollJob → Nat → State := fun u c p l j status =>
      let c' := { c.setPart p with ended := addNat c.ended p.rank }
      let u' := setLaunch u { l with collQ := insert l.collQ p.key ((lookupD l.collQ p.key []).filter (fun e => e != .op j)) }
      let done := c'.over u' = true
      let wrote := p.wrote * collBytes c.fmt
      tidyColls (post { u' with colls := if done then remove u'.colls key else insert u'.colls key c' }
        { vd := l.vd, lseq := l.lseq, plot := j.plot, slot := j.slot, kind := 4, status := status, cause := 0, queue := p.key % 16,
          user := j.user, count := wrote, toHost := false, tid := some j.tid, src := some (.collQ (p.key / 16) (p.key % 16))
          left := some (j.ctr, j.total - wrote), flow := p.modules }) l.lseq
    ((collsOf s vd comm).find? (fun c => collReady s c.1 c.2) = some (key, c) →
      (c.bad = true → ∃ one : List CollPart, (∀ q ∈ one, q ∈ c.parts) ∧
        (∀ p ∈ c.parts, ∃ q ∈ one, q.lseq = p.lseq ∧ q.key / 16 = p.key / 16) ∧
        one.Pairwise (fun p q => ¬ (p.lseq = q.lseq ∧ p.key / 16 = q.key / 16)) ∧
        exec (.collectiveStart vd comm) s =
          .next (setColl (one.foldl (fun s p => raiseColl s p key 0x80 0 0) s) key { c with started := true })) ∧
      (c.bad = false → ∀ s' c', readInputs key c (List.range c.n) s = (s', .ok c') →
        exec (.collectiveStart vd comm) s = .next (setColl s' key { c' with started := true, retryAt := none, retryNow := false }))) ∧
    (∀ x y z, (collsOf s vd comm).find? (fun c => c.2.nextNode.isSome && !c.2.abandoned && c.2.parts.all (fun p =>
        c.2.ended.elem p.rank || partFree s p)) = some (key, c) → c.nextNode = some x →
      partial? c.partials x.1 x.2.1 = some y → partial? c.partials x.2.1 x.2.2 = some z →
      let w := (y.zip z).map (fun e => collCombine c.red (collIsInt c.fmt) e.1 e.2)
      exec (.collectiveCombine vd comm) s = .next (setColl s key { c with
        partials := c.partials.filter (fun p => ¬ (x.1 ≤ p.1 ∧ p.2.1 ≤ x.2.2)) ++ [(x.1, x.2.2, w.map (·.1))]
        flags := c.flags ||| w.foldl (fun f e => f ||| e.2) 0 })) ∧
    (∀ p l j s' k stop, (collsOf s vd comm).findSome? (fun c => if c.2.formed && !c.2.abandoned && collDue s c.2 then
        (c.2.parts.find? (fun p => !c.2.ended.elem p.rank && partFree s p)).map (fun p => (c.1, c.2, p)) else none) = some (key, c, p) →
      launchOf s p.lseq = some l → jobOf l p key = some j →
      writeOutput c p p.wrote ((c.stored p.rank).1.drop p.wrote) (raiseFlags s p.lseq p.part (c.flags ||| c.storeFlags)) = (s', k, stop) →
      let u := subPend s' j.tid j.ctr (k * collBytes c.fmt)
      let p' := { p with wrote := p.wrote + k }
      (stop = none → ∀ l' j', launchOf u p.lseq = some l' → jobOf l' p' key = some j' →
        exec (.collectiveComplete vd comm) s =
          .next (finish u { c with retryAt := none, retryNow := false } p' l' j' (if c.uncorr then 0x10 else 0))) ∧
      (∀ va x v, stop = some (va, x, v) → x ≠ 0 →
        exec (.collectiveComplete vd comm) s = .next (collFault u key (c.setPart p') p' va x v 1))) ∧
    (∀ due, due = (collsOf s vd comm).findSome? (fun c => if c.2.abandoned then
        (c.2.parts.find? (fun p => !c.2.ended.elem p.rank && partFree s p)).map (fun p => (c.1, c.2, p)) else none) →
      (∀ p p' l j, due = some (key, c, p) →
        let s1 := scatterPart s key c p
        let u := raiseFlags s1 p.lseq p.part c.allFlags
        ((lookup s1.colls key).getD c).parts.find? (fun q => q.rank == p.rank) = some p' →
        launchOf u p.lseq = some l → jobOf l p' key = some j →
        let u' := subPend u j.tid j.ctr (p'.wrote * collBytes c.fmt - p.wrote * collBytes c.fmt)
        ∀ l' j', launchOf u' p'.lseq = some l' → jobOf l' p' key = some j' →
          exec (.collectiveAbandon vd comm) s = .next (finish u' (c.setPart p') p' l' j' 0x12)) ∧
      (due = none →
        let over_ := fun c : Coll => match Config.farEnds c.first c.comm c.occ with | some t => decide (t ≤ s.time) | none => false
        exec (.collectiveAbandon vd comm) s = .next (match ((collsOf s vd comm).filter (fun c =>
            ranksAway s c.2 && !c.2.abandoned && !(c.2.bad && c.2.started))).find? (fun c => over_ c.2) with
          | some x => setColl s x.1 { x.2 with abandoned := true, upto := s.lseq }
          | none => s)))

/-! ## Fault records and Owl (07 R167 to R169, R181) -/

/-- FAULT_RECORD_WRITE writes a launch's oldest record at its place in the ring and moves TAIL, and ends the launch behind a
DOUBLE_TRAP record (in this step: log 20); with no place free, or where the page refuses the write, every waiting record becomes held
(all together, and written with Marten's rights: log 65) and OVF is set, and OVF from 0 to 1 posts one FB_FULL record (KIND 6) to the
slot of thread-table entry 0, or to the host where that thread has halted. OWL_FIRE freezes the launch and raises its map records and
then the HANG record, which the host's stream gains as well. -/
def Obligations.FaultRecordsAndOwl : Prop :=
  ∀ (s : State) (q : Nat) (l : Launch), launchOf s q = some l → l.lseq = q →
    let size := 16 * 2 ^ (l.fbbase.toNat % 16)
    let used := (l.fbTail + 2 ^ 24 - l.fbHead) % 2 ^ 24
    (∀ r rest, l.fbHeld = r :: rest →
      let write := storeVA s (martenCtx l.vd) (l.fbbase.toNat / 2 ^ 12 % 2 ^ 44 * 2 ^ 12 + 32 * (l.fbTail % size)) 32 32 r.bits
      (∀ s' x, used < size → write = (s', .ok x) →
        ((∀ t, r.src ≠ .thread t) → exec (.faultRecordWrite q) s =
          .next (setLaunch s' { l with fbTail := (l.fbTail + 1) % 2 ^ 24, fbHeld := rest })) ∧
        (∀ t, r.src = .thread t → ∃ u, exec (.faultRecordWrite q) s = .next u ∧ launchOf u q = none)) ∧
      (∀ u, (size ≤ used ∧ u = s) ∨ (used < size ∧ ((∃ cause t, write = (u, .bad cause t)) ∨ ∃ w, write = (u, .hold w))) →
        let l' := { l with fbHeld := l.fbHeld.map (fun r => { r with held := true }), fbOvf := true }
        ((∀ x ∈ l.fbHeld, x.held = true) → exec (.faultRecordWrite q) s = .next u) ∧
        (∀ x ∈ l.fbHeld, x.held = false → l.fbOvf = true → exec (.faultRecordWrite q) s = .next (setLaunch u l')) ∧
        (∀ x ∈ l.fbHeld, x.held = false → l.fbOvf = false →
          ∃ e, exec (.faultRecordWrite q) s = .next (post (setLaunch u l') e) ∧
            e.kind = 6 ∧ e.status = 0 ∧ e.cause = 0 ∧ e.count = 0 ∧ e.vd = l.vd ∧ e.lseq = q ∧ e.src = none ∧ e.left = none ∧
            (∀ tid t, entryZero (setLaunch u l') q = some (tid, t) → e.toHost = false ∧ e.tid = some tid ∧ e.plot = t.plot ∧ e.slot = t.slot) ∧
            (entryZero (setLaunch u l') q = none → e.toHost = true ∧
              ∀ d, vdOf u l.vd = some d → vdOf (post (setLaunch u l') e) l.vd = some { d with events := d.events ++ [eventBits e u.time] }) ∧
            (∀ tid t, entryZero (setLaunch u l') q = some (tid, t) → threadOf u tid = some t → (plotOf u t.plot).evHeld = [] →
              evqUsed (setLaunch u l') t < 256 →
              (plotOf (post (setLaunch u l') e) t.plot).evq = (plotOf u t.plot).evq ++
                [{ slot := t.slot, tid := tid, bits := eventBits e u.time }])))) ∧
    (∀ part, part < l.variant.parts.length → owlDue s l part = true → ∃ u l' n, exec (.owlFire q part) s = .next u ∧
      launchOf u q = some l' ∧ Freeze.owl ∈ l'.frozen ∧ l'.runs = false ∧
      (∃ old maps last, l'.fbHeld = old ++ maps ++ [last] ∧ maps.length = n ∧
        ∀ m ∈ maps, m.src = .owl ∧ m.bits / 2 ^ 56 % 2 ^ 8 = 0xA1 ∧ m.bits / 2 ^ 68 % 2 ^ 4 = 6 ∧ m.bits / 2 ^ 64 % 2 ^ 4 = 1) ∧
      ∃ r, l'.fbHeld.getLast? = some r ∧ r.src = .owl ∧ r.bits / 2 ^ 56 % 2 ^ 8 = 0xA1 ∧ r.bits / 2 ^ 68 % 2 ^ 4 = 6 ∧
        r.bits / 2 ^ 64 % 2 ^ 4 = 0 ∧ r.bits / 2 ^ 128 % 2 ^ 64 = n % 2 ^ 64 ∧
        (∀ v d, vdOf s l.vd = some v → vdOf u l.vd = some d → r.bits ∈ d.events)) ∧
    (∀ part, owlDue s l part = false → exec (.owlFire q part) s = .next s)

/-! ## Tokens on their way (02 R38, R48; 03 R72; 04 R105; 07 R173) -/

/-- EDGE_PORT_CROSSING, TOKEN_ARRIVAL, FIFO_SPILL, REPLAY_REQUEST and REPLAY_TOKEN on a running launch: a token moves on one stop in
its order, its tag rebound where the plot changes, and never past a full elastic buffer: of a power field (R75, eight tokens) or of an end of
a crossing link (R200, 32 tokens; log 105); which stop moves first is a free pick; a token for another module leaves while a port is
in service, over at most 64 credits that come back on a free bit, and one from another module comes into a receive buffer of 64, as free
values give it, and goes on while its channel has room, as does a replay of one (R203, log 43); a full FIFO sends the next one to the spill ring, whose bytes are free (log 40) and which takes the lowest free segment and
gives back its drained ones (R105, log 89); a request reaches its producer, and a replay fills the hole that asked for it. -/
def Obligations.TokenEvents : Prop :=
  ∀ (s : State) (q chan : Nat) (l : Launch) (v : Variant) (p : Placed), launchOf s q = some l → l.lseq = q → l.runs = true →
    (v, p) = l.img (keyImg chan) →
    let c := keyChan chan
    let n := (v.chan c).dst
    let pe := p.peOf n
    let stops := p.stopsOf c
    let end_ := stops.length - 1
    let legs := (List.range (end_ + 1)).map (fun i => (l.chanSt chan).legs.getD i [])
    let st := { l.chanSt chan with legs := legs }
    let last := legs.getD end_ []
    let plane := (peOf s pe).active
    let here := plane.img = keyImg chan
    let room := (plane.queue (v.dstPort c)).length < 4
    let fifoRoom := st.fifo.length < (v.chan c).depth - 4
    let put := fun (s : State) (d : ChanSt) => setLaunch s (l.setChan chan d)
    let enters := fun (s : State) (t : Token) => modPlane s pe fun x =>
      x.setQueue (x.portOf t.chan) (x.queue (x.portOf t.chan) ++ [t])
    let away := p.plotOf n = awayPlot
    let gone := fun (rest : List Token) => if rest = [] then st.segs.length else (st.head + 1) / 512
    let drained := fun (rest : List Token) => { st with
      spill := rest, segs := st.segs.drop (gone rest), head := if rest = [] then 0 else (st.head + 1) % 512 }
    let freed := fun (rest : List Token) (d : VD) =>
      let d' := { d with segs := d.segs.filter (fun g => !(st.segs.take (gone rest)).elem g.1) }
      { s with vds := insert s.vds l.vd d' }
    (¬away →
      (∀ t rest, here → room → tokenFault plane t = none →
        (st.fifo = t :: rest → exec (.tokenArrival q chan) s = .next (enters (put s { st with fifo := rest }) t)) ∧
        (∀ d, st.fifo = [] → st.spill = t :: rest → vdOf s l.vd = some d →
          exec (.tokenArrival q chan) s = .next (enters (put (freed rest d) (drained rest)) t)) ∧
        (st.fifo = [] → st.spill = [] → last = t :: rest → exec (.tokenArrival q chan) s =
          .next (enters (put s { st with legs := setNth legs end_ rest }) t))) ∧
      (∀ t rest, here → ¬room → st.fifo = [] → st.spill = [] → last = t :: rest → fifoRoom → exec (.tokenArrival q chan) s =
        .next (put s { st with legs := setNth legs end_ rest, fifo := [t] })) ∧
      (∀ t rest, here → ¬room → st.fifo = t :: rest → exec (.tokenArrival q chan) s = .next s) ∧
      (∀ t rest, ¬here → st.fifo = t :: rest → exec (.tokenArrival q chan) s =
        .next (if t.kind = .swap ∧ (peOf s pe).swapped = true then put s { st with fifo := rest } else s)) ∧
      (∀ t rest d, fifoRoom → st.spill = t :: rest → vdOf s l.vd = some d → exec (.fifoSpill q chan) s =
        .next (put (freed rest d) { drained rest with fifo := st.fifo ++ [t] })) ∧
      (∀ t rest, 4 ≤ (((peOf s pe).planeOf (keyImg chan)).queue (v.dstPort c)).length → fifoRoom → st.spill = [] → last = t :: rest →
        exec (.fifoSpill q chan) s = .next (put s { st with legs := setNth legs end_ rest, fifo := st.fifo ++ [t] })) ∧
      (∀ t rest d, 4 ≤ (((peOf s pe).planeOf (keyImg chan)).queue (v.dstPort c)).length ∨ st.spill ≠ [] → ¬fifoRoom → last = t :: rest →
        vdOf s l.vd = some d →
        let at_ := st.head + st.spill.length
        let st' := { st with legs := setNth legs end_ rest, spill := st.spill ++ [t] }
        (at_ < 512 * st.segs.length → exec (.fifoSpill q chan) s =
          .next (put (writeSpill s l d (st.segs.getD (at_ / 512) 0) (at_ % 512)) st')) ∧
        (512 * st.segs.length ≤ at_ → (∀ g, g < d.spilllen / 65536 → listed d.segs g = true) → exec (.fifoSpill q chan) s = .next s) ∧
        (∀ g, 512 * st.segs.length ≤ at_ → g < d.spilllen / 65536 → listed d.segs g = false → (∀ h, h < g → listed d.segs h = true) →
          let segs := st.segs ++ [g]
          let k := slotOf s l.kslot
          let u := { s with
            vds := insert s.vds l.vd { d with segs := insert d.segs g (q, chan) }
            slots := insert s.slots l.kslot { k with rings := (spillAt s d (d.spillva + g * 65536) 65536).foldl addRange k.rings } }
          exec (.fifoSpill q chan) s = .next (put (writeSpill u l d (segs.getD (at_ / 512) 0) (at_ % 512)) { st' with segs := segs }))) ∧
      (∀ a b, p.legsOf c = [a, b] →
        (plotDie a ≠ plotDie b → stops = [a, a, b, b] ∧ p.stopKinds c = [.plot, .near 0, .far 0, .plot]) ∧
        (plotDie a = plotDie b → fieldOf a ≠ fieldOf b → stops = [a, b, b] ∧ p.stopKinds c = [.plot, .field, .plot]) ∧
        (plotDie a = plotDie b → fieldOf a = fieldOf b → stops = [a, b] ∧ p.stopKinds c = [.plot, .plot])) ∧
      (fromAway l chan = false →
       let is := crossingStops s l chan
       let s1 := { s with free := s.free + 1 }
       (∀ i, i ∈ is ↔ i + 1 < stops.length ∧ legs.getD i [] ≠ [] ∧
         (∀ k, (p.stopKinds c)[i + 1]? = some k → (k = .field → (legs.getD (i + 1) []).length < 8) ∧
           (∀ j, k = .near j → crossingTokens s (p.crossingLink c j) false < 32) ∧
           (∀ j, k = .far j → crossingTokens s (p.crossingLink c j) true < 32))) ∧
       (∀ i t rest, 0 < stops.length → is[Config.freeNat s.free % is.length]? = some i → legs.getD i [] = t :: rest →
         i + 2 ≠ stops.length ∨ st.ckpt = [] →
         let a := stops.getD i 0
         let b := stops.getD (i + 1) 0
         let out := setNth legs i rest
         let moved := fun (t : Token) => { st with legs := setNth out (i + 1) (out.getD (i + 1) [] ++ [t]) }
         (a = b → exec (.edgePortCrossing q chan) s = .next (put s1 (moved t))) ∧
         (∀ s2 tag, a ≠ b → crossTag s1 a b t.stag = .ok (some (s2, tag)) → exec (.edgePortCrossing q chan) s =
           .next (dropHolder (put s2 (moved { t with chan := (p.nums.getD c []).getD ((p.legsOf c).idxOf b) 0, stag := tag })) a t.stag))) ∧
       (is = [] → st.ckpt = [] → exec (.edgePortCrossing q chan) s = .next s1)) ∧
      (fromAway l chan = true →
       let c0 := l.chanSt chan
       let s1 := { s with free := s.free + 1 }
       let port := peerPort s l (keyImg chan) n (v.chan c).src
       (Config.freeBit s.free = true →
         (64 ≤ c0.recv.length ∨ port = none → exec (.edgePortCrossing q chan) s = .next s1) ∧
         (c0.recv.length < 64 → port ≠ none → ∃ x, x.1.rsv = 0 ∧ exec (.edgePortCrossing q chan) s =
           .next (put { s with free := s.free + 24 } { c0 with recv := c0.recv ++ [x] }))) ∧
       (Config.freeBit s.free = false →
         (c0.recv = [] ∨ chanRoom s l chan c0.moving = false → exec (.edgePortCrossing q chan) s = .next s1) ∧
         (∀ t tag rest, c0.recv = (t, tag) :: rest → chanRoom s l chan c0.moving = true → t.stag = 0 → 0 < stops.length →
           exec (.edgePortCrossing q chan) s = .next (put s1 { c0 with
             recv := rest
             legs := setNth legs end_ (last ++ [{ t with chan := numIn p c (stops.getLastD 0) }]) }))))) ∧
    (away →
      let c0 := l.chanSt chan
      let back := 0 < c0.sent ∧ Config.freeBit s.free = true
      let s1 := { s with free := s.free + 1 }
      exec (.tokenArrival q chan) s = .next s ∧ exec (.fifoSpill q chan) s = .next s ∧
      (back → exec (.edgePortCrossing q chan) s = .next (put s1 { c0 with sent := c0.sent - 1 })) ∧
      (¬back → awayPort s1 l chan = none → exec (.edgePortCrossing q chan) s = .next s1) ∧
      (∀ t rest port, ¬back → awayPort s1 l chan = some port → c0.legs = [t :: rest] → exec (.edgePortCrossing q chan) s =
        .next (dropHolder (put s1 { c0 with legs := [rest], sent := c0.sent + 1 }) (p.plotOf (v.chan c).src) t.stag))) ∧
    (∀ i r, l.requests[i]? = some r → isSelf r.chan = false → (l.img (keyImg r.chan)).2.plotOf
        ((l.img (keyImg r.chan)).1.chan (keyChan r.chan)).src = awayPlot →
      (farReplay s l i r.chan r.seq = none → exec (.replayRequest q i) s = .next s) ∧
      (∀ u, farReplay s l i r.chan r.seq = some u → exec (.replayRequest q i) s = .next u ∧ ∃ t l', launchOf u q = some l' ∧
        l'.requests = l.requests.eraseIdx i ∧ (l'.chanSt r.chan).replay = (l.chanSt r.chan).replay ++ [t] ∧
        t.seq = r.seq % 2 ^ 32 ∧ t.rsv = 0 ∧ (r.seq < 2 ^ 32 → t.kind = .data))) ∧
    (∀ i r e, l.requests[i]? = some r → isSelf r.chan = false →
      let g := keyImg r.chan
      let w := (l.img g).1
      let src := (w.chan (keyChan r.chan)).src
      let at_ := (l.img g).2.peOf src
      (l.img g).2.plotOf src ≠ awayPlot → isMatrix (w.node src).hrec = false → isStateful (w.node src).hrec = false →
      (peOf s at_).retain.find? (fun x => x.img == g && x.h == (l.img g).2.hidx.getD src 0 && x.emitted (w.node src).hrec r.seq) = some e → e.asked = false →
      ∃ u, exec (.replayRequest q i) s = .next u ∧ launchOf u q = some { l with requests := l.requests.eraseIdx i ++ askFor l g src e.bad } ∧
        { e with asked := true } ∈ (peOf u at_).retain) ∧
    (∀ g m port t rest i w, l.replayEnd chan = (g, m, port) → isMatrix ((l.img g).1.node m).hrec = false →
      (l.chanSt chan).replay = t :: rest → t.err = false →
      let at_ := (l.img g).2.peOf m
      let x := peOf s at_
      x.window.findIdx? (fun y => y.h == (l.img g).2.hidx.getD m 0 && y.need.elem (port, tokId t)) = some i → x.window[i]? = some w →
      let w' := { w with heads := insertHead w.heads (port, t), need := w.need.filter (fun b => b.1 != port) }
      exec (.replayToken q chan) s =
        .next (setPe (put s { l.chanSt chan with replay := rest }) at_ { x with window := setNth x.window i w' }))

/-! ## Streams (04 R99 to R104; 14 R302 to R305) -/

/-- AG_ELEMENT, HELD_ELEMENT_RETRY and STREAM_END on a port of a running launch: the address of a position (R99); a source places
MARK, a complete token in SEQ order with its lanes, and EOS when they are due, and else reads its next element from that address,
converts it and adds it to the token it fills; a sink stores the next lane of its oldest token, converted, at the position's address,
and takes the bytes off the counter; a lane that fails its check is held in the spill queue, and while it is held no later lane is
written (R79; log 55): one that would fail its check is held as well, until the spill queue is full (R103); a slot of an OUT
handle leaves as a token with the words of its lanes, while the port has sent no EOS of it; held elements wait for an invalidation or 65,536 ticks; an ended stream posts its
record, and the binding that waits becomes active. -/
def Obligations.StreamEvents : Prop :=
  (∀ (r : SRec) (i0 i1 i2 i3 i4 : Nat), i0 < r.count 0 → i1 < r.count 1 → i2 < r.count 2 → i3 < r.count 3 → i4 < r.count 4 →
    r.addrOf (i0 + r.count 0 * (i1 + r.count 1 * (i2 + r.count 2 * (i3 + r.count 3 * i4)))) =
      (((r.base : Int) + (if r.nibble then ((i0 / 2 : Nat) : Int) else i0 * r.stride 0) + i1 * r.stride 1 + i2 * r.stride 2 +
        i3 * r.stride 3 + i4 * r.stride 4) % 2 ^ 56).toNat) ∧
  ∀ (s : State) (q n : Nat) (l : Launch), launchOf s q = some l → l.lseq = q → l.runs = true →
    let v := l.variant
    let h := (v.node n).hrec
    let p := l.port n
    let pe := l.place.peOf n
    let plot := l.place.plotOf n
    let at_ := tidyPorts s l pe
    let queue := (peOf at_ pe).active.queue 0
    let places := fun (u : State) (t : Token) (p' : Port) => (peOf u pe).active.queue 0 = queue ++ [t] ∧
      launchOf u q = some { l.setPort n p' with idle := insert l.idle (partOf l plot) s.time }
    (l.swap = none → isPort h = true → eventHeldAt s q (.port n) = false →
      (p.active = none → exec (.agElement q n) s = .next at_) ∧
      (∀ r tid pl slot ctr user keys total, p.active = some (.stream r tid pl slot ctr user keys total) →
        let b := Binding.stream r tid pl slot ctr user keys total
        (isSource h = true → exec (.agElement q n) s = .next (sourceStep at_ l n b r) ∧
          (queue.length < 4 →
            (l.hdr.markint ≤ p.sinceMark → (∀ w ∈ p.window, w.holds = false) ∨ toCommutative v n = false → ∃ u t,
              exec (.agElement q n) s = .next u ∧ places u t { p with sinceMark := 0 } ∧
              t.kind = .mark ∧ t.seq = (p.nTok - p.window.length) % 2 ^ 32) ∧
            (∀ w rest, p.sinceMark < l.hdr.markint → toCommutative v n = false → p.window = w :: rest → w.full = true → w.holds = false →
              ∃ u t p', exec (.agElement q n) s = .next u ∧ places u t p' ∧
                p'.window = rest ∧ p'.sinceMark = p.sinceMark + 1 ∧ p'.nTok = p.nTok ∧
                p'.poisoned.map (·.seq) = p.poisoned.map (·.seq) ++ (if w.err then [w.num % 2 ^ 32] else []) ∧
                t.kind = .data ∧ t.seq = w.num % 2 ^ 32 ∧ t.err = w.err ∧ t.stag = w.stag ∧
                (packOfRec v n r = 1 → ∀ i < 16, t.valid.getLsbD i = decide (i < w.els.length) ∧
                  ∀ e, w.els[i]? = some (some e) → t.elems[i]? = some e)) ∧
            (p.generated = true → p.window = [] → p.eosIn = false → p.sinceMark = 0 → 0 < l.hdr.markint → ∃ u t,
              exec (.agElement q n) s = .next u ∧ t.kind = .eos ∧ places u t { p with eosIn := true })) ∧
          (∀ raw bad s2, queue.length < 4 → nextPlaced p l.hdr.markint (toCommutative v n) = none → p.generated = false → r.empty = false →
            r.chase = false → r.skind = 0 → p.linkHeld = none → p.spill.length < 16 →
            let new := beginsTok p
            let s1 := if new then admitTok at_ l n else at_
            (new = true → p.window.length + (queue.filter (fun t => t.kind == .data)).length < 64 ∧
              gatesAdmit (peOf at_ pe).active (v.node n) p.nTok = true) →
            agRead s1 (fabricCtx l keys) (r.addrOf p.pos) r.size = (s2, .ok (raw, bad)) → launchOf s2 q = some l →
            let pack := packOfRec v n r
            let span := r.tokenAt ((v.chan (v.node n).outA).lanes * pack) (if new then p.nTok else p.nTok - 1)
            let nib := (r.idx p.pos).getD 0 0 % 2 == 1
            let old := if new then { num := p.nTok, els := [], at_ := [], pos := p.pos, full := false, stag := 0, err := false }
              else (p.window.getLast?).getD { num := p.nTok, els := [], at_ := [], pos := p.pos, full := false, stag := 0, err := false }
            let w : WinTok := { old with
              els := old.els ++ [some (elemOf r pack raw nib)], at_ := old.at_ ++ [(r.addrOf p.pos, nib)]
              full := decide (p.pos + 1 = span.1 + span.2), err := old.err || bad }
            let p' := { p with
              window := (if new then p.window else p.window.dropLast) ++ [w], nTok := if new then p.nTok + 1 else p.nTok
              pos := p.pos + 1, uncorr := p.uncorr || bad, generated := decide (r.total ≤ p.pos + 1) }
            exec (.agElement q n) s = .next (setLaunch s2 (l.setPort n p')))) ∧
        (isSource h = false → exec (.agElement q n) s = .next (sinkStep at_ l n r tid ctr keys) ∧
          (sinkReady p = none → nextLane p = none → exec (.agElement q n) s = .next at_) ∧
          (∀ ix i e, sinkReady p = none → nextLane p = some (ix, i, e) → laneHeld p ix i = true → 16 ≤ p.spill.length →
            exec (.agElement q n) s = .next at_) ∧
          (∀ ix i e t lane es, sinkReady p = none →
            (nextLane p = some (ix, i, e) ∧ laneHeld p ix i = false) ∨ (∃ x rest, nextLane p = some x ∧ laneHeld p x.1 x.2.1 = true ∧
              (lanesLeft p).filter (fun y => !laneHeld p y.1 y.2.1) = (ix, i, e) :: rest) →
            p.sinkQ[ix]? = some (t, lane, es) →
            let ln := (v.chan ((v.node n).ports.getD (hLow h) noChan)).lanes
            let pos := (r.tokenAt ln (p.sinkTok - p.sinkQ.length + ix)).1 + i
            let bits := storeConv r.fmt (storeMode l r t.seq i) e
            let stored := fun (u : State) => modLaunch u q (fun l => l.setPort n { l.port n with
              sinkQ := setNth (l.port n).sinkQ ix (t, i + 1, es) })
            (∀ x s2, r.nibble = false → nextLane p = some (ix, i, e) → dataCheck at_ (fabricCtx l keys) .write (r.addrOf pos) r.size 1 = (s2, .ok x) →
              exec (.agElement q n) s = .next (stored (modLaunch
                (subPend (raiseFlags (writeLoc s2 x r.size bits.1) q (partOf l plot) bits.2) tid ctr r.size) q
                (fun l => l.setPort n { l.port n with performed := (l.port n).performed + 1 })))) ∧
            (∀ c a s2, p.spill.length < 16 → dataCheck at_ (fabricCtx l keys) .write (r.addrOf pos) r.size 1 = (s2, .bad c a) →
              let x : Spilled := { at_ := (r.addrOf pos, (r.idx pos).getD 0 0 % 2 == 1), tok := p.sinkTok - p.sinkQ.length + ix, lane := i
                                   page := r.addrOf pos / 65536 }
              exec (.agElement q n) s = .next (modLaunch (portFault s2 l n (r.addrOf pos) c a t.seq 1) q (fun l => l.setPort n
                { l.port n with spill := addSpill (l.port n).spill x })))) ∧
          (∀ t es, sinkReady p = some (t, es) → (v.node n).outA = noChan →
            let rest := if es.any (·.isSome) then (es.filter (·.isNone)).length else 0
            exec (.agElement q n) s = .next (modLaunch (subPend at_ tid ctr (rest * r.size)) q
              (fun l => l.setPort n { l.port n with sinkQ := (l.port n).sinkQ.tail, performed := (l.port n).performed + rest }))))) ∧
      (∀ tid k pl slot user, p.active = some (.handle tid k pl slot user) → isSource h = true →
        exec (.agElement q n) s = .next (handleStep at_ l n tid k pl slot user) ∧
        (∀ x, boundHandle at_ q tid k = some x → p.eosIn = true ∨ p.eosOut = true ∨ x.node ≠ n → exec (.agElement q n) s = .next at_) ∧
        (∀ x, boundHandle at_ q tid k = some x → p.eosIn = false → p.eosOut = false → x.node = n → queue.length < 4 → p.sinceMark < l.hdr.markint → x.head ≠ x.tail →
          gatesAdmit (peOf at_ pe).active (v.node n) p.nTok = true → listed at_.backed (2048 * plot + x.slotAddr x.head 0 / 4096) = false →
          let word := fun i => readRaw at_.mem (scratchAddr plot (x.slotAddr x.head i)) 8
          let t : Token := { kind := .data, stag := lookupD x.tags x.head 0, colour := 0, err := false, rsv := 0, seq := p.nTok % 2 ^ 32
                             chan := 0, valid := maskOf (fun i => decide (i < (v.chan (v.node n).outA).lanes) && word i / 2 ^ 63 == 1)
                             elems := lanes (fun i => BitVec.ofNat 40 (word i)) }
          let seen := sawBytes (touchPage at_ plot (x.slotAddr x.head 0)) (scratchAddr plot (x.slotAddr x.head 0)) 128
          let s1 := modLaunch (admitTok seen l n) q
            (fun l => l.setPort n { p with nTok := p.nTok + 1, sinceMark := p.sinceMark + 1 })
          exec (.agElement q n) s = .next (setBoundHandle (putPort0 s1 l n t) q tid k
            { x with head := (x.head + 1) % 2 ^ 32, tags := remove x.tags x.head })))) ∧
    (p.retryNow = false → s.time < p.retryAt + 65536 → exec (.heldElementRetry q n) s = .next s) ∧
    (∀ r tid plot slot ctr user keys total e raw bad s1, p.active = some (.stream r tid plot slot ctr user keys total) →
      isSource h = true → p.spill = [e] → p.linkHeld = none → recordWaits l n e.at_.1 = false →
      p.retryNow = true ∨ p.retryAt + 65536 ≤ s.time →
      let p' := { p with retryAt := s.time, retryNow := false }
      agRead (setLaunch s (l.setPort n p')) (fabricCtx l keys) e.at_.1 r.size = (s1, .ok (raw, bad)) →
      launchOf s1 q = some (l.setPort n p') →
      let fill := fun (w : WinTok) => if w.num = e.tok
        then { w with els := setNth w.els e.lane (some (elemOf r (packOfRec l.variant n r) raw e.at_.2)), err := w.err || bad } else w
      exec (.heldElementRetry q n) s = .next (setLaunch s1 (l.setPort n
        { p' with spill := [], uncorr := p.uncorr || bad, window := p.window.map fill }))) ∧
    (let ended := if isSource h then p.eosOut = true else p.eosIn = true ∧ p.sinkQ = []
     let next := match p.waiting with
       | some b => startBinding b p.poisoned
       | none => { Port.empty with poisoned := p.poisoned }
     let status := if p.uncorr then 0x10 else 0
     (¬ended → exec (.streamEnd q n) s = .next s) ∧
     (ended → ∀ r tid plot slot ctr user keys total, p.active = some (.stream r tid plot slot ctr user keys total) →
       let count := if r.empty then 0 else if r.chase then p.visited else if isSource h then r.total else p.consumed
       exec (.streamEnd q n) s = .next (post (setLaunch s (l.setPort n next))
         { opRecord l tid plot slot 2 status 0 user count (some (.port n)) with left := some (ctr, total - p.performed * r.size) })) ∧
     (ended → ∀ tid k plot slot user, p.active = some (.handle tid k plot slot user) →
       let l' := { l with orphans := remove l.orphans (16 * tid + k) }
       exec (.streamEnd q n) s = .next (post (setLaunch s (l'.setPort n next))
         (opRecord l' tid plot slot 2 status 0 user (p.nTok + p.consumed) (some (.port n))))))

/-! ## Firings and swaps (02 R47 to R55; 07 R186; 20 R398, R399) -/

/-- The handler that a PE selects: none that is blocked, none of a lower effective priority than another, and of those the
first at or after the pointer. -/
def Obligations.HandlerSelection : Prop :=
  ∀ (q : Plane) (ptr : Nat) (cs : List Cand),
    (∀ c, selectCand q ptr cs = some c → c ∈ cs ∧ c.blocked = false ∧ ∀ o ∈ cs, o.blocked = false →
      effPrio q o ≤ effPrio q c ∧ (effPrio q o = effPrio q c → (c.h + 16 - ptr % 16) % 16 ≤ (o.h + 16 - ptr % 16) % 16)) ∧
    (selectCand q ptr cs = none ↔ ∀ c ∈ cs, c.blocked = true) ∧
    (∀ c, effPrio q c = if 768 ≤ (q.nodeSt c.h).run then 16 else hPrio c.hrec)

/-- What stages compute (R328, R331 to R346): S1's moves and its scale application; each lane of S2 to S5 by its operation where M
is set and +0 elsewhere; integer and FP results of one rounding; LRED and LSCAN of IADD as sums; an accumulator's lanes and tag; a
release. Then HANDLER_FIRING, HANDLER_PROMOTION, PLANE_SWAP, MATRIX_PLOT_SWAP and MATRIX_VECTOR on a plot of a running launch: a
selected DATA firing whose S6 is a PASS or a lane reduction consumes its heads and its gate heads, steps the counters, and emits on
each valid output the token of R51 and R329: SEQ of the lowest port's head, COLOUR and STAG as the stages leave them, ERR the OR over
the heads consumed. A flush of a CTURN keeps its PE until its control firing is performed (R46, R357), and a cycle in which no handler
is selected counts as any other (R49; log 39). A firing that must wait counts as back-pressured (log 39); SWAPs carry SEQ and COLOUR 0
(log 84). -/
def Obligations.Firings : Prop :=
  (∀ (i : FireIn), stageRuns (hStage i.h 1) i.lead.colour = true →
    let w := hStage i.h 1
    let m := (flow0 i).m
    (∀ f, sOp w = 4 → stage1 i = .ok f → ∀ l < 16, f.m.getLsbD l = m.getLsbD (shufSrc i w l) ∧
      f.a[l]? = some (if m.getLsbD (shufSrc i w l) then (sel1 i (sA w) (shufSrc i w l)).c else 0#40)) ∧
    (∀ f, sOp w = 5 → stage1 i = .ok f → ∀ l < 16, f.m.getLsbD l = m.getLsbD (sImm w % 16) ∧
      f.a[l]? = some (if m.getLsbD (sImm w % 16) then (sel1 i (sA w) (sImm w % 16)).c else 0#40)) ∧
    (∀ v, sOp w = 6 → readTag i.plot (selTag i (sA w)) = .ok v → ∃ f, stage1 i = .ok f ∧ f.tag = 0 ∧ f.m = m ∧ ∀ l < 16,
      f.a[l]? = some (if m.getLsbD l then (w40Result (modeOf (sMod w)) (fmul (sel1 i (sA w) l).w (fp32 v))).1 else 0#40)) ∧
    (∀ cause, sOp w = 6 → readTag i.plot (selTag i (sA w)) = .error cause → stage1 i = .error cause)) ∧
  (∀ (i : FireIn) (j : Nat) (f : Flow), f.vs.length = j - 2 → 2 ≤ j →
    let w := hStage i.h j
    let r := stageJ i j f
    let x := fun slot sel l => selN i f w slot sel l
    (stageRuns w i.lead.colour = true → sOp w ≠ 0x20 → r.m = f.m ∧ r.colour = f.colour ∧ ∀ l < 16, (r.vs.getD (j - 2) [])[l]? =
      some (if f.m.getLsbD l then (opLane j (sOp w) (sMod w) (x 0 (sA w) l) (x 1 (sB w) l) (x 2 (sC w) l)).1 else 0#40)) ∧
    (stageRuns w i.lead.colour = true → sOp w = 0x20 → r.colour =
      if f.m.getLsbD 0 = true ∧ (x 0 (sA w) 0).i ≠ 0 then sMod w % 4 else f.colour) ∧
    (stageRuns w i.lead.colour = false → r.colour = f.colour ∧ r.fl = f.fl ∧ ∀ l < 16,
      (r.vs.getD (j - 2) [])[l]? = some (x 0 (sA w) l).c)) ∧
  (∀ (mod : Nat) (a b c : Opd),
    let wrap := fun (x : Int) => BitVec.ofInt 40 x
    let sat := fun (x : Int) => max (-(2 ^ 39)) (min (2 ^ 39 - 1) x)
    (mod % 2 = 0 → (opLane 2 0x10 mod a b c).1 = wrap (a.i + b.i) ∧ (opLane 2 0x11 mod a b c).1 = wrap (a.i - b.i) ∧
      (opLane 3 0x10 mod a b c).1 = wrap (a.i * b.i)) ∧
    (mod % 2 = 1 → (opLane 2 0x10 mod a b c).1.toInt = sat (a.i + b.i) ∧ (opLane 2 0x11 mod a b c).1.toInt = sat (a.i - b.i) ∧
      (opLane 3 0x10 mod a b c).1.toInt = sat (a.i * b.i)) ∧
    (opLane 2 0x12 mod a b c).1 = wrap (min a.i b.i) ∧ (opLane 2 0x13 mod a b c).1 = wrap (max a.i b.i) ∧
    (opLane 2 0x15 mod a b c).1 = a.c &&& b.c ∧ (opLane 2 0x16 mod a b c).1 = a.c ||| b.c ∧ (opLane 2 0x17 mod a b c).1 = a.c ^^^ b.c ∧
    (opLane 2 0x14 0 a b c).1 = (if a.i = b.i then BitVec.allOnes 40 else 0#40) ∧
    (opLane 2 0x14 2 a b c).1 = (if a.i < b.i then BitVec.allOnes 40 else 0#40) ∧
    (opLane 3 0x01 mod a b c).1 = (w40Result (modeOf mod) (fmul a.w b.w)).1 ∧
    (opLane 2 0x01 mod a b c).1 = (w40Result (modeOf mod) (fadd (modeOf mod) a.w b.w)).1 ∧
    (opLane 2 0x02 mod a b c).1 = (w40Result (modeOf mod) (fadd (modeOf mod) a.w b.w.neg)).1 ∧
    (opLane 3 0x02 mod a b c).1 = (w40Result (modeOf mod) (fadd (modeOf mod) (fmul a.w b.w).1 c.w)).1 ∧
    (a.w.lt b.w = true → (opLane 2 0x03 mod a b c).1 = a.wc ∧ (opLane 2 0x04 mod a b c).1 = b.wc)) ∧
  (∀ (i : FireIn) (f : Flow),
    let w := hStage i.h 6
    let r := v6Of i f
    let sum := fun (p : Nat → Bool) => (((List.range 16).filter (fun l => f.m.getLsbD l && p l)).map (fun l => (opdA6 i f l).i)).sum
    (sOp w = 1 → sMod w = 3 → r.1[0]? = some (BitVec.ofInt 40 (sum (fun _ => true))) ∧ r.2.1 = if f.m = 0#16 then 0#16 else 1#16) ∧
    (sOp w = 2 → sMod w = 3 → r.2.1 = f.m ∧ ∀ l < 16,
      r.1[l]? = some (if f.m.getLsbD l then BitVec.ofInt 40 (sum (fun k => decide (k ≤ l))) else 0#40))) ∧
  (∀ (s : State) (f : Firing) (i : FireIn) (fl : Flow),
    let w := hStage f.hrec 6
    let a := accAt s f.pe (sDest w)
    sDest w < (peOf s f.pe).active.accs.length →
    (∀ adopt, sOp w = 4 → sMod w % 2 = 0 → accTag (plotOf s f.plot) a false fl.tag = .ok adopt → ∃ u, fireAcc s f i fl = .ok u ∧
      accAt u f.pe (sDest w) = { a with
        lanes := lanes (fun l => if fl.m.getLsbD l then BitVec.ofInt 40 ((laneOf a.lanes l).toInt + (opdA6 i fl l).i) else laneOf a.lanes l)
        tag := if adopt then fl.tag else a.tag }) ∧
    (∀ adopt, sOp w = 3 → accTag (plotOf s f.plot) a true fl.tag = .ok adopt → ∃ u, fireAcc s f i fl = .ok u ∧
      accAt u f.pe (sDest w) = { a with
        lanes := lanes (fun l => if fl.m.getLsbD l
          then (w40Result (modeOf (sMod w)) (fadd (modeOf (sMod w)) (w40 (laneOf a.lanes l)) (opdA6 i fl l).w)).1 else laneOf a.lanes l)
        tag := if adopt then fl.tag else a.tag }) ∧
    (∀ float cause, accTag (plotOf s f.plot) a float fl.tag = .error cause → sOp w = (if float then 3 else 4) →
      fireAcc s f i fl = .error (.cause cause 0))) ∧
  ∀ (s : State) (pe : Nat) (l : Launch), peLaunch s pe = some l → l.runs = true → launchOf s l.lseq = some l →
    let at_ := tidyPorts s l pe
    let plane := (peOf at_ pe).active
    let cs := plane.hrecs.filterMap (fun x => candOf at_ l pe x.1)
    let g := plane.img
    let emit := fun (k side : Nat) (node : Node) (t : Token) (u : State) =>
      let out := if side = 0 then node.outA else node.outB
      if out = noChan then u
      else modPlane (emitTok u l.lseq (chanKey g out) t) pe fun q =>
        q.setNodeSt k (if side = 0 then { q.nodeSt k with eA := (q.nodeSt k).eA + 1 } else { q.nodeSt k with eB := (q.nodeSt k).eB + 1 })
    (handlerPart l pe = none → plane.matrix = false →
      (∀ x, plane.flush = some x →
        let over_ := fun u : State => modPlane u pe fun q => { q with flush := none }
        let held := (windowReady at_ l pe (fun k => k == x.h)).bind (fun w => fireHeld at_ l pe w.1 w.2.1 w.2.2)
        let own := firePick at_ l pe 1 (cs.filter (fun c => c.h == x.h))
        (x.done < 16 → (∀ u, flushStep at_ l pe x = some u →
            exec (.handlerFiring pe) s = .next (countRuns (markActive u l (pe / 64)) pe cs none)) ∧
          (flushStep at_ l pe x = none → exec (.handlerFiring pe) s = .next (countRuns at_ pe cs none))) ∧
        (16 ≤ x.done → (∀ u, held = some u → exec (.handlerFiring pe) s = .next (countRuns (over_ u) pe cs none)) ∧
          (∀ u k r, held = none → own = some (u, k, r) → exec (.handlerFiring pe) s = .next (countRuns (over_ u) pe cs (some k))) ∧
          (held = none → own = none → exec (.handlerFiring pe) s = .next (countRuns at_ pe cs none)))) ∧
      (plane.flush = none →
        let held := (windowReady at_ l pe (fun _ => true)).bind (fun x => fireHeld at_ l pe x.1 x.2.1 x.2.2)
        (∀ u, held = some u → exec (.handlerFiring pe) s = .next (countRuns u pe cs none)) ∧
        (held = none →
          (swapHead plane = true → exec (.handlerFiring pe) s = .next (countRuns at_ pe cs none)) ∧
          (swapHead plane = false →
            (firePick at_ l pe cs.length cs = none →
              exec (.handlerFiring pe) s = .next (countRuns at_ pe (cs.map ({ · with blocked := true })) none)) ∧
            (∀ u h cs', firePick at_ l pe cs.length cs = some (u, h, cs') → exec (.handlerFiring pe) s = .next (countRuns u pe cs' (some h))) ∧
            (∀ c u, selectCand plane (peOf at_ pe).ptr cs = some c → fireCand at_ l pe c = some u →
              exec (.handlerFiring pe) s = .next (countRuns u pe cs (some c.h))) ∧
            (∀ c fl, selectCand plane (peOf at_ pe).ptr cs = some c → c.kind = .data → c.heads ≠ [] →
              (∀ x ∈ c.heads, x.2.err = false) →
              let st := plane.nodeSt c.h
              let k := if st.redo.isSome then st.keepK.getD plane.k else plane.k
              let node := (l.img g).1.node c.n
              let gates := gateHeads plane node node.gates .data
              let lead := (c.heads.head?.map (·.2)).getD (ctlToken .null 0 0 false)
              let s1 := takeHeads at_ pe c.heads
              let s1 := setPe s1 pe { peOf s1 pe with ptr := (c.h + 1) % 16 }
              let s1 := modPlane s1 pe fun q => q.setNodeSt c.h { q.nodeSt c.h with redo := none, keepK := none }
              let s2 := stepCounters s1 pe c st.redo.isSome
              let i : FireIn := { h := c.hrec, heads := c.heads, accs := (peOf s2 pe).active.accs, k := k, plot := plotOf s2 (pe / 64) }
              (isStateful c.hrec = false ∨ (behindHole (l.img g).1 (peOf at_ pe) c.h = false ∧ ∀ x ∈ gates, x.2.err = false)) →
              stages i = .ok fl → fl.retag = none → stageRuns (hStage c.hrec 6) lead.colour = true → sOp (hStage c.hrec 6) ≤ 2 →
              let r := v6Of i fl
              let t : Token := { kind := .data, stag := fl.tag, colour := fl.colour, err := gates.any (·.2.err), rsv := 0
                                 seq := lead.seq % 2 ^ 32, chan := 0, valid := r.2.1, elems := r.1 }
              let s3 := raiseFlags (raiseFlags s2 l.lseq (partOf l (pe / 64)) fl.fl) l.lseq (partOf l (pe / 64)) r.2.2
              let s4 := modPlane (emit c.h 1 node t (emit c.h 0 node t s3)) pe fun q =>
                q.setNodeSt c.h { q.nodeSt c.h with c := (q.nodeSt c.h).c + 1 }
              let s5 := dropHeads (takePorts s4 pe (gates.map (·.1))) (pe / 64) c.heads
              refOver s5 (pe / 64) = false →
              exec (.handlerFiring pe) s = .next (countRuns (markActive s5 l (pe / 64)) pe cs (some c.h))))))) ∧
    (∀ k, promotes s l pe k = true → exec (.handlerPromotion pe k) s = exec (.handlerFiring pe) s) ∧
    (∀ k, promotes s l pe k = false → exec (.handlerPromotion pe k) s = .next s) ∧
    (∀ k c, candOf s l pe k = some c → (promotes s l pe k = true ↔ c.blocked = false ∧ 768 ≤ ((peOf s pe).active.nodeSt k).run + 1)) ∧
    (∀ chan st c, st = l.chanSt chan → ∀ t stop rest, (l.img (keyImg chan)).2.stopsOf (keyChan chan) = stop :: rest →
      c = ((l.img (keyImg chan)).2.nums.getD (keyChan chan) []).headD 0 →
      launchOf (emitTok s l.lseq chan t) l.lseq = some (l.setChan chan { st with
        legs := (st.legs.getD 0 [] ++ [{ t with chan := c }]) :: (List.range rest.length).map (fun i => st.legs.getD (i + 1) []) })) ∧
    (maySwap s l pe = true → ∃ u, exec (.planeSwap pe) s = .next u ∧ (peOf u pe).active = (peOf s pe).shadow ∧
      (peOf u pe).swapped = true ∧ (∀ x, x ≠ pe → peOf u x = peOf s x) ∧
      (peOf u pe).shadow = (peOf s pe).active.ports.foldl
        (fun x i => x.setQueue i.1 ((x.queue i.1).dropWhile (fun t => t.kind == .swap))) (peOf s pe).active) ∧
    (maySwap s l pe = false →
      (l.swap = none → exec (.planeSwap pe) s = .next s) ∧
      (l.swap ≠ none →
        let now := (swapsDue l pe).filter (chanCredit s l)
        exec (.planeSwap pe) s = .next (modLaunch (now.foldl (fun s k => emitTok s l.lseq k (ctlToken .swap 0 0 false)) s) l.lseq
          fun l => { l with swap := l.swap.map (fun w => { w with due := w.due.filter (fun k => !now.elem k) }) }))) ∧
    (∀ plot, pe = 64 * plot → l.swap ≠ none → (peOf s pe).swapped = false → (peOf s pe).active.matrix = true →
      (∀ i, i < 8 → ∃ t, (peOf s pe).active.head i = some t ∧ t.kind = .swap) →
      (∀ k, (k ∈ planeOuts l (peOf s pe).active ∨ ∃ e, e < 64 ∧ k ∈ planeOuts l (peOf s (pe + e)).shadow) →
        chanCredit s l k = true) → ∃ u, exec (.matrixPlotSwap plot) s = .next u ∧
        (∀ e, e < 64 → (peOf u (64 * plot + e)).active = (peOf s (64 * plot + e)).shadow ∧ (peOf u (64 * plot + e)).swapped = true) ∧
        ((plotOf u plot).matrix = (plotOf s plot).shMatrix ∧ (plotOf u plot).shMatrix = (plotOf s plot).matrix)) ∧
    (∀ plot g n hs, pe = 64 * plot → matrixNode s plot = some (g, n) → headsOf plane (List.range 8) = some hs →
      (∀ c ∈ columnsOf (l.img g).1 n, chanCredit at_ l (chanKey g c.2) = true) → faultHeldAt l (.pe pe 0) = false →
      let v := fun k => hs.all (fun y => y.2.kind == k) = true
      let taken := takeHeads at_ pe hs
      let x := plotOf at_ plot
      let seq := (hs.head?.map (·.2.seq)).getD 0
      let count := fun (s : State) => modPlane s pe fun q =>
        q.setNodeSt 0 { q.nodeSt 0 with c := (q.nodeSt 0).c + 1, eA := (q.nodeSt 0).eA + 1 }
      (v .data → (∀ f, x.matrix.pending = some f → seq < f) →
        ((∀ f ∈ queuedLoads l plot, seq < f) →
          exec (.matrixVector plot) s = .next (markActive (count (runVector taken l plot g n hs)) l plot)) ∧
        (∀ f ∈ queuedLoads l plot, f ≤ seq → exec (.matrixVector plot) s = .next at_)) ∧
      (∀ f, v .data → x.matrix.pending = some f → f ≤ seq → (∀ m ∈ x.matrix.retained, m.useB ≠ x.matrix.useB) →
        exec (.matrixVector plot) s =
          .next (setPlot at_ plot { x with matrix := { x.matrix with useB := !x.matrix.useB, pending := none } })) ∧
      (v .eos → let tag := (hs.head?.map (·.2.stag)).getD 0
        let t := { ctlToken .eos ((hs.head?.map (·.2.colour)).getD 0) seq (hs.any (·.2.err)) with stag := tag }
        let sent := emitColumns taken l g n (fun _ => t)
        (t.err = false → exec (.matrixVector plot) s = .next (markActive (dropHeads sent plot hs) l plot)) ∧
        (t.err = true → ∃ m : MVec, m.toks = hs.map (·.2) ∧ m.bad = (columnsOf (l.img g).1 n).map (·.1) ∧ m.asked = false ∧
          exec (.matrixVector plot) s = .next (markActive (setPlot sent plot { plotOf sent plot with matrix :=
            { (plotOf sent plot).matrix with retained := (plotOf sent plot).matrix.retained ++ [m] } }) l plot))))

/-! ## The health service (08 R188 to R198) -/

/-- Scores: a corrected error and a resent flit charge their unit alone, up to 65,535; a score that reaches 256 asks for a
lease, and one that reaches 4,096 for a retirement without a test, unless a lease's patterns run, which alone decide then; every 10
seconds each score falls by 1. A routine lease is asked for on its timer, and its cursor moves on (where cursors start is log 11). A
channel's controller may meet an error that it cannot correct: whether it does is free (log 96). -/
def Obligations.HealthScores : Prop :=
  ∀ (s : State) (u : Nat),
    (∀ i ∈ [Instr.correctedError u, .linkRetry u],
      (i = .correctedError u ∧ u < 1056 ∧ isLane u = false ∨ i = .linkRetry u ∧ isLane u = true) →
      ∃ t, exec i s = .next t ∧ scoreOf t u = Nat.min (scoreOf s u + 1) 65535 ∧ (∀ v, v ≠ u → scoreOf t v = scoreOf s v) ∧
        (scoreOf s u = 255 → isRetired s u = false → ∃ x, leaseOf t u = some x) ∧
        (scoreOf s u = 4095 → isRetired s u = false → ∃ x, leaseOf t u = some x ∧
          (u ∈ x.retire ∨ x.st = .active ∧ x.retire = [] ∧ leaseOf s u = some x)) ∧
        (scoreOf s u = 4095 → (∀ y, leaseOf s u = some y → y.st ≠ .active) → isRetired s u = false →
          ∃ x, leaseOf t u = some x ∧ u ∈ x.retire) ∧
        t.launches = s.launches ∧ t.threads = s.threads ∧ t.mem = s.mem) ∧
    exec (.correctedError 1056) s = .next { s with l2ce := Nat.min (s.l2ce + 1) (2 ^ 32 - 1) } ∧
    (isLane u = true → exec (.correctedError u) s = .next s) ∧ (isLane u = false → exec (.linkRetry u) s = .next s) ∧
    (s.brock.lastDecay < s.time / 10000000000 → ∃ t, exec .scoreDecay s = .next t ∧ t.brock.lastDecay = s.brock.lastDecay + 1 ∧
      (∀ x ∈ t.brock.scores, 0 < x.2 ∧ (x.1, x.2 + 1) ∈ s.brock.scores) ∧
      (∀ x ∈ s.brock.scores, 1 < x.2 → (x.1, x.2 - 1) ∈ t.brock.scores)) ∧
    (s.time / 10000000000 ≤ s.brock.lastDecay → exec .scoreDecay s = .next s) ∧
    (let c := cursorOf u
     let first := (cursorUnits c).1
     let count := (cursorUnits c).2
     let due := (lookup s.brock.cursors (16 + c)).getD 0 + cursorTicks c
     (s.time < due → exec (.routineLease u) s = .next s) ∧
     (due ≤ s.time → u < 1056 → cursorNext s c = some u → ∃ t, exec (.routineLease u) s = .next t ∧
       leaseOf t u = some { unit := u, st := .asked, askedAt := s.time, immediate := false, retire := [], window := 0,
                            fails := 0, again := false } ∧
       lookup t.brock.cursors c = some ((u - first + 1) % count) ∧ lookup t.brock.cursors (16 + c) = some s.time))

/-- Leases: a request that may start begins on a free plot or a lane group; one whose launch finds no place is deferred, tried
again when plots are released, and forced after ten minutes; a memory channel is tested window by window; a pass halves the
score and returns the unit, and a failure, or a score of 4,096, retires it; where a site's plot and CC both retire, its lease goes on
for the second. What a lease takes out of service is log 50, retirement's details log 73. A KLink group that the far end leases is
withdrawn here without a record or a score (R410); whether the far end does is free (log 99). -/
def Obligations.Leases : Prop :=
  ∀ (s : State) (u : Nat),
    (leaseOf s u = none →
      let far := Config.farLeased u s.time = true
      (isKlink u = true → groupIn s u = true → lastGroup s u = false → exec (.laneGroupLease u) s = .next
        (if far then { s with brock := { s.brock with far := addNat s.brock.far u } } else s)) ∧
      (isKlink u = false ∨ groupIn s u = false ∨ lastGroup s u = true → exec (.laneGroupLease u) s = .next s) ∧
      (∀ r, u ∈ s.brock.far → exec (.leaseEnd u r) s = .next
        (if far then s else { s with brock := { s.brock with far := s.brock.far.filter (· != u) } })) ∧
      (∀ r, u ∉ s.brock.far → exec (.leaseEnd u r) s = .next s)) ∧
    ∀ (x : Lease), leaseOf s u = some x →
    let held := (plotOf s u).holder
    let becomes := fun (i : Instr) (y : Lease) => ∃ t, exec i s = .next t ∧ leaseOf t u = some y
    let active := { x with st := .active, again := false }
    (u < 128 → mayStart s u x = true → held = none → becomes (.plotLease u) active) ∧
    (∀ q l, u < 128 → mayStart s u x = true → held = some q → launchOf s q = some l → l.runs = true → x.retire = [] →
      relocate s l (freeForLease s l u) = none → becomes (.plotLease u) { x with st := .deferred, again := false }) ∧
    (∀ q l, u < 128 → held = some q → launchOf s q = some l → l.runs = false → x.retire = [] → exec (.plotLease u) s = .next s) ∧
    (u < 128 → x.st = .deferred → x.again = true → dieBusy s u = false →
      (held = none → becomes (.leaseDeferredRetry u) active) ∧
      (tryPlotLease s u x = none → becomes (.leaseDeferredRetry u) { x with again := false })) ∧
    (u < 128 → x.st = .deferred → x.retire = [] → s.time < x.askedAt + 600000000000 → exec (.leaseForce u) s = .next s) ∧
    (u < 128 → x.st = .deferred → x.askedAt + 600000000000 ≤ s.time → dieBusy s u = false →
      (held = none → becomes (.leaseForce u) active) ∧
      (∀ q l, held = some q → launchOf s q = some l → l.lseq = q → ∃ t l', exec (.leaseForce u) s = .next t ∧
        leaseOf t u = some active ∧ launchOf t q = some l' ∧ l'.resident = false ∧ l'.leaseUnit = some x.unit ∧
        (l.runs = true → Freeze.forced ∈ l'.frozen))) ∧
    (isLane u = true → mayStart s u x = true → x.retire = [] → ∃ t, exec (.laneGroupLease u) s = .next t ∧
      leaseOf t u = some active ∧ u ∈ t.brock.withdrawn ∧ t.mem = s.mem) ∧
    (∀ c r, u = unitChan c → c < 192 → x.st = .active → x.window < 4096 → r = .clean ∨ r = .failed →
      becomes (.memoryWindowTest c r) { x with window := x.window + 1, fails := x.fails + if r = .failed then 1 else 0 }) ∧
    (x.st = .active → x.retire = [] → patternsRun u x = true →
      (x.fails = 0 → ∃ t, exec (.leaseEnd u .clean) s = .next t ∧ leaseOf t u = none ∧ scoreOf t u = scoreOf s u / 2 ∧
        t.brock.retired = s.brock.retired) ∧
      (∃ t, exec (.leaseEnd u .failed) s = .next t ∧ leaseOf t u = none ∧ u ∈ t.brock.retired)) ∧
    (u ∈ x.retire → classOf u ≠ .plot ∨ x.st = .active → ∃ t, exec (.retirement u) s = .next t ∧
      u ∈ t.brock.retired ∧ t.brock.serial = s.brock.serial + 1 ∧
      ((∀ o ∈ x.retire, o = u) → leaseOf t u = none) ∧
      (∀ o rest, x.retire.filter (· != u) = o :: rest → leaseOf t u = some { x with unit := o, retire := o :: rest }))

/-! ## The module (10 R216, R225 to R236; 09 R204, R205) -/

/-- TIME_SLICE_END passes the slice to the next device with work, after WEIGHT × 100 µs or where the active one has none (how a
frozen launch keeps its slice mark is log 67). VARIANT_NARROW acts on a launch that is short and quiescent (its readings are log 68).
MONITOR_WINDOW_END appends one record for each granule and kind of the windows that have ended; LOG_BLOCK_SEAL closes a block after a
second, or a full one, in 16,384 bytes, and where the store is full it needs a fetched block (which one gives way is log 101).
REMOTE_ACCESS acts on the device that the request names, in its domain, under its slot; what it answers leaves the module (log 76). -/
def Obligations.SharingEvents : Prop :=
  ∀ (s : State),
    (∀ v w d e, vdOf s v = some d → d.sliceOn = true → nextSharer s v d.plotmask = some w → vdOf s w = some e →
      d.sliceAt + Nat.max 1 d.weight * 100000 ≤ s.time ∨ hasWork s v = false → ∃ t, exec (.timeSliceEnd v) s = .next t ∧
        vdOf t v = some { d with sliceOn := false } ∧ vdOf t w = some { e with sliceOn := true, sliceAt := s.time } ∧
        (∀ q l, launchOf s q = some l → ∃ l', launchOf t q = some l' ∧
          (l.vd = v → Freeze.slice ∈ l'.asked ∨ Freeze.slice ∈ l'.frozen) ∧
          (l.vd = w → Freeze.slice ∉ l'.asked ∧ Freeze.slice ∉ l'.frozen) ∧ (l.vd ≠ v → l.vd ≠ w → l' = l))) ∧
    (∀ v d, vdOf s v = some d → s.time < d.sliceAt + Nat.max 1 d.weight * 100000 → hasWork s v = true →
      exec (.timeSliceEnd v) s = .next s) ∧
    (∀ q l v p t, launchOf s q = some l → nextSmaller l = some v → l.runs = true → short s l = true → withinVariant s l v = true →
      quiescent s l = true → l.shadow = none → l.swap = none → narrowPlace s l v = some p → narrowTo s l v p = some t →
      exec (.variantNarrow q) s = .next t) ∧
    (∀ q l, launchOf s q = some l → short s l = false → exec (.variantNarrow q) s = .next s) ∧
    (∀ v m d ml, vdOf s v = some d → lookup d.monlogs m = some ml →
      (∃ t d' ml', exec (.monitorWindowEnd v m) s = .next t ∧ vdOf t v = some d' ∧ lookup d'.monlogs m = some ml' ∧
        ml'.touches = ml.touches.filter (fun x => decide (s.time / 1000000 ≤ x.1 / 2 ^ 41)) ∧ d'.mons = d.mons ∧ t.mem = s.mem ∧
        (let old := ml.touches.filter (fun x => decide (x.1 / 2 ^ 41 < s.time / 1000000))
         ml.recs.length + old.length < 404 → ml'.recs = ml.recs ++ old.map (fun x =>
           logRec x.2.1 x.2.2.1 x.2.2.2.1 (x.1 % 2 ^ 41 / 2) m (x.1 % 2) x.2.2.2.2))) ∧
      (s.time < ml.openAt + 1000000000 → ml.recs.length < 404 → exec (.logBlockSeal v m) s = .next s) ∧
      (logFull d = true → exec (.logBlockSeal v m) s = .next s) ∧
      (ml.recs ≠ [] → ml.openAt + 1000000000 ≤ s.time ∨ 404 ≤ ml.recs.length → logFull d = false → ∃ t d' ml' b,
        exec (.logBlockSeal v m) s = .next t ∧ vdOf t v = some d' ∧ lookup d'.monlogs m = some ml' ∧ ml'.recs = ml.recs.drop 404 ∧
        ml'.next = ml.next + 1 ∧ lookup ml'.blocks ml.next = some b ∧ b.length = 16384 ∧
        b.take 8 = natBytes 4 0x31474C4B ++ natBytes 2 1 ++ natBytes 1 v ++ natBytes 1 m)) ∧
    (∀ r,
      let v := r.vd
      let n := remoteLen r.op
      let there := inDomain s v r.domain = true ∧ regionAt s r.addr = .dram ∧ regionAt s (r.addr + n - 1) = .dram
      let eng := (slotOf s r.slot).engid
      (¬there ∨ holdsSlot s v r.slot = false → exec (.remoteAccess r) s = .next s) ∧
      (there → holdsSlot s v r.slot = true →
        (∀ k, r.op = .read k → exec (.remoteAccess r) s = .next s) ∧
        (∀ b, r.op = .write b → exec (.remoteAccess r) s = .next (writeKeyed s eng r.addr b.length (bytesNat b))) ∧
        (∀ op k y, r.op = .amo op k y → poisoned s r.addr k = false →
          exec (.remoteAccess r) s = .next (writeKeyed s eng r.addr k (amoVal op k (readKeyed s eng r.addr k) y))) ∧
        (∀ k e y, r.op = .cas k e y → poisoned s r.addr k = false → exec (.remoteAccess r) s =
          .next (if readKeyed s eng r.addr k = e then writeKeyed s eng r.addr k y else s))))

/-- POWER_ON, NURSERY_EXIT, FIRMWARE_UPDATE and POWER_ARBITRATION: what power-on clears and keeps and which image runs; full
service begins once bring-up is done and no device is open; an update writes one place and lowers no SVN record; no clock falls
below 900 MHz. When bring-up ends, and when an update or the arbiter acts, is the environment's (log 19); the readings of the nursery
are log 70, that an update's returned units are back at once is log 74, and the clocks that the arbiter sets are free within their
bounds (log 75). -/
def Obligations.ModuleEvents : Prop :=
  ∀ (s : State),
    (∀ a b, s.fw = [a, b] →
      let may := fun f : FwPlace => f.valid = true ∧ s.maxSvn ≤ f.svn
      ∃ t, exec .powerOn s = .next t ∧ t.threads = [] ∧ t.launches = [] ∧ t.vds = [] ∧ t.slots = [] ∧ t.plots = [] ∧ t.pes = [] ∧
        t.mem = [] ∧ t.waiting = [] ∧ t.colls = [] ∧ t.time = 0 ∧ t.full = false ∧ t.bringup = .running ∧ t.fw = s.fw ∧ t.brock.leases = [] ∧
        t.brock.scores = [] ∧ t.brock.fuses = s.brock.fuses ∧
        (may a → ¬may b ∨ b.svn ≤ a.svn → t.running = 0 ∧ t.maxSvn = Nat.max s.maxSvn a.svn) ∧
        (may b → ¬may a ∨ a.svn < b.svn → t.running = 1 ∧ t.maxSvn = Nat.max s.maxSvn b.svn) ∧
        (¬may a → ¬may b → t.running = 2 ∧ t.maxSvn = s.maxSvn)) ∧
    (∀ ok : Bool, s.bringup = .running →
      exec (.nurseryExit ok) s = .next (if ok then { s with bringup := .done, full := s.full || s.vds.isEmpty }
        else { s with bringup := .failed })) ∧
    (s.bringup = .done → ∀ ok, exec (.nurseryExit ok) s = .next { s with full := s.full || s.vds.isEmpty }) ∧
    (∀ place svn digest valid removed, place < s.fw.length → ∃ t, exec (.firmwareUpdate place svn digest valid removed) s = .next t ∧
      t.fw[place]? = some { valid := valid, svn := svn % 2 ^ 32, digest := digest % 2 ^ 384 } ∧
      (∀ i, i ≠ place → t.fw[i]? = s.fw[i]?) ∧ t.maxSvn = s.maxSvn ∧ t.running = s.running ∧ t.mem = s.mem ∧
      (valid = false → t.brock = s.brock) ∧
      (valid = true → ∀ x, x ∈ t.brock.flash ↔ x ∈ s.brock.flash ∧ x.1 ∉ removed)) ∧
    (∃ t, exec .powerArbitration s = .next t ∧ (∀ f, f < 32 → ∃ c, lookup t.mhz f = some c ∧ 900 ≤ c) ∧ t.lastArb = s.time ∧
      t.mem = s.mem ∧ t.threads = s.threads ∧ t.launches = s.launches ∧ t.plots = s.plots)

/-! ## Encodings (12 R252 to R262) -/

/-- Every well-formed control-thread instruction, of all families and at every value its fields can hold, is what the
decoder reads from the words that the encoder writes. -/
def Obligations.EncodeThenDecode : Prop :=
  ∀ i : Instr, i.wf = true → encode i ≠ [] → decodeWords (encode i) = some i

/-- Whatever two words the decoder accepts, it reads a well-formed instruction from them, and the encoder writes that
instruction as exactly those words (the second only for a two-word opcode): no bit of a word is dropped and no two words
mean one instruction. -/
def Obligations.DecodeThenEncode : Prop :=
  ∀ (w v : IWord) (i : Instr), decode w v = .ok i →
    i.wf = true ∧ encode i = if isTwoWord w then [w, v] else [w]

/-- Words written out from the spec's encodings: each line of "Encodings at a glance" of 13, some of those of 12, 14 and
16, and the words with a reserved bit set or an odd register that trap there. -/
def Obligations.WordsDecode : Prop :=
  decodeWords [0x00000001#32] = some .nop ∧
  decodeWords [0x18208000#32, 0x00002710#32] = some (.addLong 2 2 10000) ∧
  decodeWords [0x60BFFFFE#32] = some (.br 1 0x3FFFFE) ∧
  decodeWords [0x48B57400#32] = some (.ldAcq 11 21 3 false 4 0) ∧
  decodeWords [0xC0401000#32, 0#32] = some (.sbind 1 0 4 0) ∧
  decodeWords [0xC0000880#32, 0x0000F000#32] = some (.sbindHandle 1 0x1000 0 7 0) ∧
  decodeWords [0xCC824A58#32, 0x2C000000#32] = some (.cpy 2 5 8 9 10 11) ∧
  decodeWords [0xDD400100#32, 0#32] = some (.coll .allreduce .add .fp32 false 0 1 20 0 0) ∧
  decodeWords [0xE8A18010#32] = some (.cbput 1 1 0 10) ∧
  decodeWords [0xA05050A0#32] = some (.smul 20 20 40) ∧
  decodeWords [0xA89C9001#32] = some (.smov 201 9) ∧
  decodeWords [0x1430C004#32] = some (.sllImm 3 3 4) ∧
  decodeWords [0x2841482D#32] = some (.bfxS 4 5 8 11) ∧
  decodeWords [0x0041462B#32] = some (.addsc 3 4 5 6) ∧
  decodeWords [0x00518733#32] = some (.sel 3 5 6 7) ∧
  decodeWords [0x31C10064#32] = some (.cmpCcImm 3 .ltu 4 100) ∧
  decodeWords [0x64100010#32] = some (.jal 1 16) ∧
  decodeWords [0x4051A008#32] = some (.ld 5 6 2 false 8) ∧
  decodeWords [0x4CA57400#32] = some (.stRel 10 21 3 4 0) ∧
  decodeWords [0x54350420#32] = some (.amoD .add 3 20 4 0 0) ∧
  decodeWords [0x58850C4C#32] = some (.cas16 8 20 12 1 4) ∧
  decodeWords [0x5C400000#32] = some (.fence 4) ∧
  decodeWords [0x80200000#32] = some (.mfs 2 0) ∧
  decodeWords [0x84008001#32] = some (.mts 1 2) ∧
  decodeWords [0x88000007#32] = some (.trap 7) ∧
  decodeWords [0x8C000001#32] = some .rett ∧
  decodeWords [0x8C000002#32] = some .wfe ∧
  decodeWords [0x8C801003#32] = some (.getev 2 8) ∧
  decodeWords [0x8C018004#32] = some (.wrpk 6) ∧
  decodeWords [0x90624000#32] = some (.mtt 3 9) ∧
  decode 0x1430C104#32 0#32 = .error .illegalEncoding ∧
  decode 0x88010000#32 0#32 = .error .illegalEncoding ∧
  decode 0x58950C4C#32 0#32 = .error .illegalEncoding ∧
  decode 0#32 0#32 = .error .illegalOpcode

/-! ## A step (01 R14, R19; 12 R253) -/

/-- INSTRUCTION_ISSUE at a CC, and the step that takes it. With thread `tid` in `slot` picked (R19), the slot's successor
becomes the first to be looked at next, and a slot that yielded is passed over only until another issues (R282). Where
the fetch at the pc answers a word that decodes, alone or with the word after it, the step is what the instruction does;
where a fetch is refused, the thread traps with its cause, TVAL the address (check 1 of R253); where the words decode to
no instruction it traps, ILLEGAL_OPCODE (0x02) or ILLEGAL_ENCODING (0x03), TVAL the first word (checks 2 and 3). That the
step of a CC is one of a list of steps to come is the model's (log 1). -/
def Obligations.StepRunsDecoded : Prop :=
  ∀ (s : State) (cc : Nat) (rest : List Instr) (slot tid : Nat) (t : Thread),
    (paced s).agenda = .instructionIssue cc :: rest → (paced s).latch = none →
    let p : State := { paced s with agenda := rest }
    pickThread p cc = some (slot, tid) → threadOf p tid = some t →
    let y := if (match (plotOf p cc).yieldedSlot with | some y => y != slot | none => false) then none
      else (plotOf p cc).yieldedSlot
    let q : State := { setPlot p cc { plotOf p cc with rr := (slot + 1) % 8, yieldedSlot := y } with cur := tid }
    (∀ (r : State) (w : Nat), fetchWord q t t.pc = (r, .ok w) → isTwoWord (BitVec.ofNat 32 w) = false →
      (∀ i, decode (BitVec.ofNat 32 w) 0#32 = .ok i →
        exec (.instructionIssue cc) p = .next { r with latch := some i } ∧ step s = exec i { r with latch := none }) ∧
      (decode (BitVec.ofNat 32 w) 0#32 = .error .illegalOpcode →
        step s = .next (trap r tid t 0x02 t.pc ((BitVec.ofNat 32 w).setWidth 64))) ∧
      (decode (BitVec.ofNat 32 w) 0#32 = .error .illegalEncoding →
        step s = .next (trap r tid t 0x03 t.pc ((BitVec.ofNat 32 w).setWidth 64)))) ∧
    (∀ (r r' : State) (w v : Nat), fetchWord q t t.pc = (r, .ok w) → isTwoWord (BitVec.ofNat 32 w) = true →
      fetchWord r t (t.pc + 4#64) = (r', .ok v) →
      (∀ i, decode (BitVec.ofNat 32 w) (BitVec.ofNat 32 v) = .ok i →
        exec (.instructionIssue cc) p = .next { r' with latch := some i } ∧ step s = exec i { r' with latch := none }) ∧
      (decode (BitVec.ofNat 32 w) (BitVec.ofNat 32 v) = .error .illegalEncoding →
        step s = .next (trap r' tid t 0x03 t.pc ((BitVec.ofNat 32 w).setWidth 64)))) ∧
    (∀ (r : State) (c a : Nat), fetchWord q t t.pc = (r, .bad c a) →
      step s = .next (trap r tid t c t.pc t.pc)) ∧
    (∀ (r r' : State) (w c a : Nat), fetchWord q t t.pc = (r, .ok w) → isTwoWord (BitVec.ofNat 32 w) = true →
      fetchWord r t (t.pc + 4#64) = (r', .bad c a) →
      step s = .next (trap r' tid t c t.pc (t.pc + 4#64)))

/-! ## Invariants and frames -/

/-- The machine right after power-on is sound: memory lists nothing, and no instruction stands half issued. Both are the model's own
fields: the canonical form of memory, with DRAM that nothing has written reading as log 7 says, and the step's latch (log 1). -/
def Obligations.SoundReset : Prop :=
  State.reset.sound = true


/-- From every sound state, whatever its schedule, threads, launches and messages, the step goes on, to a sound state: no
step of this machine stops it, memory stays in its canonical form, and no instruction is left half issued. The highest
security version that firmware has run with never falls (R230). The canonical form of memory (log 7) and the latch (log 1) are the model's own
fields; that a step whose conditions do not hold changes nothing is the model's (log 16), and so is the order of steps (log 1). -/
def Obligations.SoundStep : Prop :=
  ∀ s : State, s.sound = true → ∃ t, step s = .next t ∧ t.sound = true ∧ s.maxSvn ≤ t.maxSvn

/-- What an instruction on registers alone leaves unchanged, whether it completes or traps: all of memory with its poison
and key tags, every PE, every key slot and every other thread; and of its own thread, if it lives on, every register and
predicate but the one it writes, the hardware loop's bounds, and every special register but a trap's own; a trap lets what earlier
loads still owe return (R28). That FENCE writes no memory
is the model's order of accesses (log 12); a load that is still under way to the written register is dropped (log 4). -/
def Obligations.RegisterFrame : Prop :=
  ∀ (i : Instr) (d : Option Reg) (p : Option Pred) (s s' : State) (t : Thread),
    registerOnly i = some (d, p) → threadOf s s.cur = some t → exec i s = .next s' →
      s'.mem = s.mem ∧ s'.poison = s.poison ∧ s'.keytags = s.keytags ∧ s'.pes = s.pes ∧ s'.slots = s.slots ∧
      (∀ k, k ≠ s.cur → threadOf s' k = threadOf s k) ∧
      (∀ a, memGet s'.mem a = memGet s.mem a) ∧
      (∀ u, threadOf s' s.cur = some u → Machine.RegisterFrame d p t u)
end

