-- ==== Sys2Proof/Laws/Decoding.lean ====
section
/-!
SUPPORT. What the decoder answers: an instruction of a control thread, which has an encoding.
-/
set_option Elab.async false
namespace Sys2Proof.Laws

theorem req_ok {b : Bool} {i j : Instr} (h : req b i = .ok j) : j = i := by
  unfold req at h; split at h <;> cases h; rfl

theorem decodeR_words {w : IWord} {i : Instr} (h : decodeR w = .ok i) : encode i ≠ [] := by
  unfold decodeR at h
  (repeat' split at h) <;> first
    | (have e := req_ok h; subst e; exact List.cons_ne_nil _ _)
    | (cases h; exact List.cons_ne_nil _ _)
    | cases h

theorem decodeSh_words {w : IWord} {i : Instr} (h : decodeSh w = .ok i) : encode i ≠ [] := by
  unfold decodeSh at h
  (repeat' split at h) <;> first
    | (have e := req_ok h; subst e; exact List.cons_ne_nil _ _)
    | (cases h; exact List.cons_ne_nil _ _)
    | cases h

theorem decodeBf_words {w : IWord} {i : Instr} (h : decodeBf w = .ok i) : encode i ≠ [] := by
  unfold decodeBf at h
  (repeat' split at h) <;> first
    | (have e := req_ok h; subst e; exact List.cons_ne_nil _ _)
    | (cases h; exact List.cons_ne_nil _ _)
    | cases h

theorem decodeCas_words {w : IWord} {i : Instr} (h : decodeCas w = .ok i) : encode i ≠ [] := by
  unfold decodeCas at h
  (repeat' split at h) <;> first
    | (have e := req_ok h; subst e; exact List.cons_ne_nil _ _)
    | (cases h; exact List.cons_ne_nil _ _)
    | cases h

theorem decodeX_words {w : IWord} {i : Instr} (h : decodeX w = .ok i) : encode i ≠ [] := by
  unfold decodeX at h
  dsimp only at h
  (repeat' split at h) <;> first
    | (have e := req_ok h; subst e; exact List.cons_ne_nil _ _)
    | (cases h; exact List.cons_ne_nil _ _)
    | cases h

theorem decodeBr_words {w : IWord} {i : Instr} (h : decodeBr w = .ok i) : encode i ≠ [] := by
  unfold decodeBr at h
  (repeat' split at h) <;> first
    | (have e := req_ok h; subst e; exact List.cons_ne_nil _ _)
    | (cases h; exact List.cons_ne_nil _ _)
    | cases h

theorem decodeHalt_words {w : IWord} {i : Instr} (h : decodeHalt w = .ok i) : encode i ≠ [] := by
  unfold decodeHalt at h
  (repeat' split at h) <;> first
    | (have e := req_ok h; subst e; exact List.cons_ne_nil _ _)
    | (cases h; exact List.cons_ne_nil _ _)
    | cases h

theorem decodeSys_words {w : IWord} {i : Instr} (h : decodeSys w = .ok i) : encode i ≠ [] := by
  unfold decodeSys at h
  (repeat' split at h) <;> first
    | (have e := req_ok h; subst e; exact List.cons_ne_nil _ _)
    | (cases h; exact List.cons_ne_nil _ _)
    | cases h

theorem decodeSu_words {w : IWord} {i : Instr} (h : decodeSu w = .ok i) : encode i ≠ [] := by
  unfold decodeSu at h
  (repeat' split at h) <;> first
    | (have e := req_ok h; subst e; exact List.cons_ne_nil _ _)
    | (cases h; exact List.cons_ne_nil _ _)
    | cases h

theorem decodeSs_words {w : IWord} {i : Instr} (h : decodeSs w = .ok i) : encode i ≠ [] := by
  unfold decodeSs at h
  (repeat' split at h) <;> first
    | (have e := req_ok h; subst e; exact List.cons_ne_nil _ _)
    | (cases h; exact List.cons_ne_nil _ _)
    | cases h

theorem decodeSg_words {w : IWord} {i : Instr} (h : decodeSg w = .ok i) : encode i ≠ [] := by
  unfold decodeSg at h
  (repeat' split at h) <;> first
    | (have e := req_ok h; subst e; exact List.cons_ne_nil _ _)
    | (cases h; exact List.cons_ne_nil _ _)
    | cases h

theorem decodeSbS_words {w : IWord} {i : Instr} (h : decodeSbS w = .ok i) : encode i ≠ [] := by
  unfold decodeSbS at h
  (repeat' split at h) <;> first
    | (have e := req_ok h; subst e; exact List.cons_ne_nil _ _)
    | (cases h; exact List.cons_ne_nil _ _)
    | cases h

theorem decodeE36_words {w : IWord} {i : Instr} (h : decodeE36 w = .ok i) : encode i ≠ [] := by
  unfold decodeE36 at h
  (repeat' split at h) <;> first
    | (have e := req_ok h; subst e; exact List.cons_ne_nil _ _)
    | (cases h; exact List.cons_ne_nil _ _)
    | cases h

theorem decodeCb_words {w : IWord} {i : Instr} (h : decodeCb w = .ok i) : encode i ≠ [] := by
  unfold decodeCb at h
  (repeat' split at h) <;> first
    | (have e := req_ok h; subst e; exact List.cons_ne_nil _ _)
    | (cases h; exact List.cons_ne_nil _ _)
    | cases h

theorem decodeCbg_words {w : IWord} {i : Instr} (h : decodeCbg w = .ok i) : encode i ≠ [] := by
  unfold decodeCbg at h
  (repeat' split at h) <;> first
    | (have e := req_ok h; subst e; exact List.cons_ne_nil _ _)
    | (cases h; exact List.cons_ne_nil _ _)
    | cases h

theorem decodeG_words {w : IWord} {i : Instr} (h : decodeG w = .ok i) : encode i ≠ [] := by
  unfold decodeG at h
  (repeat' split at h) <;> first
    | (have e := req_ok h; subst e; exact List.cons_ne_nil _ _)
    | (cases h; exact List.cons_ne_nil _ _)
    | cases h

theorem decodeCpy_words {w v : IWord} {i : Instr} (h : decodeCpy w v = .ok i) : encode i ≠ [] := by
  unfold decodeCpy at h
  (repeat' split at h) <;> first
    | (have e := req_ok h; subst e; exact List.cons_ne_nil _ _)
    | (cases h; exact List.cons_ne_nil _ _)
    | cases h

theorem decodeCpym_words {w v : IWord} {i : Instr} (h : decodeCpym w v = .ok i) : encode i ≠ [] := by
  unfold decodeCpym at h
  (repeat' split at h) <;> first
    | (have e := req_ok h; subst e; exact List.cons_ne_nil _ _)
    | (cases h; exact List.cons_ne_nil _ _)
    | cases h

theorem decodeSbind_words {w v : IWord} {i : Instr} (h : decodeSbind w v = .ok i) : encode i ≠ [] := by
  unfold decodeSbind at h
  (repeat' split at h) <;> first
    | (have e := req_ok h; subst e; exact List.cons_ne_nil _ _)
    | (cases h; exact List.cons_ne_nil _ _)
    | cases h

theorem decodeColl_words {w v : IWord} {i : Instr} (h : decodeColl w v = .ok i) : encode i ≠ [] := by
  unfold decodeColl at h
  (repeat' split at h) <;> first
    | (have e := req_ok h; subst e; exact List.cons_ne_nil _ _)
    | (cases h; exact List.cons_ne_nil _ _)
    | cases h

theorem decodeCmp_words {b : Bool} {w : IWord} {i : Instr} (h : decodeCmp b w = .ok i) : encode i ≠ [] := by
  unfold decodeCmp at h
  (repeat' split at h) <;> first
    | (have e := req_ok h; subst e; exact List.cons_ne_nil _ _)
    | (cases h; exact List.cons_ne_nil _ _)
    | cases h

theorem decodeAmo_words {b : Bool} {w : IWord} {i : Instr} (h : decodeAmo b w = .ok i) : encode i ≠ [] := by
  unfold decodeAmo at h
  (repeat' split at h) <;> first
    | (have e := req_ok h; subst e; exact List.cons_ne_nil _ _)
    | (cases h; exact List.cons_ne_nil _ _)
    | cases h

theorem decodeMem_words {n : Nat} {w : IWord} {i : Instr} (h : decodeMem n w = .ok i) : encode i ≠ [] := by
  unfold decodeMem at h
  (repeat' split at h) <;> first
    | (have e := req_ok h; subst e; exact List.cons_ne_nil _ _)
    | (cases h; exact List.cons_ne_nil _ _)
    | cases h

/-- What the decoder answers is an instruction of a control thread: one with an encoding. -/
theorem decode_words {w v : IWord} {i : Instr} (h : decode w v = .ok i) : encode i ≠ [] := by
  unfold decode at h
  split at h
  · cases h
  split at h <;> first
    | with_reducible first
        | exact decodeR_words h | exact decodeSh_words h | exact decodeBf_words h
        | exact decodeCas_words h | exact decodeX_words h | exact decodeBr_words h | exact decodeHalt_words h
        | exact decodeSys_words h | exact decodeSu_words h | exact decodeSs_words h | exact decodeSg_words h
        | exact decodeSbS_words h | exact decodeE36_words h | exact decodeCb_words h | exact decodeCbg_words h
        | exact decodeG_words h | exact decodeCpy_words h | exact decodeCpym_words h | exact decodeSbind_words h
        | exact decodeColl_words h | exact decodeCmp_words h | exact decodeAmo_words h | exact decodeMem_words h
    | (have e := req_ok h; subst e; exact List.cons_ne_nil _ _)
    | (split at h <;> (have e := req_ok h; subst e; exact List.cons_ne_nil _ _))
    | (cases h; exact List.cons_ne_nil _ _) | cases h

end Sys2Proof.Laws
end

