-- ==== Sys2Proof/Laws/Memory.lean ====
section
/-!
SUPPORT. Memory as a list of bytes in canonical form (Machine/Mem.lean): a read after a write, a write elsewhere, and every
operation on the list keeping the form.
-/
set_option Elab.async false
namespace Sys2Proof.Laws
open Sys2Proof.Machine

/-! ## One byte -/

/-- The form from a lower bound holds from any bound below it. -/
theorem memWfFrom_of_le {lo hi : Nat} {m : List Host.Cell} (h : memWfFrom hi m = true) (le : lo ≤ hi) :
    memWfFrom lo m = true := by
  cases m with
  | nil => rfl
  | cons c m =>
    obtain ⟨k, v⟩ := c
    simp only [memWfFrom, Bool.and_eq_true, decide_eq_true_eq] at h ⊢
    exact ⟨⟨by omega, h.1.2⟩, h.2⟩

/-- An address below every listed one reads as unlisted. -/
theorem memGet_below {lo a : Nat} {m : List Host.Cell} (h : memWfFrom lo m = true) (lt : a < lo) :
    memGet m a = unlistedByte := by
  induction m generalizing lo with
  | nil => rfl
  | cons c m ih =>
    obtain ⟨k, v⟩ := c
    simp only [memWfFrom, Bool.and_eq_true, decide_eq_true_eq] at h
    have : a ≠ k := by omega
    simp only [memGet, this, if_false]
    exact ih h.2 (by omega)

/-- A write keeps the canonical form. -/
theorem memPut_wfFrom {lo a : Nat} {m : List Host.Cell} (b : Byte) (h : memWfFrom lo m = true) (le : lo ≤ a) :
    memWfFrom lo (memPut m a b) = true := by
  induction m generalizing lo with
  | nil => by_cases e : b = unlistedByte <;> simp [memPut, memWfFrom, e, le]
  | cons c m ih =>
    obtain ⟨k, v⟩ := c
    simp only [memWfFrom, Bool.and_eq_true, decide_eq_true_eq, bne_iff_ne] at h
    simp only [memPut]
    by_cases e : b = unlistedByte <;> rcases Nat.lt_trichotomy a k with lt | eq | gt
    · simp [e, lt, memWfFrom, h.1.1, h.1.2, h.2]
    · simp only [eq, Nat.lt_irrefl, if_false, if_true, e]
      exact memWfFrom_of_le h.2 (by omega)
    · have n1 : ¬ a < k := by omega
      have n2 : a ≠ k := by omega
      simp [n1, n2, memWfFrom, h.1.1, h.1.2, ih h.2 (by omega : k + 1 ≤ a)]
    · have : a + 1 ≤ k := by omega
      simp [e, lt, memWfFrom, le, this, h.1.2, h.2]
    · simp [eq, e, memWfFrom, h.1.1, h.2]
    · have n1 : ¬ a < k := by omega
      have n2 : a ≠ k := by omega
      simp [n1, n2, memWfFrom, h.1.1, h.1.2, ih h.2 (by omega : k + 1 ≤ a)]

/-- A write keeps memory canonical. -/
theorem memPut_wf {m : List Host.Cell} (a : Nat) (b : Byte) (h : Memory.wf m = true) :
    Memory.wf (memPut m a b) = true :=
  memPut_wfFrom b h (Nat.zero_le a)

/-- The byte written is the byte read. -/
theorem memGet_memPut_same {m : List Host.Cell} (a : Nat) (b : Byte) (h : Memory.wf m = true) :
    memGet (memPut m a b) a = b := by
  unfold Memory.wf at h
  generalize 0 = lo at h
  induction m generalizing lo with
  | nil => by_cases e : b = unlistedByte <;> simp [memPut, memGet, e]
  | cons c m ih =>
    obtain ⟨k, v⟩ := c
    simp only [memWfFrom, Bool.and_eq_true, decide_eq_true_eq] at h
    simp only [memPut]
    by_cases e : b = unlistedByte <;> rcases Nat.lt_trichotomy a k with lt | eq | gt
    · have n : a ≠ k := by omega
      simp [e, lt, memGet, n, memGet_below h.2 (by omega : a < k + 1)]
    · simp [eq, e, memGet_below h.2 (by omega : k < k + 1)]
    · have n1 : ¬ a < k := by omega
      have n2 : a ≠ k := by omega
      simp [n1, n2, memGet, ih _ h.2]
    · simp [e, lt, memGet]
    · simp [eq, e, memGet]
    · have n1 : ¬ a < k := by omega
      have n2 : a ≠ k := by omega
      simp [n1, n2, memGet, ih _ h.2]

/-- A write leaves every other byte as it was. -/
theorem memGet_memPut_other (m : List Host.Cell) {a x : Nat} (b : Byte) (ne : x ≠ a) :
    memGet (memPut m a b) x = memGet m x := by
  induction m with
  | nil => by_cases e : b = unlistedByte <;> simp [memPut, memGet, e, ne]
  | cons c m ih =>
    obtain ⟨k, v⟩ := c
    simp only [memPut]
    by_cases e : b = unlistedByte <;> rcases Nat.lt_trichotomy a k with lt | eq | gt
    · simp [e, lt]
    · have : x ≠ k := by omega
      simp [eq, e, memGet, this]
    · have n1 : ¬ a < k := by omega
      have n2 : a ≠ k := by omega
      simp [n1, n2, memGet, ih]
    · simp [e, lt, memGet, ne]
    · have : x ≠ k := by omega
      simp [eq, e, memGet, this]
    · have n1 : ¬ a < k := by omega
      have n2 : a ≠ k := by omega
      simp [n1, n2, memGet, ih]

/-! ## Several bytes -/

/-- A write of several bytes keeps memory canonical. -/
theorem writeRaw_wf {m : List Host.Cell} (a n v : Nat) (h : Memory.wf m = true) : Memory.wf (writeRaw m a n v) = true := by
  induction n generalizing m a v with
  | zero => exact h
  | succ n ih => exact ih _ _ (memPut_wf _ _ h)

/-- A write of `n` bytes leaves every byte outside them as it was. -/
theorem memGet_writeRaw_outside (m : List Host.Cell) (a n v : Nat) {x : Nat} (out : x < a ∨ a + n ≤ x) :
    memGet (writeRaw m a n v) x = memGet m x := by
  induction n generalizing m a v with
  | zero => rfl
  | succ n ih =>
    rw [writeRaw, ih _ _ _ (by omega), memGet_memPut_other _ _ (by omega)]

/-- The bytes of a write, each where it stands. -/
theorem memGet_writeRaw_inside {m : List Host.Cell} (a n v i : Nat) (h : Memory.wf m = true) (lt : i < n) :
    memGet (writeRaw m a n v) (a + i) = BitVec.ofNat 8 (v / 256 ^ i) := by
  induction n generalizing m a v i with
  | zero => omega
  | succ n ih =>
    cases i with
    | zero =>
      rw [writeRaw, memGet_writeRaw_outside _ _ _ _ (by omega), Nat.add_zero, memGet_memPut_same _ _ h]
      simp
    | succ i =>
      have e : a + (i + 1) = a + 1 + i := by omega
      rw [writeRaw, e, ih (a + 1) (v / 256) i (memPut_wf _ _ h) (by omega), Nat.div_div_eq_div_mul, Nat.pow_succ,
        Nat.mul_comm]

/-- A fold that keeps memory canonical at each step keeps it. -/
theorem foldl_wf {α : Type} (f : List Host.Cell → α → List Host.Cell)
    (hf : ∀ m a, Memory.wf m = true → Memory.wf (f m a) = true) (l : List α) {m : List Host.Cell}
    (h : Memory.wf m = true) : Memory.wf (l.foldl f m) = true := by
  induction l generalizing m with
  | nil => exact h
  | cons a l ih => exact ih (hf m a h)

/-- Entries left out keep the rest canonical. -/
theorem filter_wf (p : Host.Cell → Bool) {m : List Host.Cell} (h : Memory.wf m = true) :
    Memory.wf (m.filter p) = true := by
  unfold Memory.wf at *
  generalize 0 = lo at *
  induction m generalizing lo with
  | nil => rfl
  | cons c m ih =>
    obtain ⟨k, v⟩ := c
    simp only [memWfFrom, Bool.and_eq_true, decide_eq_true_eq] at h
    by_cases hp : p (k, v) = true
    · simp only [List.filter_cons_of_pos hp, memWfFrom, Bool.and_eq_true, decide_eq_true_eq]
      exact ⟨h.1, ih _ h.2⟩
    · rw [List.filter_cons_of_neg hp]
      exact memWfFrom_of_le (ih _ h.2) (by omega)

/-- Bytes put one by one keep memory canonical. -/
theorem putCells_wf {m : List Host.Cell} (lo : Nat) (cs : List (Nat × Byte)) (h : Memory.wf m = true) :
    Memory.wf (putCells m lo cs) = true :=
  foldl_wf _ (fun _ c hm => memPut_wf (lo + c.1) c.2 hm) cs h

/-- The bytes outside a range are canonical. -/
theorem outside_wf {m : List Host.Cell} (lo n : Nat) (h : Memory.wf m = true) : Memory.wf (outside m lo n) = true :=
  filter_wf _ h

end Sys2Proof.Laws
end

