-- ==== Sys2Proof/Laws/Keep.lean ====
section
/-!
SUPPORT. What it is for a result of any shape to keep the machine sound (Safety.lean): memory canonical, no instruction half
issued, and the highest SVN ever run at least a given number. One rule for each shape, and for each way a state is made.
-/
set_option Elab.async false
namespace Sys2Proof.Laws
open Sys2Proof.Machine

/-- A sound state, as a proposition, whose record of the highest SVN ever run (R230) is at least `m`. -/
structure Kept (m : Nat) (s : State) : Prop where
  wf : Memory.wf s.mem = true
  idle : s.latch = none
  svn : m ≤ s.maxSvn

theorem sound_iff {s : State} : s.sound = true ↔ Kept s.maxSvn s := by
  simp only [State.sound, Bool.and_eq_true, Option.isNone_iff_eq_none]
  exact ⟨fun h => ⟨h.1, h.2, Nat.le_refl _⟩, fun h => ⟨h.wf, h.idle⟩⟩

variable {m : Nat}

/-! A result of each shape keeps the machine sound when every state in it is sound. -/

structure KeptOut (m : Nat) (o : Out) : Prop where
  of : ∀ {t}, o = .next t → Kept m t
structure KeptFst (m : Nat) {α : Type} (p : State × α) : Prop where
  of : Kept m p.1
structure KeptOpt (m : Nat) (o : Option State) : Prop where
  of : ∀ {t}, o = some t → Kept m t
structure KeptOptFst (m : Nat) {α : Type} (o : Option (State × α)) : Prop where
  of : ∀ {t a}, o = some (t, a) → Kept m t
structure KeptExc (m : Nat) {ε : Type} (o : Except ε State) : Prop where
  of : ∀ {t}, o = .ok t → Kept m t
structure KeptExcOptFst (m : Nat) {ε α : Type} (o : Except ε (Option (State × α))) : Prop where
  of : ∀ {t a}, o = .ok (some (t, a)) → Kept m t

theorem kept_next {s : State} (h : Kept m s) : KeptOut m (.next s) := ⟨fun e => by cases e; exact h⟩
theorem kept_fault (f : Fault) : KeptOut m (.fault f) := ⟨fun e => by cases e⟩
theorem kept_pair {α : Type} {s : State} (a : α) (h : Kept m s) : KeptFst m (s, a) := ⟨h⟩
theorem kept_some {s : State} (h : Kept m s) : KeptOpt m (some s) := ⟨fun e => by cases e; exact h⟩
theorem kept_none : KeptOpt m none := ⟨fun e => by cases e⟩
theorem kept_some_pair {α : Type} {s : State} (a : α) (h : Kept m s) : KeptOptFst m (some (s, a)) :=
  ⟨fun e => by cases e; exact h⟩
theorem kept_none_pair {α : Type} : KeptOptFst m (none : Option (State × α)) := ⟨fun e => by cases e⟩
theorem kept_ok {ε : Type} {s : State} (h : Kept m s) : KeptExc m (.ok s : Except ε State) :=
  ⟨fun e => by cases e; exact h⟩
theorem kept_error {ε : Type} (x : ε) : KeptExc m (.error x : Except ε State) := ⟨fun e => by cases e⟩
theorem kept_ok_some {ε α : Type} {s : State} (a : α) (h : Kept m s) :
    KeptExcOptFst m (.ok (some (s, a)) : Except ε (Option (State × α))) := ⟨fun e => by cases e; exact h⟩
theorem kept_ok_none {ε α : Type} : KeptExcOptFst m (.ok none : Except ε (Option (State × α))) :=
  ⟨fun e => by cases e⟩
theorem kept_error_opt {ε α : Type} (x : ε) : KeptExcOptFst m (.error x : Except ε (Option (State × α))) :=
  ⟨fun e => by cases e⟩

theorem KeptFst.of_eq {α : Type} {p : State × α} {s : State} {a : α} (e : p = (s, a)) (h : KeptFst m p) : Kept m s := by
  subst e; exact h.of
theorem kept_map {α : Type} {o : Option α} {f : α → State} (hf : ∀ a, o = some a → Kept m (f a)) :
    KeptOpt m (o.map f) := by
  cases o with
  | none => exact ⟨fun e => by cases e⟩
  | some a => exact ⟨fun e => by cases e; exact hf a rfl⟩
theorem kept_map_fst {α β : Type} {o : Option α} {f : α → State × β} (hf : ∀ a, o = some a → KeptFst m (f a)) :
    KeptOptFst m (o.map f) := by
  cases o with
  | none => exact ⟨fun e => by cases e⟩
  | some a =>
    refine ⟨fun {t b} e => ?_⟩
    simp only [Option.map_some, Option.some.injEq] at e
    exact KeptFst.of_eq e (hf a rfl)
theorem kept_map_exc {ε : Type} {o : Except ε State} {f : State → State} (ho : KeptExc m o)
    (hf : ∀ s, Kept m s → Kept m (f s)) : KeptExc m (o.map f) := by
  cases o with
  | error e => exact ⟨fun h => by cases h⟩
  | ok s => exact ⟨fun h => by cases h; exact hf s (ho.of rfl)⟩
theorem kept_ok_opt {ε α : Type} {o : Option (State × α)} (h : KeptOptFst m o) :
    KeptExcOptFst m (.ok o : Except ε (Option (State × α))) := ⟨fun e => by cases e; exact h.of rfl⟩

/-- A state on the way, sound on its own account. -/
theorem kept_cut {P : Prop} (s : State) (h : Kept m s) (k : Kept m s → P) : P := k h

theorem KeptOpt.of_eq {o : Option State} {s : State} (e : o = some s) (h : KeptOpt m o) : Kept m s := h.of e
theorem KeptOptFst.of_eq {α : Type} {o : Option (State × α)} {s : State} {a : α} (e : o = some (s, a))
    (h : KeptOptFst m o) : Kept m s := h.of e
theorem KeptExc.of_eq {ε : Type} {o : Except ε State} {s : State} (e : o = .ok s) (h : KeptExc m o) : Kept m s := h.of e
theorem KeptExcOptFst.of_eq {ε α : Type} {o : Except ε (Option (State × α))} {s : State} {a : α}
    (e : o = .ok (some (s, a))) (h : KeptExcOptFst m o) : Kept m s := h.of e

/-- A fold of steps that keep the machine sound. -/
theorem kept_foldl {α : Type} {f : State → α → State} {l : List α} {s : State}
    (hf : ∀ s a, Kept m s → Kept m (f s a)) (h : Kept m s) : Kept m (l.foldl f s) := by
  induction l generalizing s with
  | nil => exact h
  | cons a l ih => exact ih (hf s a h)

theorem kept_findSome {α : Type} {f : α → Option State} {l : List α} (hf : ∀ a, KeptOpt m (f a)) : KeptOpt m (l.findSome? f) := by
  induction l with
  | nil => exact kept_none
  | cons a l ih =>
    rw [List.findSome?_cons]
    cases e : f a with
    | some t => exact kept_some ((hf a).of e)
    | none => exact ih

theorem kept_orElse {o : Option State} {f : Unit → Option State} (ho : KeptOpt m o) (hf : KeptOpt m (f ())) :
    KeptOpt m (o.orElse f) := by
  cases o with
  | some t => exact ho
  | none => exact hf

theorem kept_bind {α : Type} {o : Option α} {f : α → Option State} (hf : ∀ a, o = some a → KeptOpt m (f a)) :
    KeptOpt m (o.bind f) := by
  cases o with
  | none => exact kept_none
  | some a => exact hf a rfl

/-- A fold of steps of which none may fail. -/
theorem kept_foldl_opt {α : Type} {f : State → α → Option State} {l : List α} {o : Option State}
    (hf : ∀ s a, Kept m s → KeptOpt m (f s a)) (h : KeptOpt m o) :
    KeptOpt m (l.foldl (fun o a => o.bind fun s => f s a) o) := by
  induction l generalizing o with
  | nil => exact h
  | cons a l ih => exact ih (kept_bind fun s e => hf s a (h.of e))

theorem kept_foldl_fst {α β : Type} {f : State × β → α → State × β} {l : List α} {x : State × β}
    (hf : ∀ x a, KeptFst m x → KeptFst m (f x a)) (h : KeptFst m x) : KeptFst m (l.foldl f x) := by
  induction l generalizing x with
  | nil => exact h
  | cons a l ih => exact ih (hf x a h)

theorem kept_getD {o : Option State} {d : State} (ho : KeptOpt m o) (hd : Kept m d) : Kept m (o.getD d) := by
  cases o with
  | none => exact hd
  | some t => exact ho.of rfl

/-- A state made from another by changing fields other than memory and the latch. -/
theorem kept_mk {s : State} {agenda_ pace_ turn_ free_ cur_ lateLoads_ nextTid_ time_ full_ bringup_ fw_ running_
    energy_ l2ce_ mhz_ atFloor_ ballast_ lastArb_ lseq_ stores_ poison_ keytags_ backed_ pages_ xt_ threads_ plots_
    pes_ launches_ waiting_ vds_ slots_ receipts_ colls_ copyRr_ brock_ replies_ kcpHeld_} (h : Kept m s) : Kept m (State.mk
    agenda_ pace_ turn_ free_ cur_ s.latch lateLoads_ nextTid_ time_ full_ bringup_ fw_ running_ s.maxSvn energy_
    l2ce_ mhz_ atFloor_ ballast_ lastArb_ lseq_ s.mem stores_ poison_ keytags_ backed_ pages_ xt_ threads_ plots_ pes_
    launches_ waiting_ vds_ slots_ receipts_ colls_ copyRr_ brock_ replies_ kcpHeld_) := ⟨h.wf, h.idle, h.svn⟩

/-- A state made from another by changing fields other than the latch, with bytes written to memory. -/
theorem kept_mk_write {s : State} {a n v : Nat} {agenda_ pace_ turn_ free_ cur_ lateLoads_ nextTid_ time_ full_
    bringup_ fw_ running_ energy_ l2ce_ mhz_ atFloor_ ballast_ lastArb_ lseq_ stores_ poison_ keytags_ backed_
    pages_ xt_ threads_ plots_ pes_ launches_ waiting_ vds_ slots_ receipts_ colls_ copyRr_ brock_ replies_ kcpHeld_} (h : Kept m s) : Kept m (State.mk agenda_ pace_ turn_ free_ cur_ s.latch lateLoads_ nextTid_ time_ full_ bringup_ fw_ running_
    s.maxSvn energy_ l2ce_ mhz_ atFloor_ ballast_ lastArb_ lseq_ (writeRaw s.mem a n v) stores_ poison_ keytags_ backed_
    pages_ xt_ threads_ plots_ pes_ launches_ waiting_ vds_ slots_ receipts_ colls_ copyRr_ brock_ replies_ kcpHeld_) :=
    ⟨writeRaw_wf _ _ _ h.wf, h.idle, h.svn⟩

/-- A state with other memory that is canonical. -/
theorem kept_mem {s : State} (h : Kept m s) {t : State} (hm : Memory.wf t.mem = true) (hl : t.latch = s.latch)
    (hv : t.maxSvn = s.maxSvn) : Kept m t :=
  ⟨hm, hl.trans h.idle, hv ▸ h.svn⟩

end Sys2Proof.Laws
end

