-- ==== Sys2Proof/Laws/KeepCore.lean ====
section
/-!
SUPPORT. Every function keeps the machine sound (Laws/Keep.lean): operations over memory, records, scale entries, channels and launches.
-/
set_option Elab.async false
set_option linter.all false
namespace Sys2Proof.Laws
open Sys2Proof.Machine

variable {m : Nat}

/-! ## Machine/Mem.lean -/

theorem keep_poisonSector {s : State} (pa : _) (h : Kept m s) :
    Kept m (poisonSector s pa) := by
  unfold poisonSector
  repeat' first
    | with_reducible assumption
    | (with_reducible refine kept_mk ?_; first | assumption)

theorem keep_rekeySector {s : State} (eng sec : Nat) (h : Kept m s) : Kept m (rekeySector s eng sec) := by
  unfold rekeySector
  split
  · split
    · exact h
    · generalize List.range 32 = l
      exact kept_mem h (foldl_wf _ (fun a i hm => memPut_wf _ _ hm) l h.wf) rfl rfl
  · exact kept_mk h

theorem keep_performStores {s : State} (p : _) (h : Kept m s) :
    Kept m (performStores s p) := by
  unfold performStores
  repeat' first
    | with_reducible assumption
    | intro _
    | (with_reducible refine kept_mk ?_; first | assumption)

theorem keep_sawBytes {s : State} (x1 : _) (n : _) (h : Kept m s) :
    Kept m (sawBytes s x1 n) := by
  unfold sawBytes
  repeat' first
    | with_reducible assumption
    | with_reducible first
        | apply keep_performStores
    | intro _

theorem keep_dropStores {s : State} (p : _) (h : Kept m s) :
    Kept m (dropStores s p) := by
  unfold dropStores
  repeat' first
    | with_reducible assumption
    | intro _
    | (with_reducible refine kept_mk ?_; first | assumption)

theorem keep_landStores {s : State} (x1 : _) (n : _) (h : Kept m s) :
    Kept m (landStores s x1 n) := by
  unfold landStores
  repeat' first
    | with_reducible assumption
    | with_reducible first
        | apply keep_dropStores
    | intro _

theorem keep_writeKeyed {s : State} (eng a n v : Nat) (h : Kept m s) : Kept m (writeKeyed s eng a n v) := by
  have hz : Kept m ((sectorsOf a n).foldl (fun s sec => rekeySector s eng sec) (landStores s a n)) :=
    kept_foldl (fun s sec hs => keep_rekeySector eng sec hs) (keep_landStores _ _ h)
  exact kept_mem hz (writeRaw_wf _ _ _ hz.wf) rfl rfl

theorem keep_xtWalk {s : State} (c : Ctx) (vd : VD) (va : Nat) (h : Kept m s) : KeptFst m (xtWalk s c vd va) := by
  unfold xtWalk
  extract_lets fresh now stale held s'
  have hh : Kept m held := by
    clear_value now
    cases now with
    | none => exact h
    | some x => exact iteInduction (fun _ => h) fun _ => kept_mk h
  clear_value held fresh stale
  split
  · exact kept_pair _ h
  · split
    · exact kept_pair _ hh
    · split <;> exact kept_pair _ (kept_mk hh)

theorem keep_xtTranslate {s : State} (c : _) (k : _) (va : _) (h : Kept m s) :
    KeptFst m (xtTranslate s c k va) := by
  unfold xtTranslate
  repeat' first
    | with_reducible assumption
    | with_reducible first
        | apply keep_xtWalk | refine KeptFst.of_eq (by assumption) ?_
    | split | (with_reducible apply kept_pair)
    | (with_reducible refine kept_mk ?_; first
        | assumption | apply keep_xtWalk | refine KeptFst.of_eq (by assumption) ?_)

theorem keep_dropXt {s : State} (vd : _) (va : _) (size : _) (h : Kept m s) :
    Kept m (dropXt s vd va size) := by
  unfold dropXt
  repeat' first
    | with_reducible assumption
    | intro _
    | (with_reducible refine kept_mk ?_; first | assumption)

theorem keep_markLeaf {s : State} (leaf : Nat) (dirty : Bool) (h : Kept m s) : Kept m (markLeaf s leaf dirty) := by
  unfold markLeaf
  extract_lets e e'
  split
  · exact h
  · exact kept_mem h (writeRaw_wf _ _ _ h.wf) rfl rfl

theorem keep_touchMon {s : State} (v : _) (lseq : _) (va : _) (n : _) (k : _) (h : Kept m s) :
    Kept m (touchMon s v lseq va n k) := by
  unfold touchMon
  repeat' first
    | with_reducible assumption
    | with_reducible first
        | apply kept_foldl
    | (extract_lets +onlyGivenNames z; refine kept_cut z ?_ ?_; rotate_left; (clear_value z; intro _); rotate_left
       subst z)
    | (extract_lets +onlyGivenNames z; subst z)
    | split | intro _
    | (with_reducible refine kept_mk ?_; first | assumption | apply kept_foldl)

theorem keep_setPlot {s : State} (p : _) (x : _) (h : Kept m s) :
    Kept m (setPlot s p x) := by
  unfold setPlot
  repeat' first
    | with_reducible assumption
    | (with_reducible refine kept_mk ?_; first | assumption)

theorem keep_setPe {s : State} (p : _) (x : _) (h : Kept m s) :
    Kept m (setPe s p x) := by
  unfold setPe
  repeat' first
    | with_reducible assumption
    | (with_reducible refine kept_mk ?_; first | assumption)

theorem keep_usePage {s : State} (p : _) (off : _) (write : _) (h : Kept m s) :
    Kept m (usePage s p off write) := by
  unfold usePage
  repeat' first
    | with_reducible assumption
    | (extract_lets +onlyGivenNames z; refine kept_cut z ?_ ?_; rotate_left; (clear_value z; intro _); rotate_left
       subst z)
    | (extract_lets +onlyGivenNames z; subst z)
    | split
    | (with_reducible refine kept_mk ?_; first | assumption)

theorem keep_touchPage {s : State} (p : _) (off : _) (h : Kept m s) :
    Kept m (touchPage s p off) := by
  unfold touchPage
  repeat' first
    | with_reducible assumption
    | with_reducible first
        | apply keep_usePage

theorem keep_putScratch {s : State} (p o n v : Nat) (h : Kept m s) : Kept m (putScratch s p o n v) := by
  have hu := keep_usePage p o true (keep_landStores (scratchAddr p o) n h)
  exact kept_mem hu (writeRaw_wf _ _ _ h.wf) rfl rfl

theorem keep_winWrite {s : State} (p off n v : Nat) (h : Kept m s) : Kept m (winWrite s p off n v) := by
  unfold winWrite
  split
  · exact keep_putScratch _ _ _ _ h
  · split
    · exact h
    · exact kept_mk h
  · exact keep_setPlot _ _ h
  · exact keep_setPe _ _ h
  · exact h

theorem keep_setLaunch {s : State} (x : _) (h : Kept m s) :
    Kept m (setLaunch s x) := by
  unfold setLaunch
  repeat' first
    | with_reducible assumption
    | (with_reducible refine kept_mk ?_; first | assumption)

theorem keep_putLaunch {s : State} (k : _) (x : _) (h : Kept m s) :
    Kept m (putLaunch s k x) := by
  unfold putLaunch
  repeat' first
    | with_reducible assumption
    | (with_reducible refine kept_mk ?_; first | assumption)

theorem keep_touchFrame {s : State} (l : _) (e : _) (h : Kept m s) :
    Kept m (touchFrame s l e) := by
  unfold touchFrame
  repeat' first
    | with_reducible assumption
    | (extract_lets +onlyGivenNames z; refine kept_cut z ?_ ?_; rotate_left; (clear_value z; intro _); rotate_left
       subst z)
    | (extract_lets +onlyGivenNames z; subst z)
    | split
    | (with_reducible refine kept_mk ?_; first | assumption)

theorem keep_dataCheck {s : State} (c : _) (k : _) (ea : _) (n : _) (align : _) (h : Kept m s) :
    KeptFst m (dataCheck s c k ea n align) := by
  unfold dataCheck
  repeat' first
    | with_reducible assumption
    | with_reducible first
        | apply keep_touchFrame | apply keep_touchMon | apply keep_markLeaf | apply keep_xtTranslate
        | refine KeptFst.of_eq (by assumption) ?_
    | (extract_lets +onlyGivenNames z; refine kept_cut z ?_ ?_; rotate_left; (clear_value z; intro _); rotate_left
       subst z)
    | (extract_lets +onlyGivenNames z; subst z)
    | split | (with_reducible apply kept_pair)
    | (with_reducible refine kept_mk ?_; first
        | assumption | apply keep_touchFrame | apply keep_touchMon | apply keep_markLeaf | apply keep_xtTranslate
        | refine KeptFst.of_eq (by assumption) ?_)

theorem keep_readEffect {s : State} (l : _) (h : Kept m s) :
    Kept m (readEffect s l) := by
  unfold readEffect
  repeat' first
    | with_reducible assumption
    | with_reducible first
        | apply keep_touchPage
    | split
    | (with_reducible refine kept_mk ?_; first | assumption | apply keep_touchPage)

theorem keep_writeLoc {s : State} (l : _) (n : _) (v : _) (h : Kept m s) :
    Kept m (writeLoc s l n v) := by
  unfold writeLoc
  repeat' first
    | with_reducible assumption
    | with_reducible first
        | apply keep_winWrite | apply keep_writeKeyed
    | split
    | (with_reducible refine kept_mk ?_; first | assumption | apply keep_winWrite | apply keep_writeKeyed)

theorem keep_observe {s : State} (c : _) (k : _) (l : _) (n : _) (h : Kept m s) :
    KeptFst m (observe s c k l n) := by
  unfold observe
  repeat' first
    | with_reducible assumption
    | with_reducible first
        | apply keep_performStores
    | (extract_lets +onlyGivenNames z; refine kept_cut z ?_ ?_; rotate_left; (clear_value z; intro _); rotate_left
       subst z)
    | (extract_lets +onlyGivenNames z; subst z)
    | split | intro _ | (with_reducible apply kept_pair)
    | (with_reducible refine KeptFst.of ?_; first | apply keep_performStores)
    | (with_reducible refine kept_mk ?_; first | assumption | apply keep_performStores)

theorem keep_loadVA {s : State} (c : _) (k : _) (ea : _) (n : _) (align : _) (h : Kept m s) :
    KeptFst m (loadVA s c k ea n align) := by
  unfold loadVA
  repeat' first
    | with_reducible assumption
    | with_reducible first
        | apply keep_observe | apply keep_readEffect | apply keep_dataCheck
        | refine KeptFst.of_eq (by assumption) ?_
    | (extract_lets +onlyGivenNames z; refine kept_cut z ?_ ?_; rotate_left; (clear_value z; intro _); rotate_left
       subst z)
    | (extract_lets +onlyGivenNames z; subst z)
    | split | (with_reducible apply kept_pair)
    | (with_reducible refine KeptFst.of ?_; first
        | apply keep_observe | apply keep_readEffect | apply keep_dataCheck)
    | (with_reducible refine kept_mk ?_; first
        | assumption | apply keep_observe | apply keep_readEffect | apply keep_dataCheck
        | refine KeptFst.of_eq (by assumption) ?_)

theorem keep_storeVA {s : State} (c : _) (ea : _) (n : _) (align : _) (v : _) (h : Kept m s) :
    KeptFst m (storeVA s c ea n align v) := by
  unfold storeVA
  repeat' first
    | with_reducible assumption
    | with_reducible first
        | apply keep_writeLoc | apply keep_dataCheck | refine KeptFst.of_eq (by assumption) ?_
    | split | (with_reducible apply kept_pair)
    | (with_reducible refine kept_mk ?_; first
        | assumption | apply keep_writeLoc | apply keep_dataCheck | refine KeptFst.of_eq (by assumption) ?_)

theorem keep_fillFrame {s : State} (eng pa : Nat) (cs : List (Nat × Byte)) (h : Kept m s) :
    Kept m (fillFrame s eng pa cs) :=
  have hl := keep_landStores pa 4096 h
  kept_mem hl (putCells_wf _ _ (outside_wf _ _ hl.wf)) rfl rfl

theorem keep_loadWords {s : State} (c : _) (ea : _) (x3 : _) (h : Kept m s) :
    KeptFst m (loadWords s c ea x3) := by
  induction x3 generalizing s c ea with
  | zero =>
    unfold loadWords
    repeat' first
      | with_reducible assumption
      | with_reducible first
          | apply keep_loadVA | apply ih | refine KeptFst.of_eq (by assumption) ?_
      | split | (with_reducible apply kept_pair)
      | (with_reducible refine kept_mk ?_; first
          | assumption | apply keep_loadVA | apply ih | refine KeptFst.of_eq (by assumption) ?_)
  | succ n ih =>
    unfold loadWords
    repeat' first
      | with_reducible assumption
      | with_reducible first
          | apply keep_loadVA | apply ih | refine KeptFst.of_eq (by assumption) ?_
      | split | (with_reducible apply kept_pair)
      | (with_reducible refine kept_mk ?_; first
          | assumption | apply keep_loadVA | apply ih | refine KeptFst.of_eq (by assumption) ?_)

/-! ## Machine/Ops.lean -/

theorem keep_setThread {s : State} (tid : _) (t : _) (h : Kept m s) :
    Kept m (setThread s tid t) := by
  unfold setThread
  repeat' first
    | with_reducible assumption
    | (with_reducible refine kept_mk ?_; first | assumption)

theorem keep_toHostStream {s : State} (vd : _) (bits : _) (h : Kept m s) :
    Kept m (toHostStream s vd bits) := by
  unfold toHostStream
  repeat' first
    | with_reducible assumption
    | split
    | (with_reducible refine kept_mk ?_; first | assumption)

theorem keep_subPend {s : State} (tid : _) (ctr : _) (n : _) (h : Kept m s) :
    Kept m (subPend s tid ctr n) := by
  unfold subPend
  repeat' first
    | with_reducible assumption
    | with_reducible first
        | apply keep_setThread
    | split
    | (with_reducible refine kept_mk ?_; first | assumption | apply keep_setThread)

theorem keep_Event_settle {s : State} (e : _) (h : Kept m s) :
    Kept m (Event.settle s e) := by
  unfold Event.settle
  repeat' first
    | with_reducible assumption
    | with_reducible first
        | apply keep_subPend
    | split
    | (with_reducible refine kept_mk ?_; first | assumption | apply keep_subPend)

theorem keep_enterEvent {s : State} (e : _) (h : Kept m s) :
    KeptOpt m (enterEvent s e) := by
  unfold enterEvent
  repeat' first
    | with_reducible assumption
    | with_reducible first
        | apply keep_Event_settle | apply keep_toHostStream | apply keep_setPlot | apply kept_some
        | apply kept_none
    | (extract_lets +onlyGivenNames z; refine kept_cut z ?_ ?_; rotate_left; (clear_value z; intro _); rotate_left
       subst z)
    | (extract_lets +onlyGivenNames z; subst z)
    | split
    | (with_reducible refine kept_mk ?_; first
        | assumption | apply keep_Event_settle | apply keep_toHostStream | apply keep_setPlot)

theorem keep_post {s : State} (e : _) (h : Kept m s) :
    Kept m (post s e) := by
  unfold post
  repeat' first
    | with_reducible assumption
    | with_reducible first
        | apply keep_enterEvent | apply keep_setPlot | refine KeptOpt.of_eq (by assumption) ?_ | apply kept_getD
    | (extract_lets +onlyGivenNames z; refine kept_cut z ?_ ?_; rotate_left; (clear_value z; intro _); rotate_left
       subst z)
    | (extract_lets +onlyGivenNames z; subst z)
    | split
    | (with_reducible refine kept_mk ?_; first
        | assumption | apply keep_enterEvent | apply keep_setPlot | refine KeptOpt.of_eq (by assumption) ?_)

theorem keep_raiseFault {s : State} (lseq : _) (src : _) (f : _) (h : Kept m s) :
    Kept m (raiseFault s lseq src f) := by
  unfold raiseFault
  repeat' first
    | with_reducible assumption
    | with_reducible first
        | apply keep_putLaunch
    | (extract_lets +onlyGivenNames z; refine kept_cut z ?_ ?_; rotate_left; (clear_value z; intro _); rotate_left
       subst z)
    | (extract_lets +onlyGivenNames z; subst z)
    | split
    | (with_reducible refine kept_mk ?_; first | assumption | apply keep_putLaunch)

theorem keep_releasePins {s : State} (t : _) (h : Kept m s) :
    Kept m (releasePins s t) := by
  unfold releasePins
  repeat' first
    | with_reducible assumption
    | with_reducible first
        | apply keep_setPlot | apply kept_foldl
    | intro _

theorem keep_forwardRecords {s : State} (tid : _) (t : _) (vd : _) (h : Kept m s) :
    Kept m (forwardRecords s tid t vd) := by
  unfold forwardRecords
  repeat' first
    | with_reducible assumption
    | with_reducible first
        | apply keep_toHostStream | apply keep_setPlot | apply kept_foldl
    | (extract_lets +onlyGivenNames z; refine kept_cut z ?_ ?_; rotate_left; (clear_value z; intro _); rotate_left
       subst z)
    | (extract_lets +onlyGivenNames z; subst z)
    | intro _
    | (with_reducible refine kept_mk ?_; first
        | assumption | apply keep_toHostStream | apply keep_setPlot | apply kept_foldl)

theorem keep_setBoundHandle {s : State} (lseq : _) (tid : _) (x3 : _) (x : _) (h : Kept m s) :
    Kept m (setBoundHandle s lseq tid x3 x) := by
  unfold setBoundHandle
  repeat' first
    | with_reducible assumption
    | with_reducible first
        | apply keep_setThread | apply keep_putLaunch
    | split
    | (with_reducible refine kept_mk ?_; first | assumption | apply keep_setThread | apply keep_putLaunch)

theorem keep_showStores {s : State} (tid : _) (sc : _) (h : Kept m s) :
    Kept m (showStores s tid sc) := by
  unfold showStores
  repeat' first
    | with_reducible assumption
    | with_reducible first
        | apply keep_dropStores | apply keep_performStores
    | split | intro _

theorem keep_endThread {s : State} (tid : _) (h : Kept m s) :
    Kept m (endThread s tid) := by
  unfold endThread
  repeat' first
    | with_reducible assumption
    | with_reducible first
        | apply keep_showStores | apply keep_forwardRecords | apply keep_releasePins | apply keep_putLaunch
    | (extract_lets +onlyGivenNames z; refine kept_cut z ?_ ?_; rotate_left; (clear_value z; intro _); rotate_left
       subst z)
    | (extract_lets +onlyGivenNames z; subst z)
    | split
    | (with_reducible refine kept_mk ?_; first
        | assumption | apply keep_showStores | apply keep_forwardRecords | apply keep_releasePins
        | apply keep_putLaunch)

theorem keep_doubleTrap {s : State} (tid : _) (t : _) (cause : _) (h : Kept m s) :
    Kept m (doubleTrap s tid t cause) := by
  unfold doubleTrap
  repeat' first
    | with_reducible assumption
    | with_reducible first
        | apply keep_endThread | apply keep_raiseFault

theorem keep_trap {s : State} (tid : _) (t : _) (cause : _) (epc : _) (tval : _) (h : Kept m s) :
    Kept m (trap s tid t cause epc tval) := by
  unfold trap
  repeat' first
    | with_reducible assumption
    | with_reducible first
        | apply keep_doubleTrap | apply keep_setThread
    | split

theorem keep_instr {s : State} (regs : List Reg) {k : Nat → Thread → Out} (h : Kept m s) (hk : ∀ tid t, KeptOut m (k tid t)) :
    KeptOut m (instr regs s k) := by
  unfold instr
  split
  · exact kept_fault _
  · split
    · exact kept_next (keep_trap _ _ _ _ _ h)
    · exact hk _ _

theorem keep_done {s : State} (tid : _) (t : _) (i : _) (h : Kept m s) :
    KeptOut m (done s tid t i) := by
  unfold done
  repeat' first
    | with_reducible assumption
    | with_reducible first
        | apply keep_setThread | apply kept_next

theorem keep_wait {s : State} (tid : _) (t : _) (w : _) (h : Kept m s) :
    KeptOut m (wait s tid t w) := by
  unfold wait
  repeat' first
    | with_reducible assumption
    | with_reducible first
        | apply keep_setThread | apply kept_next
    | (with_reducible refine kept_mk ?_; first | assumption | apply keep_setThread)

/-! ## Machine/Flags.lean -/

theorem keep_raiseFlags {s : State} (lseq : _) (part : _) (f : _) (h : Kept m s) :
    Kept m (raiseFlags s lseq part f) := by
  unfold raiseFlags
  repeat' first
    | with_reducible assumption
    | with_reducible first
        | apply keep_setLaunch
    | split
    | (with_reducible refine kept_mk ?_; first | assumption | apply keep_setLaunch)

/-! ## Machine/Tok.lean -/

theorem keep_addHolder {s : State} (p : _) (tag : _) (h : Kept m s) :
    Kept m (addHolder s p tag) := by
  unfold addHolder
  repeat' first
    | with_reducible assumption
    | with_reducible first
        | apply keep_setPlot
    | split

theorem keep_dropHolder {s : State} (p : _) (tag : _) (h : Kept m s) :
    Kept m (dropHolder s p tag) := by
  unfold dropHolder
  repeat' first
    | with_reducible assumption
    | with_reducible first
        | apply keep_setPlot
    | split

theorem keep_emitTok {s : State} (lseq : _) (k : _) (t : _) (h : Kept m s) :
    Kept m (emitTok s lseq k t) := by
  unfold emitTok
  repeat' first
    | with_reducible assumption
    | with_reducible first
        | apply keep_addHolder | apply keep_setLaunch
    | (extract_lets +onlyGivenNames z; refine kept_cut z ?_ ?_; rotate_left; (clear_value z; intro _); rotate_left
       subst z)
    | (extract_lets +onlyGivenNames z; subst z)
    | split
    | (with_reducible refine kept_mk ?_; first | assumption | apply keep_addHolder | apply keep_setLaunch)

theorem keep_emitSwaps {s : State} (lseq : _) (ks : _) (h : Kept m s) :
    Kept m (emitSwaps s lseq ks) := by
  unfold emitSwaps
  repeat' first
    | with_reducible assumption
    | with_reducible first
        | apply keep_emitTok | apply kept_foldl
    | intro _

theorem keep_modLaunch {s : State} (lseq : _) (f : _) (h : Kept m s) :
    Kept m (modLaunch s lseq f) := by
  unfold modLaunch
  repeat' first
    | with_reducible assumption
    | with_reducible first
        | apply keep_setLaunch
    | split
    | (with_reducible refine kept_mk ?_; first | assumption | apply keep_setLaunch)

theorem keep_modPlane {s : State} (pe : _) (f : _) (h : Kept m s) :
    Kept m (modPlane s pe f) := by
  unfold modPlane
  repeat' first
    | with_reducible assumption
    | with_reducible first
        | apply keep_setPe
    | (with_reducible refine kept_mk ?_; first | assumption | apply keep_setPe)

/-! ## Machine/Divert.lean -/

theorem keep_writeEntry {s : State} (p : _) (k : _) (e : _) (h : Kept m s) :
    Kept m (writeEntry s p k e) := by
  unfold writeEntry
  repeat' first
    | with_reducible assumption
    | with_reducible first
        | apply keep_winWrite | apply kept_foldl
    | intro _
    | (with_reducible refine KeptFst.of ?_; first | apply keep_winWrite)

theorem keep_bumpTail {s : State} (b : _) (h : Kept m s) :
    Kept m (bumpTail s b) := by
  unfold bumpTail
  repeat' first
    | with_reducible assumption
    | with_reducible first
        | apply keep_setThread
    | split | intro _
    | (with_reducible refine kept_mk ?_; first | assumption | apply keep_setThread)

theorem keep_releaseNode {s : State} (pe : _) (x2 : _) (redo : _) (h : Kept m s) :
    Kept m (releaseNode s pe x2 redo) := by
  unfold releaseNode
  repeat' first
    | with_reducible assumption
    | with_reducible first
        | apply keep_modPlane
    | intro _
    | (with_reducible refine kept_mk ?_; first | assumption | apply keep_modPlane)

theorem keep_pushHead {s : State} (pe : _) (port : _) (t : _) (h : Kept m s) :
    Kept m (pushHead s pe port t) := by
  unfold pushHead
  repeat' first
    | with_reducible assumption
    | with_reducible first
        | apply keep_modPlane
    | intro _

theorem keep_pushReplay {s : State} (lseq : _) (k : _) (t : _) (h : Kept m s) :
    Kept m (pushReplay s lseq k t) := by
  unfold pushReplay
  repeat' first
    | with_reducible assumption
    | with_reducible first
        | apply keep_modLaunch
    | (extract_lets +onlyGivenNames z; refine kept_cut z ?_ ?_; rotate_left; (clear_value z; intro _); rotate_left
       subst z)
    | (extract_lets +onlyGivenNames z; subst z)
    | intro _
    | (with_reducible refine kept_mk ?_; first | assumption | apply keep_modLaunch)

theorem keep_dropEntry {s : State} (l : _) (part : _) (e : _) (h : Kept m s) :
    Kept m (dropEntry s l part e) := by
  unfold dropEntry
  repeat' first
    | with_reducible assumption
    | with_reducible first
        | apply keep_pushReplay | apply keep_pushHead | apply keep_releaseNode | apply keep_modPlane
        | apply keep_raiseFault
    | (extract_lets +onlyGivenNames z; refine kept_cut z ?_ ?_; rotate_left; (clear_value z; intro _); rotate_left
       subst z)
    | (extract_lets +onlyGivenNames z; subst z)
    | split | intro _
    | (with_reducible refine kept_mk ?_; first
        | assumption | apply keep_pushReplay | apply keep_pushHead | apply keep_releaseNode | apply keep_modPlane
        | apply keep_raiseFault)

theorem keep_reinjectTag {s : State} (plot : _) (e : _) (h : Kept m s) :
    KeptOptFst m (reinjectTag s plot e) := by
  unfold reinjectTag
  repeat' first
    | with_reducible assumption
    | with_reducible first
        | apply keep_setPlot | apply kept_next | apply kept_fault | apply kept_foldl | apply kept_some
        | apply kept_none | apply kept_some_pair | apply kept_none_pair | apply kept_ok | apply kept_error
        | apply kept_ok_some | apply kept_ok_none | apply kept_map | apply kept_map_fst | apply kept_map_exc
        | apply kept_ok_opt | apply kept_error_opt | apply kept_getD
    | (extract_lets +onlyGivenNames z; refine kept_cut z ?_ ?_; rotate_left; (clear_value z; intro _); rotate_left
       subst z)
    | (extract_lets +onlyGivenNames z; subst z)
    | split | intro _ | (with_reducible apply kept_pair)
    | (with_reducible refine KeptFst.of ?_; first | apply keep_setPlot)
    | (with_reducible refine kept_mk ?_; first | assumption | apply keep_setPlot)

theorem keep_actEntry {s : State} (l : _) (part : _) (e : _) (h : Kept m s) :
    KeptOpt m (actEntry s l part e) := by
  unfold actEntry
  repeat' first
    | with_reducible assumption
    | with_reducible first
        | apply keep_reinjectTag | apply keep_dropEntry | apply keep_pushReplay | apply keep_pushHead
        | apply keep_releaseNode | refine KeptOptFst.of_eq (by assumption) ?_ | apply kept_some | apply kept_none
        | apply kept_map
    | (extract_lets +onlyGivenNames z; refine kept_cut z ?_ ?_; rotate_left; (clear_value z; intro _); rotate_left
       subst z)
    | (extract_lets +onlyGivenNames z; subst z)
    | split | intro _
    | (with_reducible refine KeptFst.of ?_; first
        | apply keep_reinjectTag | apply keep_dropEntry | apply keep_pushReplay | apply keep_pushHead
        | apply keep_releaseNode)
    | (with_reducible refine kept_mk ?_; first
        | assumption | apply keep_reinjectTag | apply keep_dropEntry | apply keep_pushReplay | apply keep_pushHead
        | apply keep_releaseNode | refine KeptOptFst.of_eq (by assumption) ?_)

theorem keep_settle {s : State} (lseq : _) (part : _) (x3 : _) (h : Kept m s) :
    Kept m (settle s lseq part x3) := by
  induction x3 generalizing s lseq part with
  | zero =>
    unfold settle
    repeat' first
      | with_reducible assumption
      | with_reducible first
          | apply keep_actEntry | apply keep_setLaunch | apply ih | refine KeptOpt.of_eq (by assumption) ?_
      | (extract_lets +onlyGivenNames z; refine kept_cut z ?_ ?_; rotate_left; (clear_value z; intro _); rotate_left
         subst z)
      | (extract_lets +onlyGivenNames z; subst z)
      | split
      | (with_reducible refine kept_mk ?_; first
          | assumption | apply keep_actEntry | apply keep_setLaunch | apply ih
          | refine KeptOpt.of_eq (by assumption) ?_)
  | succ n ih =>
    unfold settle
    repeat' first
      | with_reducible assumption
      | with_reducible first
          | apply keep_actEntry | apply keep_setLaunch | apply ih | refine KeptOpt.of_eq (by assumption) ?_
      | (extract_lets +onlyGivenNames z; refine kept_cut z ?_ ?_; rotate_left; (clear_value z; intro _); rotate_left
         subst z)
      | (extract_lets +onlyGivenNames z; subst z)
      | split
      | (with_reducible refine kept_mk ?_; first
          | assumption | apply keep_actEntry | apply keep_setLaunch | apply ih
          | refine KeptOpt.of_eq (by assumption) ?_)

theorem keep_handlerNodeWork {s : State} (lseq : _) (part : _) (h : Kept m s) :
    Kept m (handlerNodeWork s lseq part) := by
  unfold handlerNodeWork
  repeat' first
    | with_reducible assumption
    | with_reducible first
        | apply keep_settle | apply keep_setLaunch
    | (extract_lets +onlyGivenNames z; refine kept_cut z ?_ ?_; rotate_left; (clear_value z; intro _); rotate_left
       subst z)
    | (extract_lets +onlyGivenNames z; subst z)
    | split
    | (with_reducible refine kept_mk ?_; first | assumption | apply keep_settle | apply keep_setLaunch)

theorem keep_enterRing {s : State} (lseq : _) (part : _) (e : _) (h : Kept m s) :
    Kept m (enterRing s lseq part e) := by
  unfold enterRing
  repeat' first
    | with_reducible assumption
    | with_reducible first
        | apply keep_bumpTail | apply keep_writeEntry | apply keep_setLaunch
    | (extract_lets +onlyGivenNames z; refine kept_cut z ?_ ?_; rotate_left; (clear_value z; intro _); rotate_left
       subst z)
    | (extract_lets +onlyGivenNames z; subst z)
    | split
    | (with_reducible refine kept_mk ?_; first
        | assumption | apply keep_bumpTail | apply keep_writeEntry | apply keep_setLaunch)

theorem keep_divert {s : State} (lseq : _) (part : _) (kind : _) (tok : _) (plot : _) (src : _) (f : _) (h : Kept
    m s) :
    Kept m (divert s lseq part kind tok plot src f) := by
  unfold divert
  repeat' first
    | with_reducible assumption
    | with_reducible first
        | apply keep_enterRing | apply keep_handlerNodeWork | apply keep_dropHolder | apply keep_raiseFault
    | (extract_lets +onlyGivenNames z; refine kept_cut z ?_ ?_; rotate_left; (clear_value z; intro _); rotate_left
       subst z)
    | (extract_lets +onlyGivenNames z; subst z)

/-! ## Machine/CollOps.lean -/

theorem keep_keepColl {s : State} (key : _) (c : _) (h : Kept m s) :
    Kept m (keepColl s key c) := by
  unfold keepColl
  repeat' first
    | with_reducible assumption
    | split
    | (with_reducible refine kept_mk ?_; first | assumption)

theorem keep_scatterFrom {s : State} (c : _) (p : _) (x3 : _) (x4 : _) (h : Kept m s) :
    KeptFst m (scatterFrom s c p x3 x4) := by
  induction x4 generalizing s c p x3 with
  | nil =>
    unfold scatterFrom
    repeat' first
      | with_reducible assumption
      | with_reducible first
          | apply keep_storeVA | apply ih | refine KeptFst.of_eq (by assumption) ?_
      | (extract_lets +onlyGivenNames z; refine kept_cut z ?_ ?_; rotate_left; (clear_value z; intro _); rotate_left
         subst z)
      | (extract_lets +onlyGivenNames z; subst z)
      | split | (with_reducible apply kept_pair)
      | (with_reducible refine KeptFst.of ?_; first | apply keep_storeVA | apply ih)
      | (with_reducible refine kept_mk ?_; first
          | assumption | apply keep_storeVA | apply ih | refine KeptFst.of_eq (by assumption) ?_)
  | cons a l ih =>
    unfold scatterFrom
    repeat' first
      | with_reducible assumption
      | with_reducible first
          | apply keep_storeVA | apply ih | refine KeptFst.of_eq (by assumption) ?_
      | (extract_lets +onlyGivenNames z; refine kept_cut z ?_ ?_; rotate_left; (clear_value z; intro _); rotate_left
         subst z)
      | (extract_lets +onlyGivenNames z; subst z)
      | split | (with_reducible apply kept_pair)
      | (with_reducible refine KeptFst.of ?_; first | apply keep_storeVA | apply ih)
      | (with_reducible refine kept_mk ?_; first
          | assumption | apply keep_storeVA | apply ih | refine KeptFst.of_eq (by assumption) ?_)

theorem keep_scatterPart {s : State} (key : Nat) (c : Coll) (p : CollPart) (h : Kept m s) : Kept m (scatterPart s key c p) := by
  unfold scatterPart
  split
  · exact h
  · have hr := (keep_scatterFrom c p p.wrote (((c.combineAll c.n).stored p.rank).1.drop p.wrote) h).of
    exact ⟨hr.wf, hr.idle, hr.svn⟩

theorem keep_scatterColls {s : State} (lseq : _) (h : Kept m s) :
    Kept m (scatterColls s lseq) := by
  unfold scatterColls
  repeat' first
    | with_reducible assumption
    | with_reducible first
        | apply keep_scatterPart | apply kept_foldl
    | split | intro _
    | (with_reducible refine KeptFst.of ?_; first | apply keep_scatterPart)
    | (with_reducible refine kept_mk ?_; first | assumption | apply keep_scatterPart | apply kept_foldl)

/-! ## Machine/Launch.lean -/

theorem keep_emptyScratch {s : State} (p : Nat) (h : Kept m s) : Kept m (emptyScratch s p) :=
  have hl := keep_landStores (scratchAddr p 0) scratchSize h
  kept_mem hl (filter_wf _ hl.wf) rfl rfl

theorem keep_clearEdges {s : State} (p : _) (h : Kept m s) :
    Kept m (clearEdges s p) := by
  unfold clearEdges
  repeat' first
    | with_reducible assumption
    | with_reducible first
        | apply keep_dropHolder | apply kept_foldl
    | (extract_lets +onlyGivenNames z; refine kept_cut z ?_ ?_; rotate_left; (clear_value z; intro _); rotate_left
       subst z)
    | (extract_lets +onlyGivenNames z; subst z)
    | split | intro _
    | (with_reducible refine KeptFst.of ?_; first | apply keep_dropHolder)
    | (with_reducible refine kept_mk ?_; first | assumption | apply keep_dropHolder | apply kept_foldl)

theorem keep_releasePlot {s : State} (p : Nat) (h : Kept m s) : Kept m (releasePlot s p) :=
  kept_mk (keep_clearEdges p (keep_emptyScratch p h))

theorem keep_plotsReleased {s : State} (ps : _) (h : Kept m s) :
    Kept m (plotsReleased s ps) := by
  unfold plotsReleased
  repeat' first
    | with_reducible assumption
    | with_reducible first
        | apply kept_bind | apply kept_some | apply kept_none
    | (extract_lets +onlyGivenNames z; refine kept_cut z ?_ ?_; rotate_left; (clear_value z; intro _); rotate_left
       subst z)
    | (extract_lets +onlyGivenNames z; subst z)
    | split | intro _
    | (with_reducible refine kept_mk ?_; first | assumption)

theorem keep_releasePlots {s : State} (lseq : _) (h : Kept m s) :
    Kept m (releasePlots s lseq) := by
  unfold releasePlots
  repeat' first
    | with_reducible assumption
    | with_reducible first
        | apply keep_plotsReleased | apply keep_releasePlot | apply kept_foldl
    | intro _

theorem keep_freeBacks {s : State} (vd : _) (lseq : _) (h : Kept m s) :
    Kept m (freeBacks s vd lseq) := by
  unfold freeBacks
  repeat' first
    | with_reducible assumption
    | split | intro _
    | (with_reducible refine kept_mk ?_; first | assumption)

theorem keep_freeSegs {s : State} (vd : _) (lseq : _) (h : Kept m s) :
    Kept m (freeSegs s vd lseq) := by
  unfold freeSegs
  repeat' first
    | with_reducible assumption
    | split | intro _
    | (with_reducible refine kept_mk ?_; first | assumption)

theorem keep_completeWait {s : State} (tid : _) (len : _) (h : Kept m s) :
    Kept m (completeWait s tid len) := by
  unfold completeWait
  repeat' first
    | with_reducible assumption
    | with_reducible first
        | apply keep_setThread
    | split
    | (with_reducible refine kept_mk ?_; first | assumption | apply keep_setThread)

theorem keep_retryWait {s : State} (tid : _) (h : Kept m s) :
    Kept m (retryWait s tid) := by
  unfold retryWait
  repeat' first
    | with_reducible assumption
    | with_reducible first
        | apply keep_setThread
    | split
    | (with_reducible refine kept_mk ?_; first | assumption | apply keep_setThread)

theorem keep_wakeOnEnd {s : State} (lseq : _) (h : Kept m s) :
    Kept m (wakeOnEnd s lseq) := by
  unfold wakeOnEnd
  repeat' first
    | with_reducible assumption
    | with_reducible first
        | apply keep_retryWait | apply keep_completeWait | apply kept_foldl
    | split | intro _
    | (with_reducible refine KeptFst.of ?_; first | apply keep_retryWait | apply keep_completeWait)
    | (with_reducible refine kept_mk ?_; first
        | assumption | apply keep_retryWait | apply keep_completeWait | apply kept_foldl)

theorem keep_abandonColls {s : State} (lseq : _) (h : Kept m s) :
    Kept m (abandonColls s lseq) := by
  unfold abandonColls
  repeat' first
    | with_reducible assumption
    | with_reducible first
        | apply kept_foldl
    | (extract_lets +onlyGivenNames z; refine kept_cut z ?_ ?_; rotate_left; (clear_value z; intro _); rotate_left
       subst z)
    | (extract_lets +onlyGivenNames z; subst z)
    | split | intro _
    | (with_reducible refine kept_mk ?_; first | assumption | apply kept_foldl)

theorem keep_endThreads {s : State} (lseq : _) (h : Kept m s) :
    Kept m (endThreads s lseq) := by
  unfold endThreads
  repeat' first
    | with_reducible assumption
    | with_reducible first
        | apply keep_endThread | apply kept_foldl
    | intro _
    | (with_reducible refine KeptFst.of ?_; first | apply keep_endThread)

theorem keep_endLaunch {s : State} (lseq : _) (status : _) (cause : _) (quiet : _) (h : Kept m s) :
    Kept m (endLaunch s lseq status cause quiet) := by
  unfold endLaunch
  repeat' first
    | with_reducible assumption
    | with_reducible first
        | apply keep_endThreads | apply keep_abandonColls | apply keep_wakeOnEnd | apply keep_freeSegs
        | apply keep_freeBacks | apply keep_releasePlots | apply keep_scatterColls | apply keep_post
        | apply kept_foldl
    | (extract_lets +onlyGivenNames z; refine kept_cut z ?_ ?_; rotate_left; (clear_value z; intro _); rotate_left
       subst z)
    | (extract_lets +onlyGivenNames z; subst z)
    | split | intro _
    | (with_reducible refine kept_mk ?_; first
        | assumption | apply keep_endThreads | apply keep_abandonColls | apply keep_wakeOnEnd
        | apply keep_freeSegs | apply keep_freeBacks | apply keep_releasePlots | apply keep_scatterColls
        | apply keep_post | apply kept_foldl)

/-! ## Machine/Issue.lean -/

theorem keep_fetchWord {s : State} (t : _) (va : _) (h : Kept m s) :
    KeptFst m (fetchWord s t va) := by
  unfold fetchWord
  repeat' first
    | with_reducible assumption
    | with_reducible first
        | apply keep_loadVA | refine KeptFst.of_eq (by assumption) ?_
    | (with_reducible apply kept_pair)

theorem keep_fetchInstr {s : State} (tid : _) (t : _) (h : Kept m s) :
    KeptFst m (fetchInstr s tid t) := by
  unfold fetchInstr
  repeat' first
    | with_reducible assumption
    | with_reducible first
        | apply keep_fetchWord | apply keep_trap | refine KeptFst.of_eq (by assumption) ?_
    | (extract_lets +onlyGivenNames z; refine kept_cut z ?_ ?_; rotate_left; (clear_value z; intro _); rotate_left
       subst z)
    | (extract_lets +onlyGivenNames z; subst z)
    | split | intro _ | (with_reducible apply kept_pair)
    | (with_reducible refine kept_mk ?_; first
        | assumption | apply keep_fetchWord | apply keep_trap | refine KeptFst.of_eq (by assumption) ?_)

theorem fetchInstr_words {s s' : State} {tid : Nat} {t : Thread} {i : Instr} (e : fetchInstr s tid t = (s', some i)) :
    encode i ≠ [] := by
  unfold fetchInstr at e
  split at e
  · cases e
  · cases e
  · rename_i w _
    extract_lets w0 fin at e
    have hf : ∀ s v, fin s v = (s', some i) → encode i ≠ [] := by
      intro s v h
      simp only [fin] at h
      split at h
      · rename_i hd
        cases h
        exact decode_words hd
      · cases h
      · cases h
    split at e
    · split at e
      · cases e
      · cases e
      · exact hf _ _ e
    · exact hf _ _ e

theorem keep_execInstructionIssue (cc : Nat) {s t : State} (h : Kept m s) (e : execInstructionIssue cc s = .next t) :
    Memory.wf t.mem = true ∧ m ≤ t.maxSvn ∧ ∀ i, t.latch = some i → encode i ≠ [] := by
  have kept : ∀ {u : State}, Kept m u →
      Memory.wf u.mem = true ∧ m ≤ u.maxSvn ∧ ∀ i, u.latch = some i → encode i ≠ [] :=
    fun hu => ⟨hu.wf, hu.svn, fun i hi => by rw [hu.idle] at hi; cases hi⟩
  unfold execInstructionIssue at e
  split at e
  · cases e; exact kept h
  · split at e
    · cases e; exact kept h
    · extract_lets x y s1 s2 at e
      have h2 : Kept m s2 := kept_mk (keep_setPlot _ _ h)
      split at e
      · rename_i s3 i hi
        cases e
        have h3 : Kept m s3 := KeptFst.of_eq hi (keep_fetchInstr _ _ h2)
        refine ⟨h3.wf, h3.svn, fun j hj => ?_⟩
        cases hj
        exact fetchInstr_words hi
      · rename_i s3 hi
        cases e
        exact kept (KeptFst.of_eq hi (keep_fetchInstr _ _ h2))

theorem keep_execWfeWake (tid : _) {s : State} (h : Kept m s) :
    KeptOut m (execWfeWake tid s) := by
  unfold execWfeWake
  repeat' first
    | with_reducible assumption
    | with_reducible first
        | apply keep_completeWait | apply kept_next
    | split
    | (with_reducible refine kept_mk ?_; first | assumption | apply keep_completeWait)

theorem keep_execLoadReturn (tid : _) {s : State} (h : Kept m s) :
    KeptOut m (execLoadReturn tid s) := by
  unfold execLoadReturn
  repeat' first
    | with_reducible assumption
    | with_reducible first
        | apply keep_setThread | apply kept_next
    | split
    | (with_reducible refine kept_mk ?_; first | assumption | apply keep_setThread)

theorem keep_execSiblingWindowRelease (tid : _) {s : State} (h : Kept m s) :
    KeptOut m (execSiblingWindowRelease tid s) := by
  unfold execSiblingWindowRelease
  repeat' first
    | with_reducible assumption
    | with_reducible first
        | apply keep_retryWait | apply kept_next
    | split
    | (with_reducible refine kept_mk ?_; first | assumption | apply keep_retryWait)

theorem keep_wakePage {s : State} (p : _) (page : _) (h : Kept m s) :
    Kept m (wakePage s p page) := by
  unfold wakePage
  repeat' first
    | with_reducible assumption
    | with_reducible first
        | apply keep_retryWait | apply kept_foldl
    | split | intro _
    | (with_reducible refine KeptFst.of ?_; first | apply keep_retryWait)

theorem keep_bringPage {s : State} (p page : Nat) (at_ : Option (Nat × Nat)) (h : Kept m s) :
    Kept m (bringPage s p page at_) := by
  unfold bringPage
  refine keep_usePage _ _ _ ?_
  split
  · exact kept_mk h
  · split
    · exact kept_mk h
    · exact kept_mem h (putCells_wf _ _ h.wf) rfl rfl

theorem keep_execBackedPageResident (p : _) (page : _) {s : State} (h : Kept m s) :
    KeptOut m (execBackedPageResident p page s) := by
  unfold execBackedPageResident
  repeat' first
    | with_reducible assumption
    | with_reducible first
        | apply keep_bringPage | apply keep_wakePage | apply kept_next
    | split
    | (with_reducible refine kept_mk ?_; first | assumption | apply keep_bringPage | apply keep_wakePage)

theorem keep_execSbar (x0 : _) {s : State} (h : Kept m s) :
    KeptOut m (execSbar x0 s) := by
  unfold execSbar
  repeat' first
    | with_reducible assumption
    | with_reducible first
        | apply keep_wait | apply keep_done | apply keep_instr | apply kept_next
    | split | intro _

theorem keep_execSbarComplete (tid : _) {s : State} (h : Kept m s) :
    KeptOut m (execSbarComplete tid s) := by
  unfold execSbarComplete
  repeat' first
    | with_reducible assumption
    | with_reducible first
        | apply keep_completeWait | apply kept_next
    | split
    | (with_reducible refine kept_mk ?_; first | assumption | apply keep_completeWait)

theorem keep_execGbar (g : _) {s : State} (h : Kept m s) :
    KeptOut m (execGbar g s) := by
  unfold execGbar
  repeat' first
    | with_reducible assumption
    | with_reducible first
        | apply keep_wait | apply keep_done | apply keep_instr | apply keep_trap | apply keep_showStores
        | apply keep_setThread | apply kept_next
    | (extract_lets +onlyGivenNames z; refine kept_cut z ?_ ?_; rotate_left; (clear_value z; intro _); rotate_left
       subst z)
    | (extract_lets +onlyGivenNames z; subst z)
    | split | intro _
    | (with_reducible refine kept_mk ?_; first
        | assumption | apply keep_wait | apply keep_done | apply keep_instr | apply keep_trap
        | apply keep_showStores | apply keep_setThread)

theorem keep_execGbarComplete (tid : _) {s : State} (h : Kept m s) :
    KeptOut m (execGbarComplete tid s) := by
  unfold execGbarComplete
  repeat' first
    | with_reducible assumption
    | with_reducible first
        | apply keep_completeWait | apply kept_next
    | split
    | (with_reducible refine kept_mk ?_; first | assumption | apply keep_completeWait)

theorem keep_moveRecords {s : State} (tid : _) (old : _) (new : _) (slot : _) (h : Kept m s) :
    Kept m (moveRecords s tid old new slot) := by
  unfold moveRecords
  repeat' first
    | with_reducible assumption
    | with_reducible first
        | apply keep_setPlot
    | (extract_lets +onlyGivenNames z; refine kept_cut z ?_ ?_; rotate_left; (clear_value z; intro _); rotate_left
       subst z)
    | (extract_lets +onlyGivenNames z; subst z)
    | intro _
    | (with_reducible refine kept_mk ?_; first | assumption | apply keep_setPlot)

theorem keep_admitThread {s : State} (p : _) (slot : _) (x3 : _) (h : Kept m s) :
    KeptOptFst m (admitThread s p slot x3) := by
  unfold admitThread
  repeat' first
    | with_reducible assumption
    | with_reducible first
        | apply keep_moveRecords | apply keep_setLaunch | apply kept_some_pair | apply kept_none_pair
        | apply kept_map_fst
    | (extract_lets +onlyGivenNames z; refine kept_cut z ?_ ?_; rotate_left; (clear_value z; intro _); rotate_left
       subst z)
    | (extract_lets +onlyGivenNames z; subst z)
    | split
    | (with_reducible refine kept_mk ?_; first | assumption | apply keep_moveRecords | apply keep_setLaunch)

theorem keep_execThreadAdmission (cc : _) {s : State} (h : Kept m s) :
    KeptOut m (execThreadAdmission cc s) := by
  unfold execThreadAdmission
  repeat' first
    | with_reducible assumption
    | with_reducible first
        | apply keep_admitThread | apply keep_setThread | apply keep_setPlot
        | refine KeptOptFst.of_eq (by assumption) ?_ | apply kept_next
    | (extract_lets +onlyGivenNames z; refine kept_cut z ?_ ?_; rotate_left; (clear_value z; intro _); rotate_left
       subst z)
    | (extract_lets +onlyGivenNames z; subst z)
    | split
    | (with_reducible refine kept_mk ?_; first
        | assumption | apply keep_admitThread | apply keep_setThread | apply keep_setPlot
        | refine KeptOptFst.of_eq (by assumption) ?_)

theorem keep_execGangStart (lseq : _) {s : State} (h : Kept m s) :
    KeptOut m (execGangStart lseq s) := by
  unfold execGangStart
  repeat' first
    | with_reducible assumption
    | with_reducible first
        | apply kept_next
    | split | intro _
    | (with_reducible refine kept_mk ?_; first | assumption)

/-! ## Machine/Score.lean -/

theorem keep_setBrock {s : State} (b : _) (h : Kept m s) :
    Kept m (setBrock s b) := by
  unfold setBrock
  repeat' first
    | with_reducible assumption
    | (with_reducible refine kept_mk ?_; first | assumption)

theorem keep_setLease {s : State} (u : _) (l : _) (h : Kept m s) :
    Kept m (setLease s u l) := by
  unfold setLease
  repeat' first
    | with_reducible assumption
    | with_reducible first
        | apply keep_setBrock
    | (with_reducible refine kept_mk ?_; first | assumption | apply keep_setBrock)

theorem keep_setScore {s : State} (u : _) (n : _) (h : Kept m s) :
    Kept m (setScore s u n) := by
  unfold setScore
  repeat' first
    | with_reducible assumption
    | with_reducible first
        | apply keep_setBrock
    | split
    | (with_reducible refine kept_mk ?_; first | assumption | apply keep_setBrock)

theorem keep_requestLease {s : State} (u : _) (immediate : _) (h : Kept m s) :
    Kept m (requestLease s u immediate) := by
  unfold requestLease
  repeat' first
    | with_reducible assumption
    | with_reducible first
        | apply keep_setLease
    | split
    | (with_reducible refine kept_mk ?_; first | assumption | apply keep_setLease)

theorem keep_requestRetire {s : State} (u : _) (h : Kept m s) :
    Kept m (requestRetire s u) := by
  unfold requestRetire
  repeat' first
    | with_reducible assumption
    | with_reducible first
        | apply keep_requestLease | apply keep_setLease
    | (extract_lets +onlyGivenNames z; refine kept_cut z ?_ ?_; rotate_left; (clear_value z; intro _); rotate_left
       subst z)
    | (extract_lets +onlyGivenNames z; subst z)
    | split
    | (with_reducible refine kept_mk ?_; first | assumption | apply keep_requestLease | apply keep_setLease)

theorem keep_addScore {s : State} (u : _) (n : _) (h : Kept m s) :
    Kept m (addScore s u n) := by
  unfold addScore
  repeat' first
    | with_reducible assumption
    | with_reducible first
        | apply keep_requestRetire | apply keep_requestLease | apply keep_setScore
    | (extract_lets +onlyGivenNames z; refine kept_cut z ?_ ?_; rotate_left; (clear_value z; intro _); rotate_left
       subst z)
    | (extract_lets +onlyGivenNames z; subst z)
    | split

/-! ## Machine/Cross.lean -/

theorem keep_edgeBind {s : State} (src dst tag : Nat) (v : BitVec 32) (h : Kept m s) :
    KeptOptFst m (edgeBind s src dst tag v) := by
  unfold edgeBind
  extract_lets x d dir rows add
  have ha : ∀ x d, KeptOptFst m (add x d) := fun x d =>
    kept_map_fst fun a _ => kept_pair _ (keep_setPlot _ _ (keep_setPlot _ _ h))
  split
  · exact ha _ _
  · split
    · exact kept_none_pair
    · exact ha _ _

theorem keep_crossTag {s : State} (src : _) (dst : _) (tag : _) (h : Kept m s) :
    KeptExcOptFst m (crossTag s src dst tag) := by
  unfold crossTag
  repeat' first
    | with_reducible assumption
    | with_reducible first
        | apply keep_edgeBind | apply keep_addHolder | refine KeptOptFst.of_eq (by assumption) ?_
        | apply kept_next | apply kept_fault | apply kept_foldl | apply kept_some | apply kept_none
        | apply kept_some_pair | apply kept_none_pair | apply kept_ok | apply kept_error | apply kept_ok_some
        | apply kept_ok_none | apply kept_map | apply kept_map_fst | apply kept_map_exc | apply kept_ok_opt
        | apply kept_error_opt | apply kept_getD
    | (extract_lets +onlyGivenNames z; refine kept_cut z ?_ ?_; rotate_left; (clear_value z; intro _); rotate_left
       subst z)
    | (extract_lets +onlyGivenNames z; subst z)
    | split | intro _ | (with_reducible apply kept_pair)
    | (with_reducible refine KeptFst.of ?_; first | apply keep_edgeBind | apply keep_addHolder)
    | (with_reducible refine kept_mk ?_; first
        | assumption | apply keep_edgeBind | apply keep_addHolder | refine KeptOptFst.of_eq (by assumption) ?_)

theorem keep_crossRoute {s : State} (tag : Nat) (r : List Nat) (h : Kept m s) : KeptOptFst m (crossRoute s tag r) := by
  induction r generalizing s tag with
  | nil => exact kept_some_pair _ h
  | cons a l ih =>
    cases l with
    | nil => exact kept_some_pair _ h
    | cons b r =>
      unfold crossRoute
      split
      · rename_i s' t e
        have hs := (keep_crossTag _ _ _ h).of e
        split
        · rename_i s'' u e'
          have hs' := (ih t hs).of e'
          refine kept_some_pair _ ?_
          split
          · exact hs'
          · exact keep_dropHolder _ _ hs'
        · exact kept_none_pair
      · exact kept_none_pair

theorem keep_scoreCause {s : State} (plot : _) (cause : _) (h : Kept m s) :
    Kept m (scoreCause s plot cause) := by
  unfold scoreCause
  repeat' first
    | with_reducible assumption
    | with_reducible first
        | apply keep_addScore
    | split

theorem keep_crossAt {s : State} (l : _) (chan : _) (i : _) (h : Kept m s) :
    KeptOpt m (crossAt s l chan i) := by
  unfold crossAt
  repeat' first
    | with_reducible assumption
    | with_reducible first
        | apply keep_scoreCause | apply keep_crossTag | apply keep_divert | apply keep_modLaunch
        | apply keep_dropHolder | refine KeptExcOptFst.of_eq (by assumption) ?_ | apply kept_some
        | apply kept_none
    | (extract_lets +onlyGivenNames z; refine kept_cut z ?_ ?_; rotate_left; (clear_value z; intro _); rotate_left
       subst z)
    | (extract_lets +onlyGivenNames z; subst z)
    | split | intro _
    | (with_reducible refine kept_mk ?_; first
        | assumption | apply keep_scoreCause | apply keep_crossTag | apply keep_divert | apply keep_modLaunch
        | apply keep_dropHolder | refine KeptExcOptFst.of_eq (by assumption) ?_)

theorem keep_leaveCkpt {s : State} (l : _) (chan : _) (h : Kept m s) :
    KeptOpt m (leaveCkpt s l chan) := by
  unfold leaveCkpt
  repeat' first
    | with_reducible assumption
    | with_reducible first
        | apply keep_modLaunch | apply keep_setPlot | apply kept_some | apply kept_none | apply kept_map
        | apply kept_bind
    | (extract_lets +onlyGivenNames z; refine kept_cut z ?_ ?_; rotate_left; (clear_value z; intro _); rotate_left
       subst z)
    | (extract_lets +onlyGivenNames z; subst z)
    | split | intro _
    | (with_reducible refine KeptFst.of ?_; first | apply keep_modLaunch | apply keep_setPlot)
    | (with_reducible refine kept_mk ?_; first | assumption | apply keep_modLaunch | apply keep_setPlot)

theorem keep_crossOnce {s : State} (l : Launch) (chan : Nat) (h : Kept m s) : KeptOpt m (crossOnce s l chan) :=
  kept_orElse (keep_leaveCkpt l chan h) (kept_findSome fun i => keep_crossAt l chan i h)

theorem keep_crossFrom {s : State} (l : _) (chan : _) (x3 : _) (h : Kept m s) :
    KeptOpt m (crossFrom s l chan x3) := by
  unfold crossFrom
  repeat' first
    | with_reducible assumption
    | with_reducible first
        | apply keep_crossOnce | apply keep_crossAt | refine KeptOpt.of_eq (by assumption) ?_ | apply kept_some
        | apply kept_none | apply kept_orElse
    | split | intro _

theorem keep_crossAway {s : State} (l : _) (chan : _) (h : Kept m s) :
    Kept m (crossAway s l chan) := by
  unfold crossAway
  repeat' first
    | with_reducible assumption
    | with_reducible first
        | apply keep_modLaunch | apply keep_dropHolder
    | (extract_lets +onlyGivenNames z; refine kept_cut z ?_ ?_; rotate_left; (clear_value z; intro _); rotate_left
       subst z)
    | (extract_lets +onlyGivenNames z; subst z)
    | split | intro _
    | (with_reducible refine KeptFst.of ?_; first | apply keep_modLaunch | apply keep_dropHolder)
    | (with_reducible refine kept_mk ?_; first | assumption | apply keep_modLaunch | apply keep_dropHolder)

theorem keep_leaveRecv {s : State} (l : _) (chan : _) (h : Kept m s) :
    KeptOpt m (leaveRecv s l chan) := by
  unfold leaveRecv
  repeat' first
    | with_reducible assumption
    | with_reducible first
        | apply keep_leaveCkpt | refine KeptOpt.of_eq (by assumption) ?_ | apply kept_some | apply kept_none
    | (extract_lets +onlyGivenNames z; refine kept_cut z ?_ ?_; rotate_left; (clear_value z; intro _); rotate_left
       subst z)
    | (extract_lets +onlyGivenNames z; subst z)
    | split
    | (with_reducible refine kept_mk ?_; first
        | assumption | apply keep_leaveCkpt | refine KeptOpt.of_eq (by assumption) ?_)

theorem keep_crossIn {s : State} (l : Launch) (chan : Nat) (h : Kept m s) : Kept m (crossIn s l chan) := by
  unfold crossIn
  extract_lets st c s1
  have h1 : Kept m s1 := kept_mk h
  clear_value s1
  split
  · exact kept_getD (keep_leaveRecv l chan h1) h1
  · split
    · exact h1
    · exact keep_modLaunch _ _ (kept_mk h1)

theorem keep_execEdgePortCrossing (lseq : _) (chan : _) {s : State} (h : Kept m s) :
    KeptOut m (execEdgePortCrossing lseq chan s) := by
  unfold execEdgePortCrossing
  repeat' first
    | with_reducible assumption
    | with_reducible first
        | apply keep_crossIn | apply keep_crossAway | apply keep_crossFrom
        | refine KeptOpt.of_eq (by assumption) ?_ | apply kept_next | apply kept_getD
    | (extract_lets +onlyGivenNames z; refine kept_cut z ?_ ?_; rotate_left; (clear_value z; intro _); rotate_left
       subst z)
    | (extract_lets +onlyGivenNames z; subst z)
    | split
    | (with_reducible refine kept_mk ?_; first
        | assumption | apply keep_crossIn | apply keep_crossAway | apply keep_crossFrom
        | refine KeptOpt.of_eq (by assumption) ?_)

theorem keep_reachPort {s : State} (lseq : _) (pe : _) (n : _) (c : _) (t : _) (h : Kept m s) :
    KeptOpt m (reachPort s lseq pe n c t) := by
  unfold reachPort
  repeat' first
    | with_reducible assumption
    | with_reducible first
        | apply keep_divert | apply keep_modPlane | apply keep_dropHolder | apply kept_some | apply kept_none
    | (extract_lets +onlyGivenNames z; refine kept_cut z ?_ ?_; rotate_left; (clear_value z; intro _); rotate_left
       subst z)
    | (extract_lets +onlyGivenNames z; subst z)
    | split | intro _
    | (with_reducible refine kept_mk ?_; first
        | assumption | apply keep_divert | apply keep_modPlane | apply keep_dropHolder)

theorem keep_popSpill {s : State} (vd : _) (c : _) (h : Kept m s) :
    KeptFst m (popSpill s vd c) := by
  unfold popSpill
  repeat' first
    | with_reducible assumption
    | (extract_lets +onlyGivenNames z; refine kept_cut z ?_ ?_; rotate_left; (clear_value z; intro _); rotate_left
       subst z)
    | (extract_lets +onlyGivenNames z; subst z)
    | split | intro _ | (with_reducible apply kept_pair)
    | (with_reducible refine kept_mk ?_; first | assumption)

theorem keep_writeSpill {s : State} (l : _) (vd : _) (seg : _) (slot : _) (h : Kept m s) :
    Kept m (writeSpill s l vd seg slot) := by
  unfold writeSpill
  repeat' first
    | with_reducible assumption
    | with_reducible first
        | apply keep_writeKeyed | apply kept_foldl
    | (extract_lets +onlyGivenNames z; refine kept_cut z ?_ ?_; rotate_left; (clear_value z; intro _); rotate_left
       subst z)
    | (extract_lets +onlyGivenNames z; subst z)
    | intro _
    | (with_reducible refine KeptFst.of ?_; first | apply keep_writeKeyed)
    | (with_reducible refine kept_mk ?_; first | assumption | apply keep_writeKeyed | apply kept_foldl)

theorem keep_spillTok {s : State} (l : _) (chan : _) (d : _) (t : _) (h : Kept m s) :
    KeptOpt m (spillTok s l chan d t) := by
  unfold spillTok
  repeat' first
    | with_reducible assumption
    | with_reducible first
        | apply keep_writeSpill | apply keep_modLaunch | apply kept_foldl | apply kept_some | apply kept_none
        | apply kept_map
    | (extract_lets +onlyGivenNames z; refine kept_cut z ?_ ?_; rotate_left; (clear_value z; intro _); rotate_left
       subst z)
    | (extract_lets +onlyGivenNames z; subst z)
    | split | intro _
    | (with_reducible refine kept_mk ?_; first
        | assumption | apply keep_writeSpill | apply keep_modLaunch | apply kept_foldl)

theorem keep_landOnce {s : State} (l : _) (chan : _) (h : Kept m s) :
    KeptOpt m (landOnce s l chan) := by
  unfold landOnce
  repeat' first
    | with_reducible assumption
    | with_reducible first
        | apply keep_reachPort | apply keep_modLaunch | refine KeptOpt.of_eq (by assumption) ?_ | apply kept_some
        | apply kept_none
    | (extract_lets +onlyGivenNames z; refine kept_cut z ?_ ?_; rotate_left; (clear_value z; intro _); rotate_left
       subst z)
    | (extract_lets +onlyGivenNames z; subst z)
    | split | intro _
    | (with_reducible refine kept_mk ?_; first
        | assumption | apply keep_reachPort | apply keep_modLaunch | refine KeptOpt.of_eq (by assumption) ?_)

theorem keep_execTokenArrival (lseq chan : Nat) {s : State} (h : Kept m s) : KeptOut m (execTokenArrival lseq chan s) := by
  unfold execTokenArrival
  split
  · exact kept_next h
  · split
    extract_lets c n pe x here room put arrive
    split
    extract_lets y
    have hp : ∀ s d, Kept m s → Kept m (put s d) := fun s d hs => keep_modLaunch _ _ hs
    have ha : ∀ s' d t b, Kept m s' → Kept m (arrive s' d t b) := by
      intro s' d t b hs
      simp only [arrive]
      refine iteInduction (fun _ => kept_getD (keep_reachPort _ _ _ _ _ (hp _ _ hs)) h) fun _ => ?_
      refine iteInduction (fun _ => hp _ _ hs) fun _ => ?_
      exact iteInduction (fun _ => hp _ _ hs) fun _ => h
    clear_value arrive
    split
    · exact kept_next h
    · split
      · exact kept_next (ha _ _ _ _ h)
      · exact kept_next (ha _ _ _ _ (keep_popSpill _ _ h).of)
      · exact kept_next (ha _ _ _ _ h)
      · exact kept_next h

theorem keep_execFifoSpill (lseq : _) (chan : _) {s : State} (h : Kept m s) :
    KeptOut m (execFifoSpill lseq chan s) := by
  unfold execFifoSpill
  repeat' first
    | with_reducible assumption
    | with_reducible first
        | apply keep_spillTok | apply keep_popSpill | apply keep_modLaunch
        | refine KeptFst.of_eq (by assumption) ?_ | refine KeptOpt.of_eq (by assumption) ?_ | apply kept_next
        | apply kept_fault | apply kept_foldl | apply kept_some | apply kept_none | apply kept_some_pair
        | apply kept_none_pair | apply kept_ok | apply kept_error | apply kept_ok_some | apply kept_ok_none
        | apply kept_map | apply kept_map_fst | apply kept_map_exc | apply kept_ok_opt | apply kept_error_opt
        | apply kept_getD
    | (extract_lets +onlyGivenNames z; refine kept_cut z ?_ ?_; rotate_left; (clear_value z; intro _); rotate_left
       subst z)
    | (extract_lets +onlyGivenNames z; subst z)
    | split | intro _ | (with_reducible apply kept_pair)
    | (with_reducible refine KeptFst.of ?_; first
        | apply keep_spillTok | apply keep_popSpill | apply keep_modLaunch)
    | (with_reducible refine kept_mk ?_; first
        | assumption | apply keep_spillTok | apply keep_popSpill | apply keep_modLaunch
        | refine KeptFst.of_eq (by assumption) ?_ | refine KeptOpt.of_eq (by assumption) ?_)

end Sys2Proof.Laws
end

