-- ==== Sys2Proof/Laws/KeepThreads.lean ====
section
/-!
SUPPORT. Every function keeps the machine sound (Laws/Keep.lean): the instructions of a thread that read and write memory, give commands, and use scales and handles.
-/
set_option Elab.async false
set_option linter.all false
namespace Sys2Proof.Laws
open Sys2Proof.Machine

variable {m : Nat}

/-! ## Machine/MemInstr.lean -/

theorem keep_withChecked {α : Type} {r : State × Checked α} (tid : Nat) (t : Thread) {k : State → α → Out}
    (hr : KeptFst m r) (hk : ∀ s a, Kept m s → KeptOut m (k s a)) : KeptOut m (withChecked r tid t k) := by
  unfold withChecked
  split
  · exact kept_next (keep_trap _ _ _ _ _ hr.of)
  · exact keep_wait _ _ _ hr.of
  · exact hk _ _ hr.of

theorem keep_loadBlock {s : State} (c : _) (ea : _) (n : _) (align : _) (h : Kept m s) :
    KeptFst m (loadBlock s c ea n align) := by
  unfold loadBlock
  repeat' first
    | with_reducible assumption
    | with_reducible first
        | apply keep_loadVA | refine KeptFst.of_eq (by assumption) ?_
    | (with_reducible apply kept_pair)

theorem keep_load (i : _) (d : _) (sz : _) (u : _) (ea : _) (tid : _) (t : _) {s : State} (h : Kept m s) :
    KeptOut m (load i d sz u ea tid t s) := by
  unfold load
  repeat' first
    | with_reducible assumption
    | with_reducible first
        | apply keep_withChecked | apply keep_done | apply keep_loadVA | refine KeptFst.of_eq (by assumption) ?_
        | apply kept_next
    | split | intro _
    | (with_reducible refine kept_mk ?_; first
        | assumption | apply keep_withChecked | apply keep_done | apply keep_loadVA
        | refine KeptFst.of_eq (by assumption) ?_)

theorem keep_storeAt {s : State} (tid : _) (l : _) (n : _) (v : _) (h : Kept m s) :
    Kept m (storeAt s tid l n v) := by
  unfold storeAt
  repeat' first
    | with_reducible assumption
    | with_reducible first
        | apply keep_writeLoc | apply keep_rekeySector | apply kept_foldl
    | (extract_lets +onlyGivenNames z; refine kept_cut z ?_ ?_; rotate_left; (clear_value z; intro _); rotate_left
       subst z)
    | (extract_lets +onlyGivenNames z; subst z)
    | split | intro _
    | (with_reducible refine kept_mk ?_; first
        | assumption | apply keep_writeLoc | apply keep_rekeySector | apply kept_foldl)

theorem keep_store (i : _) (b : _) (sz : _) (ea : _) (rel : _) (tid : _) (t : _) {s : State} (h : Kept m s) :
    KeptOut m (store i b sz ea rel tid t s) := by
  unfold store
  repeat' first
    | with_reducible assumption
    | with_reducible first
        | apply keep_storeAt | apply keep_withChecked | apply keep_done | apply keep_showStores
        | apply keep_dataCheck | refine KeptFst.of_eq (by assumption) ?_ | apply kept_next
    | (extract_lets +onlyGivenNames z; refine kept_cut z ?_ ?_; rotate_left; (clear_value z; intro _); rotate_left
       subst z)
    | (extract_lets +onlyGivenNames z; subst z)
    | split | intro _
    | (with_reducible refine kept_mk ?_; first
        | assumption | apply keep_storeAt | apply keep_withChecked | apply keep_done | apply keep_showStores
        | apply keep_dataCheck | refine KeptFst.of_eq (by assumption) ?_)

theorem keep_execLd (d : _) (x1 : _) (sz : _) (u : _) (o : _) {s : State} (h : Kept m s) :
    KeptOut m (execLd d x1 sz u o s) := by
  unfold execLd
  repeat' first
    | with_reducible assumption
    | with_reducible first
        | apply keep_load | apply keep_instr | apply kept_next
    | intro _

theorem keep_execSt (b : _) (x1 : _) (sz : _) (o : _) {s : State} (h : Kept m s) :
    KeptOut m (execSt b x1 sz o s) := by
  unfold execSt
  repeat' first
    | with_reducible assumption
    | with_reducible first
        | apply keep_store | apply keep_instr | apply kept_next
    | intro _

theorem keep_execLdAcq (d : _) (x1 : _) (sz : _) (u : _) (sc : _) (o : _) {s : State} (h : Kept m s) :
    KeptOut m (execLdAcq d x1 sz u sc o s) := by
  unfold execLdAcq
  repeat' first
    | with_reducible assumption
    | with_reducible first
        | apply keep_load | apply keep_instr | apply kept_next
    | intro _

theorem keep_execStRel (b : _) (x1 : _) (sz : _) (sc : _) (o : _) {s : State} (h : Kept m s) :
    KeptOut m (execStRel b x1 sz sc o s) := by
  unfold execStRel
  repeat' first
    | with_reducible assumption
    | with_reducible first
        | apply keep_store | apply keep_instr | apply kept_next
    | intro _

theorem keep_released {s : State} (tid : _) (o : _) (sc : _) (h : Kept m s) :
    Kept m (released s tid o sc) := by
  unfold released
  repeat' first
    | with_reducible assumption
    | with_reducible first
        | apply keep_showStores
    | split

theorem keep_atomicVA {s : State} (c : _) (ea : _) (n : _) (rel : _) (f : _) (h : Kept m s) (hrel : ∀ y0, Kept m
    y0 → Kept m (rel y0)) :
    KeptFst m (atomicVA s c ea n rel f) := by
  unfold atomicVA
  repeat' first
    | with_reducible assumption
    | with_reducible first
        | apply hrel | apply keep_writeLoc | apply keep_dataCheck | apply keep_markLeaf | apply keep_performStores
        | refine KeptFst.of_eq (by assumption) ?_
    | (extract_lets +onlyGivenNames z; refine kept_cut z ?_ ?_; rotate_left; (clear_value z; intro _); rotate_left
       subst z)
    | (extract_lets +onlyGivenNames z; subst z)
    | split | intro _ | (with_reducible apply kept_pair)
    | (with_reducible refine kept_mk ?_; first
        | assumption | apply hrel | apply keep_writeLoc | apply keep_dataCheck | apply keep_markLeaf
        | apply keep_performStores | refine KeptFst.of_eq (by assumption) ?_)

theorem keep_amo (i : _) (op : _) (sz : _) (d : _) (x4 : _) (b : _) (o : _) (sc : _) {s : State} (h : Kept m s) :
    KeptOut m (amo i op sz d x4 b o sc s) := by
  unfold amo
  repeat' first
    | with_reducible assumption
    | with_reducible first
        | apply keep_atomicVA | apply keep_released | apply keep_withChecked | apply keep_done | apply keep_instr
        | refine KeptFst.of_eq (by assumption) ?_ | apply kept_next
    | (extract_lets +onlyGivenNames z; refine kept_cut z ?_ ?_; rotate_left; (clear_value z; intro _); rotate_left
       subst z)
    | (extract_lets +onlyGivenNames z; subst z)
    | intro _

theorem keep_execAmoW (op : _) (d : _) (x2 : _) (b : _) (o : _) (sc : _) {s : State} (h : Kept m s) :
    KeptOut m (execAmoW op d x2 b o sc s) := by
  unfold execAmoW
  repeat' first
    | with_reducible assumption
    | with_reducible first
        | apply keep_amo | apply kept_next

theorem keep_execAmoD (op : _) (d : _) (x2 : _) (b : _) (o : _) (sc : _) {s : State} (h : Kept m s) :
    KeptOut m (execAmoD op d x2 b o sc s) := by
  unfold execAmoD
  repeat' first
    | with_reducible assumption
    | with_reducible first
        | apply keep_amo | apply kept_next

theorem keep_cas (i : _) (sz : _) (d : _) (x3 : _) (b : _) (o : _) (sc : _) {s : State} (h : Kept m s) :
    KeptOut m (cas i sz d x3 b o sc s) := by
  unfold cas
  repeat' first
    | with_reducible assumption
    | with_reducible first
        | apply keep_atomicVA | apply keep_released | apply keep_withChecked | apply keep_done | apply keep_instr
        | refine KeptFst.of_eq (by assumption) ?_ | apply kept_next
    | (extract_lets +onlyGivenNames z; refine kept_cut z ?_ ?_; rotate_left; (clear_value z; intro _); rotate_left
       subst z)
    | (extract_lets +onlyGivenNames z; subst z)
    | split | intro _

theorem keep_execCasW (d : _) (x1 : _) (b : _) (o : _) (sc : _) {s : State} (h : Kept m s) :
    KeptOut m (execCasW d x1 b o sc s) := by
  unfold execCasW
  repeat' first
    | with_reducible assumption
    | with_reducible first
        | apply keep_cas | apply kept_next

theorem keep_execCasD (d : _) (x1 : _) (b : _) (o : _) (sc : _) {s : State} (h : Kept m s) :
    KeptOut m (execCasD d x1 b o sc s) := by
  unfold execCasD
  repeat' first
    | with_reducible assumption
    | with_reducible first
        | apply keep_cas | apply kept_next

theorem keep_execCas16 (d : _) (x1 : _) (b : _) (o : _) (sc : _) {s : State} (h : Kept m s) :
    KeptOut m (execCas16 d x1 b o sc s) := by
  unfold execCas16
  repeat' first
    | with_reducible assumption
    | with_reducible first
        | apply keep_atomicVA | apply keep_released | apply keep_withChecked | apply keep_done | apply keep_instr
        | refine KeptFst.of_eq (by assumption) ?_ | apply kept_next
    | split | intro _

theorem keep_execFence (sc : _) {s : State} (h : Kept m s) :
    KeptOut m (execFence sc s) := by
  unfold execFence
  repeat' first
    | with_reducible assumption
    | with_reducible first
        | apply keep_done | apply keep_instr | apply keep_showStores | apply kept_next
    | intro _

theorem keep_execPrefDc (x0 : _) (i : _) {s : State} (h : Kept m s) :
    KeptOut m (execPrefDc x0 i s) := by
  unfold execPrefDc
  repeat' first
    | with_reducible assumption
    | with_reducible first
        | apply keep_done | apply keep_instr | apply kept_next
    | intro _

theorem keep_execPrefL2 (x0 : _) (i : _) {s : State} (h : Kept m s) :
    KeptOut m (execPrefL2 x0 i s) := by
  unfold execPrefL2
  repeat' first
    | with_reducible assumption
    | with_reducible first
        | apply keep_done | apply keep_instr | apply kept_next
    | intro _

/-! ## Machine/Engine.lean -/

theorem keep_joinColl {s : State} (key : _) (occ : _) (r : _) (h : Kept m s) :
    Kept m (joinColl s key occ r) := by
  unfold joinColl
  repeat' first
    | with_reducible assumption
    | (extract_lets +onlyGivenNames z; refine kept_cut z ?_ ?_; rotate_left; (clear_value z; intro _); rotate_left
       subst z)
    | (extract_lets +onlyGivenNames z; subst z)
    | split
    | (with_reducible refine kept_mk ?_; first | assumption)

theorem keep_tidyColls {s : State} (lseq : _) (h : Kept m s) :
    Kept m (tidyColls s lseq) := by
  unfold tidyColls
  repeat' first
    | with_reducible assumption
    | with_reducible first
        | apply keep_setLaunch | apply kept_foldl
    | split | intro _
    | (with_reducible refine kept_mk ?_; first | assumption | apply keep_setLaunch | apply kept_foldl)

theorem keep_doIssue {s : State} (tid : _) (t : _) (op : _) (h : Kept m s) :
    Kept m (doIssue s tid t op) := by
  unfold doIssue
  repeat' first
    | with_reducible assumption
    | with_reducible first
        | apply keep_tidyColls | apply keep_joinColl | apply keep_showStores | apply keep_post
        | apply keep_setThread | apply keep_setLaunch | apply kept_foldl | apply kept_bind | apply kept_some
        | apply kept_none
    | (extract_lets +onlyGivenNames z; refine kept_cut z ?_ ?_; rotate_left; (clear_value z; intro _); rotate_left
       subst z)
    | (extract_lets +onlyGivenNames z; subst z)
    | split | intro _
    | (with_reducible refine kept_mk ?_; first
        | assumption | apply keep_tidyColls | apply keep_joinColl | apply keep_showStores | apply keep_post
        | apply keep_setThread | apply keep_setLaunch | apply kept_foldl)

theorem keep_issue {s : State} (tid : _) (t : _) (op : _) (i : _) (h : Kept m s) :
    KeptOut m (issue s tid t op i) := by
  unfold issue
  repeat' first
    | with_reducible assumption
    | with_reducible first
        | apply keep_doIssue | apply keep_completeWait | apply keep_wait | apply kept_next
    | split

theorem keep_execCommandIssue (tid : _) {s : State} (h : Kept m s) :
    KeptOut m (execCommandIssue tid s) := by
  unfold execCommandIssue
  repeat' first
    | with_reducible assumption
    | with_reducible first
        | apply keep_doIssue | apply keep_completeWait | apply kept_next
    | split
    | (with_reducible refine kept_mk ?_; first | assumption | apply keep_doIssue | apply keep_completeWait)

theorem keep_cmdTrap {s : State} (tid : _) (t : _) (cause : _) (i : _) (h : Kept m s) :
    KeptOut m (cmdTrap s tid t cause i) := by
  unfold cmdTrap
  repeat' first
    | with_reducible assumption
    | with_reducible first
        | apply keep_trap | apply kept_next

theorem keep_command (regs : _) {s : State} (k : _) (h : Kept m s) (hk : ∀ y0 y1 y2, KeptOut m (k y0 y1 y2)) :
    KeptOut m (command regs s k) := by
  unfold command
  repeat' first
    | with_reducible assumption
    | with_reducible first
        | apply hk | apply keep_instr | apply kept_next
    | split | intro _
    | (with_reducible refine kept_mk ?_; first | assumption | apply hk | apply keep_instr)

theorem keep_execSbind (ctr : _) (port : _) (x2 : _) (u : _) {s : State} (h : Kept m s) :
    KeptOut m (execSbind ctr port x2 u s) := by
  unfold execSbind
  repeat' first
    | with_reducible assumption
    | with_reducible first
        | apply keep_command | apply keep_issue | apply keep_loadBlock | apply keep_withChecked | apply keep_wait
        | apply keep_trap | refine KeptFst.of_eq (by assumption) ?_ | apply kept_next | apply kept_bind
        | apply kept_some | apply kept_none
    | (extract_lets +onlyGivenNames z; refine kept_cut z ?_ ?_; rotate_left; (clear_value z; intro _); rotate_left
       subst z)
    | (extract_lets +onlyGivenNames z; subst z)
    | split | intro _

theorem keep_bindDivert (x0 : _) (q : _) (log2n : _) (x3 : _) (u : _) (i : _) {s : State} (tid : _) (t : _) (l :
    _) (h : Kept m s) :
    KeptOut m (bindDivert x0 q log2n x3 u i s tid t l) := by
  unfold bindDivert
  repeat' first
    | with_reducible assumption
    | with_reducible first
        | apply keep_cmdTrap | apply keep_completeWait | apply keep_handlerNodeWork | apply keep_modLaunch
        | apply keep_setThread | apply kept_next
    | (extract_lets +onlyGivenNames z; refine kept_cut z ?_ ?_; rotate_left; (clear_value z; intro _); rotate_left
       subst z)
    | (extract_lets +onlyGivenNames z; subst z)
    | split | intro _
    | (with_reducible refine kept_mk ?_; first
        | assumption | apply keep_cmdTrap | apply keep_completeWait | apply keep_handlerNodeWork
        | apply keep_modLaunch | apply keep_setThread)

theorem keep_execSbindHandle (x0 : _) (port : _) (x2 : _) (log2n : _) (u : _) {s : State} (h : Kept m s) :
    KeptOut m (execSbindHandle x0 port x2 log2n u s) := by
  unfold execSbindHandle
  repeat' first
    | with_reducible assumption
    | with_reducible first
        | apply keep_bindDivert | apply keep_command | apply keep_cmdTrap | apply keep_issue | apply keep_wait
        | apply keep_trap | apply kept_next | apply kept_bind | apply kept_some | apply kept_none
    | (extract_lets +onlyGivenNames z; refine kept_cut z ?_ ?_; rotate_left; (clear_value z; intro _); rotate_left
       subst z)
    | (extract_lets +onlyGivenNames z; subst z)
    | split | intro _
    | (with_reducible refine kept_mk ?_; first
        | assumption | apply keep_bindDivert | apply keep_command | apply keep_cmdTrap | apply keep_issue
        | apply keep_wait | apply keep_trap)

theorem keep_execCpy (ctr : _) (q : _) (d : _) (x3 : _) (n : _) (u : _) {s : State} (h : Kept m s) :
    KeptOut m (execCpy ctr q d x3 n u s) := by
  unfold execCpy
  repeat' first
    | with_reducible assumption
    | with_reducible first
        | apply keep_command | apply keep_cmdTrap | apply keep_issue | apply kept_next
    | (extract_lets +onlyGivenNames z; refine kept_cut z ?_ ?_; rotate_left; (clear_value z; intro _); rotate_left
       subst z)
    | (extract_lets +onlyGivenNames z; subst z)
    | split | intro _

theorem keep_execCpyT (ctr : _) (q : _) (d : _) (x3 : _) (u : _) {s : State} (h : Kept m s) :
    KeptOut m (execCpyT ctr q d x3 u s) := by
  unfold execCpyT
  repeat' first
    | with_reducible assumption
    | with_reducible first
        | apply keep_command | apply keep_cmdTrap | apply keep_issue | apply kept_next
    | (extract_lets +onlyGivenNames z; refine kept_cut z ?_ ?_; rotate_left; (clear_value z; intro _); rotate_left
       subst z)
    | (extract_lets +onlyGivenNames z; subst z)
    | split | intro _
    | (with_reducible refine kept_mk ?_; first
        | assumption | apply keep_command | apply keep_cmdTrap | apply keep_issue)

theorem keep_execCpym (ctr : _) (q : _) (d : _) (x3 : _) (c : _) (u : _) {s : State} (h : Kept m s) :
    KeptOut m (execCpym ctr q d x3 c u s) := by
  unfold execCpym
  repeat' first
    | with_reducible assumption
    | with_reducible first
        | apply keep_command | apply keep_cmdTrap | apply keep_issue | apply kept_next
    | (extract_lets +onlyGivenNames z; refine kept_cut z ?_ ?_; rotate_left; (clear_value z; intro _); rotate_left
       subst z)
    | (extract_lets +onlyGivenNames z; subst z)
    | split | intro _
    | (with_reducible refine kept_mk ?_; first
        | assumption | apply keep_command | apply keep_cmdTrap | apply keep_issue)

theorem keep_execQfence (mask : _) {s : State} (h : Kept m s) :
    KeptOut m (execQfence mask s) := by
  unfold execQfence
  repeat' first
    | with_reducible assumption
    | with_reducible first
        | apply keep_command | apply keep_issue | apply kept_next
    | intro _

theorem keep_execQfenceColl (mask : _) {s : State} (h : Kept m s) :
    KeptOut m (execQfenceColl mask s) := by
  unfold execQfenceColl
  repeat' first
    | with_reducible assumption
    | with_reducible first
        | apply keep_command | apply keep_issue | apply kept_next
    | intro _

theorem keep_execPostc (q : _) (x1 : _) {s : State} (h : Kept m s) :
    KeptOut m (execPostc q x1 s) := by
  unfold execPostc
  repeat' first
    | with_reducible assumption
    | with_reducible first
        | apply keep_command | apply keep_cmdTrap | apply keep_issue | apply keep_loadBlock
        | apply keep_withChecked | refine KeptFst.of_eq (by assumption) ?_ | apply kept_next
    | split | intro _
    | (with_reducible refine kept_mk ?_; first
        | assumption | apply keep_command | apply keep_cmdTrap | apply keep_issue | apply keep_loadBlock
        | apply keep_withChecked | refine KeptFst.of_eq (by assumption) ?_)

theorem keep_execTaskend {s : State} (h : Kept m s) :
    KeptOut m (execTaskend s) := by
  unfold execTaskend
  repeat' first
    | with_reducible assumption
    | with_reducible first
        | apply keep_instr | apply keep_endThread | apply kept_next
    | intro _

theorem keep_execEvpost (n : _) (x1 : _) (b : _) {s : State} (h : Kept m s) :
    KeptOut m (execEvpost n x1 b s) := by
  unfold execEvpost
  repeat' first
    | with_reducible assumption
    | with_reducible first
        | apply keep_command | apply keep_cmdTrap | apply keep_issue | apply kept_next
    | split | intro _
    | (with_reducible refine kept_mk ?_; first
        | assumption | apply keep_command | apply keep_cmdTrap | apply keep_issue)

theorem keep_execEventRecordPost (cc : Nat) {s : State} (h : Kept m s) : KeptOut m (execEventRecordPost cc s) := by
  unfold execEventRecordPost
  extract_lets x
  split
  · rename_i e t heq
    obtain ⟨y, -, hy⟩ := List.exists_of_findSome?_eq_some heq
    obtain ⟨u, hu, he⟩ := Option.map_eq_some_iff.1 hy
    cases he
    exact kept_next (keep_tidyColls _ ((keep_enterEvent _ (keep_setPlot _ _ h)).of hu))
  · exact kept_next h

theorem keep_execTaskStart (lseq : _) (q : _) {s : State} (h : Kept m s) :
    KeptOut m (execTaskStart lseq q s) := by
  unfold execTaskStart
  repeat' first
    | with_reducible assumption
    | with_reducible first
        | apply keep_setLaunch | apply keep_setPlot | apply kept_next
    | (extract_lets +onlyGivenNames z; refine kept_cut z ?_ ?_; rotate_left; (clear_value z; intro _); rotate_left
       subst z)
    | (extract_lets +onlyGivenNames z; subst z)
    | split
    | (with_reducible refine kept_mk ?_; first | assumption | apply keep_setLaunch | apply keep_setPlot)

theorem keep_readModules {s : State} (c : _) (base : _) (my : _) (mod : _) (x5 : _) (x6 : _) (h : Kept m s) :
    KeptFst m (readModules s c base my mod x5 x6) := by
  induction x6 generalizing s c base my mod x5 with
  | zero =>
    unfold readModules
    repeat' first
      | with_reducible assumption
      | with_reducible first
          | apply keep_loadVA | apply ih | refine KeptFst.of_eq (by assumption) ?_
      | split | (with_reducible apply kept_pair)
      | (with_reducible refine kept_mk ?_; first
          | assumption | apply keep_loadVA | apply ih | refine KeptFst.of_eq (by assumption) ?_)
  | succ n ih =>
    unfold readModules
    repeat' first
      | with_reducible assumption
      | with_reducible first
          | apply keep_loadVA | apply ih | refine KeptFst.of_eq (by assumption) ?_
      | split | (with_reducible apply kept_pair)
      | (with_reducible refine kept_mk ?_; first
          | assumption | apply keep_loadVA | apply ih | refine KeptFst.of_eq (by assumption) ?_)

theorem keep_execColl (op : _) (red : _) (fmt : _) (sc : _) (ctr : _) (q : _) (x6 : _) (root : _) (u : _) {s :
    State} (h : Kept m s) :
    KeptOut m (execColl op red fmt sc ctr q x6 root u s) := by
  unfold execColl
  repeat' first
    | with_reducible assumption
    | with_reducible first
        | apply keep_readModules | apply keep_command | apply keep_cmdTrap | apply keep_issue
        | apply keep_loadBlock | apply keep_withChecked | refine KeptFst.of_eq (by assumption) ?_
        | apply kept_next
    | (extract_lets +onlyGivenNames z; refine kept_cut z ?_ ?_; rotate_left; (clear_value z; intro _); rotate_left
       subst z)
    | (extract_lets +onlyGivenNames z; subst z)
    | split | intro _

/-! ## Machine/Scale.lean -/

theorem keep_scaleMiscompare {s : State} (tid : _) (t : _) (n : _) (h : Kept m s) :
    KeptOut m (scaleMiscompare s tid t n) := by
  unfold scaleMiscompare
  repeat' first
    | with_reducible assumption
    | with_reducible first
        | apply keep_addScore | apply keep_trap | apply kept_next

theorem keep_scaleOp (i : _) (regs : _) (sd : _) (ops : _) (f : _) {s : State} (h : Kept m s) :
    KeptOut m (scaleOp i regs sd ops f s) := by
  unfold scaleOp
  repeat' first
    | with_reducible assumption
    | with_reducible first
        | apply keep_scaleMiscompare | apply keep_raiseFlags | apply keep_done | apply keep_instr
        | apply keep_trap | apply keep_setPlot | apply kept_next
    | (extract_lets +onlyGivenNames z; refine kept_cut z ?_ ?_; rotate_left; (clear_value z; intro _); rotate_left
       subst z)
    | (extract_lets +onlyGivenNames z; subst z)
    | split | intro _
    | (with_reducible refine kept_mk ?_; first
        | assumption | apply keep_scaleMiscompare | apply keep_raiseFlags | apply keep_done | apply keep_instr
        | apply keep_trap | apply keep_setPlot)

theorem keep_execSmul (d : _) (x1 : _) (b : _) {s : State} (h : Kept m s) :
    KeptOut m (execSmul d x1 b s) := by
  unfold execSmul
  repeat' first
    | with_reducible assumption
    | with_reducible first
        | apply keep_scaleOp | apply kept_next
    | intro _

theorem keep_execSmax (d : _) (x1 : _) (b : _) {s : State} (h : Kept m s) :
    KeptOut m (execSmax d x1 b s) := by
  unfold execSmax
  repeat' first
    | with_reducible assumption
    | with_reducible first
        | apply keep_scaleOp | apply kept_next
    | intro _

theorem keep_execSrcp (d : _) (x1 : _) {s : State} (h : Kept m s) :
    KeptOut m (execSrcp d x1 s) := by
  unfold execSrcp
  repeat' first
    | with_reducible assumption
    | with_reducible first
        | apply keep_scaleOp | apply kept_next
    | intro _

theorem keep_execSexp2 (d : _) (x1 : _) {s : State} (h : Kept m s) :
    KeptOut m (execSexp2 d x1 s) := by
  unfold execSexp2
  repeat' first
    | with_reducible assumption
    | with_reducible first
        | apply keep_scaleOp | apply kept_next
    | intro _

theorem keep_execScopy (d : _) (x1 : _) {s : State} (h : Kept m s) :
    KeptOut m (execScopy d x1 s) := by
  unfold execScopy
  repeat' first
    | with_reducible assumption
    | with_reducible first
        | apply keep_scaleOp | apply kept_next
    | intro _

theorem keep_execScvt (d : _) (x1 : _) (bf16 : _) (rm : _) {s : State} (h : Kept m s) :
    KeptOut m (execScvt d x1 bf16 rm s) := by
  unfold execScvt
  repeat' first
    | with_reducible assumption
    | with_reducible first
        | apply keep_scaleOp | apply kept_next
    | intro _

theorem keep_execSmov (n : _) (x1 : _) {s : State} (h : Kept m s) :
    KeptOut m (execSmov n x1 s) := by
  unfold execSmov
  repeat' first
    | with_reducible assumption
    | with_reducible first
        | apply keep_scaleOp | apply kept_next
    | intro _

theorem keep_execSread (d : _) (n : _) {s : State} (h : Kept m s) :
    KeptOut m (execSread d n s) := by
  unfold execSread
  repeat' first
    | with_reducible assumption
    | with_reducible first
        | apply keep_scaleMiscompare | apply keep_done | apply keep_instr | apply kept_next
    | (extract_lets +onlyGivenNames z; refine kept_cut z ?_ ?_; rotate_left; (clear_value z; intro _); rotate_left
       subst z)
    | (extract_lets +onlyGivenNames z; subst z)
    | split | intro _
    | (with_reducible refine kept_mk ?_; first
        | assumption | apply keep_scaleMiscompare | apply keep_done | apply keep_instr)

theorem keep_execSbindS (d : _) (x1 : _) {s : State} (h : Kept m s) :
    KeptOut m (execSbindS d x1 s) := by
  unfold execSbindS
  repeat' first
    | with_reducible assumption
    | with_reducible first
        | apply keep_done | apply keep_instr | apply keep_trap | apply keep_setPlot | apply kept_next
        | apply kept_bind | apply kept_some | apply kept_none
    | (extract_lets +onlyGivenNames z; refine kept_cut z ?_ ?_; rotate_left; (clear_value z; intro _); rotate_left
       subst z)
    | (extract_lets +onlyGivenNames z; subst z)
    | split | intro _
    | (with_reducible refine kept_mk ?_; first
        | assumption | apply keep_done | apply keep_instr | apply keep_trap | apply keep_setPlot)

theorem keep_execSfree (x0 : _) {s : State} (h : Kept m s) :
    KeptOut m (execSfree x0 s) := by
  unfold execSfree
  repeat' first
    | with_reducible assumption
    | with_reducible first
        | apply keep_done | apply keep_instr | apply keep_trap | apply keep_setPlot | apply kept_next
    | (extract_lets +onlyGivenNames z; refine kept_cut z ?_ ?_; rotate_left; (clear_value z; intro _); rotate_left
       subst z)
    | (extract_lets +onlyGivenNames z; subst z)
    | split | intro _
    | (with_reducible refine kept_mk ?_; first
        | assumption | apply keep_done | apply keep_instr | apply keep_trap | apply keep_setPlot)

/-! ## Machine/Handles.lean -/

theorem keep_execCbwaitf (x0 : _) (n : _) {s : State} (h : Kept m s) :
    KeptOut m (execCbwaitf x0 n s) := by
  unfold execCbwaitf
  repeat' first
    | with_reducible assumption
    | with_reducible first
        | apply keep_cmdTrap | apply keep_wait | apply keep_done | apply keep_instr | apply kept_next
    | split | intro _
    | (with_reducible refine kept_mk ?_; first
        | assumption | apply keep_cmdTrap | apply keep_wait | apply keep_done | apply keep_instr)

theorem keep_execCbwaite (x0 : _) (n : _) {s : State} (h : Kept m s) :
    KeptOut m (execCbwaite x0 n s) := by
  unfold execCbwaite
  repeat' first
    | with_reducible assumption
    | with_reducible first
        | apply keep_cmdTrap | apply keep_wait | apply keep_done | apply keep_instr | apply kept_next
    | split | intro _
    | (with_reducible refine kept_mk ?_; first
        | assumption | apply keep_cmdTrap | apply keep_wait | apply keep_done | apply keep_instr)

theorem keep_execCbWaitComplete (tid : _) {s : State} (h : Kept m s) :
    KeptOut m (execCbWaitComplete tid s) := by
  unfold execCbWaitComplete
  repeat' first
    | with_reducible assumption
    | with_reducible first
        | apply keep_completeWait | apply kept_next
    | (extract_lets +onlyGivenNames z; refine kept_cut z ?_ ?_; rotate_left; (clear_value z; intro _); rotate_left
       subst z)
    | (extract_lets +onlyGivenNames z; subst z)
    | split
    | (with_reducible refine kept_mk ?_; first | assumption | apply keep_completeWait)

theorem keep_advOut {s : State} (tid : _) (t : _) (x3 : _) (n : _) (x : _) (eos : _) (i : _) (h : Kept m s) :
    KeptOut m (advOut s tid t x3 n x eos i) := by
  unfold advOut
  repeat' first
    | with_reducible assumption
    | with_reducible first
        | apply keep_cmdTrap | apply keep_done | apply keep_setPlot | apply kept_next | apply kept_foldl
    | (extract_lets +onlyGivenNames z; refine kept_cut z ?_ ?_; rotate_left; (clear_value z; intro _); rotate_left
       subst z)
    | (extract_lets +onlyGivenNames z; subst z)
    | split | intro _
    | (with_reducible refine kept_mk ?_; first
        | assumption | apply keep_cmdTrap | apply keep_done | apply keep_setPlot | apply kept_foldl)

theorem keep_passEntries {s : State} (lseq : _) (q : _) (k : _) (h : Kept m s) :
    Kept m (passEntries s lseq q k) := by
  unfold passEntries
  repeat' first
    | with_reducible assumption
    | with_reducible first
        | apply keep_handlerNodeWork | apply keep_modLaunch | apply keep_sawBytes | apply kept_foldl
    | (extract_lets +onlyGivenNames z; refine kept_cut z ?_ ?_; rotate_left; (clear_value z; intro _); rotate_left
       subst z)
    | (extract_lets +onlyGivenNames z; subst z)
    | split | intro _
    | (with_reducible refine kept_mk ?_; first
        | assumption | apply keep_handlerNodeWork | apply keep_modLaunch | apply keep_sawBytes | apply kept_foldl)

theorem keep_advIn {s : State} (tid : _) (t : _) (x3 : _) (n : _) (x : _) (i : _) (h : Kept m s) :
    KeptOut m (advIn s tid t x3 n x i) := by
  unfold advIn
  repeat' first
    | with_reducible assumption
    | with_reducible first
        | apply keep_passEntries | apply keep_cmdTrap | apply keep_setThread | apply kept_next
    | (extract_lets +onlyGivenNames z; refine kept_cut z ?_ ?_; rotate_left; (clear_value z; intro _); rotate_left
       subst z)
    | (extract_lets +onlyGivenNames z; subst z)
    | split
    | (with_reducible refine kept_mk ?_; first
        | assumption | apply keep_passEntries | apply keep_cmdTrap | apply keep_setThread)

theorem keep_execCbadv (x0 : _) (n : _) {s : State} (h : Kept m s) :
    KeptOut m (execCbadv x0 n s) := by
  unfold execCbadv
  repeat' first
    | with_reducible assumption
    | with_reducible first
        | apply keep_advIn | apply keep_advOut | apply keep_cmdTrap | apply keep_instr | apply kept_next
    | (extract_lets +onlyGivenNames z; refine kept_cut z ?_ ?_; rotate_left; (clear_value z; intro _); rotate_left
       subst z)
    | (extract_lets +onlyGivenNames z; subst z)
    | split | intro _
    | (with_reducible refine kept_mk ?_; first
        | assumption | apply keep_advIn | apply keep_advOut | apply keep_cmdTrap | apply keep_instr)

theorem keep_execCbadvEos (x0 : _) (n : _) {s : State} (h : Kept m s) :
    KeptOut m (execCbadvEos x0 n s) := by
  unfold execCbadvEos
  repeat' first
    | with_reducible assumption
    | with_reducible first
        | apply keep_advOut | apply keep_cmdTrap | apply keep_instr | apply kept_next
    | split | intro _
    | (with_reducible refine kept_mk ?_; first
        | assumption | apply keep_advOut | apply keep_cmdTrap | apply keep_instr)

theorem keep_ringAccess {s : State} (tid : _) (t : _) (p : _) (w : _) (k : _) (h : Kept m s) (hk : ∀ y0, Kept m y0
    → KeptOut m (k y0)) :
    KeptOut m (ringAccess s tid t p w k) := by
  unfold ringAccess
  repeat' first
    | with_reducible assumption
    | with_reducible first
        | apply hk | apply keep_wait | apply keep_touchPage | apply kept_next
    | split

theorem keep_putRing {s : State} (p : _) (w : _) (v : _) (h : Kept m s) :
    Kept m (putRing s p w v) := by
  unfold putRing
  repeat' first
    | with_reducible assumption
    | with_reducible first
        | apply keep_putScratch

theorem keep_execCbget (d : _) (x1 : _) (slot : _) (el : _) {s : State} (h : Kept m s) :
    KeptOut m (execCbget d x1 slot el s) := by
  unfold execCbget
  repeat' first
    | with_reducible assumption
    | with_reducible first
        | apply keep_ringAccess | apply keep_command | apply keep_cmdTrap | apply keep_done
        | apply keep_performStores | apply kept_next
    | (extract_lets +onlyGivenNames z; refine kept_cut z ?_ ?_; rotate_left; (clear_value z; intro _); rotate_left
       subst z)
    | (extract_lets +onlyGivenNames z; subst z)
    | split | intro _
    | (with_reducible refine kept_mk ?_; first
        | assumption | apply keep_ringAccess | apply keep_command | apply keep_cmdTrap | apply keep_done
        | apply keep_performStores)

theorem keep_execCbput (x0 : _) (slot : _) (el : _) (x3 : _) {s : State} (h : Kept m s) :
    KeptOut m (execCbput x0 slot el x3 s) := by
  unfold execCbput
  repeat' first
    | with_reducible assumption
    | with_reducible first
        | apply keep_putRing | apply keep_ringAccess | apply keep_command | apply keep_cmdTrap | apply keep_done
        | apply kept_next
    | (extract_lets +onlyGivenNames z; refine kept_cut z ?_ ?_; rotate_left; (clear_value z; intro _); rotate_left
       subst z)
    | (extract_lets +onlyGivenNames z; subst z)
    | split | intro _
    | (with_reducible refine kept_mk ?_; first
        | assumption | apply keep_putRing | apply keep_ringAccess | apply keep_command | apply keep_cmdTrap
        | apply keep_done)

end Sys2Proof.Laws
end

