-- ==== Sys2Proof/Laws/KeepGraphs.lean ====
section
/-!
SUPPORT. Every function keeps the machine sound (Laws/Keep.lean): graph commands, placement and firings.
-/
set_option Elab.async false
set_option linter.all false
namespace Sys2Proof.Laws
open Sys2Proof.Machine

variable {m : Nat}

/-! ## Machine/Fire.lean -/

theorem keep_countOut {s : State} (f : _) (side : _) (t : _) (h : Kept m s) :
    Kept m (countOut s f side t) := by
  unfold countOut
  repeat' first
    | with_reducible assumption
    | with_reducible first
        | apply keep_modPlane
    | (extract_lets +onlyGivenNames z; refine kept_cut z ?_ ?_; rotate_left; (clear_value z; intro _); rotate_left
       subst z)
    | (extract_lets +onlyGivenNames z; subst z)
    | split | intro _
    | (with_reducible refine kept_mk ?_; first | assumption | apply keep_modPlane)

theorem keep_emitOut {s : State} (l : _) (f : _) (side : _) (t : _) (h : Kept m s) :
    KeptExc m (emitOut s l f side t) := by
  unfold emitOut
  repeat' first
    | with_reducible assumption
    | with_reducible first
        | apply keep_countOut | apply keep_crossRoute | apply keep_pushReplay | apply keep_emitTok
        | apply keep_dropHolder | apply keep_addHolder | refine KeptOptFst.of_eq (by assumption) ?_
        | apply kept_ok | apply kept_error
    | (extract_lets +onlyGivenNames z; refine kept_cut z ?_ ?_; rotate_left; (clear_value z; intro _); rotate_left
       subst z)
    | (extract_lets +onlyGivenNames z; subst z)
    | split
    | (with_reducible refine kept_mk ?_; first
        | assumption | apply keep_countOut | apply keep_crossRoute | apply keep_pushReplay | apply keep_emitTok
        | apply keep_dropHolder | apply keep_addHolder | refine KeptOptFst.of_eq (by assumption) ?_)

theorem keep_emitBoth {s : State} (l : _) (f : _) (t : _) (h : Kept m s) :
    KeptExc m (emitBoth s l f t) := by
  unfold emitBoth
  repeat' first
    | with_reducible assumption
    | with_reducible first
        | apply keep_emitOut | refine KeptExc.of_eq (by assumption) ?_ | apply kept_ok | apply kept_error
    | split
    | (with_reducible refine kept_mk ?_; first
        | assumption | apply keep_emitOut | refine KeptExc.of_eq (by assumption) ?_)

theorem keep_setAcc {s : State} (pe : _) (d : _) (x3 : _) (h : Kept m s) :
    Kept m (setAcc s pe d x3) := by
  unfold setAcc
  repeat' first
    | with_reducible assumption
    | with_reducible first
        | apply keep_modPlane
    | intro _
    | (with_reducible refine kept_mk ?_; first | assumption | apply keep_modPlane)

theorem keep_retagAcc {s : State} (pe : _) (d : _) (tag : _) (h : Kept m s) :
    Kept m (retagAcc s pe d tag) := by
  unfold retagAcc
  repeat' first
    | with_reducible assumption
    | with_reducible first
        | apply keep_setAcc | apply keep_dropHolder | apply keep_addHolder
    | (extract_lets +onlyGivenNames z; refine kept_cut z ?_ ?_; rotate_left; (clear_value z; intro _); rotate_left
       subst z)
    | (extract_lets +onlyGivenNames z; subst z)
    | (with_reducible refine kept_mk ?_; first
        | assumption | apply keep_setAcc | apply keep_dropHolder | apply keep_addHolder)

theorem keep_releaseAcc {s : State} (l : _) (f : _) (d : _) (colour : _) (h : Kept m s) :
    KeptExc m (releaseAcc s l f d colour) := by
  unfold releaseAcc
  repeat' first
    | with_reducible assumption
    | with_reducible first
        | apply keep_setAcc | apply keep_emitBoth | apply keep_dropHolder
        | refine KeptExc.of_eq (by assumption) ?_ | apply kept_ok | apply kept_error
    | (extract_lets +onlyGivenNames z; refine kept_cut z ?_ ?_; rotate_left; (clear_value z; intro _); rotate_left
       subst z)
    | (extract_lets +onlyGivenNames z; subst z)
    | split
    | (with_reducible refine kept_mk ?_; first
        | assumption | apply keep_setAcc | apply keep_emitBoth | apply keep_dropHolder
        | refine KeptExc.of_eq (by assumption) ?_)

theorem keep_fireAcc {s : State} (f : _) (i : _) (fl : _) (h : Kept m s) :
    KeptExc m (fireAcc s f i fl) := by
  unfold fireAcc
  repeat' first
    | with_reducible assumption
    | with_reducible first
        | apply keep_setAcc | apply keep_addHolder | apply keep_raiseFlags | apply kept_foldl | apply kept_ok
        | apply kept_error
    | (extract_lets +onlyGivenNames z; refine kept_cut z ?_ ?_; rotate_left; (clear_value z; intro _); rotate_left
       subst z)
    | (extract_lets +onlyGivenNames z; subst z)
    | split | intro _
    | (with_reducible refine KeptFst.of ?_; first
        | apply keep_setAcc | apply keep_addHolder | apply keep_raiseFlags)
    | (with_reducible refine kept_mk ?_; first
        | assumption | apply keep_setAcc | apply keep_addHolder | apply keep_raiseFlags | apply kept_foldl)

theorem keep_atomLanes (op : _) (i : _) (fl : _) (p : _) (x4 : _) {x5 : State} (h : Kept m x5) :
    KeptFst m (atomLanes op i fl p x4 x5) := by
  induction x4 generalizing op i fl p x5 with
  | nil =>
    unfold atomLanes
    repeat' first
      | with_reducible assumption
      | with_reducible first
          | apply keep_winWrite | apply ih
      | (extract_lets +onlyGivenNames z; refine kept_cut z ?_ ?_; rotate_left; (clear_value z; intro _); rotate_left
         subst z)
      | (extract_lets +onlyGivenNames z; subst z)
      | split | (with_reducible apply kept_pair)
      | (with_reducible refine KeptFst.of ?_; first | apply keep_winWrite | apply ih)
  | cons a l ih =>
    unfold atomLanes
    repeat' first
      | with_reducible assumption
      | with_reducible first
          | apply keep_winWrite | apply ih
      | (extract_lets +onlyGivenNames z; refine kept_cut z ?_ ?_; rotate_left; (clear_value z; intro _); rotate_left
         subst z)
      | (extract_lets +onlyGivenNames z; subst z)
      | split | (with_reducible apply kept_pair)
      | (with_reducible refine KeptFst.of ?_; first | apply keep_winWrite | apply ih)

theorem keep_fireAtomn {s : State} (l : _) (f : _) (i : _) (fl : _) (h : Kept m s) :
    KeptExc m (fireAtomn s l f i fl) := by
  unfold fireAtomn
  repeat' first
    | with_reducible assumption
    | with_reducible first
        | apply keep_atomLanes | apply keep_emitOut | refine KeptFst.of_eq (by assumption) ?_
        | refine KeptExc.of_eq (by assumption) ?_ | apply kept_ok | apply kept_error | apply kept_map_exc
    | (extract_lets +onlyGivenNames z; refine kept_cut z ?_ ?_; rotate_left; (clear_value z; intro _); rotate_left
       subst z)
    | (extract_lets +onlyGivenNames z; subst z)
    | split | intro _
    | (with_reducible refine KeptFst.of ?_; first | apply keep_atomLanes | apply keep_emitOut)
    | (with_reducible refine kept_mk ?_; first
        | assumption | apply keep_atomLanes | apply keep_emitOut | refine KeptFst.of_eq (by assumption) ?_
        | refine KeptExc.of_eq (by assumption) ?_)

theorem keep_writeSlot {s : State} (p : _) (at_ : _) (els : _) (h : Kept m s) :
    Kept m (writeSlot s p at_ els) := by
  unfold writeSlot
  repeat' first
    | with_reducible assumption
    | with_reducible first
        | apply keep_winWrite | apply kept_foldl
    | split | intro _
    | (with_reducible refine kept_mk ?_; first | assumption | apply keep_winWrite | apply kept_foldl)

theorem keep_sinkFire {s : State} (l : _) (f : _) (colour : _) (tag : _) (els : _) (h : Kept m s) :
    KeptExc m (sinkFire s l f colour tag els) := by
  unfold sinkFire
  repeat' first
    | with_reducible assumption
    | with_reducible first
        | apply keep_writeSlot | apply keep_emitOut | apply keep_modLaunch | apply keep_addHolder
        | apply keep_setBoundHandle | apply keep_raiseFault | apply keep_subPend
        | refine KeptExc.of_eq (by assumption) ?_ | apply kept_ok | apply kept_error | apply kept_map_exc
    | (extract_lets +onlyGivenNames z; refine kept_cut z ?_ ?_; rotate_left; (clear_value z; intro _); rotate_left
       subst z)
    | (extract_lets +onlyGivenNames z; subst z)
    | split | intro _
    | (with_reducible refine KeptFst.of ?_; first
        | apply keep_writeSlot | apply keep_emitOut | apply keep_modLaunch | apply keep_addHolder
        | apply keep_setBoundHandle | apply keep_raiseFault | apply keep_subPend)
    | (with_reducible refine kept_mk ?_; first
        | assumption | apply keep_writeSlot | apply keep_emitOut | apply keep_modLaunch | apply keep_addHolder
        | apply keep_setBoundHandle | apply keep_raiseFault | apply keep_subPend
        | refine KeptExc.of_eq (by assumption) ?_)

theorem keep_startFlush {s : State} (pe : _) (x2 : _) (n : _) (colour : _) (tag : _) (err : _) (ctl : _) (h : Kept
    m s) :
    Kept m (startFlush s pe x2 n colour tag err ctl) := by
  unfold startFlush
  repeat' first
    | with_reducible assumption
    | with_reducible first
        | apply keep_modPlane | apply keep_addHolder
    | intro _
    | (with_reducible refine kept_mk ?_; first | assumption | apply keep_modPlane | apply keep_addHolder)

theorem keep_cturnRow {s : State} (f : _) (colour : _) (tag : _) (row : _) (h : Kept m s) :
    KeptExc m (cturnRow s f colour tag row) := by
  unfold cturnRow
  repeat' first
    | with_reducible assumption
    | with_reducible first
        | apply keep_startFlush | apply keep_modPlane | apply kept_ok | apply kept_error
    | (extract_lets +onlyGivenNames z; refine kept_cut z ?_ ?_; rotate_left; (clear_value z; intro _); rotate_left
       subst z)
    | (extract_lets +onlyGivenNames z; subst z)
    | split | intro _
    | (with_reducible refine kept_mk ?_; first | assumption | apply keep_startFlush | apply keep_modPlane)

theorem keep_flushStep {s : State} (l : _) (pe : _) (x : _) (h : Kept m s) :
    KeptOpt m (flushStep s l pe x) := by
  unfold flushStep
  repeat' first
    | with_reducible assumption
    | with_reducible first
        | apply keep_modPlane | apply keep_emitTok | apply keep_dropHolder | apply kept_some | apply kept_none
    | (extract_lets +onlyGivenNames z; refine kept_cut z ?_ ?_; rotate_left; (clear_value z; intro _); rotate_left
       subst z)
    | (extract_lets +onlyGivenNames z; subst z)
    | split | intro _
    | (with_reducible refine KeptFst.of ?_; first
        | apply keep_modPlane | apply keep_emitTok | apply keep_dropHolder)
    | (with_reducible refine kept_mk ?_; first
        | assumption | apply keep_modPlane | apply keep_emitTok | apply keep_dropHolder)

theorem keep_sourceSent {s : State} (l : _) (f : _) (h : Kept m s) :
    Kept m (sourceSent s l f) := by
  unfold sourceSent
  repeat' first
    | with_reducible assumption
    | with_reducible first
        | apply keep_modLaunch | apply keep_subPend
    | (extract_lets +onlyGivenNames z; refine kept_cut z ?_ ?_; rotate_left; (clear_value z; intro _); rotate_left
       subst z)
    | (extract_lets +onlyGivenNames z; subst z)
    | split | intro _
    | (with_reducible refine KeptFst.of ?_; first | apply keep_modLaunch | apply keep_subPend)
    | (with_reducible refine kept_mk ?_; first | assumption | apply keep_modLaunch | apply keep_subPend)

theorem keep_emitMem {s : State} (l : _) (f : _) (colour : _) (t : _) (h : Kept m s) :
    KeptExc m (emitMem s l f colour t) := by
  unfold emitMem
  repeat' first
    | with_reducible assumption
    | with_reducible first
        | apply keep_sourceSent | apply keep_emitOut | refine KeptExc.of_eq (by assumption) ?_ | apply kept_ok
        | apply kept_error | apply kept_map_exc
    | split | intro _
    | (with_reducible refine kept_mk ?_; first
        | assumption | apply keep_sourceSent | apply keep_emitOut | refine KeptExc.of_eq (by assumption) ?_)

theorem keep_eosgenEnds {s : State} (l : _) (f : _) (colour : _) (tag : _) (h : Kept m s) :
    KeptExc m (eosgenEnds s l f colour tag) := by
  unfold eosgenEnds
  repeat' first
    | with_reducible assumption
    | with_reducible first
        | apply keep_emitBoth | refine KeptExc.of_eq (by assumption) ?_ | apply kept_ok | apply kept_error
    | (extract_lets +onlyGivenNames z; refine kept_cut z ?_ ?_; rotate_left; (clear_value z; intro _); rotate_left
       subst z)
    | (extract_lets +onlyGivenNames z; subst z)
    | split | intro _
    | (with_reducible refine kept_mk ?_; first
        | assumption | apply keep_emitBoth | refine KeptExc.of_eq (by assumption) ?_)

theorem keep_idleS6 {s : State} (l : _) (f : _) (i : _) (fl : _) (h : Kept m s) :
    KeptExc m (idleS6 s l f i fl) := by
  unfold idleS6
  repeat' first
    | with_reducible assumption
    | with_reducible first
        | apply keep_emitMem | apply keep_sinkFire | apply keep_emitBoth | refine KeptExc.of_eq (by assumption) ?_
        | apply kept_ok | apply kept_error
    | (extract_lets +onlyGivenNames z; refine kept_cut z ?_ ?_; rotate_left; (clear_value z; intro _); rotate_left
       subst z)
    | (extract_lets +onlyGivenNames z; subst z)
    | split | intro _

theorem keep_fireS6 {s : State} (l : _) (f : _) (i : _) (fl : _) (h : Kept m s) :
    KeptExc m (fireS6 s l f i fl) := by
  unfold fireS6
  repeat' first
    | with_reducible assumption
    | with_reducible first
        | apply keep_idleS6 | apply keep_eosgenEnds | apply keep_emitMem | apply keep_cturnRow
        | apply keep_sinkFire | apply keep_fireAtomn | apply keep_fireAcc | apply keep_releaseAcc
        | apply keep_emitBoth | apply keep_emitOut | apply keep_raiseFlags
        | refine KeptExc.of_eq (by assumption) ?_ | apply kept_ok | apply kept_error
    | (extract_lets +onlyGivenNames z; refine kept_cut z ?_ ?_; rotate_left; (clear_value z; intro _); rotate_left
       subst z)
    | (extract_lets +onlyGivenNames z; subst z)
    | split | intro _
    | (with_reducible refine KeptFst.of ?_; first
        | apply keep_idleS6 | apply keep_eosgenEnds | apply keep_emitMem | apply keep_cturnRow
        | apply keep_sinkFire | apply keep_fireAtomn | apply keep_fireAcc | apply keep_releaseAcc
        | apply keep_emitBoth | apply keep_emitOut | apply keep_raiseFlags)
    | (with_reducible refine kept_mk ?_; first
        | assumption | apply keep_idleS6 | apply keep_eosgenEnds | apply keep_emitMem | apply keep_cturnRow
        | apply keep_sinkFire | apply keep_fireAtomn | apply keep_fireAcc | apply keep_releaseAcc
        | apply keep_emitBoth | apply keep_emitOut | apply keep_raiseFlags
        | refine KeptExc.of_eq (by assumption) ?_)

theorem keep_countIn {s : State} (f : _) (h : Kept m s) :
    Kept m (countIn s f) := by
  unfold countIn
  repeat' first
    | with_reducible assumption
    | with_reducible first
        | apply keep_modPlane
    | (extract_lets +onlyGivenNames z; refine kept_cut z ?_ ?_; rotate_left; (clear_value z; intro _); rotate_left
       subst z)
    | (extract_lets +onlyGivenNames z; subst z)
    | split | intro _
    | (with_reducible refine kept_mk ?_; first | assumption | apply keep_modPlane)

theorem keep_fireData {s : State} (l : _) (f : _) (merge : _) (h : Kept m s) :
    KeptExc m (fireData s l f merge) := by
  unfold fireData
  repeat' first
    | with_reducible assumption
    | with_reducible first
        | apply keep_countIn | apply keep_fireS6 | apply keep_retagAcc | apply keep_raiseFlags
        | refine KeptExc.of_eq (by assumption) ?_ | apply kept_ok | apply kept_error | apply kept_map_exc
    | (extract_lets +onlyGivenNames z; refine kept_cut z ?_ ?_; rotate_left; (clear_value z; intro _); rotate_left
       subst z)
    | (extract_lets +onlyGivenNames z; subst z)
    | split | intro _
    | (with_reducible refine KeptFst.of ?_; first
        | apply keep_countIn | apply keep_fireS6 | apply keep_retagAcc | apply keep_raiseFlags)
    | (with_reducible refine kept_mk ?_; first
        | assumption | apply keep_countIn | apply keep_fireS6 | apply keep_retagAcc | apply keep_raiseFlags
        | refine KeptExc.of_eq (by assumption) ?_)

theorem keep_fireNull {s : State} (l : _) (f : _) (h : Kept m s) :
    KeptExc m (fireNull s l f) := by
  unfold fireNull
  repeat' first
    | with_reducible assumption
    | with_reducible first
        | apply keep_countIn | apply keep_cturnRow | apply keep_sinkFire | apply keep_emitBoth
        | apply keep_emitOut | refine KeptExc.of_eq (by assumption) ?_ | apply kept_ok | apply kept_error
    | (extract_lets +onlyGivenNames z; refine kept_cut z ?_ ?_; rotate_left; (clear_value z; intro _); rotate_left
       subst z)
    | (extract_lets +onlyGivenNames z; subst z)
    | split | intro _
    | (with_reducible refine kept_mk ?_; first
        | assumption | apply keep_countIn | apply keep_cturnRow | apply keep_sinkFire | apply keep_emitBoth
        | apply keep_emitOut | refine KeptExc.of_eq (by assumption) ?_)

theorem keep_balanceFault {s : State} (l : _) (f : _) (c : _) (e : _) (k : _) (h : Kept m s) :
    Kept m (balanceFault s l f c e k) := by
  unfold balanceFault
  repeat' first
    | with_reducible assumption
    | with_reducible first
        | apply keep_addScore | apply keep_raiseFault
    | (extract_lets +onlyGivenNames z; refine kept_cut z ?_ ?_; rotate_left; (clear_value z; intro _); rotate_left
       subst z)
    | (extract_lets +onlyGivenNames z; subst z)
    | split

theorem keep_checkBalance {s : State} (l : Launch) (f : Firing) (h : Kept m s) : Kept m (checkBalance s l f) := by
  unfold checkBalance
  extract_lets v n c one s'
  have ho : ∀ s side e, Kept m s → Kept m (one s side e) := by
    intro s side e hs
    simp only [one]
    split
    · exact hs
    · exact keep_balanceFault _ _ _ _ _ hs
  exact keep_modPlane _ _ (ho _ _ _ (ho _ _ _ h))

theorem keep_portEos {s : State} (f : _) (h : Kept m s) :
    Kept m (portEos s f) := by
  unfold portEos
  repeat' first
    | with_reducible assumption
    | with_reducible first
        | apply keep_modLaunch | apply keep_setBoundHandle
    | (extract_lets +onlyGivenNames z; refine kept_cut z ?_ ?_; rotate_left; (clear_value z; intro _); rotate_left
       subst z)
    | (extract_lets +onlyGivenNames z; subst z)
    | split | intro _
    | (with_reducible refine kept_mk ?_; first | assumption | apply keep_modLaunch | apply keep_setBoundHandle)

theorem keep_fireCtl {s : State} (l : _) (f : _) (k : _) (h : Kept m s) :
    KeptExc m (fireCtl s l f k) := by
  unfold fireCtl
  repeat' first
    | with_reducible assumption
    | with_reducible first
        | apply keep_portEos | apply keep_checkBalance | apply keep_releaseAcc | apply keep_setAcc
        | apply keep_emitBoth | refine KeptExc.of_eq (by assumption) ?_ | apply kept_next | apply kept_fault
        | apply kept_foldl | apply kept_some | apply kept_none | apply kept_some_pair | apply kept_none_pair
        | apply kept_ok | apply kept_error | apply kept_ok_some | apply kept_ok_none | apply kept_map
        | apply kept_map_fst | apply kept_map_exc | apply kept_ok_opt | apply kept_error_opt | apply kept_getD
    | (extract_lets +onlyGivenNames z; refine kept_cut z ?_ ?_; rotate_left; (clear_value z; intro _); rotate_left
       subst z)
    | (extract_lets +onlyGivenNames z; subst z)
    | split | intro _ | (with_reducible apply kept_pair)
    | (with_reducible refine KeptFst.of ?_; first
        | apply keep_portEos | apply keep_checkBalance | apply keep_releaseAcc | apply keep_setAcc
        | apply keep_emitBoth)
    | (with_reducible refine kept_mk ?_; first
        | assumption | apply keep_portEos | apply keep_checkBalance | apply keep_releaseAcc | apply keep_setAcc
        | apply keep_emitBoth | refine KeptExc.of_eq (by assumption) ?_)

theorem keep_perform {s : State} (l : _) (f : _) (k : _) (h : Kept m s) :
    KeptExc m (perform s l f k) := by
  unfold perform
  repeat' first
    | with_reducible assumption
    | with_reducible first
        | apply keep_fireCtl | apply keep_fireNull | apply keep_fireData | refine KeptExc.of_eq (by assumption) ?_
        | apply kept_ok | apply kept_error
    | split
    | (with_reducible refine kept_mk ?_; first
        | assumption | apply keep_fireCtl | apply keep_fireNull | apply keep_fireData
        | refine KeptExc.of_eq (by assumption) ?_)

/-! ## Machine/Image.lean -/

theorem keep_readRange (c : _) (x1 : _) {x2 : State} (x3 : _) (x4 : _) (h : Kept m x2) :
    KeptFst m (readRange c x1 x2 x3 x4) := by
  induction x1 generalizing c x2 x3 x4 with
  | zero =>
    unfold readRange
    repeat' first
      | with_reducible assumption
      | with_reducible first
          | apply keep_loadVA | apply ih | refine KeptFst.of_eq (by assumption) ?_
      | (extract_lets +onlyGivenNames z; refine kept_cut z ?_ ?_; rotate_left; (clear_value z; intro _); rotate_left
         subst z)
      | (extract_lets +onlyGivenNames z; subst z)
      | split | (with_reducible apply kept_pair)
      | (with_reducible refine kept_mk ?_; first
          | assumption | apply keep_loadVA | apply ih | refine KeptFst.of_eq (by assumption) ?_)
  | succ n ih =>
    unfold readRange
    repeat' first
      | with_reducible assumption
      | with_reducible first
          | apply keep_loadVA | apply ih | refine KeptFst.of_eq (by assumption) ?_
      | (extract_lets +onlyGivenNames z; refine kept_cut z ?_ ?_; rotate_left; (clear_value z; intro _); rotate_left
         subst z)
      | (extract_lets +onlyGivenNames z; subst z)
      | split | (with_reducible apply kept_pair)
      | (with_reducible refine kept_mk ?_; first
          | assumption | apply keep_loadVA | apply ih | refine KeptFst.of_eq (by assumption) ?_)

theorem keep_martenRead {s : State} (vd : _) (va : _) (n : _) (h : Kept m s) :
    KeptFst m (martenRead s vd va n) := by
  unfold martenRead
  repeat' first
    | with_reducible assumption
    | with_reducible first
        | apply keep_readRange | refine KeptFst.of_eq (by assumption) ?_
    | (with_reducible apply kept_pair)

theorem keep_readImage {s : State} (vd : _) (va : _) (h : Kept m s) :
    KeptFst m (readImage s vd va) := by
  unfold readImage
  repeat' first
    | with_reducible assumption
    | with_reducible first
        | apply keep_martenRead | refine KeptFst.of_eq (by assumption) ?_
    | (extract_lets +onlyGivenNames z; refine kept_cut z ?_ ?_; rotate_left; (clear_value z; intro _); rotate_left
       subst z)
    | (extract_lets +onlyGivenNames z; subst z)
    | split | (with_reducible apply kept_pair)
    | (with_reducible refine kept_mk ?_; first
        | assumption | apply keep_martenRead | refine KeptFst.of_eq (by assumption) ?_)

theorem keep_readTables {s : State} (x1 : _) (h : Kept m s) :
    KeptFst m (readTables s x1) := by
  unfold readTables
  repeat' first
    | with_reducible assumption
    | with_reducible first
        | apply keep_martenRead | refine KeptFst.of_eq (by assumption) ?_
    | split | intro _ | (with_reducible apply kept_pair)
    | (with_reducible refine kept_mk ?_; first
        | assumption | apply keep_martenRead | refine KeptFst.of_eq (by assumption) ?_)

/-! ## Machine/Place.lean -/

theorem keep_arbitrate {s : State} (h : Kept m s) :
    Kept m (arbitrate s) := by
  unfold arbitrate
  repeat' first
    | with_reducible assumption
    | (extract_lets +onlyGivenNames z; refine kept_cut z ?_ ?_; rotate_left; (clear_value z; intro _); rotate_left
       subst z)
    | (extract_lets +onlyGivenNames z; subst z)
    | intro _
    | (with_reducible refine kept_mk ?_; first | assumption)

/-! ## Machine/Marten.lean -/

theorem keep_loadPlot {s : State} (lseq : _) (g : _) (v : _) (p : _) (plot : _) (h : Kept m s) :
    Kept m (loadPlot s lseq g v p plot) := by
  unfold loadPlot
  repeat' first
    | with_reducible assumption
    | with_reducible first
        | apply keep_emptyScratch | apply keep_setPe | apply keep_setPlot | apply kept_foldl
    | (extract_lets +onlyGivenNames z; refine kept_cut z ?_ ?_; rotate_left; (clear_value z; intro _); rotate_left
       subst z)
    | (extract_lets +onlyGivenNames z; subst z)
    | split | intro _
    | (with_reducible refine kept_mk ?_; first
        | assumption | apply keep_emptyScratch | apply keep_setPe | apply keep_setPlot | apply kept_foldl)

theorem keep_replyTo {s : State} (op : _) (vd : _) (tag : _) (status : _) (cause : _) (body : _) (h : Kept m s) :
    Kept m (replyTo s op vd tag status cause body) := by
  unfold replyTo
  repeat' first
    | with_reducible assumption
    | (with_reducible refine kept_mk ?_; first | assumption)

theorem keep_launchReply {s : State} (vd : _) (tag : _) (status : _) (lseq : _) (h : Kept m s) :
    Kept m (launchReply s vd tag status lseq) := by
  unfold launchReply
  repeat' first
    | with_reducible assumption
    | with_reducible first
        | apply keep_replyTo

theorem keep_failLaunch {s : State} (vd : _) (o : _) (status : _) (cause : _) (h : Kept m s) :
    Kept m (failLaunch s vd o status cause) := by
  unfold failLaunch
  repeat' first
    | with_reducible assumption
    | with_reducible first
        | apply keep_launchReply | apply keep_completeWait | apply keep_post | apply keep_setThread
    | (extract_lets +onlyGivenNames z; refine kept_cut z ?_ ?_; rotate_left; (clear_value z; intro _); rotate_left
       subst z)
    | (extract_lets +onlyGivenNames z; subst z)
    | split
    | (with_reducible refine kept_mk ?_; first
        | assumption | apply keep_launchReply | apply keep_completeWait | apply keep_post | apply keep_setThread)

theorem keep_submit {s : State} (vd : _) (gid : _) (va : _) (o : _) (partmap : _) (h : Kept m s) :
    Kept m (submit s vd gid va o partmap) := by
  unfold submit
  repeat' first
    | with_reducible assumption
    | with_reducible first
        | apply keep_failLaunch | apply keep_martenRead | refine KeptFst.of_eq (by assumption) ?_
        | apply kept_foldl
    | (extract_lets +onlyGivenNames z; refine kept_cut z ?_ ?_; rotate_left; (clear_value z; intro _); rotate_left
       subst z)
    | (extract_lets +onlyGivenNames z; subst z)
    | split | intro _
    | (with_reducible refine kept_mk ?_; first
        | assumption | apply keep_failLaunch | apply keep_martenRead | refine KeptFst.of_eq (by assumption) ?_
        | apply kept_foldl)

theorem keep_dropWaiting {s : State} (ticket : _) (h : Kept m s) :
    Kept m (dropWaiting s ticket) := by
  unfold dropWaiting
  repeat' first
    | with_reducible assumption
    | intro _
    | (with_reducible refine kept_mk ?_; first | assumption)

theorem keep_attempt {s : State} (w : _) (h : Kept m s) :
    KeptFst m (attempt s w) := by
  unfold attempt
  repeat' first
    | with_reducible assumption
    | with_reducible first
        | apply keep_readTables | apply keep_readImage | refine KeptFst.of_eq (by assumption) ?_
    | (extract_lets +onlyGivenNames z; refine kept_cut z ?_ ?_; rotate_left; (clear_value z; intro _); rotate_left
       subst z)
    | (extract_lets +onlyGivenNames z; subst z)
    | split | (with_reducible apply kept_pair)
    | (with_reducible refine kept_mk ?_; first
        | assumption | apply keep_readTables | apply keep_readImage | refine KeptFst.of_eq (by assumption) ?_)

theorem keep_admitAll {s : State} (l : _) (h : Kept m s) :
    Kept m (admitAll s l) := by
  unfold admitAll
  repeat' first
    | with_reducible assumption
    | with_reducible first
        | apply keep_setPlot | apply kept_foldl
    | (extract_lets +onlyGivenNames z; refine kept_cut z ?_ ?_; rotate_left; (clear_value z; intro _); rotate_left
       subst z)
    | (extract_lets +onlyGivenNames z; subst z)
    | split | intro _
    | (with_reducible refine kept_mk ?_; first | assumption | apply keep_setPlot | apply kept_foldl)

theorem keep_rememberPlots {s : State} (k : _) (ps : _) (h : Kept m s) :
    Kept m (rememberPlots s k ps) := by
  unfold rememberPlots
  repeat' first
    | with_reducible assumption
    | with_reducible first
        | apply kept_foldl
    | (extract_lets +onlyGivenNames z; refine kept_cut z ?_ ?_; rotate_left; (clear_value z; intro _); rotate_left
       subst z)
    | (extract_lets +onlyGivenNames z; subst z)
    | intro _
    | (with_reducible refine kept_mk ?_; first | assumption | apply kept_foldl)

theorem keep_commit {s : State} (w : _) (f : _) (h : Kept m s) :
    Kept m (commit s w f) := by
  unfold commit
  repeat' first
    | with_reducible assumption
    | with_reducible first
        | apply keep_rememberPlots | apply keep_admitAll | apply keep_launchReply | apply keep_loadPlot
        | apply keep_arbitrate | apply keep_completeWait | apply keep_setThread | apply keep_setLaunch
        | apply kept_foldl
    | (extract_lets +onlyGivenNames z; refine kept_cut z ?_ ?_; rotate_left; (clear_value z; intro _); rotate_left
       subst z)
    | (extract_lets +onlyGivenNames z; subst z)
    | split | intro _
    | (with_reducible refine kept_mk ?_; first
        | assumption | apply keep_rememberPlots | apply keep_admitAll | apply keep_launchReply
        | apply keep_loadPlot | apply keep_arbitrate | apply keep_completeWait | apply keep_setThread
        | apply keep_setLaunch | apply kept_foldl)

theorem keep_execPlacement {s : State} (h : Kept m s) :
    KeptOut m (execPlacement s) := by
  unfold execPlacement
  repeat' first
    | with_reducible assumption
    | with_reducible first
        | apply keep_commit | apply keep_attempt | apply keep_dropWaiting | apply keep_failLaunch
        | refine KeptFst.of_eq (by assumption) ?_ | apply kept_next
    | split | intro _
    | (with_reducible refine kept_mk ?_; first
        | assumption | apply keep_commit | apply keep_attempt | apply keep_dropWaiting | apply keep_failLaunch
        | refine KeptFst.of_eq (by assumption) ?_)

theorem keep_execQueueRetry {s : State} (h : Kept m s) :
    KeptOut m (execQueueRetry s) := by
  unfold execQueueRetry
  repeat' first
    | with_reducible assumption
    | with_reducible first
        | apply kept_next
    | split | intro _
    | (with_reducible refine kept_mk ?_; first | assumption)

theorem keep_endWaitingPart {s : State} (h : Kept m s) :
    Kept m (endWaitingPart s) := by
  unfold endWaitingPart
  repeat' first
    | with_reducible assumption
    | with_reducible first
        | apply keep_dropWaiting | apply keep_failLaunch
    | (extract_lets +onlyGivenNames z; refine kept_cut z ?_ ?_; rotate_left; (clear_value z; intro _); rotate_left
       subst z)
    | (extract_lets +onlyGivenNames z; subst z)
    | split | intro _
    | (with_reducible refine kept_mk ?_; first | assumption | apply keep_dropWaiting | apply keep_failLaunch)

theorem keep_execNodeLaunchStart (lseq : _) {s : State} (h : Kept m s) :
    KeptOut m (execNodeLaunchStart lseq s) := by
  unfold execNodeLaunchStart
  repeat' first
    | with_reducible assumption
    | with_reducible first
        | apply keep_endWaitingPart | apply keep_admitAll | apply keep_endLaunch | apply keep_setLaunch
        | apply kept_next
    | (extract_lets +onlyGivenNames z; refine kept_cut z ?_ ?_; rotate_left; (clear_value z; intro _); rotate_left
       subst z)
    | (extract_lets +onlyGivenNames z; subst z)
    | split
    | (with_reducible refine kept_mk ?_; first
        | assumption | apply keep_endWaitingPart | apply keep_admitAll | apply keep_endLaunch
        | apply keep_setLaunch)

theorem keep_execLaunchComplete (lseq : _) {s : State} (h : Kept m s) :
    KeptOut m (execLaunchComplete lseq s) := by
  unfold execLaunchComplete
  repeat' first
    | with_reducible assumption
    | with_reducible first
        | apply keep_endLaunch | apply kept_next
    | split
    | (with_reducible refine kept_mk ?_; first | assumption | apply keep_endLaunch)

theorem keep_graphCommand (x0 : _) (u : _) (i : _) (shadow : _) {s : State} (k : _) (h : Kept m s) (hk : ∀ y0 y1
    y2 y3 y4 y5 y6, Kept m y0 → KeptOut m (k y0 y1 y2 y3 y4 y5 y6)) :
    KeptOut m (graphCommand x0 u i shadow s k) := by
  unfold graphCommand
  repeat' first
    | with_reducible assumption
    | with_reducible first
        | apply hk | apply keep_command | apply keep_cmdTrap | apply keep_loadBlock | apply keep_withChecked
        | refine KeptFst.of_eq (by assumption) ?_ | apply kept_next
    | split | intro _
    | (with_reducible refine kept_mk ?_; first
        | assumption | apply hk | apply keep_command | apply keep_cmdTrap | apply keep_loadBlock
        | apply keep_withChecked | refine KeptFst.of_eq (by assumption) ?_)

theorem keep_execGlaunch (x0 : _) (u : _) {s : State} (h : Kept m s) :
    KeptOut m (execGlaunch x0 u s) := by
  unfold execGlaunch
  repeat' first
    | with_reducible assumption
    | with_reducible first
        | apply keep_submit | apply keep_command | apply keep_showStores | apply keep_setThread | apply kept_next
        | apply kept_foldl
    | (extract_lets +onlyGivenNames z; refine kept_cut z ?_ ?_; rotate_left; (clear_value z; intro _); rotate_left
       subst z)
    | (extract_lets +onlyGivenNames z; subst z)
    | intro _
    | (with_reducible refine kept_mk ?_; first
        | assumption | apply keep_submit | apply keep_command | apply keep_showStores | apply keep_setThread
        | apply kept_foldl)

theorem keep_execGloadsh (x0 : _) (u : _) {s : State} (h : Kept m s) :
    KeptOut m (execGloadsh x0 u s) := by
  unfold execGloadsh
  repeat' first
    | with_reducible assumption
    | with_reducible first
        | apply keep_graphCommand | apply keep_cmdTrap | apply keep_wait | apply keep_showStores | apply kept_next
    | (extract_lets +onlyGivenNames z; refine kept_cut z ?_ ?_; rotate_left; (clear_value z; intro _); rotate_left
       subst z)
    | (extract_lets +onlyGivenNames z; subst z)
    | split | intro _

theorem keep_shadowFor {s : State} (l : _) (va : _) (f : _) (h : Kept m s) :
    KeptFst m (shadowFor s l va f) := by
  unfold shadowFor
  repeat' first
    | with_reducible assumption
    | with_reducible first
        | apply keep_readImage | refine KeptFst.of_eq (by assumption) ?_
    | split | intro _ | (with_reducible apply kept_pair)
    | (with_reducible refine kept_mk ?_; first
        | assumption | apply keep_readImage | refine KeptFst.of_eq (by assumption) ?_)

theorem keep_loadShadow {s : State} (l : Launch) (v : Variant) (p : Placed) (h : Kept m s) : Kept m (loadShadow s l v p) := by
  unfold loadShadow
  extract_lets g l' s'
  refine keep_arbitrate (kept_foldl (fun s plot hs => ?_) (keep_setLaunch _ h))
  extract_lets s''
  exact kept_foldl (fun s e hs => keep_setPe _ _ hs) (keep_setPlot _ _ hs)

theorem keep_execShadowImageLoad (tid : _) {s : State} (h : Kept m s) :
    KeptOut m (execShadowImageLoad tid s) := by
  unfold execShadowImageLoad
  repeat' first
    | with_reducible assumption
    | with_reducible first
        | apply keep_loadShadow | apply keep_shadowFor | apply keep_completeWait | apply keep_trap
        | refine KeptFst.of_eq (by assumption) ?_ | apply kept_next
    | split
    | (with_reducible refine kept_mk ?_; first
        | assumption | apply keep_loadShadow | apply keep_shadowFor | apply keep_completeWait | apply keep_trap
        | refine KeptFst.of_eq (by assumption) ?_)

theorem keep_swapSources {s : State} (l : _) (tid : _) (h : Kept m s) :
    Kept m (swapSources s l tid) := by
  unfold swapSources
  repeat' first
    | with_reducible assumption
    | with_reducible first
        | apply keep_emitSwaps | apply keep_setLaunch
    | (extract_lets +onlyGivenNames z; refine kept_cut z ?_ ?_; rotate_left; (clear_value z; intro _); rotate_left
       subst z)
    | (extract_lets +onlyGivenNames z; subst z)
    | intro _
    | (with_reducible refine kept_mk ?_; first | assumption | apply keep_emitSwaps | apply keep_setLaunch)

theorem keep_holdBinds {s : State} (lseq : _) (h : Kept m s) :
    Kept m (holdBinds s lseq) := by
  unfold holdBinds
  repeat' first
    | with_reducible assumption
    | with_reducible first
        | apply kept_bind | apply kept_some | apply kept_none
    | split | intro _
    | (with_reducible refine kept_mk ?_; first | assumption)

theorem keep_freshSwap {s : State} (l : _) (h : Kept m s) :
    Kept m (freshSwap s l) := by
  unfold freshSwap
  repeat' first
    | with_reducible assumption
    | with_reducible first
        | apply keep_setLaunch
    | (extract_lets +onlyGivenNames z; refine kept_cut z ?_ ?_; rotate_left; (clear_value z; intro _); rotate_left
       subst z)
    | (extract_lets +onlyGivenNames z; subst z)
    | split | intro _
    | (with_reducible refine KeptFst.of ?_; first | apply keep_setLaunch)
    | (with_reducible refine kept_mk ?_; first | assumption | apply keep_setLaunch)

theorem keep_execGswap (a u : Reg) {s : State} (h : Kept m s) : KeptOut m (execGswap a u s) := by
  unfold execGswap
  refine keep_graphCommand _ _ _ _ _ h fun s tid t l _ _ _ hs => ?_
  split
  · exact keep_wait _ _ _ hs
  · split
    · exact keep_cmdTrap _ _ _ _ hs
    · exact keep_wait _ _ _ (keep_swapSources _ _ (keep_freshSwap _ (keep_holdBinds _ hs)))

theorem keep_execGdrain (x0 : _) (u : _) {s : State} (h : Kept m s) :
    KeptOut m (execGdrain x0 u s) := by
  unfold execGdrain
  repeat' first
    | with_reducible assumption
    | with_reducible first
        | apply keep_graphCommand | apply keep_cmdTrap | apply keep_wait | apply keep_done | apply keep_setLaunch
        | apply kept_next
    | (extract_lets +onlyGivenNames z; refine kept_cut z ?_ ?_; rotate_left; (clear_value z; intro _); rotate_left
       subst z)
    | (extract_lets +onlyGivenNames z; subst z)
    | split | intro _
    | (with_reducible refine kept_mk ?_; first
        | assumption | apply keep_graphCommand | apply keep_cmdTrap | apply keep_wait | apply keep_done
        | apply keep_setLaunch)

theorem keep_resumeLaunch {s : State} (l : _) (h : Kept m s) :
    Kept m (resumeLaunch s l) := by
  unfold resumeLaunch
  repeat' first
    | with_reducible assumption
    | with_reducible first
        | apply keep_setLaunch
    | split | intro _
    | (with_reducible refine KeptFst.of ?_; first | apply keep_setLaunch)
    | (with_reducible refine kept_mk ?_; first | assumption | apply keep_setLaunch)

theorem keep_execGresume (x0 : _) (u : _) {s : State} (h : Kept m s) :
    KeptOut m (execGresume x0 u s) := by
  unfold execGresume
  repeat' first
    | with_reducible assumption
    | with_reducible first
        | apply keep_resumeLaunch | apply keep_graphCommand | apply keep_done | apply kept_next
    | (extract_lets +onlyGivenNames z; refine kept_cut z ?_ ?_; rotate_left; (clear_value z; intro _); rotate_left
       subst z)
    | (extract_lets +onlyGivenNames z; subst z)
    | intro _

theorem keep_execGend (x0 : _) (u : _) {s : State} (h : Kept m s) :
    KeptOut m (execGend x0 u s) := by
  unfold execGend
  repeat' first
    | with_reducible assumption
    | with_reducible first
        | apply keep_graphCommand | apply keep_endLaunch | apply keep_done | apply kept_next
    | (extract_lets +onlyGivenNames z; refine kept_cut z ?_ ?_; rotate_left; (clear_value z; intro _); rotate_left
       subst z)
    | (extract_lets +onlyGivenNames z; subst z)
    | split | intro _

/-! ## Machine/Fabric.lean -/

theorem keep_takePorts {s : State} (pe : _) (ports : _) (h : Kept m s) :
    Kept m (takePorts s pe ports) := by
  unfold takePorts
  repeat' first
    | with_reducible assumption
    | with_reducible first
        | apply keep_modPlane | apply keep_dropHolder | apply kept_foldl
    | split | intro _
    | (with_reducible refine kept_mk ?_; first
        | assumption | apply keep_modPlane | apply keep_dropHolder | apply kept_foldl)

theorem keep_dropHeads {s : State} (plot : _) (hs : _) (h : Kept m s) :
    Kept m (dropHeads s plot hs) := by
  unfold dropHeads
  repeat' first
    | with_reducible assumption
    | with_reducible first
        | apply keep_dropHolder | apply kept_foldl
    | intro _

theorem keep_countRuns {s : State} (pe : _) (cs : _) (fired : _) (h : Kept m s) :
    Kept m (countRuns s pe cs fired) := by
  unfold countRuns
  repeat' first
    | with_reducible assumption
    | with_reducible first
        | apply keep_modPlane | apply kept_foldl
    | (extract_lets +onlyGivenNames z; refine kept_cut z ?_ ?_; rotate_left; (clear_value z; intro _); rotate_left
       subst z)
    | (extract_lets +onlyGivenNames z; subst z)
    | split | intro _
    | (with_reducible refine KeptFst.of ?_; first | apply keep_modPlane)
    | (with_reducible refine kept_mk ?_; first | assumption | apply keep_modPlane | apply kept_foldl)

theorem keep_divertFiring {s : State} (l : _) (pe : _) (g : _) (c : _) (k : _) (cause : _) (value : _) (h : Kept m
    s) :
    Kept m (divertFiring s l pe g c k cause value) := by
  unfold divertFiring
  repeat' first
    | with_reducible assumption
    | with_reducible first
        | apply keep_scoreCause | apply keep_divert | apply keep_pushHead | apply keep_modPlane | apply kept_foldl
    | (extract_lets +onlyGivenNames z; refine kept_cut z ?_ ?_; rotate_left; (clear_value z; intro _); rotate_left
       subst z)
    | (extract_lets +onlyGivenNames z; subst z)
    | split | intro _
    | (with_reducible refine KeptFst.of ?_; first
        | apply keep_scoreCause | apply keep_divert | apply keep_pushHead | apply keep_modPlane)
    | (with_reducible refine kept_mk ?_; first
        | assumption | apply keep_scoreCause | apply keep_divert | apply keep_pushHead | apply keep_modPlane
        | apply kept_foldl)

theorem keep_takeHeads {s : State} (pe : _) (hs : _) (h : Kept m s) :
    Kept m (takeHeads s pe hs) := by
  unfold takeHeads
  repeat' first
    | with_reducible assumption
    | with_reducible first
        | apply keep_modPlane | apply kept_foldl
    | intro _
    | (with_reducible refine KeptFst.of ?_; first | apply keep_modPlane)

theorem keep_stepCounters {s : State} (pe : _) (c : _) (redo : _) (h : Kept m s) :
    Kept m (stepCounters s pe c redo) := by
  unfold stepCounters
  repeat' first
    | with_reducible assumption
    | with_reducible first
        | apply keep_modPlane
    | split | intro _
    | (with_reducible refine KeptFst.of ?_; first | apply keep_modPlane)
    | (with_reducible refine kept_mk ?_; first | assumption | apply keep_modPlane)

theorem keep_markActive {s : State} (l : _) (plot : _) (h : Kept m s) :
    Kept m (markActive s l plot) := by
  unfold markActive
  repeat' first
    | with_reducible assumption
    | with_reducible first
        | apply keep_modLaunch
    | intro _
    | (with_reducible refine kept_mk ?_; first | assumption | apply keep_modLaunch)

theorem keep_retainFiring {s : State} (pe : _) (c : _) (k : _) (h : Kept m s) :
    Kept m (retainFiring s pe c k) := by
  unfold retainFiring
  repeat' first
    | with_reducible assumption
    | with_reducible first
        | apply keep_setPe
    | (extract_lets +onlyGivenNames z; refine kept_cut z ?_ ?_; rotate_left; (clear_value z; intro _); rotate_left
       subst z)
    | (extract_lets +onlyGivenNames z; subst z)
    | split | intro _
    | (with_reducible refine KeptFst.of ?_; first | apply keep_setPe)
    | (with_reducible refine kept_mk ?_; first | assumption | apply keep_setPe)

theorem keep_askHole {s : State} (l : _) (pe : _) (g : _) (n : _) (bad : _) (heads : _) (h : Kept m s) :
    Kept m (askHole s l pe g n bad heads) := by
  unfold askHole
  repeat' first
    | with_reducible assumption
    | with_reducible first
        | apply keep_dropHeads | apply keep_modLaunch
    | (extract_lets +onlyGivenNames z; refine kept_cut z ?_ ?_; rotate_left; (clear_value z; intro _); rotate_left
       subst z)
    | (extract_lets +onlyGivenNames z; subst z)
    | split | intro _
    | (with_reducible refine KeptFst.of ?_; first | apply keep_dropHeads | apply keep_modLaunch)
    | (with_reducible refine kept_mk ?_; first | assumption | apply keep_dropHeads | apply keep_modLaunch)

theorem keep_openHole {s : State} (l : _) (pe : _) (g : _) (c : _) (k : _) (bad : _) (heads : _) (h : Kept m s) :
    Kept m (openHole s l pe g c k bad heads) := by
  unfold openHole
  repeat' first
    | with_reducible assumption
    | with_reducible first
        | apply keep_askHole | apply keep_setPe
    | (extract_lets +onlyGivenNames z; refine kept_cut z ?_ ?_; rotate_left; (clear_value z; intro _); rotate_left
       subst z)
    | (extract_lets +onlyGivenNames z; subst z)
    | split
    | (with_reducible refine kept_mk ?_; first | assumption | apply keep_askHole | apply keep_setPe)

theorem keep_divertUnpaired {s : State} (l : _) (pe : _) (g : _) (c : _) (port : _) (h : Kept m s) :
    KeptOpt m (divertUnpaired s l pe g c port) := by
  unfold divertUnpaired
  repeat' first
    | with_reducible assumption
    | with_reducible first
        | apply keep_takeHeads | apply keep_divert | apply kept_some | apply kept_none
    | split | intro _
    | (with_reducible refine KeptFst.of ?_; first | apply keep_takeHeads | apply keep_divert)
    | (with_reducible refine kept_mk ?_; first | assumption | apply keep_takeHeads | apply keep_divert)

theorem keep_flushFor {s : State} (pe : _) (c : _) (h : Kept m s) :
    KeptOpt m (flushFor s pe c) := by
  unfold flushFor
  repeat' first
    | with_reducible assumption
    | with_reducible first
        | apply keep_startFlush | apply kept_some | apply kept_none | apply kept_map
    | (extract_lets +onlyGivenNames z; refine kept_cut z ?_ ?_; rotate_left; (clear_value z; intro _); rotate_left
       subst z)
    | (extract_lets +onlyGivenNames z; subst z)
    | split

theorem keep_settleFiring {s : State} {s2 : State} (l : _) (pe : _) (g : _) (c : _) (f : _) (k : _) (gates : _)
    (after : _) (h : Kept m s) (hs2 : Kept m s2) (hafter : ∀ y0, Kept m y0 → Kept m (after y0)) :
    KeptOpt m (settleFiring s s2 l pe g c f k gates after) := by
  unfold settleFiring
  repeat' first
    | with_reducible assumption
    | with_reducible first
        | apply hafter | apply keep_markActive | apply keep_divertFiring | apply keep_takePorts
        | apply keep_perform | refine KeptExc.of_eq (by assumption) ?_ | apply kept_some | apply kept_none
        | apply kept_map
    | (extract_lets +onlyGivenNames z; refine kept_cut z ?_ ?_; rotate_left; (clear_value z; intro _); rotate_left
       subst z)
    | (extract_lets +onlyGivenNames z; subst z)
    | split
    | (with_reducible refine KeptFst.of ?_; first
        | apply hafter | apply keep_markActive | apply keep_divertFiring | apply keep_takePorts
        | apply keep_perform)
    | (with_reducible refine kept_mk ?_; first
        | assumption | apply hafter | apply keep_markActive | apply keep_divertFiring | apply keep_takePorts
        | apply keep_perform | refine KeptExc.of_eq (by assumption) ?_)

theorem keep_fireCand {s : State} (l : _) (pe : _) (c : _) (h : Kept m s) :
    KeptOpt m (fireCand s l pe c) := by
  unfold fireCand
  repeat' first
    | with_reducible assumption
    | with_reducible first
        | apply keep_settleFiring | apply keep_flushFor | apply keep_divertUnpaired | apply keep_openHole
        | apply keep_retainFiring | apply keep_markActive | apply keep_stepCounters | apply keep_takeHeads
        | apply keep_dropHeads | apply keep_modPlane | apply keep_setPe | refine KeptOpt.of_eq (by assumption) ?_
        | apply kept_some | apply kept_none | apply kept_map | apply kept_getD
    | (extract_lets +onlyGivenNames z; refine kept_cut z ?_ ?_; rotate_left; (clear_value z; intro _); rotate_left
       subst z)
    | (extract_lets +onlyGivenNames z; subst z)
    | split | intro _
    | (with_reducible refine KeptFst.of ?_; first
        | apply keep_settleFiring | apply keep_flushFor | apply keep_divertUnpaired | apply keep_openHole
        | apply keep_retainFiring | apply keep_markActive | apply keep_stepCounters | apply keep_takeHeads
        | apply keep_dropHeads | apply keep_modPlane | apply keep_setPe)
    | (with_reducible refine kept_mk ?_; first
        | assumption | apply keep_settleFiring | apply keep_flushFor | apply keep_divertUnpaired
        | apply keep_openHole | apply keep_retainFiring | apply keep_markActive | apply keep_stepCounters
        | apply keep_takeHeads | apply keep_dropHeads | apply keep_modPlane | apply keep_setPe
        | refine KeptOpt.of_eq (by assumption) ?_)

theorem keep_firePick {s : State} (l : _) (pe : _) (x3 : _) (x4 : _) (h : Kept m s) :
    KeptOptFst m (firePick s l pe x3 x4) := by
  induction x3 generalizing s l pe x4 with
  | zero =>
    unfold firePick
    repeat' first
      | with_reducible assumption
      | with_reducible first
          | apply keep_fireCand | apply ih | refine KeptOpt.of_eq (by assumption) ?_ | apply kept_some_pair
          | apply kept_none_pair | apply kept_map_fst
      | split | intro _
      | (with_reducible refine kept_mk ?_; first
          | assumption | apply keep_fireCand | apply ih | refine KeptOpt.of_eq (by assumption) ?_)
  | succ n ih =>
    unfold firePick
    repeat' first
      | with_reducible assumption
      | with_reducible first
          | apply keep_fireCand | apply ih | refine KeptOpt.of_eq (by assumption) ?_ | apply kept_some_pair
          | apply kept_none_pair | apply kept_map_fst
      | split | intro _
      | (with_reducible refine kept_mk ?_; first
          | assumption | apply keep_fireCand | apply ih | refine KeptOpt.of_eq (by assumption) ?_)

theorem keep_fireHeld {s : State} (l : _) (pe : _) (i : _) (c : _) (w : _) (h : Kept m s) :
    KeptOpt m (fireHeld s l pe i c w) := by
  unfold fireHeld
  repeat' first
    | with_reducible assumption
    | with_reducible first
        | apply keep_settleFiring | apply keep_flushFor | apply keep_askHole | apply keep_markActive
        | apply keep_takeHeads | apply keep_dropHeads | apply keep_setPe | refine KeptOpt.of_eq (by assumption) ?_
        | apply kept_some | apply kept_none
    | (extract_lets +onlyGivenNames z; refine kept_cut z ?_ ?_; rotate_left; (clear_value z; intro _); rotate_left
       subst z)
    | (extract_lets +onlyGivenNames z; subst z)
    | split | intro _
    | (with_reducible refine KeptFst.of ?_; first
        | apply keep_settleFiring | apply keep_flushFor | apply keep_askHole | apply keep_markActive
        | apply keep_takeHeads | apply keep_dropHeads | apply keep_setPe)
    | (with_reducible refine kept_mk ?_; first
        | assumption | apply keep_settleFiring | apply keep_flushFor | apply keep_askHole | apply keep_markActive
        | apply keep_takeHeads | apply keep_dropHeads | apply keep_setPe | refine KeptOpt.of_eq (by assumption) ?_)

theorem keep_tidyPorts {s : State} (l : _) (pe : _) (h : Kept m s) :
    Kept m (tidyPorts s l pe) := by
  unfold tidyPorts
  repeat' first
    | with_reducible assumption
    | with_reducible first
        | apply keep_modPlane | apply kept_foldl
    | (extract_lets +onlyGivenNames z; refine kept_cut z ?_ ?_; rotate_left; (clear_value z; intro _); rotate_left
       subst z)
    | (extract_lets +onlyGivenNames z; subst z)
    | split | intro _
    | (with_reducible refine KeptFst.of ?_; first | apply keep_modPlane)

theorem keep_heldCycle {s : State} (pe : _) (cs : _) (h : Kept m s) :
    Kept m (heldCycle s pe cs) := by
  unfold heldCycle
  repeat' first
    | with_reducible assumption
    | with_reducible first
        | apply keep_countRuns

theorem keep_flushCycle {s : State} (l : Launch) (pe : Nat) (x : Flush) (h : Kept m s) : Kept m (flushCycle s l pe x) := by
  unfold flushCycle
  extract_lets cs ends
  have he : ∀ s, Kept m s → Kept m (ends s) := fun s hs => keep_modPlane _ _ hs
  split
  · exact keep_heldCycle _ _ (kept_getD (kept_map fun t e => keep_markActive _ _ ((keep_flushStep l pe x h).of e)) h)
  · split
    · rename_i e
      exact keep_heldCycle _ _ (he _ ((kept_bind fun w _ => keep_fireHeld l pe w.1 w.2.1 w.2.2 h).of e))
    · split
      · rename_i e
        exact keep_countRuns _ _ _ (he _ ((keep_firePick l pe _ _ h).of e))
      · exact keep_heldCycle _ _ h

theorem keep_firingCycle {s : State} (l : _) (pe : _) (h : Kept m s) :
    Kept m (firingCycle s l pe) := by
  unfold firingCycle
  repeat' first
    | with_reducible assumption
    | with_reducible first
        | apply keep_flushCycle | apply keep_heldCycle | apply keep_fireHeld | apply keep_firePick
        | apply keep_countRuns | refine KeptOpt.of_eq (by assumption) ?_
        | refine KeptOptFst.of_eq (by assumption) ?_ | apply kept_bind | apply kept_some | apply kept_none
    | (extract_lets +onlyGivenNames z; refine kept_cut z ?_ ?_; rotate_left; (clear_value z; intro _); rotate_left
       subst z)
    | (extract_lets +onlyGivenNames z; subst z)
    | split | intro _
    | (with_reducible refine KeptFst.of ?_; first
        | apply keep_flushCycle | apply keep_heldCycle | apply keep_fireHeld | apply keep_firePick
        | apply keep_countRuns)
    | (with_reducible refine kept_mk ?_; first
        | assumption | apply keep_flushCycle | apply keep_heldCycle | apply keep_fireHeld | apply keep_firePick
        | apply keep_countRuns | refine KeptOpt.of_eq (by assumption) ?_
        | refine KeptOptFst.of_eq (by assumption) ?_)

theorem keep_peCycle {s : State} (pe : _) (h : Kept m s) :
    Kept m (peCycle s pe) := by
  unfold peCycle
  repeat' first
    | with_reducible assumption
    | with_reducible first
        | apply keep_firingCycle | apply keep_tidyPorts | apply keep_handlerNodeWork
    | (extract_lets +onlyGivenNames z; refine kept_cut z ?_ ?_; rotate_left; (clear_value z; intro _); rotate_left
       subst z)
    | (extract_lets +onlyGivenNames z; subst z)
    | split
    | (with_reducible refine kept_mk ?_; first
        | assumption | apply keep_firingCycle | apply keep_tidyPorts | apply keep_handlerNodeWork)

theorem keep_execHandlerFiring (pe : _) {s : State} (h : Kept m s) :
    KeptOut m (execHandlerFiring pe s) := by
  unfold execHandlerFiring
  repeat' first
    | with_reducible assumption
    | with_reducible first
        | apply keep_peCycle | apply kept_next

theorem keep_execHandlerPromotion (pe : _) (x1 : _) {s : State} (h : Kept m s) :
    KeptOut m (execHandlerPromotion pe x1 s) := by
  unfold execHandlerPromotion
  repeat' first
    | with_reducible assumption
    | with_reducible first
        | apply keep_peCycle | apply kept_next
    | split
    | (with_reducible refine kept_mk ?_; first | assumption | apply keep_peCycle)

theorem keep_swapMatrix {s : State} (plot : _) (h : Kept m s) :
    Kept m (swapMatrix s plot) := by
  unfold swapMatrix
  repeat' first
    | with_reducible assumption
    | with_reducible first
        | apply keep_setPlot
    | (extract_lets +onlyGivenNames z; refine kept_cut z ?_ ?_; rotate_left; (clear_value z; intro _); rotate_left
       subst z)
    | (extract_lets +onlyGivenNames z; subst z)
    | (with_reducible refine kept_mk ?_; first | assumption | apply keep_setPlot)

theorem keep_wakeSwap {s : State} (lseq : _) (by_ : _) (h : Kept m s) :
    Kept m (wakeSwap s lseq by_) := by
  unfold wakeSwap
  repeat' first
    | with_reducible assumption
    | with_reducible first
        | apply keep_retryWait | apply keep_completeWait | apply kept_foldl
    | split | intro _
    | (with_reducible refine KeptFst.of ?_; first | apply keep_retryWait | apply keep_completeWait)
    | (with_reducible refine kept_mk ?_; first
        | assumption | apply keep_retryWait | apply keep_completeWait | apply kept_foldl)

theorem keep_finishSwap {s : State} (l : _) (h : Kept m s) :
    Kept m (finishSwap s l) := by
  unfold finishSwap
  repeat' first
    | with_reducible assumption
    | with_reducible first
        | apply keep_wakeSwap | apply keep_setLaunch | apply keep_setPlot | apply kept_foldl
    | (extract_lets +onlyGivenNames z; refine kept_cut z ?_ ?_; rotate_left; (clear_value z; intro _); rotate_left
       subst z)
    | (extract_lets +onlyGivenNames z; subst z)
    | split | intro _
    | (with_reducible refine kept_mk ?_; first
        | assumption | apply keep_wakeSwap | apply keep_setLaunch | apply keep_setPlot | apply kept_foldl)

theorem keep_endSwap {s : State} (lseq : _) (h : Kept m s) :
    Kept m (endSwap s lseq) := by
  unfold endSwap
  repeat' first
    | with_reducible assumption
    | with_reducible first
        | apply keep_finishSwap
    | split
    | (with_reducible refine kept_mk ?_; first | assumption | apply keep_finishSwap)

theorem keep_emitDue {s : State} (l : _) (pe : _) (h : Kept m s) :
    Kept m (emitDue s l pe) := by
  unfold emitDue
  repeat' first
    | with_reducible assumption
    | with_reducible first
        | apply keep_modLaunch | apply keep_emitSwaps
    | (extract_lets +onlyGivenNames z; refine kept_cut z ?_ ?_; rotate_left; (clear_value z; intro _); rotate_left
       subst z)
    | (extract_lets +onlyGivenNames z; subst z)
    | intro _
    | (with_reducible refine kept_mk ?_; first | assumption | apply keep_modLaunch | apply keep_emitSwaps)

theorem keep_execPlaneSwap (pe : _) {s : State} (h : Kept m s) :
    KeptOut m (execPlaneSwap pe s) := by
  unfold execPlaneSwap
  repeat' first
    | with_reducible assumption
    | with_reducible first
        | apply keep_emitDue | apply keep_endSwap | apply keep_swapMatrix | apply keep_modPlane
        | apply keep_emitSwaps | apply keep_setPe | apply kept_next
    | (extract_lets +onlyGivenNames z; refine kept_cut z ?_ ?_; rotate_left; (clear_value z; intro _); rotate_left
       subst z)
    | (extract_lets +onlyGivenNames z; subst z)
    | split | intro _
    | (with_reducible refine KeptFst.of ?_; first
        | apply keep_emitDue | apply keep_endSwap | apply keep_swapMatrix | apply keep_modPlane
        | apply keep_emitSwaps | apply keep_setPe)
    | (with_reducible refine kept_mk ?_; first
        | assumption | apply keep_emitDue | apply keep_endSwap | apply keep_swapMatrix | apply keep_modPlane
        | apply keep_emitSwaps | apply keep_setPe)

theorem keep_execMatrixPlotSwap (plot : _) {s : State} (h : Kept m s) :
    KeptOut m (execMatrixPlotSwap plot s) := by
  unfold execMatrixPlotSwap
  repeat' first
    | with_reducible assumption
    | with_reducible first
        | apply keep_endSwap | apply keep_swapMatrix | apply keep_modPlane | apply keep_emitSwaps
        | apply keep_setPe | apply kept_next | apply kept_foldl
    | (extract_lets +onlyGivenNames z; refine kept_cut z ?_ ?_; rotate_left; (clear_value z; intro _); rotate_left
       subst z)
    | (extract_lets +onlyGivenNames z; subst z)
    | split | intro _
    | (with_reducible refine kept_mk ?_; first
        | assumption | apply keep_endSwap | apply keep_swapMatrix | apply keep_modPlane | apply keep_emitSwaps
        | apply keep_setPe | apply kept_foldl)

end Sys2Proof.Laws
end

