-- ==== Sys2Proof/Laws/KeepStreams.lean ====
section
/-!
SUPPORT. Every function keeps the machine sound (Laws/Keep.lean): streams, the matrix array, replay, copies and collectives.
-/
set_option Elab.async false
set_option linter.all false
namespace Sys2Proof.Laws
open Sys2Proof.Machine

variable {m : Nat}

/-! ## Machine/Stream.lean -/

theorem keep_portFault {s : State} (l : _) (n : _) (va : _) (cause : _) (value : _) (seq : _) (acc : _) (h : Kept
    m s) :
    Kept m (portFault s l n va cause value seq acc) := by
  unfold portFault
  repeat' first
    | with_reducible assumption
    | with_reducible first
        | apply keep_modLaunch | apply keep_raiseFault
    | (extract_lets +onlyGivenNames z; refine kept_cut z ?_ ?_; rotate_left; (clear_value z; intro _); rotate_left
       subst z)
    | (extract_lets +onlyGivenNames z; subst z)
    | split | intro _
    | (with_reducible refine kept_mk ?_; first | assumption | apply keep_modLaunch | apply keep_raiseFault)

theorem keep_agRead {s : State} (c : _) (va : _) (n : _) (h : Kept m s) :
    KeptFst m (agRead s c va n) := by
  unfold agRead
  repeat' first
    | with_reducible assumption
    | with_reducible first
        | apply keep_observe | apply keep_readEffect | apply keep_dataCheck
        | refine KeptFst.of_eq (by assumption) ?_
    | (extract_lets +onlyGivenNames z; refine kept_cut z ?_ ?_; rotate_left; (clear_value z; intro _); rotate_left
       subst z)
    | (extract_lets +onlyGivenNames z; subst z)
    | split | (with_reducible apply kept_pair)
    | (with_reducible refine KeptFst.of ?_; first
        | apply keep_observe | apply keep_readEffect | apply keep_dataCheck)
    | (with_reducible refine kept_mk ?_; first
        | assumption | apply keep_observe | apply keep_readEffect | apply keep_dataCheck
        | refine KeptFst.of_eq (by assumption) ?_)

theorem keep_blockTag {s : State} (l : _) (n : _) (r : _) (keys : _) (pos : _) (h : Kept m s) :
    KeptFst m (blockTag s l n r keys pos) := by
  unfold blockTag
  repeat' first
    | with_reducible assumption
    | with_reducible first
        | apply keep_modLaunch | apply keep_loadVA | apply keep_setPlot | refine KeptFst.of_eq (by assumption) ?_
        | apply kept_bind | apply kept_some | apply kept_none
    | (extract_lets +onlyGivenNames z; refine kept_cut z ?_ ?_; rotate_left; (clear_value z; intro _); rotate_left
       subst z)
    | (extract_lets +onlyGivenNames z; subst z)
    | split | intro _ | (with_reducible apply kept_pair)
    | (with_reducible refine KeptFst.of ?_; first | apply keep_modLaunch | apply keep_loadVA | apply keep_setPlot)
    | (with_reducible refine kept_mk ?_; first
        | assumption | apply keep_modLaunch | apply keep_loadVA | apply keep_setPlot
        | refine KeptFst.of_eq (by assumption) ?_)

theorem keep_releaseBlock {s : State} (l : _) (n : _) (r : _) (pos : _) (h : Kept m s) :
    Kept m (releaseBlock s l n r pos) := by
  unfold releaseBlock
  repeat' first
    | with_reducible assumption
    | with_reducible first
        | apply keep_modLaunch | apply keep_dropHolder
    | (extract_lets +onlyGivenNames z; refine kept_cut z ?_ ?_; rotate_left; (clear_value z; intro _); rotate_left
       subst z)
    | (extract_lets +onlyGivenNames z; subst z)
    | split | intro _
    | (with_reducible refine KeptFst.of ?_; first | apply keep_modLaunch | apply keep_dropHolder)
    | (with_reducible refine kept_mk ?_; first | assumption | apply keep_modLaunch | apply keep_dropHolder)

theorem keep_putPort0 {s : State} (l : _) (n : _) (t : _) (h : Kept m s) :
    Kept m (putPort0 s l n t) := by
  unfold putPort0
  repeat' first
    | with_reducible assumption
    | with_reducible first
        | apply keep_markActive | apply keep_modPlane
    | intro _

theorem keep_placeNext {s : State} (l : _) (n : _) (pack : _) (b : _) (pl : _) (h : Kept m s) :
    Kept m (placeNext s l n pack b pl) := by
  unfold placeNext
  repeat' first
    | with_reducible assumption
    | with_reducible first
        | apply keep_putPort0 | apply keep_setLaunch
    | (extract_lets +onlyGivenNames z; refine kept_cut z ?_ ?_; rotate_left; (clear_value z; intro _); rotate_left
       subst z)
    | (extract_lets +onlyGivenNames z; subst z)
    | split
    | (with_reducible refine kept_mk ?_; first | assumption | apply keep_putPort0 | apply keep_setLaunch)

theorem keep_genElem {s : State} (l : _) (n : _) (pack : _) (r : _) (keys : _) (va : _) (odd : _) (pos : _) (stag
    : _) (full : _) (h : Kept m s) :
    KeptOpt m (genElem s l n pack r keys va odd pos stag full) := by
  unfold genElem
  repeat' first
    | with_reducible assumption
    | with_reducible first
        | apply keep_agRead | apply keep_portFault | apply keep_modLaunch
        | refine KeptFst.of_eq (by assumption) ?_ | apply kept_some | apply kept_none
    | (extract_lets +onlyGivenNames z; refine kept_cut z ?_ ?_; rotate_left; (clear_value z; intro _); rotate_left
       subst z)
    | (extract_lets +onlyGivenNames z; subst z)
    | split | intro _
    | (with_reducible refine kept_mk ?_; first
        | assumption | apply keep_agRead | apply keep_portFault | apply keep_modLaunch
        | refine KeptFst.of_eq (by assumption) ?_)

theorem keep_stallPort {s : State} (l : _) (n : _) (va : _) (c : _) (v : _) (h : Kept m s) :
    Kept m (stallPort s l n va c v) := by
  unfold stallPort
  repeat' first
    | with_reducible assumption
    | with_reducible first
        | apply keep_portFault | apply keep_modLaunch
    | (extract_lets +onlyGivenNames z; refine kept_cut z ?_ ?_; rotate_left; (clear_value z; intro _); rotate_left
       subst z)
    | (extract_lets +onlyGivenNames z; subst z)
    | intro _
    | (with_reducible refine kept_mk ?_; first | assumption | apply keep_portFault | apply keep_modLaunch)

theorem keep_admitTok {s : State} (l : _) (n : _) (h : Kept m s) :
    Kept m (admitTok s l n) := by
  unfold admitTok
  repeat' first
    | with_reducible assumption
    | with_reducible first
        | apply keep_takePorts

theorem keep_followLink {s : State} (l : _) (n : _) (r : _) (keys : _) (x5 : _) (h : Kept m s) :
    Kept m (followLink s l n r keys x5) := by
  unfold followLink
  repeat' first
    | with_reducible assumption
    | with_reducible first
        | apply keep_stallPort | apply keep_agRead | apply keep_modLaunch
        | refine KeptFst.of_eq (by assumption) ?_
    | (extract_lets +onlyGivenNames z; refine kept_cut z ?_ ?_; rotate_left; (clear_value z; intro _); rotate_left
       subst z)
    | (extract_lets +onlyGivenNames z; subst z)
    | split | intro _
    | (with_reducible refine kept_mk ?_; first
        | assumption | apply keep_stallPort | apply keep_agRead | apply keep_modLaunch
        | refine KeptFst.of_eq (by assumption) ?_)

theorem keep_chaseStep {s : State} (l : _) (n : _) (pack : _) (ln : _) (r : _) (keys : _) (h : Kept m s) :
    Kept m (chaseStep s l n pack ln r keys) := by
  unfold chaseStep
  repeat' first
    | with_reducible assumption
    | with_reducible first
        | apply keep_followLink | apply keep_admitTok | apply keep_genElem | apply keep_agRead
        | apply keep_modLaunch | refine KeptFst.of_eq (by assumption) ?_ | refine KeptOpt.of_eq (by assumption) ?_
        | apply kept_getD
    | (extract_lets +onlyGivenNames z; refine kept_cut z ?_ ?_; rotate_left; (clear_value z; intro _); rotate_left
       subst z)
    | (extract_lets +onlyGivenNames z; subst z)
    | split | intro _
    | (with_reducible refine kept_mk ?_; first
        | assumption | apply keep_followLink | apply keep_admitTok | apply keep_genElem | apply keep_agRead
        | apply keep_modLaunch | refine KeptFst.of_eq (by assumption) ?_ | refine KeptOpt.of_eq (by assumption) ?_)

theorem keep_recordStep {s : State} (l : _) (n : _) (pack : _) (ln : _) (r : _) (keys : _) (h : Kept m s) :
    Kept m (recordStep s l n pack ln r keys) := by
  unfold recordStep
  repeat' first
    | with_reducible assumption
    | with_reducible first
        | apply keep_admitTok | apply keep_stallPort | apply keep_genElem | apply keep_releaseBlock
        | apply keep_blockTag | apply keep_modLaunch | apply keep_addHolder
        | refine KeptFst.of_eq (by assumption) ?_ | refine KeptOpt.of_eq (by assumption) ?_ | apply kept_getD
    | (extract_lets +onlyGivenNames z; refine kept_cut z ?_ ?_; rotate_left; (clear_value z; intro _); rotate_left
       subst z)
    | (extract_lets +onlyGivenNames z; subst z)
    | split | intro _
    | (with_reducible refine KeptFst.of ?_; first
        | apply keep_admitTok | apply keep_stallPort | apply keep_genElem | apply keep_releaseBlock
        | apply keep_blockTag | apply keep_modLaunch | apply keep_addHolder)
    | (with_reducible refine kept_mk ?_; first
        | assumption | apply keep_admitTok | apply keep_stallPort | apply keep_genElem | apply keep_releaseBlock
        | apply keep_blockTag | apply keep_modLaunch | apply keep_addHolder
        | refine KeptFst.of_eq (by assumption) ?_ | refine KeptOpt.of_eq (by assumption) ?_)

theorem keep_sourceStep {s : State} (l : _) (n : _) (b : _) (r : _) (h : Kept m s) :
    Kept m (sourceStep s l n b r) := by
  unfold sourceStep
  repeat' first
    | with_reducible assumption
    | with_reducible first
        | apply keep_recordStep | apply keep_chaseStep | apply keep_placeNext | apply keep_setLaunch
        | apply kept_bind | apply kept_some | apply kept_none
    | (extract_lets +onlyGivenNames z; refine kept_cut z ?_ ?_; rotate_left; (clear_value z; intro _); rotate_left
       subst z)
    | (extract_lets +onlyGivenNames z; subst z)
    | split | intro _
    | (with_reducible refine kept_mk ?_; first
        | assumption | apply keep_recordStep | apply keep_chaseStep | apply keep_placeNext | apply keep_setLaunch)

theorem keep_handleStep {s : State} (l : _) (n : _) (tid : _) (x4 : _) (plot : _) (slot : _) (user : _) (h : Kept
    m s) :
    Kept m (handleStep s l n tid x4 plot slot user) := by
  unfold handleStep
  repeat' first
    | with_reducible assumption
    | with_reducible first
        | apply keep_admitTok | apply keep_placeNext | apply keep_putPort0 | apply keep_modLaunch
        | apply keep_setBoundHandle | apply keep_touchPage | apply keep_sawBytes
    | (extract_lets +onlyGivenNames z; refine kept_cut z ?_ ?_; rotate_left; (clear_value z; intro _); rotate_left
       subst z)
    | (extract_lets +onlyGivenNames z; subst z)
    | split | intro _
    | (with_reducible refine kept_mk ?_; first
        | assumption | apply keep_admitTok | apply keep_placeNext | apply keep_putPort0 | apply keep_modLaunch
        | apply keep_setBoundHandle | apply keep_touchPage | apply keep_sawBytes)

theorem keep_storeElem {s : State} (l : _) (r : _) (keys : _) (va : _) (odd : _) (bits : _) (h : Kept m s) :
    KeptFst m (storeElem s l r keys va odd bits) := by
  unfold storeElem
  repeat' first
    | with_reducible assumption
    | with_reducible first
        | apply keep_writeLoc | apply keep_dataCheck | refine KeptFst.of_eq (by assumption) ?_
    | (extract_lets +onlyGivenNames z; refine kept_cut z ?_ ?_; rotate_left; (clear_value z; intro _); rotate_left
       subst z)
    | (extract_lets +onlyGivenNames z; subst z)
    | split | (with_reducible apply kept_pair)
    | (with_reducible refine kept_mk ?_; first
        | assumption | apply keep_writeLoc | apply keep_dataCheck | refine KeptFst.of_eq (by assumption) ?_)

theorem keep_sinkDone {s : State} (l : _) (n : _) (tid : _) (ctr : _) (size : _) (t : _) (es : _) (h : Kept m s) :
    Kept m (sinkDone s l n tid ctr size t es) := by
  unfold sinkDone
  repeat' first
    | with_reducible assumption
    | with_reducible first
        | apply keep_markActive | apply keep_modPlane | apply keep_modLaunch | apply keep_emitTok
        | apply keep_dropHolder | apply keep_subPend
    | (extract_lets +onlyGivenNames z; refine kept_cut z ?_ ?_; rotate_left; (clear_value z; intro _); rotate_left
       subst z)
    | (extract_lets +onlyGivenNames z; subst z)
    | split | intro _
    | (with_reducible refine kept_mk ?_; first
        | assumption | apply keep_markActive | apply keep_modPlane | apply keep_modLaunch | apply keep_emitTok
        | apply keep_dropHolder | apply keep_subPend)

theorem keep_storeLane {s : State} (l : _) (n : _) (r : _) (tid : _) (ctr : _) (keys : _) (t : _) (at_ : _) (i :
    _) (e : _) (h : Kept m s) :
    KeptFst m (storeLane s l n r tid ctr keys t at_ i e) := by
  unfold storeLane
  repeat' first
    | with_reducible assumption
    | with_reducible first
        | apply keep_storeElem | apply keep_modLaunch | apply keep_raiseFlags | apply keep_subPend
        | refine KeptFst.of_eq (by assumption) ?_
    | (extract_lets +onlyGivenNames z; refine kept_cut z ?_ ?_; rotate_left; (clear_value z; intro _); rotate_left
       subst z)
    | (extract_lets +onlyGivenNames z; subst z)
    | split | intro _ | (with_reducible apply kept_pair)
    | (with_reducible refine KeptFst.of ?_; first
        | apply keep_storeElem | apply keep_modLaunch | apply keep_raiseFlags | apply keep_subPend)
    | (with_reducible refine kept_mk ?_; first
        | assumption | apply keep_storeElem | apply keep_modLaunch | apply keep_raiseFlags | apply keep_subPend
        | refine KeptFst.of_eq (by assumption) ?_)

theorem keep_holdLane {s : State} (l : _) (n : _) (t : _) (k : _) (i : _) (at_ : _) (c : _) (v : _) (h : Kept m s)
    :
    Kept m (holdLane s l n t k i at_ c v) := by
  unfold holdLane
  repeat' first
    | with_reducible assumption
    | with_reducible first
        | apply keep_portFault | apply keep_modLaunch
    | (extract_lets +onlyGivenNames z; refine kept_cut z ?_ ?_; rotate_left; (clear_value z; intro _); rotate_left
       subst z)
    | (extract_lets +onlyGivenNames z; subst z)
    | intro _
    | (with_reducible refine KeptFst.of ?_; first | apply keep_portFault | apply keep_modLaunch)
    | (with_reducible refine kept_mk ?_; first | assumption | apply keep_portFault | apply keep_modLaunch)

theorem keep_holdWaiting {s : State} (l : _) (n : _) (r : _) (tid : _) (ctr : _) (keys : _) (x : _) (h : Kept m s)
    :
    KeptOpt m (holdWaiting s l n r tid ctr keys x) := by
  unfold holdWaiting
  repeat' first
    | with_reducible assumption
    | with_reducible first
        | apply keep_holdLane | apply keep_storeLane | refine KeptFst.of_eq (by assumption) ?_ | apply kept_some
        | apply kept_none
    | (extract_lets +onlyGivenNames z; refine kept_cut z ?_ ?_; rotate_left; (clear_value z; intro _); rotate_left
       subst z)
    | (extract_lets +onlyGivenNames z; subst z)
    | split
    | (with_reducible refine KeptFst.of ?_; first | apply keep_holdLane | apply keep_storeLane)
    | (with_reducible refine kept_mk ?_; first
        | assumption | apply keep_holdLane | apply keep_storeLane | refine KeptFst.of_eq (by assumption) ?_)

theorem keep_holdLater {s : State} (l : Launch) (n : Nat) (r : SRec) (tid ctr : Nat) (keys : Word)
    (xs : List (Nat × Nat × Elem)) (h : Kept m s) : Kept m (holdLater s l n r tid ctr keys xs) :=
  kept_getD (kept_findSome fun x => keep_holdWaiting l n r tid ctr keys x h) h

theorem keep_sinkLane {s : State} (l : _) (n : _) (r : _) (tid : _) (ctr : _) (keys : _) (ix : _) (i : _) (e : _)
    (h : Kept m s) :
    Kept m (sinkLane s l n r tid ctr keys ix i e) := by
  unfold sinkLane
  repeat' first
    | with_reducible assumption
    | with_reducible first
        | apply keep_holdLane | apply keep_storeLane | apply keep_modLaunch
        | refine KeptFst.of_eq (by assumption) ?_
    | (extract_lets +onlyGivenNames z; refine kept_cut z ?_ ?_; rotate_left; (clear_value z; intro _); rotate_left
       subst z)
    | (extract_lets +onlyGivenNames z; subst z)
    | split | intro _
    | (with_reducible refine kept_mk ?_; first
        | assumption | apply keep_holdLane | apply keep_storeLane | apply keep_modLaunch
        | refine KeptFst.of_eq (by assumption) ?_)

theorem keep_sinkStep {s : State} (l : _) (n : _) (r : _) (tid : _) (ctr : _) (keys : _) (h : Kept m s) :
    Kept m (sinkStep s l n r tid ctr keys) := by
  unfold sinkStep
  repeat' first
    | with_reducible assumption
    | with_reducible first
        | apply keep_sinkLane | apply keep_holdLater | apply keep_sinkDone
    | (extract_lets +onlyGivenNames z; refine kept_cut z ?_ ?_; rotate_left; (clear_value z; intro _); rotate_left
       subst z)
    | (extract_lets +onlyGivenNames z; subst z)
    | split | intro _
    | (with_reducible refine KeptFst.of ?_; first
        | apply keep_sinkLane | apply keep_holdLater | apply keep_sinkDone)
    | (with_reducible refine kept_mk ?_; first
        | assumption | apply keep_sinkLane | apply keep_holdLater | apply keep_sinkDone)

theorem keep_retrySink {s : State} (l : _) (n : _) (r : _) (tid : _) (ctr : _) (keys : _) (x7 : _) (h : Kept m s)
    :
    Kept m (retrySink s l n r tid ctr keys x7) := by
  induction x7 generalizing s l n r tid ctr keys with
  | nil =>
    unfold retrySink
    repeat' first
      | with_reducible assumption
      | with_reducible first
          | apply keep_storeLane | apply keep_portFault | apply keep_modLaunch | apply ih
          | refine KeptFst.of_eq (by assumption) ?_ | apply kept_bind | apply kept_some | apply kept_none
      | (extract_lets +onlyGivenNames z; refine kept_cut z ?_ ?_; rotate_left; (clear_value z; intro _); rotate_left
         subst z)
      | (extract_lets +onlyGivenNames z; subst z)
      | split | intro _
      | (with_reducible refine KeptFst.of ?_; first
          | apply keep_storeLane | apply keep_portFault | apply keep_modLaunch | apply ih)
      | (with_reducible refine kept_mk ?_; first
          | assumption | apply keep_storeLane | apply keep_portFault | apply keep_modLaunch | apply ih
          | refine KeptFst.of_eq (by assumption) ?_)
  | cons a l ih =>
    unfold retrySink
    repeat' first
      | with_reducible assumption
      | with_reducible first
          | apply keep_storeLane | apply keep_portFault | apply keep_modLaunch | apply ih
          | refine KeptFst.of_eq (by assumption) ?_ | apply kept_bind | apply kept_some | apply kept_none
      | (extract_lets +onlyGivenNames z; refine kept_cut z ?_ ?_; rotate_left; (clear_value z; intro _); rotate_left
         subst z)
      | (extract_lets +onlyGivenNames z; subst z)
      | split | intro _
      | (with_reducible refine KeptFst.of ?_; first
          | apply keep_storeLane | apply keep_portFault | apply keep_modLaunch | apply ih)
      | (with_reducible refine kept_mk ?_; first
          | assumption | apply keep_storeLane | apply keep_portFault | apply keep_modLaunch | apply ih
          | refine KeptFst.of_eq (by assumption) ?_)

theorem keep_execAgElement (lseq : _) (node : _) {s : State} (h : Kept m s) :
    KeptOut m (execAgElement lseq node s) := by
  unfold execAgElement
  repeat' first
    | with_reducible assumption
    | with_reducible first
        | apply keep_sinkStep | apply keep_handleStep | apply keep_sourceStep | apply keep_tidyPorts
        | apply kept_next
    | (extract_lets +onlyGivenNames z; refine kept_cut z ?_ ?_; rotate_left; (clear_value z; intro _); rotate_left
       subst z)
    | (extract_lets +onlyGivenNames z; subst z)
    | split
    | (with_reducible refine kept_mk ?_; first
        | assumption | apply keep_sinkStep | apply keep_handleStep | apply keep_sourceStep | apply keep_tidyPorts)

theorem keep_retrySource {s : State} (l : _) (n : _) (pack : _) (r : _) (keys : _) (x6 : _) (h : Kept m s) :
    Kept m (retrySource s l n pack r keys x6) := by
  induction x6 generalizing s l n pack r keys with
  | nil =>
    unfold retrySource
    repeat' first
      | with_reducible assumption
      | with_reducible first
          | apply keep_agRead | apply keep_portFault | apply keep_modLaunch | apply ih
          | refine KeptFst.of_eq (by assumption) ?_
      | (extract_lets +onlyGivenNames z; refine kept_cut z ?_ ?_; rotate_left; (clear_value z; intro _); rotate_left
         subst z)
      | (extract_lets +onlyGivenNames z; subst z)
      | split | intro _
      | (with_reducible refine KeptFst.of ?_; first
          | apply keep_agRead | apply keep_portFault | apply keep_modLaunch | apply ih)
      | (with_reducible refine kept_mk ?_; first
          | assumption | apply keep_agRead | apply keep_portFault | apply keep_modLaunch | apply ih
          | refine KeptFst.of_eq (by assumption) ?_)
  | cons a l ih =>
    unfold retrySource
    repeat' first
      | with_reducible assumption
      | with_reducible first
          | apply keep_agRead | apply keep_portFault | apply keep_modLaunch | apply ih
          | refine KeptFst.of_eq (by assumption) ?_
      | (extract_lets +onlyGivenNames z; refine kept_cut z ?_ ?_; rotate_left; (clear_value z; intro _); rotate_left
         subst z)
      | (extract_lets +onlyGivenNames z; subst z)
      | split | intro _
      | (with_reducible refine KeptFst.of ?_; first
          | apply keep_agRead | apply keep_portFault | apply keep_modLaunch | apply ih)
      | (with_reducible refine kept_mk ?_; first
          | assumption | apply keep_agRead | apply keep_portFault | apply keep_modLaunch | apply ih
          | refine KeptFst.of_eq (by assumption) ?_)

theorem keep_execHeldElementRetry (lseq : _) (node : _) {s : State} (h : Kept m s) :
    KeptOut m (execHeldElementRetry lseq node s) := by
  unfold execHeldElementRetry
  repeat' first
    | with_reducible assumption
    | with_reducible first
        | apply keep_retrySource | apply keep_retrySink | apply keep_followLink | apply keep_setLaunch
        | apply kept_next
    | (extract_lets +onlyGivenNames z; refine kept_cut z ?_ ?_; rotate_left; (clear_value z; intro _); rotate_left
       subst z)
    | (extract_lets +onlyGivenNames z; subst z)
    | split | intro _
    | (with_reducible refine KeptFst.of ?_; first
        | apply keep_retrySource | apply keep_retrySink | apply keep_followLink | apply keep_setLaunch)
    | (with_reducible refine kept_mk ?_; first
        | assumption | apply keep_retrySource | apply keep_retrySink | apply keep_followLink
        | apply keep_setLaunch)

theorem keep_execStreamEnd (lseq : _) (node : _) {s : State} (h : Kept m s) :
    KeptOut m (execStreamEnd lseq node s) := by
  unfold execStreamEnd
  repeat' first
    | with_reducible assumption
    | with_reducible first
        | apply keep_post | apply keep_setLaunch | apply kept_next | apply kept_bind | apply kept_some
        | apply kept_none
    | (extract_lets +onlyGivenNames z; refine kept_cut z ?_ ?_; rotate_left; (clear_value z; intro _); rotate_left
       subst z)
    | (extract_lets +onlyGivenNames z; subst z)
    | split | intro _
    | (with_reducible refine kept_mk ?_; first | assumption | apply keep_post | apply keep_setLaunch)

/-! ## Machine/Matrix.lean -/

theorem keep_vectorFault {s : State} (l : _) (plot : _) (n : _) (seq : _) (c : _) (h : Kept m s) :
    Kept m (vectorFault s l plot n seq c) := by
  unfold vectorFault
  repeat' first
    | with_reducible assumption
    | with_reducible first
        | apply keep_addScore | apply keep_raiseFault
    | (extract_lets +onlyGivenNames z; refine kept_cut z ?_ ?_; rotate_left; (clear_value z; intro _); rotate_left
       subst z)
    | (extract_lets +onlyGivenNames z; subst z)
    | split
    | (with_reducible refine KeptFst.of ?_; first | apply keep_addScore | apply keep_raiseFault)

theorem keep_emitColumns {s : State} (l : _) (g : _) (n : _) (t : _) (h : Kept m s) :
    Kept m (emitColumns s l g n t) := by
  unfold emitColumns
  repeat' first
    | with_reducible assumption
    | with_reducible first
        | apply keep_emitTok | apply kept_foldl
    | intro _
    | (with_reducible refine KeptFst.of ?_; first | apply keep_emitTok)

theorem keep_matrixBalance {s : State} (l : _) (plot : _) (g : _) (n : _) (seq : _) (h : Kept m s) :
    Kept m (matrixBalance s l plot g n seq) := by
  unfold matrixBalance
  repeat' first
    | with_reducible assumption
    | with_reducible first
        | apply keep_balanceFault | apply keep_modPlane | apply kept_foldl
    | (extract_lets +onlyGivenNames z; refine kept_cut z ?_ ?_; rotate_left; (clear_value z; intro _); rotate_left
       subst z)
    | (extract_lets +onlyGivenNames z; subst z)
    | split | intro _
    | (with_reducible refine KeptFst.of ?_; first | apply keep_balanceFault | apply keep_modPlane)
    | (with_reducible refine kept_mk ?_; first
        | assumption | apply keep_balanceFault | apply keep_modPlane | apply kept_foldl)

theorem keep_keepVector {s : State} (l : _) (plot : _) (g : _) (n : _) (id : _) (err : _) (rows : _) (h : Kept m
    s) :
    Kept m (keepVector s l plot g n id err rows) := by
  unfold keepVector
  repeat' first
    | with_reducible assumption
    | with_reducible first
        | apply keep_dropHeads | apply keep_setPlot
    | (extract_lets +onlyGivenNames z; refine kept_cut z ?_ ?_; rotate_left; (clear_value z; intro _); rotate_left
       subst z)
    | (extract_lets +onlyGivenNames z; subst z)
    | split
    | (with_reducible refine KeptFst.of ?_; first | apply keep_dropHeads | apply keep_setPlot)
    | (with_reducible refine kept_mk ?_; first | assumption | apply keep_dropHeads | apply keep_setPlot)

theorem keep_runControl {s : State} (l : _) (plot : _) (g : _) (n : _) (k : _) (rows : _) (h : Kept m s) :
    Kept m (runControl s l plot g n k rows) := by
  unfold runControl
  repeat' first
    | with_reducible assumption
    | with_reducible first
        | apply keep_keepVector | apply keep_emitColumns
    | (extract_lets +onlyGivenNames z; refine kept_cut z ?_ ?_; rotate_left; (clear_value z; intro _); rotate_left
       subst z)
    | (extract_lets +onlyGivenNames z; subst z)
    | intro _

theorem keep_runVector {s : State} (l : _) (plot : _) (g : _) (n : _) (rows : _) (h : Kept m s) :
    Kept m (runVector s l plot g n rows) := by
  unfold runVector
  repeat' first
    | with_reducible assumption
    | with_reducible first
        | apply keep_keepVector | apply keep_emitColumns | apply keep_vectorFault | apply keep_raiseFlags
    | (extract_lets +onlyGivenNames z; refine kept_cut z ?_ ?_; rotate_left; (clear_value z; intro _); rotate_left
       subst z)
    | (extract_lets +onlyGivenNames z; subst z)
    | split
    | (with_reducible refine KeptFst.of ?_; first
        | apply keep_keepVector | apply keep_emitColumns | apply keep_vectorFault | apply keep_raiseFlags)
    | (with_reducible refine kept_mk ?_; first
        | assumption | apply keep_keepVector | apply keep_emitColumns | apply keep_vectorFault
        | apply keep_raiseFlags)

theorem keep_execMatrixVector (plot : _) {s : State} (h : Kept m s) :
    KeptOut m (execMatrixVector plot s) := by
  unfold execMatrixVector
  repeat' first
    | with_reducible assumption
    | with_reducible first
        | apply keep_runVector | apply keep_runControl | apply keep_matrixBalance | apply keep_tidyPorts
        | apply keep_markActive | apply keep_takeHeads | apply keep_modPlane | apply keep_setPlot
        | apply kept_next | apply kept_fault
    | (extract_lets +onlyGivenNames z; refine kept_cut z ?_ ?_; rotate_left; (clear_value z; intro _); rotate_left
       subst z)
    | (extract_lets +onlyGivenNames z; subst z)
    | split | intro _
    | (with_reducible refine KeptFst.of ?_; first
        | apply keep_runVector | apply keep_runControl | apply keep_matrixBalance | apply keep_tidyPorts
        | apply keep_markActive | apply keep_takeHeads | apply keep_modPlane | apply keep_setPlot)
    | (with_reducible refine kept_mk ?_; first
        | assumption | apply keep_runVector | apply keep_runControl | apply keep_matrixBalance
        | apply keep_tidyPorts | apply keep_markActive | apply keep_takeHeads | apply keep_modPlane
        | apply keep_setPlot)

theorem keep_tileScale {s : State} (l : _) (keys : _) (d : _) (h : Kept m s) :
    KeptFst m (tileScale s l keys d) := by
  unfold tileScale
  repeat' first
    | with_reducible assumption
    | with_reducible first
        | apply keep_loadVA | refine KeptFst.of_eq (by assumption) ?_
    | split | (with_reducible apply kept_pair)
    | (with_reducible refine kept_mk ?_; first
        | assumption | apply keep_loadVA | refine KeptFst.of_eq (by assumption) ?_)

theorem keep_copyFault {s : State} (l : _) (key : _) (j : _) (va : _) (cause : _) (value : _) (acc : _) (h : Kept
    m s) :
    Kept m (copyFault s l key j va cause value acc) := by
  unfold copyFault
  repeat' first
    | with_reducible assumption
    | with_reducible first
        | apply keep_modLaunch | apply keep_raiseFault
    | (extract_lets +onlyGivenNames z; refine kept_cut z ?_ ?_; rotate_left; (clear_value z; intro _); rotate_left
       subst z)
    | (extract_lets +onlyGivenNames z; subst z)
    | split | intro _
    | (with_reducible refine kept_mk ?_; first | assumption | apply keep_modLaunch | apply keep_raiseFault)

theorem keep_endCopy {s : State} (l : _) (key : _) (j : _) (status : _) (h : Kept m s) :
    Kept m (endCopy s l key j status) := by
  unfold endCopy
  repeat' first
    | with_reducible assumption
    | with_reducible first
        | apply keep_modLaunch | apply keep_post
    | (extract_lets +onlyGivenNames z; refine kept_cut z ?_ ?_; rotate_left; (clear_value z; intro _); rotate_left
       subst z)
    | (extract_lets +onlyGivenNames z; subst z)
    | split | intro _
    | (with_reducible refine kept_mk ?_; first | assumption | apply keep_modLaunch | apply keep_post)

theorem keep_execLoadw (plot : _) {s : State} (h : Kept m s) :
    KeptOut m (execLoadw plot s) := by
  unfold execLoadw
  repeat' first
    | with_reducible assumption
    | with_reducible first
        | apply keep_endCopy | apply keep_copyFault | apply keep_tileScale | apply keep_setPlot
        | refine KeptFst.of_eq (by assumption) ?_ | apply kept_next
    | (extract_lets +onlyGivenNames z; refine kept_cut z ?_ ?_; rotate_left; (clear_value z; intro _); rotate_left
       subst z)
    | (extract_lets +onlyGivenNames z; subst z)
    | split
    | (with_reducible refine KeptFst.of ?_; first
        | apply keep_endCopy | apply keep_copyFault | apply keep_tileScale | apply keep_setPlot)
    | (with_reducible refine kept_mk ?_; first
        | assumption | apply keep_endCopy | apply keep_copyFault | apply keep_tileScale | apply keep_setPlot
        | refine KeptFst.of_eq (by assumption) ?_)

/-! ## Machine/Replay.lean -/

theorem keep_dropRequest {s : State} (lseq : _) (idx : _) (h : Kept m s) :
    Kept m (dropRequest s lseq idx) := by
  unfold dropRequest
  repeat' first
    | with_reducible assumption
    | with_reducible first
        | apply keep_modLaunch
    | intro _
    | (with_reducible refine kept_mk ?_; first | assumption | apply keep_modLaunch)

theorem keep_rereadElems {s : State} (c : _) (r : _) (pack : _) (x4 : _) (h : Kept m s) :
    KeptFst m (rereadElems s c r pack x4) := by
  induction x4 generalizing s c r pack with
  | nil =>
    unfold rereadElems
    repeat' first
      | with_reducible assumption
      | with_reducible first
          | apply keep_agRead | apply ih | refine KeptFst.of_eq (by assumption) ?_
      | split | (with_reducible apply kept_pair)
      | (with_reducible refine KeptFst.of ?_; first | apply keep_agRead | apply ih)
      | (with_reducible refine kept_mk ?_; first
          | assumption | apply keep_agRead | apply ih | refine KeptFst.of_eq (by assumption) ?_)
  | cons a l ih =>
    unfold rereadElems
    repeat' first
      | with_reducible assumption
      | with_reducible first
          | apply keep_agRead | apply ih | refine KeptFst.of_eq (by assumption) ?_
      | split | (with_reducible apply kept_pair)
      | (with_reducible refine KeptFst.of ?_; first | apply keep_agRead | apply ih)
      | (with_reducible refine kept_mk ?_; first
          | assumption | apply keep_agRead | apply ih | refine KeptFst.of_eq (by assumption) ?_)

theorem keep_replayTag {s : State} (l : _) (n : _) (r : _) (keys : _) (pos : _) (h : Kept m s) :
    KeptOptFst m (replayTag s l n r keys pos) := by
  unfold replayTag
  repeat' first
    | with_reducible assumption
    | with_reducible first
        | apply keep_loadVA | apply keep_setPlot | refine KeptFst.of_eq (by assumption) ?_ | apply kept_next
        | apply kept_fault | apply kept_foldl | apply kept_some | apply kept_none | apply kept_some_pair
        | apply kept_none_pair | apply kept_ok | apply kept_error | apply kept_ok_some | apply kept_ok_none
        | apply kept_map | apply kept_map_fst | apply kept_map_exc | apply kept_ok_opt | apply kept_error_opt
        | apply kept_getD
    | (extract_lets +onlyGivenNames z; refine kept_cut z ?_ ?_; rotate_left; (clear_value z; intro _); rotate_left
       subst z)
    | (extract_lets +onlyGivenNames z; subst z)
    | split | intro _ | (with_reducible apply kept_pair)
    | (with_reducible refine KeptFst.of ?_; first | apply keep_loadVA | apply keep_setPlot)
    | (with_reducible refine kept_mk ?_; first
        | assumption | apply keep_loadVA | apply keep_setPlot | refine KeptFst.of_eq (by assumption) ?_)

theorem keep_exhaust {s : State} (lseq : _) (plot : _) (key : _) (t : _) (src : _) (f : _) (h : Kept m s) :
    KeptOpt m (exhaust s lseq plot key t src f) := by
  unfold exhaust
  repeat' first
    | with_reducible assumption
    | with_reducible first
        | apply keep_divert | apply kept_some | apply kept_none | apply kept_bind
    | split | intro _

theorem keep_replaySource {s : State} (l : _) (idx : _) (key : _) (n : _) (seq : _) (h : Kept m s) :
    Kept m (replaySource s l idx key n seq) := by
  unfold replaySource
  repeat' first
    | with_reducible assumption
    | with_reducible first
        | apply keep_exhaust | apply keep_replayTag | apply keep_rereadElems | apply keep_dropRequest
        | apply keep_portFault | apply keep_pushReplay | apply keep_modLaunch
        | refine KeptFst.of_eq (by assumption) ?_ | refine KeptOpt.of_eq (by assumption) ?_
        | refine KeptOptFst.of_eq (by assumption) ?_ | apply kept_getD
    | (extract_lets +onlyGivenNames z; refine kept_cut z ?_ ?_; rotate_left; (clear_value z; intro _); rotate_left
       subst z)
    | (extract_lets +onlyGivenNames z; subst z)
    | split | intro _
    | (with_reducible refine kept_mk ?_; first
        | assumption | apply keep_exhaust | apply keep_replayTag | apply keep_rereadElems | apply keep_dropRequest
        | apply keep_portFault | apply keep_pushReplay | apply keep_modLaunch
        | refine KeptFst.of_eq (by assumption) ?_ | refine KeptOpt.of_eq (by assumption) ?_
        | refine KeptOptFst.of_eq (by assumption) ?_)

theorem keep_setVec {s : State} (plot : _) (x2 : _) (h : Kept m s) :
    Kept m (setVec s plot x2) := by
  unfold setVec
  repeat' first
    | with_reducible assumption
    | with_reducible first
        | apply keep_setPlot
    | (extract_lets +onlyGivenNames z; refine kept_cut z ?_ ?_; rotate_left; (clear_value z; intro _); rotate_left
       subst z)
    | (extract_lets +onlyGivenNames z; subst z)
    | split | intro _
    | (with_reducible refine kept_mk ?_; first | assumption | apply keep_setPlot)

theorem keep_replayVector {s : State} (l : _) (idx : _) (key : _) (g : _) (n : _) (seq : _) (h : Kept m s) :
    Kept m (replayVector s l idx key g n seq) := by
  unfold replayVector
  repeat' first
    | with_reducible assumption
    | with_reducible first
        | apply keep_setVec | apply keep_exhaust | apply keep_dropRequest | apply keep_vectorFault
        | apply keep_dropHeads | apply keep_pushReplay | apply keep_modLaunch | apply keep_raiseFlags
        | refine KeptOpt.of_eq (by assumption) ?_ | apply kept_getD
    | (extract_lets +onlyGivenNames z; refine kept_cut z ?_ ?_; rotate_left; (clear_value z; intro _); rotate_left
       subst z)
    | (extract_lets +onlyGivenNames z; subst z)
    | split | intro _
    | (with_reducible refine KeptFst.of ?_; first
        | apply keep_setVec | apply keep_exhaust | apply keep_dropRequest | apply keep_vectorFault
        | apply keep_dropHeads | apply keep_pushReplay | apply keep_modLaunch | apply keep_raiseFlags)
    | (with_reducible refine kept_mk ?_; first
        | assumption | apply keep_setVec | apply keep_exhaust | apply keep_dropRequest | apply keep_vectorFault
        | apply keep_dropHeads | apply keep_pushReplay | apply keep_modLaunch | apply keep_raiseFlags
        | refine KeptOpt.of_eq (by assumption) ?_)

theorem keep_replayRetained {s : State} (l : _) (idx : _) (g : _) (n : _) (id : _) (h : Kept m s) :
    Kept m (replayRetained s l idx g n id) := by
  unfold replayRetained
  repeat' first
    | with_reducible assumption
    | with_reducible first
        | apply keep_dropRequest | apply keep_modLaunch | apply keep_setPe
    | (extract_lets +onlyGivenNames z; refine kept_cut z ?_ ?_; rotate_left; (clear_value z; intro _); rotate_left
       subst z)
    | (extract_lets +onlyGivenNames z; subst z)
    | split | intro _
    | (with_reducible refine kept_mk ?_; first
        | assumption | apply keep_dropRequest | apply keep_modLaunch | apply keep_setPe)

theorem keep_farReplay {s : State} (l : _) (idx : _) (key : _) (id : _) (h : Kept m s) :
    KeptOpt m (farReplay s l idx key id) := by
  unfold farReplay
  repeat' first
    | with_reducible assumption
    | with_reducible first
        | apply keep_dropRequest | apply keep_pushReplay | apply keep_setPlot | apply kept_some | apply kept_none
        | apply kept_bind
    | (extract_lets +onlyGivenNames z; refine kept_cut z ?_ ?_; rotate_left; (clear_value z; intro _); rotate_left
       subst z)
    | (extract_lets +onlyGivenNames z; subst z)
    | split | intro _
    | (with_reducible refine KeptFst.of ?_; first
        | apply keep_dropRequest | apply keep_pushReplay | apply keep_setPlot)
    | (with_reducible refine kept_mk ?_; first
        | assumption | apply keep_dropRequest | apply keep_pushReplay | apply keep_setPlot)

theorem keep_execReplayRequest (lseq : _) (idx : _) {s : State} (h : Kept m s) :
    KeptOut m (execReplayRequest lseq idx s) := by
  unfold execReplayRequest
  repeat' first
    | with_reducible assumption
    | with_reducible first
        | apply keep_farReplay | apply keep_replayRetained | apply keep_replayVector | apply keep_replaySource
        | refine KeptOpt.of_eq (by assumption) ?_ | apply kept_next | apply kept_getD
    | (extract_lets +onlyGivenNames z; refine kept_cut z ?_ ?_; rotate_left; (clear_value z; intro _); rotate_left
       subst z)
    | (extract_lets +onlyGivenNames z; subst z)
    | split
    | (with_reducible refine kept_mk ?_; first
        | assumption | apply keep_farReplay | apply keep_replayRetained | apply keep_replayVector
        | apply keep_replaySource | refine KeptOpt.of_eq (by assumption) ?_)

theorem keep_refire {s : State} (l : Launch) (pe g n : Nat) (r : Retain) (h : Kept m s) :
    KeptOpt m (refire s l pe g n r) := by
  unfold refire
  extract_lets hr f
  split
  · exact kept_none
  · split
    · exact kept_some (keep_markActive _ _ ((keep_perform _ _ _ h).of (by assumption)))
    · exact kept_none
    · exact kept_foldl_opt (fun s k hs => keep_exhaust _ _ _ _ _ _ hs) (kept_some (keep_scoreCause _ _ h))

theorem keep_fillRetain {s : State} (l : Launch) (pe g n port : Nat) (r : Retain) (t : Token) (h : Kept m s) :
    KeptOpt m (fillRetain s l pe g n port r t) := by
  unfold fillRetain
  extract_lets x bad r' put
  have hp : ∀ s new, Kept m s → Kept m (put s new) := fun s new hs => keep_setPe _ _ hs
  split
  · exact kept_some (hp _ _ (keep_setPe _ _ h))
  · refine kept_bind fun s' e => ?_
    have hs := (keep_refire l pe g n r' h).of e
    extract_lets t'
    have hs' : Kept m t' := keep_dropHeads _ _ hs
    split
    · exact kept_none
    · split <;> exact kept_some (hp _ _ hs')

theorem keep_fillHole {s : State} (l : _) (pe : _) (key : _) (i : _) (port : _) (w : _) (t : _) (h : Kept m s) :
    Kept m (fillHole s l pe key i port w t) := by
  unfold fillHole
  repeat' first
    | with_reducible assumption
    | with_reducible first
        | apply keep_modLaunch | apply keep_dropHolder | apply keep_setPe
    | (extract_lets +onlyGivenNames z; refine kept_cut z ?_ ?_; rotate_left; (clear_value z; intro _); rotate_left
       subst z)
    | (extract_lets +onlyGivenNames z; subst z)
    | split | intro _
    | (with_reducible refine KeptFst.of ?_; first | apply keep_modLaunch | apply keep_dropHolder | apply keep_setPe)
    | (with_reducible refine kept_mk ?_; first
        | assumption | apply keep_modLaunch | apply keep_dropHolder | apply keep_setPe)

theorem keep_takeReplay {s : State} (l : _) (key : _) (t : _) (h : Kept m s) :
    KeptOpt m (takeReplay s l key t) := by
  unfold takeReplay
  repeat' first
    | with_reducible assumption
    | with_reducible first
        | apply keep_fillHole | apply keep_fillRetain | apply keep_setVec
        | refine KeptOpt.of_eq (by assumption) ?_ | apply kept_some | apply kept_none | apply kept_map
        | apply kept_getD
    | (extract_lets +onlyGivenNames z; refine kept_cut z ?_ ?_; rotate_left; (clear_value z; intro _); rotate_left
       subst z)
    | (extract_lets +onlyGivenNames z; subst z)
    | split | intro _
    | (with_reducible refine kept_mk ?_; first
        | assumption | apply keep_fillHole | apply keep_fillRetain | apply keep_setVec
        | refine KeptOpt.of_eq (by assumption) ?_)

theorem keep_firstTaken {s : State} (l : _) (key : _) (x3 : _) (x4 : _) (h : Kept m s) :
    KeptOptFst m (firstTaken s l key x3 x4) := by
  induction x4 generalizing s l key x3 with
  | nil =>
    unfold firstTaken
    repeat' first
      | with_reducible assumption
      | with_reducible first
          | apply keep_takeReplay | apply keep_setLaunch | apply ih | refine KeptOpt.of_eq (by assumption) ?_
          | apply kept_some_pair | apply kept_none_pair
      | (extract_lets +onlyGivenNames z; refine kept_cut z ?_ ?_; rotate_left; (clear_value z; intro _); rotate_left
         subst z)
      | (extract_lets +onlyGivenNames z; subst z)
      | split
      | (with_reducible refine kept_mk ?_; first
          | assumption | apply keep_takeReplay | apply keep_setLaunch | apply ih
          | refine KeptOpt.of_eq (by assumption) ?_)
  | cons a l ih =>
    unfold firstTaken
    repeat' first
      | with_reducible assumption
      | with_reducible first
          | apply keep_takeReplay | apply keep_setLaunch | apply ih | refine KeptOpt.of_eq (by assumption) ?_
          | apply kept_some_pair | apply kept_none_pair
      | (extract_lets +onlyGivenNames z; refine kept_cut z ?_ ?_; rotate_left; (clear_value z; intro _); rotate_left
         subst z)
      | (extract_lets +onlyGivenNames z; subst z)
      | split
      | (with_reducible refine kept_mk ?_; first
          | assumption | apply keep_takeReplay | apply keep_setLaunch | apply ih
          | refine KeptOpt.of_eq (by assumption) ?_)

theorem keep_execReplayToken (lseq : _) (idx : _) {s : State} (h : Kept m s) :
    KeptOut m (execReplayToken lseq idx s) := by
  unfold execReplayToken
  repeat' first
    | with_reducible assumption
    | with_reducible first
        | apply keep_firstTaken | refine KeptOptFst.of_eq (by assumption) ?_ | apply kept_next
    | split
    | (with_reducible refine kept_mk ?_; first
        | assumption | apply keep_firstTaken | refine KeptOptFst.of_eq (by assumption) ?_)

/-! ## Machine/Copy.lean -/

theorem keep_readPiece {s : State} (c : _) (x : _) (x3 : _) (n : _) (h : Kept m s) :
    KeptFst m (readPiece s c x x3 n) := by
  unfold readPiece
  repeat' first
    | with_reducible assumption
    | with_reducible first
        | apply keep_agRead | apply keep_observe | apply keep_readEffect | refine KeptFst.of_eq (by assumption) ?_
    | (extract_lets +onlyGivenNames z; refine kept_cut z ?_ ?_; rotate_left; (clear_value z; intro _); rotate_left
       subst z)
    | (extract_lets +onlyGivenNames z; subst z)
    | split | (with_reducible apply kept_pair)
    | (with_reducible refine KeptFst.of ?_; first | apply keep_agRead | apply keep_observe | apply keep_readEffect)
    | (with_reducible refine kept_mk ?_; first
        | assumption | apply keep_agRead | apply keep_observe | apply keep_readEffect
        | refine KeptFst.of_eq (by assumption) ?_)

theorem keep_writePiece {s : State} (c : _) (x : _) (x3 : _) (bs : _) (h : Kept m s) :
    KeptFst m (writePiece s c x x3 bs) := by
  unfold writePiece
  repeat' first
    | with_reducible assumption
    | with_reducible first
        | apply keep_storeVA | apply keep_winWrite | refine KeptFst.of_eq (by assumption) ?_
    | split | (with_reducible apply kept_pair)
    | (with_reducible refine kept_mk ?_; first
        | assumption | apply keep_storeVA | apply keep_winWrite | refine KeptFst.of_eq (by assumption) ?_)

theorem keep_stopUnit {s : State} (l : _) (key : _) (j : _) (x4 : _) (h : Kept m s) :
    Kept m (stopUnit s l key j x4) := by
  unfold stopUnit
  repeat' first
    | with_reducible assumption
    | with_reducible first
        | apply keep_copyFault | apply keep_modLaunch
    | split | intro _

theorem keep_copied {s : State} (l : _) (key : _) (j : _) (h : Kept m s) :
    Kept m (copied s l key j) := by
  unfold copied
  repeat' first
    | with_reducible assumption
    | with_reducible first
        | apply keep_endCopy | apply keep_modLaunch
    | (extract_lets +onlyGivenNames z; refine kept_cut z ?_ ?_; rotate_left; (clear_value z; intro _); rotate_left
       subst z)
    | (extract_lets +onlyGivenNames z; subst z)
    | split | intro _
    | (with_reducible refine kept_mk ?_; first | assumption | apply keep_endCopy | apply keep_modLaunch)

theorem keep_sourceByte (c : _) (sh : _) (j : _) (i : _) (now : _) {s : State} (h : Kept m s) :
    KeptFst m (sourceByte c sh j i now s) := by
  unfold sourceByte
  repeat' first
    | with_reducible assumption
    | split | (with_reducible apply kept_pair)
    | (with_reducible refine kept_mk ?_; first | assumption)

theorem keep_sourceBytes (c : _) (sh : _) (j : _) (x3 : _) (x4 : _) {x5 : State} (h : Kept m x5) :
    KeptFst m (sourceBytes c sh j x3 x4 x5) := by
  induction x4 generalizing c sh j x3 x5 with
  | nil =>
    unfold sourceBytes
    repeat' first
      | with_reducible assumption
      | with_reducible first
          | apply keep_sourceByte | apply ih | refine KeptFst.of_eq (by assumption) ?_
      | (extract_lets +onlyGivenNames z; refine kept_cut z ?_ ?_; rotate_left; (clear_value z; intro _); rotate_left
         subst z)
      | (extract_lets +onlyGivenNames z; subst z)
      | split | (with_reducible apply kept_pair)
      | (with_reducible refine KeptFst.of ?_; first | apply keep_sourceByte | apply ih)
  | cons a l ih =>
    unfold sourceBytes
    repeat' first
      | with_reducible assumption
      | with_reducible first
          | apply keep_sourceByte | apply ih | refine KeptFst.of_eq (by assumption) ?_
      | (extract_lets +onlyGivenNames z; refine kept_cut z ?_ ?_; rotate_left; (clear_value z; intro _); rotate_left
         subst z)
      | (extract_lets +onlyGivenNames z; subst z)
      | split | (with_reducible apply kept_pair)
      | (with_reducible refine KeptFst.of ?_; first | apply keep_sourceByte | apply ih)

theorem keep_movePiece (c : _) (sh : _) (i : _) (n : _) {s : State} (j : _) (h : Kept m s) :
    KeptFst m (movePiece c sh i n s j) := by
  unfold movePiece
  repeat' first
    | with_reducible assumption
    | with_reducible first
        | apply keep_sourceBytes | apply keep_writePiece | apply keep_readPiece
        | refine KeptFst.of_eq (by assumption) ?_
    | (extract_lets +onlyGivenNames z; refine kept_cut z ?_ ?_; rotate_left; (clear_value z; intro _); rotate_left
       subst z)
    | (extract_lets +onlyGivenNames z; subst z)
    | split | intro _ | (with_reducible apply kept_pair)
    | (with_reducible refine KeptFst.of ?_; first
        | apply keep_sourceBytes | apply keep_writePiece | apply keep_readPiece)
    | (with_reducible refine kept_mk ?_; first
        | assumption | apply keep_sourceBytes | apply keep_writePiece | apply keep_readPiece
        | refine KeptFst.of_eq (by assumption) ?_)

theorem keep_movePieces (c : _) (sh : _) (x2 : _) (x3 : _) (x4 : _) {x5 : State} (x6 : _) (h : Kept m x5) :
    KeptFst m (movePieces c sh x2 x3 x4 x5 x6) := by
  induction x2 generalizing c sh x3 x4 x5 x6 with
  | zero =>
    unfold movePieces
    repeat' first
      | with_reducible assumption
      | with_reducible first
          | apply keep_movePiece | apply ih | refine KeptFst.of_eq (by assumption) ?_
      | (extract_lets +onlyGivenNames z; refine kept_cut z ?_ ?_; rotate_left; (clear_value z; intro _); rotate_left
         subst z)
      | (extract_lets +onlyGivenNames z; subst z)
      | split | intro _ | (with_reducible apply kept_pair)
      | (with_reducible refine KeptFst.of ?_; first | apply keep_movePiece | apply ih)
      | (with_reducible refine kept_mk ?_; first
          | assumption | apply keep_movePiece | apply ih | refine KeptFst.of_eq (by assumption) ?_)
  | succ n ih =>
    unfold movePieces
    repeat' first
      | with_reducible assumption
      | with_reducible first
          | apply keep_movePiece | apply ih | refine KeptFst.of_eq (by assumption) ?_
      | (extract_lets +onlyGivenNames z; refine kept_cut z ?_ ?_; rotate_left; (clear_value z; intro _); rotate_left
         subst z)
      | (extract_lets +onlyGivenNames z; subst z)
      | split | intro _ | (with_reducible apply kept_pair)
      | (with_reducible refine KeptFst.of ?_; first | apply keep_movePiece | apply ih)
      | (with_reducible refine kept_mk ?_; first
          | assumption | apply keep_movePiece | apply ih | refine KeptFst.of_eq (by assumption) ?_)

theorem keep_moveUnit {s : State} (c : _) (j : _) (k : _) (h : Kept m s) :
    KeptFst m (moveUnit s c j k) := by
  unfold moveUnit
  repeat' first
    | with_reducible assumption
    | with_reducible first
        | apply keep_movePieces | refine KeptFst.of_eq (by assumption) ?_
    | (with_reducible apply kept_pair)

theorem keep_passBytes {s : State} (j : _) (k : _) (h : Kept m s) :
    Kept m (passBytes s j k) := by
  unfold passBytes
  repeat' first
    | with_reducible assumption
    | with_reducible first
        | apply keep_subPend
    | split

theorem keep_copyUnit {s : State} (l : _) (key : _) (j : _) (h : Kept m s) :
    Kept m (copyUnit s l key j) := by
  unfold copyUnit
  repeat' first
    | with_reducible assumption
    | with_reducible first
        | apply keep_passBytes | apply keep_moveUnit | apply keep_copied | apply keep_stopUnit
        | apply keep_modLaunch | refine KeptFst.of_eq (by assumption) ?_
    | (extract_lets +onlyGivenNames z; refine kept_cut z ?_ ?_; rotate_left; (clear_value z; intro _); rotate_left
       subst z)
    | (extract_lets +onlyGivenNames z; subst z)
    | split | intro _
    | (with_reducible refine kept_mk ?_; first
        | assumption | apply keep_passBytes | apply keep_moveUnit | apply keep_copied | apply keep_stopUnit
        | apply keep_modLaunch | refine KeptFst.of_eq (by assumption) ?_)

theorem keep_serveQueue {s : State} (l : _) (key : _) (h : Kept m s) :
    Kept m (serveQueue s l key) := by
  unfold serveQueue
  repeat' first
    | with_reducible assumption
    | with_reducible first
        | apply keep_copyUnit | apply keep_setLaunch
    | split
    | (with_reducible refine kept_mk ?_; first | assumption | apply keep_copyUnit | apply keep_setLaunch)

theorem keep_execCopyUnit (die : _) {s : State} (h : Kept m s) :
    KeptOut m (execCopyUnit die s) := by
  unfold execCopyUnit
  repeat' first
    | with_reducible assumption
    | with_reducible first
        | apply keep_serveQueue | apply kept_next
    | split
    | (with_reducible refine kept_mk ?_; first | assumption | apply keep_serveQueue)

theorem keep_execCopyUnitRetry (lseq : _) (die : _) (q : _) {s : State} (h : Kept m s) :
    KeptOut m (execCopyUnitRetry lseq die q s) := by
  unfold execCopyUnitRetry
  repeat' first
    | with_reducible assumption
    | with_reducible first
        | apply keep_setLaunch | apply kept_next | apply kept_fault
    | (extract_lets +onlyGivenNames z; refine kept_cut z ?_ ?_; rotate_left; (clear_value z; intro _); rotate_left
       subst z)
    | (extract_lets +onlyGivenNames z; subst z)
    | split
    | (with_reducible refine kept_mk ?_; first | assumption | apply keep_setLaunch)

/-! ## Machine/Coll.lean -/

theorem keep_setColl {s : State} (key : _) (c : _) (h : Kept m s) :
    Kept m (setColl s key c) := by
  unfold setColl
  repeat' first
    | with_reducible assumption
    | (with_reducible refine kept_mk ?_; first | assumption)

theorem keep_raiseColl {s : State} (p : _) (key : _) (cause : _) (value : _) (acc : _) (h : Kept m s) :
    Kept m (raiseColl s p key cause value acc) := by
  unfold raiseColl
  repeat' first
    | with_reducible assumption
    | with_reducible first
        | apply keep_raiseFault
    | split
    | (with_reducible refine kept_mk ?_; first | assumption | apply keep_raiseFault)

theorem keep_collFault {s : State} (key : _) (c : _) (p : _) (va : _) (cause : _) (value : _) (acc : _) (h : Kept
    m s) :
    Kept m (collFault s key c p va cause value acc) := by
  unfold collFault
  repeat' first
    | with_reducible assumption
    | with_reducible first
        | apply keep_raiseColl | apply keep_setColl
    | (extract_lets +onlyGivenNames z; refine kept_cut z ?_ ?_; rotate_left; (clear_value z; intro _); rotate_left
       subst z)
    | (extract_lets +onlyGivenNames z; subst z)
    | split
    | (with_reducible refine kept_mk ?_; first | assumption | apply keep_raiseColl | apply keep_setColl)

theorem keep_readInput (c : _) (p : _) (x2 : _) (x3 : _) {x4 : State} (h : Kept m x4) :
    KeptFst m (readInput c p x2 x3 x4) := by
  induction x2 generalizing c p x3 x4 with
  | zero =>
    unfold readInput
    repeat' first
      | with_reducible assumption
      | with_reducible first
          | apply keep_agRead | apply ih | refine KeptFst.of_eq (by assumption) ?_
      | (extract_lets +onlyGivenNames z; refine kept_cut z ?_ ?_; rotate_left; (clear_value z; intro _); rotate_left
         subst z)
      | (extract_lets +onlyGivenNames z; subst z)
      | split | (with_reducible apply kept_pair)
      | (with_reducible refine kept_mk ?_; first
          | assumption | apply keep_agRead | apply ih | refine KeptFst.of_eq (by assumption) ?_)
  | succ n ih =>
    unfold readInput
    repeat' first
      | with_reducible assumption
      | with_reducible first
          | apply keep_agRead | apply ih | refine KeptFst.of_eq (by assumption) ?_
      | (extract_lets +onlyGivenNames z; refine kept_cut z ?_ ?_; rotate_left; (clear_value z; intro _); rotate_left
         subst z)
      | (extract_lets +onlyGivenNames z; subst z)
      | split | (with_reducible apply kept_pair)
      | (with_reducible refine kept_mk ?_; first
          | assumption | apply keep_agRead | apply ih | refine KeptFst.of_eq (by assumption) ?_)

theorem keep_readInputs (key : _) (c : _) (x2 : _) {x3 : State} (h : Kept m x3) :
    KeptFst m (readInputs key c x2 x3) := by
  induction x2 generalizing key c x3 with
  | nil =>
    unfold readInputs
    repeat' first
      | with_reducible assumption
      | with_reducible first
          | apply keep_readInput | apply keep_collFault | apply ih | refine KeptFst.of_eq (by assumption) ?_
          | apply kept_next | apply kept_fault | apply kept_foldl | apply kept_some | apply kept_none
          | apply kept_some_pair | apply kept_none_pair | apply kept_ok | apply kept_error | apply kept_ok_some
          | apply kept_ok_none | apply kept_map | apply kept_map_fst | apply kept_map_exc | apply kept_ok_opt
          | apply kept_error_opt | apply kept_getD
      | (extract_lets +onlyGivenNames z; refine kept_cut z ?_ ?_; rotate_left; (clear_value z; intro _); rotate_left
         subst z)
      | (extract_lets +onlyGivenNames z; subst z)
      | split | intro _ | (with_reducible apply kept_pair)
      | (with_reducible refine KeptFst.of ?_; first | apply keep_readInput | apply keep_collFault | apply ih)
      | (with_reducible refine kept_mk ?_; first
          | assumption | apply keep_readInput | apply keep_collFault | apply ih
          | refine KeptFst.of_eq (by assumption) ?_)
  | cons a l ih =>
    unfold readInputs
    repeat' first
      | with_reducible assumption
      | with_reducible first
          | apply keep_readInput | apply keep_collFault | apply ih | refine KeptFst.of_eq (by assumption) ?_
          | apply kept_next | apply kept_fault | apply kept_foldl | apply kept_some | apply kept_none
          | apply kept_some_pair | apply kept_none_pair | apply kept_ok | apply kept_error | apply kept_ok_some
          | apply kept_ok_none | apply kept_map | apply kept_map_fst | apply kept_map_exc | apply kept_ok_opt
          | apply kept_error_opt | apply kept_getD
      | (extract_lets +onlyGivenNames z; refine kept_cut z ?_ ?_; rotate_left; (clear_value z; intro _); rotate_left
         subst z)
      | (extract_lets +onlyGivenNames z; subst z)
      | split | intro _ | (with_reducible apply kept_pair)
      | (with_reducible refine KeptFst.of ?_; first | apply keep_readInput | apply keep_collFault | apply ih)
      | (with_reducible refine kept_mk ?_; first
          | assumption | apply keep_readInput | apply keep_collFault | apply ih
          | refine KeptFst.of_eq (by assumption) ?_)

theorem keep_execCollectiveStart (vd : _) (comm : _) {s : State} (h : Kept m s) :
    KeptOut m (execCollectiveStart vd comm s) := by
  unfold execCollectiveStart
  repeat' first
    | with_reducible assumption
    | with_reducible first
        | apply keep_readInputs | apply keep_raiseColl | apply keep_setColl
        | refine KeptFst.of_eq (by assumption) ?_ | apply kept_next | apply kept_foldl
    | (extract_lets +onlyGivenNames z; refine kept_cut z ?_ ?_; rotate_left; (clear_value z; intro _); rotate_left
       subst z)
    | (extract_lets +onlyGivenNames z; subst z)
    | split | intro _
    | (with_reducible refine KeptFst.of ?_; first
        | apply keep_readInputs | apply keep_raiseColl | apply keep_setColl)
    | (with_reducible refine kept_mk ?_; first
        | assumption | apply keep_readInputs | apply keep_raiseColl | apply keep_setColl
        | refine KeptFst.of_eq (by assumption) ?_ | apply kept_foldl)

theorem keep_execCollectiveCombine (vd : _) (comm : _) {s : State} (h : Kept m s) :
    KeptOut m (execCollectiveCombine vd comm s) := by
  unfold execCollectiveCombine
  repeat' first
    | with_reducible assumption
    | with_reducible first
        | apply keep_setColl | apply kept_next
    | split | intro _
    | (with_reducible refine kept_mk ?_; first | assumption | apply keep_setColl)

theorem keep_writeOutput (c : _) (p : _) (x2 : _) (x3 : _) {x4 : State} (h : Kept m x4) :
    KeptFst m (writeOutput c p x2 x3 x4) := by
  induction x3 generalizing c p x2 x4 with
  | nil =>
    unfold writeOutput
    repeat' first
      | with_reducible assumption
      | with_reducible first
          | apply keep_storeVA | apply ih | refine KeptFst.of_eq (by assumption) ?_
      | (extract_lets +onlyGivenNames z; refine kept_cut z ?_ ?_; rotate_left; (clear_value z; intro _); rotate_left
         subst z)
      | (extract_lets +onlyGivenNames z; subst z)
      | split | (with_reducible apply kept_pair)
      | (with_reducible refine KeptFst.of ?_; first | apply keep_storeVA | apply ih)
      | (with_reducible refine kept_mk ?_; first
          | assumption | apply keep_storeVA | apply ih | refine KeptFst.of_eq (by assumption) ?_)
  | cons a l ih =>
    unfold writeOutput
    repeat' first
      | with_reducible assumption
      | with_reducible first
          | apply keep_storeVA | apply ih | refine KeptFst.of_eq (by assumption) ?_
      | (extract_lets +onlyGivenNames z; refine kept_cut z ?_ ?_; rotate_left; (clear_value z; intro _); rotate_left
         subst z)
      | (extract_lets +onlyGivenNames z; subst z)
      | split | (with_reducible apply kept_pair)
      | (with_reducible refine KeptFst.of ?_; first | apply keep_storeVA | apply ih)
      | (with_reducible refine kept_mk ?_; first
          | assumption | apply keep_storeVA | apply ih | refine KeptFst.of_eq (by assumption) ?_)

theorem keep_endPart {s : State} (key : _) (c : _) (p : _) (status : _) (h : Kept m s) :
    Kept m (endPart s key c p status) := by
  unfold endPart
  repeat' first
    | with_reducible assumption
    | with_reducible first
        | apply keep_tidyColls | apply keep_keepColl | apply keep_post | apply keep_setLaunch
    | (extract_lets +onlyGivenNames z; refine kept_cut z ?_ ?_; rotate_left; (clear_value z; intro _); rotate_left
       subst z)
    | (extract_lets +onlyGivenNames z; subst z)
    | split | intro _
    | (with_reducible refine kept_mk ?_; first
        | assumption | apply keep_tidyColls | apply keep_keepColl | apply keep_post | apply keep_setLaunch)

theorem keep_execCollectiveComplete (vd : _) (comm : _) {s : State} (h : Kept m s) :
    KeptOut m (execCollectiveComplete vd comm s) := by
  unfold execCollectiveComplete
  repeat' first
    | with_reducible assumption
    | with_reducible first
        | apply keep_endPart | apply keep_writeOutput | apply keep_collFault | apply keep_setColl
        | apply keep_raiseFlags | apply keep_subPend | refine KeptFst.of_eq (by assumption) ?_ | apply kept_next
        | apply kept_findSome | apply kept_some | apply kept_none
    | (extract_lets +onlyGivenNames z; refine kept_cut z ?_ ?_; rotate_left; (clear_value z; intro _); rotate_left
       subst z)
    | (extract_lets +onlyGivenNames z; subst z)
    | split | intro _
    | (with_reducible refine KeptFst.of ?_; first
        | apply keep_endPart | apply keep_writeOutput | apply keep_collFault | apply keep_setColl
        | apply keep_raiseFlags | apply keep_subPend)
    | (with_reducible refine kept_mk ?_; first
        | assumption | apply keep_endPart | apply keep_writeOutput | apply keep_collFault | apply keep_setColl
        | apply keep_raiseFlags | apply keep_subPend | refine KeptFst.of_eq (by assumption) ?_)

theorem keep_abandonPart {s : State} (key : _) (c : _) (p : _) (h : Kept m s) :
    Kept m (abandonPart s key c p) := by
  unfold abandonPart
  repeat' first
    | with_reducible assumption
    | with_reducible first
        | apply keep_endPart | apply keep_scatterPart | apply keep_raiseFlags | apply keep_subPend
        | apply kept_bind | apply kept_some | apply kept_none
    | (extract_lets +onlyGivenNames z; refine kept_cut z ?_ ?_; rotate_left; (clear_value z; intro _); rotate_left
       subst z)
    | (extract_lets +onlyGivenNames z; subst z)
    | split | intro _
    | (with_reducible refine kept_mk ?_; first
        | assumption | apply keep_endPart | apply keep_scatterPart | apply keep_raiseFlags | apply keep_subPend)

theorem keep_abandonAway {s : State} (vd : _) (comm : _) (h : Kept m s) :
    Kept m (abandonAway s vd comm) := by
  unfold abandonAway
  repeat' first
    | with_reducible assumption
    | with_reducible first
        | apply keep_setColl
    | split | intro _
    | (with_reducible refine kept_mk ?_; first | assumption | apply keep_setColl)

theorem keep_execCollectiveAbandon (vd : _) (comm : _) {s : State} (h : Kept m s) :
    KeptOut m (execCollectiveAbandon vd comm s) := by
  unfold execCollectiveAbandon
  repeat' first
    | with_reducible assumption
    | with_reducible first
        | apply keep_abandonAway | apply keep_abandonPart | apply kept_next | apply kept_findSome
        | apply kept_some | apply kept_none
    | split | intro _
    | (with_reducible refine KeptFst.of ?_; first | apply keep_abandonAway | apply keep_abandonPart)
    | (with_reducible refine kept_mk ?_; first | assumption | apply keep_abandonAway | apply keep_abandonPart)

end Sys2Proof.Laws
end

