-- ==== Sys2Proof/Laws/KeepModule.lean ====
section
/-!
SUPPORT. Every function keeps the machine sound (Laws/Keep.lean): pre-emption, security, system registers, faults, the clock, leases, host messages and the integer instructions.
-/
set_option Elab.async false
set_option linter.all false
namespace Sys2Proof.Laws
open Sys2Proof.Machine

variable {m : Nat}

/-! ## Machine/Preempt.lean -/

theorem keep_postCap {s : State} (lseq : _) (event : _) (ukind : _) (unit : _) (count : _) (h : Kept m s) :
    Kept m (postCap s lseq event ukind unit count) := by
  unfold postCap
  repeat' first
    | with_reducible assumption
    | with_reducible first
        | apply keep_modLaunch
    | intro _
    | (with_reducible refine kept_mk ?_; first | assumption | apply keep_modLaunch)

theorem keep_flushCap {s : State} (l : _) (h : Kept m s) :
    Kept m (flushCap s l) := by
  unfold flushCap
  repeat' first
    | with_reducible assumption
    | with_reducible first
        | apply keep_modLaunch | apply keep_post | apply kept_foldl
    | (extract_lets +onlyGivenNames z; refine kept_cut z ?_ ?_; rotate_left; (clear_value z; intro _); rotate_left
       subst z)
    | (extract_lets +onlyGivenNames z; subst z)
    | split | intro _
    | (with_reducible refine KeptFst.of ?_; first | apply keep_modLaunch | apply keep_post)
    | (with_reducible refine kept_mk ?_; first
        | assumption | apply keep_modLaunch | apply keep_post | apply kept_foldl)

theorem keep_drainOnce {s : State} (l : _) (k : _) (h : Kept m s) :
    KeptOpt m (drainOnce s l k) := by
  unfold drainOnce
  repeat' first
    | with_reducible assumption
    | with_reducible first
        | apply keep_landOnce | apply keep_leaveRecv | apply keep_crossOnce
        | refine KeptOpt.of_eq (by assumption) ?_ | apply kept_some | apply kept_none | apply kept_orElse
    | intro _

theorem keep_drainChan (lseq : _) (k : _) (x2 : _) {x3 : State} (h : Kept m x3) :
    Kept m (drainChan lseq k x2 x3) := by
  induction x2 generalizing lseq k x3 with
  | zero =>
    unfold drainChan
    repeat' first
      | with_reducible assumption
      | with_reducible first
          | apply keep_drainOnce | apply ih | refine KeptOpt.of_eq (by assumption) ?_
      | split
      | (with_reducible refine kept_mk ?_; first
          | assumption | apply keep_drainOnce | apply ih | refine KeptOpt.of_eq (by assumption) ?_)
  | succ n ih =>
    unfold drainChan
    repeat' first
      | with_reducible assumption
      | with_reducible first
          | apply keep_drainOnce | apply ih | refine KeptOpt.of_eq (by assumption) ?_
      | split
      | (with_reducible refine kept_mk ?_; first
          | assumption | apply keep_drainOnce | apply ih | refine KeptOpt.of_eq (by assumption) ?_)

theorem keep_leaveBuffers (lseq : _) {s : State} (k : _) (h : Kept m s) :
    Kept m (leaveBuffers lseq s k) := by
  unfold leaveBuffers
  repeat' first
    | with_reducible assumption
    | with_reducible first
        | apply keep_modLaunch
    | (extract_lets +onlyGivenNames z; refine kept_cut z ?_ ?_; rotate_left; (clear_value z; intro _); rotate_left
       subst z)
    | (extract_lets +onlyGivenNames z; subst z)
    | intro _
    | (with_reducible refine kept_mk ?_; first | assumption | apply keep_modLaunch)

theorem keep_drainLinks {s : State} (l : _) (h : Kept m s) :
    Kept m (drainLinks s l) := by
  unfold drainLinks
  repeat' first
    | with_reducible assumption
    | with_reducible first
        | apply keep_leaveBuffers | apply keep_drainChan | apply kept_foldl
    | (extract_lets +onlyGivenNames z; refine kept_cut z ?_ ?_; rotate_left; (clear_value z; intro _); rotate_left
       subst z)
    | (extract_lets +onlyGivenNames z; subst z)
    | intro _

theorem keep_wakeDrained {s : State} (lseq : _) (h : Kept m s) :
    Kept m (wakeDrained s lseq) := by
  unfold wakeDrained
  repeat' first
    | with_reducible assumption
    | with_reducible first
        | apply keep_completeWait | apply kept_foldl
    | split | intro _
    | (with_reducible refine KeptFst.of ?_; first | apply keep_completeWait)

theorem keep_freezeLaunch {s : State} (l : _) (why : _) (h : Kept m s) :
    Kept m (freezeLaunch s l why) := by
  unfold freezeLaunch
  repeat' first
    | with_reducible assumption
    | with_reducible first
        | apply keep_wakeDrained | apply keep_drainLinks | apply keep_modLaunch | apply kept_foldl
    | (extract_lets +onlyGivenNames z; refine kept_cut z ?_ ?_; rotate_left; (clear_value z; intro _); rotate_left
       subst z)
    | (extract_lets +onlyGivenNames z; subst z)
    | split | intro _
    | (with_reducible refine KeptFst.of ?_; first
        | apply keep_wakeDrained | apply keep_drainLinks | apply keep_modLaunch)
    | (with_reducible refine kept_mk ?_; first
        | assumption | apply keep_wakeDrained | apply keep_drainLinks | apply keep_modLaunch | apply kept_foldl)

theorem keep_checkpointChan (lseq : _) {s : State} (k : _) (h : Kept m s) :
    Kept m (checkpointChan lseq s k) := by
  unfold checkpointChan
  repeat' first
    | with_reducible assumption
    | with_reducible first
        | apply keep_dropHolder | apply keep_setLaunch | apply kept_foldl
    | (extract_lets +onlyGivenNames z; refine kept_cut z ?_ ?_; rotate_left; (clear_value z; intro _); rotate_left
       subst z)
    | (extract_lets +onlyGivenNames z; subst z)
    | split | intro _
    | (with_reducible refine KeptFst.of ?_; first | apply keep_dropHolder | apply keep_setLaunch)
    | (with_reducible refine kept_mk ?_; first
        | assumption | apply keep_dropHolder | apply keep_setLaunch | apply kept_foldl)

theorem keep_cutEdges (own : _) {s : State} (p : _) (h : Kept m s) :
    Kept m (cutEdges own s p) := by
  unfold cutEdges
  repeat' first
    | with_reducible assumption
    | with_reducible first
        | apply keep_dropHolder | apply keep_setPlot | apply kept_foldl
    | (extract_lets +onlyGivenNames z; refine kept_cut z ?_ ?_; rotate_left; (clear_value z; intro _); rotate_left
       subst z)
    | (extract_lets +onlyGivenNames z; subst z)
    | split | intro _
    | (with_reducible refine KeptFst.of ?_; first | apply keep_dropHolder | apply keep_setPlot)
    | (with_reducible refine kept_mk ?_; first
        | assumption | apply keep_dropHolder | apply keep_setPlot | apply kept_foldl)

theorem keep_backPage (l : Launch) (ix p : Nat) {x : State × Assoc (Option Nat)} (page : Nat) (h : KeptFst m x) :
    KeptFst m (backPage l ix p x page) := by
  unfold backPage
  split
  have h' : Kept m _ := h.of
  extract_lets key
  split
  · exact kept_pair _ h'
  · extract_lets pa k s'
    refine iteInduction (fun _ => kept_pair _ h') fun _ => kept_pair _ (kept_mk (keep_fillFrame _ _ _ h'))

theorem keep_backPlot (l : Launch) {x : State × Assoc (Option Nat)} (ixp : Nat × Nat) (h : KeptFst m x) :
    KeptFst m (backPlot l x ixp) := by
  unfold backPlot
  extract_lets still
  exact kept_foldl_fst (fun y page hy => keep_backPage _ _ _ _ hy) (kept_pair _ h.of)

theorem keep_saveThread (l : _) {s : State} (tid : _) (t : _) (h : Kept m s) :
    Kept m (saveThread l s tid t) := by
  unfold saveThread
  repeat' first
    | with_reducible assumption
    | with_reducible first
        | apply keep_moveRecords | apply keep_setThread
    | (extract_lets +onlyGivenNames z; refine kept_cut z ?_ ?_; rotate_left; (clear_value z; intro _); rotate_left
       subst z)
    | (extract_lets +onlyGivenNames z; subst z)
    | split
    | (with_reducible refine kept_mk ?_; first | assumption | apply keep_moveRecords | apply keep_setThread)

theorem keep_saveLaunch {s : State} (l : Launch) (h : Kept m s) : Kept m (saveLaunch s l) := by
  unfold saveLaunch
  extract_lets own s1 s2 s3
  have h1 : Kept m s1 := kept_foldl (fun s k hs => keep_checkpointChan _ _ hs) h
  have h2 : Kept m s2 := kept_foldl (fun s k hs => keep_showStores _ _ hs) h1
  have h3 : Kept m s3 := kept_foldl (fun s k hs => keep_cutEdges _ _ hs) h2
  split
  rename_i s4 pages e
  have h4 : Kept m s4 := KeptFst.of_eq e (kept_foldl_fst (fun y p hy => keep_backPlot _ _ hy) (kept_pair _ h3))
  extract_lets img s5 s6 s7
  have h5 : Kept m s5 := kept_foldl (fun s k hs => keep_setPlot _ _ hs) h4
  have h6 : Kept m s6 := kept_foldl (fun s k hs => keep_saveThread _ _ _ hs) h5
  exact keep_plotsReleased _ (kept_foldl (fun s p hs => keep_releasePlot _ hs) (keep_modLaunch _ _ h6))

theorem keep_execFrozenStateStreamedOut (lseq : _) {s : State} (h : Kept m s) :
    KeptOut m (execFrozenStateStreamedOut lseq s) := by
  unfold execFrozenStateStreamedOut
  repeat' first
    | with_reducible assumption
    | with_reducible first
        | apply keep_saveLaunch | apply kept_next
    | split
    | (with_reducible refine kept_mk ?_; first | assumption | apply keep_saveLaunch)

theorem keep_restorePlot (l : Launch) (ms : Assoc (Assoc Nat)) (new : Placed) {s : State} (ix : Nat) (x : Plot) (h : Kept m s) :
    Kept m (restorePlot l ms new s ix x) := by
  unfold restorePlot
  extract_lets p mv y s1 s2 s3
  have h' : Kept m s1 := keep_emptyScratch _ h
  refine kept_foldl (fun s e hs => keep_setPe _ _ hs) (keep_setPlot _ _ ?_)
  exact kept_mem h' (foldl_wf _ (fun a c hm => memPut_wf _ _ hm) _ h'.wf) rfl rfl

theorem keep_restoreMiscompares (l : _) (new : _) {s : State} (ix : _) (x : _) (h : Kept m s) :
    Kept m (restoreMiscompares l new s ix x) := by
  unfold restoreMiscompares
  repeat' first
    | with_reducible assumption
    | with_reducible first
        | apply keep_addScore | apply keep_raiseFault | apply kept_foldl
    | (extract_lets +onlyGivenNames z; refine kept_cut z ?_ ?_; rotate_left; (clear_value z; intro _); rotate_left
       subst z)
    | (extract_lets +onlyGivenNames z; subst z)
    | intro _

theorem keep_moveParts {s : State} (l : _) (new : _) (h : Kept m s) :
    Kept m (moveParts s l new) := by
  unfold moveParts
  repeat' first
    | with_reducible assumption
    | split | intro _
    | (with_reducible refine kept_mk ?_; first | assumption)

theorem keep_requeue {s : State} (l : _) (new : _) (h : Kept m s) :
    Kept m (requeue s l new) := by
  unfold requeue
  repeat' first
    | with_reducible assumption
    | with_reducible first
        | apply keep_setPlot | apply kept_foldl
    | (extract_lets +onlyGivenNames z; refine kept_cut z ?_ ?_; rotate_left; (clear_value z; intro _); rotate_left
       subst z)
    | (extract_lets +onlyGivenNames z; subst z)
    | intro _
    | (with_reducible refine KeptFst.of ?_; first | apply keep_setPlot)
    | (with_reducible refine kept_mk ?_; first | assumption | apply keep_setPlot | apply kept_foldl)

theorem keep_reholdRecords {s : State} (l : _) (new : _) (h : Kept m s) :
    Kept m (reholdRecords s l new) := by
  unfold reholdRecords
  repeat' first
    | with_reducible assumption
    | with_reducible first
        | apply keep_setPlot | apply kept_foldl
    | (extract_lets +onlyGivenNames z; refine kept_cut z ?_ ?_; rotate_left; (clear_value z; intro _); rotate_left
       subst z)
    | (extract_lets +onlyGivenNames z; subst z)
    | intro _
    | (with_reducible refine KeptFst.of ?_; first | apply keep_setPlot)
    | (with_reducible refine kept_mk ?_; first | assumption | apply keep_setPlot | apply kept_foldl)

theorem keep_restoreInto {s : State} (l : _) (new : _) (shadow : _) (h : Kept m s) :
    Kept m (restoreInto s l new shadow) := by
  unfold restoreInto
  repeat' first
    | with_reducible assumption
    | with_reducible first
        | apply keep_reholdRecords | apply keep_requeue | apply keep_moveParts | apply keep_restoreMiscompares
        | apply keep_restorePlot | apply keep_rememberPlots | apply keep_arbitrate | apply keep_setLaunch
        | apply kept_foldl
    | (extract_lets +onlyGivenNames z; refine kept_cut z ?_ ?_; rotate_left; (clear_value z; intro _); rotate_left
       subst z)
    | (extract_lets +onlyGivenNames z; subst z)
    | split | intro _
    | (with_reducible refine KeptFst.of ?_; first
        | apply keep_reholdRecords | apply keep_requeue | apply keep_moveParts | apply keep_restoreMiscompares
        | apply keep_restorePlot | apply keep_rememberPlots | apply keep_arbitrate | apply keep_setLaunch)
    | (with_reducible refine kept_mk ?_; first
        | assumption | apply keep_reholdRecords | apply keep_requeue | apply keep_moveParts
        | apply keep_restoreMiscompares | apply keep_restorePlot | apply keep_rememberPlots | apply keep_arbitrate
        | apply keep_setLaunch | apply kept_foldl)

theorem keep_unfreeze {s : State} (lseq : _) (h : Kept m s) :
    Kept m (unfreeze s lseq) := by
  unfold unfreeze
  repeat' first
    | with_reducible assumption
    | with_reducible first
        | apply keep_modLaunch
    | intro _
    | (with_reducible refine kept_mk ?_; first | assumption | apply keep_modLaunch)

theorem keep_reportRestore {s : State} (l : _) (h : Kept m s) :
    Kept m (reportRestore s l) := by
  unfold reportRestore
  repeat' first
    | with_reducible assumption
    | with_reducible first
        | apply keep_postCap | apply keep_modLaunch
    | (extract_lets +onlyGivenNames z; refine kept_cut z ?_ ?_; rotate_left; (clear_value z; intro _); rotate_left
       subst z)
    | (extract_lets +onlyGivenNames z; subst z)
    | split | intro _
    | (with_reducible refine kept_mk ?_; first | assumption | apply keep_postCap | apply keep_modLaunch)

theorem keep_restoreNow {s : State} (l : _) (h : Kept m s) :
    Kept m (restoreNow s l) := by
  unfold restoreNow
  repeat' first
    | with_reducible assumption
    | with_reducible first
        | apply keep_reportRestore | apply keep_unfreeze | apply keep_restoreInto | apply kept_bind
        | apply kept_some | apply kept_none
    | split | intro _
    | (with_reducible refine kept_mk ?_; first
        | assumption | apply keep_reportRestore | apply keep_unfreeze | apply keep_restoreInto)

theorem keep_execRestore (lseq : _) {s : State} (h : Kept m s) :
    KeptOut m (execRestore lseq s) := by
  unfold execRestore
  repeat' first
    | with_reducible assumption
    | with_reducible first
        | apply keep_restoreNow | apply kept_next
    | split
    | (with_reducible refine kept_mk ?_; first | assumption | apply keep_restoreNow)

theorem keep_nextContext {s : State} (out : Launch) (h : Kept m s) : Kept m (nextContext s out) := by
  unfold nextContext
  extract_lets next held s'
  refine iteInduction (fun _ => ?_) fun _ => kept_mk h
  refine kept_foldl (fun s x hs => kept_getD ?_ hs) (keep_saveLaunch _ (kept_mk h))
  exact kept_map fun l _ => keep_restoreNow _ hs

theorem keep_execPreemption (lseq : _) {s : State} (h : Kept m s) :
    KeptOut m (execPreemption lseq s) := by
  unfold execPreemption
  repeat' first
    | with_reducible assumption
    | with_reducible first
        | apply keep_nextContext | apply keep_freezeLaunch | apply kept_next
    | (extract_lets +onlyGivenNames z; refine kept_cut z ?_ ?_; rotate_left; (clear_value z; intro _); rotate_left
       subst z)
    | (extract_lets +onlyGivenNames z; subst z)
    | split
    | (with_reducible refine kept_mk ?_; first | assumption | apply keep_nextContext | apply keep_freezeLaunch)

theorem keep_relocate {s : State} (l : _) (free : _) (h : Kept m s) :
    KeptOpt m (relocate s l free) := by
  unfold relocate
  repeat' first
    | with_reducible assumption
    | with_reducible first
        | apply keep_unfreeze | apply keep_restoreInto | apply keep_saveLaunch | apply keep_freezeLaunch
        | apply kept_some | apply kept_none | apply kept_map | apply kept_bind
    | (extract_lets +onlyGivenNames z; refine kept_cut z ?_ ?_; rotate_left; (clear_value z; intro _); rotate_left
       subst z)
    | (extract_lets +onlyGivenNames z; subst z)
    | split | intro _
    | (with_reducible refine kept_mk ?_; first
        | assumption | apply keep_unfreeze | apply keep_restoreInto | apply keep_saveLaunch
        | apply keep_freezeLaunch)

theorem keep_execRelocation (lseq : _) {s : State} (h : Kept m s) :
    KeptOut m (execRelocation lseq s) := by
  unfold execRelocation
  repeat' first
    | with_reducible assumption
    | with_reducible first
        | apply keep_relocate | refine KeptOpt.of_eq (by assumption) ?_ | apply kept_next | apply kept_getD
    | split
    | (with_reducible refine kept_mk ?_; first
        | assumption | apply keep_relocate | refine KeptOpt.of_eq (by assumption) ?_)

/-! ## Machine/Secure.lean -/

theorem keep_putSlot {s : State} (k : _) (x : _) (h : Kept m s) :
    Kept m (putSlot s k x) := by
  unfold putSlot
  repeat' first
    | with_reducible assumption
    | (with_reducible refine kept_mk ?_; first | assumption)

theorem keep_setVd {s : State} (v : _) (x : _) (h : Kept m s) :
    Kept m (setVd s v x) := by
  unfold setVd
  repeat' first
    | with_reducible assumption
    | (with_reducible refine kept_mk ?_; first | assumption)

theorem keep_engOpen {s : State} (v : _) (vd : _) (k : _) (h : Kept m s) :
    KeptOpt m (engOpen s v vd k) := by
  unfold engOpen
  repeat' first
    | with_reducible assumption
    | with_reducible first
        | apply keep_setVd | apply keep_putSlot | apply kept_some | apply kept_none
    | (extract_lets +onlyGivenNames z; refine kept_cut z ?_ ?_; rotate_left; (clear_value z; intro _); rotate_left
       subst z)
    | (extract_lets +onlyGivenNames z; subst z)
    | split
    | (with_reducible refine kept_mk ?_; first | assumption | apply keep_setVd | apply keep_putSlot)

theorem keep_zeroRanges {s : State} (rs : List (Nat × Nat)) (h : Kept m s) : Kept m (zeroRanges s rs) :=
  have hs := kept_foldl (l := rs) (fun _ r hs => keep_landStores r.1 r.2 hs) h
  kept_mem hs (filter_wf _ hs.wf) rfl rfl

theorem keep_scrub {s : State} (k : _) (quiet : _) (h : Kept m s) :
    Kept m (scrub s k quiet) := by
  unfold scrub
  repeat' first
    | with_reducible assumption
    | with_reducible first
        | apply keep_zeroRanges | apply keep_putSlot | apply keep_endLaunch | apply kept_foldl
    | (extract_lets +onlyGivenNames z; refine kept_cut z ?_ ?_; rotate_left; (clear_value z; intro _); rotate_left
       subst z)
    | (extract_lets +onlyGivenNames z; subst z)
    | intro _
    | (with_reducible refine KeptFst.of ?_; first
        | apply keep_zeroRanges | apply keep_putSlot | apply keep_endLaunch)
    | (with_reducible refine kept_mk ?_; first
        | assumption | apply keep_zeroRanges | apply keep_putSlot | apply keep_endLaunch | apply kept_foldl)

theorem keep_engClose {s : State} (v : _) (vd : _) (k : _) (h : Kept m s) :
    KeptOpt m (engClose s v vd k) := by
  unfold engClose
  repeat' first
    | with_reducible assumption
    | with_reducible first
        | apply keep_scrub | apply keep_setVd | apply keep_putSlot | apply kept_some | apply kept_none
    | (extract_lets +onlyGivenNames z; refine kept_cut z ?_ ?_; rotate_left; (clear_value z; intro _); rotate_left
       subst z)
    | (extract_lets +onlyGivenNames z; subst z)
    | split
    | (with_reducible refine kept_mk ?_; first
        | assumption | apply keep_scrub | apply keep_setVd | apply keep_putSlot)

theorem keep_engGrant {s : State} (v : _) (k : _) (peer : _) (h : Kept m s) :
    KeptOpt m (engGrant s v k peer) := by
  unfold engGrant
  repeat' first
    | with_reducible assumption
    | with_reducible first
        | apply keep_putSlot | apply kept_some | apply kept_none
    | (extract_lets +onlyGivenNames z; refine kept_cut z ?_ ?_; rotate_left; (clear_value z; intro _); rotate_left
       subst z)
    | (extract_lets +onlyGivenNames z; subst z)
    | split
    | (with_reducible refine kept_mk ?_; first | assumption | apply keep_putSlot)

theorem keep_engctlWrite {s : State} (v : _) (vd : _) (w : _) (h : Kept m s) :
    KeptOpt m (engctlWrite s v vd w) := by
  unfold engctlWrite
  repeat' first
    | with_reducible assumption
    | with_reducible first
        | apply keep_engGrant | apply keep_engClose | apply keep_engOpen | apply keep_setVd
        | refine KeptOpt.of_eq (by assumption) ?_ | apply kept_some | apply kept_none
    | (extract_lets +onlyGivenNames z; refine kept_cut z ?_ ?_; rotate_left; (clear_value z; intro _); rotate_left
       subst z)
    | (extract_lets +onlyGivenNames z; subst z)
    | split
    | (with_reducible refine kept_mk ?_; first
        | assumption | apply keep_engGrant | apply keep_engClose | apply keep_engOpen | apply keep_setVd
        | refine KeptOpt.of_eq (by assumption) ?_)

theorem keep_execMonitorWindowEnd (v : _) (mon : _) {s : State} (h : Kept m s) :
    KeptOut m (execMonitorWindowEnd v mon s) := by
  unfold execMonitorWindowEnd
  repeat' first
    | with_reducible assumption
    | with_reducible first
        | apply keep_setVd | apply kept_next
    | split
    | (with_reducible refine kept_mk ?_; first | assumption | apply keep_setVd)

theorem keep_execLogBlockSeal (v : _) (mon : _) {s : State} (h : Kept m s) :
    KeptOut m (execLogBlockSeal v mon s) := by
  unfold execLogBlockSeal
  repeat' first
    | with_reducible assumption
    | with_reducible first
        | apply keep_setVd | apply kept_next
    | split
    | (with_reducible refine kept_mk ?_; first | assumption | apply keep_setVd)

theorem keep_monitorWrite {s : State} (v : _) (vd : _) (lseq : _) (lim : _) (w : _) (h : Kept m s) :
    Kept m (monitorWrite s v vd lseq lim w) := by
  unfold monitorWrite
  repeat' first
    | with_reducible assumption
    | with_reducible first
        | apply keep_setVd
    | (extract_lets +onlyGivenNames z; refine kept_cut z ?_ ?_; rotate_left; (clear_value z; intro _); rotate_left
       subst z)
    | (extract_lets +onlyGivenNames z; subst z)
    | split
    | (with_reducible refine kept_mk ?_; first | assumption | apply keep_setVd)

/-! ## Machine/Sys.lean -/

theorem keep_mapLaunch {s : State} (lseq : _) (f : _) (h : Kept m s) :
    KeptOpt m (mapLaunch s lseq f) := by
  unfold mapLaunch
  repeat' first
    | with_reducible assumption
    | with_reducible first
        | apply keep_setLaunch | apply kept_next | apply kept_fault | apply kept_foldl | apply kept_some
        | apply kept_none | apply kept_some_pair | apply kept_none_pair | apply kept_ok | apply kept_error
        | apply kept_ok_some | apply kept_ok_none | apply kept_map | apply kept_map_fst | apply kept_map_exc
        | apply kept_ok_opt | apply kept_error_opt | apply kept_getD
    | (extract_lets +onlyGivenNames z; refine kept_cut z ?_ ?_; rotate_left; (clear_value z; intro _); rotate_left
       subst z)
    | (extract_lets +onlyGivenNames z; subst z)
    | split | intro _ | (with_reducible apply kept_pair)
    | (with_reducible refine KeptFst.of ?_; first | apply keep_setLaunch)
    | (with_reducible refine kept_mk ?_; first | assumption | apply keep_setLaunch)

theorem keep_sharedWrite {s : State} (t : Thread) (n : Nat) (v : Word) (h : Kept m s) : KeptExc m (sharedWrite s t n v) := by
  unfold sharedWrite
  extract_lets w vd via
  have hv : ∀ f, KeptExc m (via f) := by
    intro f
    simp only [via]
    split
    · rename_i s' e
      exact kept_ok ((keep_mapLaunch _ _ h).of e)
    · exact kept_error _
  split
  · exact kept_ok h
  · repeat' first
      | exact hv _
      | split
      | exact kept_error _
      | exact kept_ok (keep_setVd _ _ h)
      | exact kept_ok (keep_monitorWrite _ _ _ _ _ h)
      | exact kept_ok ((keep_engctlWrite _ _ _ h).of (by assumption))

theorem keep_execMfs (d : _) (sr : _) {s : State} (h : Kept m s) :
    KeptOut m (execMfs d sr s) := by
  unfold execMfs
  repeat' first
    | with_reducible assumption
    | with_reducible first
        | apply keep_done | apply keep_instr | apply keep_trap | apply kept_next
    | split | intro _
    | (with_reducible refine kept_mk ?_; first | assumption | apply keep_done | apply keep_instr | apply keep_trap)

theorem keep_sysWrite (sr : _) (x1 : _) {s : State} (h : Kept m s) :
    KeptOut m (sysWrite sr x1 s) := by
  unfold sysWrite
  repeat' first
    | with_reducible assumption
    | with_reducible first
        | apply keep_sharedWrite | apply keep_done | apply keep_instr | apply keep_trap | apply keep_showStores
        | refine KeptExc.of_eq (by assumption) ?_ | apply kept_next
    | (extract_lets +onlyGivenNames z; refine kept_cut z ?_ ?_; rotate_left; (clear_value z; intro _); rotate_left
       subst z)
    | (extract_lets +onlyGivenNames z; subst z)
    | split | intro _
    | (with_reducible refine kept_mk ?_; first
        | assumption | apply keep_sharedWrite | apply keep_done | apply keep_instr | apply keep_trap
        | apply keep_showStores | refine KeptExc.of_eq (by assumption) ?_)

theorem keep_execMts (sr : _) (x1 : _) {s : State} (h : Kept m s) :
    KeptOut m (execMts sr x1 s) := by
  unfold execMts
  repeat' first
    | with_reducible assumption
    | with_reducible first
        | apply keep_sysWrite | apply kept_next

theorem keep_execEngagementOpen (x0 : _) {s : State} (h : Kept m s) :
    KeptOut m (execEngagementOpen x0 s) := by
  unfold execEngagementOpen
  repeat' first
    | with_reducible assumption
    | with_reducible first
        | apply keep_sysWrite | apply kept_next

theorem keep_execEngagementClose (x0 : _) {s : State} (h : Kept m s) :
    KeptOut m (execEngagementClose x0 s) := by
  unfold execEngagementClose
  repeat' first
    | with_reducible assumption
    | with_reducible first
        | apply keep_sysWrite | apply kept_next

theorem keep_execEngagementGrant (x0 : _) {s : State} (h : Kept m s) :
    KeptOut m (execEngagementGrant x0 s) := by
  unfold execEngagementGrant
  repeat' first
    | with_reducible assumption
    | with_reducible first
        | apply keep_sysWrite | apply kept_next

theorem keep_execEngctlSet (x0 : _) {s : State} (h : Kept m s) :
    KeptOut m (execEngctlSet x0 s) := by
  unfold execEngctlSet
  repeat' first
    | with_reducible assumption
    | with_reducible first
        | apply keep_sysWrite | apply kept_next

theorem keep_execFbstatWrite (x0 : _) {s : State} (h : Kept m s) :
    KeptOut m (execFbstatWrite x0 s) := by
  unfold execFbstatWrite
  repeat' first
    | with_reducible assumption
    | with_reducible first
        | apply keep_sysWrite | apply kept_next

theorem keep_execVdqmaskWrite (x0 : _) {s : State} (h : Kept m s) :
    KeptOut m (execVdqmaskWrite x0 s) := by
  unfold execVdqmaskWrite
  repeat' first
    | with_reducible assumption
    | with_reducible first
        | apply keep_sysWrite | apply kept_next

theorem keep_execMonitorConfigWrite (sr : _) (x1 : _) {s : State} (h : Kept m s) :
    KeptOut m (execMonitorConfigWrite sr x1 s) := by
  unfold execMonitorConfigWrite
  repeat' first
    | with_reducible assumption
    | with_reducible first
        | apply keep_sysWrite | apply kept_next

theorem keep_execTrap (e : _) {s : State} (h : Kept m s) :
    KeptOut m (execTrap e s) := by
  unfold execTrap
  repeat' first
    | with_reducible assumption
    | with_reducible first
        | apply keep_instr | apply keep_trap | apply kept_next
    | intro _

theorem keep_execRett {s : State} (h : Kept m s) :
    KeptOut m (execRett s) := by
  unfold execRett
  repeat' first
    | with_reducible assumption
    | with_reducible first
        | apply keep_instr | apply keep_trap | apply keep_setThread | apply kept_next
    | split | intro _

theorem keep_execWfe {s : State} (h : Kept m s) :
    KeptOut m (execWfe s) := by
  unfold execWfe
  repeat' first
    | with_reducible assumption
    | with_reducible first
        | apply keep_wait | apply keep_done | apply keep_instr | apply kept_next
    | split | intro _

theorem keep_execGetev (p : _) (d : _) {s : State} (h : Kept m s) :
    KeptOut m (execGetev p d s) := by
  unfold execGetev
  repeat' first
    | with_reducible assumption
    | with_reducible first
        | apply keep_done | apply keep_instr | apply keep_setPlot | apply kept_next
    | split | intro _
    | (with_reducible refine kept_mk ?_; first
        | assumption | apply keep_done | apply keep_instr | apply keep_setPlot)

theorem keep_execWrpk (x0 : _) {s : State} (h : Kept m s) :
    KeptOut m (execWrpk x0 s) := by
  unfold execWrpk
  repeat' first
    | with_reducible assumption
    | with_reducible first
        | apply keep_done | apply keep_instr | apply keep_showStores | apply keep_setLaunch | apply kept_next
    | (extract_lets +onlyGivenNames z; refine kept_cut z ?_ ?_; rotate_left; (clear_value z; intro _); rotate_left
       subst z)
    | (extract_lets +onlyGivenNames z; subst z)
    | split | intro _
    | (with_reducible refine kept_mk ?_; first
        | assumption | apply keep_done | apply keep_instr | apply keep_showStores | apply keep_setLaunch)

theorem keep_execMtt (n : _) (x1 : _) {s : State} (h : Kept m s) :
    KeptOut m (execMtt n x1 s) := by
  unfold execMtt
  repeat' first
    | with_reducible assumption
    | with_reducible first
        | apply keep_loadBlock | apply keep_withChecked | apply keep_done | apply keep_instr | apply keep_setPlot
        | refine KeptFst.of_eq (by assumption) ?_ | apply kept_next
    | (extract_lets +onlyGivenNames z; refine kept_cut z ?_ ?_; rotate_left; (clear_value z; intro _); rotate_left
       subst z)
    | (extract_lets +onlyGivenNames z; subst z)
    | intro _
    | (with_reducible refine kept_mk ?_; first
        | assumption | apply keep_loadBlock | apply keep_withChecked | apply keep_done | apply keep_instr
        | apply keep_setPlot | refine KeptFst.of_eq (by assumption) ?_)

/-! ## Machine/Faults.lean -/

theorem keep_holdRecords {s : State} (l : _) (h : Kept m s) :
    Kept m (holdRecords s l) := by
  unfold holdRecords
  repeat' first
    | with_reducible assumption
    | with_reducible first
        | apply keep_post | apply keep_setLaunch
    | (extract_lets +onlyGivenNames z; refine kept_cut z ?_ ?_; rotate_left; (clear_value z; intro _); rotate_left
       subst z)
    | (extract_lets +onlyGivenNames z; subst z)
    | split | intro _
    | (with_reducible refine kept_mk ?_; first | assumption | apply keep_post | apply keep_setLaunch)

theorem keep_recordWritten {s : State} (l : _) (r : _) (h : Kept m s) :
    Kept m (recordWritten s l r) := by
  unfold recordWritten
  repeat' first
    | with_reducible assumption
    | with_reducible first
        | apply keep_endLaunch | apply keep_setLaunch
    | (extract_lets +onlyGivenNames z; refine kept_cut z ?_ ?_; rotate_left; (clear_value z; intro _); rotate_left
       subst z)
    | (extract_lets +onlyGivenNames z; subst z)
    | split
    | (with_reducible refine kept_mk ?_; first | assumption | apply keep_endLaunch | apply keep_setLaunch)

theorem keep_execFaultRecordWrite (lseq : _) {s : State} (h : Kept m s) :
    KeptOut m (execFaultRecordWrite lseq s) := by
  unfold execFaultRecordWrite
  repeat' first
    | with_reducible assumption
    | with_reducible first
        | apply keep_recordWritten | apply keep_holdRecords | apply keep_storeVA
        | refine KeptFst.of_eq (by assumption) ?_ | apply kept_next
    | split
    | (with_reducible refine kept_mk ?_; first
        | assumption | apply keep_recordWritten | apply keep_holdRecords | apply keep_storeVA
        | refine KeptFst.of_eq (by assumption) ?_)

theorem keep_execOwlFire (lseq : _) (part : _) {s : State} (h : Kept m s) :
    KeptOut m (execOwlFire lseq part s) := by
  unfold execOwlFire
  repeat' first
    | with_reducible assumption
    | with_reducible first
        | apply keep_freezeLaunch | apply keep_raiseFault | apply keep_toHostStream | apply kept_next
        | apply kept_fault | apply kept_foldl
    | (extract_lets +onlyGivenNames z; refine kept_cut z ?_ ?_; rotate_left; (clear_value z; intro _); rotate_left
       subst z)
    | (extract_lets +onlyGivenNames z; subst z)
    | split | intro _
    | (with_reducible refine kept_mk ?_; first
        | assumption | apply keep_freezeLaunch | apply keep_raiseFault | apply keep_toHostStream
        | apply kept_foldl)

/-! ## Machine/Clock.lean -/

theorem keep_tick {s : State} (d : _) (h : Kept m s) :
    Kept m (tick s d) := by
  unfold tick
  repeat' first
    | with_reducible assumption
    | intro _
    | (with_reducible refine kept_mk ?_; first | assumption)

theorem keep_flushAll {s : State} (h : Kept m s) :
    Kept m (flushAll s) := by
  unfold flushAll
  repeat' first
    | with_reducible assumption
    | with_reducible first
        | apply keep_flushCap | apply kept_foldl
    | intro _

theorem keep_passSlice {s : State} (old : _) (new : _) (h : Kept m s) :
    Kept m (passSlice s old new) := by
  unfold passSlice
  repeat' first
    | with_reducible assumption
    | split | intro _
    | (with_reducible refine kept_mk ?_; first | assumption)

theorem keep_execTimeSliceEnd (v : _) {s : State} (h : Kept m s) :
    KeptOut m (execTimeSliceEnd v s) := by
  unfold execTimeSliceEnd
  repeat' first
    | with_reducible assumption
    | with_reducible first
        | apply keep_passSlice | apply kept_next
    | split
    | (with_reducible refine kept_mk ?_; first | assumption | apply keep_passSlice)

theorem keep_inheritSlice {s : State} (v : _) (mask : _) (h : Kept m s) :
    Kept m (inheritSlice s v mask) := by
  unfold inheritSlice
  repeat' first
    | with_reducible assumption
    | with_reducible first
        | apply keep_passSlice
    | (extract_lets +onlyGivenNames z; refine kept_cut z ?_ ?_; rotate_left; (clear_value z; intro _); rotate_left
       subst z)
    | (extract_lets +onlyGivenNames z; subst z)
    | split
    | (with_reducible refine kept_mk ?_; first | assumption | apply keep_passSlice)

theorem keep_narrowTo {s : State} (l : _) (v : _) (p : _) (h : Kept m s) :
    KeptOpt m (narrowTo s l v p) := by
  unfold narrowTo
  repeat' first
    | with_reducible assumption
    | with_reducible first
        | apply keep_unfreeze | apply keep_restoreInto | apply keep_saveLaunch | apply keep_freezeLaunch
        | apply keep_postCap | apply keep_modLaunch | apply keep_setLaunch | apply keep_setPlot | apply kept_foldl
        | apply kept_some | apply kept_none | apply kept_map
    | (extract_lets +onlyGivenNames z; refine kept_cut z ?_ ?_; rotate_left; (clear_value z; intro _); rotate_left
       subst z)
    | (extract_lets +onlyGivenNames z; subst z)
    | split | intro _
    | (with_reducible refine KeptFst.of ?_; first
        | apply keep_unfreeze | apply keep_restoreInto | apply keep_saveLaunch | apply keep_freezeLaunch
        | apply keep_postCap | apply keep_modLaunch | apply keep_setLaunch | apply keep_setPlot)
    | (with_reducible refine kept_mk ?_; first
        | assumption | apply keep_unfreeze | apply keep_restoreInto | apply keep_saveLaunch
        | apply keep_freezeLaunch | apply keep_postCap | apply keep_modLaunch | apply keep_setLaunch
        | apply keep_setPlot | apply kept_foldl)

theorem keep_execVariantNarrow (lseq : Nat) {s : State} (h : Kept m s) : KeptOut m (execVariantNarrow lseq s) := by
  unfold execVariantNarrow
  split
  · exact kept_next h
  · split
    · exact kept_next h
    · split
      · refine kept_next (kept_getD ?_ h)
        cases narrowPlace _ _ _ with
        | none => exact kept_none
        | some p => exact keep_narrowTo _ _ _ h
      · exact kept_next h

/-! ## Machine/Lanes.lean -/

theorem keep_postCaps {s : State} (ls : _) (event : _) (u : _) (count : _) (h : Kept m s) :
    Kept m (postCaps s ls event u count) := by
  unfold postCaps
  repeat' first
    | with_reducible assumption
    | with_reducible first
        | apply keep_postCap | apply kept_foldl
    | intro _

/-! ## Machine/Brock.lean -/

theorem keep_uncorrected {s : State} (chan : _) (pa : _) (h : Kept m s) :
    Kept m (uncorrected s chan pa) := by
  unfold uncorrected
  repeat' first
    | with_reducible assumption
    | with_reducible first
        | apply keep_poisonSector
    | (extract_lets +onlyGivenNames z; refine kept_cut z ?_ ?_; rotate_left; (clear_value z; intro _); rotate_left
       subst z)
    | (extract_lets +onlyGivenNames z; subst z)
    | split
    | (with_reducible refine KeptFst.of ?_; first | apply keep_poisonSector)
    | (with_reducible refine kept_mk ?_; first | assumption | apply keep_poisonSector)

theorem keep_execCorrectedError (unit : _) {s : State} (h : Kept m s) :
    KeptOut m (execCorrectedError unit s) := by
  unfold execCorrectedError
  repeat' first
    | with_reducible assumption
    | with_reducible first
        | apply keep_uncorrected | apply keep_addScore | apply kept_next
    | split
    | (with_reducible refine kept_mk ?_; first | assumption | apply keep_uncorrected | apply keep_addScore)

theorem keep_execLinkRetry (unit : _) {s : State} (h : Kept m s) :
    KeptOut m (execLinkRetry unit s) := by
  unfold execLinkRetry
  repeat' first
    | with_reducible assumption
    | with_reducible first
        | apply keep_addScore | apply kept_next
    | split

theorem keep_execScoreDecay {s : State} (h : Kept m s) :
    KeptOut m (execScoreDecay s) := by
  unfold execScoreDecay
  repeat' first
    | with_reducible assumption
    | with_reducible first
        | apply keep_setBrock | apply kept_next
    | split | intro _
    | (with_reducible refine KeptFst.of ?_; first | apply keep_setBrock)
    | (with_reducible refine kept_mk ?_; first | assumption | apply keep_setBrock)

theorem keep_setLeaseSt {s : State} (u : _) (st : _) (h : Kept m s) :
    Kept m (setLeaseSt s u st) := by
  unfold setLeaseSt
  repeat' first
    | with_reducible assumption
    | with_reducible first
        | apply keep_setLease
    | split
    | (with_reducible refine kept_mk ?_; first | assumption | apply keep_setLease)

theorem keep_endLease {s : State} (u : _) (h : Kept m s) :
    Kept m (endLease s u) := by
  unfold endLease
  repeat' first
    | with_reducible assumption
    | with_reducible first
        | apply keep_setBrock
    | (with_reducible refine kept_mk ?_; first | assumption | apply keep_setBrock)

theorem keep_saveForLease {s : State} (l : _) (unit : _) (h : Kept m s) :
    Kept m (saveForLease s l unit) := by
  unfold saveForLease
  repeat' first
    | with_reducible assumption
    | with_reducible first
        | apply keep_saveLaunch | apply keep_modLaunch
    | intro _
    | (with_reducible refine kept_mk ?_; first | assumption | apply keep_saveLaunch | apply keep_modLaunch)

theorem keep_tryPlotLease {s : State} (plot : Nat) (lease : Lease) (h : Kept m s) : KeptOpt m (tryPlotLease s plot lease) := by
  unfold tryPlotLease
  extract_lets begin
  have hb : ∀ s, Kept m s → Kept m (begin s) := fun s hs => keep_setLeaseSt _ _ hs
  split
  · exact kept_some (hb _ h)
  · split
    · refine kept_map fun s' e => ?_
      exact keep_postCap _ _ _ _ _ (hb _ ((keep_relocate _ _ h).of e))
    · exact kept_none

theorem keep_forceLease {s : State} (plot : _) (lease : _) (h : Kept m s) :
    KeptOpt m (forceLease s plot lease) := by
  unfold forceLease
  repeat' first
    | with_reducible assumption
    | with_reducible first
        | apply keep_saveForLease | apply keep_setLeaseSt | apply keep_freezeLaunch | apply keep_postCap
        | apply kept_some | apply kept_none | apply kept_map | apply kept_bind
    | (extract_lets +onlyGivenNames z; refine kept_cut z ?_ ?_; rotate_left; (clear_value z; intro _); rotate_left
       subst z)
    | (extract_lets +onlyGivenNames z; subst z)
    | split | intro _
    | (with_reducible refine kept_mk ?_; first
        | assumption | apply keep_saveForLease | apply keep_setLeaseSt | apply keep_freezeLaunch
        | apply keep_postCap)

theorem keep_execPlotLease (plot : _) {s : State} (h : Kept m s) :
    KeptOut m (execPlotLease plot s) := by
  unfold execPlotLease
  repeat' first
    | with_reducible assumption
    | with_reducible first
        | apply keep_forceLease | apply keep_tryPlotLease | apply keep_setLeaseSt | apply keep_postCap
        | refine KeptOpt.of_eq (by assumption) ?_ | apply kept_next | apply kept_getD | apply kept_bind
        | apply kept_some | apply kept_none
    | split
    | (with_reducible refine kept_mk ?_; first
        | assumption | apply keep_forceLease | apply keep_tryPlotLease | apply keep_setLeaseSt
        | apply keep_postCap | refine KeptOpt.of_eq (by assumption) ?_)

theorem keep_execLeaseDeferredRetry (unit : _) {s : State} (h : Kept m s) :
    KeptOut m (execLeaseDeferredRetry unit s) := by
  unfold execLeaseDeferredRetry
  repeat' first
    | with_reducible assumption
    | with_reducible first
        | apply keep_tryPlotLease | apply keep_setLease | refine KeptOpt.of_eq (by assumption) ?_
        | apply kept_next | apply kept_getD
    | split
    | (with_reducible refine kept_mk ?_; first
        | assumption | apply keep_tryPlotLease | apply keep_setLease | refine KeptOpt.of_eq (by assumption) ?_)

theorem keep_execLeaseForce (plot : _) {s : State} (h : Kept m s) :
    KeptOut m (execLeaseForce plot s) := by
  unfold execLeaseForce
  repeat' first
    | with_reducible assumption
    | with_reducible first
        | apply keep_forceLease | refine KeptOpt.of_eq (by assumption) ?_ | apply kept_next | apply kept_getD
    | split
    | (with_reducible refine kept_mk ?_; first
        | assumption | apply keep_forceLease | refine KeptOpt.of_eq (by assumption) ?_)

theorem keep_farWithdraw {s : State} (unit : _) (h : Kept m s) :
    Kept m (farWithdraw s unit) := by
  unfold farWithdraw
  repeat' first
    | with_reducible assumption
    | with_reducible first
        | apply keep_setBrock
    | split
    | (with_reducible refine kept_mk ?_; first | assumption | apply keep_setBrock)

theorem keep_farReturn {s : State} (unit : _) (h : Kept m s) :
    Kept m (farReturn s unit) := by
  unfold farReturn
  repeat' first
    | with_reducible assumption
    | with_reducible first
        | apply keep_setBrock
    | split
    | (with_reducible refine kept_mk ?_; first | assumption | apply keep_setBrock)

theorem keep_execLaneGroupLease (unit : _) {s : State} (h : Kept m s) :
    KeptOut m (execLaneGroupLease unit s) := by
  unfold execLaneGroupLease
  repeat' first
    | with_reducible assumption
    | with_reducible first
        | apply keep_farWithdraw | apply keep_setLeaseSt | apply keep_postCaps | apply keep_setBrock
        | apply kept_next
    | (extract_lets +onlyGivenNames z; refine kept_cut z ?_ ?_; rotate_left; (clear_value z; intro _); rotate_left
       subst z)
    | (extract_lets +onlyGivenNames z; subst z)
    | split
    | (with_reducible refine kept_mk ?_; first
        | assumption | apply keep_farWithdraw | apply keep_setLeaseSt | apply keep_postCaps | apply keep_setBrock)

theorem keep_startChan {s : State} (u : _) (x : _) (h : Kept m s) :
    Kept m (startChan s u x) := by
  unfold startChan
  repeat' first
    | with_reducible assumption
    | with_reducible first
        | apply keep_setLeaseSt | apply keep_postCaps
    | (extract_lets +onlyGivenNames z; refine kept_cut z ?_ ?_; rotate_left; (clear_value z; intro _); rotate_left
       subst z)
    | (extract_lets +onlyGivenNames z; subst z)
    | split

theorem keep_execMemoryWindowTest (chan : _) (res : _) {s : State} (h : Kept m s) :
    KeptOut m (execMemoryWindowTest chan res s) := by
  unfold execMemoryWindowTest
  repeat' first
    | with_reducible assumption
    | with_reducible first
        | apply keep_startChan | apply keep_uncorrected | apply keep_addScore | apply keep_setLease
        | apply kept_next
    | (extract_lets +onlyGivenNames z; refine kept_cut z ?_ ?_; rotate_left; (clear_value z; intro _); rotate_left
       subst z)
    | (extract_lets +onlyGivenNames z; subst z)
    | split
    | (with_reducible refine kept_mk ?_; first
        | assumption | apply keep_startChan | apply keep_uncorrected | apply keep_addScore | apply keep_setLease)

theorem keep_migrate {s : State} (c : _) (h : Kept m s) :
    KeptOpt m (migrate s c) := by
  unfold migrate
  repeat' first
    | with_reducible assumption
    | with_reducible first
        | apply keep_setBrock | apply kept_foldl | apply kept_some | apply kept_none | apply kept_map
    | (extract_lets +onlyGivenNames z; refine kept_cut z ?_ ?_; rotate_left; (clear_value z; intro _); rotate_left
       subst z)
    | (extract_lets +onlyGivenNames z; subst z)
    | split | intro _
    | (with_reducible refine KeptFst.of ?_; first | apply keep_setBrock)
    | (with_reducible refine kept_mk ?_; first | assumption | apply keep_setBrock | apply kept_foldl)

theorem keep_writePlace (rec : _) (x1 : _) {x2 : State} (h : Kept m x2) :
    KeptFst m (writePlace rec x1 x2) := by
  induction x1 generalizing rec x2 with
  | nil =>
    unfold writePlace
    repeat' first
      | with_reducible assumption
      | with_reducible first
          | apply keep_setBrock | apply ih
      | (extract_lets +onlyGivenNames z; refine kept_cut z ?_ ?_; rotate_left; (clear_value z; intro _); rotate_left
         subst z)
      | (extract_lets +onlyGivenNames z; subst z)
      | split | (with_reducible apply kept_pair)
      | (with_reducible refine kept_mk ?_; first | assumption | apply keep_setBrock | apply ih)
  | cons a l ih =>
    unfold writePlace
    repeat' first
      | with_reducible assumption
      | with_reducible first
          | apply keep_setBrock | apply ih
      | (extract_lets +onlyGivenNames z; refine kept_cut z ?_ ?_; rotate_left; (clear_value z; intro _); rotate_left
         subst z)
      | (extract_lets +onlyGivenNames z; subst z)
      | split | (with_reducible apply kept_pair)
      | (with_reducible refine kept_mk ?_; first | assumption | apply keep_setBrock | apply ih)

theorem keep_keepRecord {s : State} (u : _) (rec : _) (h : Kept m s) :
    Kept m (keepRecord s u rec) := by
  unfold keepRecord
  repeat' first
    | with_reducible assumption
    | with_reducible first
        | apply keep_writePlace | apply keep_setBrock | refine KeptFst.of_eq (by assumption) ?_
    | (extract_lets +onlyGivenNames z; refine kept_cut z ?_ ?_; rotate_left; (clear_value z; intro _); rotate_left
       subst z)
    | (extract_lets +onlyGivenNames z; subst z)
    | split | intro _
    | (with_reducible refine KeptFst.of ?_; first | apply keep_writePlace | apply keep_setBrock)
    | (with_reducible refine kept_mk ?_; first
        | assumption | apply keep_writePlace | apply keep_setBrock | refine KeptFst.of_eq (by assumption) ?_)

theorem keep_dropPlot {s : State} (p : _) (h : Kept m s) :
    Kept m (dropPlot s p) := by
  unfold dropPlot
  repeat' first
    | with_reducible assumption
    | split | intro _
    | (with_reducible refine kept_mk ?_; first | assumption)

theorem keep_retireEffect {s : State} (u : _) (time : _) (serial : _) (users : _) (leased : _) (h : Kept m s) :
    Kept m (retireEffect s u time serial users leased) := by
  unfold retireEffect
  repeat' first
    | with_reducible assumption
    | with_reducible first
        | apply keep_dropPlot | apply keep_keepRecord | apply keep_migrate | apply keep_postCaps
        | apply keep_setBrock | refine KeptOpt.of_eq (by assumption) ?_
    | (extract_lets +onlyGivenNames z; refine kept_cut z ?_ ?_; rotate_left; (clear_value z; intro _); rotate_left
       subst z)
    | (extract_lets +onlyGivenNames z; subst z)
    | split
    | (with_reducible refine kept_mk ?_; first
        | assumption | apply keep_dropPlot | apply keep_keepRecord | apply keep_migrate | apply keep_postCaps
        | apply keep_setBrock | refine KeptOpt.of_eq (by assumption) ?_)

theorem keep_leavePart {s : State} (u : _) (h : Kept m s) :
    Kept m (leavePart s u) := by
  unfold leavePart
  repeat' first
    | with_reducible assumption
    | with_reducible first
        | apply keep_endLease | apply keep_setLease
    | split
    | (with_reducible refine kept_mk ?_; first | assumption | apply keep_endLease | apply keep_setLease)

theorem keep_retireUnit {s : State} (u : _) (reason : _) (pattern : _) (h : Kept m s) :
    Kept m (retireUnit s u reason pattern) := by
  unfold retireUnit
  repeat' first
    | with_reducible assumption
    | with_reducible first
        | apply keep_leavePart | apply keep_retireEffect | apply keep_keepRecord | apply keep_setBrock
    | (extract_lets +onlyGivenNames z; refine kept_cut z ?_ ?_; rotate_left; (clear_value z; intro _); rotate_left
       subst z)
    | (extract_lets +onlyGivenNames z; subst z)
    | intro _
    | (with_reducible refine kept_mk ?_; first
        | assumption | apply keep_leavePart | apply keep_retireEffect | apply keep_keepRecord
        | apply keep_setBrock)

theorem keep_execRetirement (unit : _) {s : State} (h : Kept m s) :
    KeptOut m (execRetirement unit s) := by
  unfold execRetirement
  repeat' first
    | with_reducible assumption
    | with_reducible first
        | apply keep_retireUnit | apply kept_next
    | split
    | (with_reducible refine kept_mk ?_; first | assumption | apply keep_retireUnit)

theorem keep_halve {s : State} (u : _) (h : Kept m s) :
    Kept m (halve s u) := by
  unfold halve
  repeat' first
    | with_reducible assumption
    | with_reducible first
        | apply keep_setScore

theorem keep_returnUnit {s : State} (u : _) (h : Kept m s) :
    Kept m (returnUnit s u) := by
  unfold returnUnit
  repeat' first
    | with_reducible assumption
    | with_reducible first
        | apply keep_halve | apply keep_endLease | apply keep_postCaps | apply keep_setBrock
    | (extract_lets +onlyGivenNames z; refine kept_cut z ?_ ?_; rotate_left; (clear_value z; intro _); rotate_left
       subst z)
    | (extract_lets +onlyGivenNames z; subst z)
    | split
    | (with_reducible refine kept_mk ?_; first
        | assumption | apply keep_halve | apply keep_endLease | apply keep_postCaps | apply keep_setBrock)

theorem keep_execLeaseEnd (unit : _) (res : _) {s : State} (h : Kept m s) :
    KeptOut m (execLeaseEnd unit res s) := by
  unfold execLeaseEnd
  repeat' first
    | with_reducible assumption
    | with_reducible first
        | apply keep_returnUnit | apply keep_retireUnit | apply keep_farReturn | apply keep_addScore
        | apply kept_next
    | (extract_lets +onlyGivenNames z; refine kept_cut z ?_ ?_; rotate_left; (clear_value z; intro _); rotate_left
       subst z)
    | (extract_lets +onlyGivenNames z; subst z)
    | split
    | (with_reducible refine kept_mk ?_; first
        | assumption | apply keep_returnUnit | apply keep_retireUnit | apply keep_farReturn | apply keep_addScore)

theorem keep_execRoutineLease (unit : _) {s : State} (h : Kept m s) :
    KeptOut m (execRoutineLease unit s) := by
  unfold execRoutineLease
  repeat' first
    | with_reducible assumption
    | with_reducible first
        | apply keep_requestLease | apply keep_setBrock | apply kept_next
    | (extract_lets +onlyGivenNames z; refine kept_cut z ?_ ?_; rotate_left; (clear_value z; intro _); rotate_left
       subst z)
    | (extract_lets +onlyGivenNames z; subst z)
    | split
    | (with_reducible refine KeptFst.of ?_; first | apply keep_requestLease | apply keep_setBrock)
    | (with_reducible refine kept_mk ?_; first | assumption | apply keep_requestLease | apply keep_setBrock)

/-! ## Machine/Kcp.lean -/

theorem keep_answer {s : State} (x1 : _) (status : _) (cause : _) (body : _) (h : Kept m s) :
    Kept m (answer s x1 status cause body) := by
  unfold answer
  repeat' first
    | with_reducible assumption
    | with_reducible first
        | apply keep_replyTo

theorem keep_inTurn (i : _) (x1 : _) {s : State} (k : _) (h : Kept m s) (hk : ∀ y0, Kept m y0 → KeptOut m (k y0))
    :
    KeptOut m (inTurn i x1 s k) := by
  unfold inTurn
  repeat' first
    | with_reducible assumption
    | with_reducible first
        | apply hk | apply kept_next
    | (extract_lets +onlyGivenNames z; refine kept_cut z ?_ ?_; rotate_left; (clear_value z; intro _); rotate_left
       subst z)
    | (extract_lets +onlyGivenNames z; subst z)
    | split | intro _
    | (with_reducible refine KeptFst.of ?_; first | apply hk)
    | (with_reducible refine kept_mk ?_; first | assumption | apply hk)

theorem keep_message (i : _) (op : _) (x2 : _) {s : State} (bodyOk : _) (mine : _) (k : _) (h : Kept m s) (hk : ∀
    y0 y1 y2 y3, Kept m y0 → KeptOut m (k y0 y1 y2 y3)) :
    KeptOut m (message i op x2 s bodyOk mine k) := by
  unfold message
  repeat' first
    | with_reducible assumption
    | with_reducible first
        | apply hk | apply keep_inTurn | apply keep_answer | apply kept_next
    | split | intro _
    | (with_reducible refine kept_mk ?_; first | assumption | apply hk | apply keep_inTurn | apply keep_answer)

theorem keep_execOpenVd (x0 : _) {s : State} (h : Kept m s) :
    KeptOut m (execOpenVd x0 s) := by
  unfold execOpenVd
  repeat' first
    | with_reducible assumption
    | with_reducible first
        | apply keep_inTurn | apply keep_answer | apply keep_setVd | apply kept_next
    | split | intro _

theorem keep_dropWaitingOf {s : State} (v : _) (h : Kept m s) :
    Kept m (dropWaitingOf s v) := by
  unfold dropWaitingOf
  repeat' first
    | with_reducible assumption
    | with_reducible first
        | apply keep_launchReply | apply kept_foldl
    | (extract_lets +onlyGivenNames z; refine kept_cut z ?_ ?_; rotate_left; (clear_value z; intro _); rotate_left
       subst z)
    | (extract_lets +onlyGivenNames z; subst z)
    | split | intro _
    | (with_reducible refine kept_mk ?_; first | assumption | apply keep_launchReply | apply kept_foldl)

theorem keep_leaveSlots {s : State} (v : _) (h : Kept m s) :
    Kept m (leaveSlots s v) := by
  unfold leaveSlots
  repeat' first
    | with_reducible assumption
    | with_reducible first
        | apply keep_scrub | apply kept_foldl
    | (extract_lets +onlyGivenNames z; refine kept_cut z ?_ ?_; rotate_left; (clear_value z; intro _); rotate_left
       subst z)
    | (extract_lets +onlyGivenNames z; subst z)
    | intro _
    | (with_reducible refine KeptFst.of ?_; first | apply keep_scrub)
    | (with_reducible refine kept_mk ?_; first | assumption | apply keep_scrub | apply kept_foldl)

theorem keep_execCloseVd (x0 : _) {s : State} (h : Kept m s) :
    KeptOut m (execCloseVd x0 s) := by
  unfold execCloseVd
  repeat' first
    | with_reducible assumption
    | with_reducible first
        | apply keep_leaveSlots | apply keep_dropWaitingOf | apply keep_message | apply keep_answer
        | apply keep_inheritSlice | apply keep_endLaunch | apply kept_next | apply kept_foldl
    | (extract_lets +onlyGivenNames z; refine kept_cut z ?_ ?_; rotate_left; (clear_value z; intro _); rotate_left
       subst z)
    | (extract_lets +onlyGivenNames z; subst z)
    | split | intro _
    | (with_reducible refine KeptFst.of ?_; first
        | apply keep_leaveSlots | apply keep_dropWaitingOf | apply keep_message | apply keep_answer
        | apply keep_inheritSlice | apply keep_endLaunch)
    | (with_reducible refine kept_mk ?_; first
        | assumption | apply keep_leaveSlots | apply keep_dropWaitingOf | apply keep_message | apply keep_answer
        | apply keep_inheritSlice | apply keep_endLaunch | apply kept_foldl)

theorem keep_mapStores {s : State} (b : List Byte) (is : List Nat) (h : Kept m s) : KeptFst m (mapStores b is s) := by
  induction is generalizing s with
  | nil => exact kept_pair _ h
  | cons i is ih =>
    unfold mapStores
    extract_lets pa
    split
    · exact ih (kept_mem h (writeRaw_wf _ _ _ h.wf) rfl rfl)
    · exact kept_pair _ h

theorem keep_invalidate {s : State} (v : _) (va : _) (size : _) (h : Kept m s) :
    Kept m (invalidate s v va size) := by
  unfold invalidate
  repeat' first
    | with_reducible assumption
    | with_reducible first
        | apply keep_dropXt
    | (extract_lets +onlyGivenNames z; refine kept_cut z ?_ ?_; rotate_left; (clear_value z; intro _); rotate_left
       subst z)
    | (extract_lets +onlyGivenNames z; subst z)
    | split | intro _
    | (with_reducible refine KeptFst.of ?_; first | apply keep_dropXt)
    | (with_reducible refine kept_mk ?_; first | assumption | apply keep_dropXt)

theorem keep_execMap (x0 : _) {s : State} (h : Kept m s) :
    KeptOut m (execMap x0 s) := by
  unfold execMap
  repeat' first
    | with_reducible assumption
    | with_reducible first
        | apply keep_invalidate | apply keep_mapStores | apply keep_message | apply keep_answer
        | refine KeptFst.of_eq (by assumption) ?_ | apply kept_next
    | split | intro _
    | (with_reducible refine kept_mk ?_; first
        | assumption | apply keep_invalidate | apply keep_mapStores | apply keep_message | apply keep_answer
        | refine KeptFst.of_eq (by assumption) ?_)

theorem keep_hostWrite (v : _) (x1 : _) (x2 : _) (x3 : _) {x4 : State} (h : Kept m x4) :
    KeptFst m (hostWrite v x1 x2 x3 x4) := by
  induction x1 generalizing v x2 x3 x4 with
  | zero =>
    unfold hostWrite
    repeat' first
      | with_reducible assumption
      | with_reducible first
          | apply keep_storeVA | apply ih | refine KeptFst.of_eq (by assumption) ?_
      | (extract_lets +onlyGivenNames z; refine kept_cut z ?_ ?_; rotate_left; (clear_value z; intro _); rotate_left
         subst z)
      | (extract_lets +onlyGivenNames z; subst z)
      | split | (with_reducible apply kept_pair)
      | (with_reducible refine kept_mk ?_; first
          | assumption | apply keep_storeVA | apply ih | refine KeptFst.of_eq (by assumption) ?_)
  | succ n ih =>
    unfold hostWrite
    repeat' first
      | with_reducible assumption
      | with_reducible first
          | apply keep_storeVA | apply ih | refine KeptFst.of_eq (by assumption) ?_
      | (extract_lets +onlyGivenNames z; refine kept_cut z ?_ ?_; rotate_left; (clear_value z; intro _); rotate_left
         subst z)
      | (extract_lets +onlyGivenNames z; subst z)
      | split | (with_reducible apply kept_pair)
      | (with_reducible refine kept_mk ?_; first
          | assumption | apply keep_storeVA | apply ih | refine KeptFst.of_eq (by assumption) ?_)

theorem keep_hostRead (v : _) (x1 : _) (x2 : _) (x3 : _) {x4 : State} (h : Kept m x4) :
    KeptFst m (hostRead v x1 x2 x3 x4) := by
  induction x1 generalizing v x2 x3 x4 with
  | zero =>
    unfold hostRead
    repeat' first
      | with_reducible assumption
      | with_reducible first
          | apply keep_loadVA | apply ih | refine KeptFst.of_eq (by assumption) ?_
      | (extract_lets +onlyGivenNames z; refine kept_cut z ?_ ?_; rotate_left; (clear_value z; intro _); rotate_left
         subst z)
      | (extract_lets +onlyGivenNames z; subst z)
      | split | (with_reducible apply kept_pair)
      | (with_reducible refine KeptFst.of ?_; first | apply keep_loadVA | apply ih)
      | (with_reducible refine kept_mk ?_; first
          | assumption | apply keep_loadVA | apply ih | refine KeptFst.of_eq (by assumption) ?_)
  | succ n ih =>
    unfold hostRead
    repeat' first
      | with_reducible assumption
      | with_reducible first
          | apply keep_loadVA | apply ih | refine KeptFst.of_eq (by assumption) ?_
      | (extract_lets +onlyGivenNames z; refine kept_cut z ?_ ?_; rotate_left; (clear_value z; intro _); rotate_left
         subst z)
      | (extract_lets +onlyGivenNames z; subst z)
      | split | (with_reducible apply kept_pair)
      | (with_reducible refine KeptFst.of ?_; first | apply keep_loadVA | apply ih)
      | (with_reducible refine kept_mk ?_; first
          | assumption | apply keep_loadVA | apply ih | refine KeptFst.of_eq (by assumption) ?_)

theorem keep_endAccess (i : _) {s0 : State} {s : State} (x3 : _) (body : _) (x5 : _) (h : Kept m s0) (hs : Kept m
    s) :
    KeptOut m (endAccess i s0 s x3 body x5) := by
  unfold endAccess
  repeat' first
    | with_reducible assumption
    | with_reducible first
        | apply keep_answer | apply kept_next
    | split
    | (with_reducible refine kept_mk ?_; first | assumption | apply keep_answer)

theorem keep_execWrite (x0 : _) {s : State} (h : Kept m s) :
    KeptOut m (execWrite x0 s) := by
  unfold execWrite
  repeat' first
    | with_reducible assumption
    | with_reducible first
        | apply keep_endAccess | apply keep_hostWrite | apply keep_message
        | refine KeptFst.of_eq (by assumption) ?_ | apply kept_next | apply kept_fault | apply kept_foldl
        | apply kept_some | apply kept_none | apply kept_some_pair | apply kept_none_pair | apply kept_ok
        | apply kept_error | apply kept_ok_some | apply kept_ok_none | apply kept_map | apply kept_map_fst
        | apply kept_map_exc | apply kept_ok_opt | apply kept_error_opt | apply kept_getD
    | (extract_lets +onlyGivenNames z; refine kept_cut z ?_ ?_; rotate_left; (clear_value z; intro _); rotate_left
       subst z)
    | (extract_lets +onlyGivenNames z; subst z)
    | split | intro _ | (with_reducible apply kept_pair)
    | (with_reducible refine KeptFst.of ?_; first
        | apply keep_endAccess | apply keep_hostWrite | apply keep_message)
    | (with_reducible refine kept_mk ?_; first
        | assumption | apply keep_endAccess | apply keep_hostWrite | apply keep_message
        | refine KeptFst.of_eq (by assumption) ?_)

theorem keep_execRead (x0 : _) {s : State} (h : Kept m s) :
    KeptOut m (execRead x0 s) := by
  unfold execRead
  repeat' first
    | with_reducible assumption
    | with_reducible first
        | apply keep_endAccess | apply keep_hostRead | apply keep_message
        | refine KeptFst.of_eq (by assumption) ?_ | apply kept_next | apply kept_fault | apply kept_foldl
        | apply kept_some | apply kept_none | apply kept_some_pair | apply kept_none_pair | apply kept_ok
        | apply kept_error | apply kept_ok_some | apply kept_ok_none | apply kept_map | apply kept_map_fst
        | apply kept_map_exc | apply kept_ok_opt | apply kept_error_opt | apply kept_getD
    | (extract_lets +onlyGivenNames z; refine kept_cut z ?_ ?_; rotate_left; (clear_value z; intro _); rotate_left
       subst z)
    | (extract_lets +onlyGivenNames z; subst z)
    | split | intro _ | (with_reducible apply kept_pair)
    | (with_reducible refine KeptFst.of ?_; first | apply keep_endAccess | apply keep_hostRead | apply keep_message)
    | (with_reducible refine kept_mk ?_; first
        | assumption | apply keep_endAccess | apply keep_hostRead | apply keep_message
        | refine KeptFst.of_eq (by assumption) ?_)

theorem keep_execLaunchStart (x0 : _) {s : State} (h : Kept m s) :
    KeptOut m (execLaunchStart x0 s) := by
  unfold execLaunchStart
  repeat' first
    | with_reducible assumption
    | with_reducible first
        | apply keep_message | apply keep_submit | apply kept_next
    | intro _

theorem keep_launchMessage (i : _) (op : _) (x2 : _) {s : State} (k : _) (h : Kept m s) (hk : ∀ y0 y1, Kept m y0 →
    Kept m (k y0 y1)) :
    KeptOut m (launchMessage i op x2 s k) := by
  unfold launchMessage
  repeat' first
    | with_reducible assumption
    | with_reducible first
        | apply hk | apply keep_message | apply keep_answer | apply kept_next
    | split | intro _
    | (with_reducible refine kept_mk ?_; first | assumption | apply hk | apply keep_message | apply keep_answer)

theorem keep_execLaunchResume (x0 : _) {s : State} (h : Kept m s) :
    KeptOut m (execLaunchResume x0 s) := by
  unfold execLaunchResume
  repeat' first
    | with_reducible assumption
    | with_reducible first
        | apply keep_launchMessage | apply keep_resumeLaunch | apply kept_next | apply kept_fault
        | apply kept_foldl | apply kept_some | apply kept_none | apply kept_some_pair | apply kept_none_pair
        | apply kept_ok | apply kept_error | apply kept_ok_some | apply kept_ok_none | apply kept_map
        | apply kept_map_fst | apply kept_map_exc | apply kept_ok_opt | apply kept_error_opt | apply kept_getD
    | (extract_lets +onlyGivenNames z; refine kept_cut z ?_ ?_; rotate_left; (clear_value z; intro _); rotate_left
       subst z)
    | (extract_lets +onlyGivenNames z; subst z)
    | split | intro _ | (with_reducible apply kept_pair)
    | (with_reducible refine KeptFst.of ?_; first | apply keep_launchMessage | apply keep_resumeLaunch)
    | (with_reducible refine kept_mk ?_; first | assumption | apply keep_launchMessage | apply keep_resumeLaunch)

theorem keep_execLaunchEnd (x0 : _) {s : State} (h : Kept m s) :
    KeptOut m (execLaunchEnd x0 s) := by
  unfold execLaunchEnd
  repeat' first
    | with_reducible assumption
    | with_reducible first
        | apply keep_launchMessage | apply keep_endLaunch | apply kept_next
    | intro _

theorem keep_drainLaunch {s : State} (l : _) (h : Kept m s) :
    Kept m (drainLaunch s l) := by
  unfold drainLaunch
  repeat' first
    | with_reducible assumption
    | with_reducible first
        | apply keep_freezeLaunch | apply keep_setLaunch
    | split
    | (with_reducible refine kept_mk ?_; first | assumption | apply keep_freezeLaunch | apply keep_setLaunch)

theorem keep_execLaunchDrain (x0 : _) {s : State} (h : Kept m s) :
    KeptOut m (execLaunchDrain x0 s) := by
  unfold execLaunchDrain
  repeat' first
    | with_reducible assumption
    | with_reducible first
        | apply keep_drainLaunch | apply keep_launchMessage | apply kept_next | apply kept_fault
        | apply kept_foldl | apply kept_some | apply kept_none | apply kept_some_pair | apply kept_none_pair
        | apply kept_ok | apply kept_error | apply kept_ok_some | apply kept_ok_none | apply kept_map
        | apply kept_map_fst | apply kept_map_exc | apply kept_ok_opt | apply kept_error_opt | apply kept_getD
    | (extract_lets +onlyGivenNames z; refine kept_cut z ?_ ?_; rotate_left; (clear_value z; intro _); rotate_left
       subst z)
    | (extract_lets +onlyGivenNames z; subst z)
    | split | intro _ | (with_reducible apply kept_pair)
    | (with_reducible refine KeptFst.of ?_; first | apply keep_drainLaunch | apply keep_launchMessage)
    | (with_reducible refine kept_mk ?_; first | assumption | apply keep_drainLaunch | apply keep_launchMessage)

theorem keep_execEvents (x0 : _) {s : State} (h : Kept m s) :
    KeptOut m (execEvents x0 s) := by
  unfold execEvents
  repeat' first
    | with_reducible assumption
    | with_reducible first
        | apply keep_message | apply keep_answer | apply keep_setVd | apply kept_next
    | (extract_lets +onlyGivenNames z; refine kept_cut z ?_ ?_; rotate_left; (clear_value z; intro _); rotate_left
       subst z)
    | (extract_lets +onlyGivenNames z; subst z)
    | intro _
    | (with_reducible refine kept_mk ?_; first
        | assumption | apply keep_message | apply keep_answer | apply keep_setVd)

theorem keep_sampleEnergy {s : State} (h : Kept m s) :
    Kept m (sampleEnergy s) := by
  unfold sampleEnergy
  repeat' first
    | with_reducible assumption
    | (with_reducible refine kept_mk ?_; first | assumption)

theorem keep_execAttest (x0 : _) {s : State} (h : Kept m s) :
    KeptOut m (execAttest x0 s) := by
  unfold execAttest
  repeat' first
    | with_reducible assumption
    | with_reducible first
        | apply keep_sampleEnergy | apply keep_message | apply keep_answer | apply kept_next
    | (extract_lets +onlyGivenNames z; refine kept_cut z ?_ ?_; rotate_left; (clear_value z; intro _); rotate_left
       subst z)
    | (extract_lets +onlyGivenNames z; subst z)
    | split | intro _

theorem keep_execLogFetch (x0 : _) {s : State} (h : Kept m s) :
    KeptOut m (execLogFetch x0 s) := by
  unfold execLogFetch
  repeat' first
    | with_reducible assumption
    | with_reducible first
        | apply keep_message | apply keep_answer | apply keep_setVd | apply kept_next | apply kept_foldl
    | (extract_lets +onlyGivenNames z; refine kept_cut z ?_ ?_; rotate_left; (clear_value z; intro _); rotate_left
       subst z)
    | (extract_lets +onlyGivenNames z; subst z)
    | split | intro _
    | (with_reducible refine KeptFst.of ?_; first | apply keep_message | apply keep_answer | apply keep_setVd)
    | (with_reducible refine kept_mk ?_; first
        | assumption | apply keep_message | apply keep_answer | apply keep_setVd | apply kept_foldl)

theorem keep_execReceiptFetch (x0 : _) {s : State} (h : Kept m s) :
    KeptOut m (execReceiptFetch x0 s) := by
  unfold execReceiptFetch
  repeat' first
    | with_reducible assumption
    | with_reducible first
        | apply keep_message | apply keep_answer | apply kept_next
    | split | intro _
    | (with_reducible refine kept_mk ?_; first | assumption | apply keep_message | apply keep_answer)

/-! ## Machine/Power.lean -/

theorem keep_rebuild {s : State} (b : Brock) (h : Kept m s) : Kept m (rebuild s b) := by
  unfold rebuild
  extract_lets flash s'
  exact kept_foldl (fun s u hs => kept_getD (keep_migrate _ hs) hs) (keep_setBrock _ h)

theorem keep_execPowerOn {s : State} (h : Kept m s) : KeptOut m (execPowerOn s) := by
  unfold execPowerOn
  extract_lets r0 r r'
  refine kept_next (keep_rebuild _ ?_)
  have hr : Kept m r := ⟨rfl, rfl, h.svn⟩
  show Kept m (match s.fw[imageToRun s]? with
    | some f => { r with maxSvn := Nat.max s.maxSvn f.svn }
    | none => r)
  split
  · exact ⟨hr.wf, hr.idle, Nat.le_trans h.svn (Nat.le_max_left _ _)⟩
  · exact hr

theorem keep_execNurseryExit (ok : Bool) {s : State} (h : Kept m s) : KeptOut m (execNurseryExit ok s) := by
  unfold execNurseryExit
  extract_lets s'
  have hs : Kept m s' := by
    simp only [s']
    split
    · exact kept_mk h
    · exact h
  split
  · exact kept_next (kept_mk hs)
  · exact kept_next hs

theorem keep_removeRecords {s : State} (places : _) (h : Kept m s) :
    Kept m (removeRecords s places) := by
  unfold removeRecords
  repeat' first
    | with_reducible assumption
    | with_reducible first
        | apply keep_setBrock
    | (extract_lets +onlyGivenNames z; refine kept_cut z ?_ ?_; rotate_left; (clear_value z; intro _); rotate_left
       subst z)
    | (extract_lets +onlyGivenNames z; subst z)
    | intro _
    | (with_reducible refine KeptFst.of ?_; first | apply keep_setBrock)
    | (with_reducible refine kept_mk ?_; first | assumption | apply keep_setBrock)

theorem keep_execFirmwareUpdate (place : _) (svn : _) (digest : _) (valid : _) (removed : _) {s : State} (h : Kept
    m s) :
    KeptOut m (execFirmwareUpdate place svn digest valid removed s) := by
  unfold execFirmwareUpdate
  repeat' first
    | with_reducible assumption
    | with_reducible first
        | apply keep_removeRecords | apply kept_next
    | (extract_lets +onlyGivenNames z; refine kept_cut z ?_ ?_; rotate_left; (clear_value z; intro _); rotate_left
       subst z)
    | (extract_lets +onlyGivenNames z; subst z)
    | split
    | (with_reducible refine kept_mk ?_; first | assumption | apply keep_removeRecords)

theorem keep_execPowerArbitration {s : State} (h : Kept m s) :
    KeptOut m (execPowerArbitration s) := by
  unfold execPowerArbitration
  repeat' first
    | with_reducible assumption
    | with_reducible first
        | apply keep_arbitrate | apply kept_next

theorem keep_remoteEffect {s : State} (eng : _) (x2 : _) (x3 : _) (h : Kept m s) :
    Kept m (remoteEffect s eng x2 x3) := by
  unfold remoteEffect
  repeat' first
    | with_reducible assumption
    | with_reducible first
        | apply keep_writeKeyed
    | split

theorem keep_execRemoteAccess (r : _) {s : State} (h : Kept m s) :
    KeptOut m (execRemoteAccess r s) := by
  unfold execRemoteAccess
  repeat' first
    | with_reducible assumption
    | with_reducible first
        | apply keep_remoteEffect | apply kept_next
    | split

/-! ## Machine/Control.lean -/

theorem keep_execBr (p : _) (o : _) {s : State} (h : Kept m s) :
    KeptOut m (execBr p o s) := by
  unfold execBr
  repeat' first
    | with_reducible assumption
    | with_reducible first
        | apply keep_done | apply keep_instr | apply keep_setThread | apply kept_next
    | split | intro _

theorem keep_execBrN (p : _) (o : _) {s : State} (h : Kept m s) :
    KeptOut m (execBrN p o s) := by
  unfold execBrN
  repeat' first
    | with_reducible assumption
    | with_reducible first
        | apply keep_done | apply keep_instr | apply keep_setThread | apply kept_next
    | split | intro _

theorem keep_execJal (d : _) (o : _) {s : State} (h : Kept m s) :
    KeptOut m (execJal d o s) := by
  unfold execJal
  repeat' first
    | with_reducible assumption
    | with_reducible first
        | apply keep_instr | apply keep_setThread | apply kept_next
    | intro _

theorem keep_execJalr (d : _) (x1 : _) (i : _) {s : State} (h : Kept m s) :
    KeptOut m (execJalr d x1 i s) := by
  unfold execJalr
  repeat' first
    | with_reducible assumption
    | with_reducible first
        | apply keep_instr | apply keep_trap | apply keep_setThread | apply kept_next
    | (extract_lets +onlyGivenNames z; refine kept_cut z ?_ ?_; rotate_left; (clear_value z; intro _); rotate_left
       subst z)
    | (extract_lets +onlyGivenNames z; subst z)
    | split | intro _

theorem keep_execLoop (x0 : _) (e : _) {s : State} (h : Kept m s) :
    KeptOut m (execLoop x0 e s) := by
  unfold execLoop
  repeat' first
    | with_reducible assumption
    | with_reducible first
        | apply keep_instr | apply keep_setThread | apply kept_next
    | intro _

theorem keep_execHalt {s : State} (h : Kept m s) :
    KeptOut m (execHalt s) := by
  unfold execHalt
  repeat' first
    | with_reducible assumption
    | with_reducible first
        | apply keep_instr | apply keep_endThread | apply kept_next
    | intro _

theorem keep_execYield {s : State} (h : Kept m s) :
    KeptOut m (execYield s) := by
  unfold execYield
  repeat' first
    | with_reducible assumption
    | with_reducible first
        | apply keep_done | apply keep_instr | apply keep_setPlot | apply kept_next
    | intro _
    | (with_reducible refine kept_mk ?_; first
        | assumption | apply keep_done | apply keep_instr | apply keep_setPlot)

/-! ## Machine/Int.lean -/

theorem keep_rrr (i : _) (f : _) (d : _) (x3 : _) (b : _) {s : State} (h : Kept m s) :
    KeptOut m (rrr i f d x3 b s) := by
  unfold rrr
  repeat' first
    | with_reducible assumption
    | with_reducible first
        | apply keep_done | apply keep_instr | apply kept_next
    | intro _

theorem keep_rr (i : _) (f : _) (d : _) (x3 : _) {s : State} (h : Kept m s) :
    KeptOut m (rr i f d x3 s) := by
  unfold rr
  repeat' first
    | with_reducible assumption
    | with_reducible first
        | apply keep_done | apply keep_instr | apply kept_next
    | intro _

theorem keep_divide (i : _) (f : _) (d : _) (x3 : _) (b : _) {s : State} (h : Kept m s) :
    KeptOut m (divide i f d x3 b s) := by
  unfold divide
  repeat' first
    | with_reducible assumption
    | with_reducible first
        | apply keep_done | apply keep_instr | apply keep_trap | apply kept_next
    | split | intro _

theorem keep_execNop {s : State} (h : Kept m s) :
    KeptOut m (execNop s) := by
  unfold execNop
  repeat' first
    | with_reducible assumption
    | with_reducible first
        | apply keep_done | apply keep_instr | apply kept_next
    | intro _

theorem keep_execAdd (d : _) (x1 : _) (b : _) {s : State} (h : Kept m s) :
    KeptOut m (execAdd d x1 b s) := by
  unfold execAdd
  repeat' first
    | with_reducible assumption
    | with_reducible first
        | apply keep_rrr | apply kept_next

theorem keep_execSub (d : _) (x1 : _) (b : _) {s : State} (h : Kept m s) :
    KeptOut m (execSub d x1 b s) := by
  unfold execSub
  repeat' first
    | with_reducible assumption
    | with_reducible first
        | apply keep_rrr | apply kept_next

theorem keep_execMul (d : _) (x1 : _) (b : _) {s : State} (h : Kept m s) :
    KeptOut m (execMul d x1 b s) := by
  unfold execMul
  repeat' first
    | with_reducible assumption
    | with_reducible first
        | apply keep_rrr | apply kept_next

theorem keep_execMulh (d : _) (x1 : _) (b : _) {s : State} (h : Kept m s) :
    KeptOut m (execMulh d x1 b s) := by
  unfold execMulh
  repeat' first
    | with_reducible assumption
    | with_reducible first
        | apply keep_rrr | apply kept_next

theorem keep_execMulhu (d : _) (x1 : _) (b : _) {s : State} (h : Kept m s) :
    KeptOut m (execMulhu d x1 b s) := by
  unfold execMulhu
  repeat' first
    | with_reducible assumption
    | with_reducible first
        | apply keep_rrr | apply kept_next

theorem keep_execDiv (d : _) (x1 : _) (b : _) {s : State} (h : Kept m s) :
    KeptOut m (execDiv d x1 b s) := by
  unfold execDiv
  repeat' first
    | with_reducible assumption
    | with_reducible first
        | apply keep_divide | apply kept_next

theorem keep_execDivu (d : _) (x1 : _) (b : _) {s : State} (h : Kept m s) :
    KeptOut m (execDivu d x1 b s) := by
  unfold execDivu
  repeat' first
    | with_reducible assumption
    | with_reducible first
        | apply keep_divide | apply kept_next

theorem keep_execRem (d : _) (x1 : _) (b : _) {s : State} (h : Kept m s) :
    KeptOut m (execRem d x1 b s) := by
  unfold execRem
  repeat' first
    | with_reducible assumption
    | with_reducible first
        | apply keep_divide | apply kept_next

theorem keep_execRemu (d : _) (x1 : _) (b : _) {s : State} (h : Kept m s) :
    KeptOut m (execRemu d x1 b s) := by
  unfold execRemu
  repeat' first
    | with_reducible assumption
    | with_reducible first
        | apply keep_divide | apply kept_next

theorem keep_execAnd (d : _) (x1 : _) (b : _) {s : State} (h : Kept m s) :
    KeptOut m (execAnd d x1 b s) := by
  unfold execAnd
  repeat' first
    | with_reducible assumption
    | with_reducible first
        | apply keep_rrr | apply kept_next

theorem keep_execOr (d : _) (x1 : _) (b : _) {s : State} (h : Kept m s) :
    KeptOut m (execOr d x1 b s) := by
  unfold execOr
  repeat' first
    | with_reducible assumption
    | with_reducible first
        | apply keep_rrr | apply kept_next
    | split

theorem keep_execXor (d : _) (x1 : _) (b : _) {s : State} (h : Kept m s) :
    KeptOut m (execXor d x1 b s) := by
  unfold execXor
  repeat' first
    | with_reducible assumption
    | with_reducible first
        | apply keep_rrr | apply kept_next

theorem keep_execSll (d : _) (x1 : _) (b : _) {s : State} (h : Kept m s) :
    KeptOut m (execSll d x1 b s) := by
  unfold execSll
  repeat' first
    | with_reducible assumption
    | with_reducible first
        | apply keep_rrr | apply kept_next

theorem keep_execSrl (d : _) (x1 : _) (b : _) {s : State} (h : Kept m s) :
    KeptOut m (execSrl d x1 b s) := by
  unfold execSrl
  repeat' first
    | with_reducible assumption
    | with_reducible first
        | apply keep_rrr | apply kept_next

theorem keep_execSra (d : _) (x1 : _) (b : _) {s : State} (h : Kept m s) :
    KeptOut m (execSra d x1 b s) := by
  unfold execSra
  repeat' first
    | with_reducible assumption
    | with_reducible first
        | apply keep_rrr | apply kept_next

theorem keep_execMin (d : _) (x1 : _) (b : _) {s : State} (h : Kept m s) :
    KeptOut m (execMin d x1 b s) := by
  unfold execMin
  repeat' first
    | with_reducible assumption
    | with_reducible first
        | apply keep_rrr | apply kept_next

theorem keep_execMax (d : _) (x1 : _) (b : _) {s : State} (h : Kept m s) :
    KeptOut m (execMax d x1 b s) := by
  unfold execMax
  repeat' first
    | with_reducible assumption
    | with_reducible first
        | apply keep_rrr | apply kept_next

theorem keep_execMinu (d : _) (x1 : _) (b : _) {s : State} (h : Kept m s) :
    KeptOut m (execMinu d x1 b s) := by
  unfold execMinu
  repeat' first
    | with_reducible assumption
    | with_reducible first
        | apply keep_rrr | apply kept_next

theorem keep_execMaxu (d : _) (x1 : _) (b : _) {s : State} (h : Kept m s) :
    KeptOut m (execMaxu d x1 b s) := by
  unfold execMaxu
  repeat' first
    | with_reducible assumption
    | with_reducible first
        | apply keep_rrr | apply kept_next

theorem keep_execClz (d : _) (x1 : _) {s : State} (h : Kept m s) :
    KeptOut m (execClz d x1 s) := by
  unfold execClz
  repeat' first
    | with_reducible assumption
    | with_reducible first
        | apply keep_rr | apply kept_next
    | intro _

theorem keep_execCtz (d : _) (x1 : _) {s : State} (h : Kept m s) :
    KeptOut m (execCtz d x1 s) := by
  unfold execCtz
  repeat' first
    | with_reducible assumption
    | with_reducible first
        | apply keep_rr | apply kept_next
    | intro _

theorem keep_execPopc (d : _) (x1 : _) {s : State} (h : Kept m s) :
    KeptOut m (execPopc d x1 s) := by
  unfold execPopc
  repeat' first
    | with_reducible assumption
    | with_reducible first
        | apply keep_rr | apply kept_next
    | intro _

theorem keep_execAddsc (k : _) (d : _) (x2 : _) (b : _) {s : State} (h : Kept m s) :
    KeptOut m (execAddsc k d x2 b s) := by
  unfold execAddsc
  repeat' first
    | with_reducible assumption
    | with_reducible first
        | apply keep_rrr | apply kept_next
    | intro _

theorem keep_execSel (n : _) (d : _) (x2 : _) (b : _) {s : State} (h : Kept m s) :
    KeptOut m (execSel n d x2 b s) := by
  unfold execSel
  repeat' first
    | with_reducible assumption
    | with_reducible first
        | apply keep_done | apply keep_instr | apply kept_next
    | split | intro _

theorem keep_execAddImm (d : _) (x1 : _) (i : _) {s : State} (h : Kept m s) :
    KeptOut m (execAddImm d x1 i s) := by
  unfold execAddImm
  repeat' first
    | with_reducible assumption
    | with_reducible first
        | apply keep_rr | apply kept_next

theorem keep_execAndImm (d : _) (x1 : _) (i : _) {s : State} (h : Kept m s) :
    KeptOut m (execAndImm d x1 i s) := by
  unfold execAndImm
  repeat' first
    | with_reducible assumption
    | with_reducible first
        | apply keep_rr | apply kept_next

theorem keep_execOrImm (d : _) (x1 : _) (i : _) {s : State} (h : Kept m s) :
    KeptOut m (execOrImm d x1 i s) := by
  unfold execOrImm
  repeat' first
    | with_reducible assumption
    | with_reducible first
        | apply keep_rr | apply kept_next
    | split

theorem keep_execXorImm (d : _) (x1 : _) (i : _) {s : State} (h : Kept m s) :
    KeptOut m (execXorImm d x1 i s) := by
  unfold execXorImm
  repeat' first
    | with_reducible assumption
    | with_reducible first
        | apply keep_rr | apply kept_next

theorem keep_execSllImm (d : _) (x1 : _) (x2 : _) {s : State} (h : Kept m s) :
    KeptOut m (execSllImm d x1 x2 s) := by
  unfold execSllImm
  repeat' first
    | with_reducible assumption
    | with_reducible first
        | apply keep_rr | apply kept_next

theorem keep_execSrlImm (d : _) (x1 : _) (x2 : _) {s : State} (h : Kept m s) :
    KeptOut m (execSrlImm d x1 x2 s) := by
  unfold execSrlImm
  repeat' first
    | with_reducible assumption
    | with_reducible first
        | apply keep_rr | apply kept_next

theorem keep_execSraImm (d : _) (x1 : _) (x2 : _) {s : State} (h : Kept m s) :
    KeptOut m (execSraImm d x1 x2 s) := by
  unfold execSraImm
  repeat' first
    | with_reducible assumption
    | with_reducible first
        | apply keep_rr | apply kept_next

theorem keep_execAddLong (d : _) (x1 : _) (i : _) {s : State} (h : Kept m s) :
    KeptOut m (execAddLong d x1 i s) := by
  unfold execAddLong
  repeat' first
    | with_reducible assumption
    | with_reducible first
        | apply keep_rr | apply kept_next

theorem keep_execAndLong (d : _) (x1 : _) (i : _) {s : State} (h : Kept m s) :
    KeptOut m (execAndLong d x1 i s) := by
  unfold execAndLong
  repeat' first
    | with_reducible assumption
    | with_reducible first
        | apply keep_rr | apply kept_next

theorem keep_execOrLong (d : _) (x1 : _) (i : _) {s : State} (h : Kept m s) :
    KeptOut m (execOrLong d x1 i s) := by
  unfold execOrLong
  repeat' first
    | with_reducible assumption
    | with_reducible first
        | apply keep_rr | apply kept_next
    | split

theorem keep_execXorLong (d : _) (x1 : _) (i : _) {s : State} (h : Kept m s) :
    KeptOut m (execXorLong d x1 i s) := by
  unfold execXorLong
  repeat' first
    | with_reducible assumption
    | with_reducible first
        | apply keep_rr | apply kept_next

theorem keep_execBfx (d : _) (x1 : _) (p : _) (l : _) {s : State} (h : Kept m s) :
    KeptOut m (execBfx d x1 p l s) := by
  unfold execBfx
  repeat' first
    | with_reducible assumption
    | with_reducible first
        | apply keep_rr | apply kept_next
    | intro _

theorem keep_execBfxS (d : _) (x1 : _) (p : _) (l : _) {s : State} (h : Kept m s) :
    KeptOut m (execBfxS d x1 p l s) := by
  unfold execBfxS
  repeat' first
    | with_reducible assumption
    | with_reducible first
        | apply keep_rr | apply kept_next
    | intro _

theorem keep_execBfi (d : _) (x1 : _) (p : _) (l : _) {s : State} (h : Kept m s) :
    KeptOut m (execBfi d x1 p l s) := by
  unfold execBfi
  repeat' first
    | with_reducible assumption
    | with_reducible first
        | apply keep_done | apply keep_instr | apply kept_next
    | intro _

theorem keep_execCmpCc (p : _) (c : _) (x2 : _) (b : _) {s : State} (h : Kept m s) :
    KeptOut m (execCmpCc p c x2 b s) := by
  unfold execCmpCc
  repeat' first
    | with_reducible assumption
    | with_reducible first
        | apply keep_done | apply keep_instr | apply kept_next
    | intro _

theorem keep_execCmpCcImm (p : _) (c : _) (x2 : _) (i : _) {s : State} (h : Kept m s) :
    KeptOut m (execCmpCcImm p c x2 i s) := by
  unfold execCmpCcImm
  repeat' first
    | with_reducible assumption
    | with_reducible first
        | apply keep_done | apply keep_instr | apply kept_next
    | intro _

end Sys2Proof.Laws
end

