-- ==== Sys2Proof/Laws/KeepExec.lean ====
section
/-!
SUPPORT. Every instruction keeps the machine sound; INSTRUCTION_ISSUE, which alone leaves an instruction to execute, has its own
lemma in Laws/KeepCore.lean.
-/
set_option Elab.async false
namespace Sys2Proof.Laws
open Sys2Proof.Machine

/-- A step of any kind but INSTRUCTION_ISSUE keeps the machine sound. -/
theorem kept_exec {i : Instr} (hi : ∀ cc, i ≠ .instructionIssue cc) {s : State} {m : Nat} (h : Kept m s) : KeptOut m (exec i s) := by
  cases i with
  | powerOn => exact keep_execPowerOn h
  | nurseryExit ok => exact keep_execNurseryExit _ h
  | openVd m => exact keep_execOpenVd _ h
  | closeVd m => exact keep_execCloseVd _ h
  | map m => exact keep_execMap _ h
  | write m => exact keep_execWrite _ h
  | read m => exact keep_execRead _ h
  | launchStart m => exact keep_execLaunchStart _ h
  | launchResume m => exact keep_execLaunchResume _ h
  | launchEnd m => exact keep_execLaunchEnd _ h
  | launchDrain m => exact keep_execLaunchDrain _ h
  | events m => exact keep_execEvents _ h
  | attest m => exact keep_execAttest _ h
  | logFetch m => exact keep_execLogFetch _ h
  | receiptFetch m => exact keep_execReceiptFetch _ h
  | placement => exact keep_execPlacement h
  | queueRetry => exact keep_execQueueRetry h
  | threadAdmission cc => exact keep_execThreadAdmission _ h
  | gangStart lseq => exact keep_execGangStart _ h
  | launchComplete lseq => exact keep_execLaunchComplete _ h
  | instructionIssue cc => exact absurd rfl (hi cc)
  | wfeWake tid => exact keep_execWfeWake _ h
  | loadReturn tid => exact keep_execLoadReturn _ h
  | siblingWindowRelease tid => exact keep_execSiblingWindowRelease _ h
  | remoteAccess r => exact keep_execRemoteAccess _ h
  | correctedError unit => exact keep_execCorrectedError _ h
  | backedPageResident plot page => exact keep_execBackedPageResident _ _ h
  | tokenArrival lseq chan => exact keep_execTokenArrival _ _ h
  | edgePortCrossing lseq chan => exact keep_execEdgePortCrossing _ _ h
  | handlerFiring pe => exact keep_execHandlerFiring _ h
  | handlerPromotion pe hd => exact keep_execHandlerPromotion _ _ h
  | planeSwap pe => exact keep_execPlaneSwap _ h
  | matrixPlotSwap plot => exact keep_execMatrixPlotSwap _ h
  | matrixVector plot => exact keep_execMatrixVector _ h
  | loadw plot => exact keep_execLoadw _ h
  | agElement lseq node => exact keep_execAgElement _ _ h
  | heldElementRetry lseq node => exact keep_execHeldElementRetry _ _ h
  | fifoSpill lseq chan => exact keep_execFifoSpill _ _ h
  | streamEnd lseq node => exact keep_execStreamEnd _ _ h
  | commandIssue tid => exact keep_execCommandIssue _ h
  | copyUnit die => exact keep_execCopyUnit _ h
  | eventRecordPost cc => exact keep_execEventRecordPost _ h
  | taskStart lseq q => exact keep_execTaskStart _ _ h
  | collectiveStart vd comm => exact keep_execCollectiveStart _ _ h
  | collectiveCombine vd comm => exact keep_execCollectiveCombine _ _ h
  | collectiveComplete vd comm => exact keep_execCollectiveComplete _ _ h
  | collectiveAbandon vd comm => exact keep_execCollectiveAbandon _ _ h
  | faultRecordWrite lseq => exact keep_execFaultRecordWrite _ h
  | replayRequest lseq idx => exact keep_execReplayRequest _ _ h
  | replayToken lseq idx => exact keep_execReplayToken _ _ h
  | owlFire lseq part => exact keep_execOwlFire _ _ h
  | preemption lseq => exact keep_execPreemption _ h
  | timeSliceEnd vd => exact keep_execTimeSliceEnd _ h
  | relocation lseq => exact keep_execRelocation _ h
  | restore lseq => exact keep_execRestore _ h
  | variantNarrow lseq => exact keep_execVariantNarrow _ h
  | powerArbitration => exact keep_execPowerArbitration h
  | scoreDecay => exact keep_execScoreDecay h
  | routineLease unit => exact keep_execRoutineLease _ h
  | plotLease plot => exact keep_execPlotLease _ h
  | leaseDeferredRetry unit => exact keep_execLeaseDeferredRetry _ h
  | leaseForce plot => exact keep_execLeaseForce _ h
  | laneGroupLease unit => exact keep_execLaneGroupLease _ h
  | memoryWindowTest chan res => exact keep_execMemoryWindowTest _ _ h
  | leaseEnd unit res => exact keep_execLeaseEnd _ _ h
  | retirement unit => exact keep_execRetirement _ h
  | linkRetry unit => exact keep_execLinkRetry _ h
  | engagementOpen a => exact keep_execEngagementOpen _ h
  | engagementClose a => exact keep_execEngagementClose _ h
  | engagementGrant a => exact keep_execEngagementGrant _ h
  | engctlSet a => exact keep_execEngctlSet _ h
  | fbstatWrite a => exact keep_execFbstatWrite _ h
  | vdqmaskWrite a => exact keep_execVdqmaskWrite _ h
  | monitorConfigWrite sr a => exact keep_execMonitorConfigWrite _ _ h
  | monitorWindowEnd vd mon => exact keep_execMonitorWindowEnd _ _ h
  | logBlockSeal vd mon => exact keep_execLogBlockSeal _ _ h
  | nop => exact keep_execNop h
  | add d a b => exact keep_execAdd _ _ _ h
  | sub d a b => exact keep_execSub _ _ _ h
  | mul d a b => exact keep_execMul _ _ _ h
  | mulh d a b => exact keep_execMulh _ _ _ h
  | mulhu d a b => exact keep_execMulhu _ _ _ h
  | div d a b => exact keep_execDiv _ _ _ h
  | divu d a b => exact keep_execDivu _ _ _ h
  | rem d a b => exact keep_execRem _ _ _ h
  | remu d a b => exact keep_execRemu _ _ _ h
  | and d a b => exact keep_execAnd _ _ _ h
  | or d a b => exact keep_execOr _ _ _ h
  | xor d a b => exact keep_execXor _ _ _ h
  | sll d a b => exact keep_execSll _ _ _ h
  | srl d a b => exact keep_execSrl _ _ _ h
  | sra d a b => exact keep_execSra _ _ _ h
  | min d a b => exact keep_execMin _ _ _ h
  | max d a b => exact keep_execMax _ _ _ h
  | minu d a b => exact keep_execMinu _ _ _ h
  | maxu d a b => exact keep_execMaxu _ _ _ h
  | clz d a => exact keep_execClz _ _ h
  | ctz d a => exact keep_execCtz _ _ h
  | popc d a => exact keep_execPopc _ _ h
  | addsc k d a b => exact keep_execAddsc _ _ _ _ h
  | sel n d a b => exact keep_execSel _ _ _ _ h
  | addImm d a imm => exact keep_execAddImm _ _ _ h
  | andImm d a imm => exact keep_execAndImm _ _ _ h
  | orImm d a imm => exact keep_execOrImm _ _ _ h
  | xorImm d a imm => exact keep_execXorImm _ _ _ h
  | sllImm d a m => exact keep_execSllImm _ _ _ h
  | srlImm d a m => exact keep_execSrlImm _ _ _ h
  | sraImm d a m => exact keep_execSraImm _ _ _ h
  | addLong d a imm => exact keep_execAddLong _ _ _ h
  | andLong d a imm => exact keep_execAndLong _ _ _ h
  | orLong d a imm => exact keep_execOrLong _ _ _ h
  | xorLong d a imm => exact keep_execXorLong _ _ _ h
  | bfx d a pos lenm1 => exact keep_execBfx _ _ _ _ h
  | bfxS d a pos lenm1 => exact keep_execBfxS _ _ _ _ h
  | bfi d a pos lenm1 => exact keep_execBfi _ _ _ _ h
  | cmpCc p c a b => exact keep_execCmpCc _ _ _ _ h
  | cmpCcImm p c a imm => exact keep_execCmpCcImm _ _ _ _ h
  | ld d a sz u off => exact keep_execLd _ _ _ _ _ h
  | st b a sz off => exact keep_execSt _ _ _ _ h
  | ldAcq d a sz u scope off => exact keep_execLdAcq _ _ _ _ _ _ h
  | stRel b a sz scope off => exact keep_execStRel _ _ _ _ _ h
  | amoW op d a b ord scope => exact keep_execAmoW _ _ _ _ _ _ h
  | amoD op d a b ord scope => exact keep_execAmoD _ _ _ _ _ _ h
  | casW d a b ord scope => exact keep_execCasW _ _ _ _ _ h
  | casD d a b ord scope => exact keep_execCasD _ _ _ _ _ h
  | cas16 d a b ord scope => exact keep_execCas16 _ _ _ _ _ h
  | fence scope => exact keep_execFence _ h
  | prefDc a imm => exact keep_execPrefDc _ _ h
  | prefL2 a imm => exact keep_execPrefL2 _ _ h
  | br p off => exact keep_execBr _ _ h
  | brN p off => exact keep_execBrN _ _ h
  | jal d off => exact keep_execJal _ _ h
  | jalr d a imm => exact keep_execJalr _ _ _ h
  | loop a endOff => exact keep_execLoop _ _ h
  | halt => exact keep_execHalt h
  | yield => exact keep_execYield h
  | mfs d sr => exact keep_execMfs _ _ h
  | mts sr a => exact keep_execMts _ _ h
  | trap e => exact keep_execTrap _ h
  | rett => exact keep_execRett h
  | wfe => exact keep_execWfe h
  | getev p d => exact keep_execGetev _ _ h
  | wrpk a => exact keep_execWrpk _ h
  | mtt n a => exact keep_execMtt _ _ h
  | smul d a b => exact keep_execSmul _ _ _ h
  | smax d a b => exact keep_execSmax _ _ _ h
  | srcp d a => exact keep_execSrcp _ _ h
  | sexp2 d a => exact keep_execSexp2 _ _ h
  | scopy d a => exact keep_execScopy _ _ h
  | scvt d a bf16 rm => exact keep_execScvt _ _ _ _ h
  | smov nm a => exact keep_execSmov _ _ h
  | sread d nm => exact keep_execSread _ _ h
  | sbindS d a => exact keep_execSbindS _ _ h
  | sfree a => exact keep_execSfree _ h
  | sbind ctr port a u => exact keep_execSbind _ _ _ _ h
  | sbindHandle hd port a log2n u => exact keep_execSbindHandle _ _ _ _ _ h
  | sbar mask => exact keep_execSbar _ h
  | sbarComplete tid => exact keep_execSbarComplete _ h
  | glaunch a u => exact keep_execGlaunch _ _ h
  | gloadsh a u => exact keep_execGloadsh _ _ h
  | gswap a u => exact keep_execGswap _ _ h
  | gdrain a u => exact keep_execGdrain _ _ h
  | gresume a u => exact keep_execGresume _ _ h
  | gend a u => exact keep_execGend _ _ h
  | cpy ctr q d a l u => exact keep_execCpy _ _ _ _ _ _ h
  | cpyT ctr q d a u => exact keep_execCpyT _ _ _ _ _ h
  | cpym ctr q d a c u => exact keep_execCpym _ _ _ _ _ _ h
  | qfence mask => exact keep_execQfence _ h
  | qfenceColl mask => exact keep_execQfenceColl _ h
  | postc q a => exact keep_execPostc _ _ h
  | taskend => exact keep_execTaskend h
  | evpost n a b => exact keep_execEvpost _ _ _ h
  | coll op red fmt sc ctr q a root u => exact keep_execColl _ _ _ _ _ _ _ _ _ h
  | gbar grp => exact keep_execGbar _ h
  | gbarComplete tid => exact keep_execGbarComplete _ h
  | cbwaitf hd n => exact keep_execCbwaitf _ _ h
  | cbwaite hd n => exact keep_execCbwaite _ _ h
  | cbWaitComplete tid => exact keep_execCbWaitComplete _ h
  | cbadv hd n => exact keep_execCbadv _ _ h
  | cbadvEos hd n => exact keep_execCbadvEos _ _ h
  | cbget d hd slot el => exact keep_execCbget _ _ _ _ h
  | cbput hd slot el a => exact keep_execCbput _ _ _ _ h
  | copyUnitRetry lseq die q => exact keep_execCopyUnitRetry _ _ _ h
  | nodeLaunchStart lseq => exact keep_execNodeLaunchStart _ h
  | frozenStateStreamedOut lseq => exact keep_execFrozenStateStreamedOut _ h
  | shadowImageLoad tid => exact keep_execShadowImageLoad _ h
  | firmwareUpdate place svn digest valid removed => exact keep_execFirmwareUpdate _ _ _ _ _ h

end Sys2Proof.Laws
end

