-- ==== Sys2Proof/Laws/State.lean ====
section
/-!
SUPPORT. What each update of the state and of a thread leaves as it was, a lemma for each field, and what the sparse tables
(Machine/Assoc.lean) answer after an insertion.
-/
set_option Elab.async false
namespace Sys2Proof.Laws
open Sys2Proof.Machine

/-! ## Sparse tables -/

@[simp] theorem lookup_insert_same {α : Type} (m : Assoc α) (n : Nat) (v : α) :
    lookup (Machine.insert m n v) n = some v := by
  induction m with
  | nil => simp [Machine.insert, lookup]
  | cons c m ih =>
    obtain ⟨k, w⟩ := c
    simp only [Machine.insert]
    split
    · simp [lookup]
    · split
      · simp [lookup]
      · rename_i h; simp [lookup, h, ih]

theorem lookup_insert_other {α : Type} (m : Assoc α) {n k : Nat} (v : α) (ne : k ≠ n) :
    lookup (Machine.insert m n v) k = lookup m k := by
  induction m with
  | nil => simp [Machine.insert, lookup, ne]
  | cons c m ih =>
    obtain ⟨j, w⟩ := c
    simp only [Machine.insert]
    split
    · simp [lookup, ne]
    · split
      · rename_i h; subst h; simp [lookup, ne]
      · simp [lookup, ih]

@[simp] theorem lookup_remove_same {α : Type} (m : Assoc α) (n : Nat) : lookup (Machine.remove m n) n = none := by
  induction m with
  | nil => rfl
  | cons c m ih =>
    obtain ⟨k, w⟩ := c
    simp only [Machine.remove]
    split
    · exact ih
    · rename_i h; simp [lookup, h, ih]

theorem lookup_remove_other {α : Type} (m : Assoc α) {n k : Nat} (ne : k ≠ n) :
    lookup (Machine.remove m n) k = lookup m k := by
  induction m with
  | nil => rfl
  | cons c m ih =>
    obtain ⟨j, w⟩ := c
    simp only [Machine.remove]
    split
    · rename_i h; subst h; simp [lookup, ne, ih]
    · simp [lookup, ih]

@[simp] theorem setNth_length {α : Type} (l : List α) (i : Nat) (v : α) : (setNth l i v).length = l.length := by
  induction l generalizing i with
  | nil => rfl
  | cons a l ih => cases i <;> simp [setNth, ih]

theorem setNth_getD_same {α : Type} {l : List α} {i : Nat} (v d : α) (h : i < l.length) : (setNth l i v).getD i d = v := by
  induction l generalizing i with
  | nil => simp at h
  | cons a l ih =>
    cases i with
    | zero => rfl
    | succ i => simpa [setNth] using ih (by simpa using h)

theorem setNth_getD_other {α : Type} (l : List α) {i j : Nat} (v d : α) (ne : j ≠ i) :
    (setNth l i v).getD j d = l.getD j d := by
  induction l generalizing i j with
  | nil => rfl
  | cons a l ih =>
    cases i <;> cases j
    · exact absurd rfl ne
    · rfl
    · rfl
    · rename_i i j
      simpa [setNth] using ih (i := i) (j := j) (by omega)

/-! ## setThread -/

@[simp] theorem setThread_agenda (s : State) (tid : Nat) (t : Thread) : (setThread s tid t).agenda = s.agenda := rfl
@[simp] theorem setThread_pace (s : State) (tid : Nat) (t : Thread) : (setThread s tid t).pace = s.pace := rfl
@[simp] theorem setThread_turn (s : State) (tid : Nat) (t : Thread) : (setThread s tid t).turn = s.turn := rfl
@[simp] theorem setThread_free (s : State) (tid : Nat) (t : Thread) : (setThread s tid t).free = s.free := rfl
@[simp] theorem setThread_cur (s : State) (tid : Nat) (t : Thread) : (setThread s tid t).cur = s.cur := rfl
@[simp] theorem setThread_latch (s : State) (tid : Nat) (t : Thread) : (setThread s tid t).latch = s.latch := rfl
@[simp] theorem setThread_lateLoads (s : State) (tid : Nat) (t : Thread) : (setThread s tid t).lateLoads = s.lateLoads := rfl
@[simp] theorem setThread_nextTid (s : State) (tid : Nat) (t : Thread) : (setThread s tid t).nextTid = s.nextTid := rfl
@[simp] theorem setThread_time (s : State) (tid : Nat) (t : Thread) : (setThread s tid t).time = s.time := rfl
@[simp] theorem setThread_full (s : State) (tid : Nat) (t : Thread) : (setThread s tid t).full = s.full := rfl
@[simp] theorem setThread_bringup (s : State) (tid : Nat) (t : Thread) : (setThread s tid t).bringup = s.bringup := rfl
@[simp] theorem setThread_fw (s : State) (tid : Nat) (t : Thread) : (setThread s tid t).fw = s.fw := rfl
@[simp] theorem setThread_running (s : State) (tid : Nat) (t : Thread) : (setThread s tid t).running = s.running := rfl
@[simp] theorem setThread_maxSvn (s : State) (tid : Nat) (t : Thread) : (setThread s tid t).maxSvn = s.maxSvn := rfl
@[simp] theorem setThread_energy (s : State) (tid : Nat) (t : Thread) : (setThread s tid t).energy = s.energy := rfl
@[simp] theorem setThread_l2ce (s : State) (tid : Nat) (t : Thread) : (setThread s tid t).l2ce = s.l2ce := rfl
@[simp] theorem setThread_mhz (s : State) (tid : Nat) (t : Thread) : (setThread s tid t).mhz = s.mhz := rfl
@[simp] theorem setThread_atFloor (s : State) (tid : Nat) (t : Thread) : (setThread s tid t).atFloor = s.atFloor := rfl
@[simp] theorem setThread_ballast (s : State) (tid : Nat) (t : Thread) : (setThread s tid t).ballast = s.ballast := rfl
@[simp] theorem setThread_lastArb (s : State) (tid : Nat) (t : Thread) : (setThread s tid t).lastArb = s.lastArb := rfl
@[simp] theorem setThread_lseq (s : State) (tid : Nat) (t : Thread) : (setThread s tid t).lseq = s.lseq := rfl
@[simp] theorem setThread_mem (s : State) (tid : Nat) (t : Thread) : (setThread s tid t).mem = s.mem := rfl
@[simp] theorem setThread_stores (s : State) (tid : Nat) (t : Thread) : (setThread s tid t).stores = s.stores := rfl
@[simp] theorem setThread_poison (s : State) (tid : Nat) (t : Thread) : (setThread s tid t).poison = s.poison := rfl
@[simp] theorem setThread_keytags (s : State) (tid : Nat) (t : Thread) : (setThread s tid t).keytags = s.keytags := rfl
@[simp] theorem setThread_backed (s : State) (tid : Nat) (t : Thread) : (setThread s tid t).backed = s.backed := rfl
@[simp] theorem setThread_pages (s : State) (tid : Nat) (t : Thread) : (setThread s tid t).pages = s.pages := rfl
@[simp] theorem setThread_xt (s : State) (tid : Nat) (t : Thread) : (setThread s tid t).xt = s.xt := rfl
@[simp] theorem setThread_plots (s : State) (tid : Nat) (t : Thread) : (setThread s tid t).plots = s.plots := rfl
@[simp] theorem setThread_pes (s : State) (tid : Nat) (t : Thread) : (setThread s tid t).pes = s.pes := rfl
@[simp] theorem setThread_launches (s : State) (tid : Nat) (t : Thread) : (setThread s tid t).launches = s.launches := rfl
@[simp] theorem setThread_waiting (s : State) (tid : Nat) (t : Thread) : (setThread s tid t).waiting = s.waiting := rfl
@[simp] theorem setThread_vds (s : State) (tid : Nat) (t : Thread) : (setThread s tid t).vds = s.vds := rfl
@[simp] theorem setThread_slots (s : State) (tid : Nat) (t : Thread) : (setThread s tid t).slots = s.slots := rfl
@[simp] theorem setThread_receipts (s : State) (tid : Nat) (t : Thread) : (setThread s tid t).receipts = s.receipts := rfl
@[simp] theorem setThread_colls (s : State) (tid : Nat) (t : Thread) : (setThread s tid t).colls = s.colls := rfl
@[simp] theorem setThread_copyRr (s : State) (tid : Nat) (t : Thread) : (setThread s tid t).copyRr = s.copyRr := rfl
@[simp] theorem setThread_brock (s : State) (tid : Nat) (t : Thread) : (setThread s tid t).brock = s.brock := rfl
@[simp] theorem setThread_replies (s : State) (tid : Nat) (t : Thread) : (setThread s tid t).replies = s.replies := rfl
@[simp] theorem setThread_kcpHeld (s : State) (tid : Nat) (t : Thread) : (setThread s tid t).kcpHeld = s.kcpHeld := rfl

/-! ## setPlot -/

@[simp] theorem setPlot_agenda (s : State) (p : Nat) (x : Plot) : (setPlot s p x).agenda = s.agenda := rfl
@[simp] theorem setPlot_pace (s : State) (p : Nat) (x : Plot) : (setPlot s p x).pace = s.pace := rfl
@[simp] theorem setPlot_turn (s : State) (p : Nat) (x : Plot) : (setPlot s p x).turn = s.turn := rfl
@[simp] theorem setPlot_free (s : State) (p : Nat) (x : Plot) : (setPlot s p x).free = s.free := rfl
@[simp] theorem setPlot_cur (s : State) (p : Nat) (x : Plot) : (setPlot s p x).cur = s.cur := rfl
@[simp] theorem setPlot_latch (s : State) (p : Nat) (x : Plot) : (setPlot s p x).latch = s.latch := rfl
@[simp] theorem setPlot_lateLoads (s : State) (p : Nat) (x : Plot) : (setPlot s p x).lateLoads = s.lateLoads := rfl
@[simp] theorem setPlot_nextTid (s : State) (p : Nat) (x : Plot) : (setPlot s p x).nextTid = s.nextTid := rfl
@[simp] theorem setPlot_time (s : State) (p : Nat) (x : Plot) : (setPlot s p x).time = s.time := rfl
@[simp] theorem setPlot_full (s : State) (p : Nat) (x : Plot) : (setPlot s p x).full = s.full := rfl
@[simp] theorem setPlot_bringup (s : State) (p : Nat) (x : Plot) : (setPlot s p x).bringup = s.bringup := rfl
@[simp] theorem setPlot_fw (s : State) (p : Nat) (x : Plot) : (setPlot s p x).fw = s.fw := rfl
@[simp] theorem setPlot_running (s : State) (p : Nat) (x : Plot) : (setPlot s p x).running = s.running := rfl
@[simp] theorem setPlot_maxSvn (s : State) (p : Nat) (x : Plot) : (setPlot s p x).maxSvn = s.maxSvn := rfl
@[simp] theorem setPlot_energy (s : State) (p : Nat) (x : Plot) : (setPlot s p x).energy = s.energy := rfl
@[simp] theorem setPlot_l2ce (s : State) (p : Nat) (x : Plot) : (setPlot s p x).l2ce = s.l2ce := rfl
@[simp] theorem setPlot_mhz (s : State) (p : Nat) (x : Plot) : (setPlot s p x).mhz = s.mhz := rfl
@[simp] theorem setPlot_atFloor (s : State) (p : Nat) (x : Plot) : (setPlot s p x).atFloor = s.atFloor := rfl
@[simp] theorem setPlot_ballast (s : State) (p : Nat) (x : Plot) : (setPlot s p x).ballast = s.ballast := rfl
@[simp] theorem setPlot_lastArb (s : State) (p : Nat) (x : Plot) : (setPlot s p x).lastArb = s.lastArb := rfl
@[simp] theorem setPlot_lseq (s : State) (p : Nat) (x : Plot) : (setPlot s p x).lseq = s.lseq := rfl
@[simp] theorem setPlot_mem (s : State) (p : Nat) (x : Plot) : (setPlot s p x).mem = s.mem := rfl
@[simp] theorem setPlot_stores (s : State) (p : Nat) (x : Plot) : (setPlot s p x).stores = s.stores := rfl
@[simp] theorem setPlot_poison (s : State) (p : Nat) (x : Plot) : (setPlot s p x).poison = s.poison := rfl
@[simp] theorem setPlot_keytags (s : State) (p : Nat) (x : Plot) : (setPlot s p x).keytags = s.keytags := rfl
@[simp] theorem setPlot_backed (s : State) (p : Nat) (x : Plot) : (setPlot s p x).backed = s.backed := rfl
@[simp] theorem setPlot_pages (s : State) (p : Nat) (x : Plot) : (setPlot s p x).pages = s.pages := rfl
@[simp] theorem setPlot_xt (s : State) (p : Nat) (x : Plot) : (setPlot s p x).xt = s.xt := rfl
@[simp] theorem setPlot_threads (s : State) (p : Nat) (x : Plot) : (setPlot s p x).threads = s.threads := rfl
@[simp] theorem setPlot_pes (s : State) (p : Nat) (x : Plot) : (setPlot s p x).pes = s.pes := rfl
@[simp] theorem setPlot_launches (s : State) (p : Nat) (x : Plot) : (setPlot s p x).launches = s.launches := rfl
@[simp] theorem setPlot_waiting (s : State) (p : Nat) (x : Plot) : (setPlot s p x).waiting = s.waiting := rfl
@[simp] theorem setPlot_vds (s : State) (p : Nat) (x : Plot) : (setPlot s p x).vds = s.vds := rfl
@[simp] theorem setPlot_slots (s : State) (p : Nat) (x : Plot) : (setPlot s p x).slots = s.slots := rfl
@[simp] theorem setPlot_receipts (s : State) (p : Nat) (x : Plot) : (setPlot s p x).receipts = s.receipts := rfl
@[simp] theorem setPlot_colls (s : State) (p : Nat) (x : Plot) : (setPlot s p x).colls = s.colls := rfl
@[simp] theorem setPlot_copyRr (s : State) (p : Nat) (x : Plot) : (setPlot s p x).copyRr = s.copyRr := rfl
@[simp] theorem setPlot_brock (s : State) (p : Nat) (x : Plot) : (setPlot s p x).brock = s.brock := rfl
@[simp] theorem setPlot_replies (s : State) (p : Nat) (x : Plot) : (setPlot s p x).replies = s.replies := rfl
@[simp] theorem setPlot_kcpHeld (s : State) (p : Nat) (x : Plot) : (setPlot s p x).kcpHeld = s.kcpHeld := rfl

/-! ## setPe -/

@[simp] theorem setPe_agenda (s : State) (p : Nat) (x : PE) : (setPe s p x).agenda = s.agenda := rfl
@[simp] theorem setPe_pace (s : State) (p : Nat) (x : PE) : (setPe s p x).pace = s.pace := rfl
@[simp] theorem setPe_turn (s : State) (p : Nat) (x : PE) : (setPe s p x).turn = s.turn := rfl
@[simp] theorem setPe_free (s : State) (p : Nat) (x : PE) : (setPe s p x).free = s.free := rfl
@[simp] theorem setPe_cur (s : State) (p : Nat) (x : PE) : (setPe s p x).cur = s.cur := rfl
@[simp] theorem setPe_latch (s : State) (p : Nat) (x : PE) : (setPe s p x).latch = s.latch := rfl
@[simp] theorem setPe_lateLoads (s : State) (p : Nat) (x : PE) : (setPe s p x).lateLoads = s.lateLoads := rfl
@[simp] theorem setPe_nextTid (s : State) (p : Nat) (x : PE) : (setPe s p x).nextTid = s.nextTid := rfl
@[simp] theorem setPe_time (s : State) (p : Nat) (x : PE) : (setPe s p x).time = s.time := rfl
@[simp] theorem setPe_full (s : State) (p : Nat) (x : PE) : (setPe s p x).full = s.full := rfl
@[simp] theorem setPe_bringup (s : State) (p : Nat) (x : PE) : (setPe s p x).bringup = s.bringup := rfl
@[simp] theorem setPe_fw (s : State) (p : Nat) (x : PE) : (setPe s p x).fw = s.fw := rfl
@[simp] theorem setPe_running (s : State) (p : Nat) (x : PE) : (setPe s p x).running = s.running := rfl
@[simp] theorem setPe_maxSvn (s : State) (p : Nat) (x : PE) : (setPe s p x).maxSvn = s.maxSvn := rfl
@[simp] theorem setPe_energy (s : State) (p : Nat) (x : PE) : (setPe s p x).energy = s.energy := rfl
@[simp] theorem setPe_l2ce (s : State) (p : Nat) (x : PE) : (setPe s p x).l2ce = s.l2ce := rfl
@[simp] theorem setPe_mhz (s : State) (p : Nat) (x : PE) : (setPe s p x).mhz = s.mhz := rfl
@[simp] theorem setPe_atFloor (s : State) (p : Nat) (x : PE) : (setPe s p x).atFloor = s.atFloor := rfl
@[simp] theorem setPe_ballast (s : State) (p : Nat) (x : PE) : (setPe s p x).ballast = s.ballast := rfl
@[simp] theorem setPe_lastArb (s : State) (p : Nat) (x : PE) : (setPe s p x).lastArb = s.lastArb := rfl
@[simp] theorem setPe_lseq (s : State) (p : Nat) (x : PE) : (setPe s p x).lseq = s.lseq := rfl
@[simp] theorem setPe_mem (s : State) (p : Nat) (x : PE) : (setPe s p x).mem = s.mem := rfl
@[simp] theorem setPe_stores (s : State) (p : Nat) (x : PE) : (setPe s p x).stores = s.stores := rfl
@[simp] theorem setPe_poison (s : State) (p : Nat) (x : PE) : (setPe s p x).poison = s.poison := rfl
@[simp] theorem setPe_keytags (s : State) (p : Nat) (x : PE) : (setPe s p x).keytags = s.keytags := rfl
@[simp] theorem setPe_backed (s : State) (p : Nat) (x : PE) : (setPe s p x).backed = s.backed := rfl
@[simp] theorem setPe_pages (s : State) (p : Nat) (x : PE) : (setPe s p x).pages = s.pages := rfl
@[simp] theorem setPe_xt (s : State) (p : Nat) (x : PE) : (setPe s p x).xt = s.xt := rfl
@[simp] theorem setPe_threads (s : State) (p : Nat) (x : PE) : (setPe s p x).threads = s.threads := rfl
@[simp] theorem setPe_plots (s : State) (p : Nat) (x : PE) : (setPe s p x).plots = s.plots := rfl
@[simp] theorem setPe_launches (s : State) (p : Nat) (x : PE) : (setPe s p x).launches = s.launches := rfl
@[simp] theorem setPe_waiting (s : State) (p : Nat) (x : PE) : (setPe s p x).waiting = s.waiting := rfl
@[simp] theorem setPe_vds (s : State) (p : Nat) (x : PE) : (setPe s p x).vds = s.vds := rfl
@[simp] theorem setPe_slots (s : State) (p : Nat) (x : PE) : (setPe s p x).slots = s.slots := rfl
@[simp] theorem setPe_receipts (s : State) (p : Nat) (x : PE) : (setPe s p x).receipts = s.receipts := rfl
@[simp] theorem setPe_colls (s : State) (p : Nat) (x : PE) : (setPe s p x).colls = s.colls := rfl
@[simp] theorem setPe_copyRr (s : State) (p : Nat) (x : PE) : (setPe s p x).copyRr = s.copyRr := rfl
@[simp] theorem setPe_brock (s : State) (p : Nat) (x : PE) : (setPe s p x).brock = s.brock := rfl
@[simp] theorem setPe_replies (s : State) (p : Nat) (x : PE) : (setPe s p x).replies = s.replies := rfl
@[simp] theorem setPe_kcpHeld (s : State) (p : Nat) (x : PE) : (setPe s p x).kcpHeld = s.kcpHeld := rfl

/-! ## setLaunch -/

@[simp] theorem setLaunch_agenda (s : State) (x : Launch) : (setLaunch s x).agenda = s.agenda := rfl
@[simp] theorem setLaunch_pace (s : State) (x : Launch) : (setLaunch s x).pace = s.pace := rfl
@[simp] theorem setLaunch_turn (s : State) (x : Launch) : (setLaunch s x).turn = s.turn := rfl
@[simp] theorem setLaunch_free (s : State) (x : Launch) : (setLaunch s x).free = s.free := rfl
@[simp] theorem setLaunch_cur (s : State) (x : Launch) : (setLaunch s x).cur = s.cur := rfl
@[simp] theorem setLaunch_latch (s : State) (x : Launch) : (setLaunch s x).latch = s.latch := rfl
@[simp] theorem setLaunch_lateLoads (s : State) (x : Launch) : (setLaunch s x).lateLoads = s.lateLoads := rfl
@[simp] theorem setLaunch_nextTid (s : State) (x : Launch) : (setLaunch s x).nextTid = s.nextTid := rfl
@[simp] theorem setLaunch_time (s : State) (x : Launch) : (setLaunch s x).time = s.time := rfl
@[simp] theorem setLaunch_full (s : State) (x : Launch) : (setLaunch s x).full = s.full := rfl
@[simp] theorem setLaunch_bringup (s : State) (x : Launch) : (setLaunch s x).bringup = s.bringup := rfl
@[simp] theorem setLaunch_fw (s : State) (x : Launch) : (setLaunch s x).fw = s.fw := rfl
@[simp] theorem setLaunch_running (s : State) (x : Launch) : (setLaunch s x).running = s.running := rfl
@[simp] theorem setLaunch_maxSvn (s : State) (x : Launch) : (setLaunch s x).maxSvn = s.maxSvn := rfl
@[simp] theorem setLaunch_energy (s : State) (x : Launch) : (setLaunch s x).energy = s.energy := rfl
@[simp] theorem setLaunch_l2ce (s : State) (x : Launch) : (setLaunch s x).l2ce = s.l2ce := rfl
@[simp] theorem setLaunch_mhz (s : State) (x : Launch) : (setLaunch s x).mhz = s.mhz := rfl
@[simp] theorem setLaunch_atFloor (s : State) (x : Launch) : (setLaunch s x).atFloor = s.atFloor := rfl
@[simp] theorem setLaunch_ballast (s : State) (x : Launch) : (setLaunch s x).ballast = s.ballast := rfl
@[simp] theorem setLaunch_lastArb (s : State) (x : Launch) : (setLaunch s x).lastArb = s.lastArb := rfl
@[simp] theorem setLaunch_lseq (s : State) (x : Launch) : (setLaunch s x).lseq = s.lseq := rfl
@[simp] theorem setLaunch_mem (s : State) (x : Launch) : (setLaunch s x).mem = s.mem := rfl
@[simp] theorem setLaunch_stores (s : State) (x : Launch) : (setLaunch s x).stores = s.stores := rfl
@[simp] theorem setLaunch_poison (s : State) (x : Launch) : (setLaunch s x).poison = s.poison := rfl
@[simp] theorem setLaunch_keytags (s : State) (x : Launch) : (setLaunch s x).keytags = s.keytags := rfl
@[simp] theorem setLaunch_backed (s : State) (x : Launch) : (setLaunch s x).backed = s.backed := rfl
@[simp] theorem setLaunch_pages (s : State) (x : Launch) : (setLaunch s x).pages = s.pages := rfl
@[simp] theorem setLaunch_xt (s : State) (x : Launch) : (setLaunch s x).xt = s.xt := rfl
@[simp] theorem setLaunch_threads (s : State) (x : Launch) : (setLaunch s x).threads = s.threads := rfl
@[simp] theorem setLaunch_plots (s : State) (x : Launch) : (setLaunch s x).plots = s.plots := rfl
@[simp] theorem setLaunch_pes (s : State) (x : Launch) : (setLaunch s x).pes = s.pes := rfl
@[simp] theorem setLaunch_waiting (s : State) (x : Launch) : (setLaunch s x).waiting = s.waiting := rfl
@[simp] theorem setLaunch_vds (s : State) (x : Launch) : (setLaunch s x).vds = s.vds := rfl
@[simp] theorem setLaunch_slots (s : State) (x : Launch) : (setLaunch s x).slots = s.slots := rfl
@[simp] theorem setLaunch_receipts (s : State) (x : Launch) : (setLaunch s x).receipts = s.receipts := rfl
@[simp] theorem setLaunch_colls (s : State) (x : Launch) : (setLaunch s x).colls = s.colls := rfl
@[simp] theorem setLaunch_copyRr (s : State) (x : Launch) : (setLaunch s x).copyRr = s.copyRr := rfl
@[simp] theorem setLaunch_brock (s : State) (x : Launch) : (setLaunch s x).brock = s.brock := rfl
@[simp] theorem setLaunch_replies (s : State) (x : Launch) : (setLaunch s x).replies = s.replies := rfl
@[simp] theorem setLaunch_kcpHeld (s : State) (x : Launch) : (setLaunch s x).kcpHeld = s.kcpHeld := rfl

/-! ## setVd -/

@[simp] theorem setVd_agenda (s : State) (v : Nat) (x : VD) : (setVd s v x).agenda = s.agenda := rfl
@[simp] theorem setVd_pace (s : State) (v : Nat) (x : VD) : (setVd s v x).pace = s.pace := rfl
@[simp] theorem setVd_turn (s : State) (v : Nat) (x : VD) : (setVd s v x).turn = s.turn := rfl
@[simp] theorem setVd_free (s : State) (v : Nat) (x : VD) : (setVd s v x).free = s.free := rfl
@[simp] theorem setVd_cur (s : State) (v : Nat) (x : VD) : (setVd s v x).cur = s.cur := rfl
@[simp] theorem setVd_latch (s : State) (v : Nat) (x : VD) : (setVd s v x).latch = s.latch := rfl
@[simp] theorem setVd_lateLoads (s : State) (v : Nat) (x : VD) : (setVd s v x).lateLoads = s.lateLoads := rfl
@[simp] theorem setVd_nextTid (s : State) (v : Nat) (x : VD) : (setVd s v x).nextTid = s.nextTid := rfl
@[simp] theorem setVd_time (s : State) (v : Nat) (x : VD) : (setVd s v x).time = s.time := rfl
@[simp] theorem setVd_full (s : State) (v : Nat) (x : VD) : (setVd s v x).full = s.full := rfl
@[simp] theorem setVd_bringup (s : State) (v : Nat) (x : VD) : (setVd s v x).bringup = s.bringup := rfl
@[simp] theorem setVd_fw (s : State) (v : Nat) (x : VD) : (setVd s v x).fw = s.fw := rfl
@[simp] theorem setVd_running (s : State) (v : Nat) (x : VD) : (setVd s v x).running = s.running := rfl
@[simp] theorem setVd_maxSvn (s : State) (v : Nat) (x : VD) : (setVd s v x).maxSvn = s.maxSvn := rfl
@[simp] theorem setVd_energy (s : State) (v : Nat) (x : VD) : (setVd s v x).energy = s.energy := rfl
@[simp] theorem setVd_l2ce (s : State) (v : Nat) (x : VD) : (setVd s v x).l2ce = s.l2ce := rfl
@[simp] theorem setVd_mhz (s : State) (v : Nat) (x : VD) : (setVd s v x).mhz = s.mhz := rfl
@[simp] theorem setVd_atFloor (s : State) (v : Nat) (x : VD) : (setVd s v x).atFloor = s.atFloor := rfl
@[simp] theorem setVd_ballast (s : State) (v : Nat) (x : VD) : (setVd s v x).ballast = s.ballast := rfl
@[simp] theorem setVd_lastArb (s : State) (v : Nat) (x : VD) : (setVd s v x).lastArb = s.lastArb := rfl
@[simp] theorem setVd_lseq (s : State) (v : Nat) (x : VD) : (setVd s v x).lseq = s.lseq := rfl
@[simp] theorem setVd_mem (s : State) (v : Nat) (x : VD) : (setVd s v x).mem = s.mem := rfl
@[simp] theorem setVd_stores (s : State) (v : Nat) (x : VD) : (setVd s v x).stores = s.stores := rfl
@[simp] theorem setVd_poison (s : State) (v : Nat) (x : VD) : (setVd s v x).poison = s.poison := rfl
@[simp] theorem setVd_keytags (s : State) (v : Nat) (x : VD) : (setVd s v x).keytags = s.keytags := rfl
@[simp] theorem setVd_backed (s : State) (v : Nat) (x : VD) : (setVd s v x).backed = s.backed := rfl
@[simp] theorem setVd_pages (s : State) (v : Nat) (x : VD) : (setVd s v x).pages = s.pages := rfl
@[simp] theorem setVd_xt (s : State) (v : Nat) (x : VD) : (setVd s v x).xt = s.xt := rfl
@[simp] theorem setVd_threads (s : State) (v : Nat) (x : VD) : (setVd s v x).threads = s.threads := rfl
@[simp] theorem setVd_plots (s : State) (v : Nat) (x : VD) : (setVd s v x).plots = s.plots := rfl
@[simp] theorem setVd_pes (s : State) (v : Nat) (x : VD) : (setVd s v x).pes = s.pes := rfl
@[simp] theorem setVd_launches (s : State) (v : Nat) (x : VD) : (setVd s v x).launches = s.launches := rfl
@[simp] theorem setVd_waiting (s : State) (v : Nat) (x : VD) : (setVd s v x).waiting = s.waiting := rfl
@[simp] theorem setVd_slots (s : State) (v : Nat) (x : VD) : (setVd s v x).slots = s.slots := rfl
@[simp] theorem setVd_receipts (s : State) (v : Nat) (x : VD) : (setVd s v x).receipts = s.receipts := rfl
@[simp] theorem setVd_colls (s : State) (v : Nat) (x : VD) : (setVd s v x).colls = s.colls := rfl
@[simp] theorem setVd_copyRr (s : State) (v : Nat) (x : VD) : (setVd s v x).copyRr = s.copyRr := rfl
@[simp] theorem setVd_brock (s : State) (v : Nat) (x : VD) : (setVd s v x).brock = s.brock := rfl
@[simp] theorem setVd_replies (s : State) (v : Nat) (x : VD) : (setVd s v x).replies = s.replies := rfl
@[simp] theorem setVd_kcpHeld (s : State) (v : Nat) (x : VD) : (setVd s v x).kcpHeld = s.kcpHeld := rfl

/-! ## putSlot -/

@[simp] theorem putSlot_agenda (s : State) (k : Nat) (x : KeySlot) : (putSlot s k x).agenda = s.agenda := rfl
@[simp] theorem putSlot_pace (s : State) (k : Nat) (x : KeySlot) : (putSlot s k x).pace = s.pace := rfl
@[simp] theorem putSlot_turn (s : State) (k : Nat) (x : KeySlot) : (putSlot s k x).turn = s.turn := rfl
@[simp] theorem putSlot_free (s : State) (k : Nat) (x : KeySlot) : (putSlot s k x).free = s.free := rfl
@[simp] theorem putSlot_cur (s : State) (k : Nat) (x : KeySlot) : (putSlot s k x).cur = s.cur := rfl
@[simp] theorem putSlot_latch (s : State) (k : Nat) (x : KeySlot) : (putSlot s k x).latch = s.latch := rfl
@[simp] theorem putSlot_lateLoads (s : State) (k : Nat) (x : KeySlot) : (putSlot s k x).lateLoads = s.lateLoads := rfl
@[simp] theorem putSlot_nextTid (s : State) (k : Nat) (x : KeySlot) : (putSlot s k x).nextTid = s.nextTid := rfl
@[simp] theorem putSlot_time (s : State) (k : Nat) (x : KeySlot) : (putSlot s k x).time = s.time := rfl
@[simp] theorem putSlot_full (s : State) (k : Nat) (x : KeySlot) : (putSlot s k x).full = s.full := rfl
@[simp] theorem putSlot_bringup (s : State) (k : Nat) (x : KeySlot) : (putSlot s k x).bringup = s.bringup := rfl
@[simp] theorem putSlot_fw (s : State) (k : Nat) (x : KeySlot) : (putSlot s k x).fw = s.fw := rfl
@[simp] theorem putSlot_running (s : State) (k : Nat) (x : KeySlot) : (putSlot s k x).running = s.running := rfl
@[simp] theorem putSlot_maxSvn (s : State) (k : Nat) (x : KeySlot) : (putSlot s k x).maxSvn = s.maxSvn := rfl
@[simp] theorem putSlot_energy (s : State) (k : Nat) (x : KeySlot) : (putSlot s k x).energy = s.energy := rfl
@[simp] theorem putSlot_l2ce (s : State) (k : Nat) (x : KeySlot) : (putSlot s k x).l2ce = s.l2ce := rfl
@[simp] theorem putSlot_mhz (s : State) (k : Nat) (x : KeySlot) : (putSlot s k x).mhz = s.mhz := rfl
@[simp] theorem putSlot_atFloor (s : State) (k : Nat) (x : KeySlot) : (putSlot s k x).atFloor = s.atFloor := rfl
@[simp] theorem putSlot_ballast (s : State) (k : Nat) (x : KeySlot) : (putSlot s k x).ballast = s.ballast := rfl
@[simp] theorem putSlot_lastArb (s : State) (k : Nat) (x : KeySlot) : (putSlot s k x).lastArb = s.lastArb := rfl
@[simp] theorem putSlot_lseq (s : State) (k : Nat) (x : KeySlot) : (putSlot s k x).lseq = s.lseq := rfl
@[simp] theorem putSlot_mem (s : State) (k : Nat) (x : KeySlot) : (putSlot s k x).mem = s.mem := rfl
@[simp] theorem putSlot_stores (s : State) (k : Nat) (x : KeySlot) : (putSlot s k x).stores = s.stores := rfl
@[simp] theorem putSlot_poison (s : State) (k : Nat) (x : KeySlot) : (putSlot s k x).poison = s.poison := rfl
@[simp] theorem putSlot_keytags (s : State) (k : Nat) (x : KeySlot) : (putSlot s k x).keytags = s.keytags := rfl
@[simp] theorem putSlot_backed (s : State) (k : Nat) (x : KeySlot) : (putSlot s k x).backed = s.backed := rfl
@[simp] theorem putSlot_pages (s : State) (k : Nat) (x : KeySlot) : (putSlot s k x).pages = s.pages := rfl
@[simp] theorem putSlot_xt (s : State) (k : Nat) (x : KeySlot) : (putSlot s k x).xt = s.xt := rfl
@[simp] theorem putSlot_threads (s : State) (k : Nat) (x : KeySlot) : (putSlot s k x).threads = s.threads := rfl
@[simp] theorem putSlot_plots (s : State) (k : Nat) (x : KeySlot) : (putSlot s k x).plots = s.plots := rfl
@[simp] theorem putSlot_pes (s : State) (k : Nat) (x : KeySlot) : (putSlot s k x).pes = s.pes := rfl
@[simp] theorem putSlot_launches (s : State) (k : Nat) (x : KeySlot) : (putSlot s k x).launches = s.launches := rfl
@[simp] theorem putSlot_waiting (s : State) (k : Nat) (x : KeySlot) : (putSlot s k x).waiting = s.waiting := rfl
@[simp] theorem putSlot_vds (s : State) (k : Nat) (x : KeySlot) : (putSlot s k x).vds = s.vds := rfl
@[simp] theorem putSlot_receipts (s : State) (k : Nat) (x : KeySlot) : (putSlot s k x).receipts = s.receipts := rfl
@[simp] theorem putSlot_colls (s : State) (k : Nat) (x : KeySlot) : (putSlot s k x).colls = s.colls := rfl
@[simp] theorem putSlot_copyRr (s : State) (k : Nat) (x : KeySlot) : (putSlot s k x).copyRr = s.copyRr := rfl
@[simp] theorem putSlot_brock (s : State) (k : Nat) (x : KeySlot) : (putSlot s k x).brock = s.brock := rfl
@[simp] theorem putSlot_replies (s : State) (k : Nat) (x : KeySlot) : (putSlot s k x).replies = s.replies := rfl
@[simp] theorem putSlot_kcpHeld (s : State) (k : Nat) (x : KeySlot) : (putSlot s k x).kcpHeld = s.kcpHeld := rfl

/-! ## setBrock -/

@[simp] theorem setBrock_agenda (s : State) (b : Brock) : (setBrock s b).agenda = s.agenda := rfl
@[simp] theorem setBrock_pace (s : State) (b : Brock) : (setBrock s b).pace = s.pace := rfl
@[simp] theorem setBrock_turn (s : State) (b : Brock) : (setBrock s b).turn = s.turn := rfl
@[simp] theorem setBrock_free (s : State) (b : Brock) : (setBrock s b).free = s.free := rfl
@[simp] theorem setBrock_cur (s : State) (b : Brock) : (setBrock s b).cur = s.cur := rfl
@[simp] theorem setBrock_latch (s : State) (b : Brock) : (setBrock s b).latch = s.latch := rfl
@[simp] theorem setBrock_lateLoads (s : State) (b : Brock) : (setBrock s b).lateLoads = s.lateLoads := rfl
@[simp] theorem setBrock_nextTid (s : State) (b : Brock) : (setBrock s b).nextTid = s.nextTid := rfl
@[simp] theorem setBrock_time (s : State) (b : Brock) : (setBrock s b).time = s.time := rfl
@[simp] theorem setBrock_full (s : State) (b : Brock) : (setBrock s b).full = s.full := rfl
@[simp] theorem setBrock_bringup (s : State) (b : Brock) : (setBrock s b).bringup = s.bringup := rfl
@[simp] theorem setBrock_fw (s : State) (b : Brock) : (setBrock s b).fw = s.fw := rfl
@[simp] theorem setBrock_running (s : State) (b : Brock) : (setBrock s b).running = s.running := rfl
@[simp] theorem setBrock_maxSvn (s : State) (b : Brock) : (setBrock s b).maxSvn = s.maxSvn := rfl
@[simp] theorem setBrock_energy (s : State) (b : Brock) : (setBrock s b).energy = s.energy := rfl
@[simp] theorem setBrock_l2ce (s : State) (b : Brock) : (setBrock s b).l2ce = s.l2ce := rfl
@[simp] theorem setBrock_mhz (s : State) (b : Brock) : (setBrock s b).mhz = s.mhz := rfl
@[simp] theorem setBrock_atFloor (s : State) (b : Brock) : (setBrock s b).atFloor = s.atFloor := rfl
@[simp] theorem setBrock_ballast (s : State) (b : Brock) : (setBrock s b).ballast = s.ballast := rfl
@[simp] theorem setBrock_lastArb (s : State) (b : Brock) : (setBrock s b).lastArb = s.lastArb := rfl
@[simp] theorem setBrock_lseq (s : State) (b : Brock) : (setBrock s b).lseq = s.lseq := rfl
@[simp] theorem setBrock_mem (s : State) (b : Brock) : (setBrock s b).mem = s.mem := rfl
@[simp] theorem setBrock_stores (s : State) (b : Brock) : (setBrock s b).stores = s.stores := rfl
@[simp] theorem setBrock_poison (s : State) (b : Brock) : (setBrock s b).poison = s.poison := rfl
@[simp] theorem setBrock_keytags (s : State) (b : Brock) : (setBrock s b).keytags = s.keytags := rfl
@[simp] theorem setBrock_backed (s : State) (b : Brock) : (setBrock s b).backed = s.backed := rfl
@[simp] theorem setBrock_pages (s : State) (b : Brock) : (setBrock s b).pages = s.pages := rfl
@[simp] theorem setBrock_xt (s : State) (b : Brock) : (setBrock s b).xt = s.xt := rfl
@[simp] theorem setBrock_threads (s : State) (b : Brock) : (setBrock s b).threads = s.threads := rfl
@[simp] theorem setBrock_plots (s : State) (b : Brock) : (setBrock s b).plots = s.plots := rfl
@[simp] theorem setBrock_pes (s : State) (b : Brock) : (setBrock s b).pes = s.pes := rfl
@[simp] theorem setBrock_launches (s : State) (b : Brock) : (setBrock s b).launches = s.launches := rfl
@[simp] theorem setBrock_waiting (s : State) (b : Brock) : (setBrock s b).waiting = s.waiting := rfl
@[simp] theorem setBrock_vds (s : State) (b : Brock) : (setBrock s b).vds = s.vds := rfl
@[simp] theorem setBrock_slots (s : State) (b : Brock) : (setBrock s b).slots = s.slots := rfl
@[simp] theorem setBrock_receipts (s : State) (b : Brock) : (setBrock s b).receipts = s.receipts := rfl
@[simp] theorem setBrock_colls (s : State) (b : Brock) : (setBrock s b).colls = s.colls := rfl
@[simp] theorem setBrock_copyRr (s : State) (b : Brock) : (setBrock s b).copyRr = s.copyRr := rfl
@[simp] theorem setBrock_replies (s : State) (b : Brock) : (setBrock s b).replies = s.replies := rfl
@[simp] theorem setBrock_kcpHeld (s : State) (b : Brock) : (setBrock s b).kcpHeld = s.kcpHeld := rfl

/-! ## Reading what was set -/

@[simp] theorem threadOf_setThread (s : State) (tid : Nat) (t : Thread) : threadOf (setThread s tid t) tid = some t :=
  lookup_insert_same _ _ _

theorem threadOf_setThread_other (s : State) {tid k : Nat} (t : Thread) (ne : k ≠ tid) :
    threadOf (setThread s tid t) k = threadOf s k :=
  lookup_insert_other _ _ ne

@[simp] theorem plotOf_setPlot (s : State) (p : Nat) (x : Plot) : plotOf (setPlot s p x) p = x := by
  simp [plotOf, setPlot, lookupD]

theorem plotOf_setPlot_other (s : State) {p k : Nat} (x : Plot) (ne : k ≠ p) : plotOf (setPlot s p x) k = plotOf s k := by
  simp [plotOf, setPlot, lookupD, lookup_insert_other _ _ ne]

@[simp] theorem peOf_setPe (s : State) (p : Nat) (x : PE) : peOf (setPe s p x) p = x := by
  simp [peOf, setPe, lookupD]

@[simp] theorem launchOf_setLaunch (s : State) (x : Launch) : launchOf (setLaunch s x) x.lseq = some x :=
  lookup_insert_same _ _ _

theorem launchOf_setLaunch_other (s : State) (x : Launch) {q : Nat} (ne : q ≠ x.lseq) :
    launchOf (setLaunch s x) q = launchOf s q :=
  lookup_insert_other _ _ ne

@[simp] theorem vdOf_setVd (s : State) (v : Nat) (x : VD) : vdOf (setVd s v x) v = some x := lookup_insert_same _ _ _

@[simp] theorem plotOf_setThread (s : State) (tid : Nat) (t : Thread) (n : Nat) : plotOf (setThread s tid t) n = plotOf s n := rfl
@[simp] theorem peOf_setThread (s : State) (tid : Nat) (t : Thread) (n : Nat) : peOf (setThread s tid t) n = peOf s n := rfl
@[simp] theorem launchOf_setThread (s : State) (tid : Nat) (t : Thread) (n : Nat) : launchOf (setThread s tid t) n = launchOf s n := rfl
@[simp] theorem vdOf_setThread (s : State) (tid : Nat) (t : Thread) (n : Nat) : vdOf (setThread s tid t) n = vdOf s n := rfl
@[simp] theorem slotOf_setThread (s : State) (tid : Nat) (t : Thread) (n : Nat) : slotOf (setThread s tid t) n = slotOf s n := rfl
@[simp] theorem threadOf_setPlot (s : State) (p : Nat) (x : Plot) (n : Nat) : threadOf (setPlot s p x) n = threadOf s n := rfl
@[simp] theorem peOf_setPlot (s : State) (p : Nat) (x : Plot) (n : Nat) : peOf (setPlot s p x) n = peOf s n := rfl
@[simp] theorem launchOf_setPlot (s : State) (p : Nat) (x : Plot) (n : Nat) : launchOf (setPlot s p x) n = launchOf s n := rfl
@[simp] theorem vdOf_setPlot (s : State) (p : Nat) (x : Plot) (n : Nat) : vdOf (setPlot s p x) n = vdOf s n := rfl
@[simp] theorem slotOf_setPlot (s : State) (p : Nat) (x : Plot) (n : Nat) : slotOf (setPlot s p x) n = slotOf s n := rfl
@[simp] theorem threadOf_setPe (s : State) (p : Nat) (x : PE) (n : Nat) : threadOf (setPe s p x) n = threadOf s n := rfl
@[simp] theorem plotOf_setPe (s : State) (p : Nat) (x : PE) (n : Nat) : plotOf (setPe s p x) n = plotOf s n := rfl
@[simp] theorem launchOf_setPe (s : State) (p : Nat) (x : PE) (n : Nat) : launchOf (setPe s p x) n = launchOf s n := rfl
@[simp] theorem vdOf_setPe (s : State) (p : Nat) (x : PE) (n : Nat) : vdOf (setPe s p x) n = vdOf s n := rfl
@[simp] theorem slotOf_setPe (s : State) (p : Nat) (x : PE) (n : Nat) : slotOf (setPe s p x) n = slotOf s n := rfl
@[simp] theorem threadOf_setLaunch (s : State) (x : Launch) (n : Nat) : threadOf (setLaunch s x) n = threadOf s n := rfl
@[simp] theorem plotOf_setLaunch (s : State) (x : Launch) (n : Nat) : plotOf (setLaunch s x) n = plotOf s n := rfl
@[simp] theorem peOf_setLaunch (s : State) (x : Launch) (n : Nat) : peOf (setLaunch s x) n = peOf s n := rfl
@[simp] theorem vdOf_setLaunch (s : State) (x : Launch) (n : Nat) : vdOf (setLaunch s x) n = vdOf s n := rfl
@[simp] theorem slotOf_setLaunch (s : State) (x : Launch) (n : Nat) : slotOf (setLaunch s x) n = slotOf s n := rfl
@[simp] theorem threadOf_setVd (s : State) (v : Nat) (x : VD) (n : Nat) : threadOf (setVd s v x) n = threadOf s n := rfl
@[simp] theorem plotOf_setVd (s : State) (v : Nat) (x : VD) (n : Nat) : plotOf (setVd s v x) n = plotOf s n := rfl
@[simp] theorem peOf_setVd (s : State) (v : Nat) (x : VD) (n : Nat) : peOf (setVd s v x) n = peOf s n := rfl
@[simp] theorem launchOf_setVd (s : State) (v : Nat) (x : VD) (n : Nat) : launchOf (setVd s v x) n = launchOf s n := rfl
@[simp] theorem slotOf_setVd (s : State) (v : Nat) (x : VD) (n : Nat) : slotOf (setVd s v x) n = slotOf s n := rfl
@[simp] theorem threadOf_putSlot (s : State) (k : Nat) (x : KeySlot) (n : Nat) : threadOf (putSlot s k x) n = threadOf s n := rfl
@[simp] theorem plotOf_putSlot (s : State) (k : Nat) (x : KeySlot) (n : Nat) : plotOf (putSlot s k x) n = plotOf s n := rfl
@[simp] theorem peOf_putSlot (s : State) (k : Nat) (x : KeySlot) (n : Nat) : peOf (putSlot s k x) n = peOf s n := rfl
@[simp] theorem launchOf_putSlot (s : State) (k : Nat) (x : KeySlot) (n : Nat) : launchOf (putSlot s k x) n = launchOf s n := rfl
@[simp] theorem vdOf_putSlot (s : State) (k : Nat) (x : KeySlot) (n : Nat) : vdOf (putSlot s k x) n = vdOf s n := rfl
@[simp] theorem threadOf_setBrock (s : State) (b : Brock) (n : Nat) : threadOf (setBrock s b) n = threadOf s n := rfl
@[simp] theorem plotOf_setBrock (s : State) (b : Brock) (n : Nat) : plotOf (setBrock s b) n = plotOf s n := rfl
@[simp] theorem peOf_setBrock (s : State) (b : Brock) (n : Nat) : peOf (setBrock s b) n = peOf s n := rfl
@[simp] theorem launchOf_setBrock (s : State) (b : Brock) (n : Nat) : launchOf (setBrock s b) n = launchOf s n := rfl
@[simp] theorem vdOf_setBrock (s : State) (b : Brock) (n : Nat) : vdOf (setBrock s b) n = vdOf s n := rfl
@[simp] theorem slotOf_setBrock (s : State) (b : Brock) (n : Nat) : slotOf (setBrock s b) n = slotOf s n := rfl

/-! ## Threads -/

/-- A register that a thread owns holds what was written; g0 stays zero (R13). -/
theorem setG_g_same {t : Thread} {n : Reg} (v : Word) (h : n.toNat < t.nreg) (nz : n ≠ 0#6) : (t.setG n v).g n = v := by
  simp only [Thread.g, Thread.setG, nz, if_false]
  exact setNth_getD_same _ _ h

theorem setG_g_other (t : Thread) {n k : Reg} (v : Word) (ne : k ≠ n) : (t.setG n v).g k = t.g k := by
  unfold Thread.setG Thread.g
  split
  · rfl
  · split
    · rfl
    · exact setNth_getD_other _ _ _ (fun e => ne (BitVec.eq_of_toNat_eq e))

@[simp] theorem g_zero (t : Thread) : t.g 0#6 = 0#64 := by simp [Thread.g]
@[simp] theorem setG_zero (t : Thread) (v : Word) : t.setG 0#6 v = t := by simp [Thread.setG]
@[simp] theorem p_zero (t : Thread) : t.p 0#3 = true := by simp [Thread.p]
@[simp] theorem setP_zero (t : Thread) (b : Bool) : t.setP 0#3 b = t := by simp [Thread.setP]
@[simp] theorem setG_nreg (t : Thread) (n : Reg) (v : Word) : (t.setG n v).nreg = t.nreg := by
  unfold Thread.setG Thread.nreg; split <;> simp

@[simp] theorem setG_lseq (t : Thread) (n : Reg) (v : Word) : (t.setG n v).lseq = t.lseq := by unfold Thread.setG; split <;> rfl
@[simp] theorem setG_idx (t : Thread) (n : Reg) (v : Word) : (t.setG n v).idx = t.idx := by unfold Thread.setG; split <;> rfl
@[simp] theorem setG_task (t : Thread) (n : Reg) (v : Word) : (t.setG n v).task = t.task := by unfold Thread.setG; split <;> rfl
@[simp] theorem setG_plot (t : Thread) (n : Reg) (v : Word) : (t.setG n v).plot = t.plot := by unfold Thread.setG; split <;> rfl
@[simp] theorem setG_slot (t : Thread) (n : Reg) (v : Word) : (t.setG n v).slot = t.slot := by unfold Thread.setG; split <;> rfl
@[simp] theorem setG_stat (t : Thread) (n : Reg) (v : Word) : (t.setG n v).stat = t.stat := by unfold Thread.setG; split <;> rfl
@[simp] theorem setG_pc (t : Thread) (n : Reg) (v : Word) : (t.setG n v).pc = t.pc := by unfold Thread.setG; split <;> rfl
@[simp] theorem setG_preds (t : Thread) (n : Reg) (v : Word) : (t.setG n v).preds = t.preds := by unfold Thread.setG; split <;> rfl
@[simp] theorem setG_tcmp (t : Thread) (n : Reg) (v : Word) : (t.setG n v).tcmp = t.tcmp := by unfold Thread.setG; split <;> rfl
@[simp] theorem setG_intrap (t : Thread) (n : Reg) (v : Word) : (t.setG n v).intrap = t.intrap := by unfold Thread.setG; split <;> rfl
@[simp] theorem setG_pmode (t : Thread) (n : Reg) (v : Word) : (t.setG n v).pmode = t.pmode := by unfold Thread.setG; split <;> rfl
@[simp] theorem setG_mode (t : Thread) (n : Reg) (v : Word) : (t.setG n v).mode = t.mode := by unfold Thread.setG; split <;> rfl
@[simp] theorem setG_epc (t : Thread) (n : Reg) (v : Word) : (t.setG n v).epc = t.epc := by unfold Thread.setG; split <;> rfl
@[simp] theorem setG_cause (t : Thread) (n : Reg) (v : Word) : (t.setG n v).cause = t.cause := by unfold Thread.setG; split <;> rfl
@[simp] theorem setG_tval (t : Thread) (n : Reg) (v : Word) : (t.setG n v).tval = t.tval := by unfold Thread.setG; split <;> rfl
@[simp] theorem setG_tvec (t : Thread) (n : Reg) (v : Word) : (t.setG n v).tvec = t.tvec := by unfold Thread.setG; split <;> rfl
@[simp] theorem setG_scratch (t : Thread) (n : Reg) (v : Word) : (t.setG n v).scratch = t.scratch := by unfold Thread.setG; split <;> rfl
@[simp] theorem setG_pend (t : Thread) (n : Reg) (v : Word) : (t.setG n v).pend = t.pend := by unfold Thread.setG; split <;> rfl
@[simp] theorem setG_lstart (t : Thread) (n : Reg) (v : Word) : (t.setG n v).lstart = t.lstart := by unfold Thread.setG; split <;> rfl
@[simp] theorem setG_lend (t : Thread) (n : Reg) (v : Word) : (t.setG n v).lend = t.lend := by unfold Thread.setG; split <;> rfl
@[simp] theorem setG_lcount (t : Thread) (n : Reg) (v : Word) : (t.setG n v).lcount = t.lcount := by unfold Thread.setG; split <;> rfl
@[simp] theorem setG_glseq (t : Thread) (n : Reg) (v : Word) : (t.setG n v).glseq = t.glseq := by unfold Thread.setG; split <;> rfl
@[simp] theorem setG_handles (t : Thread) (n : Reg) (v : Word) : (t.setG n v).handles = t.handles := by unfold Thread.setG; split <;> rfl
@[simp] theorem setG_htags (t : Thread) (n : Reg) (v : Word) : (t.setG n v).htags = t.htags := by unfold Thread.setG; split <;> rfl
@[simp] theorem setG_pins (t : Thread) (n : Reg) (v : Word) : (t.setG n v).pins = t.pins := by unfold Thread.setG; split <;> rfl
@[simp] theorem setG_groups (t : Thread) (n : Reg) (v : Word) : (t.setG n v).groups = t.groups := by unfold Thread.setG; split <;> rfl

@[simp] theorem setP_lseq (t : Thread) (n : Pred) (b : Bool) : (t.setP n b).lseq = t.lseq := by unfold Thread.setP; split <;> rfl
@[simp] theorem setP_idx (t : Thread) (n : Pred) (b : Bool) : (t.setP n b).idx = t.idx := by unfold Thread.setP; split <;> rfl
@[simp] theorem setP_task (t : Thread) (n : Pred) (b : Bool) : (t.setP n b).task = t.task := by unfold Thread.setP; split <;> rfl
@[simp] theorem setP_plot (t : Thread) (n : Pred) (b : Bool) : (t.setP n b).plot = t.plot := by unfold Thread.setP; split <;> rfl
@[simp] theorem setP_slot (t : Thread) (n : Pred) (b : Bool) : (t.setP n b).slot = t.slot := by unfold Thread.setP; split <;> rfl
@[simp] theorem setP_stat (t : Thread) (n : Pred) (b : Bool) : (t.setP n b).stat = t.stat := by unfold Thread.setP; split <;> rfl
@[simp] theorem setP_pc (t : Thread) (n : Pred) (b : Bool) : (t.setP n b).pc = t.pc := by unfold Thread.setP; split <;> rfl
@[simp] theorem setP_regs (t : Thread) (n : Pred) (b : Bool) : (t.setP n b).regs = t.regs := by unfold Thread.setP; split <;> rfl
@[simp] theorem setP_tcmp (t : Thread) (n : Pred) (b : Bool) : (t.setP n b).tcmp = t.tcmp := by unfold Thread.setP; split <;> rfl
@[simp] theorem setP_intrap (t : Thread) (n : Pred) (b : Bool) : (t.setP n b).intrap = t.intrap := by unfold Thread.setP; split <;> rfl
@[simp] theorem setP_pmode (t : Thread) (n : Pred) (b : Bool) : (t.setP n b).pmode = t.pmode := by unfold Thread.setP; split <;> rfl
@[simp] theorem setP_mode (t : Thread) (n : Pred) (b : Bool) : (t.setP n b).mode = t.mode := by unfold Thread.setP; split <;> rfl
@[simp] theorem setP_epc (t : Thread) (n : Pred) (b : Bool) : (t.setP n b).epc = t.epc := by unfold Thread.setP; split <;> rfl
@[simp] theorem setP_cause (t : Thread) (n : Pred) (b : Bool) : (t.setP n b).cause = t.cause := by unfold Thread.setP; split <;> rfl
@[simp] theorem setP_tval (t : Thread) (n : Pred) (b : Bool) : (t.setP n b).tval = t.tval := by unfold Thread.setP; split <;> rfl
@[simp] theorem setP_tvec (t : Thread) (n : Pred) (b : Bool) : (t.setP n b).tvec = t.tvec := by unfold Thread.setP; split <;> rfl
@[simp] theorem setP_scratch (t : Thread) (n : Pred) (b : Bool) : (t.setP n b).scratch = t.scratch := by unfold Thread.setP; split <;> rfl
@[simp] theorem setP_pend (t : Thread) (n : Pred) (b : Bool) : (t.setP n b).pend = t.pend := by unfold Thread.setP; split <;> rfl
@[simp] theorem setP_lstart (t : Thread) (n : Pred) (b : Bool) : (t.setP n b).lstart = t.lstart := by unfold Thread.setP; split <;> rfl
@[simp] theorem setP_lend (t : Thread) (n : Pred) (b : Bool) : (t.setP n b).lend = t.lend := by unfold Thread.setP; split <;> rfl
@[simp] theorem setP_lcount (t : Thread) (n : Pred) (b : Bool) : (t.setP n b).lcount = t.lcount := by unfold Thread.setP; split <;> rfl
@[simp] theorem setP_glseq (t : Thread) (n : Pred) (b : Bool) : (t.setP n b).glseq = t.glseq := by unfold Thread.setP; split <;> rfl
@[simp] theorem setP_handles (t : Thread) (n : Pred) (b : Bool) : (t.setP n b).handles = t.handles := by unfold Thread.setP; split <;> rfl
@[simp] theorem setP_htags (t : Thread) (n : Pred) (b : Bool) : (t.setP n b).htags = t.htags := by unfold Thread.setP; split <;> rfl
@[simp] theorem setP_pins (t : Thread) (n : Pred) (b : Bool) : (t.setP n b).pins = t.pins := by unfold Thread.setP; split <;> rfl
@[simp] theorem setP_loads (t : Thread) (n : Pred) (b : Bool) : (t.setP n b).loads = t.loads := by unfold Thread.setP; split <;> rfl
@[simp] theorem setP_groups (t : Thread) (n : Pred) (b : Bool) : (t.setP n b).groups = t.groups := by unfold Thread.setP; split <;> rfl

@[simp] theorem next_lseq (t : Thread) (len : Word) : (t.next len).lseq = t.lseq := by
  unfold Thread.next; split
  · rfl
  · split <;> rfl
@[simp] theorem next_idx (t : Thread) (len : Word) : (t.next len).idx = t.idx := by
  unfold Thread.next; split
  · rfl
  · split <;> rfl
@[simp] theorem next_task (t : Thread) (len : Word) : (t.next len).task = t.task := by
  unfold Thread.next; split
  · rfl
  · split <;> rfl
@[simp] theorem next_plot (t : Thread) (len : Word) : (t.next len).plot = t.plot := by
  unfold Thread.next; split
  · rfl
  · split <;> rfl
@[simp] theorem next_slot (t : Thread) (len : Word) : (t.next len).slot = t.slot := by
  unfold Thread.next; split
  · rfl
  · split <;> rfl
@[simp] theorem next_stat (t : Thread) (len : Word) : (t.next len).stat = t.stat := by
  unfold Thread.next; split
  · rfl
  · split <;> rfl
@[simp] theorem next_regs (t : Thread) (len : Word) : (t.next len).regs = t.regs := by
  unfold Thread.next; split
  · rfl
  · split <;> rfl
@[simp] theorem next_preds (t : Thread) (len : Word) : (t.next len).preds = t.preds := by
  unfold Thread.next; split
  · rfl
  · split <;> rfl
@[simp] theorem next_tcmp (t : Thread) (len : Word) : (t.next len).tcmp = t.tcmp := by
  unfold Thread.next; split
  · rfl
  · split <;> rfl
@[simp] theorem next_intrap (t : Thread) (len : Word) : (t.next len).intrap = t.intrap := by
  unfold Thread.next; split
  · rfl
  · split <;> rfl
@[simp] theorem next_pmode (t : Thread) (len : Word) : (t.next len).pmode = t.pmode := by
  unfold Thread.next; split
  · rfl
  · split <;> rfl
@[simp] theorem next_mode (t : Thread) (len : Word) : (t.next len).mode = t.mode := by
  unfold Thread.next; split
  · rfl
  · split <;> rfl
@[simp] theorem next_epc (t : Thread) (len : Word) : (t.next len).epc = t.epc := by
  unfold Thread.next; split
  · rfl
  · split <;> rfl
@[simp] theorem next_cause (t : Thread) (len : Word) : (t.next len).cause = t.cause := by
  unfold Thread.next; split
  · rfl
  · split <;> rfl
@[simp] theorem next_tval (t : Thread) (len : Word) : (t.next len).tval = t.tval := by
  unfold Thread.next; split
  · rfl
  · split <;> rfl
@[simp] theorem next_tvec (t : Thread) (len : Word) : (t.next len).tvec = t.tvec := by
  unfold Thread.next; split
  · rfl
  · split <;> rfl
@[simp] theorem next_scratch (t : Thread) (len : Word) : (t.next len).scratch = t.scratch := by
  unfold Thread.next; split
  · rfl
  · split <;> rfl
@[simp] theorem next_pend (t : Thread) (len : Word) : (t.next len).pend = t.pend := by
  unfold Thread.next; split
  · rfl
  · split <;> rfl
@[simp] theorem next_lstart (t : Thread) (len : Word) : (t.next len).lstart = t.lstart := by
  unfold Thread.next; split
  · rfl
  · split <;> rfl
@[simp] theorem next_lend (t : Thread) (len : Word) : (t.next len).lend = t.lend := by
  unfold Thread.next; split
  · rfl
  · split <;> rfl
@[simp] theorem next_glseq (t : Thread) (len : Word) : (t.next len).glseq = t.glseq := by
  unfold Thread.next; split
  · rfl
  · split <;> rfl
@[simp] theorem next_handles (t : Thread) (len : Word) : (t.next len).handles = t.handles := by
  unfold Thread.next; split
  · rfl
  · split <;> rfl
@[simp] theorem next_htags (t : Thread) (len : Word) : (t.next len).htags = t.htags := by
  unfold Thread.next; split
  · rfl
  · split <;> rfl
@[simp] theorem next_pins (t : Thread) (len : Word) : (t.next len).pins = t.pins := by
  unfold Thread.next; split
  · rfl
  · split <;> rfl
@[simp] theorem next_loads (t : Thread) (len : Word) : (t.next len).loads = t.loads := by
  unfold Thread.next; split
  · rfl
  · split <;> rfl
@[simp] theorem next_groups (t : Thread) (len : Word) : (t.next len).groups = t.groups := by
  unfold Thread.next; split
  · rfl
  · split <;> rfl

@[simp] theorem jump_lseq (t : Thread) (x : Word) : (t.jump x).lseq = t.lseq := by unfold Thread.jump; split <;> rfl
@[simp] theorem jump_idx (t : Thread) (x : Word) : (t.jump x).idx = t.idx := by unfold Thread.jump; split <;> rfl
@[simp] theorem jump_task (t : Thread) (x : Word) : (t.jump x).task = t.task := by unfold Thread.jump; split <;> rfl
@[simp] theorem jump_plot (t : Thread) (x : Word) : (t.jump x).plot = t.plot := by unfold Thread.jump; split <;> rfl
@[simp] theorem jump_slot (t : Thread) (x : Word) : (t.jump x).slot = t.slot := by unfold Thread.jump; split <;> rfl
@[simp] theorem jump_stat (t : Thread) (x : Word) : (t.jump x).stat = t.stat := by unfold Thread.jump; split <;> rfl
@[simp] theorem jump_regs (t : Thread) (x : Word) : (t.jump x).regs = t.regs := by unfold Thread.jump; split <;> rfl
@[simp] theorem jump_preds (t : Thread) (x : Word) : (t.jump x).preds = t.preds := by unfold Thread.jump; split <;> rfl
@[simp] theorem jump_tcmp (t : Thread) (x : Word) : (t.jump x).tcmp = t.tcmp := by unfold Thread.jump; split <;> rfl
@[simp] theorem jump_intrap (t : Thread) (x : Word) : (t.jump x).intrap = t.intrap := by unfold Thread.jump; split <;> rfl
@[simp] theorem jump_pmode (t : Thread) (x : Word) : (t.jump x).pmode = t.pmode := by unfold Thread.jump; split <;> rfl
@[simp] theorem jump_mode (t : Thread) (x : Word) : (t.jump x).mode = t.mode := by unfold Thread.jump; split <;> rfl
@[simp] theorem jump_epc (t : Thread) (x : Word) : (t.jump x).epc = t.epc := by unfold Thread.jump; split <;> rfl
@[simp] theorem jump_cause (t : Thread) (x : Word) : (t.jump x).cause = t.cause := by unfold Thread.jump; split <;> rfl
@[simp] theorem jump_tval (t : Thread) (x : Word) : (t.jump x).tval = t.tval := by unfold Thread.jump; split <;> rfl
@[simp] theorem jump_tvec (t : Thread) (x : Word) : (t.jump x).tvec = t.tvec := by unfold Thread.jump; split <;> rfl
@[simp] theorem jump_scratch (t : Thread) (x : Word) : (t.jump x).scratch = t.scratch := by unfold Thread.jump; split <;> rfl
@[simp] theorem jump_pend (t : Thread) (x : Word) : (t.jump x).pend = t.pend := by unfold Thread.jump; split <;> rfl
@[simp] theorem jump_lstart (t : Thread) (x : Word) : (t.jump x).lstart = t.lstart := by unfold Thread.jump; split <;> rfl
@[simp] theorem jump_lend (t : Thread) (x : Word) : (t.jump x).lend = t.lend := by unfold Thread.jump; split <;> rfl
@[simp] theorem jump_glseq (t : Thread) (x : Word) : (t.jump x).glseq = t.glseq := by unfold Thread.jump; split <;> rfl
@[simp] theorem jump_handles (t : Thread) (x : Word) : (t.jump x).handles = t.handles := by unfold Thread.jump; split <;> rfl
@[simp] theorem jump_htags (t : Thread) (x : Word) : (t.jump x).htags = t.htags := by unfold Thread.jump; split <;> rfl
@[simp] theorem jump_pins (t : Thread) (x : Word) : (t.jump x).pins = t.pins := by unfold Thread.jump; split <;> rfl
@[simp] theorem jump_loads (t : Thread) (x : Word) : (t.jump x).loads = t.loads := by unfold Thread.jump; split <;> rfl
@[simp] theorem jump_groups (t : Thread) (x : Word) : (t.jump x).groups = t.groups := by unfold Thread.jump; split <;> rfl

@[simp] theorem ret_lseq (t : Thread) : (t.ret).lseq = t.lseq := rfl
@[simp] theorem ret_idx (t : Thread) : (t.ret).idx = t.idx := rfl
@[simp] theorem ret_task (t : Thread) : (t.ret).task = t.task := rfl
@[simp] theorem ret_plot (t : Thread) : (t.ret).plot = t.plot := rfl
@[simp] theorem ret_slot (t : Thread) : (t.ret).slot = t.slot := rfl
@[simp] theorem ret_stat (t : Thread) : (t.ret).stat = t.stat := rfl
@[simp] theorem ret_regs (t : Thread) : (t.ret).regs = t.regs := rfl
@[simp] theorem ret_preds (t : Thread) : (t.ret).preds = t.preds := rfl
@[simp] theorem ret_tcmp (t : Thread) : (t.ret).tcmp = t.tcmp := rfl
@[simp] theorem ret_pmode (t : Thread) : (t.ret).pmode = t.pmode := rfl
@[simp] theorem ret_epc (t : Thread) : (t.ret).epc = t.epc := rfl
@[simp] theorem ret_cause (t : Thread) : (t.ret).cause = t.cause := rfl
@[simp] theorem ret_tval (t : Thread) : (t.ret).tval = t.tval := rfl
@[simp] theorem ret_tvec (t : Thread) : (t.ret).tvec = t.tvec := rfl
@[simp] theorem ret_scratch (t : Thread) : (t.ret).scratch = t.scratch := rfl
@[simp] theorem ret_pend (t : Thread) : (t.ret).pend = t.pend := rfl
@[simp] theorem ret_lstart (t : Thread) : (t.ret).lstart = t.lstart := rfl
@[simp] theorem ret_lend (t : Thread) : (t.ret).lend = t.lend := rfl
@[simp] theorem ret_lcount (t : Thread) : (t.ret).lcount = t.lcount := rfl
@[simp] theorem ret_glseq (t : Thread) : (t.ret).glseq = t.glseq := rfl
@[simp] theorem ret_handles (t : Thread) : (t.ret).handles = t.handles := rfl
@[simp] theorem ret_htags (t : Thread) : (t.ret).htags = t.htags := rfl
@[simp] theorem ret_pins (t : Thread) : (t.ret).pins = t.pins := rfl
@[simp] theorem ret_loads (t : Thread) : (t.ret).loads = t.loads := rfl
@[simp] theorem ret_groups (t : Thread) : (t.ret).groups = t.groups := rfl

@[simp] theorem enterTrap_lseq (t : Thread) (c : Nat) (e v : Word) : (t.enterTrap c e v).lseq = t.lseq := rfl
@[simp] theorem enterTrap_idx (t : Thread) (c : Nat) (e v : Word) : (t.enterTrap c e v).idx = t.idx := rfl
@[simp] theorem enterTrap_task (t : Thread) (c : Nat) (e v : Word) : (t.enterTrap c e v).task = t.task := rfl
@[simp] theorem enterTrap_plot (t : Thread) (c : Nat) (e v : Word) : (t.enterTrap c e v).plot = t.plot := rfl
@[simp] theorem enterTrap_slot (t : Thread) (c : Nat) (e v : Word) : (t.enterTrap c e v).slot = t.slot := rfl
@[simp] theorem enterTrap_regs (t : Thread) (c : Nat) (e v : Word) : (t.enterTrap c e v).regs = t.regs := rfl
@[simp] theorem enterTrap_preds (t : Thread) (c : Nat) (e v : Word) : (t.enterTrap c e v).preds = t.preds := rfl
@[simp] theorem enterTrap_tcmp (t : Thread) (c : Nat) (e v : Word) : (t.enterTrap c e v).tcmp = t.tcmp := rfl
@[simp] theorem enterTrap_tvec (t : Thread) (c : Nat) (e v : Word) : (t.enterTrap c e v).tvec = t.tvec := rfl
@[simp] theorem enterTrap_scratch (t : Thread) (c : Nat) (e v : Word) : (t.enterTrap c e v).scratch = t.scratch := rfl
@[simp] theorem enterTrap_pend (t : Thread) (c : Nat) (e v : Word) : (t.enterTrap c e v).pend = t.pend := rfl
@[simp] theorem enterTrap_lstart (t : Thread) (c : Nat) (e v : Word) : (t.enterTrap c e v).lstart = t.lstart := rfl
@[simp] theorem enterTrap_lend (t : Thread) (c : Nat) (e v : Word) : (t.enterTrap c e v).lend = t.lend := rfl
@[simp] theorem enterTrap_lcount (t : Thread) (c : Nat) (e v : Word) : (t.enterTrap c e v).lcount = t.lcount := rfl
@[simp] theorem enterTrap_glseq (t : Thread) (c : Nat) (e v : Word) : (t.enterTrap c e v).glseq = t.glseq := rfl
@[simp] theorem enterTrap_handles (t : Thread) (c : Nat) (e v : Word) : (t.enterTrap c e v).handles = t.handles := rfl
@[simp] theorem enterTrap_htags (t : Thread) (c : Nat) (e v : Word) : (t.enterTrap c e v).htags = t.htags := rfl
@[simp] theorem enterTrap_pins (t : Thread) (c : Nat) (e v : Word) : (t.enterTrap c e v).pins = t.pins := rfl
@[simp] theorem enterTrap_loads (t : Thread) (c : Nat) (e v : Word) : (t.enterTrap c e v).loads = t.loads := rfl
@[simp] theorem enterTrap_groups (t : Thread) (c : Nat) (e v : Word) : (t.enterTrap c e v).groups = t.groups := rfl

/-- An instruction's own step and jump leave the registers it has written (R281). -/
@[simp] theorem next_g (t : Thread) (len : Word) (n : Reg) : (t.next len).g n = t.g n := by simp [Thread.g]
@[simp] theorem next_p (t : Thread) (len : Word) (n : Pred) : (t.next len).p n = t.p n := by simp [Thread.p]
@[simp] theorem jump_g (t : Thread) (x : Word) (n : Reg) : (t.jump x).g n = t.g n := by simp [Thread.g]
@[simp] theorem jump_p (t : Thread) (x : Word) (n : Pred) : (t.jump x).p n = t.p n := by simp [Thread.p]

/-- A taken transfer goes to its target (R277, R278, R281). -/
@[simp] theorem jump_pc (t : Thread) (x : Word) : (t.jump x).pc = x := by unfold Thread.jump; split <;> rfl

end Sys2Proof.Laws
end

