-- ==== Sys2Proof/Laws/Ops.lean ====
section
/-!
SUPPORT. What each shared operation of an instruction can do, said once: the frame `instr`, the checks of an access and what they
leave alone, traps, waits and completions.
-/
set_option Elab.async false
namespace Sys2Proof.Laws
open Sys2Proof.Machine

/-! ## The frame of an instruction -/

theorem firstBad_none {t : Thread} {rs : List Reg} :
    firstBad t rs = none ↔ ∀ r ∈ rs, r = 0#6 ∨ r.toNat < t.nreg := by
  induction rs with
  | nil => simp [firstBad]
  | cons r rs ih =>
    simp only [firstBad]
    split
    · rename_i h
      simp only [reduceCtorEq, List.mem_cons, forall_eq_or_imp, false_iff, not_and]
      intro h'
      rcases h' with h' | h'
      · exact absurd h' h.1
      · exact absurd h.2 (Nat.not_le_of_gt h')
    · rename_i h
      rw [ih]; simp only [List.mem_cons, forall_eq_or_imp]
      refine ⟨fun h' => ⟨?_, h'⟩, fun h' => h'.2⟩
      by_cases hr : r = 0#6
      · exact .inl hr
      · exact .inr (Nat.lt_of_not_le fun hle => h ⟨hr, hle⟩)

theorem firstBad_first {t : Thread} {before after : List Reg} {r : Reg}
    (ok : ∀ q ∈ before, q = 0#6 ∨ q.toNat < t.nreg) (hr : r ≠ 0#6) (hn : t.nreg ≤ r.toNat) :
    firstBad t (before ++ r :: after) = some r := by
  induction before with
  | nil => simp [firstBad, hr, hn]
  | cons q qs ih =>
    have hq := ok q (by simp)
    simp only [List.cons_append, firstBad]
    rw [if_neg (fun hb => hq.elim (fun h => hb.1 h) (fun h => absurd hb.2 (Nat.not_le_of_gt h)))]
    exact ih fun q hq => ok q (by simp [hq])

/-- An instruction whose thread owns the registers it names goes on as its own meaning says. -/
theorem instr_serving {regs : List Reg} {s : State} {t : Thread} {k : Nat → Thread → Out} (h : threadOf s s.cur = some t)
    (hr : firstBad t regs = none) : instr regs s k = k s.cur t := by
  simp [instr, h, hr]

/-- A register outside the allocation traps (R18). -/
theorem instr_trap {regs : List Reg} {s : State} {t : Thread} {k : Nat → Thread → Out} {r : Reg}
    (h : threadOf s s.cur = some t) (hr : firstBad t regs = some r) :
    instr regs s k = trapped s t 0x04 t.pc (r.setWidth 64) := by
  simp [instr, h, hr, trapped]

/-- An instruction stops the machine only where no thread is being served. -/
theorem instr_cases {regs : List Reg} {s : State} {k : Nat → Thread → Out} (hk : ∀ t, ∃ u, k s.cur t = .next u) :
    (∃ u, instr regs s k = .next u) ∨ threadOf s s.cur = none ∧ instr regs s k = .fault .noThread := by
  cases h : threadOf s s.cur with
  | none => exact .inr ⟨rfl, by simp [instr, h]⟩
  | some t =>
    cases hb : firstBad t regs with
    | some r => exact .inl ⟨_, instr_trap h hb⟩
    | none => exact .inl (by rw [instr_serving h hb]; exact hk t)

theorem command_serving {regs : List Reg} {s : State} {t : Thread} {l : Launch} {k : Nat → Thread → Launch → Out}
    (h : threadOf s s.cur = some t) (hr : firstBad t regs = none) (hl : launchOf s t.lseq = some l) :
    command regs s k = k s.cur t l := by
  simp [command, instr_serving h hr, hl]

/-! ## Frames -/

/-- A check's next state: what no check of an access changes. -/
structure Quiet (s s' : State) : Prop where
  threads : s'.threads = s.threads
  launches : s'.launches = s.launches
  plots : s'.plots = s.plots
  pes : s'.pes = s.pes
  poison : s'.poison = s.poison
  keytags : s'.keytags = s.keytags
  pages : s'.pages = s.pages
  stores : s'.stores = s.stores
  backed : s'.backed = s.backed
  time : s'.time = s.time
  cur : s'.cur = s.cur
  lateLoads : s'.lateLoads = s.lateLoads
  agenda : s'.agenda = s.agenda

theorem Quiet.refl (s : State) : Quiet s s := ⟨rfl, rfl, rfl, rfl, rfl, rfl, rfl, rfl, rfl, rfl, rfl, rfl, rfl⟩

theorem Quiet.trans {a b c : State} (h : Quiet a b) (g : Quiet b c) : Quiet a c :=
  ⟨g.1.trans h.1, g.2.trans h.2, g.3.trans h.3, g.4.trans h.4, g.5.trans h.5, g.6.trans h.6, g.7.trans h.7, g.8.trans h.8,
    g.9.trans h.9, g.10.trans h.10, g.11.trans h.11, g.12.trans h.12, g.13.trans h.13⟩

theorem Quiet.threadOf {s s' : State} (h : Quiet s s') (tid : Nat) : threadOf s' tid = threadOf s tid := by
  simp [Machine.threadOf, h.threads]

theorem Quiet.launchOf {s s' : State} (h : Quiet s s') (q : Nat) : launchOf s' q = launchOf s q := by
  simp [Machine.launchOf, h.launches]

theorem Quiet.plotOf {s s' : State} (h : Quiet s s') (p : Nat) : plotOf s' p = plotOf s p := by
  simp [Machine.plotOf, h.plots]

theorem quiet_markLeaf (s : State) (l : Nat) (d : Bool) : Quiet s (markLeaf s l d) := by
  unfold markLeaf; extract_lets e e'
  by_cases h : e' = e
  · rw [if_pos h]; exact .refl s
  · rw [if_neg h]; exact ⟨rfl, rfl, rfl, rfl, rfl, rfl, rfl, rfl, rfl, rfl, rfl, rfl, rfl⟩

theorem quiet_xtWalk (s : State) (c : Ctx) (vd : VD) (va : Nat) : Quiet s (xtWalk s c vd va).1 := by
  unfold xtWalk
  extract_lets fresh now stale held s'
  have hh : Quiet s held := by
    clear_value now
    cases now with
    | none => exact .refl s
    | some x =>
      show Quiet s (if s.xt.elem x then s else { s with xt := x :: s.xt })
      split
      · exact .refl s
      · exact ⟨rfl, rfl, rfl, rfl, rfl, rfl, rfl, rfl, rfl, rfl, rfl, rfl, rfl⟩
  clear_value held fresh stale
  have hs : Quiet s s' := hh.trans ⟨rfl, rfl, rfl, rfl, rfl, rfl, rfl, rfl, rfl, rfl, rfl, rfl, rfl⟩
  clear_value s'
  split
  · exact .refl s
  · split
    · exact hh
    · split <;> exact hs

/-- A translation changes no more than what XT slices hold, and draws a free value. -/
theorem quiet_xtTranslate (s : State) (c : Ctx) (k : Kind) (va : Nat) : Quiet s (xtTranslate s c k va).1 := by
  unfold xtTranslate
  split
  · exact .refl s
  · rename_i vd _
    split
    · exact .refl s
    · have h := quiet_xtWalk s c vd va
      split <;> rename_i e <;> rw [e] at h
      · exact h
      · split <;> exact h

theorem quiet_touchFrame (s : State) (l : Loc) (e : Nat) : Quiet s (touchFrame s l e) := by
  unfold touchFrame
  split
  · extract_lets k; split
    · exact .refl s
    · exact ⟨rfl, rfl, rfl, rfl, rfl, rfl, rfl, rfl, rfl, rfl, rfl, rfl, rfl⟩
  · exact .refl s

theorem quiet_touchMon (s : State) (v q va n : Nat) (k : Kind) : Quiet s (touchMon s v q va n k) := by
  unfold touchMon
  split
  · exact .refl s
  · extract_lets hit ks logs; split
    · exact .refl s
    · exact ⟨rfl, rfl, rfl, rfl, rfl, rfl, rfl, rfl, rfl, rfl, rfl, rfl, rfl⟩

/-- The checks of an access change no thread, launch, plot or processing element. -/
theorem quiet_dataCheck {s s' : State} {c : Ctx} {k : Kind} {ea n al : Nat} {r : Checked Loc}
    (h : dataCheck s c k ea n al = (s', r)) : Quiet s s' := by
  suffices q : Quiet s (dataCheck s c k ea n al).1 by rw [h] at q; exact q
  clear h
  unfold dataCheck
  split
  · exact .refl s
  · have hx := quiet_xtTranslate s c k ea
    split <;> rename_i e <;> rw [e] at hx
    · exact hx
    · rename_i s1 leaf pte pa
      extract_lets s2
      have hm : Quiet s s2 := hx.trans (iteInduction (fun _ => quiet_markLeaf _ _ _) fun _ => .refl _)
      clear_value s2
      split
      · have ht := fun l => hm.trans (quiet_touchFrame s2 l pte)
        split
        · exact ht _
        · split
          · exact hm
          · exact (ht _).trans (quiet_touchMon _ _ _ _ _ _)
      · exact hm

/-- A read changes the pages that a plot's scratch memory holds, and nothing else. -/
theorem readEffect_eq (s : State) (l : Loc) : readEffect s l = { s with pages := (readEffect s l).pages } := by
  unfold readEffect
  split
  · split
    · unfold touchPage usePage; extract_lets k; split
      · split <;> rfl
      · rfl
    · rfl
  · rfl

theorem threadOf_readEffect (s : State) (l : Loc) (tid : Nat) : threadOf (readEffect s l) tid = threadOf s tid := by
  rw [readEffect_eq]; rfl

theorem cur_readEffect (s : State) (l : Loc) : (readEffect s l).cur = s.cur := by rw [readEffect_eq]

theorem lateLoads_readEffect (s : State) (l : Loc) : (readEffect s l).lateLoads = s.lateLoads := by rw [readEffect_eq]

/-! Making stores visible changes nothing but which stores are remembered (R108). -/

@[simp] theorem performStores_mem (s : State) (p : PStore → Bool) : (performStores s p).mem = s.mem := rfl
@[simp] theorem performStores_threads (s : State) (p : PStore → Bool) : (performStores s p).threads = s.threads := rfl
@[simp] theorem performStores_launches (s : State) (p : PStore → Bool) : (performStores s p).launches = s.launches := rfl
@[simp] theorem performStores_plots (s : State) (p : PStore → Bool) : (performStores s p).plots = s.plots := rfl
@[simp] theorem performStores_pes (s : State) (p : PStore → Bool) : (performStores s p).pes = s.pes := rfl
@[simp] theorem performStores_cur (s : State) (p : PStore → Bool) : (performStores s p).cur = s.cur := rfl
@[simp] theorem performStores_lateLoads (s : State) (p : PStore → Bool) : (performStores s p).lateLoads = s.lateLoads := rfl
@[simp] theorem performStores_time (s : State) (p : PStore → Bool) : (performStores s p).time = s.time := rfl
@[simp] theorem dropStores_mem (s : State) (p : PStore → Bool) : (dropStores s p).mem = s.mem := rfl
@[simp] theorem dropStores_threads (s : State) (p : PStore → Bool) : (dropStores s p).threads = s.threads := rfl
@[simp] theorem dropStores_launches (s : State) (p : PStore → Bool) : (dropStores s p).launches = s.launches := rfl
@[simp] theorem dropStores_plots (s : State) (p : PStore → Bool) : (dropStores s p).plots = s.plots := rfl
@[simp] theorem dropStores_pes (s : State) (p : PStore → Bool) : (dropStores s p).pes = s.pes := rfl
@[simp] theorem dropStores_cur (s : State) (p : PStore → Bool) : (dropStores s p).cur = s.cur := rfl
@[simp] theorem dropStores_lateLoads (s : State) (p : PStore → Bool) : (dropStores s p).lateLoads = s.lateLoads := rfl
@[simp] theorem dropStores_time (s : State) (p : PStore → Bool) : (dropStores s p).time = s.time := rfl

/-- A thread with nothing outstanding is settled (R19). -/
@[simp] theorem settle_nil {t : Thread} (h : t.loads = []) : t.settle = t := by
  cases t; simp only at h; subst h; rfl

/-- No store is left to perform where there is none. -/
theorem performStores_nil {s : State} (h : s.stores = []) (p : PStore → Bool) : performStores s p = s := by
  cases s; simp only at h; subst h; rfl

/-- A read that is not a fetch, of any agent but a stream, a copy and a collective, finds every store and performs each that it meets
and that is not its own thread's (R108). -/
theorem observe_all {s : State} {c : Ctx} {k : Kind} (l : Loc) (n : Nat) (hk : k ≠ .fetch) (h1 : c.agent ≠ .copy)
    (h2 : c.agent ≠ .fabric) (h3 : c.agent ≠ .coll) :
    observe s c k l n = (performStores s (fun e => e.meets l.memAt n && !e.mine s c),
      performStores s (fun e => e.meets l.memAt n && !e.mine s c)) := by
  by_cases h : s.stores = []
  · simp [observe, h, performStores_nil h]
  · simp [observe, h, hk, h1, h2, h3]

/-- Which stores are visible changes no byte that a location holds. -/
theorem readLoc_performStores (s : State) (p : PStore → Bool) (l : Loc) (n : Nat) : readLoc (performStores s p) l n = readLoc s l n := by
  unfold readLoc
  split <;> first | rfl | skip
  generalize l.pa = a
  induction n generalizing a with
  | zero => rfl
  | succ n ih => simp only [readKeyed]; rw [ih]; rfl

/-! ## The outcomes of a checked access -/

theorem withChecked_ok {α : Type} (s : State) (a : α) (tid : Nat) (t : Thread) (k : State → α → Out) :
    withChecked (s, .ok a) tid t k = k s a := rfl

theorem withChecked_bad {α : Type} (s : State) (c v : Nat) (tid : Nat) (t : Thread) (k : State → α → Out) :
    withChecked (s, .bad c v) tid t k = .next (trap s tid t c t.pc (BitVec.ofNat 64 v)) := rfl

theorem withChecked_hold {α : Type} (s : State) (w : Wait) (tid : Nat) (t : Thread) (k : State → α → Out) :
    withChecked (s, .hold w) tid t k = wait s tid t w := rfl

theorem loadVA_ok {s s' : State} {c : Ctx} {k : Kind} {ea n al : Nat} {l : Loc} (h : dataCheck s c k ea n al = (s', .ok l))
    (hk : k ≠ .fetch) (h1 : c.agent ≠ .copy) (h2 : c.agent ≠ .fabric) (h3 : c.agent ≠ .coll) :
    loadVA s c k ea n al =
      (readEffect (performStores s' (fun e => e.meets l.memAt n && !e.mine s' c)) l, .ok (readLoc s' l n)) := by
  simp [loadVA, h, observe_all l n hk h1 h2 h3, readLoc_performStores]

theorem loadVA_bad {s s' : State} {c : Ctx} {k : Kind} {ea n al x v : Nat} (h : dataCheck s c k ea n al = (s', .bad x v)) :
    loadVA s c k ea n al = (s', .bad x v) := by simp [loadVA, h]

theorem loadVA_hold {s s' : State} {c : Ctx} {k : Kind} {ea n al : Nat} {w : Wait} (h : dataCheck s c k ea n al = (s', .hold w)) :
    loadVA s c k ea n al = (s', .hold w) := by simp [loadVA, h]

theorem storeVA_ok {s s' : State} {c : Ctx} {ea n al v : Nat} {l : Loc} (h : dataCheck s c .write ea n al = (s', .ok l)) :
    storeVA s c ea n al v = (writeLoc s' l n v, .ok ()) := by simp [storeVA, h]

/-- A trap enters the handler where the thread can. -/
theorem trap_handled {s : State} {tid : Nat} {t : Thread} (h : Handled t) (c : Nat) (epc tval : Word) :
    trap s tid t c epc tval = setThread s tid (t.settle.enterTrap c epc tval) := by
  rw [trap, if_neg]
  rintro (h' | h')
  · exact h.1 h'
  · simp [h.2] at h'

/-- Otherwise it halts the thread. -/
theorem trap_unhandled {s : State} {tid : Nat} {t : Thread} (h : ¬ Handled t) (c : Nat) (epc tval : Word) :
    trap s tid t c epc tval = doubleTrap s tid t c := by
  rw [trap, if_pos]
  by_cases h1 : t.tvec &&& ~~~3#64 = 0#64
  · exact .inl h1
  · by_cases h2 : t.intrap = true
    · exact .inr h2
    · exact absurd ⟨h1, by simpa using h2⟩ h

end Sys2Proof.Laws
end

