-- ==== Sys2Proof/Tests/Slice0.lean ====
section
/-!
SUPPORT. Tests. Expected results are the spec's own words, tables and worked values, or hand calculation from its rules. For
each statement of Certificates/Slice0/Obligations.lean one theorem `test_meets_…` shows, clause by clause, values that meet its
hypotheses.
-/
set_option Elab.async false
set_option maxRecDepth 20000
set_option exponentiation.threshold 1024
namespace Sys2Proof.Tests
open Sys2Proof.Machine

/-! ## Well-formedness: each check refuses an ill-formed term -/

theorem test_wf_bit_field : Instr.wf (.bfx 1 2 32 32) = false ∧ Instr.wf (.bfxS 1 2 63 1) = false ∧ Instr.wf (.bfi 1 2 1 63) = false ∧
    Instr.wf (.bfx 1 2 32 31) = true := by decide
theorem test_wf_size : Instr.wf (.ld 1 2 3 true 0) = false ∧ Instr.wf (.ldAcq 1 2 3 true 0 0) = false ∧ Instr.wf (.ld 1 2 2 true 0) = true := by
  decide
theorem test_wf_scope : Instr.wf (.ldAcq 1 2 3 false 6 0) = false ∧ Instr.wf (.stRel 1 2 3 6 0) = false ∧ Instr.wf (.fence 7) = false ∧
    Instr.wf (.fence 5) = true := by decide
theorem test_wf_order : Instr.wf (.amoW .add 1 2 3 0 1) = false ∧ Instr.wf (.amoD .add 1 2 3 1 6) = false ∧
    Instr.wf (.casW 1 2 3 0 5) = false ∧ Instr.wf (.casD 1 2 3 3 7) = false ∧ Instr.wf (.casD 1 2 3 3 5) = true := by decide
theorem test_wf_pair : Instr.wf (.cas16 9 20 12 1 4) = false ∧ Instr.wf (.cas16 8 20 13 1 4) = false ∧ Instr.wf (.cas16 8 20 12 0 4) = false ∧
    Instr.wf (.cas16 8 20 12 1 4) = true := by decide
theorem test_wf_control : Instr.wf (.brN 0 4) = false ∧ Instr.wf (.loop 1 0) = false ∧ Instr.wf (.getev 1 6) = false ∧
    Instr.wf (.getev 1 60) = true := by decide
theorem test_wf_port : Instr.wf (.sbind 0 0x1040 1 2) = false ∧ Instr.wf (.sbindHandle 0 0x1040 1 7 2) = false ∧
    Instr.wf (.sbindHandle 0 0 1 0 2) = false ∧ Instr.wf (.sbindHandle 0 0 1 11 2) = false ∧
    Instr.wf (.sbindHandle 0 0x103F 1 10 2) = true := by decide
theorem test_wf_collective : Instr.wf (.coll .allgather .min .fp32 false 0 0 1 0 2) = false ∧
    Instr.wf (.coll .broadcast .max .fp32 false 0 0 1 0 2) = false ∧ Instr.wf (.coll .allreduce .add .fp32 false 0 0 1 1 2) = false ∧
    Instr.wf (.coll .reduce .add .int32 true 0 0 1 0 2) = false ∧ Instr.wf (.coll .reduce .add .x40i true 0 0 1 0 2) = false ∧
    Instr.wf (.coll .reduce .max .x40w true 0 0 1 1023 2) = true := by decide
theorem test_wf_units : Instr.wf (.threadAdmission 128) = false ∧ Instr.wf (.instructionIssue 128) = false ∧ Instr.wf (.eventRecordPost 128) = false ∧
    Instr.wf (.matrixPlotSwap 128) = false ∧ Instr.wf (.matrixVector 128) = false ∧ Instr.wf (.loadw 128) = false ∧
    Instr.wf (.plotLease 128) = false ∧ Instr.wf (.leaseForce 128) = false ∧ Instr.wf (.handlerFiring 8192) = false ∧
    Instr.wf (.planeSwap 8192) = false ∧ Instr.wf (.handlerPromotion 8192 0) = false ∧ Instr.wf (.handlerPromotion 0 16) = false ∧
    Instr.wf (.copyUnit 4) = false ∧ Instr.wf (.copyUnit 3) = true := by decide

/-! ## Decoding: the words of "Encodings at a glance" of 12, 13 and 14, and of R370, and words that trap -/

theorem test_words_12 : [[0x00000001#32], [0x04700064#32], [0x18400000#32, 0x00100000#32], [0x18208000#32, 0x00002710#32], [0x2C82C000#32],
      [0x60BFFFFE#32], [0x48B57400#32], [0xC4000002#32], [0x70000001#32], [0x04209F40#32]].map decodeWords =
    [.nop, .addImm 7 0 100, .addLong 4 0 0x100000, .addLong 2 2 10000, .cmpCc 1 .eq 11 0, .br 1 0x3FFFFE, .ldAcq 11 21 3 false 4 0, .sbar 2,
      .halt, .addImm 2 2 8000].map some := by decide

theorem test_words_13 : [0x1430C004#32, 0x2841482D#32, 0x0041462B#32, 0x00518733#32, 0x31C10064#32, 0x64100010#32, 0x4051A008#32, 0x4CA57400#32,
      0x54350420#32, 0x58850C4C#32, 0x5C400000#32, 0x80200000#32, 0x84008001#32, 0x88000007#32, 0x8C000001#32, 0x8C000002#32, 0x8C801003#32,
      0x8C018004#32, 0x90624000#32].map (fun w => decodeWords [w]) =
    [.sllImm 3 3 4, .bfxS 4 5 8 11, .addsc 3 4 5 6, .sel 3 5 6 7, .cmpCcImm 3 .ltu 4 100, .jal 1 16, .ld 5 6 2 false 8, .stRel 10 21 3 4 0,
      .amoD .add 3 20 4 0 0, .cas16 8 20 12 1 4, .fence 4, .mfs 2 0, .mts 1 2, .trap 7, .rett, .wfe, .getev 2 8, .wrpk 6, .mtt 3 9].map some := by
  decide

theorem test_words_14 : [[0xC0401000#32, 0#32], [0xC0501000#32, 4#32], [0xC0000880#32, 0x0000F000#32], [0xC861C000#32], [0xC8600800#32],
      [0xC8600C00#32], [0xCC824A58#32, 0x2C000000#32], [0xD0C34E24#32, 0#32], [0xD4000006#32], [0xD6000003#32], [0xD8C10001#32], [0xD8000002#32],
      [0xD9418703#32], [0xDD400100#32, 0#32], [0xE0000003#32], [0xE4400002#32], [0xE4600002#32], [0xE8810002#32], [0xE8A2003F#32],
      [0xE8A18010#32], [0xE8B18006#32]].map decodeWords =
    [.sbind 1 0 4 0, .sbind 1 4 5 0, .sbindHandle 1 0x1000 0 7 0, .glaunch 6 7, .gswap 6 0, .gdrain 6 0, .cpy 2 5 8 9 10 11,
      .cpym 1 2 12 13 14 0, .qfence 6, .qfenceColl 3, .postc 3 4, .taskend, .evpost 5 6 7, .coll .allreduce .add .fp32 false 0 1 20 0 0, .gbar 3,
      .cbwaitf 1 2, .cbadv 1 2, .cbget 8 1 0 2, .cbget 10 2 3 15, .cbput 1 1 0 10, .cbput 1 0 6 11].map some := by decide

theorem test_words_16 : [0xA05050A0#32, 0xA3232324#32, 0xA4A4A010#32, 0xA7272420#32, 0xA7205030#32, 0xA4A8A440#32, 0xA4A8A445#32, 0xA89C9001#32,
      0xA8614002#32, 0xAC714001#32, 0xAC014002#32].map (fun w => decodeWords [w]) =
    [.smul 20 20 40, .smul 200 200 201, .srcp 41 40, .sexp2 201 201, .scopy 200 20, .scvt 42 41 false 0, .scvt 42 41 true 1, .smov 201 9,
      .sread 6 20, .sbindS 7 5, .sfree 5].map some := by decide

/-- Why two words are no instruction. -/
def refusal (w v : IWord) : Option DecodeErr := match decode w v with | .error e => some e | .ok _ => none

/-- Words that R253 turns away: a reserved bit, an odd register of CAS16, a handle form with a counter, FN 0, a reserved
block, and the all-zero word. -/
theorem test_words_refused : [(0x1430C104#32, 0#32), (0x88010000#32, 0#32), (0x58950C4C#32, 0#32), (0xC0401800#32, 0x0000E000#32),
      (0x00100000#32, 0#32)].all (fun w => refusal w.1 w.2 == some .illegalEncoding) = true ∧
    [0xF0000000#32, 0x34000000#32, 0#32].all (fun w => refusal w 0#32 == some .illegalOpcode) = true := by decide

theorem test_table_word : decodeTableWord 64 0x0000271018208000 = some (.addLong 2 2 10000) ∧ decodeTableWord 32 0x04700064 = some (.addImm 7 0 100) := by
  decide

/-! ## Small machines -/

/-- One supervisor thread of 64 registers at 0x4000 with its handler at 0x8000, as Machine/Loader.lean loads it. -/
def small : State := loadProgram State.reset

def blank : Thread :=
  { lseq := 0, idx := none, task := none, plot := 0, slot := 0, stat := .ready, pc := 0, regs := [], preds := 0, tcmp := 0,
    intrap := false, pmode := false, mode := false, epc := 0, cause := 0, tval := 0, tvec := 0, scratch := 0, pend := [],
    lstart := 0, lend := 0, lcount := 0, glseq := 0, handles := [], htags := [], pins := [], loads := [], groups := [] }

/-- The thread being served. -/
def me (s : State) : Thread := (threadOf s s.cur).getD blank

/-- The small machine with its thread changed. -/
def given (f : Thread → Thread) : State := setThread small 0 (f (me small))

/-- The thread with registers set. -/
def set (l : List (Reg × Word)) (t : Thread) : Thread := l.foldl (fun t x => t.setG x.1 x.2) t

/-- The small machine with registers of its thread set. -/
def regs (l : List (Reg × Word)) : State := given (set l)

def after (i : Instr) (s : State) : State := (nextOf (exec i s)).getD s

/-- A register after an instruction. -/
def reg (i : Instr) (s : State) (n : Reg) : Word := (me (after i s)).g n

/-- The cause, value and pc of a trap that an instruction takes. -/
def trapOf (i : Instr) (s : State) : Nat × Word × Word := let t := me (after i s); (t.cause, t.tval, t.pc)

/-! ## Results of single steps -/

theorem test_add_wraps : reg (.add 3 1 2) (regs [(1, 0xFFFFFFFFFFFFFFFF), (2, 2)]) 3 = 1 := by decide
theorem test_add_own_source : reg (.add 1 1 1) (regs [(1, 7)]) 1 = 14 ∧ (me (after (.add 1 1 1) (regs [(1, 7)]))).pc = 0x4004 := by decide
theorem test_g0_discards : reg (.add 0 1 1) (regs [(1, 7)]) 0 = 0 := by decide
theorem test_sub_order : reg (.sub 3 1 2) (regs [(1, 5), (2, 7)]) 3 = 0xFFFFFFFFFFFFFFFE := by decide
theorem test_mul_low : reg (.mul 3 1 2) (regs [(1, 0x100000001), (2, 0x100000001)]) 3 = 0x200000001 := by decide
theorem test_mulh_signed : reg (.mulh 3 1 2) (regs [(1, 0xFFFFFFFFFFFFFFFF), (2, 2)]) 3 = 0xFFFFFFFFFFFFFFFF := by decide
theorem test_mulhu_unsigned : reg (.mulhu 3 1 2) (regs [(1, 0xFFFFFFFFFFFFFFFF), (2, 2)]) 3 = 1 := by decide
theorem test_div_truncates : reg (.div 3 1 2) (regs [(1, 0xFFFFFFFFFFFFFFF9), (2, 2)]) 3 = 0xFFFFFFFFFFFFFFFD := by decide
theorem test_div_wraps : reg (.div 3 1 2) (regs [(1, 0x8000000000000000), (2, 0xFFFFFFFFFFFFFFFF)]) 3 = 0x8000000000000000 := by decide
theorem test_div_by_zero : trapOf (.div 3 1 2) (regs [(1, 9)]) = (0x0A, 0x00304207, 0x8000) := by decide
theorem test_divu_unsigned : reg (.divu 3 1 2) (regs [(1, 0xFFFFFFFFFFFFFFF9), (2, 2)]) 3 = 0x7FFFFFFFFFFFFFFC := by decide
theorem test_rem_sign : reg (.rem 3 1 2) (regs [(1, 0xFFFFFFFFFFFFFFF9), (2, 2)]) 3 = 0xFFFFFFFFFFFFFFFF := by decide
theorem test_remu_unsigned : reg (.remu 3 1 2) (regs [(1, 0xFFFFFFFFFFFFFFF9), (2, 2)]) 3 = 1 := by decide
theorem test_and : reg (.and 3 1 2) (regs [(1, 0xFF00), (2, 0x0FF0)]) 3 = 0x0F00 := by decide
theorem test_or : reg (.or 3 1 2) (regs [(1, 0xFF00), (2, 0x0FF0)]) 3 = 0xFFF0 := by decide
theorem test_xor : reg (.xor 3 1 2) (regs [(1, 0xFF00), (2, 0x0FF0)]) 3 = 0xF0F0 := by decide
theorem test_sll_amount : reg (.sll 3 1 2) (regs [(1, 3), (2, 65)]) 3 = 6 := by decide
theorem test_srl_zeros : reg (.srl 3 1 2) (regs [(1, 0x8000000000000000), (2, 63)]) 3 = 1 := by decide
theorem test_sra_sign : reg (.sra 3 1 2) (regs [(1, 0x8000000000000000), (2, 62)]) 3 = 0xFFFFFFFFFFFFFFFE := by decide
theorem test_min_signed : reg (.min 3 1 2) (regs [(1, 0xFFFFFFFFFFFFFFFF), (2, 1)]) 3 = 0xFFFFFFFFFFFFFFFF := by decide
theorem test_max_signed : reg (.max 3 1 2) (regs [(1, 0xFFFFFFFFFFFFFFFF), (2, 1)]) 3 = 1 := by decide
theorem test_minu_unsigned : reg (.minu 3 1 2) (regs [(1, 0xFFFFFFFFFFFFFFFF), (2, 1)]) 3 = 1 := by decide
theorem test_maxu_unsigned : reg (.maxu 3 1 2) (regs [(1, 0xFFFFFFFFFFFFFFFF), (2, 1)]) 3 = 0xFFFFFFFFFFFFFFFF := by decide
theorem test_clz : reg (.clz 3 1) (regs [(1, 0x10)]) 3 = 59 ∧ reg (.clz 3 1) (regs []) 3 = 64 := by decide
theorem test_ctz : reg (.ctz 3 1) (regs [(1, 0x50)]) 3 = 4 ∧ reg (.ctz 3 1) (regs []) 3 = 64 := by decide
theorem test_popc : reg (.popc 3 1) (regs [(1, 0xF0F1)]) 3 = 9 := by decide
theorem test_addsc : reg (.addsc 3 4 5 6) (regs [(5, 1), (6, 2)]) 4 = 17 := by decide
theorem test_sel : reg (.sel 3 5 6 7) (given fun t => set [(6, 1), (7, 2)] t) 5 = 2 ∧
    reg (.sel 3 5 6 7) (given fun t => (set [(6, 1), (7, 2)] t).setP 3 true) 5 = 1 ∧ reg (.sel 0 5 6 7) (regs [(6, 1), (7, 2)]) 5 = 1 := by decide
theorem test_add_imm_negative : reg (.addImm 3 1 0x3FFF) (regs [(1, 5)]) 3 = 4 := by decide
theorem test_and_imm_extends : reg (.andImm 3 1 0x2000) (regs [(1, 0xFFFFFFFFFFFFFFFF)]) 3 = 0xFFFFFFFFFFFFE000 := by decide
theorem test_or_imm : reg (.orImm 3 1 0x1FFF) (regs [(1, 0x8000)]) 3 = 0x9FFF := by decide
theorem test_xor_imm : reg (.xorImm 3 1 0x3FFF) (regs [(1, 0xF)]) 3 = 0xFFFFFFFFFFFFFFF0 := by decide
theorem test_shift_imm : reg (.sllImm 3 1 63) (regs [(1, 3)]) 3 = 0x8000000000000000 ∧ reg (.srlImm 3 1 4) (regs [(1, 0xF0)]) 3 = 0xF ∧
    reg (.sraImm 3 1 4) (regs [(1, 0xFFFFFFFFFFFFFF00)]) 3 = 0xFFFFFFFFFFFFFFF0 := by decide
theorem test_long_imm : reg (.addLong 3 1 0x200000000000) (regs [(1, 0)]) 3 = 0xFFFFE00000000000 ∧
    (me (after (.addLong 3 1 0) small)).pc = 0x4008 ∧ reg (.andLong 3 1 0x3FFFFFFFFFFF) (regs [(1, 0xF00F)]) 3 = 0xF00F ∧
    reg (.orLong 3 1 0x100000000) (regs [(1, 1)]) 3 = 0x100000001 ∧ reg (.xorLong 3 1 1) (regs [(1, 3)]) 3 = 2 := by decide
theorem test_bfx : reg (.bfx 3 1 8 11) (regs [(1, 0xFFFABCDEF)]) 3 = 0xBCD ∧ reg (.bfxS 3 1 8 11) (regs [(1, 0xABCDEF)]) 3 = 0xFFFFFFFFFFFFFBCD ∧
    reg (.bfx 3 1 0 63) (regs [(1, 0xFFFFFFFFFFFFFFFF)]) 3 = 0xFFFFFFFFFFFFFFFF := by decide
theorem test_bfi : reg (.bfi 3 1 8 7) (regs [(1, 0x1FF), (3, 0x123456)]) 3 = 0x12FF56 := by decide
theorem test_cmp : ((me (after (.cmpCc 2 .lt 1 3) (regs [(1, 0xFFFFFFFFFFFFFFFF)]))).p 2) = true ∧
    ((me (after (.cmpCc 2 .ltu 1 3) (regs [(1, 0xFFFFFFFFFFFFFFFF)]))).p 2) = false ∧
    ((me (after (.cmpCcImm 2 .geu 1 0x3FFF) (regs [(1, 0xFFFFFFFFFFFFFFFF)]))).p 2) = true ∧
    ((me (after (.cmpCcImm 0 .ne 1 0) small)).p 0) = true := by decide
theorem test_br : (me (after (.br 1 0x3FFFFE) (given (·.setP 1 true)))).pc = 0x3FF8 ∧ (me (after (.br 1 0x3FFFFE) small)).pc = 0x4004 ∧
    (me (after (.brN 1 4) small)).pc = 0x4010 := by decide
theorem test_jal : reg (.jal 1 16) small 1 = 0x4004 ∧ (me (after (.jal 1 16) small)).pc = 0x4040 := by decide
theorem test_jalr : (me (after (.jalr 1 1 8) (regs [(1, 0x5000)]))).pc = 0x5008 ∧ reg (.jalr 1 1 8) (regs [(1, 0x5000)]) 1 = 0x4004 ∧
    trapOf (.jalr 1 1 2) (regs [(1, 0x5000)]) = (0x07, 0x5002, 0x8000) := by decide
theorem test_loop : (let t := me (after (.loop 1 3) (regs [(1, 2)])); (t.lstart, t.lend, t.lcount, t.pc)) = (0x4004, 0x400C, 2, 0x4004) ∧
    (let t := me (after (.loop 1 3) small); (t.lcount, t.pc)) = (0, 0x4010) := by decide
theorem test_loop_back : (let t := me (after .nop (given fun t => { t with pc := 0x400C, lstart := 0x4004, lend := 0x400C, lcount := 2 })); (t.pc, t.lcount)) =
    (0x4004, 1) := by decide
theorem test_halt : threadOf (after .halt small) 0 = none := by decide
theorem test_trap : (let t := me (after (.trap 7) small); (t.cause, t.tval, t.epc, t.pc, t.mode, t.intrap, t.pmode)) =
    (1, 7, 0x4004, 0x8000, true, true, true) := by decide
theorem test_rett : (let t := me (after .rett (given fun t => { t with intrap := true, epc := 0x4013, pmode := false })); (t.pc, t.mode, t.intrap)) =
    (0x4010, false, false) ∧ trapOf .rett (given fun t => { t with mode := false }) = (0x05, 0x8C000001, 0x8000) := by decide
theorem test_mfs : reg (.mfs 2 0x002) small 2 = 0x4000000000 ∧ reg (.mfs 2 0x003) small 2 = 1 ∧ reg (.mfs 2 0x007) small 2 = 0x8000 := by decide
theorem test_mts_masks : (me (after (.mts 0x007 2) (regs [(2, 0x9003)]))).tvec = 0x9000 ∧ (me (after (.mts 0x005 2) (regs [(2, 0x1FF)]))).cause = 0xFF ∧
    (let t := me (after (.mts 0x003 2) (regs [(2, 6)])); (t.mode, t.pmode, t.intrap)) = (true, true, true) := by decide
theorem test_register_checks : trapOf (.mfs 2 0x01C) small = (0x06, 0x01C, 0x8000) ∧ trapOf (.mts 0x000 2) small = (0x06, 0, 0x8000) ∧
    trapOf (.add 1 40 2) (given fun t => { t with regs := t.regs.take 8 }) = (0x04, 40, 0x8000) := by decide
theorem test_load_sign : reg (.ld 3 1 1 false 0) (after (.st 2 1 2 0) (regs [(1, 0x100), (2, 0x18FFF)])) 3 = 0xFFFFFFFFFFFF8FFF ∧
    reg (.ld 3 1 0 true 1) (after (.st 2 1 2 0) (regs [(1, 0x100), (2, 0x18FFF)])) 3 = 0x8F := by decide +kernel
theorem test_store_bytes : memGet (after (.st 2 1 1 2) (regs [(1, 0x100), (2, 0xABCD)])).mem 0x102 = 0xCD ∧
    memGet (after (.st 2 1 1 2) (regs [(1, 0x100), (2, 0xABCD)])).mem 0x103 = 0xAB := by decide +kernel
theorem test_misaligned : trapOf (.ld 3 1 3 false 4) (regs [(1, 0x100)]) = (0x08, 0x104, 0x8000) ∧
    trapOf (.st 3 1 3 0) (regs [(1, 0x40000000)]) = (0x20, 0x40000000, 0x8000) := by decide
theorem test_acquire_release : reg (.ldAcq 3 1 3 false 4 8) (after (.stRel 2 1 3 4 8) (regs [(1, 0x100), (2, 77)])) 3 = 77 := by decide +kernel
theorem test_amo : (let s := regs [(1, 0x100), (2, 0xFFFFFFFF)]; let u := after (.amoW .add 3 1 2 0 0) (after (.st 2 1 2 0) s);
    ((me u).g 3, memGet u.mem 0x100, memGet u.mem 0x104)) = (0xFFFFFFFFFFFFFFFF, 0xFE, 0) ∧
    reg (.amoD .max 3 1 2 0 0) (regs [(1, 0x100), (2, 1)]) 3 = 0 := by decide +kernel
theorem test_cas : memGet (after (.casD 3 1 2 0 0) (regs [(1, 0x100), (2, 9)])).mem 0x100 = 9 ∧
    memGet (after (.casW 3 1 2 0 0) (regs [(1, 0x100), (2, 9), (3, 1)])).mem 0x100 = 0 ∧
    (let u := after (.cas16 8 20 12 1 4) (regs [(20, 0x100), (12, 5), (13, 6)]); (memGet u.mem 0x100, memGet u.mem 0x108)) = (5, 6) := by decide +kernel
theorem test_fence : (me (after (.fence 5) small)).pc = 0x4004 ∧ (me (after (.prefDc 1 0) (regs [(1, 3)]))).pc = 0x4004 ∧
    (me (after (.prefL2 1 0) (regs [(1, 3)]))).pc = 0x4004 := by decide
theorem test_wfe : (me (after .wfe small)).stat = .waiting .wfe ∧ (me (after .wfe { given (fun t => { t with tcmp := 5 }) with time := 5 })).pc = 0x4004 := by
  decide
theorem test_yield : (plotOf (after .yield small) 0).yieldedSlot = some 0 := by decide
theorem test_wrpk : (launchOf (after (.wrpk 6) (regs [(6, 0x1234)])) 1).map (·.pkeys) = some 0x1234 := by decide
theorem test_scales : (let s := after (.smov 20 2) (regs [(2, 0x40000000)]); let u := after (.smul 21 20 20) s;
    ((srfGet (plotOf u 0) 21).value, (srfGet (plotOf (after (.srcp 22 20) s) 0) 22).value,
      (srfGet (plotOf (after (.sexp2 23 20) s) 0) 23).value)) = (0x40800000#32, 0x3F000000#32, 0x40800000#32) := by decide
theorem test_bind_scale : reg (.sbindS 7 5) (regs [(5, 20)]) 7 = 0x141 ∧ (srfGet (plotOf (after (.sbindS 7 5) (regs [(5, 20)])) 0) 20).value = 0x3F800000#32 ∧
    trapOf (.sbindS 7 5) (regs [(5, 256)]) = (0x62, 256, 0x8000) ∧ trapOf (.sfree 5) (regs [(5, 20)]) = (0x63, 20, 0x8000) := by decide
theorem test_sbar : (me (after (.sbar 2) small)).pc = 0x4004 ∧ (me (after (.sbar 2) (given fun t => { t with pend := [0, 1, 0, 0] }))).stat =
    .waiting (.sbar 2) := by decide
theorem test_copy_malformed : trapOf (.cpy 2 5 8 9 10 11) small = (0x80, 0xCC824A58, 0x8000) ∧
    (me (after (.cpy 2 5 8 9 10 11) (regs [(8, 0x100), (9, 0x200), (10, 64)]))).pend = [0, 0, 64, 0] := by decide
theorem test_handle_unbound : trapOf (.cbwaitf 1 2) small = (0x83, 0xE4400002, 0x8000) ∧ trapOf (.gbar 3) small = (0x84, 0xE0000003, 0x8000) := by
  decide

/-! ## Values that meet the hypotheses of each statement -/

/-- The launch of the thread being served, and its device. -/
def own (s : State) : Launch := (launchOf s (me s).lseq).getD (newLaunch s
  { ticket := 0, hdr := loaderHeader, gid := 0, vd := 0, origin := .host 0#64, parked := false, again := false, partmap := none } loaderFit 0)
def dev (s : State) : VD := (vdOf s 0).getD loaderVd

/-- The small machine with its launch, or its device, changed. -/
def launched (f : Launch → Launch) : State := setLaunch small (f (own small))
def vded (f : VD → VD) : State := setVd small 0 (f loaderVd)

/-- A thread's access passes its checks; or it is turned away with a cause; or it is held. -/
def passes (s : State) (k : Kind) (ea n : Nat) : Bool := match dataCheck s (threadCtx s (me s)) k ea n n with | (_, .ok _) => true | _ => false
def refusedBy (s : State) (k : Kind) (ea n c : Nat) : Bool :=
  match dataCheck s (threadCtx s (me s)) k ea n n with | (_, .bad x _) => x == c | _ => false
def isHeld (s : State) (k : Kind) (ea n : Nat) : Bool := match dataCheck s (threadCtx s (me s)) k ea n n with | (_, .hold _) => true | _ => false

/-- The small machine whose second GiB shows the windows of the plots, with the first page of plot 0 in backing. -/
def windowed : State := { small with mem := writeRaw small.mem 0x20008 8 (0xF00000000 * 2 ^ 28 + 0x2F), backed := [(0, none)] }

/-- The small machine with a given leaf over its first GiB. -/
def leafed (e : Nat) : State := { small with mem := writeRaw small.mem 0x20000 8 e }

theorem test_meets_RegisterForms : Serving small (me small) [] ∧ Serving small (me small) [63, 63, 63] ∧ (me small).regs.length = 64 ∧
    (me small).g 63 = 0 ∧ (me (regs [(63, 1)])).g 63 ≠ 0 := by decide
theorem test_meets_DivisionForms : Serving small (me small) [1, 2, 63] ∧ (me small).g 63 = 0 ∧
    (let s := regs [(1, 0x8000000000000000), (63, 0xFFFFFFFFFFFFFFFF)]; Serving s (me s) [1, 1, 63] ∧ ((me s).g 1).toInt = -2 ^ 63 ∧
      ((me s).g 63).toInt = -1 ∧ (me s).g 63 ≠ 0) := by decide
theorem test_meets_ImmediateForms : Serving small (me small) [63, 0] := by decide
theorem test_meets_BitFieldForms : Serving small (me small) [63, 63] ∧ (63#6).toNat + (0#6).toNat < 64 ∧ (0#6).toNat + (63#6).toNat < 64 := by decide
theorem test_meets_Compare : Serving small (me small) [63, 0] ∧ Serving small (me small) [63] ∧ (me small).g 0 = BitVec.ofInt 64 (0#14).toInt := by decide
theorem test_meets_Branch : Serving small (me small) [] := by decide
theorem test_meets_JumpAndLink : Serving small (me small) [63] ∧ Serving small (me small) [0, 63] ∧
    (BitVec.ofInt 64 (((me small).g 63).toNat + (3#14).toInt)).toNat % 4 ≠ 0 ∧ (BitVec.ofInt 64 (((me small).g 63).toNat + (4#14).toInt)).toNat % 4 = 0 := by
  decide
/-- A thread at the last instruction of a body from 0x3FF8 to 0x4000. -/
def looping (n : Word) : Thread := { me small with lstart := 0x3FF8, lend := 0x4000, lcount := n }
theorem test_meets_HardwareLoop : Serving small (me small) [63] ∧ ((looping 2).pc = (looping 2).lend ∧ (looping 2).intrap = false ∧ 2 ≤ (looping 2).lcount.toNat) ∧
    ((looping 1).pc = (looping 1).lend ∧ (looping 1).lcount = 1) ∧ (looping 0).lcount = 0 ∧
    ((looping 1).lstart.toNat ≤ (0x3FF8 : Nat) ∧ 0x4000 ≤ (looping 1).lend.toNat) ∧ (0x3FF4 < (looping 1).lstart.toNat ∧ (looping 1).lend.toNat < 0x4004) := by
  decide
theorem test_meets_Loads : Serving small (me small) [63, 63] ∧ passes small .read 0x100 8 = true ∧ passes small .read 0x101 1 = true ∧
    passes small .read 0x3FFFFFFC 4 = true ∧ (2#2 ≠ 3#2) := by decide
theorem test_meets_Stores : Serving small (me small) [63, 63] ∧ passes small .write 0x100 8 = true ∧ passes small .write 0x101 1 = true ∧
    passes windowed .write 0x40001000 8 = true := by decide
theorem test_meets_Stores_view : passes windowed .write 0x40800000 8 = true ∧ regionAt windowed (windowBase + 0x800000) = .window 0 0x800000 ∧
    ¬(0x800000 < scratchSize) ∧ (∀ sec ∈ sectorsOf 0x100 8, lookup (insert small.keytags 8 1) sec = some 1) := by decide
theorem test_meets_Atomics : Serving small (me small) [63, 63, 63] ∧ passes small .atomic 0x104 4 = true ∧ passes small .atomic 0x108 8 = true := by decide
theorem test_meets_CompareAndSwap : Serving small (me small) [62, 63, 62] ∧ passes small .atomic 0x104 4 = true ∧ passes small .atomic 0x108 8 = true ∧
    passes small .atomic 0x110 16 = true := by decide
theorem test_meets_AccessTraps : Serving small (me small) (fieldsOf (.ld 1 2 3 false 4)) ∧
    accessOf (me small) (.ld 1 2 3 false 4) = some (.read, 4, 8) ∧ (4 : Nat) % 8 ≠ 0 ∧ refusedBy small .read 4 8 0x08 = true ∧
    refusedBy small .read 0x40000000 8 0x20 = true ∧ isHeld windowed .read 0x40000000 8 = true := by decide
theorem test_meets_MemoryFrame : Memory.wf small.mem = true ∧ passes small .write 0x100 8 = true ∧ passes small .read 0x100 8 = true ∧
    Memory.wf windowed.mem = true ∧ passes windowed .write 0x40001000 8 = true := by decide
theorem test_meets_FenceAndPrefetch : Serving small (me small) [] ∧ Serving small (me small) [63] := by decide

/-- The small machine with a 2 MiB page at the third GiB and 64 KiB pages above it. -/
def tabled : State :=
  { small with mem := writeRaw (writeRaw (writeRaw (writeRaw small.mem 0x20010 8 0x30001) 0x30000 8 0x2F) 0x30008 8 0x40001) 0x40000 8 0x2F }

def isPointer (x below : Nat) : Bool :=
  x % 2 == 1 && x / 2 % 4 == 0 && x / 8 % 32 == 0 && x / 2 ^ 52 % 2 ^ 12 == 0 && x / 256 % 2 ^ 44 * 256 % 2 ^ below == 0

/-- The three page sizes, and for a leaf each way that it is refused and passes. -/
theorem test_meets_Translation : vdOf tabled 0 = some loaderVd ∧ loaderVd.ptbase / 65536 % 2 ^ 36 * 65536 = 0x10000 ∧
    readRaw tabled.mem 0x10000 8 = 0x20001 ∧ isPointer 0x20001 16 = true ∧ (readRaw tabled.mem 0x20000 8 % 2 = 1 ∧ readRaw tabled.mem 0x20000 8 / 2 % 4 ≠ 0) ∧
    readRaw tabled.mem 0x20010 8 = 0x30001 ∧ isPointer 0x30001 12 = true ∧ readRaw tabled.mem 0x30000 8 / 2 % 4 ≠ 0 ∧
    readRaw tabled.mem 0x30008 8 = 0x40001 ∧ isPointer 0x40001 8 = true ∧ readRaw tabled.mem 0x40000 8 = 0x2F := by decide

/-- The cause of a translation through a leaf. -/
def leafCause (e : Nat) (agent : Agent) (k : Kind) : Option Nat :=
  match translate (leafed e) { vd := 0, lseq := 1, gid := 0, pkeys := 0, agent := agent } k 0 with | .error x => some x | .ok _ => none

theorem test_meets_Translation_leaves : leafCause 0x2E .thread .read = some 0x20 ∧ leafCause (0x2F + 2 ^ 28) .thread .read = some 0x24 ∧
    leafCause 0x2D .thread .fetch = some 0x21 ∧ leafCause 0x2B .thread .atomic = some 0x22 ∧ leafCause (0x2F + 2 ^ 15) .fabric .read = some 0x23 ∧
    leafCause 0x2F .thread .read = some 0x26 ∧ leafCause 0x2F .thread .write = some 0x26 ∧ leafCause 0x2F .fabric .write = none := by decide

theorem test_meets_AccessOrder : vdOf small (threadCtx small (me small)).vd = some loaderVd ∧ (4 : Nat) % 8 ≠ 0 ∧ (2 ^ 56 : Nat) % 8 = 0 ∧
    (match translate small (threadCtx small (me small)) .read (2 ^ 56) with | .error _ => true | .ok _ => false) = true ∧
    regionAt small 0xC000000000 = .hole ∧ regionAt small 0x800000000 = .hole ∧ regionAt small 0x7FFFFFFF8 = .dram ∧
    (translate (leafed (0xC000000 * 2 ^ 28 + 0x2F)) (threadCtx small (me small)) .read 0).toOption = some (0x20000, 0xC000000 * 2 ^ 28 + 0x2F, 0xC0000000000) ∧
    (translate small (threadCtx small (me small)) .write 0).toOption = some (0x20000, 0x2F, 0) := by decide
theorem test_meets_AccessOrder_dram : inSpill (vded fun v => { v with segs := [(0, (1, 0))] }) 65528 8 = true ∧
    inSpill (vded fun v => { v with segs := [(0, (1, 0))] }) 65536 8 = false ∧ holdsSlot small 0 1 = true ∧ holdsSlot small 0 2 = false ∧
    (slotOf small 2).st ≠ .opened ∧ (let s := putSlot small 2 { slotOf small 2 with holders := [0] }; (slotOf s 2).holders.elem 0 = true ∧ holdsSlot s 0 2 = false) ∧
    poisoned { small with poison := [(1, 0)] } 32 8 = true ∧ poisoned { small with poison := [(1, 0)] } 24 8 = false ∧ logStall small 0 0 8 = false := by
  decide
theorem test_meets_RegisterOutOfAllocation : (let s := given fun t => { t with regs := t.regs.take 8 };
    threadOf s s.cur = some (me s) ∧ fieldsOf (.add 7 0 8) = [7, 0] ++ 8 :: [] ∧ (∀ q ∈ [(7 : Reg), 0], q = 0#6 ∨ q.toNat < (me s).regs.length) ∧
      (8 : Reg) ≠ 0 ∧ (me s).regs.length ≤ (8 : Reg).toNat) := by decide
theorem test_meets_TrapTaken : Handled (me small) ∧ launchOf small (me small).lseq = some (own small) ∧
    (me (given fun t => { t with tvec := 3 })).tvec.toNat / 4 = 0 ∧ (me (given fun t => { t with intrap := true })).intrap = true ∧
    (me (given fun t => { t with loads := [(5, 9)] })).loads = (5, 9) :: [] ∧ Handled (me (given fun t => { t with loads := [(5, 9)] })) := by decide
/-- R28: a load that has not returned has returned before the handler runs. -/
theorem test_trap_returns_loads : (match exec (.trap 0) (given fun t => { t with loads := [(5, 9)] }) with
    | .next s => (me s).g 5 == 9#64 && (me s).loads.isEmpty && (me s).intrap | _ => false) = true := by decide
/-- R108, R109: FENCE at scope 1 performs the thread's own stores, with what they overlap, and at scope 4 nothing of them is left. -/
def unperformed : State := { small with stores := [⟨9, 0x400, [0], [1], false⟩, ⟨9, 0x800, [0], [1], false⟩, ⟨small.cur, 0x400, [1], [2], false⟩] }
theorem test_fence_performs : (match exec (.fence 1) unperformed with | .next s => s.stores.map (·.seen) == [true, false, true] | _ => false) = true ∧
    (match exec (.fence 0) unperformed with | .next s => s.stores.map (·.seen) == [false, false, false] | _ => false) = true := by decide
theorem test_meets_TrapAndReturn : Serving small (me small) [] ∧ Handled (me small) ∧ (me small).mode = true ∧
    (let s := given fun t => { t with mode := false }; Serving s (me s) [] ∧ (me s).mode = false) := by decide
theorem test_meets_SystemRegisterReads : Serving small (me small) [63] ∧ (me small).mode = true ∧ launchOf small (me small).lseq = some (own small) ∧
    vdOf small (own small).vd = some (dev small) := by decide
theorem test_meets_SystemRegisterChecks : Serving small (me small) [63] ∧ (let s := given fun t => { t with mode := false };
      Serving s (me s) [63] ∧ (me s).mode = false) ∧
    (let s := vded fun v => { v with caps := 5 }; Serving s (me s) [63] ∧ (me s).mode = true ∧ launchOf s (me s).lseq = some (own s) ∧
      vdOf s (own s).vd = some (dev s) ∧ (dev s).caps / 2 % 2 = 0) ∧
    (let s := vded fun v => { v with caps := 3 }; vdOf s (own s).vd = some (dev s) ∧ (dev s).caps / 4 % 2 = 0) := by decide
theorem test_meets_ThreadRegisterWrites : Serving small (me small) [63] ∧ (me small).mode = true := by decide

/-- Bytes of the fault ring in use with HEAD written as `x` (TAIL 0, SIZE 0). -/
def usedWith (x : Nat) : Nat := ((own small).fbTail + 2 ^ 24 - x % 2 ^ 24) % 2 ^ 24

theorem test_meets_ContextRegisterWrites : Serving small (me small) [63] ∧ launchOf small (me small).lseq = some (own small) ∧
    vdOf small (own small).vd = some (dev small) ∧ (me small).mode = true ∧ (lookup (own small).aflags (partOf (own small) 0)).getD 0 < 64 ∧
    usedWith (2 ^ 24 - 16) ≤ 16 * 2 ^ ((own small).fbbase.toNat % 16) ∧ 16 * 2 ^ ((own small).fbbase.toNat % 16) < usedWith (2 ^ 24 - 17) ∧
    (0x600C : Nat) % 16 ≤ 12 ∧ 12 < (0x600D : Nat) % 16 := by decide

/-- Key slot 5 as each clause of ENGCTL meets it. -/
def slotted (st : SlotSt) (owner : Nat) (joined granted : List Nat) : State :=
  putSlot small 5 { slotOf small 5 with st := st, owner := owner, joined := joined, granted := granted }

theorem test_meets_Engagements : Serving small (me small) [63] ∧ (me small).mode = true ∧ launchOf small (me small).lseq = some (own small) ∧
    vdOf small (own small).vd = some (dev small) ∧ (dev small).caps / 2 % 2 = 1 ∧
    (slotOf small 5).st = .closed ∧ (slotOf (slotted .opened 1 [] [0]) 5).granted.elem 0 = true ∧ (slotOf (slotted .opened 1 [] []) 5).granted.elem 0 = false ∧
    (slotOf (slotted .scrubbing 0 [] []) 5).st = .scrubbing ∧ (slotOf (slotted .opened 0 [] []) 5).owner = 0 ∧
    ((slotOf (slotted .opened 1 [0] []) 5).owner ≠ 0 ∧ (slotOf (slotted .opened 1 [0] []) 5).joined.elem 0 = true) ∧
    (slotOf (slotted .opened 1 [] []) 5).joined.elem 0 = false ∧ (slotOf small 5).st ≠ .opened ∧ ((3 : Nat) ≠ 0) := by decide
theorem test_meets_MonitorRegisters : Serving small (me small) [63] ∧ (me small).mode = true ∧ launchOf small (me small).lseq = some (own small) ∧
    vdOf small (own small).vd = some (dev small) ∧ (dev small).caps / 4 % 2 = 1 := by decide

/-- The small machine with records in the event queue of plot 0. -/
def queued (l : List EvEntry) : State := setPlot small 0 { plotOf small 0 with evq := l }

theorem test_meets_EventWaits : Serving small (me small) [] ∧ (plotOf small (me small).plot).evq = [] ∧ (me small).tcmp = 0 ∧
    (let s := { given (fun t => { t with tcmp := 5 }) with time := 5 }; Serving s (me s) [] ∧ (me s).tcmp ≠ 0 ∧ (me s).tcmp.toNat ≤ s.time % 2 ^ 64) ∧
    (let s := { given (fun t => { t with tcmp := 5, stat := .waiting .wfe }) with time := 5 }; threadOf s 0 = some (me s) ∧
      (me s).stat = .waiting .wfe ∧ runs s (me s).lseq = true) ∧
    (let s := queued [⟨1, 9, 7⟩, ⟨0, 0, 8⟩]; Serving s (me s) [60] ∧ (60 : Reg).toNat % 4 = 0 ∧ (60 : Reg).toNat + 4 ≤ (me s).regs.length ∧
      (plotOf s (me s).plot).evq = [⟨1, 9, 7⟩] ++ ⟨0, 0, 8⟩ :: [] ∧ (∀ e ∈ [(⟨1, 9, 7⟩ : EvEntry)], e.tid ≠ s.cur)) := by decide
theorem test_meets_TileDescriptorWrite : Serving small (me small) [63] ∧ passes small .read 0x140 64 = true := by decide

/-- The small machine with a second thread in slot `k` of plot 0, and the first slot having yielded. -/
def yielded (k : Nat) : State :=
  let s := setThread small 1 { me small with slot := k, stat := if k = 0 then .gang else .ready }
  setPlot s 0 { plotOf s 0 with yieldedSlot := some 0 }

theorem test_meets_HaltAndYield : Serving small (me small) [] ∧ (me small).idx = some 0 ∧ launchOf small (me small).lseq = some (own small) ∧
    (let s := setLaunch (given fun t => { t with idx := none, task := some (3, 1) }) { own small with tasks := [(3, { TaskQ.empty with running := [1] })] };
      Serving s (me s) [] ∧ (me s).task = some (3, 1) ∧ lookup (own s).tasks 3 ≠ none) ∧
    ((plotOf (yielded 7) 0).yieldedSlot = some 0 ∧ eligibleAt (yielded 7) 0 = [(0, 0), (7, 1)]) ∧ eligibleAt (yielded 0) 0 = [(0, 0)] := by decide
theorem test_meets_HaltAndYield_records : (let s := setPlot small 0 { plotOf small 0 with evq := [⟨0, 0, 5⟩, ⟨0, 9, 6⟩] }; Serving s (me s) [] ∧
    launchOf s (me s).lseq = some (own s) ∧ vdOf s (own s).vd = some (dev s) ∧
    ((plotOf s (me s).plot).evq.filter (fun r => r.tid == s.cur)).map (fun r => r.bits) = [5]) := by decide

/-- The small machine with scale entry 20 holding given copies and holders. -/
def scaled (v d : BitVec 32) (ref : Nat) : State := setPlot small 0 (srfPut (plotOf small 0) 20 { value := v, dup := d, ref := ref, gen := 1 })

theorem test_meets_ScaleResults : (let s := scaled 0x40000000#32 0x40000000#32 1; launchOf s (me s).lseq = some (own s) ∧ Serving s (me s) [] ∧ Serving s (me s) [63] ∧
    (srfGet (plotOf s 0) (nameEntry (plotOf s 0) 20)).ref ≤ 1 ∧ (srfGet (plotOf s 0) 20).value = (srfGet (plotOf s 0) 20).dup ∧
    (srfGet (plotOf s 0) 255).ref = 0) := by decide
theorem test_meets_ScaleTrapsAndBindings : (let s := scaled 1#32 0#32 1; Serving s (me s) [] ∧ Serving s (me s) [63] ∧
      (srfGet (plotOf s 0) (nameEntry (plotOf s 0) 20)).value ≠ (srfGet (plotOf s 0) (nameEntry (plotOf s 0) 20)).dup) ∧
    (let s := scaled 1#32 1#32 2; Serving s (me s) [] ∧ Serving s (me s) [62, 63] ∧ 1 < (srfGet (plotOf s 0) (nameEntry (plotOf s 0) 20)).ref ∧
      (srfGet (plotOf s 0) (nameEntry (plotOf s 0) 21)).value = (srfGet (plotOf s 0) (nameEntry (plotOf s 0) 21)).dup) ∧
    ((me (regs [(63, 255)])).g 63).toNat < 256 ∧ (srfGet (plotOf small 0) 255).ref = 0 ∧ 256 ≤ ((me (regs [(63, 256)])).g 63).toNat ∧
    (me (given fun t => { t with pins := [255] })).pins.elem 255 = true ∧ (me small).pins.elem 255 = false := by decide
theorem test_meets_ScaleValues : (0x7F800001#32).toNat / 2 ^ 23 % 2 ^ 8 = 255 ∧ (0x7F800001#32).toNat % 2 ^ 23 ≠ 0 ∧
    ¬((0x7F800000#32).toNat % 2 ^ 23 ≠ 0) := by decide
/-- The exponent, and the magnitude in units of 2^-149, of an FP32 pattern. -/
def expOf (v : BitVec 32) : Nat := v.toNat / 2 ^ 23 % 2 ^ 8
def magOf (v : BitVec 32) : Nat := if expOf v = 0 then v.toNat % 2 ^ 23 else (2 ^ 23 + v.toNat % 2 ^ 23) * 2 ^ (expOf v - 1)

/-- Zeros, infinities, the least and the greatest finite number, integers at the ends of SEXP2's ranges, products and
reciprocals on both sides of overflow, and for SCVT each way of a rounding. -/
theorem test_meets_ScaleValues_ranges : magOf 0x80000000#32 = 0 ∧ (expOf 0xFF800000#32 = 255 ∧ (0xFF800000#32).toNat % 2 ^ 23 = 0) ∧
    magOf 1#32 = 1 ∧ expOf 0x7F7FFFFF#32 < 255 ∧ ((2 ^ 25 - 1) * 2 ^ 252 * 2 ^ 149 ≤ magOf 0x7F7FFFFF#32 * magOf 0x7F7FFFFF#32) ∧
    magOf 1#32 * magOf 1#32 < (2 ^ 25 - 1) * 2 ^ 252 * 2 ^ 149 ∧ (2 ^ 25 - 1) * 2 ^ 252 * magOf 1#32 ≤ 2 ^ 298 ∧
    2 ^ 298 < (2 ^ 25 - 1) * 2 ^ 252 * magOf 0x3F800000#32 ∧ (-(magOf 0x80000001#32 : Int) < magOf 0#32) ∧
    (magOf 1#32 < 2 ^ 123 ∧ magOf 1#32 ≠ 0) ∧ (magOf 0x42FE0000#32 : Int) = 127 * 2 ^ 149 ∧ (magOf 0x43000000#32 : Int) = 128 * 2 ^ 149 ∧
    (magOf 0xC3150000#32 : Int) = 149 * 2 ^ 149 ∧ (magOf 0xC3160000#32 : Int) = 150 * 2 ^ 149 ∧
    ((0x3F800000#32).msb = false ∧ 2 ^ 149 ≤ magOf 0x3F800000#32 ∧ magOf 0x3F800000#32 < 2 ^ 150) ∧
    (2 ^ 0 ≤ magOf 1#32 ∧ magOf 1#32 < 2 ^ 1) := by decide

/-- A stream source (LOADS), a PASS handler and a sink (STORES), joined by channels 0 and 1. -/
def pipe : Variant :=
  { loaderVariant with
    nodes := [
      { hrec := 3 + (0x10 * 2 ^ 25 + 2 * 2 ^ 10) * 2 ^ 224, ports := List.replicate 8 noChan, outA := 0, outB := noChan, part := 0, pack := 0, srfn := 0, klim := [0, 0, 0, 0] },
      { hrec := 0x1E003, ports := 0 :: List.replicate 7 noChan, outA := 1, outB := noChan, part := 0, pack := 0, srfn := 0, klim := [0, 0, 0, 0] },
      { hrec := 3 + (0x11 * 2 ^ 25 + 2 * 2 ^ 10) * 2 ^ 224, ports := 1 :: List.replicate 7 noChan, outA := noChan, outB := noChan, part := 0, pack := 0, srfn := 0, klim := [0, 0, 0, 0] }]
    chans := [
      { src := 0, dst := 1, cls := 0, lanes := 16, back := false, depth := 5, rminN := 1, rminD := 1, rmaxN := 1, rmaxD := 1 },
      { src := 1, dst := 2, cls := 0, lanes := 16, back := false, depth := 4, rminN := 1, rminD := 1, rmaxN := 1, rmaxD := 1 }] }

/-- Where it stands: plot 0, elements 0, 1 and 2. -/
def piped : Placed :=
  { loaderFit.place with sites := [(0, 0), (0, 1), (0, 2)], hidx := [0, 0, 0], legs := [[0], [0]], nums := [[0], [1]], links := [[], []] }

/-- The small machine whose launch is that graph, with its configuration in the three PEs. -/
def graph : State :=
  let s := launched fun l => { l with variant := pipe, image := [pipe], place := piped }
  { s with pes := (List.range 3).map (fun e => (e, { PE.empty with active := planeFor 0 pipe piped 0 e })) }

def graphed (f : Launch → Launch) : State := setLaunch graph (f (own graph))

/-- The 64 bytes at an address, as a number, put in a state. -/
def poke (s : State) (a v : Nat) : State := { s with mem := writeRaw s.mem a 64 v }

/-- A stream record of `n` FP32 elements from 0x2000. -/
def rec0 (n : Nat) : Nat := 0x2000 + n * 2 ^ 128 + (2 ^ 160 + 2 ^ 192 + 2 ^ 224 + 2 ^ 256) + 4 * 2 ^ 320

def blockOk (s : State) (ea n : Nat) : Bool := match loadBlock s (threadCtx s (me s)) ea n n with | (_, .ok _) => true | _ => false

theorem test_meets_StreamBindings_record : Serving graph (me graph) [63, 0] ∧ launchOf graph (me graph).lseq = some (own graph) ∧ (own graph).swap = none ∧
    (own (graphed fun l => { l with swap := some ⟨none, []⟩ })).swap ≠ none ∧ (3 : Nat) ≥ (own graph).variant.nodes.length ∧
    isPort (pipe.node 1).hrec = false ∧ isPort (pipe.node 0).hrec = true ∧ isPort (pipe.node 2).hrec = true ∧
    ((own (graphed fun l => l.setPort 0 { Port.empty with active := some (.handle 0 0 0 0 0) })).port 0).hasForm true = true ∧
    ((own graph).port 0).hasForm true = false ∧ ((own graph).port 0).waiting = none := by decide
theorem test_meets_StreamBindings_checks : (let s := poke graph 0x140 (rec0 16); blockOk s 0x140 64 = true ∧ readRaw s.mem 0x140 64 = rec0 16) ∧
    (let r := parseRec 0x140 (rec0 16); recOk (rec0 16) r (pipe.node 0).hrec (portClass pipe (pipe.node 0)) 0 = true ∧ r.chase = isChase (pipe.node 0).hrec ∧
      r.bytes < 2 ^ 40 ∧ (me graph).pend.getD 3 0 + r.bytes < 2 ^ 40) ∧
    recOk (rec0 16 + 2 ^ 56) (parseRec 0x140 (rec0 16 + 2 ^ 56)) (pipe.node 0).hrec 0 0 = false ∧
    (let r := parseRec 0x140 (rec0 (2 ^ 32 - 1) + (2 ^ 6 - 1) * 2 ^ 160); 2 ^ 37 ≤ r.bytes ∧
      recOk (rec0 (2 ^ 32 - 1) + (2 ^ 6 - 1) * 2 ^ 160) r (pipe.node 0).hrec 0 0 = true) := by decide

/-- A handle of 16 slots at scratch address 0, with `head` and `tail`. -/
def ring (out : Bool) (head tail : Nat) : Handle :=
  { dirOut := out, base := 0, log2n := 4, head := head, tail := tail, eos := false, eosAt := false, tags := [], div := none, node := 0, user := 0 }

/-- The graph's thread with that handle as number 5. -/
def handled (x : Handle) : State := setThread graph 0 { me graph with handles := [(5, x)] }

theorem test_meets_StreamBindings_handle : (let s := handled (ring true 0 0); Serving s (me s) [63, 0] ∧ lookup (me s).handles 5 = some (ring true 0 0) ∧ (ring true 0 0).eos = false) ∧
    lookup (me graph).handles 5 = none ∧ (0x7FFC00 : Nat) % 128 = 0 ∧ 0x7FFC00 + 128 * 2 ^ (3#4).toNat ≤ scratchSize ∧ scratchSize < 0x7FFC80 + 128 * 2 ^ (3#4).toNat ∧
    (0x7FFC40 : Nat) % 128 ≠ 0 ∧ ringInFifo graph 0 0x7FE000 1024 = none ∧ isLoads (pipe.node 0).hrec = true ∧ isStores (pipe.node 2).hrec = true ∧
    (isLoads (pipe.node 1).hrec = false ∧ isStores (pipe.node 1).hrec = false) ∧ ((own graph).port 2).hasForm false = false ∧
    ((own (graphed fun l => l.setPort 2 { Port.empty with waiting := some (.stream (parseRec 0 (rec0 1)) 0 0 0 0 0 0 4) })).port 2).hasForm false = true ∧
    ((own graph).hnode 0).bound = none ∧ ((own (graphed fun l => l.setHnode 0 { HNode.empty with bound := some (0, 1) })).hnode 0).bound ≠ none ∧
    (own graph).variant.parts.length = 1 ∧ ((7#4 : BitVec 4) ≠ 6#4) := by decide
theorem test_meets_StreamBindings_fifo : (let s := setPlot (setThread graph 0 (set [(63, 0x7FFC00)] (me graph))) 0 { plotOf graph 0 with fifo := 1 };
    Serving s (me s) [63, 0] ∧ (own s).swap = none ∧ isLoads ((own s).variant.node 0).hrec = true ∧ lookup (me s).handles 5 = none ∧
      ((me s).g 63).toNat % 128 = 0 ∧ ((me s).g 63).toNat + 1024 ≤ scratchSize ∧
      scratchSize - 4096 * fifoPages s (me s).plot < ((me s).g 63).toNat + 1024) := by decide

/-- A tile descriptor of 8 rows of 16 bytes at 0x2000, in DRAM or (`w`) in a plot's scratch. -/
def tile (w : Bool) : BitVec 512 := BitVec.ofNat 512 (0x2000 + 7 * 2 ^ 64 + 15 * 2 ^ 80 + 16 * 2 ^ 96 + 2 ^ 135 + (if w then 2 ^ 134 else 0))

/-- The small machine with tile descriptors 0 (DRAM), 1 (scratch) and 2 (not valid) in plot 0. -/
def tiled : State := setPlot (regs [(1, 1), (2, 2), (3, 32)]) 0 { plotOf small 0 with tiles := [(0, tile false), (1, tile true), (2, 0#512)] }

/-- The checks of R145 and R148 on two descriptors. -/
def tilesSound (x y : BitVec 512) : Bool :=
  let f := fun (y : BitVec 512) hi lo => y.toNat / 2 ^ lo % 2 ^ (hi + 1 - lo)
  f x 135 135 == 1 && f y 135 135 == 1 && (f x 133 132 == 0 || f x 133 132 == 3) && (f y 133 132 == 0 || f y 133 132 == 3) &&
  f x 79 64 == f y 79 64 && f x 95 80 == f y 95 80

theorem test_meets_Copies : launchOf tiled (me tiled).lseq = some (own tiled) ∧ Serving tiled (me tiled) [1, 2, 63, 0] ∧ Serving tiled (me tiled) [0, 1, 63] ∧
    ((me tiled).g 63).toNat = 0 ∧ (me tiled).pend.getD 3 0 + (2 ^ 40 - 1) < 2 ^ 40 ∧ (lookupD (own tiled).copyQ 15 []).length < 64 ∧
    (own tiled).place.plots[((me tiled).g 1).toNat / 32]? = some 0 ∧ lookupD (plotOf tiled 0).tiles (((me tiled).g 1).toNat % 32) 0#512 = tile true ∧
    (own tiled).place.plots[((me tiled).g 3).toNat / 32]? = none ∧ tilesSound (tile true) (tile false) = true ∧ tilesSound (tile true) 0#512 = false ∧
    (tile true).toNat / 2 ^ 134 % 2 = 1 ∧ (tile false).toNat / 2 ^ 134 % 2 = 0 ∧ (9 : Nat) / 2 ^ 8 % 2 ^ 24 = 0 ∧ (9 : Nat) % 8 = 1 ∧ (9 : Nat) / 8 % 32 = 1 ∧
    (8 : Nat) % 8 ≠ 1 := by decide
theorem test_meets_FencesTasksEvents : launchOf small (me small).lseq = some (own small) ∧ Serving small (me small) [] ∧ Serving small (me small) [62, 63] ∧
    (own small).copyQ = [] ∧ (own small).collQ = [] ∧ blockOk small 0x140 64 = true ∧ (readRaw (poke small 0x140 (0x4000 + 64 * 2 ^ 128)).mem 0x140 64) % 4 = 0 ∧
    (lookupD (own small).tasks 15 TaskQ.empty).recs.length < 4096 ∧ (own small).place.plots[((me small).g 63).toNat]? = some 0 ∧
    (own small).place.plots[1]? = none ∧ eventRoom small (me small).lseq 0 7 = true := by decide

/-- The header and the one entry of a collective of one participant. -/
def collMem : State :=
  { small with mem := writeRaw (writeRaw small.mem 0x400 32 (1 * 2 ^ 64 + 16 * 2 ^ 128)) 0x420 32 (0x2000 * 2 ^ 64 + 0x3000 * 2 ^ 128) }

theorem test_meets_CollectiveIssue : Serving collMem (me collMem) [63, 0] ∧ launchOf collMem (me collMem).lseq = some (own collMem) ∧
    vdOf collMem (own collMem).vd = some (dev collMem) ∧ blockOk collMem 0x400 32 = true ∧ blockOk collMem 0x420 32 = true ∧
    (let hdr := readRaw collMem.mem 0x400 32; let ent := readRaw collMem.mem 0x420 32
      hdr / 2 ^ 64 % 2 ^ 16 = 1 ∧ hdr / 2 ^ 80 % 2 ^ 16 = 0 ∧ hdr / 2 ^ 96 % 2 ^ 32 = 0 ∧ hdr / 2 ^ 128 % 2 ^ 64 = 16 ∧ hdr / 2 ^ 192 % 2 ^ 64 = 0 ∧
      ent / 2 ^ 8 % 2 ^ 56 = 0 ∧ ent % 2 ^ 8 = (dev collMem).domix ∧ ent / 2 ^ 192 = 0 ∧ collOut .allreduce 1 16 0 0 * collBytes .fp32 < 2 ^ 40) ∧
    (match readModules collMem (threadCtx collMem (me collMem)) 0x400 0 0 0 1 with | (_, .ok ms) => ms == [0] | _ => false) = true ∧
    (lookupD (own collMem).collQ 0 []).length < 64 ∧ ¬(readRaw small.mem 0x400 32 / 2 ^ 64 % 2 ^ 16 ≥ 1) := by decide

theorem test_meets_BarriersAndWaits : Serving small (me small) [] ∧ (∀ c ∈ List.range 4, (me small).pend.getD c 0 = 0) ∧
    (me (given fun t => { t with pend := [0, 0, 0, 1] })).pend.getD 3 0 ≠ 0 ∧ launchOf small (me small).lseq = some (own small) ∧ arrivals (me small) 255 = none ∧
    (let s := setThread (launched fun l => { l with groups := [(255, 1)], thrtab := [{ entry := 0, nreq := 1, plotix := 0, groups := [255], resv := false }] }) 0
        { me small with groups := [(255, 0)] }; Serving s (me s) [] ∧ arrivals (me s) 255 = some 0 ∧ listed (own s).groups 255 = true ∧
      gbarDone (setThread s s.cur ((me s).arrive 255)) (me s).lseq 255 1 = true) ∧
    (let s := setThread (launched fun l => { l with groups := [(255, 2)], thrtab := List.replicate 2 { entry := 0, nreq := 1, plotix := 0, groups := [255], resv := false } }) 0
        { me small with groups := [(255, 0)] }; gbarDone (setThread s s.cur ((me s).arrive 255)) (me s).lseq 255 1 = false) ∧
    (let s := given fun t => { t with stat := .waiting (.sbar 8) }; threadOf s 0 = some (me s) ∧ runs s (me s).lseq = true ∧ (me s).stat = .waiting (.sbar 8)) ∧
    (let s := given fun t => { t with stat := .waiting (.gbar 3) }; gbarDone s (me s).lseq 3 ((arrivals (me s) 3).getD 0) = true) := by decide

/-- A copy that waits to be issued for room in its counter, and one in a queue. -/
def job : CopyJob :=
  { op := .linear 0x2000 0x3000 4096, total := 4096, pkeys := BitVec.allOnes 64, tid := 0, ctr := 0, plot := 0, slot := 0, user := 7, pos := 0,
    part := 0, uncorr := false, snap := [], olds := [], pages := [], held := false, retryAt := 0, retryNow := false, waitLoad := false }
def waitingCopy (n : Nat) : State := given fun t => { t with stat := .waiting (.cmd (.copy 0 0 4096 (.op job)) 8), pend := [n, 0, 0, 0] }
theorem test_meets_BarriersAndWaits_issue : (let s := waitingCopy (2 ^ 40 - 4096); canIssue s (me s) (.copy 0 0 4096 (.op job)) = false) ∧
    (let s := waitingCopy (2 ^ 40 - 4097); launchOf s (me s).lseq = some (own s) ∧ runs s (me s).lseq = true ∧
      (me s).pend.getD 0 0 + 4096 < 2 ^ 40 ∧ (lookupD (own s).copyQ 0 []).length < 64) := by decide
theorem test_meets_BarriersAndWaits_waiting : (let s := given fun t => { t with stat := .waiting (.sbar 8), pend := [0, 0, 0, 1] }; threadOf s 0 = some (me s) ∧
      runs s (me s).lseq = true ∧ (me s).stat = .waiting (.sbar 8) ∧ (8 / 2 ^ 3 % 2 = 1 ∧ (me s).pend.getD 3 0 ≠ 0)) ∧
    (let s := setThread (launched fun l => { l with groups := [(3, 2)], thrtab := List.replicate 2 { entry := 0, nreq := 1, plotix := 0, groups := [3], resv := false } }) 0
        { me small with groups := [(3, 1)], stat := .waiting (.gbar 3) }; threadOf s 0 = some (me s) ∧ runs s (me s).lseq = true ∧
      (me s).stat = .waiting (.gbar 3) ∧ gbarDone s (me s).lseq 3 ((arrivals (me s) 3).getD 0) = false) := by decide

def fillOf (x : Handle) : Nat := (x.tail + 2 ^ 32 - x.head) % 2 ^ 32

theorem test_meets_Handles : (let s := handled (ring false 0xFFFFFFFF 1); launchOf s (me s).lseq = some (own s) ∧ Serving s (me s) [] ∧ Serving s (me s) [63] ∧
      lookup (me s).handles 5 = some (ring false 0xFFFFFFFF 1) ∧ lookup (me s).handles 15 = none) ∧ fillOf (ring false 0xFFFFFFFF 1) = 2 ∧
    (ring false 0 16).dirOut = false ∧ fillOf (ring false 0 16) = 16 ∧ 2 ^ (ring false 0 16).log2n = 16 ∧ fillOf (ring true 0 1) = 1 ∧
    (ring true 0 1).eosAt = false ∧ ({ ring true 0 1 with eosAt := true } : Handle).eosAt = true ∧ ¬(0 ≥ (1 : Nat)) ∧ ¬(17 ≤ 2 ^ (ring true 0 1).log2n) ∧
    (let s := setThread graph 0 { me graph with handles := [(5, ring false 0 16)], stat := .waiting (.cbFull 5 16) }; threadOf s 0 = some (me s) ∧
      runs s (me s).lseq = true ∧ (me s).stat = .waiting (.cbFull 5 16) ∧ 16 ≤ fillOf (ring false 0 16)) ∧
    (let s := handled (ring true 0 1); lookupD (me s).htags 5 0 = 0 ∧ listed s.backed (2048 * (me s).plot + (0 + 128 * ((1 + 14) % 16)) / 4096) = false ∧
      14 + fillOf (ring true 0 1) < 16 ∧ 16 ≤ 15 + fillOf (ring true 0 1)) ∧ listed windowed.backed (2048 * 0 + 0 / 4096) = true := by decide
theorem test_meets_Handles_divert : (let x := { ring false 0 2 with div := some 0 }; let s := handled x; launchOf s (me s).lseq = some (own s) ∧
      Serving s (me s) [63] ∧ lookup (me s).handles 5 = some x ∧ x.div ≠ none ∧ (1 < fillOf x ∧ (x.head + 1) % 2 = 1) ∧ (x.head + 0) % 2 ≠ 1 ∧
      listed s.backed (2048 * (own s).place.hnode.getD 0 awayPlot + (128 * 1) / 4096) = false ∧ (6#4 ≠ 5#4 ∧ 7#4 ≠ (5#4 : BitVec 4))) ∧
    (let s := setThread graph 0 { me graph with handles := [(5, ring true 0 0)], htags := [(5, 0x141)] }; lookup (me s).handles 5 = some (ring true 0 0) ∧
      (ring true 0 0).eosAt = false ∧ 1 + fillOf (ring true 0 0) ≤ 16 ∧ lookupD (me s).htags 5 0 ≠ 0 ∧ lookupD (me s).htags 5 0 / 16 ∉ (me s).pins) ∧
    (let s := setThread graph 0 { me graph with handles := [(5, ring true 0 1)], stat := .waiting (.cbEmpty 5 15) }; threadOf s 0 = some (me s) ∧
      runs s (me s).lseq = true ∧ (me s).stat = .waiting (.cbEmpty 5 15) ∧ 15 + fillOf (ring true 0 1) ≤ 16) := by decide

/-- The small machine with a graph-command block at 0x400 that names launch `q` by its bits. -/
def commanded (s : State) (b : Nat) : State := set32 s b
where set32 (s : State) (b : Nat) : State := { s with mem := writeRaw s.mem 0x400 32 b }

/-- Another launch of the same device, 9, held or with a shadow image. -/
def other (f : Launch → Launch) : State := setLaunch small (f { own small with lseq := 9 })

theorem test_meets_GraphCommands : Serving small (me small) [62, 63] ∧ launchOf small (me small).lseq = some (own small) ∧ (63 : Reg) ≠ 0 ∧
    (let s := commanded (other id) 9; blockOk s 0x400 32 = true ∧ readRaw s.mem 0x400 32 = 9 ∧ (launchOf s 9).isSome = true ∧
      ((launchOf s 9).map (·.vd)) = some (own s).vd ∧ (me s).mode = true ∧ ((launchOf s 9).map (·.lseq)) ≠ some (me s).lseq) ∧
    readRaw (commanded small (2 ^ 136)).mem 0x400 32 / 2 ^ 136 % 2 ^ 120 ≠ 0 ∧ readRaw (commanded small (2 ^ 64)).mem 0x400 32 / 2 ^ 64 % 2 ^ 72 ≠ 0 ∧
    launchOf small 8 = none ∧ (launchOf (other fun l => { l with vd := 1 }) 9).map (·.vd) ≠ some (own small).vd ∧
    ((launchOf (other fun l => { l with frozen := [.drain] }) 9).map (·.frozen)) = some [.drain] ∧
    ((launchOf (other fun l => { l with swap := some ⟨none, []⟩ }) 9).map (·.swap)) = some (some ⟨none, []⟩) ∧
    (let l := own (launched fun l => { l with shadow := some (loaderVariant, loaderFit.place) }); l.shadow ≠ none ∧ l.frozen = [] ∧ l.ports = [] ∧ l.swap = none) ∧
    (Freeze.drain ∉ (own small).asked) ∧ ((launchOf (other fun l => { l with frozen := [.owl] }) 9).map (fun l => decide (Freeze.drain ∉ l.frozen))) = some true ∧
    (let s := setThread small 0 { me small with stat := .waiting (.gloadsh 1 0x2000 0 0) }; threadOf s 0 = some (me s) ∧ (own s).runs = true ∧ runs s (me s).lseq = true ∧
      (own s).swap = none ∧ (match shadowFor s (own s) 0x2000 0 with | (_, .error _) => true | _ => false) = true) := by decide
/-- The small machine's launch with a port bound to a stream. -/
theorem test_meets_GraphCommands_more :
    (let l := own (launched fun l => { (l.setPort 0 { Port.empty with active := some (.handle 0 0 0 0 0) }) with shadow := some (loaderVariant, loaderFit.place) });
      l.swap = none ∧ ∃ p ∈ l.ports, p.2.active ≠ none ∨ p.2.waiting ≠ none) ∧
    (let s1 := setThread (showStores small small.cur 4) small.cur { me small with stat := .waiting (.glaunch (1 + small.waiting.foldl (fun n x => Nat.max n x.ticket) 0)) };
      (match martenRead s1 (own small).vd ((me small).g 63).toNat 64 with | (_, .ok _) => true | _ => false) = true) ∧
    ((match loadBlock small (threadCtx small (me small)) 1 32 32 with | (_, .bad _ _) => true | _ => false) = true ∧
      (match loadBlock small (threadCtx small (me small)) 0x400 32 32 with | (_, .ok _) => true | _ => false) = true ∧ (1 : Reg) ≠ 0) := by
  refine ⟨by decide, by decide +kernel, by decide +kernel⟩

theorem test_meets_ThreadEvents : (let s := given fun t => { t with loads := [(63, 5)] }; threadOf s 0 = some (me s) ∧ (me s).loads = (63, 5) :: []) ∧
    (let s := given fun t => { t with stat := .waiting (.sibling 0) }; (me s).stat = .waiting (.sibling 0) ∧ unloaded s 0 (me s).lseq = false ∧
      unloaded (setLaunch s { own s with loaded := false }) 0 2 = unloaded s 0 2) ∧
    (let s := { given (fun t => { t with stat := .waiting (.backing 0 2047) }) with backed := [(2047, none)] }; listed s.backed (2048 * 0 + 2047) = true ∧
      (me s).stat = .waiting (.backing 0 2047)) ∧ (launchOf small 1).map (·.loaded) = some true ∧
    (let s := launched fun l => { l with thrtab := [{ entry := 0x5000, nreq := 9, plotix := 0, groups := [], resv := false }],
                                         tasks := [(15, { TaskQ.empty with recs := [⟨0, 0x6000, 0, 64, false, [1, 2, 3, 4, 5]⟩] })] }
      let q := fun w => setPlot s 0 { plotOf s 0 with admq := [{ lseq := 1, what := w, nreq := 64 }] }
      (plotOf (q (.entry 0)) 0).admq ≠ [] ∧ freeSlot (q (.entry 0)) 0 = some 1 ∧ poolUsed (q (.entry 0)) 0 + granted 64 ≤ 512 ∧ (own s).thrtab[0]?.isSome = true ∧
      (lookupD (own s).tasks 15 TaskQ.empty).recs.length = 1 ∧ (threadOf (q (.restore 0)) 0).isSome = true ∧ 512 < poolUsed s 0 + granted 449) := by decide
theorem test_meets_ThreadEvents_more : (let s := setThread (launched fun l => { l with loaded := false }) 0 { me small with stat := .waiting (.sibling 0) };
      threadOf s 0 = some (me s) ∧ (me s).stat = .waiting (.sibling 0) ∧ unloaded s 0 (me s).lseq = true) ∧
    (let s := { small with backed := [(2047, some (0, 5))] }; lookup s.backed (2048 * 0 + 2047) = some (some (0, 5)) ∧ vdOf s 0 = some loaderVd ∧
      Memory.wf s.mem = true ∧ ∀ j, j < 4096 → memGet s.mem (scratchAddr 0 (4096 * 2047) + j) = 0#8) := by decide +kernel

/-- A launch of an image of a source and the sink that it feeds, waiting in a machine with no other launch; `mask` gives the
plots of its device. -/
def waitingLaunch (queue : Bool) (mask : Nat) : State :=
  let img := 0x3149474B + 2 ^ 32 + 2 ^ 64 + 64 * 2 ^ 128 + 96 * 2 ^ 192 + 112 * 2 ^ 256 + 280 * 2 ^ 320 +
    (2 ^ 8 + 2 * 2 ^ 16 + 2 ^ 32 + 128 * 2 ^ 64 + 256 * 2 ^ 96 + 272 * 2 ^ 128) * 2 ^ 512 +
    (3 + (0x10 * 2 ^ 25 + 2 * 2 ^ 10) * 2 ^ 224 + (2 ^ 128 - 1) * 2 ^ 256 + 65535 * 2 ^ 400) * 2 ^ 1024 +
    (3 + (0x11 * 2 ^ 25 + 2 * 2 ^ 10) * 2 ^ 224 + (2 ^ 160 - 65536) * 2 ^ 256) * 2 ^ 1536 +
    (2 ^ 16 + 0xF0 * 2 ^ 32 + 5 * 2 ^ 48 + 2 ^ 64 + 2 ^ 80 + 2 ^ 96 + 2 ^ 112) * 2 ^ 2048 + 257 * 2 ^ 2176
  let s := { small with threads := [], launches := [], plots := [], mem := writeRaw small.mem 0x1000 280 img }
  { setVd s 0 { loaderVd with plotmask := mask } with
    waiting := [{ ticket := 5, hdr := { loaderHeader with kgiva := 0x1000, nthr := 0, queue := queue }, gid := 0, vd := 0, origin := .host 7#64,
                  parked := false, again := false, partmap := none }] }

/-- The outcome of Marten's attempt at the waiting launch: 99 where it fits, or the status. -/
def attempted (s : State) : Nat := match nextWaiting s with | some w => (match attempt s w with | (_, .ok _) => 99 | (_, .error (st, _)) => st) | none => 98

theorem test_meets_LaunchEvents_placement : attempted (waitingLaunch true 1) = 99 := by decide +kernel
theorem test_meets_LaunchEvents_refused : attempted (waitingLaunch true 0) = stFitSpace ∧ attempted (waitingLaunch false 0) = stFitSpace := by decide +kernel

/-- The small machine's launch saved: without plots, and its thread frozen with it. -/
def savedAway : State := { launched (fun l => { l with resident := false, frozen := [.forced] }) with plots := [], threads := [] }

theorem test_meets_LaunchEvents : (let s := launched fun l => { l with nodeWait := true, frozen := [.node] }; launchOf s 1 = some (own s) ∧ (own s).lseq = 1 ∧ (own s).nodeWait = true) ∧
    (let s := { launched (fun l => { l with halted := [0] }) with threads := [] }; (launchOf s 1).map (launchDone s) = some true) ∧
    launchDone small (own small) = false ∧ (own (launched fun l => { l with asked := [.drain] })).asked ≠ [] ∧
    (let l := own (launched fun l => { l with frozen := [.slice] }); l.resident = true ∧ Freeze.slice ∈ l.frozen) ∧
    (match launchOf savedAway 1 with
      | some l => l.resident == false && !l.frozen.elem .slice && sliceOn savedAway l.vd &&
          (match restoreRects savedAway l with | some r => (movePlaces savedAway l r).isSome | none => false)
      | none => false) = true ∧ (own small).runs = true ∧ (own small).swap = none := by decide
theorem test_meets_LaunchEvents_relocation : (let s := setVd small 0 { loaderVd with plotmask := 3 }; (relocate s (own s) (freePlot s (own s).vd)).isSome = true) := by
  decide +kernel
theorem test_meets_LaunchEvents_waiting : (let s := waitingLaunch true 1; nextWaiting s = s.waiting.head? ∧ s.waiting ≠ []) ∧
    (let s := launched fun l => { l with nodeWait := true, frozen := [.node] }; (own s).resident = true ∧ (own s).lseq = 1) ∧
    (own small).nodeWait = false ∧ (own small).asked = [] ∧ (let l := own (launched fun l => { l with asked := [.slice] }); l.shadow = none ∧ l.swap = none) ∧
    (∃ x : Waiting, x.parked = true ∧ x.again = true) ∧
    (let w : Waiting := ⟨5, loaderHeader, 0, 0, .host 0, false, false, some []⟩; let s := { small with waiting := [w] }
      launchOf s 0 = none ∧ ∀ n, (s.waiting.filter (fun w => w.partmap.isSome))[n % (s.waiting.filter (fun w => w.partmap.isSome)).length]? = some w) ∧
    (launchOf small 0 = none ∧ small.waiting.filter (fun w => w.partmap.isSome) = []) := by
  refine ⟨by decide, by decide, by decide, by decide, by decide, ⟨⟨0, loaderHeader, 0, 0, .host 0, true, true, none⟩, rfl, rfl⟩, ⟨by decide, fun n => ?_⟩, by decide⟩
  simp [Nat.mod_one]
/-- The graph of `waitingLaunch` fits as a shadow image of the small machine's launch. -/
theorem test_meets_GraphCommands_shadow : (let s := setThread { small with mem := (waitingLaunch true 1).mem } 0 { me small with stat := .waiting (.gloadsh 1 0x1000 0 0) }
    threadOf s 0 = some (me s) ∧ (own s).runs = true ∧ (match shadowFor s (own s) 0x1000 0 with | (_, .ok _) => true | _ => false) = true) := by decide +kernel

/-- A host message for device 0 that may command it, with a body. -/
def msg (op : Nat) (body : List Byte) : Kcp :=
  { bytes := natBytes 4 0x3150434B ++ natBytes 1 op ++ natBytes 3 0 ++ natBytes 8 77 ++ natBytes 4 body.length ++ natBytes 12 0 ++ body, port := 0, vds := [0], conn := some 0 }

/-- The body of an OPEN_VD for plots 0 to 7, and of a LAUNCH message of the small machine's launch. -/
def openBody : List Byte := natBytes 48 0 ++ natBytes 16 255 ++ natBytes 2 1 ++ natBytes 270 0
def launchBody (n : Nat) : List Byte := natBytes 16 n ++ natBytes 8 1 ++ natBytes 64 0

theorem test_meets_HostMessages : small.running < 2 ∧ (msg 2 []).port < 1 ∧ (msg 1 openBody).bytes.length ≤ 2 ^ 24 ∧ (msg 2 []).vds ≠ [] ∧
    mOp { msg 8 [] with vds := [] } = 8 ∧ ¬({ msg 2 [] with port := 4 } : Kcp).port < 4 ∧ headOk { bytes := [], port := 0, vds := [0], conn := none } = false ∧ headOk (msg 1 openBody) = true ∧ mOp (msg 1 openBody) = 1 ∧ openOk openBody = true ∧
    mayOpen State.reset (msg 1 openBody) openBody = true ∧ mayOpen small (msg 1 openBody) openBody = false ∧ headOk (msg 8 (natBytes 32 0)) = true ∧
    headOk (msg 2 []) = true ∧ vdOf State.reset (mVd (msg 2 [])) = none ∧ vdOf small (mVd (msg 2 [])) = some (dev small) ∧ mVd (msg 2 []) ∈ (msg 2 []).vds ∧
    mVd (msg 2 []) ∉ ({ msg 2 [] with vds := [] } : Kcp).vds := by decide
theorem test_meets_HostMessages_bodies : mapOk (mBody (msg 3 (natBytes 24 0))) = true ∧ (mapStores (mBody (msg 3 (natBytes 24 0))) (List.range 0) small).2 = none ∧
    (hostWrite 0 2 0x2000 [1, 2] small).2 = .ok ∧ (hostRead 0 2 0x2000 8 small).2.2 = .ok ∧ (hostRead 0 2 0x40000000 8 small).2.2 ≠ .ok ∧
    launchOk (mBody (msg 6 (launchBody 0))) = true ∧ leAt (mBody (msg 6 (launchBody 3))) 0 1 = 3 ∧ launchOk (mBody (msg 6 (launchBody 3))) = true ∧
    (launchOf small (leAt (mBody (msg 6 (launchBody 1))) 16 8)).map (·.vd) = some 0 ∧ launchOf small 2 = none ∧ eventsOk (natBytes 4 65536) = true ∧
    logOk (natBytes 12 0) = true ∧ small.receipts = [] ∧
    (({ small with receipts := [⟨5, [1]⟩] } : State).receipts.reverse.find? (fun r => r.engid == 5)).isSome = true := by decide
/-- A message of a connection and device behind a waiting one, and one that is done again while others do not wait before it. -/
theorem test_meets_HostMessages_behind : (let m := msg 4 (natBytes 16 0x2000 ++ [1#8]); let s := { small with kcpHeld := [(msg 5 (natBytes 16 0), .read (msg 5 (natBytes 16 0)))] }
      (∃ x ∈ s.kcpHeld, x.1 ≠ m ∧ m.conn ≠ none ∧ x.1.conn = m.conn ∧ mVd x.1 = mVd m) ∧ (∀ x ∈ s.kcpHeld, x.1 ≠ m) ∧ headOk m = true ∧ mOp m = 4 ∧
      16 ≤ (mBody m).length ∧ leAt (mBody m) 8 8 = 0) ∧ small.kcpHeld = [] ∧
    (let m := msg 4 []; ({ small with kcpHeld := [(m, .write m)] } : State).kcpHeld = [(m, Instr.write m)]) ∧
    (let m : Kcp := { msg 8 (natBytes 32 0) with vds := [] }; headOk m = true ∧ mOp m = 8 ∧ (mBody m).length = 32 ∧ m.vds = []) ∧ (msg 8 []).vds ≠ [] ∧
    (let b := mBody (msg 3 (natBytes 16 0 ++ natBytes 4 1 ++ natBytes 4 0 ++ natBytes 8 0x800000000 ++ natBytes 8 0)); mapOk b = true ∧
      (mapStores b (List.range (leAt b 16 4)) small).2 = some 0x27) := by decide +kernel

/-- A monitor's log with one record. -/
def log0 : MonLog := { touches := [], recs := [5], openAt := 0, blocks := [], fetched := [], prev := 0, next := 3 }

/-- The small machine with monitor 0 on its pages and its block store full. -/
def fullStore : State := vded fun d => { d with
  mons := [(0, { base := 0, en := true, limit := 2 ^ 40 - 1, nbase := 0, nen := true, nlimit := 2 ^ 40 - 1, win := 0 })]
  monlogs := [(0, { log0 with blocks := (List.range 4096).map (fun k => (k, [])) })] }
theorem test_meets_HostMessages_stalled : (hostWrite 0 2 0x2000 [1] fullStore).2 = .wait ∧ (hostRead 0 2 0x2000 8 fullStore).2.2 = .wait ∧
    (hostWrite 0 2 0x40000000 [1] small).2 = .bad 0x20 ∧ (hostRead 0 2 0x40000000 8 small).2.2 = .bad 0x20 := by decide +kernel

/-- The small machine with a copy queue of its die. -/
def copying (l : List CopyEnt) : State := launched fun x => { x with copyQ := [(0, l)] }

theorem test_meets_EngineEvents_copy : (let s := copying [.fence 3 0]; nextQueue s 0 = some 16 ∧ launchOf s 1 = some (own s) ∧ lookupD (own s).copyQ 0 [] = .fence 3 0 :: []) ∧
    (let s := copying [.op job]; nextQueue s 0 = some 16 ∧ job.pos + 2048 < job.total ∧ faultHeldAt (own s) (.copyQ 0 0) = false) ∧
    (let j := { job with held := true, retryAt := 5 }; (own (copying [.op j])).runs = true ∧ j.held = true ∧ j.retryNow = false ∧ small.time < j.retryAt + 65536 ∧
      { small with time := 65541 }.time ≥ j.retryAt + 65536 ∧ j.waitLoad = false) := by decide
theorem test_meets_EngineEvents_unit : (match moveUnit (copying [.op job]) (copyCtx (own small) job) job 2048 with
    | (_, j, _, none) => j.pos == job.pos && j.total == job.total && j.op == job.op | _ => false) = true := by decide +kernel
theorem test_meets_EngineEvents_records : (let e : Event := { vd := 0, lseq := 1, plot := 0, slot := 0, kind := 0, status := 0, cause := 0, queue := 0, user := 0, count := 0, toHost := false, tid := some 0, src := none, left := none, flow := [] }
      let s := setPlot small 0 { plotOf small 0 with evHeld := [e] }
      (plotOf s 0).evHeld = e :: [] ∧ (enterEvent (setPlot s 0 { plotOf s 0 with evHeld := [] }) e).isSome = true ∧
      enterEvent (setPlot s 0 { plotOf s 0 with evHeld := [], evq := List.replicate 256 ⟨0, 0, 0⟩ }) e = none) ∧
    (let r : Task := ⟨0, 0x6000, 0, 8, true, []⟩; let s := launched fun l => { l with tasks := [(15, { TaskQ.empty with recs := [r], running := [4] })] }
      (own s).runs = true ∧ (lookupD (own s).tasks 15 TaskQ.empty).recs = r :: [] ∧ r.barrier = true ∧ (lookupD (own s).tasks 15 TaskQ.empty).running ≠ [] ∧
      (lookupD (own s).tasks 15 TaskQ.empty).sent = false) := by decide

/-- A plot whose launch is one MATRIX node, with a copy into scratch that waits for its LOADW. -/
def weights : Variant :=
  { loaderVariant with nodes := [{ hrec := 0x1FF + (0x7F * 2 ^ 25 + 8 * 2 ^ 21 + 8 * 2 ^ 17) * 2 ^ 64 + (2 ^ 128 - 1) * 2 ^ 96, ports := List.range 8, outA := noChan, outB := noChan,
                                   part := 0, pack := 0, srfn := 0, klim := [0, 0, 0, 0] }] }
def loadJob : CopyJob := { job with op := .tile (tile true) (tile false) 0 0 (some 3), waitLoad := true }
def matrixed (v : Variant) : State :=
  let place := { loaderFit.place with sites := [(0, 0)], hidx := [0] }
  let s := launched fun l => { l with variant := v, image := [v], place := place, copyQ := [(0, [.op loadJob])] }
  { s with pes := (List.range 64).map (fun e => (e, { PE.empty with active := planeFor 0 v place 0 e })) }

theorem test_meets_EngineEvents_loadw : (let s := matrixed weights; peLaunch s 0 = some (own s) ∧ waitingLoad (own s) 0 = some (0, loadJob) ∧ (own s).runs = true ∧
      matrixNode s 0 = some (0, 0) ∧ (plotOf s 0).matrix.pending = none ∧ (plotOf s 0).matrix.retained = [] ∧ tdSkind (tile true) ≠ 3) ∧
    (let s := matrixed loaderVariant; peLaunch s 0 = some (own s) ∧ waitingLoad (own s) 0 = some (0, loadJob) ∧ matrixNode s 0 = none) := by decide
/-- A copy of one unit, one whose destination is not mapped, and a CPYM of a tile that the matrix plot takes, or does not. -/
def unitJob : CopyJob := { job with op := .linear 0x2000 0x3000 2048, total := 2048 }
def faultyJob : CopyJob := { job with op := .linear 0x40000000 0x3000 4096 }
def tileJob : CopyJob := { job with op := .tile (tile true) (tile false) 0 0 (some 3), total := 128 }
theorem test_meets_EngineEvents_last : (unitJob.pos + 2048 = unitJob.total ∧ Nat.min 2048 (tileJob.total - tileJob.pos) = 128 ∧ tileJob.op = .tile (tile true) (tile false) 0 0 (some 3)) ∧
    (match moveUnit (copying [.op unitJob]) (copyCtx (own small) unitJob) unitJob 2048 with
      | (_, j, _, none) => j.pos == 0 && j.total == 2048 && j.op == unitJob.op | _ => false) = true ∧
    (match moveUnit (copying [.op tileJob]) (copyCtx (own small) tileJob) tileJob 128 with
      | (_, j, _, none) => j.pos == 0 && j.total == 128 && j.op == tileJob.op | _ => false) = true ∧
    (match moveUnit (copying [.op faultyJob]) (copyCtx (own small) faultyJob) faultyJob 2048 with
      | (_, j, _, some (.fault va c _ _)) => va == 0x40000000 && c == 0x20 && j.pos == 0 | _ => false) = true := by decide +kernel

/-- One participant of a collective of two ranks, its operation in its queue, and the collective in a given state. -/
def collPart (r : Nat) : CollPart := { rank := r, vd := 0, lseq := 1, part := 0, key := 16 * r, inva := 0x2000, outva := 0x3000, scaleva := 0, modules := [0, 0], wrote := 0 }
def collJob (r : Nat) : CollJob := { coll := 1, rank := r, total := 4, tid := 0, ctr := 0, plot := 0, slot := 0, user := 7 }
def coll0 : Coll :=
  { vd := 0, comm := 0, op := .allreduce, red := .add, fmt := .fp32, sc := false, n := 2, len := 1, root := 0, occ := 0, parts := [collPart 0, collPart 1], started := false,
    partials := [], ended := [], flags := 0, bad := false, abandoned := false, upto := 0, uncorr := false, pages := [], retryAt := none, retryNow := false }
def collecting (c : Coll) : State :=
  { launched (fun l => { l with collQ := [(0, [.op (collJob 0)]), (16, [.op (collJob 1)])] }) with colls := [(1, c)] }
def started : Coll := { coll0 with started := true, partials := [(0, 1, [0#40]), (1, 2, [0#40])] }
def formed : Coll := { coll0 with started := true, partials := [(0, 2, [0#40])], ended := [0] }

theorem test_meets_FencesTasksEvents_queued : (let s := collecting coll0; Serving s (me s) [] ∧ (own s).lseq = (me s).lseq ∧
    CollEnt.op (collJob 0) ∈ lookupD (own s).collQ 0 [] ∧ (∀ q ∈ (own s).collQ, CollEnt.fence (own s).fences 0 ∉ q.2) ∧ (lookupD (own s).collQ 0 []).length < 64) := by decide
theorem test_meets_CollectiveEvents : (let s := collecting coll0; (collsOf s 0 0).find? (fun c => collReady s c.1 c.2) = some (1, coll0) ∧ coll0.bad = false ∧
      (match readInputs 1 coll0 (List.range coll0.n) s with | (_, .ok _) => true | _ => false) = true) ∧
    (let c := { coll0 with bad := true }; (collsOf (collecting c) 0 0).find? (fun x => collReady (collecting c) x.1 x.2) = some (1, c) ∧ c.bad = true) ∧
    (let s := collecting started; (collsOf s 0 0).find? (fun c => c.2.nextNode.isSome && !c.2.abandoned && c.2.parts.all (fun p => c.2.ended.elem p.rank || partFree s p)) =
      some (1, started) ∧ started.nextNode = some (0, 1, 2)) ∧
    (let s := collecting formed; (collsOf s 0 0).findSome? (fun c => if c.2.formed && !c.2.abandoned && collDue s c.2 then
        (c.2.parts.find? (fun p => !c.2.ended.elem p.rank && partFree s p)).map (fun p => (c.1, c.2, p)) else none) = some (1, formed, collPart 1) ∧
      launchOf s 1 = some (own s) ∧ (writeOutput formed (collPart 1) 0 ((formed.stored 1).1.drop 0) (raiseFlags s 1 0 (formed.flags ||| formed.storeFlags))).2.2 = none) ∧
    (let c := { formed with abandoned := true, ended := [] }; let s := collecting c
      (collsOf s 0 0).findSome? (fun c => if c.2.abandoned then (c.2.parts.find? (fun p => !c.2.ended.elem p.rank && partFree s p)).map (fun p => (c.1, p)) else none) =
        some (1, collPart 0) ∧ lookup s.colls 1 = some c ∧ collPart 0 ∈ c.parts ∧ (∀ q ∈ c.parts, q.rank = (collPart 0).rank → q = collPart 0) ∧
      jobOf (own s) (collPart 0) 1 = some (collJob 0)) := by decide
/-- Started parts; an output that faults; a third rank that stands on another module. -/
def collFails : Coll := { formed with parts := [collPart 0, { collPart 1 with outva := 0x40000000 }] }
def away : Coll := { coll0 with n := 3, parts := [{ collPart 0 with modules := [0, 0, 1] }, { collPart 1 with modules := [0, 0, 1] }] }
theorem test_meets_CollectiveEvents_combine : partial? started.partials 0 1 = some [0#40] ∧ partial? started.partials 1 2 = some [0#40] ∧
    (let s := collecting formed; let p := collPart 1;
      (match writeOutput formed p 0 ((formed.stored 1).1.drop 0) (raiseFlags s 1 0 (formed.flags ||| formed.storeFlags)) with
      | (s', k, none) =>
        jobOf (own s) p 1 == some (collJob 1) &&
          ((launchOf (subPend s' 0 0 (k * 4)) 1).bind (fun l => jobOf l { p with wrote := k } 1)) == some (collJob 1)
      | _ => false) = true) ∧
    (let s := collecting collFails;
      (collsOf s 0 0).findSome? (fun c => if c.2.formed && !c.2.abandoned && collDue s c.2 then
        (c.2.parts.find? (fun p => !c.2.ended.elem p.rank && partFree s p)).map (fun p => (c.1, c.2, p)) else none) =
        some (1, collFails, { collPart 1 with outva := 0x40000000 }) ∧
      (match writeOutput collFails { collPart 1 with outva := 0x40000000 } 0 ((collFails.stored 1).1.drop 0) (raiseFlags s 1 0 (collFails.flags ||| collFails.storeFlags)) with
      | (_, _, some (va, x, _)) => va == 0x40000000 && x == 0x20 | _ => false) = true) := by decide +kernel

/-- An abandoned collective, with its job; and one that waits for a rank of another module. -/
theorem test_meets_CollectiveEvents_abandoned : (let c := { coll0 with abandoned := true };
    let s := collecting c; let s1 := scatterPart s 1 c (collPart 0);
    ((collsOf s 0 0).findSome? (fun c => if c.2.abandoned then (c.2.parts.find? (fun p => !c.2.ended.elem p.rank && partFree s p)).map (fun p => (c.1, c.2, p)) else none)) =
      some (1, c, collPart 0) ∧ ((lookup s1.colls 1).getD c).parts.find? (fun q => q.rank == 0) = some (collPart 0) ∧
      ((launchOf (raiseFlags s1 1 0 c.allFlags) 1).bind (fun l => jobOf l (collPart 0) 1)) = some (collJob 0) ∧
      ((launchOf (subPend (raiseFlags s1 1 0 c.allFlags) 0 0 0) 1).bind (fun l => jobOf l (collPart 0) 1)) = some (collJob 0)) ∧
    (let s := collecting away; (collsOf s 0 0).findSome? (fun c => if c.2.abandoned then
        (c.2.parts.find? (fun p => !c.2.ended.elem p.rank && partFree s p)).map (fun p => (c.1, c.2, p)) else none) = none ∧
      (collsOf s 0 0).filter (fun c => ranksAway s c.2 && !c.2.abandoned && !(c.2.bad && c.2.started)) = [(1, away)]) ∧
    (collsOf (collecting formed) 0 0).filter (fun c => ranksAway (collecting formed) c.2 && !c.2.abandoned && !(c.2.bad && c.2.started)) = [] := by decide +kernel

def tok (k : TKind) (n : Nat) : Token := ctlToken k 0 n false

/-- The graph's launch with a fault record waiting, or stopped for Owl. -/
def recorded (src : FSource) (tail : Nat) : State := launched fun l => { l with fbHeld := [{ bits := 5, src := src, held := false }], fbTail := tail }
def idling : State := { graphed (fun l => { l.setChan 0 { ChanSt.empty with fifo := [tok .data 0] } with owlint := 1000, idle := [(0, 24)] }) with time := 1024 }

theorem test_meets_FaultRecordsAndOwl : (let s := recorded .owl 15; launchOf s 1 = some (own s) ∧ (own s).lseq = 1 ∧ 16 * 2 ^ ((own s).fbbase.toNat % 16) = 16 ∧
      ((own s).fbTail + 2 ^ 24 - (own s).fbHead) % 2 ^ 24 = 15 ∧ (own s).fbHeld = { bits := 5, src := .owl, held := false } :: [] ∧
      (match storeVA s (martenCtx 0) ((own s).fbbase.toNat / 2 ^ 12 % 2 ^ 44 * 2 ^ 12 + 32 * (15 % 16)) 32 32 5 with | (_, .ok _) => true | _ => false) = true) ∧
    (((own (recorded .owl 16)).fbTail + 2 ^ 24 - (own (recorded .owl 16)).fbHead) % 2 ^ 24 = 16) ∧
    ((own (recorded (.thread 0) 0)).fbHeld.map (·.src) = [.thread 0]) ∧ (own idling).fbOvf = false ∧
    (0 < (own idling).variant.parts.length ∧ owlDue idling (own idling) 0 = true) ∧ owlDue { idling with time := 1023 } (own idling) 0 = false := by decide
/-- The graph's launch with a waiting record and its ring at a page that is not mapped; and one whose record is held already. -/
def unwritable (held ovf : Bool) : State := launched fun l =>
  { l with fbHeld := [{ bits := 5, src := .owl, held := held }], fbbase := 0x40000000, fbOvf := ovf }
theorem test_meets_FaultRecordsAndOwl_held : (let s := unwritable false false; ((own s).fbTail + 2 ^ 24 - (own s).fbHead) % 2 ^ 24 < 16 ∧
      (match storeVA s (martenCtx 0) 0x40000000 32 32 5 with | (_, .bad _ _) => true | _ => false) = true ∧ (∃ x ∈ (own s).fbHeld, x.held = false) ∧ (own s).fbOvf = false ∧
      (entryZero (setLaunch s (own s)) 1).map (·.1) = some 0 ∧ (plotOf s 0).evHeld = [] ∧ evqUsed (setLaunch s (own s)) (me s) < 256) ∧
    (∀ x ∈ (own (unwritable true true)).fbHeld, x.held = true) ∧ (own (unwritable false true)).fbOvf = true ∧
    (let s := { unwritable false false with threads := [] }; entryZero s 1 = none ∧ (vdOf s 0).isSome = true) ∧
    (1 < 2 ∧ (vdOf idling (own idling).vd).isSome = true) := by decide +kernel

/-- The graph with channel 0 in a given state and `n` tokens in the queue it ends in. -/
def channelled (n : Nat) (c : ChanSt) : State :=
  modPlane (graphed fun l => l.setChan 0 c) 1 fun q => q.setQueue 0 (List.replicate n (tok .data 0))

theorem test_meets_TokenEvents : (let s := channelled 3 { ChanSt.empty with fifo := [tok .data 1], legs := [[tok .data 2]] }
      (pipe, piped) = (own s).img (keyImg 0) ∧ (own s).runs = true ∧ (peOf s (piped.peOf 1)).active.img = keyImg 0 ∧
      ((peOf s (piped.peOf 1)).active.queue (pipe.dstPort 0)).length < 4 ∧ tokenFault (peOf s (piped.peOf 1)).active (tok .data 1) = none ∧
      ((own s).chanSt 0).fifo = tok .data 1 :: []) ∧
    (let s := channelled 3 { ChanSt.empty with legs := [[tok .data 2]] }; ((own s).chanSt 0).fifo = [] ∧ ((own s).chanSt 0).spill = [] ∧
      ((own s).chanSt 0).legs.getD 0 [] = tok .data 2 :: [] ∧ ((own s).chanSt 0).fifo.length < (pipe.chan 0).depth - 4) ∧
    ¬((peOf (channelled 4 ChanSt.empty) 1).active.queue 0).length < 4 ∧
    (let s := channelled 4 { ChanSt.empty with fifo := [tok .data 1], legs := [[tok .data 2]], segs := [0] }; ¬((own s).chanSt 0).fifo.length < (pipe.chan 0).depth - 4 ∧
      ((own s).chanSt 0).spill = [] ∧ 0 < 512 * ((own s).chanSt 0).segs.length) := by decide

/-- The graph's launch with its first channel led through a second plot. -/
def crossing : State := graphed fun l =>
  { l.setChan 0 { ChanSt.empty with legs := [[tok .data 2], []] } with place := { piped with legs := [[0, 1], [0]], nums := [[0, 3], [1]] } }

/-- The graph with a firing of its PASS node kept for a request of channel 1, and the request of channel `k`. -/
def kept : Retain := { img := 0, h := 0, seq := 4, good := [], bad := [(0, 4)], k := [0, 0, 0, 0], asked := false }
def requesting (k : Nat) : State := setPe (graphed fun l => { l with requests := [⟨k, 4⟩] }) 1 { peOf graph 1 with retain := [kept] }

theorem test_meets_TokenEvents_ways : (let s := crossing; (own s).place.stopsOf 0 = [0, 1] ∧ crossingStops s (own s) 0 = [0] ∧ fromAway (own s) 0 = false ∧
      ((own s).chanSt 0).legs.getD 0 [] = tok .data 2 :: [] ∧ (tok .data 2).stag = 0) ∧
    (let l := { own (requesting 1) with place := { piped with sites := [(0, 0), (awayPlot, 0), (0, 2)] } }; l.requests[0]? = some ⟨1, 4⟩ ∧ isSelf 1 = false ∧
      (l.img 0).2.plotOf (pipe.chan 1).src = awayPlot) ∧
    (let s := requesting 1; (own s).requests[0]? = some ⟨1, 4⟩ ∧ piped.plotOf (pipe.chan 1).src ≠ awayPlot ∧ isMatrix (pipe.node 1).hrec = false ∧
      isStateful (pipe.node 1).hrec = false ∧ (peOf s 1).retain.find? (fun x => x.img == 0 && x.h == piped.hidx.getD 1 0 && x.emitted (pipe.node 1).hrec 4) = some kept ∧ kept.asked = false) ∧
    (let w : Hole := { h := 0, heads := [], need := [(0, 5)], k := [0, 0, 0, 0], ctl := false }
      let s := setPe (channelled 0 { ChanSt.empty with replay := [tok .data 5] }) 1 { peOf graph 1 with window := [w] }
      (own s).replayEnd 0 = (0, 1, 0) ∧ ((own s).chanSt 0).replay = tok .data 5 :: [] ∧ (tok .data 5).err = false ∧
      (peOf s 1).window.findIdx? (fun y => y.h == piped.hidx.getD 1 0 && y.need.elem (0, tokId (tok .data 5))) = some 0 ∧ (peOf s 1).window[0]? = some w) := by decide
/-- The graph with a spill ring area, four tokens at the end of channel 0, and the channel in a given state. -/
def spilling (n : Nat) (len : Nat) (c : ChanSt) : State := setVd (channelled n c) 0 { loaderVd with spilllen := len, spillva := 0x100000 }
theorem test_meets_TokenEvents_spill : (let s := spilling 3 65536 { ChanSt.empty with spill := [tok .data 1], segs := [0] }
      ((own s).chanSt 0).fifo = [] ∧ ((own s).chanSt 0).spill = tok .data 1 :: [] ∧ (vdOf s (own s).vd).isSome = true ∧ ((own s).chanSt 0).fifo.length < (pipe.chan 0).depth - 4) ∧
    (let s := modPlane (channelled 0 { ChanSt.empty with fifo := [tok .data 1] }) 1 fun q => { q with img := 1 }; (peOf s 1).active.img ≠ keyImg 0) ∧
    (let s := channelled 4 { ChanSt.empty with legs := [[tok .data 2]] }; 4 ≤ (((peOf s 1).planeOf 0).queue 0).length ∧ ((own s).chanSt 0).fifo.length < (pipe.chan 0).depth - 4 ∧
      ((own s).chanSt 0).spill = []) ∧
    (let s := spilling 4 0 { ChanSt.empty with fifo := [tok .data 1], legs := [[tok .data 2]] }; ¬((own s).chanSt 0).fifo.length < (pipe.chan 0).depth - 4 ∧
      512 * ((own s).chanSt 0).segs.length ≤ ((own s).chanSt 0).head + 0 ∧ (dev s).spilllen / 65536 = 0) ∧
    (let s := spilling 4 65536 { ChanSt.empty with fifo := [tok .data 1], legs := [[tok .data 2]] }; 0 < (dev s).spilllen / 65536 ∧ listed (dev s).segs 0 = false) ∧
    crossingStops graph (own graph) 0 = [] ∧ ((own graph).chanSt 0).ckpt = [] := by decide +kernel

/-- The graph's launch with its first channel led to another plot, over a field border or a die's edge, its tokens at the stops given;
led to another module; and led from one, with its receive buffer as given. -/
def ledTo (p : Nat) (legs : List (List Token)) : State := graphed fun l =>
  { (l.setChan 0 { ChanSt.empty with legs := legs }) with place := { piped with legs := [[0, p], [0]], nums := [[0, 3], [1]], links := [[(65536, 0)], []] } }
def bordered : State := ledTo 2 [[tok .data 2], [], []]
def coming (r : List (Token × BitVec 32)) : State := graphed fun l =>
  { (l.setChan 0 { ChanSt.empty with recv := r }) with requests := [⟨0, 4⟩], place := { piped with sites := [(awayPlot, 0), (0, 1), (0, 2)] } }
def leaving (f : ChanSt → ChanSt) : State := graphed fun l =>
  { (l.setChan 0 (f { ChanSt.empty with legs := [[tok .data 2]] })) with place := { piped with sites := [(0, 0), (awayPlot, 0), (0, 2)] } }

/-- The stops whose tokens may go on: none into an elastic buffer that is full, of a field border or of an end of a crossing link. -/
theorem test_meets_TokenEvents_buffers : (own bordered).place.stopsOf 0 = [0, 2, 2] ∧ crossingStops bordered (own bordered) 0 = [0] ∧
    (let s := ledTo 2 [[], [tok .data 2], []]; crossingStops s (own s) 0 = [1]) ∧
    (let s := ledTo 2 [[tok .data 3], List.replicate 8 (tok .data 2), []]; crossingStops s (own s) 0 = [1]) ∧
    (let s := ledTo 32 [[tok .data 3], List.replicate 32 (tok .data 2), List.replicate 31 (tok .data 2), []]; (own s).place.stopsOf 0 = [0, 0, 32, 32] ∧
      crossingStops s (own s) 0 = [2, 1]) ∧
    plotDie 0 ≠ plotDie 32 ∧ plotDie 0 = plotDie 2 ∧ fieldOf 0 ≠ fieldOf 2 ∧ fieldOf 0 = fieldOf 1 := by decide +kernel
theorem test_meets_TokenEvents_coming : (let s := coming []; fromAway (own s) 0 = true ∧ ((own s).chanSt 0).recv = [] ∧ peerPort s (own s) 0 1 0 = none ∧
      (own s).place.plotOf 1 ≠ awayPlot ∧ (own s).requests[0]? = some ⟨0, 4⟩) ∧
    (let s := coming [(tok .data 1, 5)]; chanRoom s (own s) 0 ((own s).chanSt 0).moving = true ∧ (tok .data 1).stag = 0 ∧ 0 < ((own s).place.stopsOf 0).length ∧
      ((own s).chanSt 0).recv.length < 64) ∧ (∃ r : List (Token × BitVec 32), 64 ≤ r.length) := by
  refine ⟨by decide +kernel, by decide +kernel, ⟨List.replicate 64 (tok .data 1, 5), by decide⟩⟩
theorem test_meets_TokenEvents_far : (farReplay (coming []) (own (coming [])) 0 0 4).isSome = true := by
  have bound : ∀ v, (bindCommon (plotOf (coming []) ((own (coming [])).place.plotOf 1)) v).isSome = true := by
    intro v
    have : (let x := plotOf (coming []) ((own (coming [])).place.plotOf 1); (freeEntry x x.common (256 - x.common)).isSome) = true := by decide
    simp [bindCommon, bindIn, this]
  have either : ∀ {α β : Type} (c : Prop) [Decidable c] (a : β) (o : Option α) (g : α → β), o.isSome = true →
      (if c then some a else o.bind fun y => some (g y)).isSome = true := by
    intro α β c _ a o g h
    obtain ⟨y, rfl⟩ := Option.isSome_iff_exists.mp h
    split <;> rfl
  have hp : (((own (coming [])).img ((own (coming [])).replayEnd 0).1).2.plotOf ((own (coming [])).replayEnd 0).2.1) = (own (coming [])).place.plotOf 1 := by decide
  simp only [farReplay]
  rw [hp]
  exact either _ _ _ _ (bound _)

theorem test_meets_TokenEvents_crossing :
    (∀ n, Config.freeNat n % 1 = 0) ∧ ((own bordered).chanSt 0).ckpt = [] ∧ 0 + 2 ≠ [0, 2, 2].length ∧ 2 ≠ (0 : Nat) ∧
    (match crossTag bordered 0 2 0 with | .ok (some (s, 0)) => s == bordered | _ => false) = true ∧
    (let s := leaving id; (own s).place.plotOf (pipe.chan 0).dst = awayPlot ∧ ((own s).chanSt 0).sent = 0 ∧ awayPort { s with free := 1 } (own s) 0 = none ∧
      ((own s).chanSt 0).legs = [[tok .data 2]]) := by
  refine ⟨fun n => Nat.mod_one _, by decide, by decide, by decide, by decide +kernel, by decide +kernel⟩

/-- A stream of one element bound to a port of the graph's launch, its channel-side state as given. -/
def bound1 : Binding := .stream (parseRec 0 (rec0 1)) 0 0 0 0 7 (BitVec.allOnes 64) 4
def streaming (n : Nat) (f : Port → Port) : State := graphed fun l =>
  { l.setPort n (f { Port.empty with active := some bound1 }) with hdr := { l.hdr with markint := 8 } }
def held1 : Spilled := { at_ := (0x2000, false), tok := 0, lane := 0, page := 0 }

theorem test_meets_StreamEvents : (own graph).swap = none ∧ isPort (pipe.node 0).hrec = true ∧ eventHeldAt graph 1 (.port 0) = false ∧ ((own graph).port 0).active = none ∧
    isSource (pipe.node 0).hrec = true ∧ isSource (pipe.node 2).hrec = false ∧ ((own (streaming 0 id)).port 0).active = some bound1 ∧
    (let s := streaming 0 fun p => { p with generated := true }; let p := (own s).port 0; p.generated = true ∧ p.window = [] ∧ p.eosIn = false ∧ p.sinceMark = 0 ∧
      0 < (own s).hdr.markint ∧ ((peOf (tidyPorts s (own s) 0) 0).active.queue 0).length < 4) ∧
    ((own (streaming 2 fun p => { p with spill := [held1] })).port 2).spill ≠ [] ∧ ((own (streaming 2 id)).port 2).spill = [] ∧
    ((own (graphed fun l => l.setPort 0 { Port.empty with active := some (.handle 0 5 0 0 7) })).port 0).active = some (.handle 0 5 0 0 7) := by decide
theorem test_meets_StreamEvents_held : (let p := (own (streaming 0 id)).port 0; p.retryNow = false ∧ graph.time < p.retryAt + 65536) ∧
    (let s := streaming 0 fun p => { p with spill := [held1], retryNow := true, generated := true, window := [{ num := 0, els := [none], at_ := [(0x2000, false)], pos := 0, full := true, stag := 0, err := false }] }
      let p := (own s).port 0; p.spill = [held1] ∧ p.linkHeld = none ∧ recordWaits (own s) 0 held1.at_.1 = false ∧ p.retryNow = true ∧
      (match agRead (setLaunch s ((own s).setPort 0 { p with retryAt := s.time, retryNow := false })) (fabricCtx (own s) (BitVec.allOnes 64)) 0x2000 4 with
        | (s1, .ok _) => launchOf s1 1 == some ((own s).setPort 0 { p with retryAt := s.time, retryNow := false }) | _ => false) = true) ∧
    ((own (streaming 0 fun p => { p with eosOut := true })).port 0).eosOut = true ∧ ((own (streaming 0 id)).port 0).eosOut = false ∧
    (let p := (own (streaming 2 fun p => { p with eosIn := true, waiting := some bound1 })).port 2; p.eosIn = true ∧ p.sinkQ = [] ∧ p.waiting = some bound1) := by decide
/-- A whole token of a source, and a stored lane's worth of a sink. -/
def wholeTok : WinTok := { num := 0, els := [some 1#40], at_ := [(0x2000, false)], pos := 0, full := true, stag := 0, err := false }
def sunk (es : List (Option Elem)) (f : Port → Port) : State := streaming 2 fun p => f { p with sinkQ := [(tok .data 0, 0, es)], sinkTok := 1 }

theorem test_meets_StreamEvents_source :
    (let s := streaming 0 fun p => { p with sinceMark := 8 }; let p := (own s).port 0
      (own s).hdr.markint ≤ p.sinceMark ∧ (∀ w ∈ p.window, w.holds = false) ∧ ((peOf (tidyPorts s (own s) 0) 0).active.queue 0).length < 4) ∧
    (let s := streaming 0 fun p => { p with window := [wholeTok], nTok := 1, generated := true }; let p := (own s).port 0
      p.sinceMark < (own s).hdr.markint ∧ toCommutative pipe 0 = false ∧ p.window = wholeTok :: [] ∧ wholeTok.full = true ∧ wholeTok.holds = false ∧
      packOfRec pipe 0 (parseRec 0 (rec0 1)) = 1) ∧
    (let s := streaming 0 id; let p := (own s).port 0; let r := parseRec 0 (rec0 1)
      nextPlaced p (own s).hdr.markint (toCommutative pipe 0) = none ∧ p.generated = false ∧ r.empty = false ∧ r.chase = false ∧ r.skind = 0 ∧ p.linkHeld = none ∧
      p.spill.length < 16 ∧ beginsTok p = true ∧ p.window.length + (((peOf (tidyPorts s (own s) 0) 0).active.queue 0).filter (fun t => t.kind == .data)).length < 64 ∧
      gatesAdmit (peOf (tidyPorts s (own s) 0) 0).active (pipe.node 0) p.nTok = true ∧
      (match agRead (admitTok (tidyPorts s (own s) 0) (own s) 0) (fabricCtx (own s) (BitVec.allOnes 64)) (r.addrOf 0) r.size with
        | (s2, .ok _) => launchOf s2 1 == some (own s) | _ => false) = true) ∧
    (let s := handled (ring true 0 1); let s := setLaunch s { (own s).setPort 0 { Port.empty with active := some (.handle 0 5 0 0 7) } with hdr := { (own s).hdr with markint := 8 } }
      boundHandle (tidyPorts s (own s) 0) 1 0 5 = some (ring true 0 1) ∧ (ring true 0 1).node = 0 ∧ ((own s).port 0).eosIn = false ∧ ((own s).port 0).eosOut = false ∧
      (ring true 0 1).head ≠ (ring true 0 1).tail ∧
      gatesAdmit (peOf (tidyPorts s (own s) 0) 0).active (pipe.node 0) 0 = true ∧ listed (tidyPorts s (own s) 0).backed (2048 * 0 + (ring true 0 1).slotAddr 0 0 / 4096) = false) := by
  decide +kernel

theorem test_meets_StreamEvents_sink :
    (let s := sunk [some 1#40] (fun p => { p with spill := List.replicate 16 held1 }); let p := (own s).port 2; sinkReady p = none ∧ 16 ≤ p.spill.length ∧
      nextLane p = some (0, 0, 1#40) ∧ laneHeld p 0 0 = true ∧ isSource (pipe.node 2).hrec = false) ∧ (sinkReady Port.empty = none ∧ nextLane Port.empty = none) ∧
    (let s := sunk [some 1#40, some 2#40] (fun p => { p with spill := [held1] }); let p := (own s).port 2; sinkReady p = none ∧ nextLane p = some (0, 0, 1#40) ∧
      laneHeld p 0 0 = true ∧ (lanesLeft p).filter (fun y => !laneHeld p y.1 y.2.1) = [(0, 1, 2#40)] ∧ p.spill.length < 16) ∧
    (let s := sunk [none, some 1#40] id; let p := (own s).port 2; let r := parseRec 0 (rec0 1)
      sinkReady p = none ∧ laneHeld p 0 1 = false ∧ p.spill.length < 16 ∧ nextLane p = some (0, 1, 1#40) ∧ p.sinkQ[0]? = some (tok .data 0, 0, [none, some 1#40]) ∧
      r.nibble = false ∧ (match dataCheck (tidyPorts s (own s) 2) (fabricCtx (own s) (BitVec.allOnes 64)) .write (r.addrOf 1) r.size 1 with | (_, .ok _) => true | _ => false) = true) ∧
    (let r := parseRec 0 (rec0 1 - 0x2000 + 0x40000000); let s := sunk [some 1#40] (fun p => { p with active := some (.stream r 0 0 0 0 7 (BitVec.allOnes 64) 4) })
      (match dataCheck (tidyPorts s (own s) 2) (fabricCtx (own s) (BitVec.allOnes 64)) .write (r.addrOf 0) r.size 1 with | (_, .bad _ _) => true | _ => false) = true) ∧
    (let s := sunk [none, none] id; sinkReady ((own s).port 2) = some (tok .data 0, [none, none]) ∧ (pipe.node 2).outA = noChan) := by
  refine ⟨by decide +kernel, by decide +kernel, by decide +kernel, by decide +kernel, by decide +kernel, by decide +kernel⟩

theorem test_meets_HandlerSelection : (candOf (channelled 1 ChanSt.empty) (own graph) 1 0).map (·.blocked) = some false := by decide

/-- A firing of PASS held in the window whose head has come. -/
def whole : Hole := { h := 0, heads := [(0, tok .data 5)], need := [], k := [0, 0, 0, 0], ctl := false }
def swapping : State := setPe (modPlane (graphed fun l => { l with swap := some ⟨none, []⟩ }) 1 fun q => q.setQueue 0 [tok .swap 0]) 1
  { peOf graph 1 with active := (peOf graph 1).active.setQueue 0 [tok .swap 0] }

theorem test_meets_Firings : (let s := graph; peLaunch s 1 = some (own s) ∧ launchOf s (own s).lseq = some (own s) ∧ handlerPart (own s) 1 = none ∧ (peOf s 1).active.matrix = false ∧
      windowReady s (own s) 1 (fun _ => true) = none ∧ swapHead (peOf s 1).active = false ∧ selectCand (peOf s 1).active 0 ((peOf s 1).active.hrecs.filterMap (fun x => candOf s (own s) 1 x.1)) = none) ∧
    (let s := channelled 1 ChanSt.empty; tidyPorts s (own s) 1 = s ∧
      (selectCand (peOf s 1).active 0 ((peOf s 1).active.hrecs.filterMap (fun x => candOf s (own s) 1 x.1))).isSome = true ∧ (candOf s (own s) 1 0).isSome = true) ∧
    (let s := setPe graph 1 { peOf graph 1 with window := [whole] }; (windowReady s (own s) 1 (fun _ => true)).isSome = true) ∧
    (let s := swapping; tidyPorts s (own s) 1 = s ∧ swapHead (peOf s 1).active = true ∧ maySwap s (own s) 1 = true) ∧ maySwap graph (own graph) 1 = false := by decide

/-- The matrix plot with a token on each row, its weights as given. -/
def vectored (k : TKind) (m : Matrix) (f : Launch → Launch) : State :=
  let s := matrixed weights
  let s := setLaunch s (f { own s with copyQ := [] })
  let s := modPlane s 0 fun q => (List.range 8).foldl (fun q i => q.setQueue i [tok k 3]) q
  setPlot s 0 { plotOf s 0 with matrix := m }

/-- The heads of the eight rows of that plot. -/
def rowsOf (k : TKind) : List (Nat × Token) := (List.range 8).map (fun i => (i, tok k 3))

theorem test_meets_Firings_swap : (let s := vectored .swap Matrix.empty (fun l => { l with swap := some ⟨none, []⟩ }); peLaunch s 0 = some (own s) ∧ (own s).swap ≠ none ∧
      (peOf s 0).swapped = false ∧ (peOf s 0).active.matrix = true ∧ (List.range 8).all (fun i => ((peOf s 0).active.head i).map (·.kind) == some .swap) = true ∧
      planeOuts (own s) (peOf s 0).active = [] ∧ (List.range 64).all (fun e => planeOuts (own s) (peOf s e).shadow == []) = true) := by decide +kernel
theorem test_meets_Firings_vector : (let s := vectored .data Matrix.empty id; matrixNode s 0 = some (0, 0) ∧ tidyPorts s (own s) 0 = s ∧
      headsOf (peOf s 0).active (List.range 8) = some (rowsOf .data) ∧ columnsOf ((own s).img 0).1 0 = [] ∧ faultHeldAt (own s) (.pe 0 0) = false ∧
      (plotOf s 0).matrix.pending = none ∧ queuedLoads (own s) 0 = []) ∧
    (let s := vectored .data { Matrix.empty with pending := some 3 } id; (plotOf s 0).matrix.pending = some 3 ∧ (plotOf s 0).matrix.retained = []) ∧
    (let s := vectored .data { Matrix.empty with pending := some 9 } (fun l => { l with copyQ := [(0, [.op tileJob])] }); (plotOf s 0).matrix.pending = some 9 ∧ 3 ∈ queuedLoads (own s) 0) ∧
    (let s := vectored .eos Matrix.empty id; headsOf (peOf s 0).active (List.range 8) = some (rowsOf .eos) ∧ (rowsOf .eos).any (·.2.err) = false) ∧
    ((rowsOf .eos).map (fun y => (y.1, { y.2 with err := true }))).any (·.2.err) = true := by decide +kernel
/-- A firing of one token whose handler has the word of `op` and `mod` in stage `j`. -/
def staged (j op mod tag : Nat) : FireIn :=
  { h := 3 + (op * 2 ^ 25 + mod * 2 ^ 10) * 2 ^ (32 * j + 32), heads := [(0, { tok .data 5 with stag := tag, valid := 3#16 })], accs := [], k := [0, 0, 0, 0], plot := plotOf small 0 }
def flowing (j : Nat) : Flow := { flow0 (staged 1 0 0 0) with vs := List.replicate (j - 2) zeroElems }

theorem test_meets_Firings_stages : ([4, 5, 6].all fun op => stageRuns (hStage (staged 1 op 0 0).h 1) (staged 1 op 0 0).lead.colour && sOp (hStage (staged 1 op 0 0).h 1) == op) = true ∧
    (match stage1 (staged 1 4 0 0), stage1 (staged 1 5 0 0), readTag (plotOf small 0) (selTag (staged 1 6 0 0) 0), readTag (plotOf small 0) (selTag (staged 1 6 0 0x141) 0) with
      | .ok _, .ok _, .ok _, .error c => c == 0x60 | _, _, _, _ => false) = true ∧
    ((flowing 2).vs.length = 2 - 2 ∧ (flowing 5).vs.length = 5 - 2) ∧
    (stageRuns (hStage (staged 5 0x20 0 0).h 5) 0 = true ∧ sOp (hStage (staged 5 0x20 0 0).h 5) = 0x20 ∧ sOp (hStage (staged 2 0x10 0 0).h 2) ≠ 0x20) ∧
    stageRuns (5 * 2 ^ 5) (staged 2 0 0 0).lead.colour = false ∧
    (sOp (hStage (staged 6 1 3 0).h 6) = 1 ∧ sMod (hStage (staged 6 1 3 0).h 6) = 3 ∧ sOp (hStage (staged 6 2 3 0).h 6) = 2 ∧ sMod (hStage (staged 6 2 3 0).h 6) = 3) := by
  decide +kernel

/-- A firing of handler 0 of the graph's PE 1 whose sixth word is `w`. -/
def accFiring (w : Nat) : Firing :=
  { lseq := 1, pe := 1, h := 0, g := 0, n := 1, hrec := w * 2 ^ 224, heads := [(0, tok .data 0)], k := [0, 0, 0, 0], replay := false, gerr := false }
theorem test_meets_Firings_accumulators : sDest (hStage (accFiring (4 * 2 ^ 25 + 3 * 2 ^ 8)).hrec 6) < (peOf graph 1).active.accs.length ∧
    sOp (hStage (accFiring (4 * 2 ^ 25)).hrec 6) = 4 ∧ sMod (hStage (accFiring (4 * 2 ^ 25)).hrec 6) % 2 = 0 ∧ sOp (hStage (accFiring (3 * 2 ^ 25)).hrec 6) = 3 ∧
    (match accTag (plotOf graph 0) (accAt graph 1 3) false 0, accTag (plotOf graph 0) (accAt graph 1 3) true 7, accTag (plotOf graph 0) { Acc.zero with tag := 7 } true 0 with
      | .ok false, .ok true, .error c => c == 0x44 | _, _, _ => false) = true := by decide +kernel

/-- The flush of a PE, `n` columns done, and that PE with it under way. -/
def flush0 (n : Nat) : Flush := { h := 0, n := 1, colour := 0, tag := 0, err := false, done := n, ctl := true }
def flushing (n : Nat) (s : State) : State := modPlane s 1 fun q => { q with flush := some (flush0 n) }
theorem test_meets_Firings_flush : (let s := flushing 0 graph; (peOf (tidyPorts s (own s) 1) 1).active.flush = some (flush0 0) ∧ handlerPart (own s) 1 = none ∧
      (peOf (tidyPorts s (own s) 1) 1).active.matrix = false ∧ (flushStep (tidyPorts s (own s) 1) (own s) 1 (flush0 0)).isSome = true) ∧
    (let s := flushing 0 (graphed fun l => l.setChan 1 { ChanSt.empty with legs := [List.replicate 64 (tok .data 0)] }); (flushStep (tidyPorts s (own s) 1) (own s) 1 (flush0 0)).isNone = true) ∧
    (let s := flushing 16 (setPe graph 1 { peOf graph 1 with window := [whole] });
      ((windowReady (tidyPorts s (own s) 1) (own s) 1 (fun k => k == 0)).bind (fun x => fireHeld (tidyPorts s (own s) 1) (own s) 1 x.1 x.2.1 x.2.2)).isSome = true) ∧
    (let s := flushing 16 (channelled 1 ChanSt.empty); let at_ := tidyPorts s (own s) 1; (windowReady at_ (own s) 1 (fun k => k == 0)).isNone = true ∧
      (firePick at_ (own s) 1 1 ((candsOf at_ (own s) 1).filter (fun c => c.h == 0))).isSome = true) ∧
    (let s := flushing 16 graph; let at_ := tidyPorts s (own s) 1; (windowReady at_ (own s) 1 (fun k => k == 0)).isNone = true ∧
      (firePick at_ (own s) 1 1 ((candsOf at_ (own s) 1).filter (fun c => c.h == 0))).isNone = true) := by decide +kernel
/-- A held firing that has come; a swap that cannot go on. -/
theorem test_meets_Firings_forms :
    (let s := setPe graph 1 { peOf graph 1 with window := [whole] };
      ((windowReady (tidyPorts s (own s) 1) (own s) 1 (fun _ => true)).bind (fun x => fireHeld (tidyPorts s (own s) 1) (own s) 1 x.1 x.2.1 x.2.2)).isSome = true) ∧
    (let s := graphed fun l => { l with swap := some ⟨none, []⟩ }; maySwap s (own s) 1 = false ∧ (own s).swap ≠ none) ∧
    (let s := channelled 1 ChanSt.empty; promotes s (own s) 1 0 = false) ∧
    (let s := modPlane (channelled 1 ChanSt.empty) 1 fun q => q.setNodeSt 0 { q.nodeSt 0 with run := 767 }; promotes s (own s) 1 0 = true) ∧
    (piped.stopsOf 0 = 0 :: []) := by decide +kernel

/-- A plain DATA firing of PASS: no ERR head, no gate, no tag to move, its token for channel 1. -/
theorem test_meets_Firings_data : (let s := channelled 1 ChanSt.empty; let l := own s; let q := (peOf s 1).active;
      match selectCand q (peOf s 1).ptr (q.hrecs.filterMap (fun x => candOf s l 1 x.1)) with
      | some c => c.kind == .data && c.heads == [(0, tok .data 0)] && c.heads.all (fun x => !x.2.err) && !isStateful c.hrec && (q.nodeSt c.h).redo.isNone &&
          stageRuns (hStage c.hrec 6) 0 && decide (sOp (hStage c.hrec 6) ≤ 2) &&
          (match stages { h := c.hrec, heads := c.heads, accs := q.accs, k := q.k, plot := plotOf s 0 } with | .ok f => f.retag == none | .error _ => false)
      | none => false) = true := by decide +kernel

/-- Power-on's state with a unit's score, a time, and a lease. -/
def scored (u n : Nat) : State := setScore State.reset u n
def leased (u : Nat) (x : Lease) (s : State) : State := setLease s u x
def lease (u : Nat) (st : LeaseSt) : Lease := { unit := u, st := st, askedAt := 0, immediate := true, retire := [], window := 0, fails := 0, again := false }

theorem test_meets_HealthScores : isLane 0 = false ∧ isLane 1055 = false ∧ isLane 256 = true ∧ isLane 863 = true ∧ scoreOf (scored 0 255) 0 = 255 ∧
    isRetired (scored 0 255) 0 = false ∧ scoreOf (scored 863 4095) 863 = 4095 ∧ (scored 0 255).brock.lastDecay < { scored 0 255 with time := 10000000000 }.time / 10000000000 ∧
    (0, 255) ∈ (scored 0 255).brock.scores ∧ State.reset.time / 10000000000 ≤ State.reset.brock.lastDecay ∧
    (let s := { State.reset with time := 60000000000 }; (lookup s.brock.cursors (16 + cursorOf 0)).getD 0 + cursorTicks (cursorOf 0) ≤ s.time ∧ cursorNext s (cursorOf 0) = some 0) ∧
    (let s := { State.reset with time := 59999999999 }; s.time < (lookup s.brock.cursors (16 + cursorOf 0)).getD 0 + cursorTicks (cursorOf 0)) := by decide
theorem test_meets_HealthScores_retire : (let s := leased 0 (lease 0 .active) (scored 0 4095); scoreOf s 0 = 4095 ∧ isRetired s 0 = false ∧ (leaseOf s 0).map (·.st) = some .active) ∧
    (let s := scored 0 4095; scoreOf s 0 = 4095 ∧ leaseOf s 0 = none) := by decide

theorem test_meets_Leases_plot : (let x := lease 0 .asked; let s := leased 0 x State.reset; leaseOf s 0 = some x ∧ mayStart s 0 x = true ∧ (plotOf s 0).holder = none) ∧
    (let x := lease 0 .asked; let s := leased 0 x small; mayStart s 0 x = true ∧ (plotOf s 0).holder = some 1 ∧ (own s).runs = true ∧ x.retire = [] ∧
      (relocate s (own s) (freeForLease s (own s) 0)).isNone = true) ∧
    (let x := { lease 0 .deferred with again := true }; let s := leased 0 x small; x.st = .deferred ∧ dieBusy s 0 = false ∧ (tryPlotLease s 0 x).isNone = true ∧
      s.time < x.askedAt + 600000000000) ∧
    (let x := { lease 0 .deferred with again := true }; let s := { leased 0 x State.reset with time := 600000000000 }; dieBusy s 0 = false ∧ (plotOf s 0).holder = none ∧
      x.askedAt + 600000000000 ≤ s.time) ∧
    (let s := leased 0 (lease 0 .deferred) (launched fun l => { l with frozen := [.drain] }); (plotOf s 0).holder = some 1 ∧ (own s).runs = false) := by
  decide
theorem test_meets_Leases : (let x := lease 863 .asked; let s := leased 863 x State.reset; leaseOf s 863 = some x ∧ isLane 863 = true ∧ mayStart s 863 x = true) ∧
    (let x := { lease 864 .active with window := 4095 }; leaseOf (leased 864 x small) 864 = some x ∧ 864 = unitChan 0 ∧ x.window < 4096) ∧ unitChan 191 = 1055 ∧
    (let x := { lease 864 .active with window := 4096 }; patternsRun 864 x = true ∧ x.fails = 0) ∧ patternsRun 864 { lease 864 .active with window := 4095 } = false ∧
    (let x := { lease 0 .active with retire := [0] }; leaseOf (leased 0 x small) 0 = some x ∧ 0 ∈ x.retire) ∧ (classOf 864 ≠ .plot ∧ 864 ∈ { lease 864 .asked with retire := [864] }.retire) := by decide
theorem test_meets_Leases_far : (leaseOf small 256 = none ∧ isKlink 256 = true ∧ groupIn small 256 = true ∧ lastGroup small 256 = false) ∧ isKlink 0 = false ∧
    (256 ∈ ({ small with brock := { small.brock with far := [256] } } : State).brock.far) ∧ 256 ∉ small.brock.far := by decide +kernel
theorem test_meets_Leases_more : (let x := { lease 0 .deferred with again := true }; let s := { leased 0 x small with time := 600000000000 }
      dieBusy s 0 = false ∧ (plotOf s 0).holder = some 1 ∧ (own s).lseq = 1 ∧ (own s).runs = true ∧ x.askedAt + 600000000000 ≤ s.time) ∧
    (let x := { lease 0 .active with retire := [0, 128] }; leaseOf (leased 0 x small) 0 = some x ∧ 0 ∈ x.retire ∧ x.retire.filter (· != 0) = [128] ∧ ¬∀ o ∈ x.retire, o = 0) ∧
    ((lease 863 .asked).retire = [] ∧ (lease 864 .active).retire = [] ∧ ∀ o ∈ { lease 0 .active with retire := [0] }.retire, o = 0) := by decide +kernel

/-- The small machine's device sharing its plot with device 1, which has a launch that waits for its slice. -/
def shared : State :=
  let s := setLaunch small { own small with lseq := 9, vd := 1, frozen := [.slice] }
  setVd s 1 { loaderVd with sliceOn := false }

/-- The small machine's launch as one variant of two, its field's clock at the floor for long. -/
def slowed (f : Launch → Launch) : State :=
  { launched (fun l => f { l with variant := { loaderVariant with factor := 2 }, image := [{ loaderVariant with factor := 2 }, loaderVariant] }) with
    atFloor := [(0, 0)], time := floorTicks }

theorem test_meets_SharingEvents : (let s := shared; (dev s).sliceOn = true ∧ nextSharer s 0 (dev s).plotmask = some 1 ∧ (vdOf s 1).isSome = true ∧
      (dev s).sliceAt + Nat.max 1 (dev s).weight * 100000 ≤ { s with time := 100000 }.time ∧ hasWork s 0 = true ∧ s.time < (dev s).sliceAt + Nat.max 1 (dev s).weight * 100000) ∧
    hasWork (setLaunch shared { own shared with frozen := [.drain] }) 0 = false ∧
    (let s := slowed id; nextSmaller (own s) = some loaderVariant ∧ (own s).runs = true ∧ short s (own s) = true ∧ withinVariant s (own s) loaderVariant = true ∧
      (own s).shadow = none ∧ (own s).swap = none ∧ (narrowPlace s (own s) loaderVariant).isSome = true) ∧ short small (own small) = false ∧
    (let d := { loaderVd with monlogs := [(2, log0)] }; lookup d.monlogs 2 = some log0 ∧ log0.recs ≠ [] ∧ small.time < log0.openAt + 1000000000 ∧ logFull d = false ∧
      log0.openAt + 1000000000 ≤ { small with time := 1000000000 }.time) ∧
    (let s := vded fun d => { d with domain := 4 }; inDomain s 0 4 = true ∧ regionAt s 0x2000 = .dram ∧ regionAt s (0x2000 + 8 - 1) = .dram ∧ holdsSlot s 0 1 = true ∧
      holdsSlot s 0 2 = false ∧ poisoned s 0x2000 8 = false) := by decide
theorem test_meets_SharingEvents_narrow : (let s := slowed id; quiescent s (own s) = true ∧
    (match narrowPlace s (own s) loaderVariant with | some p => (narrowTo s (own s) loaderVariant p).isSome | none => false) = true) := by decide +kernel
theorem test_meets_SharingEvents_log : (let d := { loaderVd with monlogs := [(2, { log0 with recs := List.replicate 404 5 })] }; (lookup d.monlogs 2).map (fun l => decide (404 ≤ l.recs.length)) = some true ∧ logFull d = false) ∧
    logFull (dev fullStore) = true ∧
    (let d := { loaderVd with monlogs := [(2, { log0 with touches := [(5, 0, 1, 2, 3), (2 ^ 41 * 7, 0, 1, 2, 3)] })] };
      (lookup d.monlogs 2).map (fun l => decide (l.recs.length + (l.touches.filter (fun x => decide (x.1 / 2 ^ 41 < 5))).length < 404)) = some true) := by decide +kernel
theorem test_meets_SharingEvents_remote : (let s := vded fun d => { d with domain := 4 }; inDomain s 0 4 = true ∧ inDomain s 0 5 = false ∧ regionAt s (0x2000 + 16 - 1) = .dram ∧
    poisoned s 0x2000 16 = false ∧ inDomain s 1 4 = false) := by decide
theorem test_meets_ModuleEvents : State.reset.fw = [⟨true, 0, 0⟩, ⟨false, 0, 0⟩] ∧ State.reset.maxSvn ≤ (⟨true, 0, 0⟩ : FwPlace).svn ∧
    (∃ s : State, s.fw = [⟨false, 0, 0⟩, ⟨true, 5, 0⟩] ∧ s.maxSvn ≤ 5 ∧ ¬(s.maxSvn ≤ 5 ∧ (⟨false, 0, 0⟩ : FwPlace).valid = true)) ∧ State.reset.bringup = .running ∧
    (∃ s : State, s.bringup = .done) ∧ 1 < State.reset.fw.length := by
  refine ⟨by decide, by decide, ⟨{ State.reset with fw := [⟨false, 0, 0⟩, ⟨true, 5, 0⟩] }, by decide, by decide, by decide⟩, by decide,
    ⟨{ State.reset with bringup := .done }, rfl⟩, by decide⟩

theorem test_meets_EncodeThenDecode : (Instr.cpy 3 15 63 63 63 63).wf = true ∧ encode (.cpy 3 15 63 63 63 63) ≠ [] ∧ (Instr.add 63 0 63).wf = true ∧ encode (.add 63 0 63) ≠ [] := by decide
theorem test_meets_DecodeThenEncode : decode 0x60BFFFFE#32 0#32 = .ok (.br 1 0x3FFFFE) := by rfl

/-- The small machine about to fetch words at 0x4000, or at another pc. -/
def fetching (pc : Word) (w0 w1 : Nat) : State :=
  let s := given fun t => { t with pc := pc }
  { s with mem := writeRaw (writeRaw s.mem 0x4000 4 w0) 0x4004 4 w1, agenda := [.instructionIssue 0] }

/-- What the fetch of the word at the pc, or of the one behind it, answers: the word, or the cause. -/
def fetched (s : State) (d : Word) : Option (Nat ⊕ Nat) :=
  match fetchWord (paced s) (me (paced s)) ((me s).pc + d) with | (_, .ok w) => some (.inl w) | (_, .bad c _) => some (.inr c) | (_, .hold _) => none

theorem test_meets_StepRunsDecoded : (let s := fetching 0x4000 1 0; (paced s).agenda = .instructionIssue 0 :: [] ∧ (paced s).latch = none ∧
      pickThread { paced s with agenda := [] } 0 = some (0, 0) ∧ threadOf { paced s with agenda := [] } 0 = some (me (paced s)) ∧ fetched s 0 = some (.inl 1) ∧
      isTwoWord 1#32 = false ∧ decodeWords [1#32] = some .nop) ∧
    refusal 0#32 0#32 = some .illegalOpcode ∧ isTwoWord 0#32 = false ∧ refusal 0x88010000#32 0#32 = some .illegalEncoding ∧ isTwoWord 0x88010000#32 = false ∧
    (let s := fetching 0x4000 0x18208000 0x2710; fetched s 0 = some (.inl 0x18208000) ∧ fetched s 4 = some (.inl 0x2710) ∧ isTwoWord 0x18208000#32 = true) ∧
    (isTwoWord 0xC0401000#32 = true ∧ refusal 0xC0401000#32 0xFFFFFFFF#32 = some .illegalEncoding) ∧
    fetched (fetching 0x40000000 0 0) 0 = some (.inr 0x20) ∧ fetched { fetching 0x3FFFFFFC 0 0 with mem := writeRaw small.mem 0x3FFFFFFC 4 0x18208000 } 0 = some (.inl 0x18208000) ∧
    fetched (fetching 0x3FFFFFFC 0 0) 4 = some (.inr 0x20) := by decide
theorem test_meets_SoundStep : State.reset.sound = true ∧ small.sound = true ∧ windowed.sound = true := by decide
theorem test_meets_RegisterFrame : registerOnly (.div 3 1 2) = some (some 3, none) ∧ threadOf small small.cur = some (me small) ∧
    (nextOf (exec (.div 3 1 2) small)).isSome = true ∧ (nextOf (exec (.div 3 1 2) (regs [(2, 1)]))).isSome = true ∧ registerOnly (.cmpCc 3 .eq 1 2) = some (none, some 3) := by decide

end Sys2Proof.Tests
end

section
/-!
SUPPORT. MTS of a register of the thread itself (R24, R25, R27, R279, R289, R371): what each register's write does, which
checks it passes, and the completion of the instruction.
-/
namespace Sys2Proof.Proofs
open Sys2Proof Sys2Proof.Machine Sys2Proof.Laws

/-! ## What a write leaves in the thread -/

/-- The mask of an instruction address, as arithmetic: bits 1 and 0 read zero (R25, R279). -/
theorem and_not_three_eq (v : Word) : v &&& ~~~3#64 = BitVec.ofNat 64 (v.toNat / 4 * 4) := by
  have mask : ~~~3#64 = BitVec.allOnes 64 <<< 2 := by decide
  rw [mask, ← BitVec.shiftLeft_ushiftRight]
  exact BitVec.eq_of_toNat_eq (by simp [Nat.shiftRight_eq_div_pow, Nat.shiftLeft_eq])

section
variable (t : Thread) (v : Word)

@[simp] theorem threadWrite_tcmp : threadWrite t 0x001 v = { t with tcmp := v } := rfl
@[simp] theorem threadWrite_status : threadWrite t 0x003 v = { t with pmode := v.getLsbD 1, intrap := v.getLsbD 2 } := rfl
@[simp] theorem threadWrite_epc : threadWrite t 0x004 v = { t with epc := BitVec.ofNat 64 (v.toNat / 4 * 4) } := by
  rw [← and_not_three_eq]; rfl
@[simp] theorem threadWrite_cause : threadWrite t 0x005 v = { t with cause := v.toNat % 2 ^ 8 } := rfl
@[simp] theorem threadWrite_tval : threadWrite t 0x006 v = { t with tval := v } := rfl
@[simp] theorem threadWrite_tvec : threadWrite t 0x007 v = { t with tvec := BitVec.ofNat 64 (v.toNat / 4 * 4) } := by
  rw [← and_not_three_eq]; rfl
@[simp] theorem threadWrite_scratch : threadWrite t 0x008 v = { t with scratch := v } := rfl
@[simp] theorem threadWrite_lstart : threadWrite t 0x018 v = { t with lstart := BitVec.ofNat 64 (v.toNat / 4 * 4) } := by
  rw [← and_not_three_eq]; rfl
@[simp] theorem threadWrite_lend : threadWrite t 0x019 v = { t with lend := BitVec.ofNat 64 (v.toNat / 4 * 4) } := by
  rw [← and_not_three_eq]; rfl
@[simp] theorem threadWrite_lcount : threadWrite t 0x01A v = { t with lcount := v } := rfl

/-- The tag of handle `h` takes bits 11 to 0 (R371). -/
@[simp] theorem threadWrite_htag (h : Nat) :
    threadWrite t (0x030 + h) v = { t with htags := Machine.insert t.htags h (v.toNat % 2 ^ 12) } := by
  have other : ∀ k, k < 0x030 → 0x030 + h ≠ k := by omega
  simp [threadWrite, other]

end

/-! ## Levels and checks (R24, R253) -/

/-- User mode writes the tags of its handles (R371). -/
theorem srLevels_htag {h : Nat} (lt : h < 16) : srLevels (0x030 + h) = some (.u, some .u) := by
  have tags : ∀ h < 16, srLevels (0x030 + h) = some (.u, some .u) := by decide
  exact tags h lt

/-- No register of the thread itself needs a capability (R218). -/
theorem capOk_of_isThreadReg (s : State) (t : Thread) {n : Nat} (h : isThreadReg n = true) : capOk s t n = true := by
  have noCap : n ≠ 0x013 ∧ ¬(0x015 ≤ n ∧ n ≤ 0x017) := by
    simp only [isThreadReg, Bool.or_eq_true, Bool.and_eq_true, beq_iff_eq, decide_eq_true_eq] at h
    omega
  simp [capOk, noCap]

/-- A write passes its checks where the register can be written at the thread's mode with what the device may do. -/
theorem writeCheck_none {s : State} {t : Thread} {n : Nat} {r l : Level} (i : Instr) (hl : srLevels n = some (r, some l))
    (hm : l = .s → t.mode = true) (hc : capOk s t n = true) : writeCheck s t n i = none := by
  have level : ¬(l = .s ∧ t.mode = false) := fun ⟨e, user⟩ => by simp [hm e] at user
  simp [writeCheck, hl, level, hc]

/-! ## The instruction -/

/-- Every MTS is one word (R289). -/
@[simp] theorem lenOf_mts (sr : BitVec 12) (a : Reg) : lenOf (.mts sr a) = 4#64 := rfl

/-- MTS of a register of the thread itself, at a mode that may write it, completes with that write as its whole effect. -/
theorem exec_mts_threadReg {s : State} {t u : Thread} {a : Reg} {n : Nat} {r l : Level} (hs : Serving s t [a])
    (hn : n < 2 ^ 12) (ht : isThreadReg n = true) (hl : srLevels n = some (r, some l)) (hm : l = .s → t.mode = true)
    (hu : threadWrite t n (t.g a) = u) : exec (.mts (BitVec.ofNat 12 n) a) s = completed s u 4#64 := by
  obtain ⟨served, owned⟩ := hs
  have number : (BitVec.ofNat 12 n).toNat = n := (BitVec.toNat_ofNat n 12).trans (Nat.mod_eq_of_lt hn)
  have passed := writeCheck_none (s := s) (.mts (BitVec.ofNat 12 n) a) hl hm (capOk_of_isThreadReg s t ht)
  calc exec (.mts (BitVec.ofNat 12 n) a) s
      = sysWrite (BitVec.ofNat 12 n) a s := rfl
    _ = done s s.cur u (.mts (BitVec.ofNat 12 n) a) := by
        simp [sysWrite, instr_serving served owned, number, passed, ht, hu]
    _ = completed s u 4#64 := by simp [done, completed]

/-- Settles O23: each register by its level (user mode writes TCMP and the tags, supervisor mode the rest) and the fields of
its write. `completed` makes the check of R281 on the thread as the write left it: an MTS of STATUS, LSTART, LEND or LCOUNT
at the end of a loop body is seen by its own check (log 25). -/
theorem threadRegisterWrites : Obligations.ThreadRegisterWrites := by
  unfold Obligations.ThreadRegisterWrites
  intro s t a serving x hx writes aligned
  subst hx
  have user {n u} (hu : threadWrite t n (t.g a) = u) (hn : n < 2 ^ 12) (ht : isThreadReg n = true)
      (hl : srLevels n = some (.u, some .u)) : writes n u := exec_mts_threadReg serving hn ht hl nofun hu
  refine ⟨?tcmp, ?tags, fun mode => ?privileged⟩
  case tcmp => exact user (threadWrite_tcmp t _) (by decide) rfl rfl
  case tags =>
    intro h lt
    exact user (threadWrite_htag t _ h) (by omega) (by simp [isThreadReg]) (srLevels_htag lt)
  case privileged =>
    have supervisor {n r u} (hu : threadWrite t n (t.g a) = u) (hn : n < 2 ^ 12) (ht : isThreadReg n = true)
        (hl : srLevels n = some (r, some .s)) : writes n u := exec_mts_threadReg serving hn ht hl (fun _ => mode) hu
    exact ⟨supervisor (threadWrite_status t _) (by decide) rfl rfl, supervisor (threadWrite_epc t _) (by decide) rfl rfl,
      supervisor (threadWrite_cause t _) (by decide) rfl rfl, supervisor (threadWrite_tval t _) (by decide) rfl rfl,
      supervisor (threadWrite_tvec t _) (by decide) rfl rfl, supervisor (threadWrite_scratch t _) (by decide) rfl rfl,
      supervisor (threadWrite_lstart t _) (by decide) rfl rfl, supervisor (threadWrite_lend t _) (by decide) rfl rfl,
      supervisor (threadWrite_lcount t _) (by decide) rfl rfl⟩

end Sys2Proof.Proofs
end

section
/-!
SUPPORT. Marten's books: the launches, those that wait, and the last sequence number. What the machine does to its memory,
plots, threads and devices leaves them as they are.
-/
namespace Sys2Proof.Proofs
open Sys2Proof Sys2Proof.Machine Sys2Proof.Laws

/-- Marten's books stay as they are from one state to another. -/
structure SameBooks (s s' : State) : Prop where
  launches : s'.launches = s.launches
  waiting : s'.waiting = s.waiting
  lseq : s'.lseq = s.lseq

namespace SameBooks

theorem refl (s : State) : SameBooks s s := ⟨rfl, rfl, rfl⟩

theorem trans {a b c : State} (h : SameBooks a b) (g : SameBooks b c) : SameBooks a c :=
  ⟨g.launches.trans h.launches, g.waiting.trans h.waiting, g.lseq.trans h.lseq⟩

theorem launchOf {s s' : State} (h : SameBooks s s') (q : Nat) : launchOf s' q = launchOf s q := by
  simp [Machine.launchOf, h.launches]

variable {α β : Type}

theorem foldl {f : State → α → State} (hf : ∀ s a, SameBooks s (f s a)) (l : List α) (s : State) :
    SameBooks s (l.foldl f s) := by
  induction l generalizing s with
  | nil => exact refl s
  | cons a l ih => exact (hf s a).trans (ih (f s a))

theorem foldl_fst {f : State × β → α → State × β} (hf : ∀ x a, SameBooks x.1 (f x a).1) (l : List α) (x : State × β) :
    SameBooks x.1 (l.foldl f x).1 := by
  induction l generalizing x with
  | nil => exact refl x.1
  | cons a l ih => exact (hf x a).trans (ih (f x a))

end SameBooks

/-! ## One thread, plot or processing element -/

theorem sameBooks_setThread (s : State) (tid : Nat) (t : Thread) : SameBooks s (setThread s tid t) := ⟨rfl, rfl, rfl⟩

theorem sameBooks_setPlot (s : State) (p : Nat) (x : Plot) : SameBooks s (setPlot s p x) := ⟨rfl, rfl, rfl⟩

theorem sameBooks_setPe (s : State) (p : Nat) (x : PE) : SameBooks s (setPe s p x) := ⟨rfl, rfl, rfl⟩

/-! ## Accesses to memory (R81, R92, R93, R228) -/

theorem sameBooks_markLeaf (s : State) (leaf : Nat) (d : Bool) : SameBooks s (markLeaf s leaf d) := by
  unfold markLeaf
  exact iteInduction (fun _ => .refl s) fun _ => ⟨rfl, rfl, rfl⟩

theorem sameBooks_xtWalk (s : State) (c : Ctx) (vd : VD) (va : Nat) : SameBooks s (xtWalk s c vd va).1 := by
  unfold xtWalk
  extract_lets fresh now stale held s'
  have hHeld : SameBooks s held := by
    unfold held
    clear_value now
    cases now with
    | none => exact .refl s
    | some x => exact iteInduction (fun _ => .refl s) fun _ => ⟨rfl, rfl, rfl⟩
  clear_value held fresh stale
  have hDraw : SameBooks s s' := hHeld.trans ⟨rfl, rfl, rfl⟩
  clear_value s'
  split
  · exact .refl s
  · split
    · exact hHeld
    · split <;> exact hDraw

theorem sameBooks_xtTranslate (s : State) (c : Ctx) (k : Kind) (va : Nat) : SameBooks s (xtTranslate s c k va).1 := by
  unfold xtTranslate
  split
  · exact .refl s
  · rename_i vd _
    split
    · exact .refl s
    · have h := sameBooks_xtWalk s c vd va
      split <;> rename_i e <;> rw [e] at h
      · exact h
      · split <;> exact h

theorem sameBooks_touchFrame (s : State) (l : Loc) (e : Nat) : SameBooks s (touchFrame s l e) := by
  unfold touchFrame
  split
  · exact iteInduction (fun _ => .refl s) fun _ => ⟨rfl, rfl, rfl⟩
  · exact .refl s

theorem sameBooks_touchMon (s : State) (v q va n : Nat) (k : Kind) : SameBooks s (touchMon s v q va n k) := by
  unfold touchMon
  split
  · exact .refl s
  · exact iteInduction (fun _ => .refl s) fun _ => ⟨rfl, rfl, rfl⟩

theorem sameBooks_dataCheck (s : State) (c : Ctx) (k : Kind) (ea n al : Nat) : SameBooks s (dataCheck s c k ea n al).1 := by
  unfold dataCheck
  split
  · exact .refl s
  · have hx := sameBooks_xtTranslate s c k ea
    split <;> rename_i e <;> rw [e] at hx
    · exact hx
    · rename_i s1 leaf pte pa
      extract_lets s2
      have hMark : SameBooks s s2 := hx.trans (iteInduction (fun _ => sameBooks_markLeaf _ _ _) fun _ => .refl _)
      have hFrame := fun l => hMark.trans (sameBooks_touchFrame s2 l pte)
      split
      · split
        · exact hFrame _
        · split
          · exact hMark
          · exact (hFrame _).trans (sameBooks_touchMon _ _ _ _ _ _)
      · exact hMark

theorem sameBooks_observe (s : State) (c : Ctx) (k : Kind) (l : Loc) (n : Nat) : SameBooks s (observe s c k l n).1 := by
  unfold observe
  split
  · exact .refl s
  · split
    · exact ⟨rfl, rfl, rfl⟩
    · split <;> exact ⟨rfl, rfl, rfl⟩

theorem sameBooks_usePage (s : State) (p off : Nat) (w : Bool) : SameBooks s (usePage s p off w) := by
  unfold usePage
  extract_lets k
  split
  · exact iteInduction (fun _ => ⟨rfl, rfl, rfl⟩) fun _ => .refl s
  · exact ⟨rfl, rfl, rfl⟩

theorem sameBooks_readEffect (s : State) (l : Loc) : SameBooks s (readEffect s l) := by
  unfold readEffect
  split
  · exact iteInduction (fun _ => sameBooks_usePage _ _ _ _) fun _ => .refl s
  · exact .refl s

theorem sameBooks_loadVA (s : State) (c : Ctx) (k : Kind) (ea n al : Nat) : SameBooks s (loadVA s c k ea n al).1 := by
  have h := sameBooks_dataCheck s c k ea n al
  unfold loadVA
  split <;> rename_i e <;> rw [e] at h
  · exact (h.trans (sameBooks_observe _ c k _ n)).trans (sameBooks_readEffect _ _)
  · exact h
  · exact h

theorem sameBooks_winWrite (s : State) (p off n v : Nat) : SameBooks s (winWrite s p off n v) := by
  unfold winWrite
  split
  · rename_i o _
    have hLand : SameBooks s (landStores s (scratchAddr p o) n) := ⟨rfl, rfl, rfl⟩
    have hPage := hLand.trans (sameBooks_usePage _ p o true)
    exact hPage.trans ⟨rfl, rfl, rfl⟩
  · exact iteInduction (fun _ => .refl s) fun _ => ⟨rfl, rfl, rfl⟩
  · exact ⟨rfl, rfl, rfl⟩
  · exact ⟨rfl, rfl, rfl⟩
  · exact .refl s

/-! ## Threads and their records (R109, R152, R155, R165) -/

theorem sameBooks_toHostStream (s : State) (vd bits : Nat) : SameBooks s (toHostStream s vd bits) := by
  unfold toHostStream
  split
  · exact ⟨rfl, rfl, rfl⟩
  · exact .refl s

theorem sameBooks_eventSettle (s : State) (e : Event) : SameBooks s (Event.settle s e) := by
  unfold Event.settle
  split
  · unfold subPend
    split
    · exact sameBooks_setThread _ _ _
    · exact .refl s
  · exact .refl s

theorem sameBooks_enterEvent {s u : State} {e : Event} (h : enterEvent s e = some u) : SameBooks s u := by
  have hHost := (sameBooks_eventSettle s e).trans (sameBooks_toHostStream _ e.vd (eventBits e s.time))
  unfold enterEvent at h
  split at h
  · cases h; exact hHost
  · split at h
    · cases h; exact hHost
    · split at h
      · cases h; exact (sameBooks_eventSettle s e).trans ⟨rfl, rfl, rfl⟩
      · cases h

theorem sameBooks_post (s : State) (e : Event) : SameBooks s (post s e) := by
  have hEntered (d : State) (hd : SameBooks s d) : SameBooks s ((enterEvent s e).getD d) := by
    cases h : enterEvent s e with
    | none => exact hd
    | some u => exact sameBooks_enterEvent h
  unfold post
  split
  · exact hEntered s (.refl s)
  · extract_lets x held
    have hHeld : SameBooks s held := ⟨rfl, rfl, rfl⟩
    exact iteInduction (fun _ => hEntered held hHeld) fun _ => hHeld

theorem sameBooks_showStores (s : State) (tid sc : Nat) : SameBooks s (showStores s tid sc) := by
  unfold showStores
  exact iteInduction (fun _ => .refl s) fun _ => iteInduction (fun _ => ⟨rfl, rfl, rfl⟩) fun _ => ⟨rfl, rfl, rfl⟩

theorem sameBooks_completeWait (s : State) (tid : Nat) (len : Word) : SameBooks s (completeWait s tid len) := by
  unfold completeWait
  split
  · exact ⟨rfl, rfl, rfl⟩
  · exact .refl s

theorem sameBooks_retryWait (s : State) (tid : Nat) : SameBooks s (retryWait s tid) := by
  unfold retryWait
  split
  · exact ⟨rfl, rfl, rfl⟩
  · exact .refl s

theorem sameBooks_wakeOnEnd (s : State) (lseq : Nat) : SameBooks s (wakeOnEnd s lseq) := by
  refine .foldl (fun s x => ?_) s.threads s
  split
  · exact iteInduction (fun _ => sameBooks_completeWait _ _ _) fun _ => .refl s
  · exact iteInduction (fun _ => sameBooks_retryWait _ _) fun _ => .refl s
  · exact iteInduction (fun _ => sameBooks_retryWait _ _) fun _ => .refl s
  · exact iteInduction (fun _ => sameBooks_retryWait _ _) fun _ => .refl s
  · exact .refl s

theorem sameBooks_wakeDrained (s : State) (lseq : Nat) : SameBooks s (wakeDrained s lseq) :=
  .foldl (fun s _ => iteInduction (fun _ => sameBooks_completeWait _ _ _) fun _ => .refl s) s.threads s

/-! ## Tokens, tags and the divert ring (R135, R137, R177) -/

theorem sameBooks_addHolder (s : State) (p tag : Nat) : SameBooks s (addHolder s p tag) := by
  unfold addHolder
  exact iteInduction (fun _ => .refl s) fun _ => ⟨rfl, rfl, rfl⟩

theorem sameBooks_dropHolder (s : State) (p tag : Nat) : SameBooks s (dropHolder s p tag) := by
  unfold dropHolder
  exact iteInduction (fun _ => .refl s) fun _ => ⟨rfl, rfl, rfl⟩

theorem sameBooks_edgeBind {s u : State} {src dst tag t : Nat} {v : BitVec 32} (h : edgeBind s src dst tag v = some (u, t)) :
    SameBooks s u := by
  unfold edgeBind at h
  extract_lets x d dir rows add at h
  have hAdd {x d : Plot} (h : add x d = some (u, t)) : SameBooks s u := by
    obtain ⟨⟨d', t'⟩, -, e⟩ := Option.map_eq_some_iff.mp h
    cases e
    exact ⟨rfl, rfl, rfl⟩
  split at h
  · exact hAdd h
  · split at h
    · cases h
    · exact hAdd h

theorem sameBooks_crossTag {s u : State} {src dst tag t : Nat} (h : crossTag s src dst tag = .ok (some (u, t))) :
    SameBooks s u := by
  unfold crossTag at h
  split at h
  · cases h; exact .refl s
  · extract_lets x at h
    split at h
    · split at h
      · cases h
      · cases h; exact sameBooks_addHolder _ _ _
    · split at h
      · cases h
      · have h := Except.ok.inj h
        obtain ⟨⟨s', t'⟩, bound, e⟩ := Option.map_eq_some_iff.mp h
        cases e
        exact (sameBooks_edgeBind bound).trans (sameBooks_addHolder _ _ _)

theorem sameBooks_bumpTail (s : State) (b : Option (Nat × Nat)) : SameBooks s (bumpTail s b) := by
  unfold bumpTail
  split
  · exact .refl s
  · split
    · exact ⟨rfl, rfl, rfl⟩
    · exact .refl s

theorem sameBooks_writeEntry (s : State) (p k : Nat) (e : DivEntry) : SameBooks s (writeEntry s p k e) :=
  .foldl (fun _ _ => sameBooks_winWrite _ _ _ _ _) _ s

theorem sameBooks_reinjectTag {s u : State} {plot tag : Nat} {e : DivEntry} (h : reinjectTag s plot e = some (u, tag)) :
    SameBooks s u := by
  unfold reinjectTag at h
  split at h
  · cases h; exact .refl s
  · obtain ⟨⟨x, t⟩, -, e⟩ := Option.map_eq_some_iff.mp h
    cases e
    exact ⟨rfl, rfl, rfl⟩

/-! ## Suspicion (R188, R189) -/

theorem sameBooks_requestLease (s : State) (u : Nat) (now : Bool) : SameBooks s (requestLease s u now) := by
  unfold requestLease
  split
  · exact .refl s
  · split
    · exact .refl s
    · exact ⟨rfl, rfl, rfl⟩

theorem sameBooks_requestRetire (s : State) (u : Nat) : SameBooks s (requestRetire s u) := by
  have h := sameBooks_requestLease s u true
  unfold requestRetire
  extract_lets s'
  split
  · exact iteInduction (fun _ => h) fun _ => h.trans ⟨rfl, rfl, rfl⟩
  · exact h

theorem sameBooks_addScore (s : State) (u n : Nat) : SameBooks s (addScore s u n) := by
  unfold addScore
  extract_lets old new s1 s2
  have hScore : SameBooks s s1 := ⟨rfl, rfl, rfl⟩
  have hLease : SameBooks s s2 := hScore.trans (iteInduction (fun _ => sameBooks_requestLease _ _ _) fun _ => .refl _)
  exact iteInduction (fun _ => hLease.trans (sameBooks_requestRetire _ _)) fun _ => hLease

theorem sameBooks_scoreCause (s : State) (plot cause : Nat) : SameBooks s (scoreCause s plot cause) := by
  unfold scoreCause
  exact iteInduction (fun _ => sameBooks_addScore _ _ _) fun _ => .refl s

/-! ## Plots given and released (R69, R76, R225) -/

theorem sameBooks_emptyScratch (s : State) (p : Nat) : SameBooks s (emptyScratch s p) := ⟨rfl, rfl, rfl⟩

theorem sameBooks_clearEdges (s : State) (p : Nat) : SameBooks s (clearEdges s p) :=
  (SameBooks.foldl (fun _ _ => sameBooks_dropHolder _ _ _) (plotOf s p).edges s).trans ⟨rfl, rfl, rfl⟩

theorem sameBooks_releasePlot (s : State) (p : Nat) : SameBooks s (releasePlot s p) :=
  ((sameBooks_emptyScratch s p).trans (sameBooks_clearEdges _ p)).trans ⟨rfl, rfl, rfl⟩

/-- Plots that are released let parked launches be tried again; they change no launch (R76). -/
theorem launchOf_plotsReleased (s : State) (ps : List Nat) (q : Nat) : launchOf (plotsReleased s ps) q = launchOf s q := rfl

theorem sameBooks_loadPlot (s : State) (q g : Nat) (v : Variant) (p : Placed) (plot : Nat) :
    SameBooks s (loadPlot s q g v p plot) := by
  unfold loadPlot
  extract_lets s1 x
  split
  extract_lets s2
  have hPlot : SameBooks s s2 := ⟨rfl, rfl, rfl⟩
  exact hPlot.trans (.foldl (fun _ _ => sameBooks_setPe _ _ _) _ s2)

theorem sameBooks_arbitrate (s : State) : SameBooks s (arbitrate s) := ⟨rfl, rfl, rfl⟩

theorem sameBooks_rememberPlots (s : State) (k : Nat) (ps : List Nat) : SameBooks s (rememberPlots s k ps) := ⟨rfl, rfl, rfl⟩

theorem sameBooks_admitAll (s : State) (l : Launch) : SameBooks s (admitAll s l) := by
  refine .foldl (fun s i => ?_) _ s
  split
  · exact .refl s
  · exact iteInduction (fun _ => .refl s) fun _ => ⟨rfl, rfl, rfl⟩

/-! ## Marten's reads and checks (R412) -/

theorem sameBooks_readRange (c : Ctx) (fuel : Nat) (s : State) (va n : Nat) : SameBooks s (readRange c fuel s va n).1 := by
  induction fuel generalizing s va n with
  | zero => exact .refl s
  | succ fuel ih =>
    unfold readRange
    split
    · exact .refl s
    · extract_lets k
      have h := sameBooks_loadVA s c .read va k 1
      split <;> rename_i e <;> rw [e] at h
      · rename_i s' _
        have hRest := h.trans (ih s' (va + k) (n - k))
        split
        · rename_i e; rw [e] at hRest; exact hRest
        · exact hRest
      · exact h
      · exact h

theorem sameBooks_martenRead (s : State) (vd va n : Nat) : SameBooks s (martenRead s vd va n).1 := sameBooks_readRange _ _ s va n

theorem sameBooks_readImage (s : State) (vd va : Nat) : SameBooks s (readImage s vd va).1 := by
  unfold readImage
  split
  · exact .refl s
  · have hHead := sameBooks_martenRead s vd va 64
    split <;> rename_i e <;> rw [e] at hHead
    · exact hHead
    · rename_i s1 h
      extract_lets len
      have hImage := hHead.trans (sameBooks_martenRead s1 vd va len)
      split <;> rename_i e <;> rw [e] at hImage
      · exact hImage
      · split <;> exact hImage

theorem sameBooks_readTables (s : State) (h : Header) : SameBooks s (readTables s h).1 := by
  have hThreads := sameBooks_martenRead s h.vd h.thrtab (16 * h.nthr)
  unfold readTables
  split <;> rename_i e <;> rw [e] at hThreads
  · exact hThreads
  · rename_i s1 _
    have hGroups := hThreads.trans (sameBooks_martenRead s1 h.vd h.grptab (8 * h.ngrp))
    split <;> rename_i e <;> rw [e] at hGroups <;> exact hGroups

/-- An attempt at a waiting launch reads memory: no outcome of it changes Marten's books. -/
theorem sameBooks_attempt (s : State) (w : Waiting) : SameBooks s (attempt s w).1 := by
  unfold attempt
  split
  · exact .refl s
  · have hImage := sameBooks_readImage s w.vd w.hdr.kgiva
    split <;> rename_i e <;> rw [e] at hImage
    · exact hImage
    · rename_i s1 img
      extract_lets vs
      split
      · exact hImage
      · have hTables := hImage.trans (sameBooks_readTables s1 w.hdr)
        split <;> rename_i e <;> rw [e] at hTables
        · exact hTables
        · split
          · exact hTables
          · split
            · exact hTables
            · split <;> exact hTables

/-! ## Saving and restoring (R82, R183, R185) -/

theorem sameBooks_cutEdges (own : List Nat) (s : State) (p : Nat) : SameBooks s (cutEdges own s p) := by
  unfold cutEdges
  extract_lets out s1 x s2 in_ s3
  have hOut : SameBooks s s1 := .foldl (fun _ _ => sameBooks_dropHolder _ _ _) out s
  have hKeep : SameBooks s s2 := hOut.trans ⟨rfl, rfl, rfl⟩
  have hIn : SameBooks s s3 := hKeep.trans (.foldl (fun _ _ => sameBooks_dropHolder _ _ _) in_.flatten s2)
  exact hIn.trans ⟨rfl, rfl, rfl⟩

theorem sameBooks_backPage (l : Launch) (ix p : Nat) (x : State × Assoc (Option Nat)) (page : Nat) :
    SameBooks x.1 (backPage l ix p x page).1 := by
  unfold backPage
  split
  extract_lets key
  split
  · exact .refl _
  · extract_lets pa k
    exact iteInduction (motive := fun y : State × Assoc (Option Nat) => SameBooks _ y.1) (fun _ => .refl _)
      fun _ => ⟨rfl, rfl, rfl⟩

theorem sameBooks_backPlot (l : Launch) (x : State × Assoc (Option Nat)) (ixp : Nat × Nat) :
    SameBooks x.1 (backPlot l x ixp).1 := by
  unfold backPlot
  extract_lets still
  exact .foldl_fst (fun y page => sameBooks_backPage l ixp.1 ixp.2 y page) _ (x.1, still)

theorem sameBooks_saveThread (l : Launch) (s : State) (tid : Nat) (t : Thread) : SameBooks s (saveThread l s tid t) := by
  unfold saveThread
  exact iteInduction (fun _ => .refl s) fun _ => ⟨rfl, rfl, rfl⟩

theorem sameBooks_requeue (s : State) (l : Launch) (new : Placed) : SameBooks s (requeue s l new) := by
  unfold requeue
  extract_lets add s1
  have hAdd (s : State) (ix : Nat) (a : Adm) : SameBooks s (add s ix a) := ⟨rfl, rfl, rfl⟩
  have hThreads : SameBooks s s1 := .foldl (fun _ _ => hAdd _ _ _) _ s
  exact hThreads.trans (.foldl (fun _ _ => .foldl (fun _ _ => hAdd _ _ _) _ _) _ s1)

theorem sameBooks_reholdRecords (s : State) (l : Launch) (new : Placed) : SameBooks s (reholdRecords s l new) := by
  unfold reholdRecords
  exact .foldl (fun _ _ => sameBooks_setPlot _ _ _) _ s

end Sys2Proof.Proofs
end

section
/-!
SUPPORT. The standing of a launch: its number, what freezes it, what is asked of it, whether it is resident and where. Tokens on
their way and records raised for a launch change its account of channels, rings and records, and leave its standing.
-/
namespace Sys2Proof.Proofs
open Sys2Proof Sys2Proof.Machine Sys2Proof.Laws

/-- The account of a launch has changed in no more than what leaves its standing alone. -/
structure SameStanding (l l' : Launch) : Prop where
  lseq : l'.lseq = l.lseq
  frozen : l'.frozen = l.frozen
  asked : l'.asked = l.asked
  resident : l'.resident = l.resident
  place : l'.place = l.place

theorem SameStanding.refl (l : Launch) : SameStanding l l := ⟨rfl, rfl, rfl, rfl, rfl⟩

theorem SameStanding.trans {a b c : Launch} (h : SameStanding a b) (g : SameStanding b c) : SameStanding a c :=
  ⟨g.lseq.trans h.lseq, g.frozen.trans h.frozen, g.asked.trans h.asked, g.resident.trans h.resident, g.place.trans h.place⟩

theorem sameStanding_setChan (l : Launch) (k : Nat) (c : ChanSt) : SameStanding l (l.setChan k c) := ⟨rfl, rfl, rfl, rfl, rfl⟩

theorem sameStanding_setHnode (l : Launch) (part : Nat) (h : HNode) : SameStanding l (l.setHnode part h) :=
  ⟨rfl, rfl, rfl, rfl, rfl⟩

/-- Launch `q`, where it stands under its own number, keeps its standing from one state to another. -/
def KeepsStanding (q : Nat) (s s' : State) : Prop :=
  ∀ l, launchOf s q = some l → l.lseq = q → ∃ l', launchOf s' q = some l' ∧ SameStanding l l'

theorem SameBooks.keepsStanding {s s' : State} (h : SameBooks s s') (q : Nat) : KeepsStanding q s s' :=
  fun l hl _ => ⟨l, (h.launchOf q).trans hl, .refl l⟩

namespace KeepsStanding

variable {q : Nat} {α : Type}

theorem refl (s : State) : KeepsStanding q s s := (SameBooks.refl s).keepsStanding q

theorem trans {a b c : State} (h : KeepsStanding q a b) (g : KeepsStanding q b c) : KeepsStanding q a c := by
  intro l hl own
  obtain ⟨l1, hl1, same1⟩ := h l hl own
  obtain ⟨l2, hl2, same2⟩ := g l1 hl1 (same1.lseq.trans own)
  exact ⟨l2, hl2, same1.trans same2⟩

theorem foldl {f : State → α → State} (hf : ∀ s a, KeepsStanding q s (f s a)) (l : List α) (s : State) :
    KeepsStanding q s (l.foldl f s) := by
  induction l generalizing s with
  | nil => exact refl s
  | cons a l ih => exact (hf s a).trans (ih (f s a))

/-- An account put back under its own number. -/
theorem setLaunch {s : State} {l l' : Launch} (h : launchOf s q = some l) (same : SameStanding l l') :
    KeepsStanding q s (setLaunch s l') := by
  intro l0 h0 own
  cases h.symm.trans h0
  have number : l'.lseq = q := same.lseq.trans own
  exact ⟨l', number ▸ launchOf_setLaunch s l', same⟩

/-- To keep a launch's standing, a step may be looked at where the launch is there under its own number. -/
theorem of_own {s s' : State} (h : ∀ l, launchOf s q = some l → l.lseq = q → KeepsStanding q s s') : KeepsStanding q s s' :=
  fun l hl own => h l hl own l hl own

end KeepsStanding

theorem keepsStanding_modLaunch {f : Launch → Launch} (hf : ∀ l, SameStanding l (f l)) (s : State) (q : Nat) :
    KeepsStanding q s (modLaunch s q f) := by
  unfold modLaunch
  split
  · rename_i l h; exact .setLaunch h (hf l)
  · exact .refl s

/-- A launch changed, as the next reader of it finds it. -/
theorem launchOf_modLaunch {s : State} {q : Nat} {l : Launch} {f : Launch → Launch} (h : launchOf s q = some l)
    (own : (f l).lseq = q) : launchOf (modLaunch s q f) q = some (f l) := by
  simp only [modLaunch, h]
  exact own ▸ launchOf_setLaunch s (f l)

/-! ## Records and the divert ring (R169, R175 to R177) -/

theorem keepsStanding_raiseFault (q : Nat) (s : State) (src : FSource) (f : FInfo) :
    KeepsStanding q s (raiseFault s q src f) := by
  intro l h own
  simp only [raiseFault, h]
  exact ⟨_, lookup_insert_same _ _ _, ⟨rfl, rfl, rfl, rfl, rfl⟩⟩

theorem keepsStanding_pushReplay (q : Nat) (s : State) (k : Nat) (t : Token) : KeepsStanding q s (pushReplay s q k t) :=
  keepsStanding_modLaunch (fun _ => sameStanding_setChan _ _ _) s q

/-- A token back at the head of a port, whose node goes on (R175, R177). -/
theorem sameBooks_putBack (s : State) (pe port h : Nat) (t : Token) (redo : Option Bool) :
    SameBooks s (releaseNode (pushHead s pe port t) pe h redo) := ⟨rfl, rfl, rfl⟩

theorem keepsStanding_dropEntry (s : State) (l : Launch) (part : Nat) (e : DivEntry) :
    KeepsStanding l.lseq s (dropEntry s l part e) := by
  unfold dropEntry
  extract_lets s1
  have hFault : KeepsStanding l.lseq s s1 := keepsStanding_raiseFault _ _ _ _
  split
  · exact hFault
  · exact hFault.trans ((sameBooks_putBack _ _ _ _ _ _).keepsStanding _)
  · exact hFault.trans ((sameBooks_setPe _ _ _).keepsStanding _)
  · exact hFault.trans (keepsStanding_pushReplay _ _ _ _)

theorem keepsStanding_actEntry {s u : State} {l : Launch} {part : Nat} {e : DivEntry} (h : actEntry s l part e = some u) :
    KeepsStanding l.lseq s u := by
  have hDrop {u : State} (h : some (dropEntry s l part e) = some u) : KeepsStanding l.lseq s u := by
    cases h; exact keepsStanding_dropEntry s l part e
  unfold actEntry at h
  split at h
  · split at h
    · obtain ⟨⟨s1, tag⟩, bound, h⟩ := Option.map_eq_some_iff.mp h
      cases h
      exact ((sameBooks_reinjectTag bound).trans (sameBooks_putBack _ _ _ _ _ _)).keepsStanding _
    · obtain ⟨⟨s1, tag⟩, bound, h⟩ := Option.map_eq_some_iff.mp h
      cases h
      exact ((sameBooks_reinjectTag bound).keepsStanding _).trans (keepsStanding_pushReplay _ _ _ _)
    · exact hDrop h
  · exact hDrop h

theorem keepsStanding_settle (q part fuel : Nat) (s : State) : KeepsStanding q s (settle s q part fuel) := by
  induction fuel generalizing s with
  | zero => exact .refl s
  | succ fuel ih =>
    refine .of_own fun l hl own => ?_
    simp only [settle, hl]
    split
    · exact .refl s
    · rename_i e rest _
      split
      · exact .refl s
      · have hTaken : KeepsStanding q s (setLaunch s (l.setHnode part { l.hnode part with acting := rest })) :=
          .setLaunch hl (sameStanding_setHnode _ _ _)
        split
        · rename_i u acted
          subst own
          exact (hTaken.trans (keepsStanding_actEntry acted)).trans (ih u)
        · exact .refl s

theorem keepsStanding_handlerNodeWork (s : State) (q part : Nat) : KeepsStanding q s (handlerNodeWork s q part) := by
  unfold handlerNodeWork
  split
  · exact .refl s
  · rename_i l hl
    extract_lets hn hn'
    exact (KeepsStanding.setLaunch hl (sameStanding_setHnode _ _ _)).trans (keepsStanding_settle _ _ _ _)

theorem keepsStanding_enterRing (s : State) (q part : Nat) (e : DivEntry) : KeepsStanding q s (enterRing s q part e) := by
  unfold enterRing
  split
  · exact .refl s
  · rename_i l hl
    extract_lets hn s1
    have hRing : KeepsStanding q s s1 := .setLaunch hl (sameStanding_setHnode _ _ _)
    have hSeen := (sameBooks_writeEntry s1 (l.ringPlot part) hn.wrote e).trans (sameBooks_bumpTail _ hn.bound)
    exact iteInduction (fun _ => hRing.trans (hSeen.keepsStanding q)) fun _ => hRing

theorem keepsStanding_divert (s : State) (q part : Nat) (kind : DivKind) (t : Token) (plot : Nat) (src : FSource) (f : FInfo) :
    KeepsStanding q s (divert s q part kind t plot src f) := by
  have hFault := keepsStanding_raiseFault q s src f
  have hDropped := hFault.trans ((sameBooks_dropHolder _ plot t.stag).keepsStanding q)
  exact hDropped.trans ((keepsStanding_enterRing _ _ _ _).trans (keepsStanding_handlerNodeWork _ _ _))

/-! ## Tokens on their way (R72, R137, R182) -/

/-- One channel's state changed, as every step of its tokens does. -/
theorem keepsStanding_modChan (s : State) (q k : Nat) (c : Launch → ChanSt) :
    KeepsStanding q s (modLaunch s q fun l => l.setChan k (c l)) :=
  keepsStanding_modLaunch (fun _ => sameStanding_setChan _ _ _) s q

theorem keepsStanding_reachPort {s u : State} {q pe n c : Nat} {t : Token} (h : reachPort s q pe n c t = some u) :
    KeepsStanding q s u := by
  unfold reachPort at h
  extract_lets x at h
  split at h
  · cases h; exact (sameBooks_setPe _ _ _).keepsStanding q
  · split at h
    · revert h
      refine iteInduction (motive := fun o => o = some u → KeepsStanding q s u) (fun _ h => ?_) fun _ h => ?_
      · split at h
        · cases h; exact keepsStanding_divert _ _ _ _ _ _ _ _
        · cases h
      · cases h; exact (sameBooks_dropHolder _ _ _).keepsStanding q
    · cases h; exact (sameBooks_dropHolder _ _ _).keepsStanding q

theorem keepsStanding_landOnce {s u : State} {l : Launch} {k : Nat} (h : landOnce s l k = some u) : KeepsStanding l.lseq s u := by
  unfold landOnce at h
  split at h
  extract_lets c n x put at h
  split at h
  have hPut (d : ChanSt) : KeepsStanding l.lseq s (put d) := keepsStanding_modChan _ _ _ _
  split at h
  · cases h
  · extract_lets d at h
    split at h
    · cases h
    · split at h
      · exact (hPut d).trans (keepsStanding_reachPort h)
      · split at h
        · cases h; exact hPut _
        · cases h

theorem keepsStanding_leaveCkpt {s u : State} {l : Launch} {k : Nat} (h : leaveCkpt s l k = some u) : KeepsStanding l.lseq s u := by
  unfold leaveCkpt at h
  extract_lets p stops st at h
  split at h
  · cases h
  · extract_lets put at h
    have hPut (s : State) (tag : Nat) : KeepsStanding l.lseq s (put s tag) := keepsStanding_modChan _ _ _ _
    split at h
    · cases h; exact hPut _ _
    · obtain ⟨x, -, h⟩ := Option.map_eq_some_iff.mp h
      cases h
      exact ((sameBooks_setPlot _ _ _).keepsStanding _).trans (hPut _ _)

theorem keepsStanding_crossAt {s u : State} {l : Launch} {k i : Nat} (h : crossAt s l k i = some u) : KeepsStanding l.lseq s u := by
  unfold crossAt at h
  split at h
  extract_lets c stops legs at h
  split at h
  · cases h
  · extract_lets out put s1 at h
    have hPut (s : State) (t : Token) : KeepsStanding l.lseq s (put s t) := keepsStanding_modChan _ _ _ _
    split at h
    · cases h
    · split at h
      · cases h; exact hPut _ _
      · split at h
        · cases h
        · rename_i crossed
          cases h
          exact ((sameBooks_crossTag crossed).keepsStanding _).trans
            ((hPut _ _).trans ((sameBooks_dropHolder _ _ _).keepsStanding _))
        · split at h
          · cases h
            have hOut : KeepsStanding l.lseq s s1 := keepsStanding_modChan _ _ _ _
            exact hOut.trans (((sameBooks_scoreCause s1 _ _).keepsStanding _).trans (keepsStanding_divert _ _ _ _ _ _ _ _))
          · cases h

theorem keepsStanding_crossOnce {s u : State} {l : Launch} {k : Nat} (h : crossOnce s l k = some u) : KeepsStanding l.lseq s u := by
  rw [crossOnce, Option.orElse_eq_or, Option.or_eq_some_iff] at h
  rcases h with h | ⟨-, h⟩
  · exact keepsStanding_leaveCkpt h
  · obtain ⟨i, -, h⟩ := List.exists_of_findSome?_eq_some h
    exact keepsStanding_crossAt h

theorem keepsStanding_leaveRecv {s u : State} {l : Launch} {k : Nat} (h : leaveRecv s l k = some u) : KeepsStanding l.lseq s u := by
  unfold leaveRecv at h
  extract_lets st at h
  split at h
  · cases h
  · split at h
    · have hEntered := keepsStanding_leaveCkpt h
      exact hEntered
    · cases h

theorem keepsStanding_drainOnce {s u : State} {l : Launch} {k : Nat} (h : drainOnce s l k = some u) : KeepsStanding l.lseq s u := by
  simp only [drainOnce, Option.orElse_eq_or, Option.or_eq_some_iff] at h
  rcases h with h | ⟨-, h | ⟨-, h⟩⟩
  · exact keepsStanding_landOnce h
  · exact keepsStanding_crossOnce h
  · exact keepsStanding_leaveRecv h

/-! ## Freezing (R182) -/

theorem keepsStanding_drainChan (q k fuel : Nat) (s : State) : KeepsStanding q s (drainChan q k fuel s) := by
  induction fuel generalizing s with
  | zero => exact .refl s
  | succ fuel ih =>
    refine .of_own fun l hl own => ?_
    simp only [drainChan, hl]
    split
    · rename_i u moved
      subst own
      exact (keepsStanding_drainOnce moved).trans (ih u)
    · exact .refl s

theorem keepsStanding_leaveBuffers (q : Nat) (s : State) (k : Nat) : KeepsStanding q s (leaveBuffers q s k) :=
  keepsStanding_modChan s q k _

theorem keepsStanding_drainLinks (s : State) (l : Launch) : KeepsStanding l.lseq s (drainLinks s l) := by
  unfold drainLinks
  extract_lets ks pass s1
  have hPass (s : State) : KeepsStanding l.lseq s (pass s) := .foldl (fun _ _ => keepsStanding_drainChan _ _ _ _) ks s
  have hPasses : KeepsStanding l.lseq s s1 := .foldl (fun s _ => hPass s) _ s
  exact hPasses.trans (.foldl (fun _ _ => keepsStanding_leaveBuffers _ _ _) _ s1)

theorem mem_addFreeze {l : List Freeze} {f g : Freeze} : g ∈ addFreeze l f ↔ g = f ∨ g ∈ l := by
  unfold addFreeze
  split
  · rename_i h
    have : f ∈ l := by simpa using h
    exact ⟨.inr, fun h => h.elim (fun e => e ▸ this) id⟩
  · exact List.mem_cons

theorem mem_foldl_addFreeze {why l : List Freeze} {g : Freeze} : g ∈ why.foldl addFreeze l ↔ g ∈ why ∨ g ∈ l := by
  induction why generalizing l with
  | nil => simp
  | cons f why ih => rw [List.foldl_cons, ih, mem_addFreeze, List.mem_cons, ← or_assoc, or_comm (a := g ∈ why)]

/-- A frozen launch has no request left, and the reasons given beside those it had (R182). -/
theorem launchOf_freezeLaunch {s : State} {l : Launch} (h : launchOf s l.lseq = some l) (why : List Freeze) :
    ∃ l', launchOf (freezeLaunch s l why) l.lseq = some l' ∧ l'.lseq = l.lseq ∧ l'.asked = [] ∧
      ∀ f, f ∈ l'.frozen ↔ f ∈ why ∨ f ∈ l.frozen := by
  unfold freezeLaunch
  extract_lets s1 s2 s3
  obtain ⟨l1, hl1, same⟩ := keepsStanding_drainLinks s l l h rfl
  have hFrozen := launchOf_modLaunch (s := s2)
    (f := fun l => { l with frozen := why.foldl addFreeze l.frozen, asked := [] }) hl1 same.lseq
  exact ⟨_, ((sameBooks_wakeDrained s3 l.lseq).launchOf _).trans hFrozen, same.lseq, rfl,
    fun f => mem_foldl_addFreeze.trans (by rw [same.frozen])⟩

end Sys2Proof.Proofs
end

section
/-!
SUPPORT. Launches placed, parked, ended, frozen, saved, restored and moved (R69, R70, R76, R182 to R185, R201, R202, R216,
R324): what each of Marten's operations leaves in its books and of the plots it takes and gives up.
-/
namespace Sys2Proof.Proofs
open Sys2Proof Sys2Proof.Machine Sys2Proof.Laws

/-! ## Who holds a plot (R69, R76) -/

theorem lookup_map {α β : Type} (f : α → β) (m : Assoc α) (n : Nat) :
    lookup (m.map fun x => (x.1, f x.2)) n = (lookup m n).map f := by
  induction m with
  | nil => rfl
  | cons c m ih =>
    obtain ⟨k, v⟩ := c
    simp only [List.map_cons, lookup]
    split
    · rfl
    · exact ih

/-- The launch that holds a plot. -/
def holderOf (s : State) (p : Nat) : Option Nat := (plotOf s p).holder

/-- A plot put back with its holder as it was: no plot changes hands. -/
theorem holderOf_setPlot {s : State} {p : Nat} {x : Plot} (same : x.holder = holderOf s p) (k : Nat) :
    holderOf (setPlot s p x) k = holderOf s k := by
  by_cases e : k = p
  · subst e; simpa [holderOf] using same
  · simp [holderOf, plotOf_setPlot_other s x e]

theorem holderOf_setPlot_given (s : State) (p : Nat) (x : Plot) (k : Nat) :
    holderOf (setPlot s p x) k = if k = p then x.holder else holderOf s k := by
  split
  · subst k; simp [holderOf]
  · rename_i ne; simp [holderOf, plotOf_setPlot_other s x ne]

theorem holderOf_setPe (s : State) (e : Nat) (x : PE) (k : Nat) : holderOf (setPe s e x) k = holderOf s k := rfl

/-- Where each step of a fold leaves every plot its holder, so does the fold. -/
theorem holderOf_foldl {α : Type} {f : State → α → State} (hf : ∀ s a k, holderOf (f s a) k = holderOf s k) (l : List α)
    (s : State) (k : Nat) : holderOf (l.foldl f s) k = holderOf s k := by
  induction l generalizing s with
  | nil => rfl
  | cons a l ih => exact (ih (f s a)).trans (hf s a k)

/-- Steps that each give one plot a holder, or take it, and leave the others: the plots of a list all have it after them. -/
theorem holderOf_foldl_given {f : State → Nat → State} {h : Option Nat}
    (hf : ∀ s p k, holderOf (f s p) k = if k = p then h else holderOf s k) (l : List Nat) (s : State) (k : Nat) :
    holderOf (l.foldl f s) k = if k ∈ l then h else holderOf s k := by
  induction l generalizing s with
  | nil => simp
  | cons p l ih =>
    rw [List.foldl_cons, ih, hf]
    by_cases later : k ∈ l <;> by_cases now : k = p <;> simp [later, now]

theorem unhold_holder (x : Plot) (tag : Nat) : (x.unhold tag).holder = x.holder := by
  unfold Plot.unhold
  split <;> rfl

theorem holderOf_dropHolder (s : State) (p tag k : Nat) : holderOf (dropHolder s p tag) k = holderOf s k := by
  unfold dropHolder
  split
  · rfl
  · exact holderOf_setPlot (unhold_holder _ _) k

theorem holderOf_emptyScratch (s : State) (p k : Nat) : holderOf (emptyScratch s p) k = holderOf s k := rfl

/-- A change of every plot that leaves each its holder. -/
theorem holderOf_mapPlots (s : State) {f : Plot → Plot} (hf : ∀ x, (f x).holder = x.holder) (k : Nat) :
    holderOf { s with plots := s.plots.map fun x => (x.1, f x.2) } k = holderOf s k := by
  simp only [holderOf, plotOf, lookupD, lookup_map]
  cases lookup s.plots k with
  | none => rfl
  | some x => exact hf x

theorem holderOf_clearEdges (s : State) (p k : Nat) : holderOf (clearEdges s p) k = holderOf s k := by
  unfold clearEdges
  extract_lets s1
  have hDropped : holderOf s1 k = holderOf s k := holderOf_foldl (fun _ _ _ => holderOf_dropHolder _ _ _ _) _ s k
  rw [← hDropped]
  refine holderOf_mapPlots s1 (f := fun x => if x.edges.any (fun r => r.dst == p) then
    { x with edges := x.edges.filter (fun r => r.dst != p) } else x) (fun x => ?_) k
  split <;> rfl

/-- A released plot has no holder; the others keep theirs (R76). -/
theorem holderOf_releasePlot (s : State) (p k : Nat) : holderOf (releasePlot s p) k = if k = p then none else holderOf s k := by
  have hOthers := (holderOf_clearEdges (emptyScratch s p) p k).trans (holderOf_emptyScratch s p k)
  rw [← hOthers]
  exact holderOf_setPlot_given _ p _ k

/-- A plot given to a launch is held by it; the others keep their holders (R69). -/
theorem holderOf_loadPlot (s : State) (q g : Nat) (v : Variant) (pl : Placed) (p k : Nat) :
    holderOf (loadPlot s q g v pl p) k = if k = p then some q else holderOf s k := by
  unfold loadPlot
  extract_lets s1 x
  split
  extract_lets s2
  exact (holderOf_foldl (fun _ _ _ => holderOf_setPe _ _ _ _) _ s2 k).trans (holderOf_setPlot_given s1 p _ k)

theorem holderOf_admitAll (s : State) (l : Launch) (k : Nat) : holderOf (admitAll s l) k = holderOf s k := by
  refine holderOf_foldl (fun s i k => ?_) _ s k
  split
  · rfl
  · exact iteInduction (motive := fun u => holderOf u k = holderOf s k) (fun _ => rfl)
      fun _ => holderOf_setPlot (by rfl) k

/-! ## What Marten takes next, and commits (R69, R70, R76) -/

/-- A fold that keeps what it has or takes the next answers what it began with or one of the list. -/
theorem mem_of_foldl_choice {α : Type} {f : Option α → α → Option α} (hf : ∀ b x, f b x = b ∨ f b x = some x)
    {l : List α} {b : Option α} {w : α} (h : l.foldl f b = some w) : b = some w ∨ w ∈ l := by
  induction l generalizing b with
  | nil => exact .inl h
  | cons x l ih =>
    rcases ih h with now | later
    · rcases hf b x with kept | taken
      · exact .inl (kept ▸ now)
      · exact .inr (Option.some.inj (taken.symm.trans now) ▸ List.mem_cons_self)
    · exact .inr (List.mem_cons_of_mem x later)

/-- What Marten serves next is one of the waiting launches. -/
theorem nextWaiting_mem {s : State} {w : Waiting} (h : nextWaiting s = some w) : w ∈ s.waiting := by
  refine (mem_of_foldl_choice (fun b x => ?_) h).elim nofun fun mem => (List.mem_filter.mp mem).1
  cases b with
  | none => exact .inr rfl
  | some y => exact iteInduction (motive := fun o => o = some y ∨ o = some x) (fun _ => .inr rfl) fun _ => .inl rfl

/-- The answer to whoever submitted a launch that commits: the reply, or the end of GLAUNCH's wait (R213, R319). -/
def commitAnswered (s : State) (w : Waiting) (q : Nat) : State :=
  match w.origin with
  | .host tag => launchReply s w.vd tag.toNat 0 q
  | .thread _ tid _ _ _ =>
    match threadOf s tid with
    | some t => completeWait (setThread s tid { t with glseq := q }) tid 4#64
    | none => s

theorem sameBooks_commitAnswered (s : State) (w : Waiting) (q : Nat) : SameBooks s (commitAnswered s w q) := by
  unfold commitAnswered
  split
  · exact ⟨rfl, rfl, rfl⟩
  · split
    · exact (sameBooks_setThread _ _ _).trans (sameBooks_completeWait _ _ _)
    · exact .refl s

theorem completeWait_plots (s : State) (tid : Nat) (len : Word) : (completeWait s tid len).plots = s.plots := by
  unfold completeWait
  split <;> rfl

theorem holderOf_commitAnswered (s : State) (w : Waiting) (q k : Nat) : holderOf (commitAnswered s w q) k = holderOf s k := by
  have hPlots : (commitAnswered s w q).plots = s.plots := by
    unfold commitAnswered
    split
    · rfl
    · split
      · exact completeWait_plots _ _ _
      · rfl
  simp only [holderOf, plotOf, hPlots]

/-- The plots that a commit gives to its launch, loaded and remembered under its key slot (R69, R225). -/
def commitLoaded (s : State) (f : Fit) (q : Nat) : State :=
  rememberPlots (arbitrate (f.place.here.foldl (fun s p => loadPlot s q 0 f.variant f.place p) s)) f.kslot f.place.here

theorem sameBooks_commitLoaded (s : State) (f : Fit) (q : Nat) : SameBooks s (commitLoaded s f q) :=
  (SameBooks.foldl (fun _ _ => sameBooks_loadPlot _ _ _ _ _ _) _ s).trans
    ((sameBooks_arbitrate _).trans (sameBooks_rememberPlots _ _ _))

theorem holderOf_commitLoaded (s : State) (f : Fit) (q k : Nat) :
    holderOf (commitLoaded s f q) k = if k ∈ f.place.here then some q else holderOf s k :=
  holderOf_foldl_given (fun _ _ _ => holderOf_loadPlot _ _ _ _ _ _ _) _ s k

/-- The state of a commit but for its answer: the launch in the books, its plots loaded, its threads in admission. -/
def commitPlaced (s : State) (w : Waiting) (f : Fit) : State :=
  let l := newLaunch s w f (s.lseq + 1)
  let u := commitLoaded (setLaunch { s with lseq := s.lseq + 1 } l) f (s.lseq + 1)
  if l.nodeWait then u else admitAll u l

theorem commit_eq (s : State) (w : Waiting) (f : Fit) :
    commit s w f = commitAnswered (commitPlaced s w f) w (s.lseq + 1) := rfl

/-- A commit enters the launch in the books under the next sequence number, and changes no more of them. -/
theorem sameBooks_commit (s : State) (w : Waiting) (f : Fit) :
    SameBooks (setLaunch { s with lseq := s.lseq + 1 } (newLaunch s w f (s.lseq + 1))) (commit s w f) := by
  have hLoaded := sameBooks_commitLoaded (setLaunch { s with lseq := s.lseq + 1 } (newLaunch s w f (s.lseq + 1))) f (s.lseq + 1)
  refine .trans ?_ (sameBooks_commitAnswered _ _ _)
  exact iteInduction (fun _ => hLoaded) fun _ => hLoaded.trans (sameBooks_admitAll _ _)

/-- A commit gives the launch every plot of its place that is here. -/
theorem holderOf_commit (s : State) (w : Waiting) (f : Fit) {p : Nat} (here : p ∈ f.place.here) :
    holderOf (commit s w f) p = some (s.lseq + 1) := by
  rw [commit_eq, holderOf_commitAnswered]
  have hLoaded (u : State) : holderOf (commitLoaded u f (s.lseq + 1)) p = some (s.lseq + 1) := by
    rw [holderOf_commitLoaded, if_pos here]
  exact iteInduction (motive := fun u => holderOf u p = some (s.lseq + 1)) (fun _ => hLoaded _)
    fun _ => (holderOf_admitAll _ _ p).trans (hLoaded _)

/-- PLACEMENT of a launch that fits (R69, R70). -/
theorem execPlacement_fits {s s' : State} {w : Waiting} {f : Fit} (next : nextWaiting s = some w)
    (fits : attempt s w = (s', .ok f)) : exec .placement s = .next (commit (dropWaiting s' w.ticket) w f) := by
  show execPlacement s = _
  simp only [execPlacement, next, fits]

/-- PLACEMENT of a launch that waits for plots: it is parked, beside those that wait (R76). -/
theorem execPlacement_parks {s s' : State} {w : Waiting} {c : Nat} (next : nextWaiting s = some w)
    (fails : attempt s w = (s', .error (stFitSpace, c))) (queue : w.hdr.queue = true) :
    exec .placement s = .next { s' with
      waiting := s'.waiting.map (fun x => if x.ticket = w.ticket then { x with parked := true, again := false } else x) } := by
  show execPlacement s = _
  simp only [execPlacement, next, fails, queue, and_self, if_true]

/-- PLACEMENT of a launch that fails for good (R76). -/
theorem execPlacement_fails {s s' : State} {w : Waiting} {st c : Nat} (next : nextWaiting s = some w)
    (fails : attempt s w = (s', .error (st, c))) (final : st ≠ stFitSpace ∨ w.hdr.queue = false) :
    exec .placement s = .next (failLaunch (dropWaiting s' w.ticket) w.vd w.origin st c) := by
  have notParked : ¬(st = stFitSpace ∧ w.hdr.queue = true) := by
    rintro ⟨space, queue⟩
    exact final.elim (fun h => h space) (fun h => by simp [queue] at h)
  show execPlacement s = _
  simp only [execPlacement, next, fails, notParked, if_false]

/-! ## Ends (R323, R324) -/

/-- A launch that has ended is gone from the books. -/
theorem launchOf_endLaunch (s : State) (q status cause : Nat) (quiet : Bool) :
    launchOf (endLaunch s q status cause quiet) q = none := by
  unfold endLaunch
  split
  · assumption
  · extract_lets s1 evs s2 s3 s4 s5 s6 s7 s8
    have hGone : launchOf s7 q = none := lookup_remove_same _ _
    have hPosted : SameBooks s7 s8 := iteInduction (fun _ => .refl s7) fun _ => sameBooks_post _ _
    exact ((hPosted.trans (sameBooks_wakeOnEnd _ _)).launchOf q).trans hGone

/-! ## Saving (R182, R183) -/

theorem keepsStanding_checkpointChan (q : Nat) (s : State) (k : Nat) : KeepsStanding q s (checkpointChan q s k) := by
  unfold checkpointChan
  split
  · exact .refl s
  · rename_i l hl
    split
    split
    · exact .refl s
    · extract_lets st stops legs late ckpt s1
      have hChan : KeepsStanding q s s1 := .setLaunch hl (sameStanding_setChan _ _ _)
      exact hChan.trans ((SameBooks.foldl (fun _ _ => sameBooks_dropHolder _ _ _) late s1).keepsStanding q)

/-- What leaves the plots of a launch before it is marked as saved: tokens, stores, edges, pages, records and threads. -/
def streamedOut (s : State) (l : Launch) : State × Saved :=
  let own := l.place.here
  let s := (keysOf l.chans).foldl (checkpointChan l.lseq) s
  let s := (s.threads.filter (fun x => x.2.lseq == l.lseq)).foldl (fun s x => showStores s x.1 4) s
  let s := own.foldl (cutEdges own) s
  let (s, pages) := (ownPlots l.place).foldl (backPlot l) (s, [])
  let img := imageOf s l pages
  let s := own.foldl (fun s p => setPlot s p { plotOf s p with evHeld := (plotOf s p).evHeld.filter (fun e => e.lseq != l.lseq) }) s
  (s.threads.foldl (fun s x => saveThread l s x.1 x.2) s, img)

theorem saveLaunch_eq (s : State) (l : Launch) : saveLaunch s l = plotsReleased (l.place.here.foldl releasePlot
    (modLaunch (streamedOut s l).1 l.lseq fun x => { x with resident := false, saved := (streamedOut s l).2 })) l.place.here := rfl

theorem keepsStanding_streamedOut (s : State) (l : Launch) : KeepsStanding l.lseq s (streamedOut s l).1 := by
  unfold streamedOut
  extract_lets own s1 s2 s3
  have hChans : KeepsStanding l.lseq s s1 := .foldl (fun _ _ => keepsStanding_checkpointChan _ _ _) _ s
  have hStores : SameBooks s1 s2 := .foldl (fun _ _ => sameBooks_showStores _ _ _) _ s1
  have hEdges : SameBooks s2 s3 := .foldl (fun _ _ => sameBooks_cutEdges _ _ _) own s2
  have hPages := SameBooks.foldl_fst (sameBooks_backPlot l) (ownPlots l.place) (s3, ([] : Assoc (Option Nat)))
  split
  rename_i s4 pages e
  rw [e] at hPages
  extract_lets img s5
  have hRecords : SameBooks s4 s5 := .foldl (fun _ _ => sameBooks_setPlot _ _ _) own s4
  have hThreads : SameBooks s5 _ := .foldl (fun s x => sameBooks_saveThread l s x.1 x.2) s5.threads s5
  exact hChans.trans ((hStores.trans (hEdges.trans (hPages.trans (hRecords.trans hThreads)))).keepsStanding l.lseq)

/-- A saved launch is not resident (R183). -/
theorem launchOf_saveLaunch {s : State} {l l0 : Launch} (h : launchOf s l.lseq = some l0) (own : l0.lseq = l.lseq) :
    ∃ l', launchOf (saveLaunch s l) l.lseq = some l' ∧ l'.lseq = l.lseq ∧ l'.resident = false := by
  obtain ⟨l1, h1, same⟩ := keepsStanding_streamedOut s l l0 h own
  have number : l1.lseq = l.lseq := same.lseq.trans own
  have hSaved := launchOf_modLaunch (f := fun x => { x with resident := false, saved := (streamedOut s l).2 }) h1 number
  rw [saveLaunch_eq, launchOf_plotsReleased, (SameBooks.foldl sameBooks_releasePlot _ _).launchOf]
  exact ⟨_, hSaved, number, rfl⟩

/-- A saved launch has given up its plots (R182 step 5). -/
theorem holderOf_saveLaunch (s : State) (l : Launch) {p : Nat} (here : p ∈ l.place.here) :
    holderOf (saveLaunch s l) p = none := by
  rw [saveLaunch_eq]
  exact (holderOf_foldl_given holderOf_releasePlot l.place.here _ p).trans (if_pos here)

/-! ## Restoring (R185) -/

theorem keepsStanding_restoreMiscompares (l : Launch) (new : Placed) (s : State) (ix : Nat) (x : Plot) :
    KeepsStanding l.lseq s (restoreMiscompares l new s ix x) :=
  .foldl (fun _ _ => (keepsStanding_raiseFault _ _ _ _).trans ((sameBooks_addScore _ _ _).keepsStanding _)) _ s

/-- A launch put into new places is resident there, frozen for what it was frozen for (R185). -/
theorem launchOf_restoreInto (s : State) (l : Launch) (new : Placed) (shadow : Option (Variant × Placed)) :
    ∃ l', launchOf (restoreInto s l new shadow) l.lseq = some l' ∧ l'.lseq = l.lseq ∧ l'.frozen = l.frozen ∧
      l'.resident = true ∧ l'.place = new := by
  unfold restoreInto
  extract_lets ms s1 s2 s3 s4 s5
  have hMoved : launchOf s3 l.lseq = some (moveLaunch s2 l ms new shadow) := launchOf_setLaunch _ _
  have hRecords : KeepsStanding l.lseq s3 s4 := .foldl (fun _ _ => keepsStanding_restoreMiscompares _ _ _ _ _) _ s3
  have hRest : SameBooks s4 (arbitrate (rememberPlots (reholdRecords (requeue s5 l new) l new) l.kslot new.here)) := by
    have hTags : SameBooks s4 s5 := ⟨rfl, rfl, rfl⟩
    exact hTags.trans ((sameBooks_requeue _ _ _).trans ((sameBooks_reholdRecords _ _ _).trans
      ((sameBooks_rememberPlots _ _ _).trans (sameBooks_arbitrate _))))
  obtain ⟨l', h', same⟩ := hRecords.trans (hRest.keepsStanding l.lseq) _ hMoved rfl
  exact ⟨l', h', same.lseq, same.frozen, same.resident, same.place⟩

/-- Once restored, a launch is frozen no more for a lease or a move; its other reasons stay (R182, R184). -/
theorem launchOf_restored (s : State) (l : Launch) (new : Placed) (shadow : Option (Variant × Placed)) :
    ∃ l', launchOf (unfreeze (restoreInto s l new shadow) l.lseq) l.lseq = some l' ∧ l'.lseq = l.lseq ∧ l'.resident = true ∧
      l'.place = new ∧ ∀ f, f ∈ l'.frozen ↔ f ∈ l.frozen ∧ f ≠ .forced ∧ f ≠ .reloc := by
  obtain ⟨l', h, number, frozen, resident, place⟩ := launchOf_restoreInto s l new shadow
  have hFreed := launchOf_modLaunch
    (f := fun l => { l with frozen := l.frozen.filter (fun f => f != .forced && f != .reloc) }) h number
  exact ⟨_, hFreed, number, resident, place, fun f => by simp [frozen]⟩

theorem keepsStanding_postCap (s : State) (q event kind unit count : Nat) :
    KeepsStanding q s (postCap s q event kind unit count) :=
  keepsStanding_modLaunch (f := fun l => { l with capWait := l.capWait ++ _ }) (fun _ => ⟨rfl, rfl, rfl, rfl, rfl⟩) s q

theorem keepsStanding_reportRestore (s : State) (l : Launch) : KeepsStanding l.lseq s (reportRestore s l) := by
  unfold reportRestore
  split
  · exact .refl s
  · extract_lets s1
    have hUnit : KeepsStanding l.lseq s s1 :=
      keepsStanding_modLaunch (f := fun l => { l with leaseUnit := none }) (fun _ => ⟨rfl, rfl, rfl, rfl, rfl⟩) s l.lseq
    exact hUnit.trans (keepsStanding_postCap _ _ _ _ _ _)

end Sys2Proof.Proofs
end

section
/-!
SUPPORT. The events PLACEMENT to RELOCATION one by one, and the statement about them all (O41).
-/
namespace Sys2Proof.Proofs
open Sys2Proof Sys2Proof.Machine Sys2Proof.Laws

/-! ## Parked launches and parts of node launches (R76, R201) -/

/-- QUEUE_RETRY: every launch parked on plots that were released since stands before Marten again; none is lost (R76). -/
theorem execQueueRetry_unparks (s : State) : ∃ u, exec .queueRetry s = .next u ∧ u.waiting.length = s.waiting.length ∧
    (∀ x ∈ u.waiting, ¬(x.parked = true ∧ x.again = true)) ∧
    (∀ x ∈ s.waiting, x.parked = true → x.again = true → { x with parked := false, again := false } ∈ u.waiting) := by
  refine ⟨_, rfl, List.length_map .., fun y mem => ?_, fun x mem parked again => ?_⟩
  · obtain ⟨x, -, rfl⟩ := List.mem_map.mp mem
    split
    · simp
    · rename_i stays
      simpa using stays
  · exact List.mem_map.mpr ⟨x, mem, by simp [parked, again]⟩

/-- A free status of another module's failure is one of R76. -/
theorem freeStatus_range (n : Nat) : 1 ≤ 1 + n % 6 ∧ 1 + n % 6 ≤ 6 := by omega

theorem endWaitingPart_none {s : State} (h : s.waiting.filter (fun w => w.partmap.isSome) = []) : endWaitingPart s = s := by
  simp [endWaitingPart, h]

theorem endWaitingPart_some {s : State} {w : Waiting}
    (h : (s.waiting.filter (fun w => w.partmap.isSome))[Config.freeNat s.free %
      (s.waiting.filter (fun w => w.partmap.isSome)).length]? = some w) :
    endWaitingPart s = if Config.freeBit (s.free + 1) then
      failLaunch (dropWaiting { s with free := s.free + 3 } w.ticket) w.vd w.origin (1 + Config.freeNat (s.free + 2) % 6) 0
      else { s with free := s.free + 3 } := by
  simp only [endWaitingPart, h]

/-- NODE_LAUNCH_START of launch 0 is about the parts that Marten has yet to commit (log 43). -/
theorem execNodeLaunchStart_zero {s : State} (h : launchOf s 0 = none) :
    exec (.nodeLaunchStart 0) s = .next (endWaitingPart s) := by
  show execNodeLaunchStart 0 s = _
  simp only [execNodeLaunchStart, h, if_true]

/-- A part of a node launch once it starts: nothing of the node holds it back (R201, R202). -/
def startedPart (l : Launch) : Launch := { l with nodeWait := false, frozen := l.frozen.filter (· != .node) }

section
variable {s : State} {q : Nat} {l : Launch} (h : launchOf s q = some l)
include h

/-- NODE_LAUNCH_START of a part that waits in its plots, where the others are ready: it starts (R201). -/
theorem execNodeLaunchStart_starts (waits : l.nodeWait = true) (resident : l.resident = true)
    (ready : Config.freeBit s.free = true) :
    exec (.nodeLaunchStart q) s = .next (admitAll (setLaunch { s with free := s.free + 2 } (startedPart l)) (startedPart l)) := by
  show execNodeLaunchStart q s = _
  simp [execNodeLaunchStart, h, waits, resident, ready, startedPart]

/-- And where another module has failed, it ends with that one's status. -/
theorem execNodeLaunchStart_ends (waits : l.nodeWait = true) (resident : l.resident = true)
    (failed : Config.freeBit s.free = false) : exec (.nodeLaunchStart q) s =
      .next (endLaunch { s with free := s.free + 2 } q (1 + Config.freeNat (s.free + 1) % 6) 0 false) := by
  show execNodeLaunchStart q s = _
  simp [execNodeLaunchStart, h, waits, resident, failed]

theorem execNodeLaunchStart_other (no : l.nodeWait = false ∨ l.resident = false) : exec (.nodeLaunchStart q) s = .next s := by
  have notBoth : ¬(l.nodeWait && l.resident) = true := by
    rcases no with no | no <;> simp [no]
  show execNodeLaunchStart q s = _
  simp only [execNodeLaunchStart, h, notBoth]
  rfl

theorem execLaunchComplete_eq :
    exec (.launchComplete q) s = .next (if launchDone s l then endLaunch s q stOK 0 false else s) := by
  show execLaunchComplete q s = _
  simp only [execLaunchComplete, h]
  split <;> rfl

/-- PREEMPTION of a launch that is asked for: it is frozen, and the end of its slice may give its place away (R182; log 67). -/
theorem execPreemption_asked (asked : l.asked ≠ []) {l' : Launch} (frozen : launchOf (freezeLaunch s l l.asked) q = some l') :
    exec (.preemption q) s = .next (if Freeze.slice ∈ l'.frozen ∧ l'.shadow = none ∧ l'.swap = none
      then nextContext (freezeLaunch s l l.asked) l' else freezeLaunch s l l.asked) := by
  have some_ : l.asked.isEmpty = false := by simpa using asked
  show execPreemption q s = _
  simp only [execPreemption, h, some_, frozen, Bool.false_eq_true, if_false, Bool.and_eq_true, Option.isNone_iff_eq_none,
    List.elem_eq_mem, decide_eq_true_eq, and_assoc]
  split <;> rfl

theorem execPreemption_idle (asked : l.asked = []) : exec (.preemption q) s = .next s := by
  show execPreemption q s = _
  simp [execPreemption, h, asked]

/-- A launch frozen for its slice or a lease gives up its plots (R182). -/
theorem execFrozenStateStreamedOut_saves (resident : l.resident = true)
    (why : Freeze.slice ∈ l.frozen ∨ Freeze.forced ∈ l.frozen) :
    exec (.frozenStateStreamedOut q) s = .next (saveLaunch s l) := by
  show execFrozenStateStreamedOut q s = _
  simp [execFrozenStateStreamedOut, h, resident, why]

/-- A saved launch whose rectangles and routes fit is put there (R185). -/
theorem execRestore_fits {r : List (Nat × Nat × Nat)} {p : Placed} {sh : Option (Variant × Placed)} (saved : l.resident = false)
    (noSlice : Freeze.slice ∉ l.frozen) (on : sliceOn s l.vd = true) (rects : restoreRects s l = some r)
    (fits : movePlaces s l r = some (p, sh)) :
    exec (.restore q) s = .next (reportRestore (unfreeze (restoreInto s l p sh) l.lseq) l) := by
  show execRestore q s = _
  simp [execRestore, h, restoreNow, saved, noSlice, on, rects, fits]

theorem execRelocation_fits (runs : l.runs = true) (noSwap : l.swap = none) {u : State}
    (fits : relocate s l (freePlot s l.vd) = some u) : exec (.relocation q) s = .next u := by
  show execRelocation q s = _
  simp [execRelocation, h, runs, noSwap, fits]

end

/-- A relocated launch is resident again (R185): its freeze and its saving keep its number, under which it is put back. -/
theorem launchOf_relocate {s u : State} {l : Launch} {free : Nat → Bool} (h : launchOf s l.lseq = some l)
    (fits : relocate s l free = some u) : ∃ l', launchOf u l.lseq = some l' ∧ l'.resident = true := by
  unfold relocate at fits
  split at fits
  · cases fits
  · rename_i p sh _
    extract_lets s1 at fits
    obtain ⟨l1, h1, number1, -, -⟩ := launchOf_freezeLaunch h [.reloc]
    obtain ⟨l2, h2, number2, -⟩ := launchOf_saveLaunch (l := l1) (s := s1) (number1 ▸ h1) rfl
    obtain ⟨l3, h3, -, resident, -⟩ := launchOf_restored (saveLaunch s1 l1) l2 p sh
    rw [number1] at h2 number2
    simp only [s1, h1, Option.bind_some, number1, h2, Option.map_some, Option.some.injEq] at fits
    subst fits
    exact ⟨l3, number2 ▸ h3, resident⟩

/-- Settles O41, event by event: what each does (`exec…`), and what Marten's books and the plots are after it (`launchOf_…`,
`holderOf_…`). Which parts of a node launch start or fail (log 43) and whether the next context follows at once (log 67) are
the free bits that the events draw. -/
theorem launchEvents : Obligations.LaunchEvents := by
  unfold Obligations.LaunchEvents
  intro s
  refine ⟨fun w s' next => ⟨?fits, ?fails⟩, execQueueRetry_unparks s, ?noLaunch, fun q l h own => ?launch⟩
  case fits =>
    intro f fits
    have hBooks := sameBooks_commit (dropWaiting s' w.ticket) w f
    refine ⟨_, newLaunch (dropWaiting s' w.ticket) w f (s'.lseq + 1), execPlacement_fits next fits, hBooks.lseq, ?_, rfl, rfl,
      rfl, fun p here => holderOf_commit (dropWaiting s' w.ticket) w f here, hBooks.waiting⟩
    exact (hBooks.launchOf _).trans (launchOf_setLaunch _ _)
  case fails =>
    intro st c fails
    have hBooks := sameBooks_attempt s w
    rw [fails] at hBooks
    refine ⟨?_, execPlacement_fails next fails⟩
    rintro rfl queue
    exact ⟨nextWaiting_mem next, hBooks.waiting, hBooks.waiting ▸ execPlacement_parks next fails queue⟩
  case noLaunch =>
    intro none_ parts s1
    refine ⟨fun empty => ?_, fun w part => ⟨fun no => ?_, fun yes => ?_⟩⟩
    · rw [execNodeLaunchStart_zero none_, endWaitingPart_none empty]
    · rw [execNodeLaunchStart_zero none_, endWaitingPart_some part, no]; rfl
    · refine ⟨1 + Config.freeNat (s.free + 2) % 6, (freeStatus_range _).1, (freeStatus_range _).2, ?_⟩
      rw [execNodeLaunchStart_zero none_, endWaitingPart_some part, yes]; rfl
  case launch =>
    subst own
    refine ⟨fun waits resident => ⟨fun ready => ?starts, fun failed => ?ends⟩, execNodeLaunchStart_other h,
      fun done => ?completes, fun notDone => ?runsOn, fun asked => ?frozen, execPreemption_idle h, fun no => ?stays,
      fun resident why => ?saved, fun r p sh saved noSlice on rects fits => ?restored, fun u runs noSwap fits => ?moved⟩
    case starts =>
      have hStarted : launchOf (setLaunch { s with free := s.free + 2 } (startedPart l)) l.lseq = some (startedPart l) :=
        launchOf_setLaunch _ _
      exact ⟨_, startedPart l, execNodeLaunchStart_starts h waits resident ready,
        ((sameBooks_admitAll _ _).launchOf _).trans hStarted, rfl, fun f => by simp [startedPart]⟩
    case ends =>
      exact ⟨_, (freeStatus_range _).1, (freeStatus_range _).2, execNodeLaunchStart_ends h waits resident failed⟩
    case completes =>
      exact ⟨_, (execLaunchComplete_eq h).trans (by rw [done]; rfl), launchOf_endLaunch s l.lseq stOK 0 false⟩
    case runsOn => rw [execLaunchComplete_eq h, notDone]; rfl
    case frozen =>
      obtain ⟨l', h', -, none_, reasons⟩ := launchOf_freezeLaunch h l.asked
      obtain ⟨f, mem⟩ := List.exists_mem_of_ne_nil _ asked
      have isFrozen : l'.frozen ≠ [] := List.ne_nil_of_mem ((reasons f).mpr (.inl mem))
      exact ⟨_, l', h', none_, fun f => (reasons f).mpr, by simp [Launch.runs, isFrozen], execPreemption_asked h asked h'⟩
    case stays => simp [nextContext, no]
    case saved =>
      obtain ⟨l', h', -, away⟩ := launchOf_saveLaunch h rfl
      exact ⟨_, l', execFrozenStateStreamedOut_saves h resident why, h', away, fun p here => holderOf_saveLaunch s l here⟩
    case restored =>
      obtain ⟨l1, h1, number, resident, place, reasons⟩ := launchOf_restored s l p sh
      obtain ⟨l', h', same⟩ := keepsStanding_reportRestore _ l l1 h1 number
      exact ⟨_, l', execRestore_fits h saved noSlice on rects fits, h', same.resident.trans resident, same.place.trans place,
        fun f => same.frozen ▸ reasons f⟩
    case moved => exact ⟨execRelocation_fits h runs noSwap fits, launchOf_relocate h fits⟩

end Sys2Proof.Proofs
end

section
/-!
SUPPORT. The threads and the one being served: what reading memory, loading configurations and putting tokens on channels
leave as they are.
-/
namespace Sys2Proof.Proofs
open Sys2Proof Sys2Proof.Machine Sys2Proof.Laws

/-- The threads, and which of them is being served, stay as they are from one state to another. -/
structure SameThreads (s s' : State) : Prop where
  threads : s'.threads = s.threads
  cur : s'.cur = s.cur

namespace SameThreads

theorem refl (s : State) : SameThreads s s := ⟨rfl, rfl⟩

theorem trans {a b c : State} (h : SameThreads a b) (g : SameThreads b c) : SameThreads a c :=
  ⟨g.threads.trans h.threads, g.cur.trans h.cur⟩

theorem threadOf {s s' : State} (h : SameThreads s s') (tid : Nat) : threadOf s' tid = threadOf s tid := by
  simp [Machine.threadOf, h.threads]

theorem foldl {α : Type} {f : State → α → State} (hf : ∀ s a, SameThreads s (f s a)) (l : List α) (s : State) :
    SameThreads s (l.foldl f s) := by
  induction l generalizing s with
  | nil => exact refl s
  | cons a l ih => exact (hf s a).trans (ih (f s a))

end SameThreads

theorem sameThreads_setPlot (s : State) (p : Nat) (x : Plot) : SameThreads s (setPlot s p x) := ⟨rfl, rfl⟩

theorem sameThreads_setPe (s : State) (p : Nat) (x : PE) : SameThreads s (setPe s p x) := ⟨rfl, rfl⟩

theorem sameThreads_setLaunch (s : State) (l : Launch) : SameThreads s (setLaunch s l) := ⟨rfl, rfl⟩

/-! ## Reads of memory (R81, R271, R412) -/

theorem sameThreads_observe (s : State) (c : Ctx) (k : Kind) (l : Loc) (n : Nat) : SameThreads s (observe s c k l n).1 := by
  unfold observe
  split
  · exact .refl s
  · split
    · exact ⟨rfl, rfl⟩
    · split <;> exact ⟨rfl, rfl⟩

theorem sameThreads_readEffect (s : State) (l : Loc) : SameThreads s (readEffect s l) := by
  rw [readEffect_eq]
  exact ⟨rfl, rfl⟩

theorem sameThreads_loadVA (s : State) (c : Ctx) (k : Kind) (ea n al : Nat) : SameThreads s (loadVA s c k ea n al).1 := by
  unfold loadVA
  split <;> rename_i e <;> have hCheck : SameThreads s _ := ⟨(quiet_dataCheck e).threads, (quiet_dataCheck e).cur⟩
  · exact hCheck.trans ((sameThreads_observe _ c k _ n).trans (sameThreads_readEffect _ _))
  · exact hCheck
  · exact hCheck

theorem sameThreads_readRange (c : Ctx) (fuel : Nat) (s : State) (va n : Nat) : SameThreads s (readRange c fuel s va n).1 := by
  induction fuel generalizing s va n with
  | zero => exact .refl s
  | succ fuel ih =>
    unfold readRange
    extract_lets k
    have hGranule := sameThreads_loadVA s c .read va k 1
    split
    · exact .refl s
    · split <;> rename_i s1 _ e <;> rw [e] at hGranule
      · have hRest := hGranule.trans (ih s1 (va + k) (n - k))
        split
        · rename_i e; rw [e] at hRest; exact hRest
        · exact hRest
      · exact hGranule
      · exact hGranule

theorem sameThreads_martenRead (s : State) (vd va n : Nat) : SameThreads s (martenRead s vd va n).1 :=
  sameThreads_readRange _ _ s va n

theorem sameThreads_readImage (s : State) (vd va : Nat) : SameThreads s (readImage s vd va).1 := by
  unfold readImage
  split
  · exact .refl s
  · have hHead := sameThreads_martenRead s vd va 64
    split <;> rename_i s1 _ e <;> rw [e] at hHead
    · exact hHead
    · extract_lets len
      have hImage := hHead.trans (sameThreads_martenRead s1 vd va len)
      split <;> rename_i e <;> rw [e] at hImage
      · exact hImage
      · split <;> exact hImage

/-! ## Shadow images (R54, R320) -/

theorem sameThreads_shadowFor (s : State) (l : Launch) (va f : Nat) : SameThreads s (shadowFor s l va f).1 := by
  have hRead := sameThreads_readImage s l.vd va
  unfold shadowFor
  split <;> rename_i e <;> rw [e] at hRead
  · exact hRead
  · split
    · exact hRead
    · split
      · exact hRead
      · split
        · exact hRead
        · split <;> exact hRead

theorem sameThreads_loadShadow (s : State) (l : Launch) (v : Variant) (p : Placed) : SameThreads s (loadShadow s l v p) := by
  unfold loadShadow
  extract_lets g l' s'
  have hLaunch : SameThreads s s' := sameThreads_setLaunch s l'
  refine hLaunch.trans (.trans (.foldl (fun s plot => ?_) p.here s') ⟨rfl, rfl⟩)
  extract_lets x unheld s1
  have hPlot : SameThreads s s1 := sameThreads_setPlot s plot _
  exact hPlot.trans (.foldl (fun s e => sameThreads_setPe s _ _) _ s1)

/-! ## Swaps (R186, R397, R398) -/

theorem sameThreads_emitTok (s : State) (lseq k : Nat) (t : Token) : SameThreads s (emitTok s lseq k t) := by
  unfold emitTok
  split
  · exact .refl s
  · unfold addHolder
    exact iteInduction (fun _ => ⟨rfl, rfl⟩) fun _ => ⟨rfl, rfl⟩

theorem sameThreads_freshSwap (s : State) (l : Launch) : SameThreads s (freshSwap s l) := ⟨rfl, rfl⟩

theorem sameThreads_swapSources (s : State) (l : Launch) (tid : Nat) : SameThreads s (swapSources s l tid) :=
  .trans (b := setLaunch s _) ⟨rfl, rfl⟩ (.foldl (fun s k => sameThreads_emitTok s _ k _) _ _)

/-- A swap begins with the thread being served that asked for it: of other threads, SBINDs wait for it (R397). -/
theorem cur_swapStarted (s : State) (l l' : Launch) (q tid : Nat) :
    (swapSources (freshSwap (holdBinds s q) l) l' tid).cur = s.cur :=
  ((sameThreads_freshSwap _ l).trans (sameThreads_swapSources _ l' tid)).cur

end Sys2Proof.Proofs
end

section
/-!
SUPPORT. The graph commands (R298, R318 to R323): what turns one away, what each does to the target that it names, and the
statement about them all (O39).
-/
namespace Sys2Proof.Proofs
open Sys2Proof Sys2Proof.Machine Sys2Proof.Laws

/-! ## The block (R318) -/

/-- The fields of a block whose reserved bytes are zero: the target, and what GLOADSH alone reads. -/
def blockFields (b : Nat) : Nat × Nat × Nat := (b % 2 ^ 64, b / 2 ^ 64 % 2 ^ 64, b / 2 ^ 128 % 2 ^ 8)

theorem parseBlock_eq (b : Nat) (shadow : Bool) : parseBlock b shadow =
    if b / 2 ^ 136 % 2 ^ 120 ≠ 0 ∨ shadow = false ∧ b / 2 ^ 64 % 2 ^ 72 ≠ 0 then none else some (blockFields b) := by
  simp [parseBlock, blockFields, fld]

theorem parseBlock_reserved {b : Nat} (h : b / 2 ^ 136 % 2 ^ 120 ≠ 0) (shadow : Bool) : parseBlock b shadow = none := by
  rw [parseBlock_eq, if_pos (.inl h)]

theorem parseBlock_image {b : Nat} (h : b / 2 ^ 64 % 2 ^ 72 ≠ 0) : parseBlock b false = none := by
  rw [parseBlock_eq, if_pos (.inr ⟨rfl, h⟩)]

theorem parseBlock_shadow {b : Nat} (h : b / 2 ^ 136 % 2 ^ 120 = 0) : parseBlock b true = some (blockFields b) := by
  rw [parseBlock_eq, if_neg]
  rintro (reserved | ⟨other, -⟩)
  · exact reserved h
  · cases other

/-- The commands but GLOADSH take a block that is zero past its target. -/
theorem parseBlock_target {b : Nat} (h : b / 2 ^ 64 = 0) : parseBlock b false = some (blockFields b) := by
  rw [parseBlock_eq, if_neg]
  omega

/-- A block that is well formed names the launch in its low 8 bytes. -/
theorem parseBlock_some {b : Nat} {shadow : Bool} {x : Nat × Nat × Nat} (h : parseBlock b shadow = some x) :
    x = blockFields b := by
  rw [parseBlock_eq] at h
  split at h
  · cases h
  · exact (Option.some.inj h).symm

/-! ## Targets (R318, R320) -/

theorem mayName_iff {t : Thread} {own l : Launch} : mayName t own l = true ↔
    if t.mode then l.vd = own.vd else l.lseq = t.lseq ∨ ∃ x y z w, l.origin = .thread t.lseq x y z w := by
  unfold mayName
  split
  · simp
  · cases l.origin with
    | host tag => simp
    | thread q x y z w => simp

theorem heldFrozen_iff {l : Launch} : l.heldFrozen = true ↔ Freeze.owl ∈ l.frozen ∨ Freeze.drain ∈ l.frozen := by
  simp [Launch.heldFrozen]

/-- A launch that runs is not held. -/
theorem not_heldFrozen_of_runs {l : Launch} (h : l.runs = true) : l.heldFrozen = false := by
  have free : l.frozen = [] := by
    simp only [Launch.runs, Bool.and_eq_true, List.isEmpty_iff] at h
    exact h.1.1
  simp [Launch.heldFrozen, free]

/-- The launch that a block's target field names for a thread: 0 is its own. -/
def targetOf (t : Thread) (b : Nat) : Nat := if b % 2 ^ 64 = 0 then t.lseq else b % 2 ^ 64

/-! ## The frame of the five commands (R298, R318; log 28) -/

/-- The five commands that read a block. -/
def blockCommands (a u : Reg) : List Instr := [.gloadsh a u, .gswap a u, .gdrain a u, .gresume a u, .gend a u]

/-- What the frame answers whatever its action, each of the five answers. -/
theorem exec_blockCommand {a u : Reg} {i : Instr} {s : State} {r : Out} (mem : i ∈ blockCommands a u)
    (h : ∀ shadow k, graphCommand a u i shadow s k = r) : exec i s = r := by
  simp only [blockCommands, List.mem_cons, List.not_mem_nil, or_false] at mem
  rcases mem with rfl | rfl | rfl | rfl | rfl
  · show execGloadsh a u s = r; exact h true _
  · show execGswap a u s = r; exact h false _
  · show execGdrain a u s = r; exact h false _
  · show execGresume a u s = r; exact h false _
  · show execGend a u s = r; exact h false _

/-- Only GLOADSH reads more of the block than its target. -/
theorem exec_targetCommand {a u : Reg} {i : Instr} {s : State} {r : Out} (mem : i ∈ (blockCommands a u).tail)
    (h : ∀ k, graphCommand a u i false s k = r) : exec i s = r := by
  simp only [blockCommands, List.tail_cons, List.mem_cons, List.not_mem_nil, or_false] at mem
  rcases mem with rfl | rfl | rfl | rfl
  · show execGswap a u s = r; exact h _
  · show execGdrain a u s = r; exact h _
  · show execGresume a u s = r; exact h _
  · show execGend a u s = r; exact h _

/-- A block's read leaves the thread that is served, and the launches. -/
theorem cur_of_loadBlock {s s' : State} {c : Ctx} {ea n al : Nat} {r : Checked Nat} (h : loadBlock s c ea n al = (s', r)) :
    s'.cur = s.cur := by
  have same := (sameThreads_loadVA s c .read ea n al).cur
  rwa [show loadVA s c .read ea n al = (s', r) from h] at same

theorem launchOf_of_loadBlock {s s' : State} {c : Ctx} {ea n al : Nat} {r : Checked Nat}
    (h : loadBlock s c ea n al = (s', r)) (q : Nat) : launchOf s' q = launchOf s q := by
  have same := (sameBooks_loadVA s c .read ea n al).launchOf q
  rwa [show loadVA s c .read ea n al = (s', r) from h] at same

section
variable {s s' : State} {t : Thread} {own : Launch} {a u : Reg}
variable (serving : Serving s t [a, u]) (hOwn : launchOf s t.lseq = some own)
include serving hOwn

/-- A block that cannot be read traps with the cause of its read (R271, R298). -/
theorem graphCommand_unread {c v : Nat} (read : loadBlock s (threadCtx s t) (t.g a).toNat 32 32 = (s', .bad c v)) (i : Instr)
    (shadow : Bool) (k : State → Nat → Thread → Launch → Nat → Nat → Nat → Out) :
    graphCommand a u i shadow s k = trapped s' t c t.pc (BitVec.ofNat 64 v) := by
  rw [graphCommand, command_serving serving.1 serving.2 hOwn, read, withChecked_bad, trapped, cur_of_loadBlock read]

variable {b : Nat} (read : loadBlock s (threadCtx s t) (t.g a).toNat 32 32 = (s', .ok b))
include read

/-- A command whose block is malformed, that names no launch or one that its thread may not name, or whose USER field is not
g0, is turned away with the first word in TVAL (R298, R318). -/
theorem graphCommand_refused {i : Instr} {shadow : Bool}
    (no : ∀ l, parseBlock b shadow = some (blockFields b) → launchOf s (targetOf t b) = some l → mayName t own l = true →
      u ≠ 0#6) (k : State → Nat → Thread → Launch → Nat → Nat → Nat → Out) :
    graphCommand a u i shadow s k = trapped s' t 0x80 t.pc (wordOf i) := by
  have trap_eq : cmdTrap s' s.cur t 0x80 i = trapped s' t 0x80 t.pc (wordOf i) := by
    rw [cmdTrap, trapped, cur_of_loadBlock read]
  rw [graphCommand, command_serving serving.1 serving.2 hOwn, read, withChecked_ok]
  split
  · exact trap_eq
  · rename_i q va f parsed
    obtain ⟨rfl, rfl, rfl⟩ : q = b % 2 ^ 64 ∧ va = _ ∧ f = _ := by simpa [blockFields] using parseBlock_some parsed
    split
    · exact trap_eq
    · rename_i l target
      rw [launchOf_of_loadBlock read] at target
      rw [if_neg fun ⟨may, user⟩ => no l parsed target may user]
      exact trap_eq

end

/-- GDRAIN is one word (R323). -/
@[simp] theorem lenOf_gdrain (a u : Reg) : lenOf (.gdrain a u) = 4#64 := rfl

section
variable {s s' : State} {t : Thread} {own l : Launch} {a : Reg} {b : Nat}
variable (serving : Serving s t [a, 0#6]) (hOwn : launchOf s t.lseq = some own)
  (read : loadBlock s (threadCtx s t) (t.g a).toNat 32 32 = (s', .ok b))
  (target : launchOf s (targetOf t b) = some l) (may : mayName t own l = true)
include serving hOwn read target may

/-- A command that passes its checks acts on its target. -/
theorem graphCommand_acts {i : Instr} {shadow : Bool} (parsed : parseBlock b shadow = some (blockFields b))
    (k : State → Nat → Thread → Launch → Nat → Nat → Nat → Out) :
    graphCommand a 0#6 i shadow s k = k s' s'.cur t l (b % 2 ^ 64) (b / 2 ^ 64 % 2 ^ 64) (b / 2 ^ 128 % 2 ^ 8) := by
  have target' : launchOf s' (if b % 2 ^ 64 = 0 then t.lseq else b % 2 ^ 64) = some l :=
    (launchOf_of_loadBlock read _).trans target
  have parsed' : parseBlock b shadow = some (b % 2 ^ 64, b / 2 ^ 64 % 2 ^ 64, b / 2 ^ 128 % 2 ^ 8) := parsed
  rw [graphCommand, command_serving serving.1 serving.2 hOwn, read, withChecked_ok, cur_of_loadBlock read]
  simp only [parsed', target', may, and_self, if_true]

/-! ## GLOADSH (R320) -/

section
variable (reserved : b / 2 ^ 136 % 2 ^ 120 = 0)
include reserved

theorem execGloadsh_held (held : l.heldFrozen = true) :
    exec (.gloadsh a 0#6) s = trapped s' t 0x80 t.pc (wordOf (.gloadsh a 0#6)) := by
  show execGloadsh a 0#6 s = _
  rw [execGloadsh, graphCommand_acts serving hOwn read target may (parseBlock_shadow reserved), if_pos held]
  rfl

/-- GLOADSH is a release at scope 4, and waits for its shadow image. -/
theorem execGloadsh_waits (free : l.heldFrozen = false) :
    exec (.gloadsh a 0#6) s = waiting (showStores s' s.cur 4) t
      (.gloadsh l.lseq (b / 2 ^ 64 % 2 ^ 64) (b / 2 ^ 128 % 2 ^ 8) (wordOf (.gloadsh a 0#6))) := by
  show execGloadsh a 0#6 s = _
  rw [execGloadsh, graphCommand_acts serving hOwn read target may (parseBlock_shadow reserved), if_neg (by simp [free]),
    ← cur_of_loadBlock read]
  rfl

end

section
variable (only : b / 2 ^ 64 = 0)
include only

theorem targetCommand_acts {i : Instr} (k : State → Nat → Thread → Launch → Nat → Nat → Nat → Out) :
    graphCommand a 0#6 i false s k = k s' s'.cur t l (b % 2 ^ 64) (b / 2 ^ 64 % 2 ^ 64) (b / 2 ^ 128 % 2 ^ 8) :=
  graphCommand_acts serving hOwn read target may (parseBlock_target only) k

/-! ## GSWAP (R322, R397) -/

/-- Behind a swap under way, GSWAP waits for that one. -/
theorem execGswap_follows (under : l.swap ≠ none) : exec (.gswap a 0#6) s = waiting s' t (.gswap l.lseq) := by
  show execGswap a 0#6 s = _
  rw [execGswap, targetCommand_acts serving hOwn read target may only,
    if_pos (Option.isSome_iff_ne_none.mpr under)]
  rfl

/-- Without a shadow image, with a port bound, or frozen, a launch does not swap. -/
theorem execGswap_refused (idle : l.swap = none)
    (no : l.shadow = none ∨ l.frozen ≠ [] ∨ ∃ p ∈ l.ports, p.2.active ≠ none ∨ p.2.waiting ≠ none) :
    exec (.gswap a 0#6) s = trapped s' t 0x80 t.pc (wordOf (.gswap a 0#6)) := by
  have refused : (l.shadow.isNone || l.ports.any (fun p => p.2.active.isSome || p.2.waiting.isSome) || !l.frozen.isEmpty) = true := by
    simpa [Option.isSome_iff_ne_none, or_assoc, or_comm, or_left_comm] using no
  show execGswap a 0#6 s = _
  rw [execGswap, targetCommand_acts serving hOwn read target may only, if_neg (by simp [idle]),
    if_pos refused]
  rfl

/-- With a shadow image and no port bound, a launch that runs begins its swap (R322). -/
theorem execGswap_starts (idle : l.swap = none) (shadow : l.shadow ≠ none) (free : l.frozen = [])
    (unbound : ∀ p ∈ l.ports, p.2.active = none ∧ p.2.waiting = none) :
    exec (.gswap a 0#6) s = waiting (swapSources (freshSwap (holdBinds s' l.lseq) l)
      ((launchOf (freshSwap (holdBinds s' l.lseq) l) l.lseq).getD l) s.cur) t (.gswap l.lseq) := by
  have fits : ¬(l.shadow.isNone || l.ports.any (fun p => p.2.active.isSome || p.2.waiting.isSome) || !l.frozen.isEmpty) = true := by
    have ports : l.ports.any (fun p => p.2.active.isSome || p.2.waiting.isSome) = false :=
      List.any_eq_false.mpr fun p mem => by simp [unbound p mem]
    simp [ports, shadow, free]
  show execGswap a 0#6 s = _
  rw [execGswap, targetCommand_acts serving hOwn read target may only, if_neg (by simp [idle]), if_neg fits,
    waiting, cur_swapStarted, cur_of_loadBlock read]
  rfl

/-! ## GDRAIN (R323; log 51) -/

/-- GDRAIN does not take 0 for its thread's own launch. -/
theorem execGdrain_refused (zero : b % 2 ^ 64 = 0) :
    exec (.gdrain a 0#6) s = trapped s' t 0x80 t.pc (wordOf (.gdrain a 0#6)) := by
  show execGdrain a 0#6 s = _
  rw [execGdrain, targetCommand_acts serving hOwn read target may only, if_pos zero]
  rfl

/-- GDRAIN of a launch that nothing freezes asks for its pre-emption, and waits for it. -/
theorem execGdrain_asks (named : b % 2 ^ 64 ≠ 0) (free : l.frozen = []) (unasked : Freeze.drain ∉ l.asked) :
    exec (.gdrain a 0#6) s = waiting (setLaunch s' { l with asked := .drain :: l.asked }) t (.gdrain l.lseq) := by
  show execGdrain a 0#6 s = _
  rw [execGdrain, targetCommand_acts serving hOwn read target may only, if_neg named, if_neg (by simp [free])]
  simp [unasked, wait, waiting]

/-- GDRAIN of a launch frozen for another reason holds it for the drain as well. -/
theorem execGdrain_holds (named : b % 2 ^ 64 ≠ 0) (frozen : l.frozen ≠ []) (undrained : Freeze.drain ∉ l.frozen) :
    exec (.gdrain a 0#6) s = completed (setLaunch s' { l with frozen := .drain :: l.frozen }) t 4#64 := by
  show execGdrain a 0#6 s = _
  rw [execGdrain, targetCommand_acts serving hOwn read target may only, if_neg named, if_pos (by simp [frozen])]
  simp [undrained, done, completed]

/-! ## GRESUME (R181, R323) -/

theorem execGresume_eq : exec (.gresume a 0#6) s = completed (resumeLaunch s' l) t 4#64 := by
  have hCur : (resumeLaunch s' l).cur = s'.cur := by
    unfold resumeLaunch
    split <;> rfl
  show execGresume a 0#6 s = _
  rw [execGresume, targetCommand_acts serving hOwn read target may only, completed, hCur]
  rfl

/-! ## GEND (R323) -/

/-- GEND of another launch completes. -/
theorem execGend_other (other : l.lseq ≠ t.lseq) :
    exec (.gend a 0#6) s = .next (setThread (endLaunch s' l.lseq 0 0 false) s.cur (t.next 4#64)) := by
  show execGend a 0#6 s = _
  rw [execGend, targetCommand_acts serving hOwn read target may only, if_neg other, cur_of_loadBlock read]
  rfl

/-- GEND of the thread's own launch ends the thread with it. -/
theorem execGend_own (same : l.lseq = t.lseq) : exec (.gend a 0#6) s = .next (endLaunch s' l.lseq 0 0 false) := by
  show execGend a 0#6 s = _
  rw [execGend, targetCommand_acts serving hOwn read target may only, if_pos same]
  rfl

end

end

/-- A held launch restarts: Owl and the drain hold it no more, its other reasons stay (R181, R323). -/
theorem resumeLaunch_held {l : Launch} (held : l.heldFrozen = true) (s : State) :
    ∃ l' : Launch, resumeLaunch s l = setLaunch s l' ∧ l' = { l with frozen := l'.frozen, idle := l'.idle } ∧
      ∀ f, f ∈ l'.frozen ↔ f ∈ l.frozen ∧ f ≠ .owl ∧ f ≠ .drain :=
  ⟨_, if_pos held, rfl, fun f => by simp⟩

theorem resumeLaunch_free {l : Launch} (free : l.heldFrozen = false) (s : State) : resumeLaunch s l = s := by
  simp [resumeLaunch, free]

/-! ## GLAUNCH (R319) -/

/-- The ticket of the next launch that waits for Marten. -/
def nextTicket (s : State) : Nat := 1 + s.waiting.foldl (fun n w => Nat.max n w.ticket) 0

/-- A launch whose header is read waits for Marten behind those that do. -/
theorem submit_read {s s' : State} {vd gid va h : Nat} {o : Origin} {partmap : Option (List Nat)}
    (read : martenRead s vd va 64 = (s', .ok h)) : submit s vd gid va o partmap = { s' with
      waiting := s'.waiting ++ [{ ticket := nextTicket s, hdr := parseHeader h, gid := gid, vd := vd, origin := o,
                                  parked := false, again := false, partmap := partmap }] } := by
  have books := sameBooks_martenRead s vd va 64
  rw [read] at books
  rw [submit, read, nextTicket, ← books.waiting]

/-- GLAUNCH is a release at scope 4; its thread waits for the launch that it submits. -/
theorem execGlaunch_submits {s s' : State} {t : Thread} {own : Launch} {a u : Reg} {h : Nat} (serving : Serving s t [a, u])
    (hOwn : launchOf s t.lseq = some own)
    (read : martenRead (setThread (showStores s s.cur 4) s.cur { t with stat := .waiting (.glaunch (nextTicket s)) }) own.vd
      (t.g a).toNat 64 = (s', .ok h)) :
    exec (.glaunch a u) s = .next { s' with
      waiting := s'.waiting ++ [{ ticket := nextTicket s, hdr := parseHeader h, gid := own.gid, vd := own.vd, parked := false,
                                  again := false, origin := .thread t.lseq s.cur t.plot t.slot (t.g u), partmap := none }] } := by
  show execGlaunch a u s = _
  rw [execGlaunch, command_serving serving.1 serving.2 hOwn]
  exact congrArg Host.Outcome.next (submit_read read)

/-! ## SHADOW_IMAGE_LOAD (R320) -/

section
variable {s s' : State} {tid q image factor : Nat} {word : Word} {x : Thread} {l : Launch}
variable (thread : threadOf s tid = some x) (waits : x.stat = .waiting (.gloadsh q image factor word))
  (target : launchOf s q = some l) (targetRuns : l.runs = true) (ownRuns : runs s x.lseq = true) (noSwap : l.swap = none)
include thread waits target targetRuns ownRuns noSwap

/-- A shadow image that fits is loaded, and its thread goes on. -/
theorem execShadowImageLoad_loads {v : Variant} {p : Placed} (fits : shadowFor s l image factor = (s', .ok (v, p))) :
    exec (.shadowImageLoad tid) s = goesOn (loadShadow s' l v p) tid x 4#64 := by
  have hRead := sameThreads_shadowFor s l image factor
  rw [fits] at hRead
  have standing : threadOf (loadShadow s' l v p) tid = some x :=
    ((hRead.trans (sameThreads_loadShadow s' l v p)).threadOf tid).trans thread
  show execShadowImageLoad tid s = _
  simp [execShadowImageLoad, thread, waits, target, ownRuns, not_heldFrozen_of_runs targetRuns, targetRuns, noSwap, fits,
    completeWait, standing, goesOn]

/-- One that does not fit traps, with the status of the failure in TVAL. -/
theorem execShadowImageLoad_fails {st : Nat} (fails : shadowFor s l image factor = (s', .error st)) :
    exec (.shadowImageLoad tid) s = .next (trap s' tid x 0x80 x.pc (BitVec.ofNat 64 st)) := by
  show execShadowImageLoad tid s = _
  simp [execShadowImageLoad, thread, waits, target, ownRuns, not_heldFrozen_of_runs targetRuns, targetRuns, noSwap, fails]

end

/-- Settles O39: what turns a command away is refused by the frame that the five share, whatever its action
(`graphCommand_unread`, `graphCommand_refused`); past it each acts on its target by its own rule (`exec…`). A launch held for
the drain beside another reason is the model's reading (log 51). -/
theorem graphCommands : Obligations.GraphCommands := by
  unfold Obligations.GraphCommands
  intro s t own a u serving hOwn five bad
  refine ⟨fun s' c v read i mem => ?unread, fun s' b read user i mem => ?user, fun s' b user read => ?block,
    fun q st c b => launchOf_endLaunch s q st c b, ?glaunch, ?shadow⟩
  case unread => exact exec_blockCommand mem (graphCommand_unread serving hOwn read i)
  case user => exact exec_blockCommand mem fun _ => graphCommand_refused serving hOwn read fun _ _ _ _ => user
  case glaunch =>
    rintro w s1 s2 h rfl rfl read
    exact execGlaunch_submits serving hOwn read
  case shadow =>
    intro tid x q image factor word l thread waits target targetRuns ownRuns noSwap
    exact ⟨fun s' v p => execShadowImageLoad_loads thread waits target targetRuns ownRuns noSwap,
      fun s' st => execShadowImageLoad_fails thread waits target targetRuns ownRuns noSwap⟩
  case block =>
    subst user
    intro q image factor
    refine ⟨fun reserved i mem => ?reserved, fun other i mem => ?other, fun gone i mem => ?gone, fun l target => ?target⟩
    case reserved =>
      exact exec_blockCommand mem fun shadow => graphCommand_refused serving hOwn read fun _ parsed =>
        nomatch (parseBlock_reserved reserved shadow).symm.trans parsed
    case other =>
      exact exec_targetCommand mem (graphCommand_refused serving hOwn read fun _ parsed =>
        nomatch (parseBlock_image other).symm.trans parsed)
    case gone =>
      exact exec_blockCommand mem fun _ => graphCommand_refused serving hOwn read fun _ _ target =>
        nomatch gone.symm.trans target
    case target =>
      intro own_ held
      have free (notHeld : ¬held) : l.heldFrozen = false := Bool.eq_false_iff.mpr (mt heldFrozen_iff.mp notHeld)
      refine ⟨fun foreign i mem => ?foreign, fun may reserved => ?gloadsh, fun may only => ?acts⟩
      case foreign =>
        refine exec_blockCommand mem fun _ => graphCommand_refused serving hOwn read fun l' _ target' may => ?_
        obtain rfl := Option.some.inj (target.symm.trans target')
        exact absurd (mayName_iff.mp may) foreign
      case gloadsh =>
        exact ⟨fun h => execGloadsh_held serving hOwn read target (mayName_iff.mpr may) reserved (heldFrozen_iff.mpr h),
          fun h => execGloadsh_waits serving hOwn read target (mayName_iff.mpr may) reserved (free h)⟩
      case acts =>
        have may := mayName_iff.mpr may
        refine ⟨execGswap_follows serving hOwn read target may only, execGswap_refused serving hOwn read target may only,
          execGswap_starts serving hOwn read target may only, execGdrain_refused serving hOwn read target may only,
          execGdrain_asks serving hOwn read target may only, execGdrain_holds serving hOwn read target may only,
          fun h => ?resumes, fun h => ?runsOn, execGend_other serving hOwn read target may only,
          execGend_own serving hOwn read target may only⟩
        case resumes =>
          obtain ⟨l', resumed, same, reasons⟩ := resumeLaunch_held (heldFrozen_iff.mpr h) s'
          exact ⟨l', resumed ▸ execGresume_eq serving hOwn read target may only, same, reasons⟩
        case runsOn =>
          exact (execGresume_eq serving hOwn read target may only).trans (by rw [resumeLaunch_free (free h)])

end Sys2Proof.Proofs
end

section
/-!
SUPPORT. Scale words and the scale file (R188, R362 to R366, R369): where a word is turned away by a miscompare or a shared
destination, what SREAD, SBIND.S and SFREE do, and the statement about them all (O31).
-/
namespace Sys2Proof.Proofs
open Sys2Proof Sys2Proof.Machine Sys2Proof.Laws

/-! ## Operands (R363) -/

section
variable {x : Plot} {n m : Nat} {ns : List Nat} {v : BitVec 32} {vs : List (BitVec 32)}

/-- The two copies of a name's entry differ. -/
def CopiesDiffer (x : Plot) (n : Nat) : Prop := (srfGet x (nameEntry x n)).value ≠ (srfGet x (nameEntry x n)).dup

theorem readScale_differ (h : CopiesDiffer x n) : readScale x n = none := if_neg h

theorem readScale_agree (h : (srfGet x (nameEntry x n)).value = (srfGet x (nameEntry x n)).dup) :
    readScale x n = some (srfGet x (nameEntry x n)).value := if_pos h

theorem readScale_not_differ (h : ¬CopiesDiffer x n) : readScale x n = some (srfGet x (nameEntry x n)).value :=
  readScale_agree (Decidable.not_not.mp h)

/-- The first name of an operand list miscompares: it is the error, whatever follows. -/
theorem readScales_head_differs (h : CopiesDiffer x n) : readScales x (n :: ns) = .error n := by
  simp only [readScales, readScale_differ h]

/-- The first name agrees and the second miscompares: the second is the error. -/
theorem readScales_second_differs (agree : ¬CopiesDiffer x n) (differ : CopiesDiffer x m) :
    readScales x (n :: m :: ns) = .error m := by
  simp only [readScales, readScale_not_differ agree, readScale_differ differ]

/-- Names whose copies all agree are read without an error. -/
theorem readScales_agree (h : ∀ n ∈ ns, ¬CopiesDiffer x n) : ∃ vs, readScales x ns = .ok vs := by
  induction ns with
  | nil => exact ⟨[], rfl⟩
  | cons n ns ih =>
    obtain ⟨vs, read⟩ := ih fun m mem => h m (List.mem_cons_of_mem n mem)
    exact ⟨(srfGet x (nameEntry x n)).value :: vs, by
      simp only [readScales, readScale_not_differ (h n List.mem_cons_self), read]⟩

end

/-! ## Scale words (R366) -/

section
variable {s : State} {t : Thread} {regs : List Reg} (serving : Serving s t regs)
include serving

theorem scaleOp_miscompares {ops : List SName} {n : Nat} (read : readScales (plotOf s t.plot) (ops.map (·.toNat)) = .error n)
    (i : Instr) (d : SName) (f : Thread → List (BitVec 32) → BitVec 32 × Nat) :
    scaleOp i regs d ops f s = scaleMiscompare s s.cur t n := by
  simp only [scaleOp, instr_serving serving.1 serving.2, read]

theorem scaleOp_shared {ops : List SName} {vs : List (BitVec 32)} {d : SName}
    (read : readScales (plotOf s t.plot) (ops.map (·.toNat)) = .ok vs)
    (shared : 1 < (srfGet (plotOf s t.plot) (nameEntry (plotOf s t.plot) d.toNat)).ref) (i : Instr)
    (f : Thread → List (BitVec 32) → BitVec 32 × Nat) :
    scaleOp i regs d ops f s = trapped s t 0x62 t.pc (BitVec.ofNat 64 d.toNat) := by
  simp only [scaleOp, instr_serving serving.1 serving.2, read, if_pos shared, trapped, BitVec.ofNat_toNat]

end

/-- The scale words that read `a` first. -/
def readsScale (d a b : SName) (bf16 : Bool) (rm : BitVec 2) : List Instr :=
  [.smul d a b, .smax d a b, .srcp d a, .sexp2 d a, .scopy d a, .scvt d a bf16 rm]

/-- Each of them is one operation on its destination, whose operands are `a` and at most `b`. -/
theorem exec_readsScale {d a b : SName} {bf16 : Bool} {rm : BitVec 2} {i : Instr} (mem : i ∈ readsScale d a b bf16 rm)
    (s : State) : ∃ ops f, (∀ n ∈ ops, n = a ∨ n = b) ∧ exec i s = scaleOp i [] d (a :: ops) f s := by
  simp only [readsScale, List.mem_cons, List.not_mem_nil, or_false] at mem
  have one : ∀ n ∈ ([] : List SName), n = a ∨ n = b := by simp
  have two : ∀ n ∈ [b], n = a ∨ n = b := by simp
  rcases mem with rfl | rfl | rfl | rfl | rfl | rfl
  · exact ⟨[b], _, two, show execSmul d a b s = _ from rfl⟩
  · exact ⟨[b], _, two, show execSmax d a b s = _ from rfl⟩
  · exact ⟨[], _, one, show execSrcp d a s = _ from rfl⟩
  · exact ⟨[], _, one, show execSexp2 d a s = _ from rfl⟩
  · exact ⟨[], _, one, show execScopy d a s = _ from rfl⟩
  · exact ⟨[], _, one, show execScvt d a bf16 rm s = _ from rfl⟩

/-! ## SREAD, SBIND.S and SFREE (R362, R364, R365, R369) -/

section
variable {s : State} {t : Thread} {d a : Reg} {n : SName}

theorem execSread_miscompares (serving : Serving s t [d]) (differ : CopiesDiffer (plotOf s t.plot) n.toNat) :
    exec (.sread d n) s = scaleMiscompare s s.cur t n.toNat := by
  show execSread d n s = _
  simp only [execSread, instr_serving serving.1 serving.2, readScale_differ differ]

theorem execSread_reads (serving : Serving s t [d]) :
    let m := srfGet (plotOf s t.plot) (nameEntry (plotOf s t.plot) n.toNat)
    m.value = m.dup → exec (.sread d n) s = completed s (t.setG d (BitVec.ofNat 64
      (m.value.toNat + 2 ^ 32 * seenGen (plotOf s t.plot) n.toNat + 2 ^ 40 * m.ref))) 4#64 := by
  intro m agree
  show execSread d n s = _
  simp only [execSread, instr_serving serving.1 serving.2, readScale_agree agree, m, Nat.mul_comm (2 ^ 32), Nat.mul_comm (2 ^ 40)]
  rfl

theorem execSbindS_binds (serving : Serving s t [d, a]) (lt : (t.g a).toNat < 256)
    (free : (srfGet (plotOf s t.plot) (nameEntry (plotOf s t.plot) (t.g a).toNat)).ref = 0) :
    let p := plotOf s t.plot
    let k := (t.g a).toNat
    let p' := bindEntry p (nameEntry p k) scaleOne
    exec (.sbindS d a) s = completed (setPlot s t.plot p')
      ({ t with pins := addNat t.pins k }.setG d (BitVec.ofNat 64 (16 * k + seenGen p' k))) 4#64 := by
  intro p k p'
  have named : ¬256 ≤ (t.g a).toNat := Nat.not_le_of_lt lt
  show execSbindS d a s = _
  simp only [execSbindS, instr_serving serving.1 serving.2, if_neg named, free, ne_eq, not_true_eq_false, if_false,
    Nat.mul_comm _ 16]
  rfl

theorem execSbindS_traps (serving : Serving s t [d, a]) (bad : 256 ≤ (t.g a).toNat ∨
    (srfGet (plotOf s t.plot) (nameEntry (plotOf s t.plot) (t.g a).toNat)).ref ≠ 0) :
    exec (.sbindS d a) s = trapped s t 0x62 t.pc (t.g a) := by
  show execSbindS d a s = _
  simp only [execSbindS, instr_serving serving.1 serving.2, BitVec.ofNat_toNat, BitVec.setWidth_eq]
  by_cases named : 256 ≤ (t.g a).toNat
  · rw [if_pos named]; rfl
  · rw [if_neg named, if_pos (bad.resolve_left named)]; rfl

theorem execSfree_releases (serving : Serving s t [a]) (lt : (t.g a).toNat < 256) (pinned : t.pins.elem (t.g a).toNat = true) :
    exec (.sfree a) s = completed
      (setPlot s t.plot (dropRef (plotOf s t.plot) (nameEntry (plotOf s t.plot) (t.g a).toNat)))
      { t with pins := t.pins.filter (· != (t.g a).toNat) } 4#64 := by
  have ok : ¬(256 ≤ (t.g a).toNat ∨ t.pins.elem (t.g a).toNat = false) := by
    rintro (h | h)
    · exact Nat.not_le_of_lt lt h
    · exact Bool.noConfusion (pinned.symm.trans h)
  show execSfree a s = _
  simp only [execSfree, instr_serving serving.1 serving.2, if_neg ok]
  rfl

theorem execSfree_traps (serving : Serving s t [a]) (bad : 256 ≤ (t.g a).toNat ∨ t.pins.elem (t.g a).toNat = false) :
    exec (.sfree a) s = trapped s t 0x63 t.pc (t.g a) := by
  show execSfree a s = _
  simp only [execSfree, instr_serving serving.1 serving.2, if_pos bad]
  rfl

end

/-- Settles O31: the operands are read in order before the destination's holders are counted (`scaleOp_miscompares`,
`scaleOp_shared`); SREAD, SBIND.S and SFREE each by its own rule (`exec…`). -/
theorem scaleTrapsAndBindings : Obligations.ScaleTrapsAndBindings := by
  unfold Obligations.ScaleTrapsAndBindings
  refine ⟨?words, ?bindings⟩
  case words =>
    intro s t r d a b bf16 rm p entry differs miscompare reads shared
    refine ⟨fun serving ha i mem => ?first, fun serving ha hb => ?second, fun serving ha hb held i mem => ?shared,
      fun serving held => ?moved, fun serving ha => execSread_miscompares serving ha⟩
    case first =>
      obtain ⟨ops, f, -, isOp⟩ := exec_readsScale mem s
      exact isOp.trans (scaleOp_miscompares serving (ops := a :: ops) (readScales_head_differs ha) i d f)
    case second =>
      have read : readScales p ([a, b].map (·.toNat)) = .error b.toNat := readScales_second_differs ha hb
      exact ⟨show execSmul d a b s = _ from scaleOp_miscompares serving read _ d _,
        show execSmax d a b s = _ from scaleOp_miscompares serving read _ d _⟩
    case shared =>
      obtain ⟨ops, f, two, isOp⟩ := exec_readsScale mem s
      obtain ⟨vs, read⟩ : ∃ vs, readScales p ((a :: ops).map (·.toNat)) = .ok vs := by
        refine readScales_agree fun n mem => ?_
        obtain ⟨m, hm, rfl⟩ := List.mem_map.mp mem
        rcases List.mem_cons.mp hm with rfl | hm
        · exact ha
        · rcases two m hm with rfl | rfl <;> assumption
      exact isOp.trans (scaleOp_shared serving read held i f)
    case moved => exact show execSmov d r s = _ from scaleOp_shared serving (ops := []) (vs := []) rfl held _ _
  case bindings =>
    intro s t d a n p x k e m
    exact ⟨fun serving => execSread_reads serving,
      fun serving => ⟨fun lt free => execSbindS_binds serving lt free, execSbindS_traps serving⟩,
      fun serving => ⟨execSfree_releases serving, execSfree_traps serving⟩⟩

end Sys2Proof.Proofs
end

section
/-!
SUPPORT. Brock's books: the tables of scores and leases, what a charge asks for (R188, R189), and the statement about scores and
routine leases (O50).
-/
namespace Sys2Proof.Proofs
open Sys2Proof Sys2Proof.Machine Sys2Proof.Laws

/-! ## Scores and leases as tables -/

theorem scoreOf_congr {s s' : State} (h : s'.brock = s.brock) (u : Nat) : scoreOf s' u = scoreOf s u := by simp only [scoreOf, h]

theorem leaseOf_congr {s s' : State} (h : s'.brock.leases = s.brock.leases) (u : Nat) : leaseOf s' u = leaseOf s u := by
  simp only [leaseOf, h]

@[simp] theorem scoreOf_setScore (s : State) (u n : Nat) : scoreOf (setScore s u n) u = n := by
  unfold scoreOf setScore setBrock lookupD
  split
  · subst n; simp
  · simp

theorem scoreOf_setScore_other (s : State) {u v : Nat} (n : Nat) (ne : v ≠ u) : scoreOf (setScore s u n) v = scoreOf s v := by
  unfold scoreOf setScore setBrock lookupD
  split
  · simp only [lookup_remove_other _ ne]
  · simp only [lookup_insert_other _ _ ne]

@[simp] theorem leaseOf_setLease (s : State) (u : Nat) (x : Lease) : leaseOf (setLease s u x) u = some x :=
  lookup_insert_same _ _ _

/-! ## What is asked for (R189) -/

/-- A request touches Brock's leases alone. -/
theorem requestLease_eq (s : State) (u : Nat) (now : Bool) :
    requestLease s u now = setBrock s { s.brock with leases := (requestLease s u now).brock.leases } := by
  unfold requestLease
  split
  · rfl
  · split <;> rfl

theorem requestRetire_eq (s : State) (u : Nat) :
    requestRetire s u = setBrock s { s.brock with leases := (requestRetire s u).brock.leases } := by
  unfold requestRetire
  rw [requestLease_eq]
  extract_lets s'
  split
  · exact iteInduction (motive := fun r : State => r = setBrock s { s.brock with leases := r.brock.leases }) (fun _ => rfl)
      fun _ => rfl
  · rfl

/-- A unit that is not retired has a lease once one is requested: the one it had, or a new one. -/
theorem leaseOf_requestLease {s : State} {u : Nat} (sound : isRetired s u = false) (now : Bool) :
    leaseOf (requestLease s u now) u = some ((leaseOf s u).getD (newLease u s.time now)) := by
  unfold requestLease
  rw [if_neg (by simp [sound])]
  cases h : leaseOf s u with
  | none => exact leaseOf_setLease _ _ _
  | some x => exact h

theorem mem_addNat {l : List Nat} {n k : Nat} : k ∈ addNat l n ↔ k = n ∨ k ∈ l := by
  induction l with
  | nil => simp [addNat]
  | cons j l ih =>
    unfold addNat
    split
    · simp
    · split
      · rename_i h; subst h; simp
      · rw [List.mem_cons, ih, List.mem_cons, or_left_comm]

/-- A unit asked to retire without a test: its lease says so, but for one whose patterns run (R191, R194). -/
theorem leaseOf_requestRetire {s : State} {u : Nat} (sound : isRetired s u = false) :
    ∃ x, leaseOf (requestRetire s u) u = some x ∧ (u ∈ x.retire ∨ x.st = .active ∧ x.retire = [] ∧ leaseOf s u = some x) := by
  have asked := leaseOf_requestLease sound true
  unfold requestRetire
  simp only [asked]
  split
  · rename_i runs
    refine ⟨_, asked, .inr ⟨runs.1, runs.2, ?_⟩⟩
    cases h : leaseOf s u with
    | none => simp [h, newLease] at runs
    | some x => rfl
  · exact ⟨_, leaseOf_setLease _ _ _, .inl (mem_addNat.mpr (.inl rfl))⟩

/-! ## Charges (R188) -/

/-- A charge touches Brock's scores and leases alone. -/
theorem addScore_eq (s : State) (u n : Nat) : addScore s u n = setBrock s { s.brock with
    scores := (setScore s u (Nat.min (scoreOf s u + n) 65535)).brock.scores, leases := (addScore s u n).brock.leases } := by
  unfold addScore
  extract_lets old new s1 s2
  have hLease : s2 = setBrock s1 { s1.brock with leases := s2.brock.leases } :=
    iteInduction (motive := fun r : State => r = setBrock s1 { s1.brock with leases := r.brock.leases })
      (fun _ => requestLease_eq _ _ _) fun _ => rfl
  have hRetire : requestRetire s2 u = setBrock s1 { s1.brock with leases := (requestRetire s2 u).brock.leases } := by
    rw [requestRetire_eq, hLease]; rfl
  exact iteInduction (motive := fun r : State => r = setBrock s { s.brock with
    scores := s1.brock.scores, leases := r.brock.leases }) (fun _ => hRetire) fun _ => hLease

theorem scoreOf_addScore (s : State) (u n : Nat) : scoreOf (addScore s u n) u = Nat.min (scoreOf s u + n) 65535 := by
  rw [addScore_eq]; exact scoreOf_setScore _ _ _

theorem scoreOf_addScore_other (s : State) {u v : Nat} (n : Nat) (ne : v ≠ u) : scoreOf (addScore s u n) v = scoreOf s v := by
  rw [addScore_eq]; exact scoreOf_setScore_other _ _ ne

/-- The charge with which a score reaches 256 asks for a lease. -/
theorem addScore_lease {s : State} {u : Nat} (h : scoreOf s u = 255) :
    addScore s u 1 = requestLease (setScore s u 256) u true := by
  simp [addScore, h]

/-- The charge with which a score reaches 4,096 asks for a retirement. -/
theorem addScore_retire {s : State} {u : Nat} (h : scoreOf s u = 4095) :
    addScore s u 1 = requestRetire (setScore s u 4096) u := by
  simp [addScore, h]

/-! ## CORRECTED_ERROR and LINK_RETRY -/

/-- What an uncorrected error leaves as it was: no more than a sector is poisoned, and a free value drawn (log 96). -/
theorem uncorrected_frame (s : State) (c pa : Nat) : (uncorrected s c pa).brock = s.brock ∧
    (uncorrected s c pa).launches = s.launches ∧ (uncorrected s c pa).threads = s.threads ∧ (uncorrected s c pa).mem = s.mem := by
  unfold uncorrected
  extract_lets s'
  split <;> exact ⟨rfl, rfl, rfl, rfl⟩

/-- An event that charges a unit by 1 changes, of Brock's books, what the charge changes, and of the launches, the threads and
memory nothing. -/
structure Charges (s t : State) (u : Nat) : Prop where
  brock : t.brock = (addScore s u 1).brock
  launches : t.launches = s.launches
  threads : t.threads = s.threads
  mem : t.mem = s.mem

theorem charges_addScore (s : State) (u : Nat) : Charges s (addScore s u 1) u := by
  refine ⟨rfl, ?_, ?_, ?_⟩ <;> rw [addScore_eq] <;> rfl

theorem execCorrectedError_charges (s : State) {u : Nat} (lt : u < 1056) (notLane : isLane u = false) :
    ∃ t, exec (.correctedError u) s = .next t ∧ Charges s t u := by
  show ∃ t, execCorrectedError u s = .next t ∧ Charges s t u
  have unit : u ≠ unitCount := Nat.ne_of_lt lt
  have isUnit : u < unitCount := lt
  by_cases chan : classOf u = .chan
  · obtain ⟨brock, launches, threads, mem⟩ :=
      uncorrected_frame (addScore s u 1) (unitId u) (32 * (Config.freeNat (s.free + 1) % (dramEnd / 32)))
    obtain ⟨-, hLaunches, hThreads, hMem⟩ := charges_addScore s u
    exact ⟨_, by simp only [execCorrectedError, unit, chan, isUnit, and_self, if_true, if_false],
      brock, launches.trans hLaunches, threads.trans hThreads, mem.trans hMem⟩
  · exact ⟨_, by simp only [execCorrectedError, unit, chan, isUnit, notLane, false_and, and_self, if_true, if_false],
      charges_addScore s u⟩

theorem execLinkRetry_charges (s : State) {u : Nat} (lane : isLane u = true) :
    ∃ t, exec (.linkRetry u) s = .next t ∧ Charges s t u :=
  ⟨addScore s u 1, (show execLinkRetry u s = _ from if_pos lane), charges_addScore s u⟩

theorem classOf_lane {u : Nat} (lane : isLane u = true) : classOf u = .lane := by
  simp only [isLane, isKlink, isUcie, Bool.or_eq_true, Bool.and_eq_true, decide_eq_true_eq] at lane
  unfold classOf
  rw [if_neg (by omega), if_pos (by omega)]

theorem execCorrectedError_lane {s : State} {u : Nat} (lane : isLane u = true) : exec (.correctedError u) s = .next s := by
  have isClass := classOf_lane lane
  have unit : u ≠ unitCount := by rintro rfl; exact absurd isClass (by decide)
  show execCorrectedError u s = _
  simp [execCorrectedError, unit, isClass, lane]

/-! ## SCORE_DECAY (R189) -/

theorem execScoreDecay_falls {s : State} (due : s.brock.lastDecay < s.time / 10000000000) : exec .scoreDecay s =
    .next (setBrock s { s.brock with lastDecay := s.brock.lastDecay + 1
                                     scores := (s.brock.scores.map (fun x => (x.1, x.2 - 1))).filter (fun x => x.2 != 0) }) :=
  show execScoreDecay s = _ from if_pos due

theorem execScoreDecay_waits {s : State} (early : s.time / 10000000000 ≤ s.brock.lastDecay) : exec .scoreDecay s = .next s :=
  show execScoreDecay s = _ from if_neg (Nat.not_lt_of_le early)

/-- The scores after a decay: each that was above 1, less 1. -/
theorem mem_decayed {l : Assoc Nat} {k n : Nat} :
    (k, n) ∈ (l.map (fun x => (x.1, x.2 - 1))).filter (fun x => x.2 != 0) ↔ 0 < n ∧ (k, n + 1) ∈ l := by
  simp only [List.mem_filter, List.mem_map, Prod.mk.injEq, bne_iff_ne]
  constructor
  · rintro ⟨⟨⟨j, m⟩, mem, rfl, rfl⟩, pos⟩
    have up : m - 1 + 1 = m := by simp only at pos; omega
    exact ⟨Nat.pos_of_ne_zero pos, up ▸ mem⟩
  · rintro ⟨pos, mem⟩
    exact ⟨⟨(k, n + 1), mem, rfl, rfl⟩, Nat.pos_iff_ne_zero.mp pos⟩

/-! ## ROUTINE_LEASE (R190) -/

theorem passedOver_cursorNext {s : State} {c u : Nat} (next : cursorNext s c = some u) : passedOver s u = false := by
  simpa using List.find?_some next

/-- A unit that a cursor stops at is in service and has no lease. -/
theorem not_passedOver {s : State} {u : Nat} (h : passedOver s u = false) : isRetired s u = false ∧ leaseOf s u = none := by
  simp only [passedOver, Bool.or_eq_false_iff] at h
  obtain ⟨⟨⟨⟨retired, -⟩, leased⟩, -⟩, -⟩ := h
  exact ⟨retired, by simpa using leased⟩

theorem execRoutineLease_early {s : State} {u : Nat}
    (early : s.time < (lookup s.brock.cursors (16 + cursorOf u)).getD 0 + cursorTicks (cursorOf u)) :
    exec (.routineLease u) s = .next s := by
  show execRoutineLease u s = _
  simp [execRoutineLease, lookupD, Nat.not_le_of_lt early]

/-- The state after a routine lease: the unit's lease asked for, its cursor past it, and the tick remembered. -/
def routineLeased (s : State) (u : Nat) : State :=
  let c := cursorOf u
  let s' := requestLease s u false
  setBrock s' { s'.brock with
    cursors := insert (insert s.brock.cursors c ((u - (cursorUnits c).1 + 1) % (cursorUnits c).2)) (16 + c) s.time }

theorem execRoutineLease_due {s : State} {u : Nat} (lt : u < 1056) (next : cursorNext s (cursorOf u) = some u)
    (due : (lookup s.brock.cursors (16 + cursorOf u)).getD 0 + cursorTicks (cursorOf u) ≤ s.time) :
    exec (.routineLease u) s = .next (routineLeased s u) := by
  show execRoutineLease u s = _
  have isUnit : u < unitCount := lt
  have cursors : (requestLease s u false).brock.cursors = s.brock.cursors := by rw [requestLease_eq]; rfl
  have time : (requestLease s u false).time = s.time := by rw [requestLease_eq]; rfl
  simp [execRoutineLease, routineLeased, lookupD, due, next, isUnit, cursors, time]

theorem leaseOf_routineLeased {s : State} {u : Nat} (next : cursorNext s (cursorOf u) = some u) :
    leaseOf (routineLeased s u) u = some (newLease u s.time false) := by
  obtain ⟨sound, unleased⟩ := not_passedOver (passedOver_cursorNext next)
  have asked := leaseOf_requestLease sound false
  rw [unleased] at asked
  exact asked

/-- Settles O50: a charge touches one score, and asks where it crosses 256 or 4,096 (`addScore_lease`, `addScore_retire`); decay
and the routine cursor by their own rules. An error that was not corrected (log 96) is outside what the charge touches. -/
theorem healthScores : Obligations.HealthScores := by
  unfold Obligations.HealthScores
  intro s u
  refine ⟨fun i mem what => ?charge, rfl, execCorrectedError_lane, fun notLane => ?other, fun due => ?decay,
    execScoreDecay_waits, execRoutineLease_early, fun due lt next => ?routine⟩
  case charge =>
    obtain ⟨t, ran, brock, launches, threads, mem⟩ : ∃ t, exec i s = .next t ∧ Charges s t u := by
      rcases what with ⟨rfl, lt, notLane⟩ | ⟨rfl, lane⟩
      · exact execCorrectedError_charges s lt notLane
      · exact execLinkRetry_charges s lane
    have scores (v : Nat) : scoreOf t v = scoreOf (addScore s u 1) v := scoreOf_congr brock v
    have leases (v : Nat) : leaseOf t v = leaseOf (addScore s u 1) v := leaseOf_congr (by rw [brock]) v
    have retires (at_ : scoreOf s u = 4095) (sound : isRetired s u = false) : ∃ x, leaseOf t u = some x ∧
        (u ∈ x.retire ∨ x.st = .active ∧ x.retire = [] ∧ leaseOf s u = some x) := by
      rw [leases, addScore_retire at_]
      exact leaseOf_requestRetire sound
    refine ⟨t, ran, (scores u).trans (scoreOf_addScore s u 1), fun v ne => (scores v).trans (scoreOf_addScore_other s 1 ne),
      fun at_ sound => ?_, retires, fun at_ idle sound => ?_, launches, threads, mem⟩
    · exact ⟨_, by rw [leases, addScore_lease at_]; exact leaseOf_requestLease (s := setScore s u 256) sound true⟩
    · obtain ⟨x, lease, retire | ⟨active, -, before⟩⟩ := retires at_ sound
      · exact ⟨x, lease, retire⟩
      · exact absurd active (idle x before)
  case other => exact show execLinkRetry u s = _ from if_neg (by simp [notLane])
  case decay =>
    exact ⟨_, execScoreDecay_falls due, rfl, fun _ mem => mem_decayed.mp mem,
      fun ⟨k, n⟩ mem above => mem_decayed.mpr ⟨Nat.sub_pos_of_lt above, (Nat.sub_add_cancel (Nat.le_of_lt above)).symm ▸ mem⟩⟩
  case routine =>
    refine ⟨_, execRoutineLease_due lt next due, leaseOf_routineLeased next, ?_, lookup_insert_same _ _ _⟩
    exact (lookup_insert_other _ _ (by omega)).trans (lookup_insert_same _ _ _)

end Sys2Proof.Proofs
end

section
/-!
SUPPORT. The events of the module (R195 to R197, R230, R232, R236): power-on, the end of bring-up, firmware updates and the power
arbiter, and the statement about them all (O53).
-/
namespace Sys2Proof.Proofs
open Sys2Proof Sys2Proof.Machine Sys2Proof.Laws

/-! ## POWER_ON (R230, R236) -/

/-- Nothing changes from one state to another but Brock's table of windows (R196). -/
def OnlyRemaps (s s' : State) : Prop := s' = setBrock s { s.brock with remaps := s'.brock.remaps }

namespace OnlyRemaps

theorem refl (s : State) : OnlyRemaps s s := rfl

theorem trans {a b c : State} (h : OnlyRemaps a b) (g : OnlyRemaps b c) : OnlyRemaps a c :=
  calc c = setBrock b { b.brock with remaps := c.brock.remaps } := g
    _ = setBrock a { a.brock with remaps := c.brock.remaps } := by rw [h]; rfl

theorem foldl {α : Type} {f : State → α → State} (hf : ∀ s x, OnlyRemaps s (f s x)) (l : List α) (s : State) :
    OnlyRemaps s (l.foldl f s) := by
  induction l generalizing s with
  | nil => exact refl s
  | cons x l ih => exact (hf s x).trans (ih (f s x))

end OnlyRemaps

theorem onlyRemaps_migrate (s : State) (c : Nat) : OnlyRemaps s ((migrate s c).getD s) := by
  unfold migrate
  extract_lets fs
  split <;> rfl

/-- Brock after power-on, up to its table of windows: retirements as flash and fuses name them, and nothing else of before (R195,
R197). -/
def rebuiltBrock (b : Brock) : Brock :=
  let flash := b.flash.filter (fun x => decide (x.1 < flashPlaces))
  { Brock.init with flash := flash, worn := b.worn, fuses := b.fuses, retired := excluded flash b.fuses, serial := b.serial }

theorem rebuild_eq (s : State) (b : Brock) :
    rebuild s b = setBrock s { rebuiltBrock b with remaps := (rebuild s b).brock.remaps } :=
  OnlyRemaps.foldl (fun s u => onlyRemaps_migrate s (unitId u)) _ (setBrock s (rebuiltBrock b))

/-- The state in which POWER_ON rebuilds Brock: as after reset, with the image that runs and what the model's schedule keeps. -/
def poweredOn (s : State) : State :=
  { State.reset with
    agenda := s.agenda, pace := s.pace, turn := s.turn, free := s.free, lateLoads := s.lateLoads, fw := s.fw
    running := imageToRun s
    maxSvn := (s.fw[imageToRun s]?).elim s.maxSvn fun f => Nat.max s.maxSvn f.svn }

theorem execPowerOn_eq (s : State) : exec .powerOn s = .next (rebuild (poweredOn s) s.brock) := by
  show execPowerOn s = _
  unfold execPowerOn poweredOn
  cases s.fw[imageToRun s]? <;> rfl

/-! The image that runs (R230; log 110): of two that may, the one with the higher SVN, and that of place 0 where they are equal. -/

theorem mayRun_iff {s : State} {f : FwPlace} : mayRun s f = true ↔ f.valid = true ∧ s.maxSvn ≤ f.svn := by simp [mayRun]

section
variable {s : State} {a b : FwPlace} (fw : s.fw = [a, b])
include fw

theorem imageToRun_first (may : mayRun s a = true) (first : ¬mayRun s b = true ∨ b.svn ≤ a.svn) : imageToRun s = 0 := by
  have wins : (mayRun s a && (!mayRun s b || decide (b.svn ≤ a.svn))) = true := by simpa [may] using first
  simp only [imageToRun, fw, wins, if_true]

theorem imageToRun_second (may : mayRun s b = true) (first : ¬mayRun s a = true ∨ a.svn < b.svn) : imageToRun s = 1 := by
  have loses : ¬(mayRun s a && (!mayRun s b || decide (b.svn ≤ a.svn))) = true := by
    rcases first with no | lower
    · simp [no]
    · simp [may, lower]
  simp only [imageToRun, fw, if_neg loses, if_pos may]

theorem imageToRun_none (notA : ¬mayRun s a = true) (notB : ¬mayRun s b = true) : imageToRun s = 2 := by
  simp [imageToRun, fw, notA, notB]

end

/-! ## NURSERY_EXIT (R236) -/

theorem execNurseryExit_done {s : State} (done : s.bringup = .done) (ok : Bool) :
    exec (.nurseryExit ok) s = .next { s with full := s.full || s.vds.isEmpty } := by
  show execNurseryExit ok s = _
  have notRunning : s.bringup ≠ .running := by simp [done]
  by_cases closed : s.vds = []
  · have empty : s.vds.isEmpty = true := by simp [closed]
    simp only [execNurseryExit, if_neg notRunning, if_pos (And.intro done closed), empty, Bool.or_true]
  · have open_ : s.vds.isEmpty = false := by simpa using closed
    have notBoth : ¬(s.bringup = .done ∧ s.vds = []) := fun h => closed h.2
    simp only [execNurseryExit, if_neg notRunning, if_neg notBoth, open_, Bool.or_false]

/-- Bring-up that ends well goes on as one that had ended. -/
theorem execNurseryExit_running {s : State} (running : s.bringup = .running) (ok : Bool) : exec (.nurseryExit ok) s =
    .next (if ok then { s with bringup := .done, full := s.full || s.vds.isEmpty } else { s with bringup := .failed }) := by
  cases ok with
  | false =>
    show execNurseryExit false s = _
    simp [execNurseryExit, running]
  | true =>
    have ends : exec (.nurseryExit true) s = exec (.nurseryExit true) { s with bringup := .done } := by
      show execNurseryExit true s = execNurseryExit true { s with bringup := .done }
      simp [execNurseryExit, running]
    exact ends.trans (execNurseryExit_done rfl true)

/-! ## FIRMWARE_UPDATE (R195, R230) -/

theorem setNth_eq_set {α : Type} (l : List α) (i : Nat) (v : α) : setNth l i v = l.set i v := by
  induction l generalizing i with
  | nil => rfl
  | cons a l ih =>
    cases i with
    | zero => rfl
    | succ i => exact congrArg (a :: ·) (ih i)

theorem mem_flash_removeRecords {s : State} {places : List Nat} {x : Nat × List Byte} :
    x ∈ (removeRecords s places).brock.flash ↔ x ∈ s.brock.flash ∧ x.1 ∉ places := by
  simp [removeRecords, setBrock]

/-- The state with an image place written. -/
def placeWritten (s : State) (place svn digest : Nat) (valid : Bool) : State :=
  { s with fw := setNth s.fw place { valid := valid, svn := svn % 2 ^ 32, digest := digest % 2 ^ 384 } }

theorem execFirmwareUpdate_eq (s : State) (place svn digest : Nat) (valid : Bool) (removed : List Nat) :
    exec (.firmwareUpdate place svn digest valid removed) s = .next (if valid then
      removeRecords (placeWritten s place svn digest valid) removed else placeWritten s place svn digest valid) := rfl

/-! ## POWER_ARBITRATION (R232) -/

theorem lookup_map_key {α : Type} (g : Nat → α) {ks : List Nat} {k : Nat} (mem : k ∈ ks) :
    lookup (ks.map fun j => (j, g j)) k = some (g k) := by
  induction ks with
  | nil => exact absurd mem List.not_mem_nil
  | cons j ks ih =>
    simp only [List.map_cons, lookup]
    by_cases h : k = j
    · rw [if_pos h, h]
    · rw [if_neg h, ih ((List.mem_cons.mp mem).resolve_left h)]

/-- The arbiter gives each field a clock, never below 900 MHz. -/
theorem arbitrate_clock (s : State) {f : Nat} (lt : f < 32) : ∃ c, lookup (arbitrate s).mhz f = some c ∧ 900 ≤ c :=
  ⟨freeClock s f, lookup_map_key (freeClock s) (List.mem_range.mpr lt), Nat.le_add_right _ _⟩

/-- Settles O53, event by event. That place 0 runs where both images have the same SVN is log 110, and that memory lists nothing
after power-on is log 7. -/
theorem moduleEvents : Obligations.ModuleEvents := by
  unfold Obligations.ModuleEvents
  intro s
  refine ⟨fun a b fw => ?powerOn, fun ok running => execNurseryExit_running running ok, fun done ok => execNurseryExit_done done ok,
    fun place svn digest valid removed lt => ?update,
    ⟨arbitrate s, rfl, fun f lt => arbitrate_clock s lt, rfl, rfl, rfl, rfl, rfl⟩⟩
  case powerOn =>
    intro may
    refine ⟨_, execPowerOn_eq s, ?_⟩
    rw [rebuild_eq]
    have runs {k : Nat} (image : imageToRun s = k) : (poweredOn s).running = k ∧
        (poweredOn s).maxSvn = ([a, b][k]?).elim s.maxSvn fun f => Nat.max s.maxSvn f.svn :=
      ⟨image, by simp only [poweredOn, image, fw]⟩
    refine ⟨rfl, rfl, rfl, rfl, rfl, rfl, rfl, rfl, rfl, rfl, rfl, rfl, rfl, rfl, rfl, rfl, ?_⟩
    simp only [may, ← mayRun_iff]
    exact ⟨fun ha first => runs (imageToRun_first fw ha first), fun hb first => runs (imageToRun_second fw hb first),
      fun ha hb => runs (imageToRun_none fw ha hb)⟩
  case update =>
    have written : (placeWritten s place svn digest valid).fw[place]? =
        some { valid := valid, svn := svn % 2 ^ 32, digest := digest % 2 ^ 384 } := by
      simp only [placeWritten, setNth_eq_set, List.getElem?_set_self lt]
    have others (i : Nat) (ne : i ≠ place) : (placeWritten s place svn digest valid).fw[i]? = s.fw[i]? := by
      simp only [placeWritten, setNth_eq_set, List.getElem?_set_ne ne.symm]
    refine ⟨_, execFirmwareUpdate_eq s place svn digest valid removed, ?_⟩
    cases valid with
    | false => exact ⟨written, others, rfl, rfl, rfl, fun _ => rfl, nofun⟩
    | true => exact ⟨written, others, rfl, rfl, rfl, nofun, fun _ x => mem_flash_removeRecords⟩

end Sys2Proof.Proofs
end

section
/-!
SUPPORT. A forced lease whose launch meets a scale miscompare as it is frozen (R139, R182, R188, R189, R191): the module in which
this happens, and the refutation of the statement about leases (O51).

LEASE_FORCE freezes a launch that runs, and freezing lets its tokens on their way go on (R182 step 2). A token whose tag
miscompares at a crossing charges the plot it stands in by 128, and where that takes the score to 4,096 the deferred lease of this
very plot is told to retire it without a test (R189, R191). The lease then begins with the plot in its RETIRE list, where the
statement has it begin with the list that it had before.
-/
namespace Sys2Proof.Proofs
open Sys2Proof Sys2Proof.Machine Sys2Proof.Laws

/-- A graph of two nodes and a channel between them. -/
def crossingGraph : Variant :=
  let node : Node := { hrec := 0, ports := [], outA := noChan, outB := noChan, part := 0, pack := 0, srfn := 0, klim := [] }
  { loaderVariant with
    parts := [(2, 1)]
    nodes := [{ node with outA := 0 }, { node with ports := [0] }]
    chans := [{ src := 0, dst := 1, cls := 0, lanes := 16, back := false, depth := 5, rminN := 1, rminD := 1, rmaxN := 1,
                rmaxD := 1 }] }

/-- Its place: node 0 in plot 0, node 1 in plot 1, the channel's route from one to the other. -/
def crossingPlace : Placed :=
  { loaderFit.place with
    plots := [0, 1], sites := [(0, 0), (1, 0)], hidx := [0, 0], legs := [[0, 1]], nums := [[0, 0]], links := [[]] }

/-- The launch of the loaded program with that graph, and on the channel one token that stands in plot 0, with tag 16 × 0 + 1. -/
def crossingLaunch : Launch :=
  let w : Waiting := { ticket := 0, hdr := loaderHeader, gid := 0, vd := 0, origin := .host 0#64, parked := false, again := false,
                       partmap := none }
  { newLaunch State.reset w { loaderFit with variant := crossingGraph, place := crossingPlace, image := [crossingGraph] } 1 with
    chans := [(0, { ChanSt.empty with legs := [[{ ctlToken .data 0 0 false with stag := 1 }]] })] }

/-- The lease of plot 0, deferred since tick 0; no unit of the site is to retire. -/
def deferredLease : Lease := { newLease 0 0 true with st := .deferred }

/-- The loaded module, ten minutes on: the launch holds plots 0 and 1, the copies of scale entry 0 of plot 0 differ, the score of
plot 0 is 128 below 4,096, and its lease is deferred. -/
def crossingModule : State :=
  { setLaunch (setVd (loadProgram State.reset) 0 { loaderVd with plotmask := 3 }) crossingLaunch with
    time := 600000000000
    plots := [(0, { Plot.empty with holder := some 1, srf := [(0, { value := 1, dup := 0, ref := 1, gen := 1 })] }),
              (1, { Plot.empty with holder := some 1 })]
    brock := { Brock.init with scores := [(0, 3968)], leases := [(0, deferredLease)] } }

/-- The token's crossing fails as the launch is drained: the score reaches 4,096, and the lease is to retire plot 0. -/
theorem drainLinks_crossingModule : scoreOf (drainLinks crossingModule crossingLaunch) 0 = 4096 ∧
    leaseOf (drainLinks crossingModule crossingLaunch) 0 = some { deferredLease with retire := [0] } := by decide

/-- LEASE_FORCE there: the lease begins, and still says that plot 0 is to retire. -/
theorem leaseForce_crossingModule : (nextOf (exec (.leaseForce 0) crossingModule)).bind (leaseOf · 0) =
    some { deferredLease with st := .active, retire := [0] } := by decide

/-- Refutes O51: a lease that is forced may begin with a unit to retire that it did not name before, since freezing its launch can
take the plot's score to 4,096 (`crossingModule`). -/
theorem not_leases : ¬ Obligations.Leases := by
  unfold Obligations.Leases
  intro h
  obtain ⟨-, leased⟩ := h crossingModule 0
  obtain ⟨-, -, -, -, -, force, -⟩ := leased deferredLease rfl
  obtain ⟨-, launchSaved⟩ := force (by decide) rfl (by decide) (by decide)
  obtain ⟨t, -, ran, begun, -⟩ := launchSaved 1 crossingLaunch rfl rfl rfl
  have retires := leaseForce_crossingModule
  rw [ran] at retires
  have same : some { deferredLease with st := .active, again := false } = some { deferredLease with st := .active, retire := [0] } :=
    begun.symm.trans retires
  exact absurd same (by decide)

end Sys2Proof.Proofs
end

section
/-!
SUPPORT. The frame of a host message (R210, R211, R213, R214, R236; log 69): which messages reach the module, which wait their
turn, and how one that is malformed, or that names a device it may not command, is turned away. Every message but OPEN_VD, and
an ATTEST under no association, stands in this frame.
-/
namespace Sys2Proof.Proofs
open Sys2Proof Sys2Proof.Machine Sys2Proof.Laws

/-! ## The messages -/

/-- The messages in the frame, one for each code, as O42 lists them. -/
def codedMessages (m : Kcp) : List (Instr × Nat) :=
  [(.closeVd m, 2), (.map m, 3), (.write m, 4), (.read m, 5), (.launchStart m, 6), (.events m, 7), (.attest m, 8),
    (.logFetch m, 9), (.receiptFetch m, 10)]

/-- Every step that a message may be. -/
def hostSteps (m : Kcp) : List Instr :=
  [.openVd m, .closeVd m, .map m, .write m, .read m, .launchStart m, .launchResume m, .launchEnd m, .launchDrain m, .events m,
    .attest m, .logFetch m, .receiptFetch m]

/-- A message of code `op` whose header and body are well formed, as the model reads them (R211, R213; log 69). -/
def Formed (m : Kcp) (op : Nat) : Prop :=
  headOk m = true ∧ mOp m = op ∧ (op = 2 → mBody m = []) ∧ (op = 3 → mapOk (mBody m) = true) ∧
    (op = 4 → 16 ≤ (mBody m).length ∧ leAt (mBody m) 8 8 = 0) ∧
    (op = 5 → (mBody m).length = 16 ∧ leAt (mBody m) 8 8 ≤ bodyMax) ∧
    (op = 6 → launchOk (mBody m) = true ∧ leAt (mBody m) 0 1 = 0) ∧ (op = 7 → eventsOk (mBody m) = true) ∧
    (op = 8 → (mBody m).length = 32 ∧ m.vds ≠ []) ∧ (op = 9 → logOk (mBody m) = true) ∧ (op = 10 → (mBody m).length = 4)

theorem Formed.head {m : Kcp} {op : Nat} (h : Formed m op) : headOk m = true := h.1

theorem Formed.code {m : Kcp} {op : Nat} (h : Formed m op) : mOp m = op := h.2.1

/-- An ATTEST of this form comes under an association. -/
theorem Formed.associated {m : Kcp} (h : Formed m 8) : m.vds ≠ [] := by
  obtain ⟨-, -, -, -, -, -, -, -, attest, -, -⟩ := h
  exact (attest rfl).2

/-- No message that waits is this one, or stands before it (R214). -/
def FirstInTurn (m : Kcp) (s : State) : Prop :=
  ∀ x ∈ s.kcpHeld, x.1 ≠ m ∧ (m.conn = none ∨ x.1.conn ≠ m.conn ∨ mVd x.1 ≠ mVd m)

/-- What a message needs to reach the module (R210, R236; log 69). -/
theorem received_iff (s : State) (m : Kcp) : received s m = true ↔
    s.running < 2 ∧ m.port < (if s.full = true then 4 else 1) ∧ m.bytes.length ≤ 2 ^ 24 ∧ (m.vds ≠ [] ∨ mOp m = 8) := by
  have most : messageMax = 2 ^ 24 := rfl
  simp only [received, portRuns, ← most, Bool.and_eq_true, Bool.or_eq_true, decide_eq_true_eq, bne_iff_ne, beq_iff_eq, and_assoc]

/-! ## The turn (R214) -/

section
variable {i : Instr} {m : Kcp} {s : State}

/-- A message behind one that waits is put with those that wait. -/
theorem inTurn_behind {k : State → Out}
    (behind : ∃ x ∈ s.kcpHeld, x.1 ≠ m ∧ m.conn ≠ none ∧ x.1.conn = m.conn ∧ mVd x.1 = mVd m)
    (fresh : ∀ x ∈ s.kcpHeld, x.1 ≠ m) : inTurn i m s k = .next { s with kcpHeld := s.kcpHeld ++ [(m, i)] } := by
  obtain ⟨x, mem, -, conn, same, device⟩ := behind
  have notMine : ∀ y ∈ s.kcpHeld, (y == (m, i)) = false := fun y hy => by
    simpa using fun e => fresh y hy (congrArg Prod.fst e)
  have all : s.kcpHeld.takeWhile (fun y => !(y == (m, i))) = s.kcpHeld := by
    have taken := List.takeWhile_append_of_pos (p := fun y => !(y == (m, i))) (l₂ := []) fun y hy => by rw [notMine y hy]; rfl
    rwa [List.takeWhile_nil, List.append_nil] at taken
  have waits : s.kcpHeld.any (fun y => m.conn.isSome && y.1.conn == m.conn && mVd y.1 == mVd m) = true :=
    List.any_eq_true.mpr ⟨x, mem, by simp [Option.isSome_iff_ne_none, conn, same, device]⟩
  have unlisted : s.kcpHeld.any (fun y => y == (m, i)) = false := List.any_eq_false.mpr fun y hy => by simp [notMine y hy]
  simp only [inTurn, all, waits, unlisted, if_true, Bool.false_eq_true, if_false]

/-- A message that alone waits has its turn, and waits no more. -/
theorem inTurn_alone {k : State → Out} (alone : s.kcpHeld = [(m, i)]) : inTurn i m s k = k { s with kcpHeld := [] } := by
  simp [inTurn, alone]

/-- A message that none stands before has its turn at once. -/
theorem inTurn_first {k : State → Out} (first : FirstInTurn m s) : inTurn i m s k = k s := by
  have noneBefore : (s.kcpHeld.takeWhile (fun y => !(y == (m, i)))).any
      (fun y => m.conn.isSome && y.1.conn == m.conn && mVd y.1 == mVd m) = false := by
    refine List.any_eq_false.mpr fun y hy => ?_
    obtain ⟨-, no | no | no⟩ := first y (List.takeWhile_subset _ hy) <;> simp [no]
  have unlisted : (m, i) ∉ s.kcpHeld := fun mem => (first _ mem).1 rfl
  simp only [inTurn, noneBefore, List.erase_of_not_mem unlisted, Bool.false_eq_true, if_false]

end

/-! ## The frame -/

section
variable {i : Instr} {op : Nat} {m : Kcp} {s : State} {bodyOk mine : List Byte → Bool} {k : State → Nat → VD → List Byte → Out}

/-- A message that does not reach the module has no effect. -/
theorem message_unheard (unheard : received s m = false) : message i op m s bodyOk mine k = .next s := by
  simp only [message, unheard, if_true]

/-- A malformed header is answered so, with no effect (R211). -/
theorem message_malformed (heard : received s m = true) (first : FirstInTurn m s) (head : headOk m = false) :
    message i op m s bodyOk mine k = .next (answer s m 1 0 []) := by
  simp [message, heard, head, inTurn_first first, kMalformed]

section
variable (heard : received s m = true) (head : headOk m = true) (code : mOp m = op) (body : bodyOk (mBody m) = true)
  (own : mine (mBody m) = true)
include heard head code body own

theorem message_behind (behind : ∃ x ∈ s.kcpHeld, x.1 ≠ m ∧ m.conn ≠ none ∧ x.1.conn = m.conn ∧ mVd x.1 = mVd m)
    (fresh : ∀ x ∈ s.kcpHeld, x.1 ≠ m) :
    message i op m s bodyOk mine k = .next { s with kcpHeld := s.kcpHeld ++ [(m, i)] } := by
  simp [message, heard, head, code, body, own, inTurn_behind behind fresh]

/-- A message that alone waits is done as if none waited. -/
theorem message_alone (alone : s.kcpHeld = [(m, i)]) :
    message i op m s bodyOk mine k = message i op m { s with kcpHeld := [] } bodyOk mine k := by
  have heard' : received { s with kcpHeld := [] } m = true := heard
  have free : FirstInTurn m { s with kcpHeld := [] } := nofun
  simp [message, heard, heard', head, code, body, own, inTurn_alone alone, inTurn_first free]

variable (first : FirstInTurn m s)
include first

theorem message_noVd (closed : vdOf s (mVd m) = none) : message i op m s bodyOk mine k = .next (answer s m 2 0 []) := by
  simp [message, heard, head, code, body, own, inTurn_first first, closed, kNoVd]

theorem message_denied {d : VD} (opened : vdOf s (mVd m) = some d) (foreign : mVd m ∉ m.vds) :
    message i op m s bodyOk mine k = .next (answer s m 3 0 []) := by
  simp [message, heard, head, code, body, own, inTurn_first first, opened, foreign, kDenied]

theorem message_served {d : VD} (opened : vdOf s (mVd m) = some d) (serves : mVd m ∈ m.vds) :
    message i op m s bodyOk mine k = k s (mVd m) d (mBody m) := by
  simp [message, heard, head, code, body, own, inTurn_first first, opened, serves]

end

end

/-! ## The messages that stand in the frame -/

/-- The check of the body of each coded message (R211, R213). -/
def bodyCheck : Nat → List Byte → Bool
  | 2 => (·.isEmpty)
  | 3 => mapOk
  | 4 => fun b => decide (16 ≤ b.length) && leAt b 8 8 == 0
  | 5 => fun b => b.length == 16 && decide (leAt b 8 8 ≤ bodyMax)
  | 6 => launchOk
  | 7 => eventsOk
  | 8 => fun b => b.length == 32
  | 9 => logOk
  | _ => fun b => b.length == 4

/-- Of the LAUNCH messages, LAUNCH_START has those that start one. -/
def ownCheck : Nat → List Byte → Bool
  | 6 => fun b => leAt b 0 1 == 0
  | _ => fun _ => true

/-- The step of each coded message. -/
def codedStep (m : Kcp) : Nat → Instr
  | 2 => .closeVd m
  | 3 => .map m
  | 4 => .write m
  | 5 => .read m
  | 6 => .launchStart m
  | 7 => .events m
  | 8 => .attest m
  | 9 => .logFetch m
  | _ => .receiptFetch m

theorem eq_codedStep {i : Instr} {op : Nat} {m : Kcp} (coded : (i, op) ∈ codedMessages m) :
    i = codedStep m op ∧ 2 ≤ op ∧ op ≤ 10 := by
  simp only [codedMessages, List.mem_cons, Prod.mk.injEq, List.not_mem_nil, or_false] at coded
  obtain ⟨rfl, rfl⟩ | ⟨rfl, rfl⟩ | ⟨rfl, rfl⟩ | ⟨rfl, rfl⟩ | ⟨rfl, rfl⟩ | ⟨rfl, rfl⟩ | ⟨rfl, rfl⟩ | ⟨rfl, rfl⟩ |
    ⟨rfl, rfl⟩ := coded <;> exact ⟨rfl, by decide, by decide⟩

theorem code_cases {op : Nat} (low : 2 ≤ op) (high : op ≤ 10) :
    op = 2 ∨ op = 3 ∨ op = 4 ∨ op = 5 ∨ op = 6 ∨ op = 7 ∨ op = 8 ∨ op = 9 ∨ op = 10 := by omega

/-- A well-formed message passes the checks of its code. -/
theorem Formed.passes {op : Nat} {m : Kcp} (h : Formed m op) (low : 2 ≤ op) (high : op ≤ 10) :
    bodyCheck op (mBody m) = true ∧ ownCheck op (mBody m) = true := by
  obtain ⟨-, -, close, map, write, read, launch, events, attest, log, receipt⟩ := h
  obtain rfl | rfl | rfl | rfl | rfl | rfl | rfl | rfl | rfl := code_cases low high
  · exact ⟨by simp [bodyCheck, close rfl], rfl⟩
  · exact ⟨map rfl, rfl⟩
  · exact ⟨by simp [bodyCheck, write rfl], rfl⟩
  · exact ⟨by simp [bodyCheck, read rfl], rfl⟩
  · exact ⟨(launch rfl).1, by simp [ownCheck, launch rfl]⟩
  · exact ⟨events rfl, rfl⟩
  · exact ⟨by simp [bodyCheck, attest rfl], rfl⟩
  · exact ⟨log rfl, rfl⟩
  · exact ⟨by simp [bodyCheck, receipt rfl], rfl⟩

/-- Each coded message stands in the frame of its code, and passes the checks of its body where it is well formed. -/
theorem exec_coded {i : Instr} {op : Nat} {m : Kcp} (coded : (i, op) ∈ codedMessages m) (formed : Formed m op) :
    ∃ k, (∀ s, exec i s = message i op m s (bodyCheck op) (ownCheck op) k) ∧
      bodyCheck op (mBody m) = true ∧ ownCheck op (mBody m) = true := by
  obtain ⟨rfl, low, high⟩ := eq_codedStep coded
  suffices frame : ∃ k, ∀ s, exec (codedStep m op) s = message (codedStep m op) op m s (bodyCheck op) (ownCheck op) k from
    frame.imp fun k frame => ⟨frame, formed.passes low high⟩
  obtain rfl | rfl | rfl | rfl | rfl | rfl | rfl | rfl | rfl := code_cases low high
  · exact ⟨_, fun s => show execCloseVd m s = _ from rfl⟩
  · exact ⟨_, fun s => show execMap m s = _ from rfl⟩
  · exact ⟨_, fun s => show execWrite m s = _ from rfl⟩
  · exact ⟨_, fun s => show execRead m s = _ from rfl⟩
  · exact ⟨_, fun s => show execLaunchStart m s = _ from rfl⟩
  · exact ⟨_, fun s => show execEvents m s = _ from rfl⟩
  · exact ⟨_, fun s => show execAttest m s = _ from if_neg formed.associated⟩
  · exact ⟨_, fun s => show execLogFetch m s = _ from rfl⟩
  · exact ⟨_, fun s => show execReceiptFetch m s = _ from rfl⟩

/-- What any step of a message is: in the frame, OPEN_VD, or an ATTEST under no association. -/
theorem exec_hostStep {i : Instr} {m : Kcp} (step : i ∈ hostSteps m) :
    (∃ op bodyOk mine k, ∀ s, exec i s = message i op m s bodyOk mine k) ∨ i = .openVd m ∨ i = .attest m ∧ m.vds = [] := by
  simp only [hostSteps, List.mem_cons, List.not_mem_nil, or_false] at step
  obtain rfl | rfl | rfl | rfl | rfl | rfl | rfl | rfl | rfl | rfl | rfl | rfl | rfl := step
  · exact .inr (.inl rfl)
  · exact .inl ⟨_, _, _, _, fun s => show execCloseVd m s = _ from rfl⟩
  · exact .inl ⟨_, _, _, _, fun s => show execMap m s = _ from rfl⟩
  · exact .inl ⟨_, _, _, _, fun s => show execWrite m s = _ from rfl⟩
  · exact .inl ⟨_, _, _, _, fun s => show execRead m s = _ from rfl⟩
  · exact .inl ⟨_, _, _, _, fun s => show execLaunchStart m s = _ from rfl⟩
  · exact .inl ⟨_, _, _, _, fun s => show launchMessage (.launchResume m) 1 m s _ = _ from rfl⟩
  · exact .inl ⟨_, _, _, _, fun s => show launchMessage (.launchEnd m) 2 m s _ = _ from rfl⟩
  · exact .inl ⟨_, _, _, _, fun s => show launchMessage (.launchDrain m) 3 m s _ = _ from rfl⟩
  · exact .inl ⟨_, _, _, _, fun s => show execEvents m s = _ from rfl⟩
  · by_cases none_ : m.vds = []
    · exact .inr (.inr ⟨rfl, none_⟩)
    · exact .inl ⟨_, _, _, _, fun _ => if_neg none_⟩
  · exact .inl ⟨_, _, _, _, fun s => show execLogFetch m s = _ from rfl⟩
  · exact .inl ⟨_, _, _, _, fun s => show execReceiptFetch m s = _ from rfl⟩

end Sys2Proof.Proofs
end

section
/-!
SUPPORT. What each host message does once it is served (R93, R201, R212, R213, R225, R229, R231, R236, R323), and the statement
about them all (O42).
-/
namespace Sys2Proof.Proofs
open Sys2Proof Sys2Proof.Machine Sys2Proof.Laws

/-! ## Before any device is looked at -/

section
variable {m : Kcp} {s : State}

theorem exec_unheard (unheard : received s m = false) {i : Instr} (step : i ∈ hostSteps m) : exec i s = .next s := by
  obtain ⟨op, bodyOk, mine, k, frame⟩ | rfl | ⟨rfl, none_⟩ := exec_hostStep step
  · exact (frame s).trans (message_unheard unheard)
  · exact if_pos unheard
  · exact (if_pos none_).trans (if_pos unheard)

variable (heard : received s m = true)
include heard

theorem exec_malformed (first : FirstInTurn m s) (head : headOk m = false) {i : Instr} (step : i ∈ hostSteps m) :
    exec i s = .next (answer s m 1 0 []) := by
  obtain ⟨op, bodyOk, mine, k, frame⟩ | rfl | ⟨rfl, none_⟩ := exec_hostStep step
  · exact (frame s).trans (message_malformed heard first head)
  · show execOpenVd m s = _
    simp [execOpenVd, heard, head, inTurn_first first, kMalformed]
  · show execAttest m s = _
    simp [execAttest, none_, heard, head, kMalformed]

/-- OPEN_VD opens its device where it may (R212, R213, R215; log 70). -/
theorem execOpenVd_formed (first : FirstInTurn m s) (head : headOk m = true) (code : mOp m = 1) (body : openOk (mBody m) = true) :
    exec (.openVd m) s = .next (if mayOpen s m (mBody m) = true
      then answer (setVd s (mVd m) (newVd s (mBody m))) m 0 0 [] else answer s m 3 0 []) := by
  show execOpenVd m s = _
  cases may : mayOpen s m (mBody m) <;>
    simp [execOpenVd, heard, head, code, body, inTurn_first first, may, kOK, kDenied]

/-- An ATTEST under no association is answered whatever device it names (log 69). -/
theorem execAttest_unassociated (head : headOk m = true) (code : mOp m = 8) (body : (mBody m).length = 32) (none_ : m.vds = []) :
    exec (.attest m) s = .next (answer (sampleEnergy s) m 0 0 (report (sampleEnergy s) (mBody m))) := by
  show execAttest m s = _
  simp [execAttest, none_, heard, head, code, body, kOK]

end

/-- A sample counts what was drawn, up to the most that the counter holds (R235). -/
theorem le_sampleEnergy (s : State) : Nat.min s.energy (2 ^ 64 - 1) ≤ (sampleEnergy s).energy := by
  have drawn : (sampleEnergy s).energy = min (s.energy + Config.freeNat s.free) (2 ^ 64 - 1) := rfl
  rw [drawn]
  exact Nat.le_min.mpr ⟨Nat.le_trans (Nat.min_le_left _ _) (Nat.le_add_right _ _), Nat.min_le_right _ _⟩

/-! ## Messages that are served -/

/-- A well-formed message of code `op` that has its turn, to an open device that its association may command. -/
structure Served (s : State) (m : Kcp) (op : Nat) (d : VD) : Prop where
  heard : received s m = true
  first : FirstInTurn m s
  formed : Formed m op
  opened : vdOf s (mVd m) = some d
  serves : mVd m ∈ m.vds

section
variable {s : State} {m : Kcp} {op : Nat} {d : VD}

theorem Served.exec_eq {k : State → Nat → VD → List Byte → Out} (h : Served s m op d) (i : Instr)
    (frame : exec i s = message i op m s (bodyCheck op) (ownCheck op) k)
    (low : 2 ≤ op := by decide) (high : op ≤ 10 := by decide) : exec i s = k s (mVd m) d (mBody m) := by
  obtain ⟨body, own⟩ := h.formed.passes low high
  exact frame.trans (message_served h.heard h.formed.head h.formed.code body own h.first h.opened h.serves)

/-! ### CLOSE_VD (R213, R225, R236) -/

theorem lookup_mapEntries {α β : Type} (f : Nat → α → β) (m : Assoc α) (n : Nat) :
    lookup (m.map fun x => (x.1, f x.1 x.2)) n = (lookup m n).map (f n) := by
  induction m with
  | nil => rfl
  | cons c m ih =>
    obtain ⟨k, v⟩ := c
    simp only [List.map_cons, lookup]
    split
    · subst n; rfl
    · exact ih

/-- A device as a slice leaves it that passes from one device to another (R216). -/
def slicedVd (time old new v : Nat) (d : VD) : VD :=
  if v = old then { d with sliceOn := false } else if v = new then { d with sliceOn := true, sliceAt := time } else d

theorem vdOf_passSlice (s : State) (old new v : Nat) : vdOf (passSlice s old new) v = (vdOf s v).map (slicedVd s.time old new v) :=
  lookup_mapEntries (slicedVd s.time old new) s.vds v

/-- The slice of a closed device passes on, and opens no device. -/
theorem vdOf_inheritSlice_none {v mask : Nat} (closed : vdOf s v = none) : vdOf (inheritSlice s v mask) v = none := by
  unfold inheritSlice
  extract_lets set
  split
  · exact closed
  · split
    · rw [vdOf_passSlice, closed]; rfl
    · exact closed

theorem execCloseVd_served (h : Served s m 2 d) : ∃ u, vdOf u (mVd m) = none ∧
    exec (.closeVd m) s = .next (answer { u with full := u.full || (u.bringup == .done && u.vds.isEmpty) } m 0 0 []) := by
  refine ⟨_, ?_, h.exec_eq (.closeVd m) (show execCloseVd m s = _ from rfl)⟩
  exact vdOf_inheritSlice_none (lookup_remove_same _ _)

/-! ### MAP (R93) -/

/-- A MAP whose entries are all stored is answered OK; what was held on its pages is tried again. -/
theorem execMap_stored (h : Served s m 3 d) {s' : State}
    (stored : mapStores (mBody m) (List.range (leAt (mBody m) 16 4)) s = (s', none)) :
    exec (.map m) s = .next (answer (invalidate s' (mVd m) (leAt (mBody m) 0 8) (leAt (mBody m) 8 8)) m 0 0 []) := by
  refine (h.exec_eq (.map m) (show execMap m s = _ from rfl)).trans ?_
  simp only [stored, kOK]

/-- One that an address stops is answered FAULT, and invalidates all the same (log 23). -/
theorem execMap_stopped (h : Served s m 3 d) {s' : State} {c : Nat}
    (stopped : mapStores (mBody m) (List.range (leAt (mBody m) 16 4)) s = (s', some c)) :
    exec (.map m) s = .next (answer (invalidate s' (mVd m) (leAt (mBody m) 0 8) (leAt (mBody m) 8 8)) m 4 c []) := by
  refine (h.exec_eq (.map m) (show execMap m s = _ from rfl)).trans ?_
  simp only [stopped, kFault]

/-! ### WRITE and READ (R229) -/

/-- WRITE is answered by what ended it. -/
theorem execWrite_served (h : Served s m 4 d) {s' : State} {e : HostEnd}
    (write : hostWrite (mVd m) ((mBody m).length / 65536 + 2) (leAt (mBody m) 0 8) ((mBody m).drop 16) s = (s', e)) :
    exec (.write m) s = endAccess (.write m) s s' m [] e := by
  refine (h.exec_eq (.write m) (show execWrite m s = _ from rfl)).trans ?_
  simp only [write]

/-- READ is answered by what ended it, with the bytes before that. -/
theorem execRead_served (h : Served s m 5 d) {s' : State} {x : List Byte} {e : HostEnd}
    (read : hostRead (mVd m) (leAt (mBody m) 8 8 / 65536 + 2) (leAt (mBody m) 0 8) (leAt (mBody m) 8 8) s = (s', x, e)) :
    exec (.read m) s = endAccess (.read m) s s' m x e := by
  refine (h.exec_eq (.read m) (show execRead m s = _ from rfl)).trans ?_
  simp only [read]

/-! ### LAUNCH_START, EVENTS and ATTEST (R213, R231) -/

theorem execLaunchStart_served (h : Served s m 6 d) : exec (.launchStart m) s = .next (submit s (mVd m) (leAt (mBody m) 1 1)
    (leAt (mBody m) 8 8) (.host (BitVec.ofNat 64 (mTag m))) (partmapOf d (mBody m))) :=
  h.exec_eq (.launchStart m) (show execLaunchStart m s = _ from rfl)

theorem execEvents_served (h : Served s m 7 d) : exec (.events m) s =
    .next (answer (setVd s (mVd m) { d with events := d.events.drop (leAt (mBody m) 0 4) }) m 0 0
      (natBytes 4 (d.events.take (leAt (mBody m) 0 4)).length ++ natBytes 4 0 ++
        ((d.events.take (leAt (mBody m) 0 4)).map (natBytes 32)).flatten)) :=
  h.exec_eq (.events m) (show execEvents m s = _ from rfl)

theorem execAttest_served (h : Served s m 8 d) :
    exec (.attest m) s = .next (answer (sampleEnergy s) m 0 0 (report (sampleEnergy s) (mBody m))) :=
  h.exec_eq (.attest m) (show execAttest m s = _ from if_neg h.formed.associated)

/-! ### LOG_FETCH and RECEIPT_FETCH (R225, R229) -/

theorem mem_foldl_addNat {α : Type} (f : α → Nat) {xs : List α} {l : List Nat} {k : Nat} :
    k ∈ xs.foldl (fun l x => addNat l (f x)) l ↔ k ∈ l ∨ ∃ x ∈ xs, f x = k := by
  induction xs generalizing l with
  | nil => simp
  | cons x xs ih =>
    simp only [List.foldl_cons, ih, mem_addNat, List.mem_cons, or_and_right, exists_or, exists_eq_left, or_assoc, eq_comm (a := k)]
    exact or_left_comm

/-- The blocks of a log that a LOG_FETCH asks for. -/
def askedBlocks (l : MonLog) (b : List Byte) : Assoc (List Byte) :=
  (l.blocks.filter (fun x => decide (leAt b 4 4 ≤ x.1))).take (leAt b 8 4)

/-- Blocks of a monitor are answered, and marked as fetched; with none to answer, nothing changes. -/
theorem execLogFetch_blocks (h : Served s m 9 d) (kind : leAt (mBody m) 0 1 = 0) :
    let mon := leAt (mBody m) 1 1
    let l := (lookup d.monlogs mon).getD MonLog.empty
    let out := askedBlocks l (mBody m)
    ∃ f u, exec (.logFetch m) s = .next (answer u m 0 0 (blocksBody (out.map (·.2)))) ∧
      u = (if out = [] then s else setVd s (mVd m) { d with monlogs := insert d.monlogs mon { l with fetched := f } }) ∧
      (∀ k, k ∈ f ↔ k ∈ l.fetched ∨ ∃ x ∈ out, x.1 = k) := by
  intro mon l out
  refine ⟨out.foldl (fun f x => addNat f x.1) l.fetched, _,
    (h.exec_eq (.logFetch m) (show execLogFetch m s = _ from rfl)).trans ?_, rfl, fun k => mem_foldl_addNat Prod.fst⟩
  simp only [kind, ← List.isEmpty_iff]
  rfl

/-- Retirement records are answered in the order of their places. -/
theorem execLogFetch_records (h : Served s m 9 d) (kind : leAt (mBody m) 0 1 = 1) : exec (.logFetch m) s =
    .next (answer s m 0 0 (blocksBody (((s.brock.flash.map (·.2)).drop (leAt (mBody m) 4 4)).take (leAt (mBody m) 8 4)))) :=
  (h.exec_eq (.logFetch m) (show execLogFetch m s = _ from rfl)).trans (if_pos kind)

/-- RECEIPT_FETCH answers the latest receipt of the engagement, or NOT_FOUND. -/
theorem execReceiptFetch_found (h : Served s m 10 d) {r : Receipt}
    (found : s.receipts.reverse.find? (fun r => r.engid == leAt (mBody m) 0 4) = some r) :
    exec (.receiptFetch m) s = .next (answer s m 0 0 r.bytes) := by
  refine (h.exec_eq (.receiptFetch m) (show execReceiptFetch m s = _ from rfl)).trans ?_
  simp only [found, kOK]

theorem execReceiptFetch_none (h : Served s m 10 d) (none_ : ∀ r ∈ s.receipts, r.engid ≠ leAt (mBody m) 0 4) :
    exec (.receiptFetch m) s = .next (answer s m 5 0 []) := by
  have missing : s.receipts.reverse.find? (fun r => r.engid == leAt (mBody m) 0 4) = none :=
    List.find?_eq_none.mpr (by simpa using none_)
  refine (h.exec_eq (.receiptFetch m) (show execReceiptFetch m s = _ from rfl)).trans ?_
  simp only [missing, kNotFound]

end

/-! ## LAUNCH_RESUME, LAUNCH_END and LAUNCH_DRAIN (R201, R213, R323) -/

section
variable {s : State} {m : Kcp} {d : VD} {n : Nat} {i : Instr} {k : State → Launch → State} (heard : received s m = true)
  (first : FirstInTurn m s) (head : headOk m = true) (code : mOp m = 6) (body : launchOk (mBody m) = true)
  (kind : leAt (mBody m) 0 1 = n) (opened : vdOf s (mVd m) = some d) (serves : mVd m ∈ m.vds)
include heard first head code body kind opened serves

/-- A message that names a launch of its device acts on it. -/
theorem launchMessage_found {l : Launch} (found : launchOf s (leAt (mBody m) 16 8) = some l) (own : l.vd = mVd m) :
    launchMessage i n m s k = .next (answer (k s l) m 0 0 (natBytes 8 l.lseq)) := by
  refine (message_served heard head code body (by simp [kind]) first opened serves).trans ?_
  simp only [found, own, if_true]
  rfl

/-- One that names none of its device's is answered NOT_FOUND. -/
theorem launchMessage_notFound (foreign : ∀ l, launchOf s (leAt (mBody m) 16 8) = some l → l.vd ≠ mVd m) :
    launchMessage i n m s k = .next (answer s m 5 0 (natBytes 8 0)) := by
  refine (message_served heard head code body (by simp [kind]) first opened serves).trans ?_
  split
  · exact if_neg (foreign _ ‹_›)
  · rfl

end

/-- A launch that is drained is frozen for it (R213; log 51: within the step of its message). -/
theorem drain_mem_frozen_drainLaunch {s : State} {l : Launch} (h : launchOf s l.lseq = some l) :
    ∃ l', launchOf (drainLaunch s l) l.lseq = some l' ∧ Freeze.drain ∈ l'.frozen := by
  unfold drainLaunch
  split
  · obtain ⟨l', h', -, -, reasons⟩ := launchOf_freezeLaunch h (.drain :: l.asked)
    exact ⟨l', h', (reasons _).mpr (.inl List.mem_cons_self)⟩
  · exact ⟨_, launchOf_setLaunch s _, mem_addFreeze.mpr (.inl rfl)⟩

/-- Settles O42: the frame of a message (`message_…`) says which are turned away, wait or are served; what each does once served is
its own lemma (`exec…_served` and the like). That a drain freezes its launch within its step is log 51. -/
theorem hostMessages : Obligations.HostMessages := by
  unfold Obligations.HostMessages
  intro s m v b le messages formed sampled heard all
  have reaches : received s m = true ↔ heard := received_iff s m
  refine ⟨fun no i step => exec_unheard (Bool.eq_false_iff.mpr (mt reaches.mp no)) step, fun heard => ?_⟩
  replace heard := reaches.mpr heard
  refine ⟨fun i op coded formed behind fresh => ?behind, fun i op coded formed alone => ?alone, fun first => ⟨
    fun head i step => exec_malformed heard first head step, fun head code body => ⟨fun may => ?opens, fun may => ?refused⟩,
    fun head code body none_ => ?attest, fun i op coded formed => ⟨fun closed => ?noVd, fun d opened foreign => ?denied,
    fun d opened serves => ?served⟩, fun i n step head code body kind d opened serves => ?launch⟩⟩
  case behind =>
    obtain ⟨k, frame, body, own⟩ := exec_coded coded formed
    exact (frame s).trans (message_behind heard (Formed.head formed) (Formed.code formed) body own behind fresh)
  case alone =>
    obtain ⟨k, frame, body, own⟩ := exec_coded coded formed
    rw [frame, frame]
    exact message_alone heard (Formed.head formed) (Formed.code formed) body own alone
  case opens => rw [execOpenVd_formed heard first head code body, if_pos may]
  case refused => rw [execOpenVd_formed heard first head code body, if_neg (by simp [b, may])]
  case attest =>
    exact ⟨(sampleEnergy s).energy, le_sampleEnergy s, execAttest_unassociated heard head code body none_⟩
  case noVd =>
    obtain ⟨k, frame, body, own⟩ := exec_coded coded formed
    exact (frame s).trans (message_noVd heard (Formed.head formed) (Formed.code formed) body own first closed)
  case denied =>
    obtain ⟨k, frame, body, own⟩ := exec_coded coded formed
    exact (frame s).trans (message_denied heard (Formed.head formed) (Formed.code formed) body own first opened foreign)
  case served =>
    have h : Served s m op d := ⟨heard, first, formed, opened, serves⟩
    obtain ⟨rfl, -⟩ := eq_codedStep coded
    refine ⟨?close, ?map, ?mapFault, ?write, ?writeFault, ?writeWaits, ?read, ?readFault, ?readWaits, ?start, ?events, ?attest,
      ?blocks, ?records, ?receipt, ?noReceipt⟩ <;> rintro rfl
    case close => exact execCloseVd_served h
    case map => exact fun s' stored => execMap_stored h stored
    case mapFault => exact fun s' c stopped => execMap_stopped h stopped
    case write => exact fun s' write => execWrite_served h write
    case writeFault => exact fun s' c write => execWrite_served h write
    case writeWaits => exact fun s' write => execWrite_served h write
    case read => exact fun s' x read => execRead_served h read
    case readFault => exact fun s' x c read => execRead_served h read
    case readWaits => exact fun s' x read => execRead_served h read
    case start => exact execLaunchStart_served h
    case events => exact execEvents_served h
    case attest => exact ⟨(sampleEnergy s).energy, le_sampleEnergy s, execAttest_served h⟩
    case blocks => exact execLogFetch_blocks h
    case records => exact execLogFetch_records h
    case receipt => exact fun r found => execReceiptFetch_found h found
    case noReceipt => exact execReceiptFetch_none h
  case launch =>
    have named {k : State → Launch → State} (frame : exec i s = launchMessage i n m s k) :
        (∀ l, launchOf s (le 16 8) = some l → l.vd = v → exec i s = .next (answer (k s l) m 0 0 (natBytes 8 l.lseq))) ∧
        ((∀ l, launchOf s (le 16 8) = some l → l.vd ≠ v) → exec i s = .next (answer s m 5 0 (natBytes 8 0))) :=
      ⟨fun l found own => frame.trans (launchMessage_found heard first head code body kind opened serves found own),
        fun foreign => frame.trans (launchMessage_notFound heard first head code body kind opened serves foreign)⟩
    simp only [List.mem_cons, Prod.mk.injEq, List.not_mem_nil, or_false] at step
    obtain ⟨rfl, rfl⟩ | ⟨rfl, rfl⟩ | ⟨rfl, rfl⟩ := step
    · obtain ⟨found, notFound⟩ := named (k := resumeLaunch) rfl
      exact ⟨fun l hl own => ⟨_, found l hl own, fun _ => rfl, nofun, nofun⟩, notFound⟩
    · obtain ⟨found, notFound⟩ := named (k := fun s l => endLaunch s l.lseq stOK 0 false) rfl
      exact ⟨fun l hl own => ⟨_, found l hl own, nofun, fun _ => launchOf_endLaunch _ _ _ _ _, nofun⟩, notFound⟩
    · obtain ⟨found, notFound⟩ := named (k := drainLaunch) rfl
      exact ⟨fun l hl own => ⟨_, found l hl own, nofun, nofun, fun _ number => drain_mem_frozen_drainLaunch (number ▸ hl)⟩,
        notFound⟩

end Sys2Proof.Proofs
end

section
/-!
SUPPORT. A device whose table of logs lists a monitor twice, its store full (R229; log 101): what LOG_BLOCK_SEAL seals there, and
the refutation of the statement about slices, narrowing, monitors and remote accesses (O52).

LOG_BLOCK_SEAL looks its monitor's log up, which answers the first entry of that number. Where the store is full, the entry that
gives up a block is the first one with a fetched block, and is put back under its number. In a table that lists each number once,
in rising order, as the module's own steps build it, no other entry has the monitor's number. The statement is about every state,
though, and so about a table that lists the monitor twice: there the second entry takes the first one's place as it makes room,
and the block that is sealed is that of the second.
-/
namespace Sys2Proof.Proofs
open Sys2Proof Sys2Proof.Machine Sys2Proof.Laws

/-! ## LOG_BLOCK_SEAL (R229) -/

/-- The seal counts a monitor's blocks on from where its log stands once room is made. -/
theorem lookup_sealBlock (time v mon : Nat) (d : VD) : ∃ l, lookup (sealBlock time v mon d).monlogs mon = some l ∧
    l.next = (logOf (makeRoom d) mon).next + 1 :=
  ⟨_, lookup_insert_same _ _ _, rfl⟩

/-- A block that a second has passed over is sealed, where the store has room or a fetched block. -/
theorem execLogBlockSeal_seals {s : State} {v mon : Nat} {d : VD} {l : MonLog} (vd : vdOf s v = some d)
    (log : lookup d.monlogs mon = some l) (written : l.recs ≠ []) (due : l.openAt + 1000000000 ≤ s.time)
    (room : logFull d = false) : ∃ t d' l', exec (.logBlockSeal v mon) s = .next t ∧ vdOf t v = some d' ∧
      lookup d'.monlogs mon = some l' ∧ l'.next = (logOf (makeRoom d) mon).next + 1 := by
  have seals : exec (.logBlockSeal v mon) s = .next (setVd s v (sealBlock s.time v mon d)) := by
    show execLogBlockSeal v mon s = _
    simp [execLogBlockSeal, vd, log, written, room, Nat.not_lt.mpr due]
  obtain ⟨l', log', next⟩ := lookup_sealBlock s.time v mon d
  exact ⟨_, _, l', seals, vdOf_setVd _ _ _, log', next⟩

/-! ## The module -/

/-- The blocks of a full store. -/
def storedBlocks : Assoc (List Byte) := (List.range 4096).map fun k => (k, [])

theorem length_storedBlocks : storedBlocks.length = 4096 := by simp [storedBlocks]

/-- A log of one record and a full store, none of it fetched; its next block is number 4096. -/
def unfetchedLog : MonLog := { MonLog.empty with recs := [5], blocks := storedBlocks, next := 4096 }

/-- A log with one block, which was fetched; its next block is number 1. -/
def fetchedLog : MonLog := { MonLog.empty with blocks := [(0, [])], fetched := [0], next := 1 }

/-- The device of the loaded program, its monitor 0 listed twice. -/
def doubledVd : VD := { loaderVd with monlogs := [(0, unfetchedLog), (0, fetchedLog)] }

/-- The module with that device, one second on. -/
def doubledModule : State := { setVd State.reset 0 doubledVd with time := 1000000000 }

theorem storeFull_doubledVd : storeFull doubledVd = true := by
  simp [storeFull, doubledVd, unfetchedLog, length_storedBlocks]

theorem logFull_doubledVd : logFull doubledVd = false := by
  simp [logFull, doubledVd, fetchedLog]

/-- The second entry makes room, and takes the first one's place. -/
theorem makeRoom_doubledVd : makeRoom doubledVd = setLog doubledVd 0 { fetchedLog with blocks := [], fetched := [] } := by
  rw [makeRoom, storeFull_doubledVd]
  rfl

/-- Refutes O52: LOG_BLOCK_SEAL of a monitor that the table lists twice seals a block of the entry that makes room, number 1, and
not of the entry that is looked up, number 4096 (`doubledModule`). -/
theorem not_sharingEvents : ¬ Obligations.SharingEvents := by
  unfold Obligations.SharingEvents
  intro h
  obtain ⟨-, -, -, -, logs, -⟩ := h doubledModule
  obtain ⟨-, -, -, seals⟩ := logs 0 0 doubledVd unfetchedLog rfl rfl
  have written : unfetchedLog.recs ≠ [] := List.cons_ne_nil _ _
  have due : unfetchedLog.openAt + 1000000000 ≤ doubledModule.time := Nat.le_refl _
  obtain ⟨t, d, l, -, run, vd, log, -, next, -⟩ := seals written (.inl due) logFull_doubledVd
  obtain ⟨t', d', l', run', vd', log', next'⟩ :=
    execLogBlockSeal_seals (s := doubledModule) (v := 0) (mon := 0) rfl rfl written due logFull_doubledVd
  rw [makeRoom_doubledVd] at next'
  obtain rfl : t = t' := Host.Outcome.next.inj (run.symm.trans run')
  obtain rfl : d = d' := Option.some.inj (vd.symm.trans vd')
  obtain rfl : l = l' := Option.some.inj (log.symm.trans log')
  have two : unfetchedLog.next + 1 = fetchedLog.next + 1 := next.symm.trans next'
  exact absurd two (by decide)

end Sys2Proof.Proofs
end

section
/-!
SUPPORT. The machine right after power-on (R236).
-/
namespace Sys2Proof.Proofs
open Sys2Proof Sys2Proof.Machine Sys2Proof.Laws

/-- Settles O58: power-on lists no byte of memory (log 7) and latches no instruction (log 1). -/
theorem soundReset : Obligations.SoundReset := by
  unfold Obligations.SoundReset
  have listsNothing : State.reset.mem = [] := rfl
  have idle : State.reset.latch = none := rfl
  exact sound_iff.mpr ⟨listsNothing ▸ rfl, idle, Nat.le_refl _⟩

end Sys2Proof.Proofs
end

section
/-!
SUPPORT. Writes of a register of the device (R218, R253, R289): the checks they pass, and what a write that its register takes, or
refuses, comes to.
-/
namespace Sys2Proof.Proofs
open Sys2Proof Sys2Proof.Machine Sys2Proof.Laws

section
variable {s : State} {t : Thread} {a : Reg} {sr : BitVec 12} {l : Launch} {v : VD}

/-- A supervisor's write that its device may make reaches the register, and traps where the register refuses it. -/
theorem sysWrite_error {r : Level} {c x : Nat} (serving : Serving s t [a]) (mode : t.mode = true)
    (levels : srLevels sr.toNat = some (r, some .s)) (cap : capOk s t sr.toNat = true) (shared : isThreadReg sr.toNat = false)
    (refused : sharedWrite s t sr.toNat (t.g a) = .error (c, x)) :
    sysWrite sr a s = trapped s t c t.pc (BitVec.ofNat 64 x) := by
  obtain ⟨served, owned⟩ := serving
  have passed := writeCheck_none (s := s) (.mts sr a) levels (fun _ => mode) cap
  simp [sysWrite, instr_serving served owned, passed, shared, refused, trapped]

/-- The state that a write leaves: an open or close of an engagement is a release at scope 4 (R221). -/
def afterWrite (s : State) (sr : BitVec 12) (w : Nat) (u : State) : State :=
  if opensOrCloses sr.toNat w then showStores u s.cur 4 else u

/-- Where the register takes the write, its thread, if it lives on, completes the instruction. -/
theorem sysWrite_ok {r : Level} {u : State} (serving : Serving s t [a]) (mode : t.mode = true)
    (levels : srLevels sr.toNat = some (r, some .s)) (cap : capOk s t sr.toNat = true) (shared : isThreadReg sr.toNat = false)
    (taken : sharedWrite s t sr.toNat (t.g a) = .ok u) {w : State} (after : afterWrite s sr (t.g a).toNat u = w)
    (same : w.cur = s.cur) :
    (∀ t', threadOf w s.cur = some t' → sysWrite sr a s = completed w t' 4#64) ∧
      (threadOf w s.cur = none → sysWrite sr a s = .next w) := by
  subst after
  obtain ⟨served, owned⟩ := serving
  have passed := writeCheck_none (s := s) (.mts sr a) levels (fun _ => mode) cap
  unfold afterWrite at same ⊢
  constructor
  · intro t' lives
    simp [sysWrite, instr_serving served owned, passed, shared, taken, lives, done, completed, same]
  · intro gone
    simp [sysWrite, instr_serving served owned, passed, shared, taken, gone]

/-- The writes of ENGCTL need bit 1 of the device's CAPS, and those of the monitors bit 2 (R218). -/
theorem capOk_engctl (launch : launchOf s t.lseq = some l) (device : vdOf s l.vd = some v) (cap : v.caps / 2 % 2 = 1) :
    capOk s t 0x013 = true := by
  simp [capOk, launch, device, cap]

theorem capOk_monitor (launch : launchOf s t.lseq = some l) (device : vdOf s l.vd = some v) (cap : v.caps / 4 % 2 = 1) {n : Nat}
    (lo : 0x015 ≤ n) (hi : n ≤ 0x017) : capOk s t n = true := by
  have ne : n ≠ 0x013 := by omega
  simp [capOk, launch, device, cap, lo, hi, ne]

end

end Sys2Proof.Proofs
end

section
/-!
SUPPORT. The registers of the range monitors (R227): what a write leaves of the selected monitor, and that the record it appends
changes the device's logs alone.
-/
namespace Sys2Proof.Proofs
open Sys2Proof Sys2Proof.Machine Sys2Proof.Laws

/-! ## What a record leaves of its device (R228, R229) -/

/-- A device has changed in no more than its logs. -/
def OnlyLogs (d d' : VD) : Prop := d' = { d with monlogs := d'.monlogs }

theorem OnlyLogs.refl (d : VD) : OnlyLogs d d := rfl

theorem OnlyLogs.trans {a b c : VD} (h : OnlyLogs a b) (g : OnlyLogs b c) : OnlyLogs a c := by
  unfold OnlyLogs at *
  rw [g, h]

theorem OnlyLogs.foldl {α : Type} {f : VD → α → VD} (hf : ∀ d x, OnlyLogs d (f d x)) (xs : List α) (d : VD) :
    OnlyLogs d (xs.foldl f d) := by
  induction xs generalizing d with
  | nil => exact .refl d
  | cons x xs ih => exact (hf d x).trans (ih (f d x))

theorem onlyLogs_setLog (d : VD) (mon : Nat) (l : MonLog) : OnlyLogs d (setLog d mon l) := rfl

theorem onlyLogs_makeRoom (d : VD) : OnlyLogs d (makeRoom d) := by
  unfold makeRoom
  split
  · split
    · exact onlyLogs_setLog _ _ _
    · exact .refl d
  · exact .refl d

theorem onlyLogs_sealBlock (time v mon : Nat) (d : VD) : OnlyLogs d (sealBlock time v mon d) :=
  (onlyLogs_makeRoom d).trans (onlyLogs_setLog _ _ _)

theorem onlyLogs_appendRec (time v mon : Nat) (d : VD) (r : Nat) : OnlyLogs d (appendRec time v mon d r) := by
  unfold appendRec
  extract_lets l d'
  have appended : OnlyLogs d d' := onlyLogs_setLog _ _ _
  exact iteInduction (fun _ => appended.trans (onlyLogs_sealBlock _ _ _ _)) fun _ => appended

theorem onlyLogs_closeWindow (time v mon : Nat) (d : VD) : OnlyLogs d (closeWindow time v mon d) := by
  unfold closeWindow
  extract_lets l now old
  exact (onlyLogs_setLog _ _ _).trans (.foldl (fun d t => onlyLogs_appendRec _ _ _ d _) old _)

/-! ## A monitor as a write leaves it (R227) -/

/-- A monitor settled in a window and then written in it: BASE and EN, or LIMIT, as they stand from the next window on. -/
def writtenMonitor (m : Monitor) (now : Nat) (lim : Bool) (w : Nat) : Monitor :=
  if lim then { m.settled now with nlimit := fld w 55 16, win := now }
  else { m.settled now with nbase := fld w 55 16, nen := w % 2 = 1, win := now }

/-- A monitor written in a window keeps what it has in force until the window ends. -/
theorem settled_of_win {m : Monitor} {now : Nat} (h : m.win = now) : m.settled now = m := by
  simp [Monitor.settled, h]

/-- What a monitor covers in a window stands, whatever is written in that window. -/
theorem covers_writtenMonitor_now (m : Monitor) (now : Nat) (lim : Bool) (w g : Nat) :
    (writtenMonitor m now lim w).covers now g = m.covers now g := by
  have win : (writtenMonitor m now lim w).win = now := by cases lim <;> rfl
  unfold Monitor.covers
  rw [settled_of_win win]
  cases lim <;> rfl

/-- In the next window it covers what has been written. -/
theorem covers_writtenMonitor_next (m : Monitor) (now : Nat) (lim : Bool) (w g : Nat) :
    let m' := writtenMonitor m now lim w
    m'.covers (now + 1) g = (m'.nen && decide (m'.nbase ≤ g ∧ g ≤ m'.nlimit)) := by
  intro m'
  have win : m'.win < now + 1 := by cases lim <;> exact Nat.lt_succ_self now
  simp [Monitor.covers, Monitor.settled, win, Bool.and_assoc]

/-- Settling a monitor leaves what has been written. -/
theorem written_settled (m : Monitor) (now : Nat) :
    (m.settled now).nbase = m.nbase ∧ (m.settled now).nen = m.nen ∧ (m.settled now).nlimit = m.nlimit := by
  unfold Monitor.settled
  split <;> exact ⟨rfl, rfl, rfl⟩

/-- The write changes the selected monitor and the device's logs. -/
theorem monitorWrite_eq (s : State) (k : Nat) (v : VD) (lseq : Nat) (lim : Bool) (w : Nat) : ∃ logs,
    monitorWrite s k v lseq lim w = setVd s k { v with
      mons := Machine.insert v.mons v.rmsel (writtenMonitor (lookupD v.mons v.rmsel Monitor.off) (winOf s.time) lim w)
      monlogs := logs } := by
  unfold monitorWrite
  extract_lets now m m' r d
  have logged : OnlyLogs v d := (onlyLogs_closeWindow _ _ _ _).trans (onlyLogs_appendRec _ _ _ _ _)
  refine ⟨d.monlogs, ?_⟩
  rw [logged]
  rfl

/-! ## The instructions -/

section
variable {s : State} {t : Thread} {a : Reg} {l : Launch} {v : VD} (serving : Serving s t [a]) (mode : t.mode = true)
  (launch : launchOf s t.lseq = some l) (device : vdOf s l.vd = some v) (cap : v.caps / 4 % 2 = 1)
include serving mode launch device cap

/-- A write of a monitor's register completes with what the device has become. -/
theorem sysWrite_monitor {sr : BitVec 12} {v' : VD} (lo : 0x015 ≤ sr.toNat) (hi : sr.toNat ≤ 0x017)
    (taken : sharedWrite s t sr.toNat (t.g a) = .ok (setVd s l.vd v')) :
    sysWrite sr a s = completed (setVd s l.vd v') t 4#64 := by
  have number : sr.toNat = 0x015 ∨ sr.toNat = 0x016 ∨ sr.toNat = 0x017 := by omega
  have levels : srLevels sr.toNat = some (.s, some .s) := by rcases number with h | h | h <;> rw [h] <;> rfl
  have shared : isThreadReg sr.toNat = false := by rcases number with h | h | h <;> rw [h] <;> rfl
  have plain : afterWrite s sr (t.g a).toNat (setVd s l.vd v') = setVd s l.vd v' := by
    unfold afterWrite opensOrCloses
    rcases number with h | h | h <;> rw [h] <;> rfl
  exact (sysWrite_ok serving mode levels (capOk_monitor launch device cap lo hi) shared taken plain rfl).1 t serving.1

theorem sysWrite_rmsel :
    sysWrite 0x015#12 a s = completed (setVd s l.vd { v with rmsel := (t.g a).toNat % 16 }) t 4#64 :=
  sysWrite_monitor serving mode launch device cap (by decide) (by decide) (by simp [sharedWrite, launch, device])

theorem sysWrite_rmbase_rmlim {sr : BitVec 12} (number : sr = 0x016#12 ∨ sr = 0x017#12) : ∃ logs,
    sysWrite sr a s = completed (setVd s l.vd { v with
      mons := Machine.insert v.mons v.rmsel
        (writtenMonitor (lookupD v.mons v.rmsel Monitor.off) (winOf s.time) (sr.toNat == 0x017) (t.g a).toNat)
      monlogs := logs }) t 4#64 := by
  obtain ⟨logs, eq⟩ := monitorWrite_eq s l.vd v t.lseq (sr.toNat == 0x017) (t.g a).toNat
  refine ⟨logs, sysWrite_monitor serving mode launch device cap ?_ ?_ ?_⟩
  · rcases number with rfl | rfl <;> decide
  · rcases number with rfl | rfl <;> decide
  · rw [← eq]
    rcases number with rfl | rfl <;> simp [sharedWrite, launch, device]

end

/-- Settles O26: RMSEL is a field of the device; a write of RMBASE or RMLIM settles the selected monitor in this window and takes
its fields for the next (`writtenMonitor`), and beside it changes the logs alone, since it appends a record of KIND 2. The rows
of MONITOR_CONFIG_WRITE are the MTS of their registers (log 18). -/
theorem monitorRegisters : Obligations.MonitorRegisters := by
  unfold Obligations.MonitorRegisters
  intro s t a l v serving mode launch device cap x hx now m
  subst hx
  refine ⟨sysWrite_rmsel serving mode launch device cap, fun n number i mts => ?_⟩
  obtain ⟨logs, wrote⟩ := sysWrite_rmbase_rmlim serving mode launch device cap number
  have row : exec i s = sysWrite n a s := by
    simp only [List.mem_cons, List.not_mem_nil, or_false] at mts
    rcases mts with rfl | rfl <;> rfl
  obtain ⟨nbase, nen, nlimit⟩ := written_settled m now
  refine ⟨_, writtenMonitor m now (n.toNat == 0x017) (t.g a).toNat, row.trans wrote, rfl, lookup_insert_same _ _ _,
    fun j ne => lookup_insert_other _ _ ne, ?rmbase, ?rmlim, covers_writtenMonitor_now m now _ _,
    covers_writtenMonitor_next m now _ _⟩
  case rmbase => rintro rfl; exact ⟨rfl, rfl, nlimit⟩
  case rmlim => rintro rfl; exact ⟨rfl, nbase, nen⟩

end Sys2Proof.Proofs
end

section
/-!
SUPPORT. The thread being served, and what each device's ENGCTL holds (R221): the end of a launch (R165, R323) leaves both as they
are, whatever else it does to devices, plots, threads and memory.
-/
namespace Sys2Proof.Proofs
open Sys2Proof Sys2Proof.Machine Sys2Proof.Laws

/-- A device has changed in no more than what leaves its ENGCTL alone. -/
structure SameEngctl (d d' : VD) : Prop where
  slot : d'.slot = d.slot
  peer : d'.peer = d.peer
  engid : d'.engid = d.engid

/-- The same thread is served, and no device is gone or has another ENGCTL. -/
structure KeepsEngctl (s s' : State) : Prop where
  cur : s'.cur = s.cur
  device : ∀ {v d}, vdOf s v = some d → ∃ d', vdOf s' v = some d' ∧ SameEngctl d d'

namespace KeepsEngctl

/-- Where the table of devices stands, so does each one's ENGCTL. -/
theorem of_vds {s s' : State} (cur : s'.cur = s.cur) (vds : s'.vds = s.vds) : KeepsEngctl s s' :=
  ⟨cur, fun {v d} h => ⟨d, (congrArg (lookup · v) vds).trans h, rfl, rfl, rfl⟩⟩

theorem refl (s : State) : KeepsEngctl s s := of_vds rfl rfl

theorem trans {a b c : State} (h : KeepsEngctl a b) (g : KeepsEngctl b c) : KeepsEngctl a c := by
  refine ⟨g.cur.trans h.cur, fun hd => ?_⟩
  obtain ⟨d1, hd1, slot1, peer1, engid1⟩ := h.device hd
  obtain ⟨d2, hd2, slot2, peer2, engid2⟩ := g.device hd1
  exact ⟨d2, hd2, slot2.trans slot1, peer2.trans peer1, engid2.trans engid1⟩

theorem foldl {α : Type} {f : State → α → State} (hf : ∀ s a, KeepsEngctl s (f s a)) (l : List α) (s : State) :
    KeepsEngctl s (l.foldl f s) := by
  induction l generalizing s with
  | nil => exact refl s
  | cons a l ih => exact (hf s a).trans (ih (f s a))

/-- A device put back with its ENGCTL as it was. -/
theorem setVd {s : State} {v : Nat} {d x : VD} (h : vdOf s v = some d) (same : SameEngctl d x) :
    KeepsEngctl s (setVd s v x) := by
  refine ⟨rfl, fun {v' d'} h' => ?_⟩
  by_cases e : v' = v
  · subst e
    cases h.symm.trans h'
    exact ⟨x, vdOf_setVd s v' x, same⟩
  · exact ⟨d', (lookup_insert_other _ _ e).trans h', rfl, rfl, rfl⟩

end KeepsEngctl

/-! ## Stores of collectives that are given up (R271, R408) -/

theorem keepsEngctl_markLeaf (s : State) (leaf : Nat) (dirty : Bool) : KeepsEngctl s (markLeaf s leaf dirty) :=
  iteInduction (fun _ => .refl s) fun _ => .of_vds rfl rfl

/-- An agent whose accesses do not go through the XT slices leaves them as they are (R93). -/
theorem xtTranslate_fst_of_walks {c : Ctx} (walks : c.agent.usesXt = false) (s : State) (k : Kind) (va : Nat) :
    (xtTranslate s c k va).1 = s := by
  have walk (vd : VD) : (xtWalk s c vd va).1 = s := by simp [xtWalk, walks]
  unfold xtTranslate
  split
  · rfl
  · rename_i vd _
    split
    · rfl
    · have same := walk vd
      split <;> rename_i e <;> rw [e] at same
      · exact same
      · split <;> exact same

theorem keepsEngctl_touchFrame (s : State) (l : Loc) (e : Nat) : KeepsEngctl s (touchFrame s l e) := by
  unfold touchFrame
  split
  · exact iteInduction (fun _ => .refl s) fun _ => .of_vds rfl rfl
  · exact .refl s

/-- The checks of a collective's access mark a leaf and remember a frame. -/
theorem keepsEngctl_dataCheck_coll {c : Ctx} (coll : c.agent = .coll) (s : State) (k : Kind) (ea n al : Nat) :
    KeepsEngctl s (dataCheck s c k ea n al).1 := by
  have walks : c.agent.usesXt = false := by rw [coll]; rfl
  unfold dataCheck
  split
  · exact .refl s
  · have same := xtTranslate_fst_of_walks walks s k ea
    split <;> rename_i e <;> rw [e] at same
    · exact same ▸ .refl s
    · rename_i s1 leaf pte pa
      extract_lets s2
      have hMark : KeepsEngctl s s2 :=
        same ▸ iteInduction (fun _ => keepsEngctl_markLeaf s1 _ _) fun _ => .refl s1
      split
      · rw [if_pos (.inr (.inr coll))]
        exact hMark.trans (keepsEngctl_touchFrame s2 _ pte)
      · exact hMark

theorem keepsEngctl_usePage (s : State) (p off : Nat) (w : Bool) : KeepsEngctl s (usePage s p off w) := by
  unfold usePage
  extract_lets k
  split
  · exact iteInduction (fun _ => .of_vds rfl rfl) fun _ => .refl s
  · exact .of_vds rfl rfl

theorem keepsEngctl_winWrite (s : State) (p off n v : Nat) : KeepsEngctl s (winWrite s p off n v) := by
  unfold winWrite
  split
  · rename_i o _
    have hLand : KeepsEngctl s (landStores s (scratchAddr p o) n) := .of_vds rfl rfl
    have hPage := hLand.trans (keepsEngctl_usePage _ p o true)
    exact hPage.trans (.of_vds rfl rfl)
  · exact iteInduction (fun _ => .refl s) fun _ => .of_vds rfl rfl
  · exact .of_vds rfl rfl
  · exact .of_vds rfl rfl
  · exact .refl s

theorem keepsEngctl_rekeySector (s : State) (eng sec : Nat) : KeepsEngctl s (rekeySector s eng sec) := by
  unfold rekeySector
  split
  · exact iteInduction (fun _ => .refl s) fun _ => .of_vds rfl rfl
  · exact .of_vds rfl rfl

theorem keepsEngctl_writeKeyed (s : State) (eng a n v : Nat) : KeepsEngctl s (writeKeyed s eng a n v) := by
  unfold writeKeyed
  extract_lets s1
  have hLand : KeepsEngctl s (landStores s a n) := .of_vds rfl rfl
  have hKeys : KeepsEngctl s s1 := hLand.trans (.foldl (fun s sec => keepsEngctl_rekeySector s eng sec) _ _)
  exact hKeys.trans (.of_vds rfl rfl)

theorem keepsEngctl_writeLoc (s : State) (l : Loc) (n v : Nat) : KeepsEngctl s (writeLoc s l n v) := by
  unfold writeLoc
  split
  · exact keepsEngctl_winWrite _ _ _ _ _
  · exact .refl s
  · exact keepsEngctl_writeKeyed _ _ _ _ _

theorem keepsEngctl_storeVA_coll {c : Ctx} (coll : c.agent = .coll) (s : State) (ea n al v : Nat) :
    KeepsEngctl s (storeVA s c ea n al v).1 := by
  have h := keepsEngctl_dataCheck_coll coll s .write ea n al
  unfold storeVA
  split <;> rename_i e <;> rw [e] at h
  · exact h.trans (keepsEngctl_writeLoc _ _ _ _)
  · exact h
  · exact h

theorem keepsEngctl_scatterFrom (c : Coll) (p : CollPart) (vs : List Nat) (s : State) (i : Nat) :
    KeepsEngctl s (scatterFrom s c p i vs).1 := by
  induction vs generalizing s i with
  | nil => exact .refl s
  | cons v vs ih =>
    unfold scatterFrom
    extract_lets s1 r t
    have hDraw : KeepsEngctl s s1 := .of_vds rfl rfl
    have hElem : KeepsEngctl s r.1 := by
      refine iteInduction (motive := fun r : State × Nat => KeepsEngctl s r.1) (fun _ => ?_) fun _ => hDraw
      have hStore := keepsEngctl_storeVA_coll (c := collCtx s p) rfl s1 (elemVA p.outva (collBytes c.fmt) i)
        (collBytes c.fmt) 1 v
      split
      · rename_i e
        rw [e] at hStore
        exact hDraw.trans hStore
      · exact hDraw
    exact hElem.trans (ih r.1 (i + 1))

theorem keepsEngctl_scatterPart (s : State) (key : Nat) (c : Coll) (p : CollPart) : KeepsEngctl s (scatterPart s key c p) := by
  unfold scatterPart
  exact iteInduction (fun _ => .refl s) fun _ => (keepsEngctl_scatterFrom c p _ s p.wrote).trans (.of_vds rfl rfl)

theorem keepsEngctl_scatterColls (s : State) (lseq : Nat) : KeepsEngctl s (scatterColls s lseq) := by
  refine .foldl (fun s x => .foldl (fun s p => ?_) _ s) _ s
  split
  · exact iteInduction (fun _ => keepsEngctl_scatterPart _ _ _ _) fun _ => .refl s
  · exact .refl s

/-! ## Threads and their records (R155, R165) -/

theorem keepsEngctl_toHostStream (s : State) (vd bits : Nat) : KeepsEngctl s (toHostStream s vd bits) := by
  unfold toHostStream
  split
  · rename_i h; exact .setVd h ⟨rfl, rfl, rfl⟩
  · exact .refl s

theorem keepsEngctl_eventSettle (s : State) (e : Event) : KeepsEngctl s (Event.settle s e) := by
  unfold Event.settle
  split
  · unfold subPend
    split
    · exact .of_vds rfl rfl
    · exact .refl s
  · exact .refl s

theorem keepsEngctl_enterEvent {s u : State} {e : Event} (h : enterEvent s e = some u) : KeepsEngctl s u := by
  have hHost := (keepsEngctl_eventSettle s e).trans (keepsEngctl_toHostStream _ e.vd (eventBits e s.time))
  unfold enterEvent at h
  split at h
  · cases h; exact hHost
  · split at h
    · cases h; exact hHost
    · split at h
      · cases h; exact (keepsEngctl_eventSettle s e).trans (.of_vds rfl rfl)
      · cases h

theorem keepsEngctl_post (s : State) (e : Event) : KeepsEngctl s (post s e) := by
  have hEntered (d : State) (hd : KeepsEngctl s d) : KeepsEngctl s ((enterEvent s e).getD d) := by
    cases h : enterEvent s e with
    | none => exact hd
    | some u => exact keepsEngctl_enterEvent h
  unfold post
  split
  · exact hEntered s (.refl s)
  · extract_lets x held
    have hHeld : KeepsEngctl s held := .of_vds rfl rfl
    exact iteInduction (fun _ => hEntered held hHeld) fun _ => hHeld

theorem keepsEngctl_showStores (s : State) (tid sc : Nat) : KeepsEngctl s (showStores s tid sc) :=
  iteInduction (fun _ => .refl s) fun _ => iteInduction (fun _ => .of_vds rfl rfl) fun _ => .of_vds rfl rfl

theorem keepsEngctl_forwardRecords (s : State) (tid : Nat) (t : Thread) (vd : Nat) : KeepsEngctl s (forwardRecords s tid t vd) := by
  unfold forwardRecords
  extract_lets x s1
  have hHost : KeepsEngctl s s1 := .foldl (fun s _ => keepsEngctl_toHostStream s vd _) _ s
  exact hHost.trans (.of_vds rfl rfl)

theorem keepsEngctl_endThread (s : State) (tid : Nat) : KeepsEngctl s (endThread s tid) := by
  unfold endThread
  split
  · exact .refl s
  · rename_i t _
    extract_lets s1 vd s2 s3
    have hPins : KeepsEngctl s s1 := (keepsEngctl_showStores s tid 4).trans (.of_vds rfl rfl)
    have hRecords : KeepsEngctl s s2 := hPins.trans (keepsEngctl_forwardRecords s1 tid t vd)
    have hLaunch : KeepsEngctl s2 s3 := by
      unfold s3
      split
      · exact .of_vds rfl rfl
      · exact .refl s2
    exact (hRecords.trans hLaunch).trans (.of_vds rfl rfl)

theorem keepsEngctl_endThreads (s : State) (lseq : Nat) : KeepsEngctl s (endThreads s lseq) :=
  KeepsEngctl.foldl (fun s (t : Nat × Thread) => keepsEngctl_endThread s t.1) _ s

theorem keepsEngctl_completeWait (s : State) (tid : Nat) (len : Word) : KeepsEngctl s (completeWait s tid len) := by
  unfold completeWait
  split
  · exact .of_vds rfl rfl
  · exact .refl s

theorem keepsEngctl_retryWait (s : State) (tid : Nat) : KeepsEngctl s (retryWait s tid) := by
  unfold retryWait
  split
  · exact .of_vds rfl rfl
  · exact .refl s

theorem keepsEngctl_wakeOnEnd (s : State) (lseq : Nat) : KeepsEngctl s (wakeOnEnd s lseq) := by
  refine .foldl (fun s x => ?_) s.threads s
  split
  · exact iteInduction (fun _ => keepsEngctl_completeWait _ _ _) fun _ => .refl s
  · exact iteInduction (fun _ => keepsEngctl_retryWait _ _) fun _ => .refl s
  · exact iteInduction (fun _ => keepsEngctl_retryWait _ _) fun _ => .refl s
  · exact iteInduction (fun _ => keepsEngctl_retryWait _ _) fun _ => .refl s
  · exact .refl s

/-! ## What a launch held (R76, R82, R105) -/

theorem keepsEngctl_freeSegs (s : State) (vd lseq : Nat) : KeepsEngctl s (freeSegs s vd lseq) := by
  unfold freeSegs
  split
  · rename_i h; exact .setVd h ⟨rfl, rfl, rfl⟩
  · exact .refl s

theorem keepsEngctl_freeBacks (s : State) (vd lseq : Nat) : KeepsEngctl s (freeBacks s vd lseq) := by
  unfold freeBacks
  split
  · rename_i h; exact .setVd h ⟨rfl, rfl, rfl⟩
  · exact .refl s

theorem keepsEngctl_dropHolder (s : State) (p tag : Nat) : KeepsEngctl s (dropHolder s p tag) :=
  iteInduction (fun _ => .refl s) fun _ => .of_vds rfl rfl

theorem keepsEngctl_clearEdges (s : State) (p : Nat) : KeepsEngctl s (clearEdges s p) :=
  (KeepsEngctl.foldl (fun s r => keepsEngctl_dropHolder s r.dst r.dtag) (plotOf s p).edges s).trans (.of_vds rfl rfl)

theorem keepsEngctl_releasePlot (s : State) (p : Nat) : KeepsEngctl s (releasePlot s p) := by
  have hScratch : KeepsEngctl s (emptyScratch s p) := .of_vds rfl rfl
  exact (hScratch.trans (keepsEngctl_clearEdges _ p)).trans (.of_vds rfl rfl)

theorem keepsEngctl_releasePlots (s : State) (lseq : Nat) : KeepsEngctl s (releasePlots s lseq) :=
  (KeepsEngctl.foldl keepsEngctl_releasePlot (heldPlots s lseq) s).trans (.of_vds rfl rfl)

/-! ## The end of a launch (R165, R323) -/

theorem keepsEngctl_endLaunch (s : State) (lseq status cause : Nat) (quiet : Bool) :
    KeepsEngctl s (endLaunch s lseq status cause quiet) := by
  unfold endLaunch
  split
  · exact .refl s
  · rename_i l _
    extract_lets s1 evs s2 s3 s4 s5 s6 s7 s8
    have hThreads : KeepsEngctl s s2 := (keepsEngctl_scatterColls s lseq).trans (keepsEngctl_endThreads s1 lseq)
    have hRecords : KeepsEngctl s2 s3 := iteInduction (fun _ => .refl s2) fun _ => .foldl keepsEngctl_post _ s2
    have hColls : KeepsEngctl s3 s4 := .of_vds rfl rfl
    have hFrames : KeepsEngctl s4 s5 := (keepsEngctl_freeSegs s4 l.vd lseq).trans (keepsEngctl_freeBacks _ l.vd lseq)
    have hPlots : KeepsEngctl s5 s6 := keepsEngctl_releasePlots s5 lseq
    have hGone : KeepsEngctl s6 s7 := .of_vds rfl rfl
    have hRecord : KeepsEngctl s7 s8 := iteInduction (fun _ => .refl s7) fun _ => keepsEngctl_post s7 _
    exact ((((((hThreads.trans hRecords).trans hColls).trans hFrames).trans hPlots).trans hGone).trans hRecord).trans
      (keepsEngctl_wakeOnEnd s8 lseq)

end Sys2Proof.Proofs
end

section
/-!
SUPPORT. Engagements (R220, R221, R225, R226): what the close of one leaves, which writes of ENGCTL are refused, and the statement
about them all (O25).
-/
namespace Sys2Proof.Proofs
open Sys2Proof Sys2Proof.Machine Sys2Proof.Laws

/-! ## A release at scope 4 (R109) -/

theorem mem_of_mem_landed {xs : List (PStore × Bool)} {e : PStore} (h : e ∈ (landed xs).1) : (e, false) ∈ xs := by
  induction xs with
  | nil => exact absurd h List.not_mem_nil
  | cons x xs ih =>
    obtain ⟨e', b⟩ := x
    unfold landed at h
    extract_lets rest at h
    split at h
    · exact List.mem_cons_of_mem _ (ih h)
    · rename_i stays
      rcases List.mem_cons.mp h with rfl | h
      · cases b
        · exact List.mem_cons_self
        · exact absurd rfl stays
      · exact List.mem_cons_of_mem _ (ih h)

/-! A release changes nothing but which stores are remembered (R108). -/

section
variable (s : State) (tid n : Nat)

@[simp] theorem showStores_four_cur : (showStores s tid 4).cur = s.cur := rfl
@[simp] theorem showStores_four_mem : (showStores s tid 4).mem = s.mem := rfl
@[simp] theorem showStores_four_receipts : (showStores s tid 4).receipts = s.receipts := rfl
@[simp] theorem threadOf_showStores_four : threadOf (showStores s tid 4) n = threadOf s n := rfl
@[simp] theorem vdOf_showStores_four : vdOf (showStores s tid 4) n = vdOf s n := rfl
@[simp] theorem slotOf_showStores_four : slotOf (showStores s tid 4) n = slotOf s n := rfl

end

/-- No store of a thread is left unseen by anyone after its release at scope 4. -/
theorem tid_ne_of_mem_showStores {s : State} {tid : Nat} {e : PStore} (h : e ∈ (showStores s tid 4).stores) : e.tid ≠ tid := by
  obtain ⟨e', -, same⟩ := List.mem_map.mp (mem_of_mem_landed h)
  obtain ⟨rfl, other⟩ := Prod.mk.inj same
  exact ne_of_beq_false other

/-! ## The close of an engagement (R225, R226) -/

theorem memGet_filter_of_false {p : Host.Cell → Bool} {a : Nat} (out : ∀ b, p (a, b) = false) (m : List Host.Cell) :
    memGet (m.filter p) a = 0#8 := by
  induction m with
  | nil => rfl
  | cons c m ih =>
    obtain ⟨k, b⟩ := c
    by_cases keep : p (k, b) = true
    · have ne : a ≠ k := by rintro rfl; simp [out b] at keep
      rw [List.filter_cons_of_pos keep, memGet, if_neg ne, ih]
    · rw [List.filter_cons_of_neg keep, ih]

/-- The ranges of DRAM that a close zeroes: the frames of its slot, and the backing pages and spill segments. -/
def zeroedRanges (x : KeySlot) : List (Nat × Nat) := x.frames.map (fun f => (65536 * f, 65536)) ++ x.backs ++ x.rings

theorem inRanges_of_mem {rs : List (Nat × Nat)} {r : Nat × Nat} (h : r ∈ rs) {b : Nat} (lt : b < r.2) :
    inRanges rs (r.1 + b) = true :=
  List.any_eq_true.mpr ⟨r, h, by simp [lt]⟩

section
variable (s : State) (k : Nat) (quiet : Bool)

theorem slotOf_scrub : (slotOf (scrub s k quiet) k).st = .closed ∧ (slotOf (scrub s k quiet) k).epoch = (slotOf s k).epoch := by
  simp [scrub, slotOf, putSlot, lookupD]

/-- The receipt of a close is kept (R225 step 7). -/
theorem receipts_scrub_ne_nil : (scrub s k quiet).receipts ≠ [] := by
  unfold scrub
  extract_lets x x' s1 ls mine npage s2 s3 s4 r
  refine List.ne_nil_of_length_pos ?_
  simp only [List.length_drop, List.length_append, List.length_singleton, receiptCap]
  omega

theorem memGet_zeroRanges {rs : List (Nat × Nat)} {a : Nat} (zeroed : inRanges rs a = true) :
    memGet (zeroRanges s rs).mem a = 0#8 :=
  memGet_filter_of_false (fun _ => by simp [zeroed]) _

theorem memGet_scrub {a : Nat} (zeroed : inRanges (zeroedRanges (slotOf s k)) a = true) :
    memGet (scrub s k quiet).mem a = 0#8 := by
  unfold scrub
  extract_lets x x' s1 ls mine npage s2 s3 s4 r
  clear_value s2
  exact memGet_zeroRanges s2 zeroed

theorem keepsEngctl_zeroRanges (rs : List (Nat × Nat)) : KeepsEngctl s (zeroRanges s rs) := by
  unfold zeroRanges
  extract_lets s1
  have hLand : KeepsEngctl s s1 := .foldl (f := fun s r => landStores s r.1 r.2) (fun _ _ => .of_vds rfl rfl) rs s
  exact hLand.trans (.of_vds rfl rfl)

/-- The launches that a close ends leave every device its ENGCTL. -/
theorem keepsEngctl_scrub : KeepsEngctl s (scrub s k quiet) := by
  unfold scrub
  extract_lets x x' s1 ls mine npage s2 s3 s4 r
  have hScrubs : KeepsEngctl s s1 := .of_vds rfl rfl
  have hEnds : KeepsEngctl s1 s2 := .foldl (fun s q => keepsEngctl_endLaunch s q 0 0 quiet) ls s1
  have hZero : KeepsEngctl s2 s3 := keepsEngctl_zeroRanges s2 _
  exact ((hScrubs.trans hEnds).trans hZero).trans (.of_vds rfl rfl)

end

/-! ## The four operations (R221) -/

/-- A device with SLOT and PEER as a write of ENGCTL gives them. -/
def addressed (v : VD) (w : Nat) : VD := { v with slot := w % 1024, peer := w / 2 ^ 20 % 16 }

section
variable {s : State} {n : Nat} {v : VD} {w : Nat}

theorem fld_slot (w : Nat) : fld w 9 0 = w % 1024 := by simp [fld]

theorem engctlWrite_set (op : w / 2 ^ 30 % 4 = 0) : engctlWrite s n v w = some (setVd s n (addressed v w)) := by
  unfold engctlWrite
  rw [show fld w 31 30 = 0 from op, fld_slot]
  rfl

theorem engctlWrite_open (op : w / 2 ^ 30 % 4 = 1) : engctlWrite s n v w = engOpen s n (addressed v w) (w % 1024) := by
  unfold engctlWrite
  rw [show fld w 31 30 = 1 from op, fld_slot]
  rfl

theorem engctlWrite_close (op : w / 2 ^ 30 % 4 = 2) : engctlWrite s n v w = engClose s n (addressed v w) (w % 1024) := by
  unfold engctlWrite
  rw [show fld w 31 30 = 2 from op, fld_slot]
  rfl

theorem engctlWrite_grant (op : w / 2 ^ 30 % 4 = 3) :
    engctlWrite s n v w = engGrant (setVd s n (addressed v w)) n (w % 1024) (w / 2 ^ 20 % 16) := by
  unfold engctlWrite
  rw [show fld w 31 30 = 3 from op, fld_slot]
  rfl

end

section
variable {s : State} {n k peer : Nat} {d : VD}

/-- The slot of a new engagement: its next epoch, and nothing that an earlier one left (R220). -/
def openedSlot (s : State) (n k : Nat) : KeySlot :=
  { st := .opened, epoch := nextEpoch (slotOf s k).epoch, engid := engOf k (nextEpoch (slotOf s k).epoch), owner := n, joined := [],
    granted := [], openAt := s.time, closeAt := 0, holders := [], frames := [], plots := [], backs := [], rings := [] }

theorem engOpen_closed (closed : (slotOf s k).st = .closed) : engOpen s n d k =
    some (setVd (putSlot s k (openedSlot s n k)) n { d with engid := (openedSlot s n k).engid }) := by
  simp only [engOpen, closed]
  rfl

theorem engOpen_granted (opened : (slotOf s k).st = .opened) (granted : (slotOf s k).granted.elem n = true) : engOpen s n d k =
    some (setVd (putSlot s k { slotOf s k with joined := addNat (slotOf s k).joined n }) n
      { d with engid := (slotOf s k).engid }) := by
  simp only [engOpen, opened, granted, if_true]

theorem engOpen_notGranted (opened : (slotOf s k).st = .opened) (not : (slotOf s k).granted.elem n = false) :
    engOpen s n d k = none := by
  simp only [engOpen, opened, not, Bool.false_eq_true, if_false]

theorem engOpen_scrubbing (scrubbing : (slotOf s k).st = .scrubbing) : engOpen s n d k = none := by
  simp only [engOpen, scrubbing]

theorem engClose_owner (opened : (slotOf s k).st = .opened) (owner : (slotOf s k).owner = n) : engClose s n d k =
    some (scrub (setVd s n { d with engid := (slotOf s k).engid }) k false) :=
  if_pos ⟨opened, owner⟩

theorem engClose_joined (opened : (slotOf s k).st = .opened) (other : (slotOf s k).owner ≠ n)
    (joined : (slotOf s k).joined.elem n = true) : engClose s n d k =
    some (setVd (putSlot s k { slotOf s k with joined := (slotOf s k).joined.filter (· != n) }) n
      { d with engid := (slotOf s k).engid }) :=
  (if_neg fun h => other h.2).trans (if_pos ⟨opened, joined⟩)

theorem engClose_none (h : (slotOf s k).st ≠ .opened ∨ (slotOf s k).owner ≠ n ∧ (slotOf s k).joined.elem n = false) :
    engClose s n d k = none := by
  refine (if_neg fun ⟨opened, owner⟩ => ?_).trans (if_neg fun ⟨opened, joined⟩ => ?_)
  · exact h.elim (· opened) fun h => h.1 owner
  · exact h.elim (· opened) fun h => Bool.false_ne_true (h.2.symm.trans joined)

theorem engGrant_owner (opened : (slotOf s k).st = .opened) (owner : (slotOf s k).owner = n) (ne : peer ≠ n) :
    engGrant s n k peer = some (putSlot s k { slotOf s k with granted := addNat (slotOf s k).granted peer }) :=
  if_pos ⟨opened, owner, ne⟩

theorem engGrant_none (h : (slotOf s k).st ≠ .opened ∨ (slotOf s k).owner ≠ n ∨ peer = n) : engGrant s n k peer = none :=
  if_neg fun ⟨opened, owner, ne⟩ => h.elim (· opened) fun h => h.elim (· owner) ne

end

/-! ## The instructions -/

theorem afterWrite_engctl_sets {s u : State} {w : Nat} (op : w / 2 ^ 30 % 4 = 0 ∨ w / 2 ^ 30 % 4 = 3) :
    afterWrite s 0x013#12 w u = u := by
  unfold afterWrite opensOrCloses
  rcases op with op | op <;> rw [show fld w 31 30 = _ from op] <;> rfl

/-- An open or close is a release at scope 4. -/
theorem afterWrite_engctl_releases {s u : State} {w : Nat} (op : w / 2 ^ 30 % 4 = 1 ∨ w / 2 ^ 30 % 4 = 2) :
    afterWrite s 0x013#12 w u = showStores u s.cur 4 := by
  unfold afterWrite opensOrCloses
  rcases op with op | op <;> rw [show fld w 31 30 = _ from op] <;> rfl

section
variable {s : State} {t : Thread} {a : Reg} {l : Launch} {v : VD} (serving : Serving s t [a]) (mode : t.mode = true)
  (launch : launchOf s t.lseq = some l) (device : vdOf s l.vd = some v) (cap : v.caps / 2 % 2 = 1)
include serving mode launch device cap

theorem sysWrite_engctl_refused (refused : engctlWrite s l.vd v (t.g a).toNat = none) :
    sysWrite 0x013#12 a s = trapped s t 0xC0 t.pc (BitVec.ofNat 64 ((t.g a).toNat % 1024)) :=
  sysWrite_error (sr := 0x013#12) serving mode rfl (capOk_engctl launch device cap) rfl
    (by simp [sharedWrite, launch, device, refused, fld_slot])

theorem sysWrite_engctl_taken {u w : State} (taken : engctlWrite s l.vd v (t.g a).toNat = some u)
    (after : afterWrite s 0x013#12 (t.g a).toNat u = w) (same : w.cur = s.cur) :
    (∀ t', threadOf w s.cur = some t' → sysWrite 0x013#12 a s = completed w t' 4#64) ∧
      (threadOf w s.cur = none → sysWrite 0x013#12 a s = .next w) :=
  sysWrite_ok (sr := 0x013#12) serving mode rfl (capOk_engctl launch device cap) rfl
    (by simp [sharedWrite, launch, device, taken]) after same

theorem sysWrite_engctl_sets {u : State} (op : (t.g a).toNat / 2 ^ 30 % 4 = 0 ∨ (t.g a).toNat / 2 ^ 30 % 4 = 3)
    (taken : engctlWrite s l.vd v (t.g a).toNat = some u) (same : SameThreads s u) :
    sysWrite 0x013#12 a s = completed u t 4#64 :=
  (sysWrite_engctl_taken serving mode launch device cap taken (afterWrite_engctl_sets op) same.cur).1 t
    ((same.threadOf s.cur).trans serving.1)

theorem sysWrite_engctl_releases {u : State} (op : (t.g a).toNat / 2 ^ 30 % 4 = 1 ∨ (t.g a).toNat / 2 ^ 30 % 4 = 2)
    (taken : engctlWrite s l.vd v (t.g a).toNat = some u) (same : SameThreads s u) :
    sysWrite 0x013#12 a s = completed (showStores u s.cur 4) t 4#64 :=
  (sysWrite_engctl_taken serving mode launch device cap taken (afterWrite_engctl_releases op) same.cur).1 t
    ((threadOf_showStores_four u s.cur s.cur).trans ((same.threadOf s.cur).trans serving.1))

end

/-- The machine after its owner has closed the engagement of slot `k` (R225): the device's ENGCTL names it, the slot is scrubbed and
closed (log 30), and the thread's stores have been released. -/
def closedEngagement (s : State) (n k : Nat) (d : VD) : State :=
  showStores (scrub (setVd s n { d with engid := (slotOf s k).engid }) k false) s.cur 4

section
variable (s : State) (n k : Nat) (d : VD)

theorem cur_closedEngagement : (closedEngagement s n k d).cur = s.cur := by
  rw [closedEngagement, showStores_four_cur, (keepsEngctl_scrub _ _ _).cur]
  rfl

theorem slotOf_closedEngagement : (slotOf (closedEngagement s n k d) k).st = .closed ∧
    (slotOf (closedEngagement s n k d) k).epoch = (slotOf s k).epoch := by
  rw [closedEngagement, slotOf_showStores_four]
  exact slotOf_scrub _ _ _

theorem receipts_closedEngagement_ne_nil : (closedEngagement s n k d).receipts ≠ [] := by
  rw [closedEngagement, showStores_four_receipts]
  exact receipts_scrub_ne_nil _ _ _

/-- The close leaves the device its ENGCTL as the write made it. -/
theorem vdOf_closedEngagement : ∃ d', vdOf (closedEngagement s n k d) n = some d' ∧
    d'.slot = d.slot ∧ d'.peer = d.peer ∧ d'.engid = (slotOf s k).engid := by
  rw [closedEngagement, vdOf_showStores_four]
  obtain ⟨d', found, slot, peer, engid⟩ := (keepsEngctl_scrub _ k false).device (vdOf_setVd s n _)
  exact ⟨d', found, slot, peer, engid⟩

theorem memGet_closedEngagement {r : Nat × Nat} (h : r ∈ zeroedRanges (slotOf s k)) {b : Nat} (lt : b < r.2) :
    memGet (closedEngagement s n k d).mem (r.1 + b) = 0#8 := by
  rw [closedEngagement, showStores_four_mem]
  exact memGet_scrub _ _ _ (inRanges_of_mem h lt)

end

/-- Settles O25: each operation by the state of its slot, its owner and who has joined it or may. The rows of the table are the MTS
of ENGCTL (log 18). A close is scrubbed and closed within its step (`closedEngagement`, log 30); the launches that it ends may
include the thread's own, and then the thread is gone. -/
theorem engagements : Obligations.Engagements := by
  unfold Obligations.Engagements
  intro s t a l v serving mode launch device cap x hx k peer op slot v' refused done released i row
  subst hx
  have mts : exec i s = sysWrite 0x013#12 a s := by
    simp only [List.mem_cons, List.not_mem_nil, or_false] at row
    rcases row with rfl | rfl | rfl | rfl | rfl <;> rfl
  rw [mts]
  have refuses (h : engctlWrite s l.vd v (t.g a).toNat = none) := sysWrite_engctl_refused serving mode launch device cap h
  have releases {u : State} := sysWrite_engctl_releases (u := u) serving mode launch device cap
  have sets {u : State} := sysWrite_engctl_sets (u := u) serving mode launch device cap
  refine ⟨?set, ?opens, ?joins, ?mayNotJoin, ?mayNotOpen, fun o st owner => ?closes, ?withdraws, ?mayNotClose, ?grants,
    ?mayNotGrant⟩
  case set => exact fun o => sets (.inl o) (engctlWrite_set o) ⟨rfl, rfl⟩
  case opens => exact fun o st => releases (.inl o) ((engctlWrite_open o).trans (engOpen_closed st)) ⟨rfl, rfl⟩
  case joins => exact fun o st may => releases (.inl o) ((engctlWrite_open o).trans (engOpen_granted st may)) ⟨rfl, rfl⟩
  case mayNotJoin => exact fun o st may => refuses ((engctlWrite_open o).trans (engOpen_notGranted st may))
  case mayNotOpen => exact fun o st => refuses ((engctlWrite_open o).trans (engOpen_scrubbing st))
  case withdraws =>
    exact fun o st other joined => releases (.inr o) ((engctlWrite_close o).trans (engClose_joined st other joined)) ⟨rfl, rfl⟩
  case mayNotClose => exact fun o no => refuses ((engctlWrite_close o).trans (engClose_none no))
  case grants => exact fun o st owner ne => sets (.inr o) ((engctlWrite_grant o).trans (engGrant_owner st owner ne)) ⟨rfl, rfl⟩
  case mayNotGrant => exact fun o no => refuses ((engctlWrite_grant o).trans (engGrant_none no))
  case closes =>
    obtain ⟨completes, gone⟩ := sysWrite_engctl_taken serving mode launch device cap
      ((engctlWrite_close o).trans (engClose_owner st owner)) (afterWrite_engctl_releases (.inr o))
      (cur_closedEngagement s l.vd k v')
    obtain ⟨closed, epoch⟩ := slotOf_closedEngagement s l.vd k v'
    refine ⟨closedEngagement s l.vd k v', completes, gone, closed, epoch, receipts_closedEngagement_ne_nil s l.vd k v',
      vdOf_closedEngagement s l.vd k v', fun e => tid_ne_of_mem_showStores, fun f frame b lt => ?frames,
      fun r range b lt => ?ranges⟩
    case frames =>
      have listed : (65536 * f, 65536) ∈ zeroedRanges slot :=
        List.mem_append_left _ (List.mem_append_left _ (List.mem_map_of_mem frame))
      exact memGet_closedEngagement s l.vd k v' listed lt
    case ranges =>
      have listed : r ∈ zeroedRanges slot := by
        rw [zeroedRanges, List.append_assoc]
        exact List.mem_append_right _ range
      exact memGet_closedEngagement s l.vd k v' listed lt

end Sys2Proof.Proofs
end

section
/-!
SUPPORT. The round trip of the encoding (R252 to R262), for every step, from the lemma of its constructor, and words written out
from the spec.
-/
namespace Sys2Proof.Proofs
open Sys2Proof Sys2Proof.Machine Sys2Proof.Laws

/-- The 103 instructions that have words, each by its own lemma; a step without words has nothing to decode. -/
theorem roundTrip (i : Instr) : RoundTrip.Statement i := by
  cases i with
  | nop => apply RoundTrip.nop | add => apply RoundTrip.add | sub => apply RoundTrip.sub
  | mul => apply RoundTrip.mul | mulh => apply RoundTrip.mulh | mulhu => apply RoundTrip.mulhu
  | div => apply RoundTrip.div | divu => apply RoundTrip.divu | rem => apply RoundTrip.rem
  | remu => apply RoundTrip.remu | and => apply RoundTrip.and | or => apply RoundTrip.or
  | xor => apply RoundTrip.xor | sll => apply RoundTrip.sll | srl => apply RoundTrip.srl
  | sra => apply RoundTrip.sra | min => apply RoundTrip.min | max => apply RoundTrip.max
  | minu => apply RoundTrip.minu | maxu => apply RoundTrip.maxu | clz => apply RoundTrip.clz
  | ctz => apply RoundTrip.ctz | popc => apply RoundTrip.popc | addsc => apply RoundTrip.addsc
  | sel => apply RoundTrip.sel | addImm => apply RoundTrip.addImm | andImm => apply RoundTrip.andImm
  | orImm => apply RoundTrip.orImm | xorImm => apply RoundTrip.xorImm | sllImm => apply RoundTrip.sllImm
  | srlImm => apply RoundTrip.srlImm | sraImm => apply RoundTrip.sraImm | addLong => apply RoundTrip.addLong
  | andLong => apply RoundTrip.andLong | orLong => apply RoundTrip.orLong | xorLong => apply RoundTrip.xorLong
  | bfx => apply RoundTrip.bfx | bfxS => apply RoundTrip.bfxS | bfi => apply RoundTrip.bfi
  | cmpCc => apply RoundTrip.cmpCc | cmpCcImm => apply RoundTrip.cmpCcImm | ld => apply RoundTrip.ld
  | st => apply RoundTrip.st | ldAcq => apply RoundTrip.ldAcq | stRel => apply RoundTrip.stRel
  | amoW => apply RoundTrip.amoW | amoD => apply RoundTrip.amoD | casW => apply RoundTrip.casW
  | casD => apply RoundTrip.casD | cas16 => apply RoundTrip.cas16 | fence => apply RoundTrip.fence
  | prefDc => apply RoundTrip.prefDc | prefL2 => apply RoundTrip.prefL2 | br => apply RoundTrip.br
  | brN => apply RoundTrip.brN | jal => apply RoundTrip.jal | jalr => apply RoundTrip.jalr
  | loop => apply RoundTrip.loop | halt => apply RoundTrip.halt | yield => apply RoundTrip.yield
  | mfs => apply RoundTrip.mfs | mts => apply RoundTrip.mts | trap => apply RoundTrip.trap
  | rett => apply RoundTrip.rett | wfe => apply RoundTrip.wfe | getev => apply RoundTrip.getev
  | wrpk => apply RoundTrip.wrpk | mtt => apply RoundTrip.mtt | smul => apply RoundTrip.smul
  | smax => apply RoundTrip.smax | srcp => apply RoundTrip.srcp | sexp2 => apply RoundTrip.sexp2
  | scopy => apply RoundTrip.scopy | scvt => apply RoundTrip.scvt | smov => apply RoundTrip.smov
  | sread => apply RoundTrip.sread | sbindS => apply RoundTrip.sbindS | sfree => apply RoundTrip.sfree
  | sbind => apply RoundTrip.sbind | sbindHandle => apply RoundTrip.sbindHandle | sbar => apply RoundTrip.sbar
  | glaunch => apply RoundTrip.glaunch | gloadsh => apply RoundTrip.gloadsh | gswap => apply RoundTrip.gswap
  | gdrain => apply RoundTrip.gdrain | gresume => apply RoundTrip.gresume | gend => apply RoundTrip.gend
  | cpy => apply RoundTrip.cpy | cpyT => apply RoundTrip.cpyT | cpym => apply RoundTrip.cpym
  | qfence => apply RoundTrip.qfence | qfenceColl => apply RoundTrip.qfenceColl | postc => apply RoundTrip.postc
  | taskend => apply RoundTrip.taskend | evpost => apply RoundTrip.evpost | coll => apply RoundTrip.coll
  | gbar => apply RoundTrip.gbar | cbwaitf => apply RoundTrip.cbwaitf | cbwaite => apply RoundTrip.cbwaite
  | cbadv => apply RoundTrip.cbadv | cbadvEos => apply RoundTrip.cbadvEos | cbget => apply RoundTrip.cbget
  | cbput => apply RoundTrip.cbput
  | _ => exact roundTrip_of_none rfl

/-- Settles O54: it is the round trip of every constructor. -/
theorem encodeThenDecode : Obligations.EncodeThenDecode := by
  unfold Obligations.EncodeThenDecode
  exact roundTrip

/-- Settles O56, word by word, by running the decoder. -/
theorem wordsDecode : Obligations.WordsDecode := by
  unfold Obligations.WordsDecode
  and_intros <;> rfl

end Sys2Proof.Proofs
end

section
/-!
SUPPORT. What the decoder accepts (R252 to R262): a word is what its fields hold, and the decoder checks every field that it does
not read as an operand, so the instruction that it answers is encoded as that very word.
-/
namespace Sys2Proof.Proofs
open Sys2Proof Sys2Proof.Machine Sys2Proof.Laws

/-! ## What a word holds -/

/-- The bits of a word from `s` up are `x`. -/
def HoldsAt (w : IWord) (s : Nat) {l : Nat} (x : BitVec l) : Prop := w.extractLsb' s l = x

section
variable {w : IWord} {s l m n k : Nat}

@[simp] theorem extractLsb'_eq_iff_holdsAt {x : BitVec l} : w.extractLsb' s l = x ↔ HoldsAt w s x := Iff.rfl

@[simp] theorem holdsAt_extractLsb' : HoldsAt w s (w.extractLsb' s l) := rfl

/-- A field in two parts: the lower stands first. (Where a reserved field stands beside an opcode's, the proofs below keep simp from
joining their literals, `-BitVec.reduceAppend`, so that each is met as the field the decoder checks.) -/
@[simp] theorem holdsAt_append {x : BitVec m} {y : BitVec n} :
    HoldsAt w s (no_index (x ++ y)) ↔ HoldsAt w (s + n) x ∧ HoldsAt w s y := by
  have parts : w.extractLsb' s (m + n) = w.extractLsb' (s + n) m ++ w.extractLsb' s n :=
    (BitVec.extractLsb'_append_extractLsb'_eq_extractLsb' rfl).symm
  rw [HoldsAt, HoldsAt, HoldsAt, parts]
  constructor
  · intro same
    have high := congrArg (BitVec.extractLsb' n m) same
    have low := congrArg (BitVec.extractLsb' 0 n) same
    rw [BitVec.extractLsb'_append_eq_left, BitVec.extractLsb'_append_eq_left] at high
    rw [BitVec.extractLsb'_append_eq_right, BitVec.extractLsb'_append_eq_right] at low
    exact ⟨high, low⟩
  · rintro ⟨rfl, rfl⟩
    rfl

theorem holdsAt_of_toNat (h : (w.extractLsb' s l).toNat = k) : HoldsAt w s (BitVec.ofNat l k) :=
  BitVec.eq_of_toNat_eq (by rw [← h]; simp)

@[simp] theorem holdsAt_encR {op : BitVec 6} {d a b : Reg} {fn : BitVec 8} : HoldsAt w 0 (encR op d a b fn) ↔
    HoldsAt w 26 op ∧ HoldsAt w 20 d ∧ HoldsAt w 14 a ∧ HoldsAt w 8 b ∧ HoldsAt w 0 fn := by
  simp [encR, and_assoc]

@[simp] theorem holdsAt_encI {op : BitVec 6} {d a : Reg} {i : BitVec 14} : HoldsAt w 0 (encI op d a i) ↔
    HoldsAt w 26 op ∧ HoldsAt w 20 d ∧ HoldsAt w 14 a ∧ HoldsAt w 0 i := by
  simp [encI, and_assoc]

@[simp] theorem holdsAt_encSu {d a : SName} {sop : BitVec 6} {md : BitVec 4} : HoldsAt w 0 (encSu d a sop md) ↔
    HoldsAt w 26 0x29#6 ∧ HoldsAt w 18 d ∧ HoldsAt w 10 a ∧ HoldsAt w 4 sop ∧ HoldsAt w 0 md := by
  simp [encSu, and_assoc]

@[simp] theorem holdsAt_zero_self : HoldsAt w 0 w := BitVec.extractLsb'_eq_self

/-- The whole word. -/
theorem holdsAt_zero_iff {x : IWord} : HoldsAt w 0 x ↔ w = x := by
  rw [HoldsAt, BitVec.extractLsb'_eq_self]

/-- Each word of `ws` is the word of `xs` at its place, and both are as long. -/
def HoldAll : List IWord → List IWord → Prop
  | [], [] => True
  | w :: ws, x :: xs => HoldsAt w 0 x ∧ HoldAll ws xs
  | _, _ => False

@[simp] theorem holdAll_nil : HoldAll [] [] := trivial

@[simp] theorem holdAll_cons {x : IWord} {ws xs : List IWord} :
    HoldAll (w :: ws) (x :: xs) ↔ HoldsAt w 0 x ∧ HoldAll ws xs := Iff.rfl

theorem holdAll_iff : ∀ {ws xs : List IWord}, HoldAll ws xs ↔ ws = xs
  | [], [] => iff_of_true trivial rfl
  | [], _ :: _ => iff_of_false id nofun
  | _ :: _, [] => iff_of_false id nofun
  | w :: ws, x :: xs => by rw [holdAll_cons, holdsAt_zero_iff, holdAll_iff, List.cons.injEq]

/-- A bit that is not set is clear. -/
@[simp] theorem not_holdsAt_one : ¬HoldsAt w s 1#1 ↔ HoldsAt w s 0#1 := by
  have bit : ∀ b : BitVec 1, ¬b = 1#1 ↔ b = 0#1 := by decide
  exact bit _

@[simp] theorem holdsAt_bit1 : HoldsAt w s (bit1 (w.extractLsb' s 1 == 1#1)) := by
  have bit : ∀ b : BitVec 1, b = bit1 (b == 1#1) := by decide
  exact bit _

/-- A field of four bits below 8 has its highest bit clear. -/
theorem holdsAt_top_zero (h : (w.extractLsb' s 4).toNat < 8) : HoldsAt w (s + 3) 0#1 := by
  have top : ∀ x : BitVec 4, x.toNat < 8 → x = 0#1 ++ x.extractLsb' 0 3 := by decide
  exact (holdsAt_append (m := 1) (n := 3) |>.mp (top _ h)).1

/-! A code that the tables of R257, R258 and R262 list is read as what is encoded by it. -/

theorem condCode_of_condOf {x : BitVec 3} {c : CmpCond} (h : condOf x.toNat = some c) : x = condCode c := by
  revert x; cases c <;> decide

theorem amoCode_of_amoOf {x : BitVec 3} {c : AmoOp} (h : amoOf x.toNat = some c) : x = amoCode c := by
  revert x; cases c <;> decide

theorem copCode_of_copOf {x : BitVec 3} {c : CollOp} (h : copOf x.toNat = some c) : x = copCode c := by
  revert x; cases c <;> decide

theorem oprCode_of_oprOf {x : BitVec 2} {c : CollRed} (h : oprOf x.toNat = some c) : x = oprCode c := by
  revert x; cases c <;> decide

theorem cfmtCode_of_cfmtOf {x : BitVec 3} {c : CollFmt} (h : cfmtOf x.toNat = some c) : x = cfmtCode c := by
  revert x; cases c <;> decide

end

/-! ## What a decoder answers -/

/-- What `r` answers, if anything, is a well-formed instruction, and the encoder writes it as `ws`. -/
def ReadsBack (ws : List IWord) (r : Except DecodeErr Instr) : Prop :=
  ∀ i, r = .ok i → i.wf = true ∧ encode i = ws

section
variable {ws : List IWord} {i : Instr}

@[simp] theorem readsBack_ok :
    ReadsBack ws (.ok i) ↔ i.wf = true ∧ HoldAll ws (encode i) := by
  rw [ReadsBack, holdAll_iff]
  constructor
  · exact fun reads => (reads i rfl).imp_right Eq.symm
  · rintro ⟨wf, words⟩ _ ⟨⟩
    exact ⟨wf, words.symm⟩

@[simp] theorem readsBack_error {e : DecodeErr} : ReadsBack ws (.error e) := nofun

@[simp] theorem readsBack_req {b : Bool} : ReadsBack ws (req b i) ↔ (b = true → ReadsBack ws (.ok i)) := by
  cases b <;> simp [req]

@[simp] theorem readsBack_ite {c : Prop} [Decidable c] {r r' : Except DecodeErr Instr} :
    ReadsBack ws (if c then r else r') ↔ (c → ReadsBack ws r) ∧ (¬c → ReadsBack ws r') := by
  split <;> simp_all

end

/-! ## The decoders of the major opcodes (R256 to R262)

In each case of a table the field that it turns on and the reserved fields hold their literals, and what is left are the
operands. -/

section
variable {w v : IWord}

@[simp] theorem readsBack_decodeR (op : HoldsAt w 26 0#6) : ReadsBack [w] (decodeR w) := by
  unfold decodeR
  dsimp only
  split
  case h_24 => simp +contextual [Instr.wf, encode, fD, fA, fB, op]
  all_goals
    next fn => simp +contextual [Instr.wf, encode, fD, fA, fB, op, holdsAt_of_toNat fn]

@[simp] theorem readsBack_decodeSh (op : HoldsAt w 26 0x05#6) : ReadsBack [w] (decodeSh w) := by
  unfold decodeSh
  split
  case h_4 => exact readsBack_error
  all_goals
    next kind => simp +contextual [Instr.wf, encode, fD, fA, fB, op, holdsAt_of_toNat kind]

@[simp] theorem readsBack_decodeBf (op : HoldsAt w 26 0x0A#6) : ReadsBack [w] (decodeBf w) := by
  unfold decodeBf
  dsimp only
  split
  case h_4 => exact readsBack_error
  all_goals
    next kind => simp +contextual [Instr.wf, encode, fD, fA, op, holdsAt_of_toNat kind]

@[simp] theorem readsBack_decodeCmp {imm : Bool} (op : HoldsAt w 26 (if imm then 0x0C#6 else 0x0B#6)) :
    ReadsBack [w] (decodeCmp imm w) := by
  unfold decodeCmp
  split
  · exact readsBack_error
  · next c listed =>
    have code : HoldsAt w 20 (condCode c) := condCode_of_condOf listed
    cases imm <;> simp_all [Instr.wf, encode, fPd, fA, fB, fFn, fImm14]

@[simp] theorem readsBack_decodeAmo {dword : Bool} (op : HoldsAt w 26 (if dword then 0x15#6 else 0x14#6)) :
    ReadsBack [w] (decodeAmo dword w) := by
  unfold decodeAmo
  dsimp only
  split
  · exact readsBack_error
  · next aop listed =>
    have code : HoldsAt w 5 (amoCode aop) := amoCode_of_amoOf listed
    cases dword <;> simp_all [Instr.wf, encode, fD, fA, fB]

@[simp] theorem readsBack_decodeCas (op : HoldsAt w 26 0x16#6) : ReadsBack [w] (decodeCas w) := by
  unfold decodeCas
  dsimp only
  split
  case h_4 => exact readsBack_error
  all_goals
    next kind => simp +contextual [Instr.wf, encode, fD, fA, fB, op, holdsAt_of_toNat kind]

@[simp] theorem readsBack_decodeX (op : HoldsAt w 26 0x17#6) : ReadsBack [w] (decodeX w) := by
  unfold decodeX
  dsimp only
  split
  · next kind => simp +contextual [Instr.wf, encode, fA, fImm14, op, holdsAt_of_toNat kind]
  · next kind =>
    split
    case h_3 => exact readsBack_error
    all_goals
      next lev => simp [-BitVec.reduceAppend, Instr.wf, encode, fA, fImm14, op, holdsAt_of_toNat kind, holdsAt_of_toNat lev]
  · exact readsBack_error

@[simp] theorem readsBack_decodeBr (op : HoldsAt w 26 0x18#6) : ReadsBack [w] (decodeBr w) := by
  simp +contextual [decodeBr, Instr.wf, encode, fPd, op]

/-- HALT and YIELD: the 26 bits below the opcode are zero down to FN. -/
@[simp] theorem readsBack_decodeHalt (op : HoldsAt w 26 0x1C#6) : ReadsBack [w] (decodeHalt w) := by
  have fields {fn : BitVec 8} (h : HoldsAt w 0 (0#6 ++ 0#6 ++ 0#6 ++ fn)) : HoldsAt w 0 (encR 0x1C 0 0 0 fn) := by
    simpa [-BitVec.reduceAppend, op, and_assoc] using h
  unfold decodeHalt
  split
  · next low => simpa [Instr.wf, encode] using fields (holdsAt_of_toNat low)
  · next low => simpa [Instr.wf, encode] using fields (holdsAt_of_toNat low)
  · exact readsBack_error

@[simp] theorem readsBack_decodeSys (op : HoldsAt w 26 0x23#6) : ReadsBack [w] (decodeSys w) := by
  unfold decodeSys
  split
  case h_5 => exact readsBack_error
  all_goals
    next fn => simp +contextual [Instr.wf, encode, fD, fA, fB, op, holdsAt_of_toNat fn]

@[simp] theorem readsBack_decodeSu (op : HoldsAt w 26 0x29#6) : ReadsBack [w] (decodeSu w) := by
  unfold decodeSu
  dsimp only
  split
  case h_4 sop =>
    split
    case h_3 => exact readsBack_error
    all_goals
      next format => simp [Instr.wf, encode, op, holdsAt_of_toNat sop, holdsAt_of_toNat format, bit1]
  case h_5 => exact readsBack_error
  all_goals
    next sop => simp +contextual [Instr.wf, encode, op, holdsAt_of_toNat sop]

@[simp] theorem readsBack_decodeSs (op : HoldsAt w 26 0x28#6) : ReadsBack [w] (decodeSs w) := by
  unfold decodeSs
  split
  case h_3 => exact readsBack_error
  all_goals
    next kind => simp [Instr.wf, encode, op, holdsAt_of_toNat kind]

@[simp] theorem readsBack_decodeSg (op : HoldsAt w 26 0x2A#6) : ReadsBack [w] (decodeSg w) := by
  unfold decodeSg
  split
  case h_3 => exact readsBack_error
  all_goals
    next kind => simp [Instr.wf, encode, fD, op, holdsAt_of_toNat kind]

@[simp] theorem readsBack_decodeSbS (op : HoldsAt w 26 0x2B#6) : ReadsBack [w] (decodeSbS w) := by
  unfold decodeSbS
  split
  case h_3 => exact readsBack_error
  all_goals
    next fn => simp +contextual [Instr.wf, encode, fD, fA, fB, op, holdsAt_of_toNat fn]

@[simp] theorem readsBack_decodeSbind (op : HoldsAt w 26 0x30#6) : ReadsBack [w, v] (decodeSbind w v) := by
  simp +contextual [-BitVec.reduceAppend, decodeSbind, Instr.wf, encode, fD, fA, op]

@[simp] theorem readsBack_decodeG (op : HoldsAt w 26 0x32#6) : ReadsBack [w] (decodeG w) := by
  unfold decodeG
  dsimp only
  split
  case h_7 => exact readsBack_error
  all_goals
    next gop => simp +contextual [Instr.wf, encode, fD, fA, op, holdsAt_of_toNat gop]

@[simp] theorem readsBack_decodeCpy (op : HoldsAt w 26 0x33#6) : ReadsBack [w, v] (decodeCpy w v) := by
  simp +contextual [decodeCpy, Instr.wf, encode, fD, fA, fB, op]

@[simp] theorem readsBack_decodeCpym (op : HoldsAt w 26 0x34#6) : ReadsBack [w, v] (decodeCpym w v) := by
  simp +contextual [decodeCpym, Instr.wf, encode, fD, fA, fB, op]

@[simp] theorem readsBack_decodeE36 (op : HoldsAt w 26 0x36#6) : ReadsBack [w] (decodeE36 w) := by
  unfold decodeE36
  dsimp only
  split
  case h_4 => exact readsBack_error
  case h_1 fn => simp +contextual [Instr.wf, encode, fA, fB, op, holdsAt_of_toNat fn]
  case h_2 fn =>
    have queue (zero : HoldsAt w 20 0#2) (none : HoldsAt w 22 0#4) : HoldsAt w 20 0#6 :=
      holdsAt_append (x := 0#4) (y := 0#2) |>.mpr ⟨none, zero⟩
    simp +contextual [Instr.wf, encode, fA, fB, op, holdsAt_of_toNat fn, queue]
  case h_3 fn =>
    simp +contextual [Instr.wf, encode, fA, fB, op, holdsAt_of_toNat fn, holdsAt_top_zero]

@[simp] theorem readsBack_decodeColl (op : HoldsAt w 26 0x37#6) : ReadsBack [w, v] (decodeColl w v) := by
  unfold decodeColl
  split
  · next cop opr fmt cops oprs fmts =>
    have copCode : HoldsAt w 5 (copCode cop) := copCode_of_copOf cops
    have oprCode : HoldsAt w 3 (oprCode opr) := oprCode_of_oprOf oprs
    have fmtCode : HoldsAt w 0 (cfmtCode fmt) := cfmtCode_of_cfmtOf fmts
    simp +contextual [Instr.wf, encode, fD, fA, op, copCode, oprCode, fmtCode]
  · exact readsBack_error

@[simp] theorem readsBack_decodeCb (op : HoldsAt w 26 0x39#6) : ReadsBack [w] (decodeCb w) := by
  unfold decodeCb
  dsimp only
  split
  case h_4 not0 not1 not2 =>
    have kind : HoldsAt w 20 3#2 := by
      have last : ∀ x : BitVec 2, x.toNat ≠ 0 → x.toNat ≠ 1 → x.toNat ≠ 2 → x = 3#2 := by decide
      exact last _ not0 not1 not2
    simp +contextual [Instr.wf, encode, op, kind]
  all_goals
    next kind => simp +contextual [Instr.wf, encode, op, holdsAt_of_toNat kind]

@[simp] theorem readsBack_decodeCbg (op : HoldsAt w 26 0x3A#6) : ReadsBack [w] (decodeCbg w) := by
  simp +contextual [decodeCbg, Instr.wf, encode, fD, op]

/-! ## The decoder -/

/-- The two parts of a long immediate stand in the two words (R254, format L). -/
@[simp] theorem immLong_high : (immLong w v).extractLsb' 32 14 = fImm14 w := BitVec.extractLsb'_append_eq_left

@[simp] theorem immLong_low : (immLong w v).extractLsb' 0 32 = v := BitVec.extractLsb'_append_eq_right

/-- The words that the decoder reads for one instruction: the major opcode fixes how many (R252). -/
def wordsRead (w v : IWord) : List IWord := if isTwoWord w then [w, v] else [w]

theorem readsBack_decode : ReadsBack (wordsRead w v) (decode w v) := by
  unfold decode
  split
  · exact readsBack_error
  · split
    case h_47 => exact readsBack_error
    all_goals
      next op =>
        simp +contextual [-BitVec.reduceAppend, wordsRead, isTwoWord, op, holdsAt_of_toNat op, decodeMem, Instr.wf, encode,
          fD, fA, fImm14, fSz, fU]

end

/-- Settles O55, opcode by opcode: what a decoder of each answers reads back as the words it was given (`readsBack_decode…`). -/
theorem decodeThenEncode : Obligations.DecodeThenEncode := by
  unfold Obligations.DecodeThenEncode
  exact fun w v => readsBack_decode

end Sys2Proof.Proofs
end
